-- ==== Sys2Proof/Word.lean ====
section
/-! DEFINITION. The words a station can see on the two lines (R201): bytes and the unsigned quantities of 2, 3 and 4 bytes. -/

namespace Sys2Proof

/-- One payload byte (R191). -/
abbrev Byte := BitVec 8
/-- An unsigned quantity of 2 bytes (R201). -/
abbrev U16 := BitVec 16
/-- An unsigned quantity of 3 bytes (R201). -/
abbrev U24 := BitVec 24
/-- An unsigned quantity of 4 bytes (R201). -/
abbrev U32 := BitVec 32
/-- A day number 0..65,535, which wraps from 65,535 to 0 (00, Conventions, Days). -/
abbrev Day := BitVec 16

end Sys2Proof
end

