-- ==== Sys2Proof/Config.lean ====
section
/-! DEFINITION. The fixed sizes of the LCE-24, each with the rule that gives it, and the two values the manual leaves open
as constants without a body (nothing about their value can be proved). -/

namespace Sys2Proof.Config

/-- Places of the office receive queue (R194). -/
abbrev officeQueuePlaces : Nat := 16
/-- Places of the floor transmit queue (R197). -/
abbrev floorQueuePlaces : Nat := 32
/-- Places of the return queue (R122). -/
abbrev returnQueuePlaces : Nat := 64
/-- Records of one manifest half (R114). -/
abbrev manifestHalfPlaces : Nat := 64
/-- Outstanding releases at most (R106). -/
abbrev maxReleases : Nat := 4
/-- Lines of a pack at most (R57). -/
abbrev packLines : Nat := 8
/-- Words of table memory (R180). -/
abbrev tableWords : Nat := 1048576
/-- The largest class capacity, block offset and used blocks (R73, R181). -/
abbrev maxBlocks : Nat := 4194304

/-- FREE VALUE (log 15): the spare words READ_SETUP shows for a geometry whose budget total, the argument, exceeds table
memory. R180 and R187 give the spare words of a geometry that fits and no value for one that does not. -/
opaque spareOverBudget : Nat → U24

/-- FREE VALUE (log 14): the waiting count in the REPLY of the n-th refused ORDER. R201 gives the field its place in the
reply, and no rule gives its value when the order is refused. -/
opaque refusedWaitingCount : Nat → U16

end Sys2Proof.Config
end

