-- ==== Sys2Proof/Syntax.lean ====
section
/-! DEFINITION. The commands of the part: one constructor of `Instr` for each row of spec/opcode_table.json.
A command that stands for a frame carries the payload fields of that frame as the line carries them (R201 to R203),
out-of-range values included: the meaning checks them. Frames, characters and ports are those of the line chapter. -/

namespace Sys2Proof

/-- One character of a line (R190): eight data bits, the mark bit, the parity bit, and the stop bit (true = mark). Its start bit is
a space in every character; `Machine.Chr.bits` gives all 12 bits in their order. -/
structure Chr where
  data : Byte
  mark : Bool
  parity : Bool
  stop : Bool
  deriving DecidableEq, Repr

/-- A frame's content (R191): destination, source, kind and payload; length and check follow from these. -/
structure Frame where
  dst : Byte
  src : Byte
  kind : Byte
  payload : List Byte
  deriving DecidableEq, Repr

/-- The two serial ports (10, first paragraph). -/
inductive Port
  | office
  | floor
  deriving DecidableEq, Repr

/-- The commands: management requests, order frames, frames from the floor stations, and the part's own steps. -/
inductive Instr
  -- resets (R188, R189)
  | resetPin
  | powerOn
  | reset
  | resetAfterReply
  | restart
  -- setup (09)
  | setGeometry (p t q c j : U16)
  | setClass (cls : Byte) (capacity : U24)
  | setLines (officeRate floorRate : Byte)
  | officeRateChange
  | floorRateChange
  | setDay (d : U16)
  | openService
  | setSetting (setting value : Byte)
  -- records (01)
  | loadPatron (patron : U16) (present status patronClass level formats cartridgeClass quota agency : Byte) (code : U24)
  | loadAgency (agency : U16) (present : Byte) (code : U24)
  | loadTitle (title : U16) (present format policy level availability : Byte) (extent : U16)
      (granularity shelfClass volumes : Byte) (weight : U16)
  | readRecord (table : Byte) (index : U16)
  -- bays and jobs, requests (04)
  | setBay (bay address classes preempt : Byte)
  | bayOnline (bay : Byte)
  | bayOffline (bay : Byte)
  | buildStock (title : U16) (copies : Byte)
  | raiseJob (job : U16)
  -- packs and days (03, 08)
  | flushPack (patron : U16)
  | day (d : U16)
  -- dispatch, requests (05)
  | setWindow (window enabled : Byte) (low high : U24) (chute mailClass transit : Byte) (limit : U16) (hold : Byte)
  | releaseManifest (half : Byte)
  | readManifest (half index : Byte)
  | readDispatch
  -- inspection, requests (06)
  | setChannel (channel mode action store reference : Byte)
  | setThreshold (entry : Byte) (value : U16)
  | inspectSuspend
  | inspectResume
  | clearHits
  | readInspection
  | readChannel (channel : Byte)
  -- stock, requests (07)
  | stockAdd (cls : Byte) (n : U16)
  | stockAddTitle (title n : U16)
  | repaired (cls : Byte) (n title : U16)
  | retireRepair (cls : Byte) (n title : U16)
  | declareLost (consignment : U16)
  | readStock (cls : Byte)
  -- read-outs, faults and notices, requests (08 to 11)
  | readDay
  | readSetup
  | clearLineFaults
  | readLines
  | setMask (mask : U16)
  | readNotices
  | unlistedManagementKind (src kind : Byte) (payload : List Byte)
  -- order frames (02)
  | order (src : Byte) (patron title : U16)
  | probe (src : Byte) (patron title : U16)
  | cancel (src : Byte) (patron title : U16)
  -- bays: the stall timer and the frames of a bay (04)
  | stallExpiry (bay : Byte)
  | started (src : Byte) (job : U16) (serial : U32)
  | progress (src : Byte) (job : U16) (blocks : U24)
  | parked (src : Byte) (job : U16) (offset : U24)
  | copyDone (src : Byte) (job : U16) (serial : U32) (result : Byte)
  | bayFault (src code : Byte)
  -- the pick protocol (03)
  | pick
  | picked (src : Byte) (consignment : U16) (serial : U32)
  | notFound (src : Byte) (consignment : U16)
  -- the sorter (05)
  | releasePass
  | chuted (src : Byte) (consignment : U16)
  | chuteFull (src : Byte) (consignment : U16) (chute : Byte)
  | chuteClear (src chute : Byte)
  -- the return scanner and the inspection (06)
  | returnItem (src : Byte) (consignment postDay : U16) (part : Byte) (serial : U32) (presence : U16) (readings : List U16)
  | owedReturnAnswer
  | inspectionCompletion
  -- the day sweep (08)
  | sweepStep
  -- the Line Interface (10, 11)
  | owedCommandHandOn
  | officeFrameReceive (chars : List Chr)
  | officePeerFrame
  | forwardToFloor
  | floorForward (frame : Frame)
  | frameDiscard (port : Port) (chars : List Chr)
  | strayFloorFrame (frame : Frame)
  | quiet (src : Byte)
  | sendReply
  | sendForwardedFrame
  | notice
  | floorSend
  | poll
  | replyTurnGrant
  | replyWindowExpiry
  | turnSilenceExpiry
  | floorFrameNotTaken (frame : Frame)
  deriving DecidableEq, Repr

end Sys2Proof
end

