-- ==== Sys2Proof/Machine/State.lean ====
section
/-! DEFINITION. The state of the LCE-24 as plain data, block by block (00, Block overview), and its full-reset value.
Records of the six tables stand in `Table`s keyed by record number; an absent or FREE record has no entry (log 6).
Lists that the manual links through records are held as lists; their links are read off them (log 5). -/

namespace Sys2Proof.Machine

/-- Why a command could stop the part: no rule of the spec stops it, so there is no constructor (log 34). Safe. -/
inductive Fault
  deriving DecidableEq, Repr

/-- Why a command could be refused by the model. -/
inductive Refusal
  /-- Raised by an arm of `exec` whose command has no meaning yet; no arm is in that case (log 34). Safe. -/
  | notModelled (mnemonic : String)
  deriving DecidableEq, Repr

/-- A table of records by record number; canonical when the numbers rise strictly (`Table.wf`). -/
abbrev Table (α : Type) : Type := List (Nat × α)

/-! ## Named values (each list in the order the manual writes it, R201) -/

inductive Mode
  | setup
  | service
  deriving DecidableEq, Repr

/-- The line rates 115,200, 460,800 and 1,843,200 bit/s (R183). -/
inductive LineRate
  | r115200
  | r460800
  | r1843200
  deriving DecidableEq, Repr

inductive PatronStatus
  | active
  | suspended
  deriving DecidableEq, Repr

inductive PatronClass
  | standard
  | priority
  | institution
  deriving DecidableEq, Repr

inductive TitleFormat
  | audio
  | braille
  deriving DecidableEq, Repr

inductive Policy
  | onDemand
  | shelf
  deriving DecidableEq, Repr

inductive Availability
  | available
  | withdrawn
  deriving DecidableEq, Repr

/-- The states of a consignment that is not FREE (R50). -/
inductive ConsState
  | assembling
  | sealed
  | duplicating
  | picking
  | ready
  | releasing
  | posted
  deriving DecidableEq, Repr

inductive ConsKind
  | pack
  | shelfAudio
  | braillePart
  deriving DecidableEq, Repr

inductive LineState
  | isOpen
  | closed
  deriving DecidableEq, Repr

/-- The verdicts a channel can bring about, in the order of severity (R137). -/
inductive Verdict
  | pass
  | note
  | repair
  | retire
  deriving DecidableEq, Repr

/-- The states of a job that is not FREE (R73). -/
inductive JobState
  | queued
  | pending
  | active
  | parked
  deriving DecidableEq, Repr

inductive JobKind
  | pack
  | stock
  deriving DecidableEq, Repr

inductive BayState
  | offline
  | idle
  | loading
  | writing
  | parking
  | faulted
  deriving DecidableEq, Repr

/-- A bay's fault cause; `reported` carries the code of the BAY_FAULT frame (R75, R94). -/
inductive BayCause
  | none
  | stall
  | reported (code : Byte)
  deriving DecidableEq, Repr

inductive MailClass
  | concession
  | priority
  deriving DecidableEq, Repr

inductive ChannelMode
  | off
  | above
  | below
  | inside
  | outside
  deriving DecidableEq, Repr

inductive ChannelAction
  | note
  | repair
  | retire
  deriving DecidableEq, Repr

inductive ChannelStore
  | none
  | onHit
  | always
  deriving DecidableEq, Repr

inductive ChannelReference
  | absolute
  | partWeight
  deriving DecidableEq, Repr

inductive NoticeMode
  | off
  | onHit
  | onRetire
  deriving DecidableEq, Repr

/-- The twelve notices in their fixed priority order (R206). -/
inductive NoticeId
  | lineFault
  | bayFault
  | jobFailed
  | manifestFull
  | manifestHalf
  | pickShort
  | restoreDropped
  | returnException
  | inspection
  | blankShort
  | poolExhausted
  | sweepDone
  deriving DecidableEq, Repr

/-! ## Records -/

/-- A present patron (R3 static fields, R4 dynamic fields). -/
structure Patron where
  status : PatronStatus
  patronClass : PatronClass
  level : Nat
  audio : Bool
  braille : Bool
  cartridgeClass : Nat
  quota : Nat
  agency : Nat
  code : Nat
  charge : Nat := 0
  wish : List Nat := []
  chain : List Nat := []
  openPack : Nat := 0
  overdue : Nat := 0
  held : Bool := false
  deriving DecidableEq, Repr

/-- A present agency (R6). -/
structure Agency where
  code : Nat
  members : Nat := 0
  deriving DecidableEq, Repr

/-- A present title: static fields (R7), waiting list (R7), copy accounts (R8). -/
structure Title where
  format : TitleFormat
  policy : Policy
  level : Nat
  availability : Availability
  extent : Nat
  granularity : Nat
  shelfClass : Nat
  volumes : Nat
  weight : Nat
  waiting : List Nat := []
  copies : Nat := 0
  shelf : Nat := 0
  out : Nat := 0
  repair : Nat := 0
  deriving DecidableEq, Repr

/-- A WAITING request (R23). -/
structure Request where
  patron : Nat
  title : Nat
  day : Day
  deriving DecidableEq, Repr

/-- A line of a consignment (R50). -/
structure Line where
  title : Nat
  origin : Day
  state : LineState := .isOpen
  deriving DecidableEq, Repr

/-- A consignment that is not FREE (R50); fields that do not apply to its kind hold 0. -/
structure Consignment where
  state : ConsState
  kind : ConsKind
  patron : Nat
  window : Nat
  cartridgeClass : Nat := 0
  serial : Option U32 := none
  lines : List Line := []
  used : Nat := 0
  sealPriority : Nat := 0
  part : Nat := 0
  parts : Nat := 0
  head : Nat := 0
  volumes : Nat := 0
  weight : Nat := 0
  overweight : Bool := false
  returned : Nat := 0
  headReturned : Bool := false
  worst : Verdict := .pass
  overdue : Bool := false
  openDay : Day
  postDay : Day := 0
  dueDay : Day := 0
  job : Nat := 0
  deriving DecidableEq, Repr

/-- A job that is not FREE (R73). -/
structure Job where
  state : JobState
  kind : JobKind
  priority : Nat
  consignment : Nat := 0
  title : Nat := 0
  cartridgeClass : Nat
  remaining : Nat := 0
  offset : Nat := 0
  serial : Option U32 := none
  retry : Bool := false
  bay : Nat := 0
  deriving DecidableEq, Repr

/-- A bay record (R75). The stack's first element is its top; `owed` is oldest first. -/
structure Bay where
  address : Nat := 0
  classes : Byte := 0
  preempt : Bool := false
  state : BayState := .offline
  active : Nat := 0
  stack : List Nat := []
  preemptor : Nat := 0
  timer : Nat := 0
  running : Bool := false
  cause : BayCause := .none
  owed : List Frame := []
  deriving DecidableEq, Repr

/-- An entry of the zone window table (R101); its defaults are the full-reset values of windows 1..15. -/
structure Window where
  enabled : Bool := false
  low : Nat := 0
  high : Nat := 0
  chute : Nat := 1
  mailClass : MailClass := .concession
  transit : Nat := 0
  limit : Nat := 30000
  hold : Bool := false
  deriving DecidableEq, Repr

/-- An outstanding release (R106). -/
structure Release where
  consignment : Nat
  chute : Nat
  mailClass : MailClass
  deriving DecidableEq, Repr

/-- A manifest record (R114). -/
structure ManifestRecord where
  consignment : Nat
  patron : Nat
  kind : ConsKind
  part : Nat
  parts : Nat
  window : Nat
  chute : Nat
  mailClass : MailClass
  serial : U32
  weight : Nat
  overweight : Bool
  postDay : Day
  dueDay : Day
  deriving DecidableEq, Repr

/-- A return item (R122); `readings` pairs each channel of the presence set with its signed reading. -/
structure ReturnItem where
  consignment : Nat
  postDay : Day
  part : Nat
  serial : U32
  readings : List (Nat × Int)
  deriving DecidableEq, Repr

/-- A channel configuration (R130), with its full-reset values. -/
structure Channel where
  mode : ChannelMode := .off
  action : ChannelAction := .note
  store : ChannelStore := .none
  reference : ChannelReference := .absolute
  deriving DecidableEq, Repr

/-- A stored reading (R136), with its full-reset values. -/
structure StoredReading where
  valid : Bool := false
  value : Int := 0
  consignment : Nat := 0
  deriving DecidableEq, Repr

/-- The counts of one cartridge class (R148). -/
structure ClassAccount where
  stock : Nat := 0
  blank : Nat := 0
  reserved : Nat := 0
  consigned : Nat := 0
  shelf : Nat := 0
  repair : Nat := 0
  bound : Nat := 0
  deriving DecidableEq, Repr

/-- One notice (R206). -/
structure NoticeCell where
  latch : Bool := false
  count : Nat := 0
  subject : Nat := 0
  deriving DecidableEq, Repr

/-! ## The blocks -/

/-- A reply turn (R198); `silence` is set once a parity or framing error has been met in it. -/
structure Turn where
  station : Nat
  silence : Bool := false
  deriving DecidableEq, Repr

/-- The Line Interface (10). `officeIn` and `floorIn` hold the characters so far of the frame in reception on a port (R191),
empty while none is; `officeLost` says that RESTART was taken during the office port's, and `carried` names the station whose
reply turn RESTART ended during the floor port's (R189, R200); `early` says that the floor port's began before the reply turn
in progress (R198; log 13). `answering`: a request has left the office receive queue and its REPLY has not entered the slot,
which is so within a step only (R194; log 10). `contended`: a frame has left the full floor transmit queue, and a producer
that waited for its place waits still (R197; log 10). `ratesNext` holds the office and floor rate of each SET_LINES whose REPLY has
not been sent (R183). -/
structure LineUnit where
  officeIn : List Chr := []
  officeLost : Bool := false
  officeRx : List Frame := []
  answering : Bool := false
  replySlot : Option Frame := none
  forward : Option Frame := none
  officeSending : Option Frame := none
  floorTx : List Frame := []
  contended : Bool := false
  floorSending : Option Frame := none
  turn : Option Turn := none
  floorIn : List Chr := []
  carried : Option Nat := none
  early : Bool := false
  pollSet : BitVec 64 := 0
  pollPos : Nat := 0
  officeFaults : Byte := 0
  floorFaults : Byte := 0
  missed : Vector Nat 47 := Vector.replicate 47 0
  officeRate : LineRate := .r115200
  floorRate : LineRate := .r115200
  ratesNext : List (LineRate × LineRate) := []
  floorNext : Option LineRate := none
  deriving DecidableEq, Repr

/-- The Record Store (01). -/
structure RecordUnit where
  patrons : Table Patron := []
  agencies : Table Agency := []
  titles : Table Title := []
  deriving DecidableEq, Repr

/-- The Assembly Unit (03). -/
structure AssemblyUnit where
  cons : Table Consignment := []
  sealedList : List Nat := []
  picks : List Nat := []
  picksSent : Nat := 0
  deriving DecidableEq, Repr

/-- The Duplication Scheduler (04), with the seconds count that drives its timers. -/
structure SchedulerUnit where
  jobs : Table Job := []
  queues : Vector (List Nat) 4 := Vector.replicate 4 []
  bays : Vector Bay 24 := Vector.replicate 24 {}
  seconds : Nat := 0
  deriving DecidableEq, Repr

/-- The Dispatch Unit (05). -/
structure DispatchUnit where
  windows : Vector Window 16 := Vector.replicate 16 {}
  ready : List Nat := []
  outstanding : List Release := []
  blocked : U32 := 0
  half0 : List ManifestRecord := []
  half1 : List ManifestRecord := []
  filling : Bool := false
  deriving DecidableEq, Repr

/-- The Return Inspection Unit (06). -/
structure ReturnUnit where
  queue : List ReturnItem := []
  item : Option ReturnItem := none
  owedAnswer : Option Frame := none
  suspended : Bool := false
  suspendPending : Bool := false
  channels : Vector Channel 16 := Vector.replicate 16 {}
  thresholds : Vector Int 16 := Vector.replicate 16 0
  hits : U16 := 0
  high : U16 := 0
  stored : Vector StoredReading 16 := Vector.replicate 16 {}
  deriving DecidableEq, Repr

/-- The Day Unit (08). -/
structure DayUnit where
  today : Day := 0
  sweeping : Bool := false
  position : Nat := 0
  marked : Nat := 0
  sealedCount : Nat := 0
  deriving DecidableEq, Repr

/-- The geometry (R179); all 0 after a full reset. -/
structure Geometry where
  p : Nat := 0
  t : Nat := 0
  q : Nat := 0
  c : Nat := 0
  j : Nat := 0
  deriving DecidableEq, Repr

/-- The settings with their defaults (R184). -/
structure Settings where
  audioLoan : Nat := 42
  brailleLoan : Nat := 56
  packHold : Nat := 2
  holdLimit : Nat := 0
  stallSeconds : Nat := 30
  listLimit : Nat := 32
  noticeMode : NoticeMode := .onHit
  pickRole : Nat := 0
  sorterRole : Nat := 0
  scannerRole : Nat := 0
  deriving DecidableEq, Repr

/-- The Management Unit (09, 11). A class capacity of 0 is unset (R181). -/
structure ManagementUnit where
  mode : Mode := .setup
  geometry : Geometry := {}
  capacity : Vector Nat 4 := Vector.replicate 4 0
  settings : Settings := {}
  notices : Vector NoticeCell 12 := Vector.replicate 12 {}
  mask : U16 := 0
  deriving DecidableEq, Repr

/-- The whole machine: the command queue, the ten blocks, and the model's own two fields (`passDue`: a placement pass is
owed before this step ends, log 7; `freeIx`: how many free values have been drawn, log 14). -/
structure State where
  pending : List Instr := []
  line : LineUnit := {}
  records : RecordUnit := {}
  requests : Table Request := []
  assembly : AssemblyUnit := {}
  scheduler : SchedulerUnit := {}
  dispatch : DispatchUnit := {}
  returns : ReturnUnit := {}
  accounts : Vector ClassAccount 4 := Vector.replicate 4 {}
  days : DayUnit := {}
  management : ManagementUnit := {}
  passDue : Bool := false
  freeIx : Nat := 0
  deriving DecidableEq, Repr

/-- The part right after a full reset (R188 and each block's reset rule): every field at its default above. -/
def State.reset : State := {}

end Sys2Proof.Machine
end

