-- ==== Sys2Proof/Machine/Tables.lean ====
section
/-! DEFINITION. The operations over tables of records, lists of indices and fixed banks. Every table operation keeps the
canonical form `Table.wf` (Laws/Tables.lean). -/

namespace Sys2Proof.Machine

/-- The record at a number, `none` when it is absent or FREE. -/
def Table.get {α : Type} (t : Table α) (k : Nat) : Option α :=
  match t with
  | [] => none
  | (j, a) :: rest => if j = k then some a else Table.get rest k

/-- Writes the record at a number, in number order. -/
def Table.put {α : Type} (t : Table α) (k : Nat) (a : α) : Table α :=
  match t with
  | [] => [(k, a)]
  | (j, b) :: rest =>
    if k < j then (k, a) :: (j, b) :: rest
    else if k = j then (k, a) :: rest
    else (j, b) :: Table.put rest k a

/-- Makes the record at a number absent or FREE. -/
def Table.delete {α : Type} (t : Table α) (k : Nat) : Table α :=
  t.filter fun e => e.1 != k

/-- Changes the record at a number, if there is one. -/
def Table.modify {α : Type} (t : Table α) (k : Nat) (f : α → α) : Table α :=
  t.map fun e => if e.1 = k then (e.1, f e.2) else e

/-- The lowest number from `k` upward that a table in number order does not use. -/
def Table.gapFrom {α : Type} (t : Table α) (k : Nat) : Nat :=
  match t with
  | [] => k
  | (j, _) :: rest => if j = k then Table.gapFrom rest (k + 1) else if j < k then Table.gapFrom rest k else k

/-- The lowest-numbered FREE record of a pool of `n` records (R23, R49, R73). -/
def Table.lowestFree {α : Type} (t : Table α) (n : Nat) : Option Nat :=
  if Table.gapFrom t 1 ≤ n then some (Table.gapFrom t 1) else none

/-- How many records of a pool of `n` are FREE (the free count of R49). -/
def Table.freeCount {α : Type} (t : Table α) (n : Nat) : Nat := n - t.length

/-- The record numbers rise strictly: the canonical form of a table. -/
abbrev Table.wf {α : Type} (t : Table α) : Prop := (t.map Prod.fst).Pairwise (· < ·)

/-- The element that follows `k` in a list, 0 when there is none: a link as the manual shows it (log 5). -/
def linkAfter (l : List Nat) (k : Nat) : Nat :=
  match l with
  | [] => 0
  | x :: rest => if x = k then rest.headD 0 else linkAfter rest k

/-- Puts `x` directly after `k`, or at the head when `k` is not in the list (R47). -/
def insertAfter (l : List Nat) (k x : Nat) : List Nat :=
  if k ∈ l then l.flatMap fun y => if y = k then [y, x] else [y] else x :: l

/-- The entry of a bank whose numbering starts at 1, or `d` outside it. -/
def bankGet {α : Type} {n : Nat} (v : Vector α n) (k : Nat) (d : α) : α :=
  if k = 0 then d else (v[k - 1]?).getD d

/-- Changes one entry of a bank whose numbering starts at 1. -/
def bankModify {α : Type} {n : Nat} (v : Vector α n) (k : Nat) (f : α → α) : Vector α n :=
  if h : 1 ≤ k ∧ k ≤ n then v.set (k - 1) (f v[k - 1]) else v

end Sys2Proof.Machine
end

