-- ==== Sys2Proof/Machine/Operands.lean ====
section
/-! DEFINITION. Payload fields (R201), the reply codes (R204), the request catalogue (R193, R203), and the frames that commands
stand for (R201 to R203). -/

namespace Sys2Proof.Machine

/-! ## Field encodings (R201) -/

/-- An unsigned quantity in `n` bytes, least significant byte first. -/
def bytesLE (n v : Nat) : List Byte :=
  match n with
  | 0 => []
  | k + 1 => BitVec.ofNat 8 v :: bytesLE k (v / 256)

/-- The quantity that bytes spell, least significant byte first. -/
def natLE (bs : List Byte) : Nat :=
  match bs with
  | [] => 0
  | b :: rest => b.toNat + 256 * natLE rest

/-- An indication that reads 0 or 1. -/
def flagByte (b : Bool) : Byte := if b then 1 else 0

/-- A signed quantity in 2 bytes, two's complement. -/
def signedLE (r : Int) : List Byte := bytesLE 2 (BitVec.ofInt 16 r).toNat

/-- A serial that may be absent: a presence byte, then 4 bytes, 0 when absent. -/
def serialBytes (s : Option U32) : List Byte :=
  match s with
  | none => [0, 0, 0, 0, 0]
  | some v => 1 :: bytesLE 4 v.toNat

/-- The byte of a number. -/
def byteOf (n : Nat) : Byte := BitVec.ofNat 8 n

/-! ## Named values, numbered from 0 in the order their lists are written (R201) -/

def modeValue (m : Mode) : Nat :=
  match m with
  | .setup => 0
  | .service => 1

def rateValue (r : LineRate) : Nat :=
  match r with
  | .r115200 => 0
  | .r460800 => 1
  | .r1843200 => 2

/-- The line rate a SET_LINES field names (R203). -/
def rateOf (b : Byte) : Option LineRate :=
  match b.toNat with
  | 0 => some .r115200
  | 1 => some .r460800
  | 2 => some .r1843200
  | _ => none

def statusValue (x : PatronStatus) : Nat :=
  match x with
  | .active => 0
  | .suspended => 1

def statusOf (b : Byte) : Option PatronStatus :=
  match b.toNat with
  | 0 => some .active
  | 1 => some .suspended
  | _ => none

def patronClassValue (x : PatronClass) : Nat :=
  match x with
  | .standard => 0
  | .priority => 1
  | .institution => 2

def patronClassOf (b : Byte) : Option PatronClass :=
  match b.toNat with
  | 0 => some .standard
  | 1 => some .priority
  | 2 => some .institution
  | _ => none

def formatValue (x : TitleFormat) : Nat :=
  match x with
  | .audio => 0
  | .braille => 1

def formatOf (b : Byte) : Option TitleFormat :=
  match b.toNat with
  | 0 => some .audio
  | 1 => some .braille
  | _ => none

def policyValue (x : Policy) : Nat :=
  match x with
  | .onDemand => 0
  | .shelf => 1

def policyOf (b : Byte) : Option Policy :=
  match b.toNat with
  | 0 => some .onDemand
  | 1 => some .shelf
  | _ => none

def availabilityValue (x : Availability) : Nat :=
  match x with
  | .available => 0
  | .withdrawn => 1

def availabilityOf (b : Byte) : Option Availability :=
  match b.toNat with
  | 0 => some .available
  | 1 => some .withdrawn
  | _ => none

/-- FREE is 0 in the list of R50 (log 6). -/
def consStateValue (x : ConsState) : Nat :=
  match x with
  | .assembling => 1
  | .sealed => 2
  | .duplicating => 3
  | .picking => 4
  | .ready => 5
  | .releasing => 6
  | .posted => 7

def consKindValue (x : ConsKind) : Nat :=
  match x with
  | .pack => 0
  | .shelfAudio => 1
  | .braillePart => 2

def lineStateValue (x : LineState) : Nat :=
  match x with
  | .isOpen => 0
  | .closed => 1

def verdictValue (x : Verdict) : Nat :=
  match x with
  | .pass => 0
  | .note => 1
  | .repair => 2
  | .retire => 3

/-- FREE is 0 in the list of R73 (log 6). -/
def jobStateValue (x : JobState) : Nat :=
  match x with
  | .queued => 1
  | .pending => 2
  | .active => 3
  | .parked => 4

def jobKindValue (x : JobKind) : Nat :=
  match x with
  | .pack => 0
  | .stock => 1

def bayStateValue (x : BayState) : Nat :=
  match x with
  | .offline => 0
  | .idle => 1
  | .loading => 2
  | .writing => 3
  | .parking => 4
  | .faulted => 5

/-- A bay's fault cause: its named value, then a code byte that is 0 unless the cause is REPORTED (R201). -/
def bayCauseBytes (x : BayCause) : List Byte :=
  match x with
  | .none => [0, 0]
  | .stall => [1, 0]
  | .reported c => [2, c]

def mailClassValue (x : MailClass) : Nat :=
  match x with
  | .concession => 0
  | .priority => 1

def mailClassOf (b : Byte) : Option MailClass :=
  match b.toNat with
  | 0 => some .concession
  | 1 => some .priority
  | _ => none

def channelModeValue (x : ChannelMode) : Nat :=
  match x with
  | .off => 0
  | .above => 1
  | .below => 2
  | .inside => 3
  | .outside => 4

def channelModeOf (b : Byte) : Option ChannelMode :=
  match b.toNat with
  | 0 => some .off
  | 1 => some .above
  | 2 => some .below
  | 3 => some .inside
  | 4 => some .outside
  | _ => none

def channelActionValue (x : ChannelAction) : Nat :=
  match x with
  | .note => 0
  | .repair => 1
  | .retire => 2

def channelActionOf (b : Byte) : Option ChannelAction :=
  match b.toNat with
  | 0 => some .note
  | 1 => some .repair
  | 2 => some .retire
  | _ => none

def channelStoreValue (x : ChannelStore) : Nat :=
  match x with
  | .none => 0
  | .onHit => 1
  | .always => 2

def channelStoreOf (b : Byte) : Option ChannelStore :=
  match b.toNat with
  | 0 => some .none
  | 1 => some .onHit
  | 2 => some .always
  | _ => none

def channelReferenceValue (x : ChannelReference) : Nat :=
  match x with
  | .absolute => 0
  | .partWeight => 1

def channelReferenceOf (b : Byte) : Option ChannelReference :=
  match b.toNat with
  | 0 => some .absolute
  | 1 => some .partWeight
  | _ => none

def noticeModeValue (x : NoticeMode) : Nat :=
  match x with
  | .off => 0
  | .onHit => 1
  | .onRetire => 2

def noticeModeOf (b : Byte) : Option NoticeMode :=
  match b.toNat with
  | 0 => some .off
  | 1 => some .onHit
  | 2 => some .onRetire
  | _ => none

/-- A field that is 0 or 1. -/
def flagOf (b : Byte) : Option Bool :=
  match b.toNat with
  | 0 => some false
  | 1 => some true
  | _ => none

/-- The item verdict of a VERDICT frame (R127): a verdict of R137, or DESK. -/
inductive ItemVerdict
  | judged (v : Verdict)
  | desk
  deriving DecidableEq, Repr

def itemVerdictValue (x : ItemVerdict) : Nat :=
  match x with
  | .judged v => verdictValue v
  | .desk => 4

/-- Where the scanner routes an item (R127). -/
inductive Divert
  | blank
  | shelf
  | repair
  | retire
  | setHold
  | desk
  deriving DecidableEq, Repr

def divertValue (x : Divert) : Nat :=
  match x with
  | .blank => 0
  | .shelf => 1
  | .repair => 2
  | .retire => 3
  | .setHold => 4
  | .desk => 5

/-- The exception cause of a VERDICT frame (R127, R128). -/
inductive ExceptionCause
  | none
  | unmatched
  | duplicate
  | serialMismatch
  deriving DecidableEq, Repr

def exceptionCauseValue (x : ExceptionCause) : Nat :=
  match x with
  | .none => 0
  | .unmatched => 1
  | .duplicate => 2
  | .serialMismatch => 3

/-- The reply codes (R204). -/
inductive Code
  | ok
  | allocated
  | waiting
  | eligible
  | nullPatron
  | patronRange
  | patronAbsent
  | patronSuspended
  | agencyAbsent
  | titleRange
  | titleAbsent
  | withdrawn
  | restricted
  | format
  | extent
  | duplicate
  | onLoan
  | listFull
  | poolFull
  | notFound
  | tooLate
  | notAuthorised
  | wrongMode
  | locked
  | busy
  | inUse
  | badField
  | conflict
  | dayGap
  | sameDay
  | budget
  deriving DecidableEq, Repr

/-- The value of a reply code in the list of R204. -/
def codeValue (c : Code) : Nat :=
  match c with
  | .ok => 0
  | .allocated => 1
  | .waiting => 2
  | .eligible => 3
  | .nullPatron => 4
  | .patronRange => 5
  | .patronAbsent => 6
  | .patronSuspended => 7
  | .agencyAbsent => 8
  | .titleRange => 9
  | .titleAbsent => 10
  | .withdrawn => 11
  | .restricted => 12
  | .format => 13
  | .extent => 14
  | .duplicate => 15
  | .onLoan => 16
  | .listFull => 17
  | .poolFull => 18
  | .notFound => 19
  | .tooLate => 20
  | .notAuthorised => 21
  | .wrongMode => 22
  | .locked => 23
  | .busy => 24
  | .inUse => 25
  | .badField => 26
  | .conflict => 27
  | .dayGap => 28
  | .sameDay => 29
  | .budget => 30

/-! ## The request catalogue (R193, R203) -/

/-- The payload length that a listed kind requires: the management catalogue (1..42) and the order frames (64..66). -/
def requestLength (kind : Nat) : Option Nat :=
  match kind with
  | 1 => some 0
  | 2 => some 0
  | 3 => some 10
  | 4 => some 4
  | 5 => some 2
  | 6 => some 2
  | 7 => some 0
  | 8 => some 2
  | 9 => some 13
  | 10 => some 6
  | 11 => some 14
  | 12 => some 3
  | 13 => some 4
  | 14 => some 1
  | 15 => some 1
  | 16 => some 3
  | 17 => some 2
  | 18 => some 2
  | 19 => some 2
  | 20 => some 14
  | 21 => some 1
  | 22 => some 2
  | 23 => some 0
  | 24 => some 5
  | 25 => some 3
  | 26 => some 0
  | 27 => some 0
  | 28 => some 0
  | 29 => some 0
  | 30 => some 1
  | 31 => some 3
  | 32 => some 4
  | 33 => some 5
  | 34 => some 5
  | 35 => some 2
  | 36 => some 1
  | 37 => some 0
  | 38 => some 0
  | 39 => some 0
  | 40 => some 0
  | 41 => some 2
  | 42 => some 0
  | 64 => some 4
  | 65 => some 4
  | 66 => some 4
  | _ => none

/-- The refusal of R193 for an office frame to station 0, cases 1 to 3 in their order; `none` when it goes to its owner. -/
def officeRefusal (src kind length : Nat) : Option Code :=
  if 1 ≤ kind ∧ kind ≤ 63 ∧ src ≠ 1 then some .notAuthorised
  else if requestLength kind = some length then none
  else some .badField

/-- A management request of the catalogue: from the supervisor, station 1, to station 0 (R203). -/
def management (kind : Nat) (payload : List Byte) : Option Frame := some ⟨0, 1, byteOf kind, payload⟩

/-- An order frame to station 0 (R201). -/
def orderFrame (src : Byte) (kind : Nat) (patron title : U16) : Option Frame :=
  some ⟨0, src, byteOf kind, bytesLE 2 patron.toNat ++ bytesLE 2 title.toNat⟩

/-- The office frame to station 0 that a command takes (R201, R203); `none` for the other commands. -/
def requestFrame (i : Instr) : Option Frame :=
  match i with
  | .reset => management 1 []
  | .restart => management 2 []
  | .setGeometry p t q c j =>
    management 3 (bytesLE 2 p.toNat ++ bytesLE 2 t.toNat ++ bytesLE 2 q.toNat ++ bytesLE 2 c.toNat ++ bytesLE 2 j.toNat)
  | .setClass cls capacity => management 4 (cls :: bytesLE 3 capacity.toNat)
  | .setLines officeRate floorRate => management 5 [officeRate, floorRate]
  | .setDay d => management 6 (bytesLE 2 d.toNat)
  | .openService => management 7 []
  | .setSetting setting value => management 8 [setting, value]
  | .loadPatron patron present status patronClass level formats cartridgeClass quota agency code =>
    management 9 (bytesLE 2 patron.toNat ++ [present, status, patronClass, level, formats, cartridgeClass, quota, agency] ++
      bytesLE 3 code.toNat)
  | .loadAgency agency present code => management 10 (bytesLE 2 agency.toNat ++ [present] ++ bytesLE 3 code.toNat)
  | .loadTitle title present format policy level availability extent granularity shelfClass volumes weight =>
    management 11 (bytesLE 2 title.toNat ++ [present, format, policy, level, availability] ++ bytesLE 2 extent.toNat ++
      [granularity, shelfClass, volumes] ++ bytesLE 2 weight.toNat)
  | .readRecord table index => management 12 (table :: bytesLE 2 index.toNat)
  | .setBay bay address classes preempt => management 13 [bay, address, classes, preempt]
  | .bayOnline bay => management 14 [bay]
  | .bayOffline bay => management 15 [bay]
  | .buildStock title copies => management 16 (bytesLE 2 title.toNat ++ [copies])
  | .raiseJob job => management 17 (bytesLE 2 job.toNat)
  | .flushPack patron => management 18 (bytesLE 2 patron.toNat)
  | .day d => management 19 (bytesLE 2 d.toNat)
  | .setWindow window enabled low high chute mailClass transit limit hold =>
    management 20 ([window, enabled] ++ bytesLE 3 low.toNat ++ bytesLE 3 high.toNat ++ [chute, mailClass, transit] ++
      bytesLE 2 limit.toNat ++ [hold])
  | .releaseManifest half => management 21 [half]
  | .readManifest half index => management 22 [half, index]
  | .readDispatch => management 23 []
  | .setChannel channel mode action store reference => management 24 [channel, mode, action, store, reference]
  | .setThreshold entry value => management 25 (entry :: bytesLE 2 value.toNat)
  | .inspectSuspend => management 26 []
  | .inspectResume => management 27 []
  | .clearHits => management 28 []
  | .readInspection => management 29 []
  | .readChannel channel => management 30 [channel]
  | .stockAdd cls n => management 31 (cls :: bytesLE 2 n.toNat)
  | .stockAddTitle title n => management 32 (bytesLE 2 title.toNat ++ bytesLE 2 n.toNat)
  | .repaired cls n title => management 33 (cls :: (bytesLE 2 n.toNat ++ bytesLE 2 title.toNat))
  | .retireRepair cls n title => management 34 (cls :: (bytesLE 2 n.toNat ++ bytesLE 2 title.toNat))
  | .declareLost consignment => management 35 (bytesLE 2 consignment.toNat)
  | .readStock cls => management 36 [cls]
  | .readDay => management 37 []
  | .readSetup => management 38 []
  | .clearLineFaults => management 39 []
  | .readLines => management 40 []
  | .setMask mask => management 41 (bytesLE 2 mask.toNat)
  | .readNotices => management 42 []
  | .unlistedManagementKind src kind payload => some ⟨0, src, kind, payload⟩
  | .order src patron title => orderFrame src 64 patron title
  | .probe src patron title => orderFrame src 65 patron title
  | .cancel src patron title => orderFrame src 66 patron title
  | .resetPin | .powerOn | .resetAfterReply | .officeRateChange | .floorRateChange => none
  | .stallExpiry _ | .started .. | .progress .. | .parked .. | .copyDone .. | .bayFault .. => none
  | .pick | .picked .. | .notFound .. => none
  | .releasePass | .chuted .. | .chuteFull .. | .chuteClear .. => none
  | .returnItem .. | .owedReturnAnswer | .inspectionCompletion | .sweepStep | .owedCommandHandOn => none
  | .officeFrameReceive _ | .officePeerFrame | .forwardToFloor | .floorForward _ => none
  | .frameDiscard .. | .strayFloorFrame _ | .quiet _ | .sendReply | .sendForwardedFrame | .notice => none
  | .floorSend | .poll | .replyTurnGrant | .replyWindowExpiry | .turnSilenceExpiry | .floorFrameNotTaken _ => none

/-! ## Frames of the floor line (R202) -/

/-- A frame the part sends to a floor station; its source is 0 (R193). -/
def outFrame (dst kind : Nat) (payload : List Byte) : Frame := ⟨byteOf dst, 0, byteOf kind, payload⟩

def pollFrame (dst : Nat) : Frame := outFrame dst 96 []
def restartedFrame : Frame := outFrame 63 98 []
/-- LOAD: job, class, start offset, title count, one block count for each title. -/
def loadFrame (dst job cls offset : Nat) (blocks : List Nat) : Frame :=
  outFrame dst 112 (bytesLE 2 job ++ [byteOf cls] ++ bytesLE 3 offset ++ [byteOf blocks.length] ++ blocks.flatMap (bytesLE 3))
def parkFrame (dst job : Nat) : Frame := outFrame dst 113 (bytesLE 2 job)
def resumeFrame (dst job offset : Nat) : Frame := outFrame dst 114 (bytesLE 2 job ++ bytesLE 3 offset)
def abandonFrame (dst job : Nat) : Frame := outFrame dst 115 (bytesLE 2 job)
/-- PICK: consignment, title, kind (SHELF_AUDIO 0, braille set 1), cartridge class or part count. -/
def pickFrame (dst consignment title : Nat) (set : Bool) (classOrParts : Nat) : Frame :=
  outFrame dst 128 (bytesLE 2 consignment ++ bytesLE 2 title ++ [flagByte set, byteOf classOrParts])
def returnAckFrame (dst consignment part : Nat) : Frame := outFrame dst 160 (bytesLE 2 consignment ++ [byteOf part])
def returnWaitFrame (dst consignment part : Nat) : Frame := outFrame dst 161 (bytesLE 2 consignment ++ [byteOf part])
def verdictFrame (dst consignment part : Nat) (v : ItemVerdict) (d : Divert) (e : ExceptionCause) : Frame :=
  outFrame dst 162 (bytesLE 2 consignment ++
    [byteOf part, byteOf (itemVerdictValue v), byteOf (divertValue d), byteOf (exceptionCauseValue e)])
/-- RELEASE: consignment, kind, k, n, chute, mail class, serial or copy number, part weight, overweight. -/
def releaseFrame (dst consignment kind k n chute mail serial weight : Nat) (overweight : Bool) : Frame :=
  outFrame dst 144 (bytesLE 2 consignment ++ [byteOf kind, byteOf k, byteOf n, byteOf chute, byteOf mail] ++
    bytesLE 4 serial ++ bytesLE 3 weight ++ [flagByte overweight])

/-- A frame from a floor station to station 0. -/
def inFloorFrame (src : Byte) (kind : Nat) (payload : List Byte) : Option Frame := some ⟨0, src, byteOf kind, payload⟩

/-- The floor frame that a command takes (R202, the layouts of the "in" frames); `none` for the other commands. -/
def floorFrame (i : Instr) : Option Frame :=
  match i with
  | .quiet src => inFloorFrame src 97 []
  | .started src job serial => inFloorFrame src 120 (bytesLE 2 job.toNat ++ bytesLE 4 serial.toNat)
  | .progress src job blocks => inFloorFrame src 121 (bytesLE 2 job.toNat ++ bytesLE 3 blocks.toNat)
  | .parked src job offset => inFloorFrame src 122 (bytesLE 2 job.toNat ++ bytesLE 3 offset.toNat)
  | .copyDone src job serial result => inFloorFrame src 123 (bytesLE 2 job.toNat ++ bytesLE 4 serial.toNat ++ [result])
  | .bayFault src code => inFloorFrame src 124 [code]
  | .picked src consignment serial => inFloorFrame src 136 (bytesLE 2 consignment.toNat ++ bytesLE 4 serial.toNat)
  | .notFound src consignment => inFloorFrame src 137 (bytesLE 2 consignment.toNat)
  | .chuted src consignment => inFloorFrame src 152 (bytesLE 2 consignment.toNat)
  | .chuteFull src consignment chute => inFloorFrame src 153 (bytesLE 2 consignment.toNat ++ [chute])
  | .chuteClear src chute => inFloorFrame src 154 [chute]
  | .returnItem src consignment postDay part serial presence readings =>
    inFloorFrame src 168 (bytesLE 2 consignment.toNat ++ bytesLE 2 postDay.toNat ++ [part] ++ bytesLE 4 serial.toNat ++
      bytesLE 2 presence.toNat ++ readings.flatMap fun r => bytesLE 2 r.toNat)
  | .floorForward frame => some frame
  | .strayFloorFrame frame => some frame
  | .floorFrameNotTaken frame => some frame
  | .resetPin | .powerOn | .reset | .resetAfterReply | .restart => none
  | .setGeometry .. | .setClass .. | .setLines .. | .officeRateChange | .floorRateChange | .setDay _ | .openService => none
  | .setSetting .. | .loadPatron .. | .loadAgency .. | .loadTitle .. | .readRecord .. => none
  | .setBay .. | .bayOnline _ | .bayOffline _ | .buildStock .. | .raiseJob _ | .flushPack _ | .day _ => none
  | .setWindow .. | .releaseManifest _ | .readManifest .. | .readDispatch => none
  | .setChannel .. | .setThreshold .. | .inspectSuspend | .inspectResume | .clearHits | .readInspection | .readChannel _ => none
  | .stockAdd .. | .stockAddTitle .. | .repaired .. | .retireRepair .. | .declareLost _ | .readStock _ => none
  | .readDay | .readSetup | .clearLineFaults | .readLines | .setMask _ | .readNotices | .unlistedManagementKind .. => none
  | .order .. | .probe .. | .cancel .. | .stallExpiry _ => none
  | .pick | .releasePass | .owedReturnAnswer | .inspectionCompletion | .sweepStep | .owedCommandHandOn => none
  | .officeFrameReceive _ | .officePeerFrame | .forwardToFloor | .frameDiscard .. => none
  | .sendReply | .sendForwardedFrame | .notice => none
  | .floorSend | .poll | .replyTurnGrant | .replyWindowExpiry | .turnSilenceExpiry => none

/-- The channels of a presence set in ascending order (R202, RETURN_ITEM). -/
def presentChannels (presence : U16) : List Nat := (List.range 16).filter fun c => presence.getLsbD c

/-- The payload length of a floor frame kind that a floor unit takes (R202); RETURN_ITEM's depends on its presence set. -/
def floorLengthOk (kind : Nat) (payload : List Byte) : Bool :=
  match kind with
  | 97 => payload.length == 0
  | 120 => payload.length == 6
  | 121 => payload.length == 5
  | 122 => payload.length == 5
  | 123 => payload.length == 7
  | 124 => payload.length == 1
  | 136 => payload.length == 6
  | 137 => payload.length == 2
  | 152 => payload.length == 2
  | 153 => payload.length == 3
  | 154 => payload.length == 1
  | 168 =>
    payload.length ==
      11 + 2 * (presentChannels (BitVec.ofNat 16 (natLE ((payload.drop 9).take 2)))).length
  | _ => false

end Sys2Proof.Machine
end

