-- ==== Sys2Proof/Machine/Flags.lean ====
section
/-! DEFINITION. The part's flags: notice latches (R206) and the sticky fault causes of the ports (R192). -/

namespace Sys2Proof.Machine

/-- A notice's number 1..12 (R206). -/
def noticeNumber (n : NoticeId) : Nat :=
  match n with
  | .lineFault => 1
  | .bayFault => 2
  | .jobFailed => 3
  | .manifestFull => 4
  | .manifestHalf => 5
  | .pickShort => 6
  | .restoreDropped => 7
  | .returnException => 8
  | .inspection => 9
  | .blankShort => 10
  | .poolExhausted => 11
  | .sweepDone => 12

/-- A notice cell after one more latching (R206): latch 1, count up by 1 to at most 255, the new subject. -/
def NoticeCell.latched (subject : Nat) (c : NoticeCell) : NoticeCell :=
  { latch := true, count := min 255 (c.count + 1), subject := subject }

/-- "Latches NOTICE" with a subject (00, Conventions; R206). -/
def latch (n : NoticeId) (subject : Nat) (s : State) : State :=
  { s with management.notices := bankModify s.management.notices (noticeNumber n) (NoticeCell.latched subject) }

/-- The notice the Management Unit offers: the lowest-numbered one latched and not masked (R207). -/
def offeredNotice (m : ManagementUnit) : Option Nat :=
  (List.range' 1 12).find? fun n => (bankGet m.notices n {}).latch && !m.mask.getLsbD (n - 1)

/-- The causes for which a frame is discarded at a port, numbered as the bits of a cause set (R192, R201). -/
inductive FaultCause
  | parity
  | framing
  | length
  | check
  | overrun
  deriving DecidableEq, Repr

def causeBit (c : FaultCause) : Byte :=
  match c with
  | .parity => 1
  | .framing => 2
  | .length => 4
  | .check => 8
  | .overrun => 16

/-- A discarded frame at a port (R192): the causes join the port's sticky set, and LINE_FAULT is latched with subject 0
for the office port and 63 for the floor port. -/
def recordFault (port : Port) (causes : Byte) (s : State) : State :=
  match port with
  | .office => latch .lineFault 0 { s with line.officeFaults := s.line.officeFaults ||| causes }
  | .floor => latch .lineFault 63 { s with line.floorFaults := s.line.floorFaults ||| causes }

end Sys2Proof.Machine
end

