-- ==== Sys2Proof/Machine/Frames.lean ====
section
/-! DEFINITION. Characters and frames on a line, down to its bits (R190, R191), and what a port makes of the characters it receives
(R192, R193). -/

namespace Sys2Proof.Machine

/-- The ones among the data bits of a character. -/
def onesIn (b : Byte) : Nat := (List.range 8).countP fun k => b.getLsbD k

/-- The data bits, the mark bit and the parity bit together hold an odd number of ones (R190). -/
def Chr.parityOk (c : Chr) : Bool := (onesIn c.data + c.mark.toNat + c.parity.toNat) % 2 == 1

/-- The faults of one character: PARITY, FRAMING (the stop bit is a space), or both (R190, R192; log 23). -/
def Chr.faults (c : Chr) : Byte :=
  (if Chr.parityOk c then 0 else causeBit .parity) ||| (if c.stop then 0 else causeBit .framing)

/-- The character the part sends for a byte (R190): the parity bit makes the count odd. -/
def charOf (mark : Bool) (b : Byte) : Chr :=
  { data := b, mark := mark, parity := (onesIn b + mark.toNat) % 2 == 0, stop := true }

/-- The 12 bits of a character in the order they are sent, 1 for a mark level of the line (R190; log 44): the start bit (space), the
data bits with the least significant first, the mark bit, the parity bit, the stop bit. -/
def Chr.bits (c : Chr) : List Bool :=
  false :: ((List.range 8).map fun k => c.data.getLsbD k) ++ [c.mark, c.parity, c.stop]

/-- The characters that a port reads from the bits of its line (R190): a space begins a character of 12 bits, and the marks before
it are the idle line (log 44). A character not yet whole is not read. -/
def charsOn (line : List Bool) : List Chr :=
  match line with
  | false :: d0 :: d1 :: d2 :: d3 :: d4 :: d5 :: d6 :: d7 :: mark :: parity :: stop :: rest =>
    { data := BitVec.ofBoolListLE [d0, d1, d2, d3, d4, d5, d6, d7], mark := mark, parity := parity, stop := stop } :: charsOn rest
  | true :: rest => charsOn rest
  | _ => []

/-- The sum of bytes, mod 256 (R191). -/
def byteSum (bs : List Byte) : Byte := bs.foldr (· + ·) 0

/-- The header, bytes 1 to 3 and the payload, in line order (R191). -/
def Frame.body (f : Frame) : List Byte := f.dst :: f.src :: f.kind :: byteOf f.payload.length :: f.payload

/-- The check of a frame: it makes the sum of all bytes 0 mod 256 (R191). -/
def Frame.check (f : Frame) : Byte := 0 - byteSum (Frame.body f)

/-- The characters of a frame, the header with mark bit 1 and every other character with mark bit 0 (R190, R191). -/
def Frame.chars (f : Frame) : List Chr :=
  charOf true f.dst :: ((Frame.body f).drop 1 ++ [Frame.check f]).map (charOf false)

/-- The bits of a frame in the order they are sent (R190, R191). -/
def Frame.bits (f : Frame) : List Bool := (Frame.chars f).flatMap Chr.bits

/-- What a run of characters has come to at a port. -/
inductive Reception
  /-- no frame has ended yet -/
  | incomplete
  /-- a frame completed without fault -/
  | frame (f : Frame)
  /-- a frame was cut off or completed with these fault causes (a cause set of R201) -/
  | fault (causes : Byte)
  deriving DecidableEq, Repr

/-- What a run of characters has come to, and the characters that follow the one that ended the frame. A mark character that
ended a frame begins the next one and is among them (R191). -/
abbrev Received := Reception × List Chr

/-- The next byte of the frame in reception. A faulty character ends it with the character's faults, a character with
mark bit 1 with a length failure (R191, R192). -/
def nextByte (cs : List Chr) : Except Received (Byte × List Chr) :=
  match cs with
  | [] => .error (.incomplete, [])
  | c :: rest =>
    if Chr.faults c ≠ 0 then .error (.fault (Chr.faults c), rest)
    else if c.mark then .error (.fault (causeBit .length), c :: rest)
    else .ok (c.data, rest)

/-- The next `n` bytes of the frame in reception. -/
def nextBytes (n : Nat) (cs : List Chr) : Except Received (List Byte × List Chr) :=
  match n with
  | 0 => .ok ([], cs)
  | k + 1 =>
    match nextByte cs with
    | .error r => .error r
    | .ok (b, rest) =>
      match nextBytes k rest with
      | .error r => .error r
      | .ok (bs, rest') => .ok (b :: bs, rest')

/-- The payload and the check that follow byte 3 (R191, steps 4 and 5). -/
def receivePayload (dst src kind : Byte) (length : Nat) (cs : List Chr) : Received :=
  match nextBytes length cs with
  | .error r => r
  | .ok (payload, rest) =>
    match nextByte rest with
    | .error r => r
    | .ok (check, after) =>
      if byteSum (Frame.body ⟨dst, src, kind, payload⟩) + check = 0 then (.frame ⟨dst, src, kind, payload⟩, after)
      else (.fault (causeBit .check), after)

/-- The reception that a header begins: header above 63 and length above 240 are length failures (R191, steps 2 and 3). -/
def receiveBody (dst : Byte) (cs : List Chr) : Received :=
  if 63 < dst.toNat then (.fault (causeBit .length), cs)
  else
    match nextByte cs with
    | .error r => r
    | .ok (src, cs1) =>
      match nextByte cs1 with
      | .error r => r
      | .ok (kind, cs2) =>
        match nextByte cs2 with
        | .error r => r
        | .ok (length, cs3) =>
          if 240 < length.toNat then (.fault (causeBit .length), cs3) else receivePayload dst src kind length.toNat cs3

/-- A character that begins the reception of a frame: a mark character without fault (R191 step 1). R192 lets a faulty mark
character begin no frame, and R198 step 2 takes any mark character as a station's answer: the model ignores a faulty one there
too (log 43). -/
def beginsFrame (c : Chr) : Bool := c.mark && decide (Chr.faults c = 0)

/-- Reception at a port that is receiving no frame: it begins at the first character that can begin one, and the characters
before that one are ignored (R191 step 1, R192). -/
def receiveAll (cs : List Chr) : Received :=
  match cs with
  | [] => (.incomplete, [])
  | c :: rest => if beginsFrame c then receiveBody c.data rest else receiveAll rest

/-- What a run of characters comes to. -/
def receive (cs : List Chr) : Reception := (receiveAll cs).1

/-- The characters of a run that a port holds as a frame in reception: those from the first that can begin one. -/
def inFrame (cs : List Chr) : List Chr := cs.dropWhile fun c => !beginsFrame c

/-- The frame in reception once the first frame of a run has ended: the characters after its end (R191, R192). -/
def afterFrame (cs : List Chr) : List Chr := inFrame (receiveAll cs).2

/-- The sources a port may receive from: 1..15 on the office line, 16..62 on the floor line (R193). -/
def sourceOk (port : Port) (src : Nat) : Bool :=
  match port with
  | .office => decide (1 ≤ src ∧ src ≤ 15)
  | .floor => decide (16 ≤ src ∧ src ≤ 62)

/-- Reception with R193's check of the source: a frame from a source that its line does not have is a CHECK failure. -/
def receiveAt (port : Port) (cs : List Chr) : Reception :=
  match receive cs with
  | .frame f => if sourceOk port f.src.toNat then .frame f else .fault (causeBit .check)
  | r => r

end Sys2Proof.Machine
end

