-- ==== Sys2Proof/WellFormed.lean ====
section
/-! DEFINITION. Which commands are well formed: those that the lines and the part can bring about. Payload values are not
restricted here, since a frame may carry any value of its field's width and the meaning answers it. -/

namespace Sys2Proof

open Sys2Proof.Machine

/-- A source of the office line (R193). -/
def officeSource (src : Byte) : Bool := sourceOk .office src.toNat

/-- A source of the floor line (R193). -/
def floorSource (src : Byte) : Bool := sourceOk .floor src.toNat

/-- A frame that can complete without fault on the floor line (R191, R193). -/
def floorFrameForm (f : Frame) : Bool :=
  floorSource f.src && decide (f.dst.toNat ≤ 63) && decide (f.payload.length ≤ 240)

/-- Characters that can come to a faultless frame, which they complete or are a part of (R191): some arrive, and by themselves
they make no port discard a frame. -/
def completesFrame (port : Port) (cs : List Chr) : Bool :=
  match receiveAt port cs with
  | .frame _ | .incomplete => decide (cs ≠ [])
  | .fault _ => false

/-- Characters that can come to a frame the port discards, or are a part of one (R191, R192): some arrive, and by themselves they
complete no faultless frame. -/
def faultsFrame (port : Port) (cs : List Chr) : Bool :=
  match receiveAt port cs with
  | .fault _ | .incomplete => decide (cs ≠ [])
  | .frame _ => false

/-- The well-formed commands. -/
def WellFormed (i : Instr) : Bool :=
  match i with
  | .unlistedManagementKind src kind payload =>
    officeSource src && decide (payload.length ≤ 240) && (officeRefusal src.toNat kind.toNat payload.length).isSome
  | .order src _ _ => officeSource src
  | .probe src _ _ => officeSource src
  | .cancel src _ _ => officeSource src
  | .stallExpiry bay => decide (1 ≤ bay.toNat ∧ bay.toNat ≤ 24)
  | .started src _ _ => floorSource src
  | .progress src _ _ => floorSource src
  | .parked src _ _ => floorSource src
  | .copyDone src _ _ _ => floorSource src
  | .bayFault src _ => floorSource src
  | .picked src _ _ => floorSource src
  | .notFound src _ => floorSource src
  | .chuted src _ => floorSource src
  | .chuteFull src _ _ => floorSource src
  | .chuteClear src _ => floorSource src
  | .returnItem src _ _ _ _ presence readings =>
    floorSource src && decide (readings.length = (presentChannels presence).length)
  | .quiet src => floorSource src
  | .officeFrameReceive chars => completesFrame .office chars
  | .frameDiscard port chars => faultsFrame port chars
  | .floorForward f => floorFrameForm f && decide (1 ≤ f.dst.toNat ∧ f.dst.toNat ≤ 15)
  | .strayFloorFrame f => floorFrameForm f
  | .floorFrameNotTaken f => floorFrameForm f && decide (f.dst.toNat = 0 ∨ 16 ≤ f.dst.toNat)
  | .resetPin | .powerOn | .reset | .resetAfterReply | .restart => true
  | .setGeometry .. | .setClass .. | .setLines .. | .officeRateChange | .floorRateChange | .setDay _ | .openService => true
  | .setSetting .. | .loadPatron .. | .loadAgency .. | .loadTitle .. | .readRecord .. => true
  | .setBay .. | .bayOnline _ | .bayOffline _ | .buildStock .. | .raiseJob _ | .flushPack _ | .day _ => true
  | .setWindow .. | .releaseManifest _ | .readManifest .. | .readDispatch => true
  | .setChannel .. | .setThreshold .. | .inspectSuspend | .inspectResume | .clearHits | .readInspection | .readChannel _ => true
  | .stockAdd .. | .stockAddTitle .. | .repaired .. | .retireRepair .. | .declareLost _ | .readStock _ => true
  | .readDay | .readSetup | .clearLineFaults | .readLines | .setMask _ | .readNotices => true
  | .pick | .releasePass | .owedReturnAnswer | .inspectionCompletion | .sweepStep | .owedCommandHandOn => true
  | .officePeerFrame | .forwardToFloor | .sendReply | .sendForwardedFrame | .notice => true
  | .floorSend | .poll | .replyTurnGrant | .replyWindowExpiry | .turnSilenceExpiry => true

end Sys2Proof
end

