-- ==== Sys2Proof/Decode.lean ====
section
/-! DEFINITION. Reading commands. The opcode table gives no row any bits, so no word spells a command (log 35). What the part
does read are frames: `requestOf` is the command that takes the frame at the head of the office receive queue (R193, R194,
R203), the inverse of `Machine.requestFrame` on requests that a gateway or the supervisor can send, and `floorCommandOf` is the
command that a floor frame in its station's turn is (R196, R199, R202), the inverse of `Machine.floorFrame`. -/

namespace Sys2Proof

open Sys2Proof.Machine

/-- The command a word of the opcode table spells: the table gives bits to none of its 85 rows. -/
def decodeTableWord (_nbits _w : Nat) : Option Instr := none

/-- A 2-byte quantity. -/
def u16Of (a b : Byte) : U16 := BitVec.ofNat 16 (natLE [a, b])

/-- A 3-byte quantity. -/
def u24Of (a b c : Byte) : U24 := BitVec.ofNat 24 (natLE [a, b, c])

/-- The catalogue's kinds 1 to 21 (R203). -/
def lowRequest (kind : Nat) (p : List Byte) : Option Instr :=
  match kind, p with
  | 1, [] => some .reset
  | 2, [] => some .restart
  | 3, [p0, p1, t0, t1, q0, q1, c0, c1, j0, j1] =>
    some (.setGeometry (u16Of p0 p1) (u16Of t0 t1) (u16Of q0 q1) (u16Of c0 c1) (u16Of j0 j1))
  | 4, [cls, a, b, c] => some (.setClass cls (u24Of a b c))
  | 5, [a, b] => some (.setLines a b)
  | 6, [a, b] => some (.setDay (u16Of a b))
  | 7, [] => some .openService
  | 8, [a, b] => some (.setSetting a b)
  | 9, [p0, p1, present, status, cls, level, formats, cartridge, quota, agency, a, b, c] =>
    some (.loadPatron (u16Of p0 p1) present status cls level formats cartridge quota agency (u24Of a b c))
  | 10, [g0, g1, present, a, b, c] => some (.loadAgency (u16Of g0 g1) present (u24Of a b c))
  | 11, [t0, t1, present, format, policy, level, availability, e0, e1, granularity, cls, volumes, w0, w1] =>
    some (.loadTitle (u16Of t0 t1) present format policy level availability (u16Of e0 e1) granularity cls volumes (u16Of w0 w1))
  | 12, [table, a, b] => some (.readRecord table (u16Of a b))
  | 13, [bay, address, classes, preempt] => some (.setBay bay address classes preempt)
  | 14, [bay] => some (.bayOnline bay)
  | 15, [bay] => some (.bayOffline bay)
  | 16, [a, b, copies] => some (.buildStock (u16Of a b) copies)
  | 17, [a, b] => some (.raiseJob (u16Of a b))
  | 18, [a, b] => some (.flushPack (u16Of a b))
  | 19, [a, b] => some (.day (u16Of a b))
  | 20, [window, enabled, l0, l1, l2, h0, h1, h2, chute, mail, transit, w0, w1, hold] =>
    some (.setWindow window enabled (u24Of l0 l1 l2) (u24Of h0 h1 h2) chute mail transit (u16Of w0 w1) hold)
  | 21, [half] => some (.releaseManifest half)
  | _, _ => none

/-- The catalogue's kinds 22 to 42 (R203). -/
def highRequest (kind : Nat) (p : List Byte) : Option Instr :=
  match kind, p with
  | 22, [half, index] => some (.readManifest half index)
  | 23, [] => some .readDispatch
  | 24, [channel, mode, action, store, reference] => some (.setChannel channel mode action store reference)
  | 25, [entry, a, b] => some (.setThreshold entry (u16Of a b))
  | 26, [] => some .inspectSuspend
  | 27, [] => some .inspectResume
  | 28, [] => some .clearHits
  | 29, [] => some .readInspection
  | 30, [channel] => some (.readChannel channel)
  | 31, [cls, a, b] => some (.stockAdd cls (u16Of a b))
  | 32, [t0, t1, a, b] => some (.stockAddTitle (u16Of t0 t1) (u16Of a b))
  | 33, [cls, a, b, t0, t1] => some (.repaired cls (u16Of a b) (u16Of t0 t1))
  | 34, [cls, a, b, t0, t1] => some (.retireRepair cls (u16Of a b) (u16Of t0 t1))
  | 35, [a, b] => some (.declareLost (u16Of a b))
  | 36, [cls] => some (.readStock cls)
  | 37, [] => some .readDay
  | 38, [] => some .readSetup
  | 39, [] => some .clearLineFaults
  | 40, [] => some .readLines
  | 41, [a, b] => some (.setMask (u16Of a b))
  | 42, [] => some .readNotices
  | _, _ => none

/-- The order frames, kinds 64 to 66 (R201). -/
def orderRequest (src : Byte) (kind : Nat) (p : List Byte) : Option Instr :=
  match kind, p with
  | 64, [p0, p1, t0, t1] => some (.order src (u16Of p0 p1) (u16Of t0 t1))
  | 65, [p0, p1, t0, t1] => some (.probe src (u16Of p0 p1) (u16Of t0 t1))
  | 66, [p0, p1, t0, t1] => some (.cancel src (u16Of p0 p1) (u16Of t0 t1))
  | _, _ => none

/-- The command that takes an office frame addressed to station 0: the owner's request, or the refusal of R193. -/
def requestOf (f : Frame) : Instr :=
  if (officeRefusal f.src.toNat f.kind.toNat f.payload.length).isSome then .unlistedManagementKind f.src f.kind f.payload
  else
    ((lowRequest f.kind.toNat f.payload).or ((highRequest f.kind.toNat f.payload).or
      (orderRequest f.src f.kind.toNat f.payload))).getD (.unlistedManagementKind f.src f.kind f.payload)

/-- The command that takes the frame at the head of the office receive queue, by its destination (R194). -/
def officeCommand (f : Frame) : Instr :=
  if f.dst.toNat = 0 then requestOf f
  else if f.dst.toNat ≤ 15 then .officePeerFrame
  else .forwardToFloor

/-! ## Floor frames (R202) -/

/-- A 4-byte quantity. -/
def u32Of (a b c d : Byte) : U32 := BitVec.ofNat 32 (natLE [a, b, c, d])

/-- The 2-byte quantities that bytes spell, in order; an odd byte at the end spells none. -/
def u16sOf (bs : List Byte) : List U16 :=
  match bs with
  | a :: b :: rest => u16Of a b :: u16sOf rest
  | _ => []

/-- The frames of a bay, the pick station, the sorter and the scanner, by kind and layout (R202). -/
def stationCommand (src : Byte) (kind : Nat) (p : List Byte) : Option Instr :=
  match kind, p with
  | 97, [] => some (.quiet src)
  | 120, [j0, j1, a, b, c, d] => some (.started src (u16Of j0 j1) (u32Of a b c d))
  | 121, [j0, j1, a, b, c] => some (.progress src (u16Of j0 j1) (u24Of a b c))
  | 122, [j0, j1, a, b, c] => some (.parked src (u16Of j0 j1) (u24Of a b c))
  | 123, [j0, j1, a, b, c, d, result] => some (.copyDone src (u16Of j0 j1) (u32Of a b c d) result)
  | 124, [code] => some (.bayFault src code)
  | 136, [k0, k1, a, b, c, d] => some (.picked src (u16Of k0 k1) (u32Of a b c d))
  | 137, [k0, k1] => some (.notFound src (u16Of k0 k1))
  | 152, [k0, k1] => some (.chuted src (u16Of k0 k1))
  | 153, [k0, k1, chute] => some (.chuteFull src (u16Of k0 k1) chute)
  | 154, [chute] => some (.chuteClear src chute)
  | 168, k0 :: k1 :: d0 :: d1 :: part :: a :: b :: c :: d :: m0 :: m1 :: readings =>
    if readings.length = 2 * (presentChannels (u16Of m0 m1)).length then
      some (.returnItem src (u16Of k0 k1) (u16Of d0 d1) part (u32Of a b c d) (u16Of m0 m1) (u16sOf readings))
    else none
  | _, _ => none

/-- The command that a faultless floor frame is, by its destination, kind and length (R196, R199, R202). A frame that no unit
could take is discarded; whether its own source's owner takes it is the meaning's to say. -/
def floorCommandOf (f : Frame) : Instr :=
  if f.dst.toNat = 0 then (stationCommand f.src f.kind.toNat f.payload).getD (.floorFrameNotTaken f)
  else if f.dst.toNat ≤ 15 then .floorForward f
  else .floorFrameNotTaken f

end Sys2Proof
end

