-- ==== Sys2Proof/Machine/Ops.lean ====
section
/-! DEFINITION. The named operations over State that the meanings share: changing one record, the class accounts (R148), the
floor transmit queue and its arbiter (R197), the stall timers (R79), bay commands (R78), days (00), and taking and
answering a request (R193, R194, R178). -/

namespace Sys2Proof.Machine

/-- What a command comes to. -/
abbrev Result := Host.Outcome State Fault Refusal

/-! ## One record at a time -/

def modPatron (k : Nat) (f : Patron → Patron) (s : State) : State :=
  { s with records.patrons := Table.modify s.records.patrons k f }

def modAgency (k : Nat) (f : Agency → Agency) (s : State) : State :=
  { s with records.agencies := Table.modify s.records.agencies k f }

def modTitle (k : Nat) (f : Title → Title) (s : State) : State :=
  { s with records.titles := Table.modify s.records.titles k f }

def modCons (k : Nat) (f : Consignment → Consignment) (s : State) : State :=
  { s with assembly.cons := Table.modify s.assembly.cons k f }

def modJob (k : Nat) (f : Job → Job) (s : State) : State :=
  { s with scheduler.jobs := Table.modify s.scheduler.jobs k f }

/-- Changes the record of bay number `b` (1..24). -/
def modBay (b : Nat) (f : Bay → Bay) (s : State) : State :=
  { s with scheduler.bays := bankModify s.scheduler.bays b f }

/-- The record of bay number `b` (1..24, R75). -/
def bayAt (s : State) (b : Nat) : Bay := bankGet s.scheduler.bays b {}

/-- The bay numbers (R75). -/
def bayNumbers : List Nat := List.range' 1 24

/-- The counts of cartridge class `c` (1..4, R148). -/
def accountAt (s : State) (c : Nat) : ClassAccount := bankGet s.accounts c {}

def modAccount (c : Nat) (f : ClassAccount → ClassAccount) (s : State) : State :=
  { s with accounts := bankModify s.accounts c f }

/-- The capacity of cartridge class `c` in blocks, 0 while unset (R181). -/
def capacityOf (s : State) (c : Nat) : Nat := bankGet s.management.capacity c 0

/-- The entry of window `w` (0..15, R101). -/
def windowAt (s : State) (w : Nat) : Window := bankGet s.dispatch.windows (w + 1) {}

/-- The waiting count of a title (R7). -/
def waitingCount (s : State) (title : Nat) : Nat :=
  match Table.get s.records.titles title with
  | none => 0
  | some t => t.waiting.length

/-- The number of FREE consignment records (the free count of R49). -/
def freeConsignments (s : State) : Nat := Table.freeCount s.assembly.cons s.management.geometry.c

/-! ## Class accounts (R148): every movement takes cartridges from one count of the class -/

/-- Where a cartridge of a class is. -/
inductive Place
  | blank
  | reserved
  | consigned
  | shelf
  | repair
  deriving DecidableEq, Repr

def ClassAccount.count (a : ClassAccount) (p : Place) : Nat :=
  match p with
  | .blank => a.blank
  | .reserved => a.reserved
  | .consigned => a.consigned
  | .shelf => a.shelf
  | .repair => a.repair

def ClassAccount.setCount (a : ClassAccount) (p : Place) (n : Nat) : ClassAccount :=
  match p with
  | .blank => { a with blank := n }
  | .reserved => { a with reserved := n }
  | .consigned => { a with consigned := n }
  | .shelf => { a with shelf := n }
  | .repair => { a with repair := n }

/-- Takes `n` cartridges from one count and gives them to another; nothing moves when the count holds fewer (log 20). -/
def ClassAccount.move (src dst : Place) (n : Nat) (a : ClassAccount) : ClassAccount :=
  if n ≤ a.count src then
    (a.setCount src (a.count src - n)).setCount dst ((a.setCount src (a.count src - n)).count dst + n)
  else a

/-- Takes `n` cartridges from one count and from stock (log 20). -/
def ClassAccount.writeOff (src : Place) (n : Nat) (a : ClassAccount) : ClassAccount :=
  if n ≤ a.count src then { a.setCount src (a.count src - n) with stock := a.stock - n } else a

/-- Adds `n` new cartridges to one count and to stock. -/
def ClassAccount.add (dst : Place) (n : Nat) (a : ClassAccount) : ClassAccount :=
  { a.setCount dst (a.count dst + n) with stock := a.stock + n }

/-- Moves `n` shelf cartridges from consigned to the repair bench, where they stay bound to their title (R152). -/
def ClassAccount.toBoundRepair (n : Nat) (a : ClassAccount) : ClassAccount :=
  if n ≤ a.consigned then { ClassAccount.move .consigned .repair n a with bound := a.bound + n } else a

/-- Moves `n` title-bound cartridges from the repair bench to the shelf (R156). -/
def ClassAccount.boundToShelf (n : Nat) (a : ClassAccount) : ClassAccount :=
  if n ≤ a.repair ∧ n ≤ a.bound then { ClassAccount.move .repair .shelf n a with bound := a.bound - n } else a

/-- Takes `n` title-bound cartridges off the repair bench and out of stock (R157). -/
def ClassAccount.retireBound (n : Nat) (a : ClassAccount) : ClassAccount :=
  if n ≤ a.repair ∧ n ≤ a.bound then { ClassAccount.writeOff .repair n a with bound := a.bound - n } else a

/-! ## Days (00, Conventions) -/

/-- The days from `a` to `b`: (b − a) mod 65,536. -/
def daysFrom (a b : Day) : Nat := (b - a).toNat

/-- A day value is overdue when the days from it to today lie in 1..32,767. -/
def overdueOn (due today : Day) : Bool := decide (1 ≤ daysFrom due today ∧ daysFrom due today ≤ 32767)

/-! ## The floor transmit queue and its arbiter (R197) -/

/-- An office frame that FORWARD_TO_FLOOR would move: from the supervisor to a floor station (R196). -/
def forwardable (f : Frame) : Bool := decide (16 ≤ f.dst.toNat) && f.src == 1

/-- A forwarded frame at the head of the office receive queue: first in R197's order. The frame behind a request is not taken
before the request's REPLY has entered the slot (R194). -/
def waitingForwards (s : State) : Nat :=
  match s.line.answering, s.line.officeRx with
  | false, f :: _ => if forwardable f then 1 else 0
  | false, [] | true, _ => 0

/-- Owed bay commands: second. -/
def waitingCommands (s : State) : Nat := (bayNumbers.map fun b => (bayAt s b).owed.length).sum

/-- An owed RETURN_ACK or RETURN_WAIT: third. -/
def waitingAnswers (s : State) : Nat := if s.returns.owedAnswer.isSome then 1 else 0

/-- A VERDICT awaiting completion: fourth. -/
def waitingVerdicts (s : State) : Nat := if s.returns.item.isSome then 1 else 0

/-- Pending picks, when the role names a station: fifth, before the release pass. -/
def waitingPicks (s : State) : Nat := if s.management.settings.pickRole = 0 then 0 else s.assembly.picks.length

/-- The frames that wait ahead of each producer's in R197's order (log 10). -/
def aheadOfCommands (s : State) : Nat := waitingForwards s
def aheadOfAnswers (s : State) : Nat := aheadOfCommands s + waitingCommands s
def aheadOfVerdicts (s : State) : Nat := aheadOfAnswers s + waitingAnswers s
def aheadOfPicks (s : State) : Nat := aheadOfVerdicts s + waitingVerdicts s
def aheadOfReleases (s : State) : Nat := aheadOfPicks s + waitingPicks s

/-- The frames that wait ahead of a command when it is made, owed commands included. -/
def aheadOfNewCommand (s : State) : Nat := aheadOfCommands s + waitingCommands s

/-- A producer takes a place of the queue when the queue has room and, while the places are contended, none of the `ahead`
frames that come before it in R197's order waits (log 10). -/
def floorRoom (ahead : Nat) (s : State) : Bool :=
  decide (s.line.floorTx.length < Config.floorQueuePlaces ∧ (s.line.contended = false ∨ ahead = 0))

/-- The places of the queue stay contended while a frame waits that comes before the releases. -/
def stillContended (s : State) : Bool := s.line.contended && decide (aheadOfReleases s ≠ 0)

/-- Hands a frame to the floor transmit queue; with the last frame that waited, the contention ends (R197, log 10). -/
def toFloor (f : Frame) (s : State) : State :=
  { s with line.floorTx := s.line.floorTx ++ [f], line.contended := stillContended s }

/-- The head of the floor transmit queue leaves it. The place it leaves in a full queue is contended when a frame waits for it
(R197, log 10). -/
def leaveFloor (rest : List Frame) (s : State) : State :=
  { s with
    line.floorTx := rest
    line.contended :=
      stillContended { s with line.contended := s.line.contended || decide (Config.floorQueuePlaces ≤ s.line.floorTx.length) } }

/-! ## Stall timers and bay commands (R78, R79) -/

/-- Loads a bay's stall timer with the stall seconds setting. -/
def loadTimer (b : Nat) (s : State) : State :=
  modBay b (fun bay => { bay with timer := s.management.settings.stallSeconds, running := true }) s

/-- A bay's commands LOAD, PARK and RESUME, as against ABANDON (kinds of R202). -/
def waitsForAnswer (f : Frame) : Bool := f.kind == 112 || f.kind == 113 || f.kind == 114

/-- Makes a command for a bay: handed to the floor transmit queue when it has room for it, else owed (R78, R197; log 10). A
LOAD, PARK or RESUME that is handed on loads the stall timer (R79). -/
def makeCommand (b : Nat) (f : Frame) (s : State) : State :=
  if floorRoom (aheadOfNewCommand s) s then
    if waitsForAnswer f then loadTimer b (toFloor f s) else toFloor f s
  else modBay b (fun bay => { bay with owed := bay.owed ++ [f] }) s

/-- Discards the LOAD, PARK or RESUME a bay still owes when it leaves the state that made it (R78, log 11). -/
def dropOwed (b : Nat) (s : State) : State :=
  modBay b (fun bay => { bay with owed := bay.owed.filter fun f => !waitsForAnswer f }) s

/-- A bay that is online: IDLE, LOADING, WRITING or PARKING. -/
def bayOnline (bay : Bay) : Bool :=
  match bay.state with
  | .idle | .loading | .writing | .parking => true
  | .offline | .faulted => false

/-- The bay whose floor address is a station's (R83: a frame is taken at the bay record whose address is its source). -/
def bayOfAddress (s : State) (address : Nat) : Option Nat :=
  if address = 0 then none else bayNumbers.find? fun b => (bayAt s b).address == address

/-- A bay accepts a cartridge class (R75; class k is bit k − 1, R201). -/
def acceptsClass (bay : Bay) (c : Nat) : Bool := decide (1 ≤ c) && bay.classes.getLsbD (c - 1)

/-! ## The poll set (R199) -/

def joinPoll (station : Nat) (s : State) : State :=
  if station = 0 then s else { s with line.pollSet := s.line.pollSet ||| BitVec.twoPow 64 station }

def leavePoll (station : Nat) (s : State) : State :=
  if station = 0 then s else { s with line.pollSet := s.line.pollSet &&& ~~~(BitVec.twoPow 64 station) }

/-! ## Requests and replies (R178, R193, R194) -/

/-- What a request comes to at its owner: the state, the reply code and the result fields of the REPLY. -/
structure Answer where
  state : State
  code : Code
  fields : List Byte
  deriving DecidableEq, Repr

/-- Refused with a code: no state changes (00, Conventions). -/
def refuse (code : Code) (s : State) : Answer := ⟨s, code, []⟩

/-- The REPLY frame to a request (R201). -/
def replyFrame (dst kind : Byte) (code : Code) (fields : List Byte) : Frame :=
  ⟨dst, 0, 80, kind :: byteOf (codeValue code) :: fields⟩

/-- A refusal for mode carries the mode as it stands (R178). -/
def modeByte (s : State) : Byte := byteOf (modeValue s.management.mode)

/-- A request on circulation: refused with WRONG_MODE in SETUP (R178). -/
def inService (s : State) (a : Answer) : Answer :=
  match s.management.mode with
  | .service => a
  | .setup => ⟨s, .wrongMode, [modeByte s]⟩

/-- A request that fixes the shape of the part: refused with LOCKED in SERVICE (R178). -/
def inSetup (s : State) (a : Answer) : Answer :=
  match s.management.mode with
  | .setup => a
  | .service => ⟨s, .locked, [modeByte s]⟩

/-- The office frame `f`, addressed to station 0, is taken when the reply slot is empty: it leaves the head of the office
receive queue, or, when the queue is empty and no other frame is in reception, it is taken as it arrives (R194, log 3). The
frame behind it waits for the REPLY. `none`: it is not its turn. -/
def takeOffice (f : Frame) (s : State) : Option State :=
  if sourceOk .office f.src.toNat = false ∨ s.line.replySlot.isSome then none
  else
    match s.line.officeRx with
    | [] => if s.line.officeIn = [] then some { s with line.answering := true } else none
    | g :: rest => if g = f then some { s with line.officeRx := rest, line.answering := true } else none

/-- Places the REPLY to a frame in the reply slot (R194). -/
def placeReply (f : Frame) (code : Code) (fields : List Byte) (s : State) : State :=
  { s with line.replySlot := some (replyFrame f.src f.kind code fields) }

/-- A request ends with its REPLY in the reply slot; the next frame of the queue can then be taken (R194). -/
def replyTo (f : Frame) (code : Code) (fields : List Byte) (s : State) : State :=
  placeReply f code fields { s with line.answering := false }

end Sys2Proof.Machine
end

