-- ==== Sys2Proof/Machine/Jobs.lean ====
section
/-! DEFINITION. Jobs, the priority queues, placement, pre-emption and next work (R73, R74, R80 to R82, R87, R92, R93), and the
sealed list (R60, R61). A step that queues a job, frees a bay or raises a blank count owes one placement pass (`passDue`),
which `settle` takes once the step's own effects are complete (R80, log 7). -/

namespace Sys2Proof.Machine

/-- The size of an audio title in blocks (R9). -/
def titleBlocks (t : Title) : Nat := if t.granularity = 0 then t.extent + 1 else (t.extent + 1) * 64

/-- The block count of the title at an index, computed from the title record at each use (R9). An absent title gives 0 and a
BRAILLE one 1, which only a queued STOCK run whose title was deleted or reloaded can meet (log 37). -/
def blocksAt (s : State) (title : Nat) : Nat :=
  match Table.get s.records.titles title with
  | none => 0
  | some t => titleBlocks t

/-- Owes the placement pass of R80. -/
def owePass (s : State) : State := { s with passDue := true }

/-- The queue of a level 0..3 (R74). -/
def queueAt (s : State) (level : Nat) : List Nat := bankGet s.scheduler.queues (level + 1) []

def modQueue (level : Nat) (f : List Nat → List Nat) (s : State) : State :=
  { s with scheduler.queues := bankModify s.scheduler.queues (level + 1) f }

/-- The queued jobs in placement order: levels from 3 down to 0, within a level from head to tail (R74). -/
def placementOrder (s : State) : List Nat := queueAt s 3 ++ queueAt s 2 ++ queueAt s 1 ++ queueAt s 0

/-- A job becomes QUEUED at the tail of its level (R74). -/
def queueTail (j : Nat) (s : State) : State :=
  match Table.get s.scheduler.jobs j with
  | none => s
  | some job =>
    owePass (modQueue job.priority (fun q => q ++ [j]) (modJob j (fun x => { x with state := .queued, bay := 0 }) s))

/-- A job becomes QUEUED at the head of its level (R74). -/
def queueHead (j : Nat) (s : State) : State :=
  match Table.get s.scheduler.jobs j with
  | none => s
  | some job =>
    owePass (modQueue job.priority (fun q => j :: q) (modJob j (fun x => { x with state := .queued, bay := 0 }) s))

/-- A job leaves its queue from the position where it stands (R74). -/
def dequeue (j : Nat) (s : State) : State :=
  match Table.get s.scheduler.jobs j with
  | none => s
  | some job => modQueue job.priority (fun q => q.erase j) s

/-- The PACK job of a sealed pack takes the FREE record `j`, and the pack becomes DUPLICATING (R60). -/
def createPackJob (j k : Nat) (s : State) : State :=
  match Table.get s.assembly.cons k with
  | none => s
  | some c =>
    let job : Job :=
      { state := .queued, kind := .pack, priority := c.sealPriority, consignment := k, cartridgeClass := c.cartridgeClass }
    queueTail j
      (modCons k (fun x => { x with state := .duplicating, job := j })
        { s with scheduler.jobs := Table.put s.scheduler.jobs j job })

/-- *Pack sealed*: the pack takes a job record at once, or joins the tail of the sealed list (R60). -/
def packSealed (k : Nat) (s : State) : State :=
  match s.assembly.sealedList, Table.lowestFree s.scheduler.jobs s.management.geometry.j with
  | [], some j => createPackJob j k s
  | _, _ => { s with assembly.sealedList := s.assembly.sealedList ++ [k] }

/-- A job record is freed; it goes to the pack at the head of the sealed list, if there is one (R61). -/
def freeJob (j : Nat) (s : State) : State :=
  match s.assembly.sealedList with
  | [] => { s with scheduler.jobs := Table.delete s.scheduler.jobs j }
  | k :: rest =>
    createPackJob j k
      { s with scheduler.jobs := Table.delete s.scheduler.jobs j, assembly.sealedList := rest }

/-- The block counts a LOAD carries: one for each line of a PACK, one for a STOCK title (R81). -/
def loadBlocks (s : State) (job : Job) : List Nat :=
  match job.kind with
  | .stock => [blocksAt s job.title]
  | .pack =>
    match Table.get s.assembly.cons job.consignment with
    | none => []
    | some c => c.lines.map fun l => blocksAt s l.title

/-- Places job `j` on bay `b` (R81): it becomes the bay's active job with a blank reserved, and a LOAD is made. Used by the
arbiter, by next work (R92) and for a pending pre-emptor (R87). -/
def placeOn (b j : Nat) (s : State) : State :=
  match Table.get s.scheduler.jobs j with
  | none => s
  | some job =>
    let load := loadFrame (bayAt s b).address j job.cartridgeClass 0 (loadBlocks s job)
    makeCommand b load
      (loadTimer b
        (modBay b (fun bay => { bay with active := j, state := .loading })
          (modAccount job.cartridgeClass (ClassAccount.move .blank .reserved 1)
            (modJob j (fun x => { x with state := .active, bay := b, offset := 0, serial := none })
              (dequeue j s)))))

/-- The bay arbiter: the lowest-numbered IDLE bay that accepts a class (R81). -/
def idleBayFor (s : State) (cls : Nat) : Option Nat :=
  bayNumbers.find? fun b => decide ((bayAt s b).state = .idle) && acceptsClass (bayAt s b) cls

/-- The priority of a job, 0 when there is none. -/
def priorityOf (s : State) (j : Nat) : Nat :=
  match Table.get s.scheduler.jobs j with
  | none => 0
  | some job => job.priority

/-- A bay is a pre-emption candidate for a job of a class and priority (R82). -/
def isCandidate (s : State) (cls priority b : Nat) : Bool :=
  let bay := bayAt s b
  bay.preempt && decide (bay.state = .writing) && decide (bay.stack.length < 2) && acceptsClass bay cls &&
    decide (priorityOf s bay.active < priority)

/-- The candidate whose active job has the lowest priority; between equals the lowest bay number (R82). -/
def preemptionBay (s : State) (cls priority : Nat) : Option Nat :=
  (bayNumbers.filter fun b => isCandidate s cls priority b).foldl
    (fun best b =>
      match best with
      | none => some b
      | some a => if priorityOf s (bayAt s b).active < priorityOf s (bayAt s a).active then some b else some a)
    none

/-- Makes job `j` the pending pre-emptor of bay `b` and parks the bay's active job (R82). -/
def preemptOn (b j : Nat) (s : State) : State :=
  makeCommand b (parkFrame (bayAt s b).address (bayAt s b).active)
    (loadTimer b
      (modBay b (fun bay => { bay with preemptor := j, state := .parking })
        (modJob j (fun x => { x with state := .pending, bay := b }) (dequeue j s))))

/-- One job's try in a placement pass (R80). -/
def tryPlace (s : State) (j : Nat) : State :=
  match Table.get s.scheduler.jobs j with
  | none => s
  | some job =>
    if (accountAt s job.cartridgeClass).blank = 0 then latch .blankShort job.cartridgeClass s
    else
      match idleBayFor s job.cartridgeClass with
      | some b => placeOn b j s
      | none =>
        match preemptionBay s job.cartridgeClass job.priority with
        | some b => preemptOn b j s
        | none => s

/-- A placement pass: every job queued at its start is tried once, in placement order (R80). -/
def placementPass (s : State) : State := (placementOrder s).foldl tryPlace s

/-- Ends a step: takes the placement pass it owes, if any (R80: one pass follows all the changes of one event). -/
def settle (s : State) : State :=
  if s.passDue then { placementPass s with passDue := false } else s

/-! ## Next work (R92, R93) -/

/-- The first queued job that fits the bay, has a priority of at least `floor`, and whose class has a blank; BLANK_SHORT is
latched for each fitting job passed over for want of a blank (R92). -/
def chooseWork (b floor : Nat) (jobs : List Nat) (s : State) : Option Nat × State :=
  match jobs with
  | [] => (none, s)
  | j :: rest =>
    match Table.get s.scheduler.jobs j with
    | none => chooseWork b floor rest s
    | some job =>
      if acceptsClass (bayAt s b) job.cartridgeClass && decide (floor ≤ job.priority) then
        if (accountAt s job.cartridgeClass).blank = 0 then
          chooseWork b floor rest (latch .blankShort job.cartridgeClass s)
        else (some j, s)
      else chooseWork b floor rest s

/-- A parked job popped from the stack becomes the active job again, and a RESUME is made (R93). -/
def resumeOn (b j : Nat) (s : State) : State :=
  match Table.get s.scheduler.jobs j with
  | none => s
  | some job =>
    makeCommand b (resumeFrame (bayAt s b).address j job.offset)
      (loadTimer b
        (modBay b (fun bay => { bay with active := j, stack := bay.stack.drop 1, state := .loading })
          (modJob j (fun x => { x with state := .active }) s)))

/-- The bay becomes IDLE and its stall timer stops (R92, step 4). -/
def idleBay (b : Nat) (s : State) : State :=
  owePass (modBay b (fun bay => { bay with state := .idle, running := false }) s)

/-- A bay whose active job has ended chooses its next work (R92). -/
def nextWork (b : Nat) (s : State) : State :=
  match (bayAt s b).stack with
  | top :: _ =>
    match chooseWork b (priorityOf s top + 1) (placementOrder s) s with
    | (some j, s') => placeOn b j s'
    | (none, s') => resumeOn b top s'
  | [] =>
    match chooseWork b 0 (placementOrder s) s with
    | (some j, s') => placeOn b j s'
    | (none, s') => idleBay b s'

/-- The pending pre-emptor is loaded, or returns to the head of its level for want of a blank and the bay takes next work
(R87). -/
def loadPreemptor (b : Nat) (s : State) : State :=
  let j := (bayAt s b).preemptor
  let s1 := modBay b (fun bay => { bay with preemptor := 0 }) s
  match Table.get s.scheduler.jobs j with
  | none => nextWork b s1
  | some job =>
    if (accountAt s job.cartridgeClass).blank = 0 then
      nextWork b (queueHead j (latch .blankShort job.cartridgeClass s1))
    else placeOn b j s1

end Sys2Proof.Machine
end

