-- ==== Sys2Proof/Machine/Assembly.lean ====
section
/-! DEFINITION. Consignments up to READY: window resolution (R5, R103), creation (R52), sealing (R57, R58), braille planning (R65),
freeing (R53), and the pick protocol's hand-over (R68). -/

namespace Sys2Proof.Machine

/-! ## Creation (R52) -/

/-- A patron's delivery destination (R5). -/
def destination (s : State) (p : Patron) : Nat :=
  if p.agency = 0 then p.code
  else
    match Table.get s.records.agencies p.agency with
    | none => p.code
    | some a => a.code

/-- Window `w` (1..15) claims a destination (R103). -/
def claims (s : State) (dest w : Nat) : Bool :=
  (windowAt s w).enabled && decide ((windowAt s w).low ≤ dest ∧ dest ≤ (windowAt s w).high)

/-- Window resolution: the highest-numbered claiming window, window 0 when none claims (R103). -/
def resolveWindow (s : State) (dest : Nat) : Nat :=
  (((List.range' 1 15).filter fun w => claims s dest w).getLast?).getD 0

/-- What every consignment receives at its creation (R52). -/
def newConsignment (s : State) (patron : Nat) (p : Patron) (kind : ConsKind) (state : ConsState) : Consignment :=
  { state := state, kind := kind, patron := patron, window := resolveWindow s (destination s p), openDay := s.days.today }

/-- A consignment record is taken, and its consignment joins the head of the patron's open-line chain (R52). -/
def createOnChain (k : Nat) (c : Consignment) (s : State) : State :=
  modPatron c.patron (fun p => { p with chain := k :: p.chain })
    { s with assembly.cons := Table.put s.assembly.cons k c }

/-! ## Freeing (R53, R139) -/

/-- Frees a consignment record: it leaves the patron's open-line chain and, where it is the open pack, the open pack
becomes 0 (R53; R139 for a record freed by a return). -/
def freeConsignment (k : Nat) (s : State) : State :=
  match Table.get s.assembly.cons k with
  | none => s
  | some c =>
    let s1 := modPatron c.patron
      (fun p => { p with chain := p.chain.erase k, openPack := if p.openPack = k then 0 else p.openPack }) s
    { s1 with assembly.cons := Table.delete s1.assembly.cons k }

/-- Frees several records in the order given. -/
def freeAll (ks : List Nat) (s : State) : State := ks.foldl (fun s k => freeConsignment k s) s

/-- The parts of the set headed by `h`, in ascending index, which is ascending part order (R66). -/
def setParts (s : State) (h : Nat) : List Nat :=
  (s.assembly.cons.filter fun e => decide (e.2.kind = .braillePart ∧ e.2.head = h)).map Prod.fst

/-- The records a consignment stands for: itself, or every part of its set when it is a set head. -/
def wholeConsignment (s : State) (k : Nat) (c : Consignment) : List Nat :=
  if c.kind = .braillePart then setParts s k else [k]

/-! ## Sealing (R57, R58) -/

/-- The seal priority of a patron class (R58). -/
def sealPriorityOf (c : PatronClass) : Nat :=
  match c with
  | .institution => 0
  | .standard => 1
  | .priority => 2

/-- Seals an ASSEMBLING pack and hands it to the job pool; a pack no longer ASSEMBLING is left alone (R58). -/
def sealPack (k : Nat) (s : State) : State :=
  match Table.get s.assembly.cons k with
  | none => s
  | some c =>
    if c.state = .assembling then
      match Table.get s.records.patrons c.patron with
      | none => s
      | some p =>
        packSealed k
          (modPatron c.patron (fun x => { x with openPack := 0 })
            (modCons k (fun x => { x with state := .sealed, sealPriority := sealPriorityOf p.patronClass }) s))
    else s

/-- A close condition of a pack holds: FULL, QUOTA or HOLD_ZERO (R57). -/
def closes (s : State) (p : Patron) (c : Consignment) : Bool :=
  decide (Config.packLines ≤ c.lines.length) || decide (p.quota ≤ p.charge) || decide (s.management.settings.packHold = 0)

/-- Examines the close conditions of a patron's open pack (R57). -/
def examineClose (patron : Nat) (s : State) : State :=
  match Table.get s.records.patrons patron with
  | none => s
  | some p =>
    match Table.get s.assembly.cons p.openPack with
    | none => s
    | some c => if closes s p c then sealPack p.openPack s else s

/-- The ASSEMBLING packs in ascending index (R59). -/
def assemblingPacks (s : State) : List Nat :=
  (s.assembly.cons.filter fun e => decide (e.2.state = .assembling)).map Prod.fst

/-! ## Braille planning (R65) -/

/-- The plan of a set: volumes per container, parts, and whether every part is overweight. -/
structure BraillePlan where
  perPart : Nat
  parts : Nat
  overweight : Bool
  deriving DecidableEq, Repr

/-- Plans a set of `v` volumes of `w` grams under a container limit (R65). -/
def planSet (limit v w : Nat) : BraillePlan :=
  let k := if limit / w = 0 then 1 else limit / w
  { perPart := k, parts := (v + k - 1) / k, overweight := decide (limit / w = 0) }

/-- The volumes in part `i` of a plan (R65). -/
def volumesIn (plan : BraillePlan) (v i : Nat) : Nat :=
  if i < plan.parts then plan.perPart else v - (plan.parts - 1) * plan.perPart

/-- Creates parts `i` upward, `n` of them, each in the lowest-numbered FREE record (R66). -/
def createParts (n i head : Nat) (plan : BraillePlan) (v w : Nat) (c : Consignment) (s : State) : State :=
  match n with
  | 0 => s
  | m + 1 =>
    match Table.lowestFree s.assembly.cons s.management.geometry.c with
    | none => s
    | some k =>
      let part : Consignment :=
        { c with part := i, parts := plan.parts, head := head, volumes := volumesIn plan v i,
                 weight := volumesIn plan v i * w, overweight := plan.overweight,
                 lines := if i = 1 then c.lines else [] }
      createParts m (i + 1) head plan v w c { s with assembly.cons := Table.put s.assembly.cons k part }

/-! ## The pick protocol (R68) -/

/-- A consignment's pick request joins the tail of the pending pick list (R68). -/
def pendPick (k : Nat) (s : State) : State := { s with assembly.picks := s.assembly.picks ++ [k] }

/-- The PICK frame for a consignment (R68). -/
def pickFor (s : State) (k : Nat) : Frame :=
  match Table.get s.assembly.cons k with
  | none => pickFrame s.management.settings.pickRole k 0 false 0
  | some c =>
    let title := (c.lines.head?.map Line.title).getD 0
    if c.kind = .braillePart then pickFrame s.management.settings.pickRole k title true c.parts
    else pickFrame s.management.settings.pickRole k title false c.cartridgeClass

/-- Hands on the PICK at the head of the pending list when the role names a station and the queue has room for it, behind the
`ahead` frames that wait first in R197's order (R68, log 10). -/
def handPick (ahead : Nat) (s : State) : State :=
  match s.assembly.picks with
  | [] => s
  | k :: rest =>
    if s.management.settings.pickRole ≠ 0 ∧ floorRoom ahead s = true then
      toFloor (pickFor s k) { s with assembly.picks := rest, assembly.picksSent := s.assembly.picksSent + 1 }
    else s

/-- Hands on PICKs while the pending list, at most `n` long, and the conditions allow (R68, R197). -/
def handPicks (n : Nat) (s : State) : State :=
  match n with
  | 0 => s
  | m + 1 => handPicks m (handPick (aheadOfPicks s) s)

/-- Every pick request becomes pending again, in ascending consignment index (R68, R72). -/
def rebuildPicks (s : State) : State :=
  { s with
    assembly.picks := (s.assembly.cons.filter fun e => decide (e.2.state = .picking ∧ e.2.lines ≠ [])).map Prod.fst
    assembly.picksSent := 0 }

/-- A pick request ends: it leaves the pending list, or the count of picks sent falls by 1 (R69 step 1). -/
def endPick (k : Nat) (s : State) : State :=
  if k ∈ s.assembly.picks then { s with assembly.picks := s.assembly.picks.erase k }
  else { s with assembly.picksSent := s.assembly.picksSent - 1 }

end Sys2Proof.Machine
end

