-- ==== Sys2Proof/Machine/Requests.lean ====
section
/-! DEFINITION. How a request runs: the office frame is taken, its owner acts, the step's placement pass is taken, and the REPLY
enters the reply slot (R193, R194, R203). -/

namespace Sys2Proof.Machine

/-- The request that command `i` stands for is taken and answered by its owner's action; when it is not its turn (the reply
slot is full, or another frame stands at the head of the queue) nothing happens (log 2, log 3). -/
def request (i : Instr) (s : State) (act : State → Answer) : Result :=
  match requestFrame i with
  | none => .next s
  | some f =>
    match takeOffice f s with
    | none => .next s
    | some s' => .next (replyTo f (act s').code (act s').fields (settle (act s').state))

/-- A step of the part's own: its effect, then the placement pass it owes. -/
def event (s : State) : Result := .next (settle s)

end Sys2Proof.Machine
end

