-- ==== Sys2Proof/Machine/Orders.lean ====
section
/-! DEFINITION. The Order Unit (02): requests and their lists, eligibility and allocation, the claim score, the three triggers,
restoration, and the frames ORDER, PROBE and CANCEL; with them the held state (R171), whose clearing sends *headroom*. -/

namespace Sys2Proof.Machine

/-! ## Requests and their lists (R23 to R25) -/

/-- Frees a request record: it leaves both its lists (R25). -/
def freeRequest (r : Nat) (q : Request) (s : State) : State :=
  modPatron q.patron (fun p => { p with wish := p.wish.erase r })
    (modTitle q.title (fun t => { t with waiting := t.waiting.erase r })
      { s with requests := Table.delete s.requests r })

/-- A new request in record `r` joins the tails of its two lists (R24, R30). -/
def addRequest (r : Nat) (q : Request) (s : State) : State :=
  modPatron q.patron (fun p => { p with wish := p.wish ++ [r] })
    (modTitle q.title (fun t => { t with waiting := t.waiting ++ [r] })
      { s with requests := Table.put s.requests r q })

/-! ## Allocation (R37 to R42) -/

/-- What one allocation attempt came to: passed over, lacking consignment records (R42), or made into a line of
consignment `k`. -/
inductive Attempt
  | passedOver
  | noRecords
  | made (k : Nat)
  deriving DecidableEq, Repr

/-- The patron may be allocated: ACTIVE, not held, charge below quota (R37, conditions 1 and 2). -/
def patronEligible (p : Patron) : Bool := decide (p.status = .active) && !p.held && decide (p.charge < p.quota)

/-- The charge and the title's out account rise by 1 (R8, R41). -/
def grant (patron title : Nat) (s : State) : State :=
  modTitle title (fun t => { t with out := t.out + 1 }) (modPatron patron (fun p => { p with charge := p.charge + 1 }) s)

/-- The line that replaces a request: it carries the request day as its origin day (R41). -/
def lineOf (q : Request) : Line := { title := q.title, origin := q.day }

/-- Opens a new pack in record `k` with the request's title as its one line (R54). -/
def openPackAt (k r b : Nat) (q : Request) (p : Patron) (s : State) : State :=
  let c : Consignment :=
    { newConsignment s q.patron p .pack .assembling with
      cartridgeClass := p.cartridgeClass, lines := [lineOf q], used := 64 + b + 16 }
  examineClose q.patron
    (grant q.patron q.title
      (modPatron q.patron (fun x => { x with openPack := k }) (createOnChain k c (freeRequest r q s))))

/-- Adds the request's title to the open pack `k` (R55). -/
def addToPack (k r b : Nat) (q : Request) (s : State) : State :=
  examineClose q.patron
    (grant q.patron q.title
      (modCons k (fun c => { c with lines := c.lines ++ [lineOf q], used := c.used + b + 16 }) (freeRequest r q s)))

/-- The allocation of an ON_DEMAND request (R38, R54 to R56). -/
def allocateOnDemand (r : Nat) (q : Request) (p : Patron) (t : Title) (s : State) : Attempt × State :=
  match Table.get s.assembly.cons p.openPack with
  | some c =>
    if c.used + titleBlocks t + 16 ≤ capacityOf s c.cartridgeClass then
      (.made p.openPack, addToPack p.openPack r (titleBlocks t) q s)
    else
      match Table.lowestFree s.assembly.cons s.management.geometry.c with
      | none => (.noRecords, s)
      | some k => (.made k, openPackAt k r (titleBlocks t) q p (sealPack p.openPack s))
  | none =>
    match Table.lowestFree s.assembly.cons s.management.geometry.c with
    | none => (.noRecords, s)
    | some k => (.made k, openPackAt k r (titleBlocks t) q p s)

/-- A copy leaves the title's shelf for a consignment; its out account rises with `grant` (R39, R40, R151). -/
def takeCopy (title : Nat) (s : State) : State := modTitle title (fun t => { t with shelf := t.shelf - 1 }) s

/-- The allocation of a SHELF audio request (R39, R67). -/
def allocateShelf (r : Nat) (q : Request) (p : Patron) (t : Title) (s : State) : Attempt × State :=
  match Table.lowestFree s.assembly.cons s.management.geometry.c with
  | none => (.noRecords, s)
  | some k =>
    let c : Consignment :=
      { newConsignment s q.patron p .shelfAudio .picking with cartridgeClass := t.shelfClass, lines := [lineOf q] }
    (.made k,
      examineClose q.patron
        (pendPick k
          (grant q.patron q.title
            (modAccount t.shelfClass (ClassAccount.move .shelf .consigned 1)
              (takeCopy q.title (createOnChain k c (freeRequest r q s)))))))

/-- The allocation of a braille request (R40, R65, R66). -/
def allocateBraille (r : Nat) (q : Request) (p : Patron) (t : Title) (s : State) : Attempt × State :=
  let base := newConsignment s q.patron p .braillePart .picking
  let plan := planSet (windowAt s base.window).limit t.volumes t.weight
  match Table.lowestFree s.assembly.cons s.management.geometry.c with
  | none => (.noRecords, s)
  | some k =>
    if freeConsignments s < plan.parts then (.noRecords, s)
    else
      (.made k,
        examineClose q.patron
          (pendPick k
            (grant q.patron q.title
              (takeCopy q.title
                (modPatron q.patron (fun x => { x with chain := k :: x.chain })
                  (createParts plan.parts 1 k plan t.volumes t.weight { base with lines := [lineOf q] }
                    (freeRequest r q s)))))))

/-- Allocates by the title's kind, the patron and the title being eligible (R38 to R40). A SHELF title without a shelf copy
passes the request over (R37). -/
def allocateKind (r : Nat) (q : Request) (p : Patron) (t : Title) (s : State) : Attempt × State :=
  match t.policy with
  | .onDemand => allocateOnDemand r q p t s
  | .shelf =>
    if t.shelf = 0 then (.passedOver, s)
    else
      match t.format with
      | .audio => allocateShelf r q p t s
      | .braille => allocateBraille r q p t s

/-- An allocation lacking consignment records is not made, and POOL_EXHAUSTED is latched with the patron (R42). -/
def noteExhausted (patron : Nat) (a : Attempt × State) : Attempt × State :=
  match a.1 with
  | .noRecords => (.noRecords, latch .poolExhausted patron a.2)
  | .passedOver | .made _ => a

/-- One allocation attempt for request `r` (R37 to R42). -/
def attempt (r : Nat) (s : State) : Attempt × State :=
  match Table.get s.requests r with
  | none => (.passedOver, s)
  | some q =>
    match Table.get s.records.patrons q.patron, Table.get s.records.titles q.title with
    | some p, some t =>
      if patronEligible p = true ∧ t.availability = .available then noteExhausted q.patron (allocateKind r q p t s)
      else (.passedOver, s)
    | _, _ => (.passedOver, s)

/-! ## The claim score and the triggers (R43 to R45) -/

/-- The claim score of a request of patron `p` made on `day` (R43). -/
def claimScore (today day : Day) (p : Patron) : Nat :=
  let w := min 511 (daysFrom day today)
  let b := if p.patronClass = .priority then 384 else 0
  let raw := 2 * w + b + 16 * (p.quota - p.charge)
  if p.patronClass = .institution then min 1023 raw / 2 else min 1023 raw

/-- The score of a waiting request that meets conditions 1 to 3 of R37, `none` for one that does not (R44 step 2). -/
def scoreOf (s : State) (r : Nat) : Option Nat :=
  match Table.get s.requests r with
  | none => none
  | some q =>
    match Table.get s.records.patrons q.patron with
    | none => none
    | some p => if patronEligible p then some (claimScore s.days.today q.day p) else none

/-- The request with the highest score; between equals the one nearer the head (R44 step 3). -/
def bestClaim (s : State) (rs : List Nat) : Option (Nat × Nat) :=
  rs.foldl
    (fun best r =>
      match scoreOf s r, best with
      | none, _ => best
      | some x, none => some (r, x)
      | some x, some (_, y) => if y < x then some (r, x) else best)
    none

/-- *Copy freed*: one competition for one copy of a SHELF title on its shelf (R44). -/
def copyFreed (title : Nat) (s : State) : State :=
  match Table.get s.records.titles title with
  | none => s
  | some t =>
    if t.policy = .shelf ∧ 1 ≤ t.shelf ∧ t.availability = .available then
      match bestClaim s t.waiting with
      | none => s
      | some (r, _) => (attempt r s).2
    else s

/-- `n` *copy freed* events for one title, taken one after another (R153). -/
def copiesFreed (n title : Nat) (s : State) : State :=
  match n with
  | 0 => s
  | m + 1 => copiesFreed m title (copyFreed title s)

/-- *Headroom*: walks the patron's wish list from its head, trying each request once (R45). A patron that is no longer
eligible ends the walk: every later attempt passes over. -/
def headroom (patron : Nat) (s : State) : State :=
  match Table.get s.records.patrons patron with
  | none => s
  | some p => p.wish.foldl (fun s r => (attempt r s).2) s

/-! ## Held (R171 to R173) -/

/-- Evaluates a patron's held state; a hold that clears sends *headroom* (R171, R173). -/
def evaluateHeld (patron : Nat) (s : State) : State :=
  match Table.get s.records.patrons patron with
  | none => s
  | some p =>
    let limit := s.management.settings.holdLimit
    let held := decide (limit ≠ 0 ∧ limit ≤ p.overdue)
    let s1 := modPatron patron (fun x => { x with held := held }) s
    if p.held && !held then headroom patron s1 else s1

/-- *Set closed overdue*: the patron's overdue count falls by 1 and held is evaluated (R172). -/
def setClosedOverdue (patron : Nat) (s : State) : State :=
  evaluateHeld patron (modPatron patron (fun p => { p with overdue := p.overdue - 1 }) s)

/-! ## Restoration of failed lines (R47, R48) -/

/-- The charge falls by 1 and, for an ON_DEMAND title, the out account too (R47, R48). -/
def ungrant (patron title : Nat) (s : State) : State :=
  modTitle title (fun t => if t.policy = .onDemand then { t with out := t.out - 1 } else t)
    (modPatron patron (fun p => { p with charge := p.charge - 1 }) s)

/-- Restores the lines of one hand-over in order, each after the one restored before it on the wish list (`prev`, 0 for
none) and at the head of its title's waiting list; a line that finds no FREE request record is dropped (R47, R48). -/
def restoreLines (patron prev : Nat) (lines : List Line) (s : State) : State :=
  match lines with
  | [] => s
  | l :: rest =>
    match Table.lowestFree s.requests s.management.geometry.q with
    | none => restoreLines patron prev rest (latch .restoreDropped patron (ungrant patron l.title s))
    | some r =>
      restoreLines patron r rest
        (ungrant patron l.title
          (modPatron patron (fun p => { p with wish := insertAfter p.wish prev r })
            (modTitle l.title (fun t => { t with waiting := r :: t.waiting })
              { s with requests := Table.put s.requests r { patron := patron, title := l.title, day := l.origin } })))

/-- A failed consignment hands over its OPEN lines; one *headroom* walk follows (R47, R48). -/
def handOver (patron : Nat) (lines : List Line) (s : State) : State := headroom patron (restoreLines patron 0 lines s)

/-- The OPEN lines of a consignment, in line order. -/
def openLines (c : Consignment) : List Line := c.lines.filter fun l => decide (l.state = .isOpen)

/-! ## ORDER and PROBE (R26 to R31) -/

/-- Check 10, the audio fit (R27). -/
def audioFit (s : State) (p : Patron) (t : Title) : Option Code :=
  match t.format, t.policy with
  | .braille, _ => none
  | .audio, .onDemand => if capacityOf s p.cartridgeClass < 64 + titleBlocks t + 16 then some .extent else none
  | .audio, .shelf => if t.shelfClass = p.cartridgeClass then none else some .format

/-- The title's format is in the patron's formats served (check 9). -/
def serves (p : Patron) (f : TitleFormat) : Bool :=
  match f with
  | .audio => p.audio
  | .braille => p.braille

/-- The patron has a live request for the title: its record on the wish list (check 11, R28). -/
def liveRequest (s : State) (p : Patron) (title : Nat) : Option Nat :=
  p.wish.find? fun r =>
    match Table.get s.requests r with
    | none => false
    | some q => decide (q.title = title)

/-- Consignment `k` carries an OPEN line that names the title. -/
def carriesOpen (s : State) (title k : Nat) : Bool :=
  match Table.get s.assembly.cons k with
  | none => false
  | some c => (openLines c).any fun l => decide (l.title = title)

/-- The title stands on an open line of the patron (check 12, R28). -/
def onLoan (s : State) (p : Patron) (title : Nat) : Bool := p.chain.any fun k => carriesOpen s title k

/-- Checks 5 to 12 of R26 for a present patron. -/
def titleChecks (s : State) (p : Patron) (title : Nat) : Option Code :=
  if title = 0 ∨ s.management.geometry.t < title then some .titleRange
  else
    match Table.get s.records.titles title with
    | none => some .titleAbsent
    | some t =>
      if t.availability = .withdrawn then some .withdrawn
      else if p.level < t.level then some .restricted
      else if serves p t.format = false then some .format
      else
        match audioFit s p t with
        | some c => some c
        | none =>
          if (liveRequest s p title).isSome then some .duplicate
          else if onLoan s p title then some .onLoan
          else none

/-- Checks 1 to 3 of R26. -/
def patronChecks (s : State) (patron : Nat) : Option Code :=
  if patron = 0 then some .nullPatron
  else if s.management.geometry.p < patron then some .patronRange
  else if (Table.get s.records.patrons patron).isNone then some .patronAbsent
  else none

/-- Checks 1 to 12 of R26 in their order: the code of the first that fails (R31). -/
def orderChecks (s : State) (patron title : Nat) : Option Code :=
  match patronChecks s patron with
  | some c => some c
  | none =>
    match Table.get s.records.patrons patron with
    | none => some .patronAbsent
    | some p => if p.status = .suspended then some .patronSuspended else titleChecks s p title

/-- Checks 13 and 14 (R29): the list limit, then the request pool. -/
def listChecks (s : State) (patron : Nat) : Option Code :=
  match Table.get s.records.patrons patron with
  | none => some .patronAbsent
  | some p =>
    if s.management.settings.listLimit ≤ p.wish.length then some .listFull
    else if (Table.lowestFree s.requests s.management.geometry.q).isNone then some .poolFull
    else none

/-- A refused ORDER: consignment 0, and a waiting count that no rule gives (R201, log 14). -/
def refuseOrder (code : Code) (s : State) : Answer :=
  ⟨{ s with freeIx := s.freeIx + 1 }, code,
    bytesLE 2 0 ++ bytesLE 2 (Config.refusedWaitingCount s.freeIx).toNat⟩

/-- An accepted ORDER in record `r`: the request joins its lists and one allocation attempt is made for it alone (R30). -/
def acceptOrder (r patron title : Nat) (s : State) : Answer :=
  match attempt r (addRequest r { patron := patron, title := title, day := s.days.today } s) with
  | (.made k, s') => ⟨s', .allocated, bytesLE 2 k ++ bytesLE 2 (waitingCount s' title)⟩
  | (.passedOver, s') => ⟨s', .waiting, bytesLE 2 0 ++ bytesLE 2 (waitingCount s' title)⟩
  | (.noRecords, s') => ⟨s', .waiting, bytesLE 2 0 ++ bytesLE 2 (waitingCount s' title)⟩

/-- ORDER in SERVICE (R26, R30). -/
def placeOrder (patron title : Nat) (s : State) : Answer :=
  match orderChecks s patron title with
  | some c => refuseOrder c s
  | none =>
    match listChecks s patron with
    | some c => refuseOrder c s
    | none =>
      match Table.lowestFree s.requests s.management.geometry.q with
      | none => refuseOrder .poolFull s
      | some r => acceptOrder r patron title s

/-- ORDER (R26, R30). -/
def execOrder (src : Byte) (patron title : U16) (s : State) : Result :=
  request (.order src patron title) s fun s => inService s (placeOrder patron.toNat title.toNat s)

/-- PROBE in SERVICE: the waiting count, 0 unless ELIGIBLE (R31, R201). -/
def probeOrder (patron title : Nat) (s : State) : Answer :=
  match orderChecks s patron title with
  | some c => ⟨s, c, bytesLE 2 0⟩
  | none => ⟨s, .eligible, bytesLE 2 (waitingCount s title)⟩

/-- PROBE (R31). -/
def execProbe (src : Byte) (patron title : U16) (s : State) : Result :=
  request (.probe src patron title) s fun s => inService s (probeOrder patron.toNat title.toNat s)

/-! ## CANCEL (R32 to R34, R64) -/

/-- Removes the line that names a title from the lines of a pack; the others keep their order (R64). -/
def dropLine (title : Nat) (lines : List Line) : List Line :=
  lines.eraseP fun l => decide (l.title = title ∧ l.state = .isOpen)

/-- Takes a title's line off the patron's ASSEMBLING open pack `k` (R33, R64): the pack is freed when no line remains, else its
close conditions are examined; then the *headroom* walk is taken. -/
def takeBackLine (k patron title : Nat) (c : Consignment) (s : State) : State :=
  let rest := dropLine title c.lines
  let s1 := modCons k (fun x => { x with lines := rest, used := x.used - (blocksAt s title + 16) }) s
  let s2 := ungrant patron title s1
  headroom patron (if rest = [] then freeConsignment k s2 else examineClose patron s2)

/-- A CANCEL without a live request: the line on the open pack, TOO_LATE, or NOT_FOUND (R33, R34). -/
def cancelLine (patron title : Nat) (p : Patron) (s : State) : Answer :=
  match Table.get s.assembly.cons p.openPack with
  | some c =>
    if c.state = .assembling ∧ carriesOpen s title p.openPack = true then
      ⟨takeBackLine p.openPack patron title c s, .ok, []⟩
    else if onLoan s p title then refuse .tooLate s
    else refuse .notFound s
  | none => if onLoan s p title then refuse .tooLate s else refuse .notFound s

/-- CANCEL in SERVICE (R32). -/
def cancelOrder (patron title : Nat) (s : State) : Answer :=
  match patronChecks s patron with
  | some c => refuse c s
  | none =>
    if title = 0 ∨ s.management.geometry.t < title then refuse .titleRange s
    else
      match Table.get s.records.patrons patron with
      | none => refuse .patronAbsent s
      | some p =>
        match liveRequest s p title with
        | some r =>
          match Table.get s.requests r with
          | none => refuse .notFound s
          | some q => ⟨freeRequest r q s, .ok, []⟩
        | none => cancelLine patron title p s

/-- CANCEL (R32). -/
def execCancel (src : Byte) (patron title : U16) (s : State) : Result :=
  request (.cancel src patron title) s fun s => inService s (cancelOrder patron.toNat title.toNat s)

end Sys2Proof.Machine
end

