-- ==== Sys2Proof/Machine/Turns.lean ====
section
/-! DEFINITION. Frames that arrive on the floor port: the reply turn, missed replies, the owner of a source, and what a frame does
at the Line Interface before its owner takes it (R79, R198, R199). -/

namespace Sys2Proof.Machine

/-- The missed-reply count of station 16..62 (R198). -/
def missedAt (s : State) (station : Nat) : Nat := bankGet s.line.missed (station - 15) 0

/-- Writes a station's missed-reply count. -/
def setMissed (station n : Nat) (s : State) : State :=
  { s with line.missed := bankModify s.line.missed (station - 15) fun _ => n }

/-- A miss: the count rises by 1; at 3 LINE_FAULT is latched with the station, and the count returns to 0 (R198). -/
def countMiss (station : Nat) (s : State) : State :=
  if missedAt s station + 1 = 3 then latch .lineFault station (setMissed station 0 s)
  else setMissed station (missedAt s station + 1) s

/-- The reply turn ends. -/
def endTurn (s : State) : State := { s with line.turn := none }

/-- The frame on the floor port ends. What follows its end among the characters held is the next frame's (R191): if that one
began before the turn in progress, so did the frame behind it. -/
def endReception (s : State) : State :=
  { s with
    line.floorIn := afterFrame s.line.floorIn
    line.carried := none
    line.early := s.line.early && decide (afterFrame s.line.floorIn ≠ []) }

/-- The frame is the one that completes next on the floor port: its characters continue those held there, or those held begin
with them (log 13). -/
def floorArrival (f : Frame) (s : State) : Bool :=
  s.line.floorIn.isPrefixOf (Frame.chars f) || (Frame.chars f).isPrefixOf s.line.floorIn

/-- The reply turn in which the frame that ends at the floor port began. -/
inductive FrameTurn
  /-- the turn in progress -/
  | current (t : Turn)
  /-- a turn that RESTART cleared while the frame was in reception -/
  | cleared (station : Nat)
  /-- none -/
  | outside
  deriving DecidableEq, Repr

/-- The turn of the frame that ends now (R189 step 1, R198, R200). A frame that was in reception when a turn began, began
outside every turn. -/
def turnOfFrame (s : State) : FrameTurn :=
  let now : FrameTurn :=
    match s.line.turn with
    | some t => .current t
    | none => .outside
  if s.line.floorIn = [] then now
  else
    match s.line.carried with
    | some k => .cleared k
    | none => if s.line.early then .outside else now

/-- Any frame from a bay's floor address reloads its stall timer while it runs (R79). -/
def reloadTimer (station : Nat) (s : State) : State :=
  match bayOfAddress s station with
  | none => s
  | some b => if (bayAt s b).running then loadTimer b s else s

/-- The unit that owns a floor source address (R199). -/
inductive Owner
  | bay (b : Nat)
  | pickStation
  | sorter
  | scanner
  | nobody
  deriving DecidableEq, Repr

def ownerOf (s : State) (station : Nat) : Owner :=
  match bayOfAddress s station with
  | some b => .bay b
  | none =>
    if station = 0 then .nobody
    else if station = s.management.settings.pickRole then .pickStation
    else if station = s.management.settings.sorterRole then .sorter
    else if station = s.management.settings.scannerRole then .scanner
    else .nobody

/-- The frame of the station that holds the reply turn ends the turn and clears its missed-reply count (R198 step 2). So does
a new frame of the station that begins after a parity or framing error in its turn (log 41). A frame that was in reception
when RESTART cleared the turn is handed on all the same (R189 step 1, R200; log 13). `none`: the frame is not received in its
station's turn. -/
def answered (station : Nat) (s : State) : Option State :=
  match turnOfFrame s with
  | .current t => if t.station = station then some (setMissed station 0 (endTurn (endReception s))) else none
  | .cleared k => if k = station then some (endReception s) else none
  | .outside => none

/-- A faultless frame that is not received in its station's turn: outside every turn it is discarded; in another station's
turn that station is counted as having missed and the turn ends (R198 step 3). -/
def strayFrame (s : State) : State :=
  match turnOfFrame s with
  | .current t => countMiss t.station (endTurn (endReception s))
  | .cleared _ | .outside => endReception s

/-- A frame whose source the floor line does not have is a CHECK failure (R193); in a turn the turn's station is counted as
having missed too (R198 step 3; the order of the two latchings: log 23). -/
def badSourceFrame (s : State) : State := strayFrame (recordFault .floor (causeBit .check) s)

/-- A faultless floor frame from a station: in its turn it ends the turn, reloads a bay's stall timer and goes on to `act`;
otherwise it is stray. -/
def receiveFloor (station : Nat) (act : State → State) (s : State) : State :=
  if sourceOk .floor station = false then badSourceFrame s
  else
    match answered station s with
    | some s' => act (reloadTimer station s')
    | none => strayFrame s

/-- In SERVICE a frame of a bay is taken at the bay's record; a frame from another source is discarded (R199). -/
def takenByBay (station : Nat) (act : Nat → State → State) (s : State) : State :=
  match s.management.mode, ownerOf s station with
  | .service, .bay b => act b s
  | _, _ => s

/-- In SERVICE a frame of the unit that owns the source is taken by `act`; another is discarded (R199). -/
def takenBy (owner : Owner) (station : Nat) (act : State → State) (s : State) : State :=
  if s.management.mode = .service ∧ ownerOf s station = owner then act s else s

/-- A floor frame command as a step: its frame (R202) completes at the floor port with effect `act`; a frame that is not the one
in reception there does not arrive (log 2). -/
def floorEvent (i : Instr) (act : Frame → State → State) (s : State) : Result :=
  match floorFrame i with
  | none => .next s
  | some f => if floorArrival f s then event (act f s) else .next s

/-- A bay frame as a step (R83: it is taken at the bay record whose floor address is its source). -/
def bayFrame (i : Instr) (act : Nat → State → State) (s : State) : Result :=
  floorEvent i (fun f => receiveFloor f.src.toNat (takenByBay f.src.toNat act)) s

/-- A frame of the pick station, the sorter or the scanner as a step (R199). -/
def unitFrame (i : Instr) (owner : Owner) (act : State → State) (s : State) : Result :=
  floorEvent i (fun f => receiveFloor f.src.toNat (takenBy owner f.src.toNat act)) s

/-- A kind and length that the owner of the source takes (R199, R202). QUIET is taken by the Line Interface itself. -/
def ownerTakes (owner : Owner) (kind : Nat) (payload : List Byte) : Bool :=
  floorLengthOk kind payload &&
    match owner with
    | .bay _ => decide (kind = 97 ∨ (120 ≤ kind ∧ kind ≤ 124))
    | .pickStation => decide (kind = 97 ∨ kind = 136 ∨ kind = 137)
    | .sorter => decide (kind = 97 ∨ (152 ≤ kind ∧ kind ≤ 154))
    | .scanner => decide (kind = 97 ∨ kind = 168)
    | .nobody => decide (kind = 97)

end Sys2Proof.Machine
end

