-- ==== Sys2Proof/Machine/Sorter.lean ====
section
/-! DEFINITION. The Dispatch Unit (05): zone windows, the ready queue, release passes, the sorter's answers and the manifest. -/

namespace Sys2Proof.Machine

/-! ## Blocked chutes (R112) -/

def chuteBlocked (s : State) (chute : Nat) : Bool := s.dispatch.blocked.getLsbD (chute - 1)

def blockChute (chute : Nat) (s : State) : State :=
  { s with dispatch.blocked := s.dispatch.blocked ||| BitVec.twoPow 32 (chute - 1) }

def unblockChute (chute : Nat) (s : State) : State :=
  { s with dispatch.blocked := s.dispatch.blocked &&& ~~~(BitVec.twoPow 32 (chute - 1)) }

/-! ## The manifest halves (R114) -/

/-- The records of a half (false: half 0, true: half 1). -/
def halfAt (s : State) (half : Bool) : List ManifestRecord := if half then s.dispatch.half1 else s.dispatch.half0

def setHalf (half : Bool) (rs : List ManifestRecord) (s : State) : State :=
  if half then { s with dispatch.half1 := rs } else { s with dispatch.half0 := rs }

/-- A manifest slot is free (R106). -/
def slotFree (s : State) : Bool :=
  decide ((halfAt s s.dispatch.filling).length + s.dispatch.outstanding.length < Config.manifestHalfPlaces)

/-- The number of a half as a subject or a field. -/
def halfNumber (half : Bool) : Nat := if half then 1 else 0

/-! ## Release passes (R107, R108) -/

/-- A consignment of the ready queue can be released: READY, its window not held, its window's chute not blocked (R108). -/
def releasable (s : State) (k : Nat) : Bool :=
  match Table.get s.assembly.cons k with
  | none => false
  | some c =>
    decide (c.state = .ready) && !(windowAt s c.window).hold && !chuteBlocked s (windowAt s c.window).chute

/-- The four conditions of R108. Room in a queue that was full goes first to the `ahead` frames that wait before the releases
(R197, log 10). -/
def releaseOpen (ahead : Nat) (s : State) : Bool :=
  decide (s.dispatch.outstanding.length < Config.maxReleases) && slotFree s &&
    decide (s.management.settings.sorterRole ≠ 0) && floorRoom ahead s

/-- Part k and n as RELEASE and the manifest carry them: 1 of 1 for audio kinds (R108, R114). -/
def partOf (c : Consignment) : Nat × Nat := if c.kind = .braillePart then (c.part, c.parts) else (1, 1)

/-- The serial or copy number of a consignment past PICKED or *job done*, where it has been written (R62, R69). -/
def serialOf (c : Consignment) : U32 := c.serial.getD 0

/-- Releases consignment `k` to the sorter (R108). -/
def releaseOne (k : Nat) (c : Consignment) (s : State) : State :=
  let w := windowAt s c.window
  let f := releaseFrame s.management.settings.sorterRole k (consKindValue c.kind) (partOf c).1 (partOf c).2 w.chute
    (mailClassValue w.mailClass) (serialOf c).toNat c.weight c.overweight
  toFloor f
    (modCons k (fun x => { x with state := .releasing })
      { s with dispatch.outstanding := s.dispatch.outstanding ++
          [{ consignment := k, chute := w.chute, mailClass := w.mailClass }] })

/-- Makes at most `n` releases, each the first releasable consignment from the head of the ready queue (R108). -/
def releaseUpTo (n ahead : Nat) (s : State) : State :=
  match n with
  | 0 => s
  | m + 1 =>
    if releaseOpen ahead s then
      match s.dispatch.ready.find? fun k => releasable s k with
      | none => s
      | some k =>
        match Table.get s.assembly.cons k with
        | none => s
        | some c => releaseUpTo m ahead (releaseOne k c s)
    else s

/-- A release pass; at most 4 releases can be outstanding, so it makes at most 4 (R106, R108). -/
def releasePassWith (ahead : Nat) (s : State) : State := releaseUpTo Config.maxReleases ahead s

/-- The release pass that follows an event, behind the producers that come before it in R197's order (R107). -/
def passReleases (s : State) : State := releasePassWith (aheadOfReleases s) s

/-- *Consignment ready*: the consignment becomes READY, joins the tail of the ready queue, and a release pass follows
(R62, R69, R105). -/
def consignmentReady (k : Nat) (s : State) : State :=
  passReleases
    (modCons k (fun c => { c with state := .ready }) { s with dispatch.ready := s.dispatch.ready ++ [k] })

/-- RELEASE_PASS: the pass taken as room appears in the floor transmit queue (R107, R197). -/
def execReleasePass (s : State) : Result := event (passReleases s)

/-! ## The sorter's answers (R109 to R113) -/

/-- The outstanding release of a RELEASING consignment (R109, R113). -/
def releaseOf (s : State) (k : Nat) : Option (Consignment × Release) :=
  match Table.get s.assembly.cons k, s.dispatch.outstanding.find? fun r => decide (r.consignment = k) with
  | some c, some r => if c.state = .releasing then some (c, r) else none
  | _, _ => none

def dropRelease (k : Nat) (s : State) : State :=
  { s with dispatch.outstanding := s.dispatch.outstanding.filter fun r => decide (r.consignment ≠ k) }

/-- The loan days of a consignment's format (R110). -/
def loanDays (s : State) (kind : ConsKind) : Nat :=
  match kind with
  | .pack | .shelfAudio => s.management.settings.audioLoan
  | .braillePart => s.management.settings.brailleLoan

/-- The due day of a consignment posted today: (post day + loan days + 2 × transit days) mod 65,536 (R110). -/
def dueDayOf (s : State) (c : Consignment) : Day :=
  s.days.today + BitVec.ofNat 16 (loanDays s c.kind + 2 * (windowAt s c.window).transit)

/-- The manifest record of a consignment posted today (R114). -/
def manifestRecordOf (s : State) (k : Nat) (c : Consignment) (r : Release) : ManifestRecord :=
  { consignment := k, patron := c.patron, kind := c.kind, part := (partOf c).1, parts := (partOf c).2, window := c.window,
    chute := r.chute, mailClass := r.mailClass, serial := serialOf c, weight := c.weight, overweight := c.overweight,
    postDay := s.days.today, dueDay := dueDayOf s c }

/-- What follows a record that may have filled the filling half (R115). -/
def switchHalf (s : State) : State :=
  let h := s.dispatch.filling
  if (halfAt s h).length = Config.manifestHalfPlaces then
    if halfAt s (!h) = [] then latch .manifestHalf (halfNumber h) { s with dispatch.filling := !h }
    else latch .manifestFull (halfNumber h) s
  else s

/-- CHUTED for an outstanding release posts the consignment (R109). -/
def postConsignment (k : Nat) (c : Consignment) (r : Release) (s : State) : State :=
  let h := s.dispatch.filling
  let due := dueDayOf s c
  let s1 := setHalf h (halfAt s h ++ [manifestRecordOf s k c r]) s
  let s2 := modCons k
    (fun x => { x with state := .posted, postDay := s.days.today, dueDay := due, overdue := false }) (dropRelease k s1)
  switchHalf { s2 with dispatch.ready := s2.dispatch.ready.erase k }

/-- CHUTED at the Dispatch Unit; one that cannot be taken is discarded (R109, R113). -/
def takeChuted (k : Nat) (s : State) : State :=
  match releaseOf s k with
  | none => s
  | some (c, r) => passReleases (postConsignment k c r s)

/-- CHUTED (R109). -/
def execChuted (src : Byte) (consignment : U16) (s : State) : Result :=
  unitFrame (.chuted src consignment) .sorter (takeChuted consignment.toNat) s

/-- The chute a CHUTE_FULL blocks: the frame's, when it lies in 1..32, else the outstanding release's (R111). -/
def fullChute (chute : Nat) (r : Release) : Nat := if 1 ≤ chute ∧ chute ≤ 32 then chute else r.chute

/-- CHUTE_FULL at the Dispatch Unit (R111, R113). -/
def takeChuteFull (k chute : Nat) (s : State) : State :=
  match releaseOf s k with
  | none => s
  | some (_, r) =>
    let s1 := modCons k (fun x => { x with state := .ready }) (dropRelease k s)
    passReleases (blockChute (fullChute chute r) { s1 with dispatch.ready := k :: s1.dispatch.ready.erase k })

/-- CHUTE_FULL (R111). -/
def execChuteFull (src : Byte) (consignment : U16) (chute : Byte) (s : State) : Result :=
  unitFrame (.chuteFull src consignment chute) .sorter (takeChuteFull consignment.toNat chute.toNat) s

/-- CHUTE_CLEAR at the Dispatch Unit: a release pass follows when a chute is unblocked (R112, R113). -/
def takeChuteClear (chute : Nat) (s : State) : State :=
  if (1 ≤ chute ∧ chute ≤ 32) ∧ chuteBlocked s chute = true then passReleases (unblockChute chute s) else s

/-- CHUTE_CLEAR (R112). -/
def execChuteClear (src chute : Byte) (s : State) : Result := 
  unitFrame (.chuteClear src chute) .sorter (takeChuteClear chute.toNat) s

/-! ## The sorter role and RESTART (R119, R120) -/

/-- Cancels every release: RELEASING consignments become READY where they stand, the outstanding releases and the blocked
set are emptied (R119 steps 1 to 3, R120). -/
def cancelReleases (s : State) : State :=
  { s with
    assembly.cons := s.assembly.cons.map fun e =>
      if e.2.state = .releasing then (e.1, { e.2 with state := .ready }) else e
    dispatch.outstanding := []
    dispatch.blocked := 0 }

/-! ## Requests of the supervisor (R102, R116 to R118) -/

/-- The entry SET_WINDOW writes, `none` when a check fails. Codes of a disabled window that lie outside the range of R101, low code
above high code, are stored as 0 (R102, log 26). -/
def windowEntry (window enabled : Byte) (low high : U24) (chute mailClass transit : Byte) (limit : U16) (hold : Byte) :
    Option Window :=
  match mailClassOf mailClass, flagOf hold with
  | some m, some h =>
    if 15 < window.toNat ∨ chute.toNat = 0 ∨ 32 < chute.toNat ∨ 15 < transit.toNat ∨ limit.toNat < 500 ∨
        30000 < limit.toNat then none
    else
      let base : Window :=
        { chute := chute.toNat, mailClass := m, transit := transit.toNat, limit := limit.toNat, hold := h }
      if window.toNat = 0 then some base
      else
        match flagOf enabled with
        | none => none
        | some e =>
          if low.toNat ≤ high.toNat then some { base with enabled := e, low := low.toNat, high := high.toNat }
          else if e = true then none
          else some base
  | _, _ => none

/-- SET_WINDOW writes one whole entry and takes a release pass (R102). -/
def execSetWindow (window enabled : Byte) (low high : U24) (chute mailClass transit : Byte) (limit : U16) (hold : Byte)
    (s : State) : Result :=
  request (.setWindow window enabled low high chute mailClass transit limit hold) s fun s =>
    match windowEntry window enabled low high chute mailClass transit limit hold with
    | none => refuse .badField s
    | some w =>
      ⟨passReleases { s with dispatch.windows := bankModify s.dispatch.windows (window.toNat + 1) fun _ => w }, .ok, []⟩

/-- RELEASE_MANIFEST of half `h` (R116). -/
def releaseHalf (h : Bool) (s : State) : Answer :=
  if h = s.dispatch.filling then refuse .inUse s
  else if halfAt s h = [] then ⟨s, .ok, []⟩
  else if (halfAt s s.dispatch.filling).length < Config.manifestHalfPlaces then ⟨passReleases (setHalf h [] s), .ok, []⟩
  else
    ⟨passReleases (latch .manifestHalf (halfNumber s.dispatch.filling) { setHalf h [] s with dispatch.filling := h }), .ok, []⟩

/-- RELEASE_MANIFEST (R116). -/
def execReleaseManifest (half : Byte) (s : State) : Result :=
  request (.releaseManifest half) s fun s =>
    match flagOf half with
    | none => refuse .badField s
    | some h => releaseHalf h s

/-- The fields of a manifest record in the order of R114. -/
def manifestBytes (r : ManifestRecord) : List Byte :=
  bytesLE 2 r.consignment ++ bytesLE 2 r.patron ++ [byteOf (consKindValue r.kind), byteOf r.part, byteOf r.parts,
    byteOf r.window, byteOf r.chute, byteOf (mailClassValue r.mailClass)] ++ bytesLE 4 r.serial.toNat ++
    bytesLE 3 r.weight ++ [flagByte r.overweight] ++ bytesLE 2 r.postDay.toNat ++ bytesLE 2 r.dueDay.toNat

/-- READ_MANIFEST in range (R117). -/
def manifestAnswer (h : Bool) (index : Nat) (s : State) : Answer :=
  let counts := [byteOf (halfAt s h).length, flagByte s.dispatch.filling]
  match (halfAt s h)[index - 1]? with
  | none => ⟨s, .notFound, counts⟩
  | some r => ⟨s, .ok, counts ++ manifestBytes r⟩

/-- READ_MANIFEST (R117). -/
def execReadManifest (half index : Byte) (s : State) : Result :=
  request (.readManifest half index) s fun s =>
    match flagOf half with
    | none => refuse .badField s
    | some h => if index.toNat = 0 ∨ 64 < index.toNat then refuse .badField s else manifestAnswer h index.toNat s

/-- An outstanding release as READ_DISPATCH shows it (R118). -/
def releaseBytes (r : Release) : List Byte :=
  bytesLE 2 r.consignment ++ [byteOf r.chute, byteOf (mailClassValue r.mailClass)]

/-- The read-out of the dispatch state (R118, R201). No rule orders the outstanding releases, a set (R106): they stand in the
order they were made (log 39). -/
def dispatchBytes (s : State) : List Byte :=
  bytesLE 2 s.dispatch.ready.length ++ bytesLE 2 (s.dispatch.ready.headD 0) ++
    byteOf s.dispatch.outstanding.length :: s.dispatch.outstanding.flatMap releaseBytes ++
    bytesLE 4 s.dispatch.blocked.toNat ++
    [byteOf s.dispatch.half0.length, byteOf s.dispatch.half1.length, flagByte s.dispatch.filling,
      flagByte (decide ((halfAt s s.dispatch.filling).length = Config.manifestHalfPlaces))]

/-- READ_DISPATCH (R118). -/
def execReadDispatch (s : State) : Result := request .readDispatch s fun s => ⟨s, .ok, dispatchBytes s⟩

end Sys2Proof.Machine
end

