-- ==== Sys2Proof/Machine/Bays.lean ====
section
/-! DEFINITION. The Duplication Scheduler's commands (04): bay configuration, online and offline, the stall timer, the frames of a
bay, copy results, faults, stock copy runs and RAISE_JOB. -/

namespace Sys2Proof.Machine

/-! ## Jobs that end or are put back -/

/-- *Job done*: the consignment takes the serial of the COPY_DONE and becomes READY (R62). -/
def jobDone (k : Nat) (serial : U32) (s : State) : State :=
  consignmentReady k (modCons k (fun c => { c with serial := some serial, job := 0 }) s)

/-- *Job failed*: the consignment is freed and its OPEN lines are handed over for restoration (R63). -/
def jobFailed (k : Nat) (s : State) : State :=
  match Table.get s.assembly.cons k with
  | none => s
  | some c => handOver c.patron (openLines c) (freeConsignment k s)

/-- A job fails: JOB_FAILED is latched, a PACK fails its consignment, a STOCK run drops its copies, and the record is freed
(R91). -/
def failJob (j : Nat) (s : State) : State :=
  match Table.get s.scheduler.jobs j with
  | none => s
  | some job =>
    let s1 := latch .jobFailed j s
    freeJob j (if job.kind = .pack then jobFailed job.consignment s1 else s1)

/-- A job's present cartridge is given up: block offset 0, serial absent. -/
def forgetCartridge (j : Nat) (s : State) : State := modJob j (fun x => { x with offset := 0, serial := none }) s

/-- The retry rule after a failed attempt: the first failure puts the job at the head of its level, the second fails it
(R90 steps 3 and 4, R95). -/
def retryJob (j : Nat) (s : State) : State :=
  match Table.get s.scheduler.jobs j with
  | none => s
  | some job => if job.retry then failJob j s else queueHead j (modJob j (fun x => { x with retry := true }) s)

/-- One cartridge of a job's class moves from reserved to another count (R150). -/
def moveReserved (j : Nat) (dst : Place) (s : State) : State :=
  match Table.get s.scheduler.jobs j with
  | none => s
  | some job => modAccount job.cartridgeClass (ClassAccount.move .reserved dst 1) s

/-- The active job and the parked jobs of a bay, the stack from its top down (R95, R96). -/
def heldJobs (bay : Bay) : List Nat := (if bay.active = 0 then [] else [bay.active]) ++ bay.stack

/-- A bay holds no job. -/
def emptyBay (b : Nat) (s : State) : State :=
  modBay b (fun bay => { bay with active := 0, stack := [], preemptor := 0 }) s

/-- A job taken off a bay without a counted attempt joins the head of its level (R96 step 3). -/
def requeue (j : Nat) (s : State) : State := queueHead j (forgetCartridge j s)

/-- Puts a bay's jobs back: cartridges to repair, jobs and pending pre-emptor to the heads of their levels (R96 steps 2 and 3,
R100). -/
def putBackJobs (b : Nat) (s : State) : State :=
  let bay := bayAt s b
  let s1 := (heldJobs bay).foldl (fun s j => moveReserved j .repair s) s
  let s2 := (heldJobs bay).foldl (fun s j => requeue j s) s1
  emptyBay b (if bay.preemptor = 0 then s2 else requeue bay.preemptor s2)

/-! ## Configuration and mode of a bay (R76, R77, R96) -/

/-- Another bay, or a station role, holds a floor address (R76 check 3). -/
def addressTaken (s : State) (b address : Nat) : Bool :=
  (bayNumbers.any fun x => decide (x ≠ b) && decide ((bayAt s x).address = address)) ||
    decide (address = s.management.settings.pickRole ∨ address = s.management.settings.sorterRole ∨
      address = s.management.settings.scannerRole)

/-- SET_BAY's checks and its effect (R76). -/
def configureBay (b address : Nat) (classes preempt : Byte) (s : State) : Answer :=
  match flagOf preempt with
  | none => refuse .badField s
  | some pre =>
    if b = 0 ∨ 24 < b ∨ (address ≠ 0 ∧ (address < 16 ∨ 62 < address)) ∨ 15 < classes.toNat ∨
        (address ≠ 0 ∧ classes = 0) then refuse .badField s
    else if (bayAt s b).state ≠ .offline then refuse .inUse s
    else if address ≠ 0 ∧ addressTaken s b address = true then refuse .conflict s
    else if address = 0 then
      ⟨modBay b (fun bay => { bay with address := 0, classes := 0, preempt := false }) s, .ok, []⟩
    else ⟨modBay b (fun bay => { bay with address := address, classes := classes, preempt := pre }) s, .ok, []⟩

/-- SET_BAY (R76). -/
def execSetBay (bay address classes preempt : Byte) (s : State) : Result :=
  request (.setBay bay address classes preempt) s fun s => configureBay bay.toNat address.toNat classes preempt s

/-- An OFFLINE or FAULTED bay becomes IDLE and joins the poll set; a placement pass is taken (R77). -/
def bringOnline (b : Nat) (s : State) : State :=
  owePass
    (joinPoll (bayAt s b).address
      (modBay b
        (fun bay => { bay with state := .idle, active := 0, stack := [], preemptor := 0, owed := [], running := false,
                               cause := .none }) s))

/-- BAY_ONLINE (R77). -/
def execBayOnline (bay : Byte) (s : State) : Result :=
  request (.bayOnline bay) s fun s => inService s <|
    if bay.toNat = 0 ∨ 24 < bay.toNat ∨ (bayAt s bay.toNat).address = 0 then refuse .badField s
    else if bayOnline (bayAt s bay.toNat) then ⟨s, .ok, []⟩
    else ⟨bringOnline bay.toNat s, .ok, []⟩

/-- The effects of BAY_OFFLINE on a bay that is online (R96 steps 1 to 4). -/
def takeOffline (b : Nat) (s : State) : State :=
  let bay := bayAt s b
  let s1 := (heldJobs bay).foldl (fun s j => makeCommand b (abandonFrame bay.address j) s) (dropOwed b s)
  let s2 := putBackJobs b s1
  owePass (leavePoll bay.address (modBay b (fun x => { x with state := .offline, running := false }) s2))

/-- BAY_OFFLINE (R96). -/
def execBayOffline (bay : Byte) (s : State) : Result :=
  request (.bayOffline bay) s fun s => inService s <|
    if bay.toNat = 0 ∨ 24 < bay.toNat then refuse .badField s
    else
      match (bayAt s bay.toNat).state with
      | .offline => ⟨s, .ok, []⟩
      | .faulted => ⟨modBay bay.toNat (fun x => { x with state := .offline }) s, .ok, []⟩
      | .idle | .loading | .writing | .parking => ⟨takeOffline bay.toNat s, .ok, []⟩

/-! ## Stock copy runs and RAISE_JOB (R97, R99) -/

/-- The copies a BUILD_STOCK asks for: 0 stands for 256 (R97). -/
def copiesAsked (copies : Nat) : Nat := if copies = 0 then 256 else copies

/-- BUILD_STOCK in SERVICE (R97). -/
def buildRun (title copies : Nat) (s : State) : Answer :=
  if title = 0 ∨ s.management.geometry.t < title then refuse .titleRange s
  else
    match Table.get s.records.titles title with
    | none => refuse .titleAbsent s
    | some t =>
      if t.format ≠ .audio ∨ t.policy ≠ .shelf then refuse .format s
      else if capacityOf s t.shelfClass < titleBlocks t + 80 then refuse .extent s
      else
        match Table.lowestFree s.scheduler.jobs s.management.geometry.j with
        | none => refuse .poolFull s
        | some j =>
          let job : Job :=
            { state := .queued, kind := .stock, priority := 0, title := title, cartridgeClass := t.shelfClass,
              remaining := copiesAsked copies }
          ⟨queueTail j { s with scheduler.jobs := Table.put s.scheduler.jobs j job }, .ok, bytesLE 2 j⟩

/-- BUILD_STOCK (R97). -/
def execBuildStock (title : U16) (copies : Byte) (s : State) : Result :=
  request (.buildStock title copies) s fun s => inService s (buildRun title.toNat copies.toNat s)

/-- Raises a job that may be raised to priority 3 (R99); the pass is R80's for a job moved or raised (log 17). -/
def raiseTo3 (j : Nat) (job : Job) (s : State) : State :=
  match job.state with
  | .queued => queueTail j (modJob j (fun x => { x with priority := 3 }) (dequeue j s))
  | .pending | .active | .parked => owePass (modJob j (fun x => { x with priority := 3 }) s)

/-- RAISE_JOB in SERVICE (R99). -/
def raiseJobTo3 (j : Nat) (s : State) : Answer :=
  if j = 0 ∨ s.management.geometry.j < j then refuse .badField s
  else
    match Table.get s.scheduler.jobs j with
    | none => refuse .notFound s
    | some job =>
      if job.state = .parked ∨ (job.state = .active ∧ (bayAt s job.bay).state = .parking) then refuse .inUse s
      else if job.priority = 3 then ⟨s, .ok, []⟩
      else ⟨raiseTo3 j job s, .ok, []⟩

/-- RAISE_JOB (R99). -/
def execRaiseJob (job : U16) (s : State) : Result :=
  request (.raiseJob job) s fun s => inService s (raiseJobTo3 job.toNat s)

/-! ## STARTED, PROGRESS, PARKED (R83 to R85) -/

/-- The bay's active job is `j`. -/
def isActive (s : State) (b j : Nat) : Bool := decide (j ≠ 0 ∧ (bayAt s b).active = j)

/-- STARTED at bay `b` (R83). -/
def takeStarted (j : Nat) (serial : U32) (b : Nat) (s : State) : State :=
  let written := modJob j (fun x => { x with serial := some serial }) s
  if isActive s b j then
    match (bayAt s b).state with
    | .loading => modBay b (fun bay => { bay with state := .writing }) (dropOwed b written)
    | .writing => written
    | .offline | .idle | .parking | .faulted => s
  else s

/-- STARTED (R83). -/
def execStarted (src : Byte) (job : U16) (serial : U32) (s : State) : Result :=
  bayFrame (.started src job serial) (takeStarted job.toNat serial) s

/-- A bay in LOADING, WRITING or PARKING. -/
def bayWorking (bay : Bay) : Bool :=
  match bay.state with
  | .loading | .writing | .parking => true
  | .offline | .idle | .faulted => false

/-- PROGRESS at bay `b`; the blocks done are saturated to 0..4,194,304 (R84). -/
def takeProgress (j blocks b : Nat) (s : State) : State :=
  if isActive s b j && bayWorking (bayAt s b) then modJob j (fun x => { x with offset := min Config.maxBlocks blocks }) s
  else s

/-- PROGRESS (R84). -/
def execProgress (src : Byte) (job : U16) (blocks : U24) (s : State) : Result :=
  bayFrame (.progress src job blocks) (takeProgress job.toNat blocks.toNat) s

/-- PARKED at bay `b` completes the park (R85). -/
def takeParked (j offset b : Nat) (s : State) : State :=
  if isActive s b j && decide ((bayAt s b).state = .parking) then
    loadPreemptor b
      (modBay b (fun bay => { bay with active := 0, stack := j :: bay.stack })
        (dropOwed b (modJob j (fun x => { x with state := .parked, offset := offset }) s)))
  else s

/-- PARKED (R85). -/
def execParked (src : Byte) (job : U16) (offset : U24) (s : State) : Result :=
  bayFrame (.parked src job offset) (takeParked job.toNat offset.toNat) s

/-! ## COPY_DONE (R86, R88 to R90, R98) -/

/-- The bay whose active job has ended takes next work, or loads its pending pre-emptor when it was PARKING; a placement pass
follows (R86, R88 step 4). -/
def afterJob (b : Nat) (s : State) : State :=
  let s1 := dropOwed b (modBay b (fun bay => { bay with active := 0 }) s)
  owePass (if (bayAt s b).state = .parking then loadPreemptor b s1 else nextWork b s1)

/-- PASS for a PACK job, steps 1 to 3 (R88). -/
def packPassed (j : Nat) (job : Job) (serial : U32) (s : State) : State :=
  freeJob j (jobDone job.consignment serial (moveReserved j .consigned s))

/-- The title of a STOCK job is still SHELF audio of the job's class (R89 step 1). -/
def stockQualifies (s : State) (job : Job) : Bool :=
  match Table.get s.records.titles job.title with
  | none => false
  | some t => decide (t.format = .audio ∧ t.policy = .shelf ∧ t.shelfClass = job.cartridgeClass)

/-- PASS for a STOCK job whose title qualifies, steps 1 to 3 (R89). -/
def stockPassed (j : Nat) (job : Job) (s : State) : State :=
  let s1 := copyFreed job.title
    (modTitle job.title (fun t => { t with copies := t.copies + 1, shelf := t.shelf + 1 }) (moveReserved j .shelf s))
  if job.remaining - 1 = 0 then freeJob j s1
  else
    queueTail j
      (modJob j
        (fun x => { x with remaining := job.remaining - 1, retry := false, priority := 0, offset := 0, serial := none }) s1)

/-- PASS for a STOCK job whose title no longer qualifies ends the run (R98). -/
def stockEnded (j : Nat) (s : State) : State := freeJob j (moveReserved j .blank s)

/-- COPY_DONE with PASS (R88, R89, R98). -/
def copyPassed (j : Nat) (job : Job) (serial : U32) (s : State) : State :=
  match job.kind with
  | .pack => packPassed j job serial s
  | .stock => if stockQualifies s job then stockPassed j job s else stockEnded j s

/-- COPY_DONE with FAIL, steps 1 to 4 (R90). -/
def copyFailed (j : Nat) (s : State) : State := retryJob j (forgetCartridge j (moveReserved j .repair s))

/-- COPY_DONE at bay `b`; any result but PASS (0) and FAIL (1) is a frame the scheduler does not take (R88, R202). -/
def takeCopyDone (j : Nat) (serial : U32) (result b : Nat) (s : State) : State :=
  match Table.get s.scheduler.jobs j with
  | none => s
  | some job =>
    if isActive s b j && bayWorking (bayAt s b) && decide (result ≤ 1) then
      afterJob b (if result = 0 then copyPassed j job serial s else copyFailed j s)
    else s

/-- COPY_DONE (R88). -/
def execCopyDone (src : Byte) (job : U16) (serial : U32) (result : Byte) (s : State) : Result :=
  bayFrame (.copyDone src job serial result) (takeCopyDone job.toNat serial result.toNat) s

/-! ## Faults and the stall timer (R79, R94, R95) -/

/-- A bay faults (R94, R95): cartridges to repair, each held job through the retry rule, the pre-emptor back to its level. Jobs that
fail do so in the order active job, then the stack from its top, which R95 leaves open (log 40). -/
def faultBay (b : Nat) (cause : BayCause) (s : State) : State :=
  let bay := bayAt s b
  let s1 := (heldJobs bay).foldl (fun s j => moveReserved j .repair s) s
  let s2 := (heldJobs bay).foldl (fun s j => retryJob j (forgetCartridge j s)) s1
  let s3 := if bay.preemptor = 0 then s2 else queueHead bay.preemptor s2
  owePass
    (latch .bayFault b
      (leavePoll bay.address
        (dropOwed b
          (modBay b (fun x => { x with state := .faulted, running := false, cause := cause }) (emptyBay b s3)))))

/-- BAY_FAULT at bay `b`; from a bay in OFFLINE or FAULTED it is discarded (R94). -/
def takeBayFault (code : Byte) (b : Nat) (s : State) : State :=
  if bayOnline (bayAt s b) then faultBay b (.reported code) s else s

/-- BAY_FAULT (R94). -/
def execBayFault (src code : Byte) (s : State) : Result := bayFrame (.bayFault src code) (takeBayFault code) s

/-- `n` steps of the seconds count pass: every running stall timer counts down (R79). -/
def passSeconds (n : Nat) (s : State) : State :=
  { s with
    scheduler.seconds := s.scheduler.seconds + n
    scheduler.bays := s.scheduler.bays.map fun bay => if bay.running then { bay with timer := bay.timer - n } else bay }

/-- Bay `b`'s timer is the next to expire: it runs, and no running timer has fewer seconds left (log 25). -/
def nextToExpire (s : State) (b : Nat) : Bool :=
  (bayAt s b).running &&
    bayNumbers.all fun x => !(bayAt s x).running || decide ((bayAt s b).timer ≤ (bayAt s x).timer)

/-- A timer expires: its bay faults with cause STALL, and the event's placement pass is taken (R79, R94). -/
def expire (s : State) (b : Nat) : State := settle (faultBay b .stall s)

/-- STALL_EXPIRY: the seconds left on the bay's timer pass, it reaches 0, and the bay faults with cause STALL (R79, R94). -/
def execStallExpiry (bay : Byte) (s : State) : Result :=
  if 1 ≤ bay.toNat ∧ bay.toNat ≤ 24 ∧ nextToExpire s bay.toNat = true then
    .next (expire (passSeconds (bayAt s bay.toNat).timer s) bay.toNat)
  else .next s

/-- The bays whose stall timers stand at 0, from bay 1 upward: no rule orders timers that reach 0 in one second (log 25). -/
def expiredBays (s : State) : List Nat :=
  bayNumbers.filter fun b => (bayAt s b).running && decide ((bayAt s b).timer = 0)

/-- One step of the seconds count with nothing commanded (R79): what `step` does on an empty queue (log 1). Each expiry is an
event of its own. -/
def tick (s : State) : State := (expiredBays (passSeconds 1 s)).foldl expire (passSeconds 1 s)

/-! ## Owed commands (R78) -/

/-- OWED_COMMAND_HAND_ON: the oldest owed command of the lowest-numbered bay that owes one joins the floor transmit queue when
it has room and no forwarded frame waits for the place; a LOAD, PARK or RESUME loads the stall timer (R78, R79, R197). -/
def execOwedCommandHandOn (s : State) : Result :=
  match bayNumbers.find? fun b => decide ((bayAt s b).owed ≠ []) with
  | none => .next s
  | some b =>
    match (bayAt s b).owed with
    | [] => .next s
    | f :: rest =>
      if floorRoom (aheadOfCommands s) s then
        let s1 := toFloor f (modBay b (fun bay => { bay with owed := rest }) s)
        .next (if waitsForAnswer f then loadTimer b s1 else s1)
      else .next s

end Sys2Proof.Machine
end

