-- ==== Sys2Proof/Machine/Picks.lean ====
section
/-! DEFINITION. The Assembly Unit's commands (03): the pick protocol (R68 to R71) and FLUSH_PACK (R59). -/

namespace Sys2Proof.Machine

/-- The consignment an answer of the pick station names, when it is PICKING and carries a line (R69, R70); any other answer is
discarded (R71). -/
def pickingOf (s : State) (k : Nat) : Option (Consignment × Line) :=
  match Table.get s.assembly.cons k with
  | none => none
  | some c =>
    match c.lines with
    | [] => none
    | l :: _ => if c.state = .picking then some (c, l) else none

/-- PICK: the PICK at the head of the pending list is handed on, when there is room that no earlier producer waits for (R68, R197). -/
def execPick (s : State) : Result := event (handPick (aheadOfPicks s) s)

/-- Writes the serial or copy number into several consignments (R69 step 2). -/
def writeSerials (ks : List Nat) (serial : U32) (s : State) : State :=
  ks.foldl (fun s k => modCons k (fun c => { c with serial := some serial }) s) s

/-- *Consignment ready* for several consignments in order (R69 step 3). -/
def allReady (ks : List Nat) (s : State) : State := ks.foldl (fun s k => consignmentReady k s) s

/-- PICKED at the Assembly Unit (R69, R71). -/
def takePicked (k : Nat) (serial : U32) (s : State) : State :=
  match pickingOf s k with
  | none => s
  | some (c, _) => allReady (wholeConsignment s k c) (writeSerials (wholeConsignment s k c) serial (endPick k s))

/-- PICKED (R69). -/
def execPicked (src : Byte) (consignment : U16) (serial : U32) (s : State) : Result :=
  unitFrame (.picked src consignment serial) .pickStation (takePicked consignment.toNat serial) s

/-- The missing copy leaves the title's copies and out accounts and, for SHELF_AUDIO, its cartridge leaves the class (R70
step 2). -/
def writeOffCopy (c : Consignment) (title : Nat) (s : State) : State :=
  let s1 := modTitle title (fun t => { t with copies := t.copies - 1, out := t.out - 1 }) s
  if c.kind = .shelfAudio then modAccount c.cartridgeClass (ClassAccount.writeOff .consigned 1) s1 else s1

/-- NOT_FOUND at the Assembly Unit (R70, R71). -/
def takeNotFound (k : Nat) (s : State) : State :=
  match pickingOf s k with
  | none => s
  | some (c, l) =>
    latch .pickShort l.title
      (handOver c.patron (openLines c)
        (freeAll (wholeConsignment s k c) (writeOffCopy c l.title (endPick k s))))

/-- NOT_FOUND (R70). -/
def execNotFound (src : Byte) (consignment : U16) (s : State) : Result :=
  unitFrame (.notFound src consignment) .pickStation (takeNotFound consignment.toNat) s

/-- FLUSH_PACK in SERVICE (R59). -/
def flushPacks (patron : Nat) (s : State) : Answer :=
  if patron = 0 then ⟨(assemblingPacks s).foldl (fun s k => sealPack k s) s, .ok, []⟩
  else if s.management.geometry.p < patron then refuse .patronRange s
  else
    match Table.get s.records.patrons patron with
    | none => refuse .patronAbsent s
    | some p => if p.openPack = 0 then refuse .notFound s else ⟨sealPack p.openPack s, .ok, []⟩

/-- FLUSH_PACK (R59). -/
def execFlushPack (patron : U16) (s : State) : Result :=
  request (.flushPack patron) s fun s => inService s (flushPacks patron.toNat s)

end Sys2Proof.Machine
end

