-- ==== Sys2Proof/Machine/Returns.lean ====
section
/-! DEFINITION. The Return Inspection Unit (06): the return queue, matching, comparing, the verdict, the disposition, and the
requests on inspection; with them the movements of R152 that Stock Accounts records for a return. -/

namespace Sys2Proof.Machine

/-! ## The return queue (R122, R123) and inspection starts (R126) -/

/-- Examines an inspection start (R126). -/
def startInspection (s : State) : State :=
  match s.returns.queue with
  | [] => s
  | i :: rest =>
    if s.returns.suspended = false ∧ s.returns.suspendPending = false ∧ s.returns.item = none ∧
        s.management.settings.scannerRole ≠ 0 then
      { s with returns.queue := rest, returns.item := some i }
    else s

/-- Makes a RETURN_ACK or RETURN_WAIT: handed to the floor transmit queue when it has room for it, else owed (R123, R197; log
10). -/
def makeAnswer (f : Frame) (s : State) : State :=
  if floorRoom (aheadOfAnswers s) s then toFloor f s else { s with returns.owedAnswer := some f }

/-- A RETURN_ITEM at the Return Inspection Unit (R123); one that arrives while an answer is owed is discarded. -/
def takeReturnItem (i : ReturnItem) (s : State) : State :=
  if s.returns.owedAnswer.isSome then s
  else if s.returns.queue.length < Config.returnQueuePlaces then
    startInspection
      (makeAnswer (returnAckFrame s.management.settings.scannerRole i.consignment i.part)
        { s with returns.queue := s.returns.queue ++ [i] })
  else
    startInspection (makeAnswer (returnWaitFrame s.management.settings.scannerRole i.consignment i.part) s)

/-- The item a RETURN_ITEM carries (R122). -/
def itemOf (consignment postDay : U16) (part : Byte) (serial : U32) (presence : U16) (readings : List U16) : ReturnItem :=
  { consignment := consignment.toNat, postDay := postDay, part := part.toNat, serial := serial,
    readings := (presentChannels presence).zip (readings.map BitVec.toInt) }

/-- RETURN_ITEM (R123); a length that does not match the presence set makes it a frame the unit does not take (R199, R202). -/
def execReturnItem (src : Byte) (consignment postDay : U16) (part : Byte) (serial : U32) (presence : U16)
    (readings : List U16) (s : State) : Result :=
  unitFrame (.returnItem src consignment postDay part serial presence readings) .scanner
    (fun s =>
      if readings.length = (presentChannels presence).length then
        takeReturnItem (itemOf consignment postDay part serial presence readings) s
      else s) s

/-- OWED_RETURN_ANSWER: the owed answer is handed on as room appears (R123, R197). -/
def execOwedReturnAnswer (s : State) : Result :=
  match s.returns.owedAnswer with
  | none => .next s
  | some f => if floorRoom (aheadOfAnswers s) s then .next (toFloor f { s with returns.owedAnswer := none }) else .next s

/-! ## Matching (R128) -/

/-- The part number a label carries (R122): k of a braille part, 1 for audio. -/
def labelPart (c : Consignment) : Nat := (partOf c).1

/-- The matched consignment of an item, or the exception cause of the first check that fails (R128). -/
def matchItem (s : State) (i : ReturnItem) : Except ExceptionCause Consignment :=
  if i.consignment = 0 ∨ s.management.geometry.c < i.consignment then .error .unmatched
  else
    match Table.get s.assembly.cons i.consignment with
    | none => .error .unmatched
    | some c =>
      if c.state ≠ .posted ∨ c.postDay ≠ i.postDay ∨ labelPart c ≠ i.part then .error .unmatched
      else if c.kind = .braillePart ∧ c.head = i.consignment ∧ c.headReturned = true then .error .duplicate
      else if c.kind ≠ .braillePart ∧ serialOf c ≠ i.serial then .error .serialMismatch
      else .ok c

/-! ## Comparing (R130, R133 to R136) -/

/-- The configuration of channel `c` (0..15). -/
def channelAt (u : ReturnUnit) (c : Nat) : Channel := bankGet u.channels (c + 1) {}

/-- Threshold entry `e` (0..15). -/
def thresholdAt (u : ReturnUnit) (e : Nat) : Int := bankGet u.thresholds (e + 1) 0

/-- The stored reading of channel `c` (0..15). -/
def storedAt (u : ReturnUnit) (c : Nat) : StoredReading := bankGet u.stored (c + 1) {}

/-- Saturates to −32,768..32,767 (R133). -/
def saturate (r : Int) : Int := max (-32768) (min 32767 r)

/-- The reading a channel compares (R133). -/
def comparedReading (reference : ChannelReference) (weight : Nat) (reading : Int) : Int :=
  match reference with
  | .absolute => reading
  | .partWeight => saturate (reading - weight)

/-- The outcome of one comparison (R134). -/
inductive Hit
  | none
  | centre
  | high
  deriving DecidableEq, Repr

/-- Compares `r` by a mode; `lower` is the entry of the channel's own number, `upper` that of channel c + 8 (R134). -/
def compareMode (mode : ChannelMode) (r lower upper : Int) : Hit :=
  match mode with
  | .off => .none
  | .above => if lower < r then .centre else .none
  | .below => if r < lower then .centre else .none
  | .inside => if lower < r ∧ r < upper then .centre else .none
  | .outside => if upper < r then .high else if r < lower then .centre else .none

/-- The comparison of channel `c` for an item against a part weight: its r and outcome, `none` when skipped (R134). -/
def compareChannel (u : ReturnUnit) (i : ReturnItem) (weight c : Nat) : Option (Int × Hit) :=
  match (channelAt u c).mode, i.readings.lookup c with
  | .off, _ => none
  | _, none => none
  | m, some reading =>
    some (comparedReading (channelAt u c).reference weight reading,
      compareMode m (comparedReading (channelAt u c).reference weight reading) (thresholdAt u c) (thresholdAt u (c + 8)))

/-- Records a hit of channel `c` in the hit sets (R135). -/
def recordHit (c : Nat) (h : Hit) (u : ReturnUnit) : ReturnUnit :=
  match h with
  | .none => u
  | .centre => { u with hits := u.hits ||| BitVec.twoPow 16 c }
  | .high =>
    { u with hits := u.hits ||| BitVec.twoPow 16 c ||| BitVec.twoPow 16 (c + 8), high := u.high ||| BitVec.twoPow 16 c }

/-- The store field calls for the reading to be kept (R136). -/
def stores (store : ChannelStore) (h : Hit) : Bool :=
  match store with
  | .none => false
  | .onHit => decide (h ≠ .none)
  | .always => true

/-- Writes the stored reading of channel `c` (R136). -/
def storeReading (c : Nat) (r : Int) (consignment : Nat) (u : ReturnUnit) : ReturnUnit :=
  { u with stored := bankModify u.stored (c + 1) fun _ => { valid := true, value := r, consignment := consignment } }

/-- Step 2 of a completion for one channel: hit sets and stored reading (R135, R136). -/
def recordChannel (i : ReturnItem) (weight : Nat) (u : ReturnUnit) (c : Nat) : ReturnUnit :=
  match compareChannel u i weight c with
  | none => u
  | some (r, h) =>
    if stores (channelAt u c).store h then storeReading c r i.consignment (recordHit c h u) else recordHit c h u

/-- Step 2 of a completion: the channels in ascending order (R127). -/
def recordChannels (i : ReturnItem) (weight : Nat) (u : ReturnUnit) : ReturnUnit :=
  (List.range 16).foldl (recordChannel i weight) u

/-- The more severe of two verdicts (R137). -/
def worse (a b : Verdict) : Verdict := if verdictValue b ≤ verdictValue a then a else b

/-- The verdict an action asks for (R130). -/
def actionVerdict (a : ChannelAction) : Verdict :=
  match a with
  | .note => .note
  | .repair => .repair
  | .retire => .retire

/-- What channel `c` asks for on an item: its action when it hits, else PASS (R137). -/
def channelVerdict (u : ReturnUnit) (i : ReturnItem) (weight c : Nat) : Verdict :=
  match compareChannel u i weight c with
  | none => .pass
  | some (_, .none) => .pass
  | some (_, .centre) => actionVerdict (channelAt u c).action
  | some (_, .high) => actionVerdict (channelAt u c).action

/-- The verdict of an item (R137). -/
def verdictOf (u : ReturnUnit) (i : ReturnItem) (weight : Nat) : Verdict :=
  (List.range 16).foldl (fun v c => worse v (channelVerdict u i weight c)) .pass

/-! ## Closing a loan (R36, R139, R152) -/

/-- Each OPEN line becomes CLOSED, and its title's out account falls by 1 (R139 step 1). -/
def closeLines (k : Nat) (c : Consignment) (s : State) : State :=
  (openLines c).foldl (fun s l => modTitle l.title (fun t => { t with out := t.out - 1 }) s)
    (modCons k (fun x => { x with lines := x.lines.map fun l => { l with state := .closed } }) s)

/-- *Lines closed* at the Order Unit: the charge falls by the number of lines (R36). -/
def linesClosed (patron n : Nat) (s : State) : State := modPatron patron (fun p => { p with charge := p.charge - n }) s

/-- *Set closed overdue* is sent when the overdue mark is 1 (R139 step 3). -/
def closeMark (c : Consignment) (s : State) : State := if c.overdue then setClosedOverdue c.patron s else s

/-- The close of a loan, steps 1 to 5 of R139: `move` is the movement Stock Accounts records, `freed` the title whose copy
returns to its shelf, if any. -/
def closeLoan (k : Nat) (c : Consignment) (move : State → State) (freed : Option Nat) (s : State) : State :=
  let s1 := closeMark c (move (linesClosed c.patron (openLines c).length (closeLines k c s)))
  headroom c.patron
    (match freed with
    | none => s1
    | some title => copyFreed title s1)

/-- A verdict that lets a copy go back to its place: PASS or NOTE. -/
def Verdict.keeps (v : Verdict) : Bool :=
  match v with
  | .pass | .note => true
  | .repair | .retire => false

/-- The divert of a verdict, `home` for PASS and NOTE (R140, R141, R143). -/
def divertFor (home : Divert) (v : Verdict) : Divert :=
  match v with
  | .pass | .note => home
  | .repair => .repair
  | .retire => .retire

/-- The movement of a returned pack cartridge (R140, R152); a rise of blank owes a placement pass (R80). -/
def movePack (cls : Nat) (v : Verdict) (s : State) : State :=
  match v with
  | .pass | .note => owePass (modAccount cls (ClassAccount.move .consigned .blank 1) s)
  | .repair => modAccount cls (ClassAccount.move .consigned .repair 1) s
  | .retire => modAccount cls (ClassAccount.writeOff .consigned 1) s

/-- The movement of a returned copy in its title's accounts (R141, R143, R152). -/
def moveCopy (title : Nat) (v : Verdict) (s : State) : State :=
  match v with
  | .pass | .note => modTitle title (fun t => { t with shelf := t.shelf + 1 }) s
  | .repair => modTitle title (fun t => { t with repair := t.repair + 1 }) s
  | .retire => modTitle title (fun t => { t with copies := t.copies - 1 }) s

/-- The movement of a returned shelf cartridge in its class (R141, R152). -/
def moveShelfCartridge (cls : Nat) (v : Verdict) (s : State) : State :=
  match v with
  | .pass | .note => modAccount cls (ClassAccount.move .consigned .shelf 1) s
  | .repair => modAccount cls (ClassAccount.toBoundRepair 1) s
  | .retire => modAccount cls (ClassAccount.writeOff .consigned 1) s

/-- The title of a consignment's line, 0 when it carries none. -/
def lineTitle (c : Consignment) : Nat := (c.lines.head?.map Line.title).getD 0

/-- The title whose copy a verdict returns to the shelf. -/
def freedTitle (c : Consignment) (v : Verdict) : Option Nat := if v.keeps then some (lineTitle c) else none

/-! ## Disposition (R140 to R143) -/

/-- A matched PACK (R140). -/
def disposePack (k : Nat) (c : Consignment) (v : Verdict) (s : State) : State × Divert :=
  (freeConsignment k (closeLoan k c (movePack c.cartridgeClass v) none s), divertFor .blank v)

/-- A matched SHELF_AUDIO consignment (R141). -/
def disposeShelf (k : Nat) (c : Consignment) (v : Verdict) (s : State) : State × Divert :=
  (freeConsignment k
    (closeLoan k c (fun s => moveShelfCartridge c.cartridgeClass v (moveCopy (lineTitle c) v s)) (freedTitle c v) s),
    divertFor .shelf v)

/-- A part of a set is counted on its head under a verdict (R142 steps 1 and 2, R160). -/
def countPart (h : Nat) (v : Verdict) (s : State) : State :=
  modCons h (fun x => { x with returned := x.returned + 1, worst := worse x.worst v }) s

/-- A set completes under its worst verdict: its head's loan is closed (R143). -/
def completeSet (h : Nat) (head : Consignment) (v : Verdict) (s : State) : State :=
  closeLoan h head (moveCopy (lineTitle head) v) (freedTitle head v) s

/-- A matched BRAILLE_PART (R142, R143). -/
def disposeBraille (k : Nat) (c : Consignment) (v : Verdict) (s : State) : State × Divert :=
  match Table.get s.assembly.cons c.head with
  | none => (freeConsignment k s, .setHold)
  | some head =>
    if head.returned + 1 < head.parts then
      (if k = c.head then modCons k (fun x => { x with headReturned := true }) (countPart c.head v s)
       else freeConsignment k (countPart c.head v s), .setHold)
    else
      (freeAll (if k = c.head then [k] else [c.head, k])
        (completeSet c.head head (worse head.worst v) (countPart c.head v s)),
        divertFor .shelf (worse head.worst v))

/-- The disposition of a matched consignment by its kind (R127 step 4). -/
def dispose (k : Nat) (c : Consignment) (v : Verdict) (s : State) : State × Divert :=
  match c.kind with
  | .pack => disposePack k c v s
  | .shelfAudio => disposeShelf k c v s
  | .braillePart => disposeBraille k c v s

/-- The inspection notice mode calls for INSPECTION (R138). -/
def noticeCalled (mode : NoticeMode) (v : Verdict) : Bool :=
  match mode with
  | .off => false
  | .onHit => decide (v ≠ .pass)
  | .onRetire => decide (v = .retire)

/-- Hands the VERDICT to the floor (R127 step 6); its item no longer waits for a place. -/
def sendVerdict (i : ReturnItem) (v : ItemVerdict) (d : Divert) (e : ExceptionCause) (s : State) : State :=
  toFloor (verdictFrame s.management.settings.scannerRole i.consignment i.part v d e) { s with returns.item := none }

/-- The item in inspection becomes none, and a pending suspension takes effect or the next start is examined (R127 step 7). -/
def finishInspection (s : State) : State :=
  if s.returns.suspendPending then
    { s with returns.item := none, returns.suspendPending := false, returns.suspended := true }
  else startInspection { s with returns.item := none }

/-- A matched item is compared, judged and disposed of, and its VERDICT sent (R127 steps 2 to 6). -/
def judgeItem (i : ReturnItem) (c : Consignment) (s : State) : State :=
  let v := verdictOf s.returns i c.weight
  let d := dispose i.consignment c v { s with returns := recordChannels i c.weight s.returns }
  let s1 := if noticeCalled s.management.settings.noticeMode v then latch .inspection i.consignment d.1 else d.1
  sendVerdict i (.judged v) d.2 .none s1

/-- The completion of the item in inspection (R127, R129). -/
def completeItem (i : ReturnItem) (s : State) : State :=
  finishInspection
    (match matchItem s i with
    | .ok c => judgeItem i c s
    | .error e => sendVerdict i .desk .desk e (latch .returnException i.consignment s))

/-- INSPECTION_COMPLETION: taken when no answer is owed and the floor transmit queue has room for the VERDICT (R127, R197);
its placement pass comes after the VERDICT has been handed on (log 36). -/
def execInspectionCompletion (s : State) : Result :=
  match s.returns.item with
  | none => .next s
  | some i =>
    if s.returns.owedAnswer = none ∧ floorRoom (aheadOfVerdicts s) s = true then event (completeItem i s) else .next s

/-! ## The scanner role and RESTART (R145, R146) -/

/-- The item in inspection, the return queue and an owed answer are abandoned, and a pending suspension takes effect (R145
steps 1 to 4, R146). -/
def abandonReturns (s : State) : State :=
  { s with
    returns.item := none
    returns.queue := []
    returns.owedAnswer := none
    returns.suspended := s.returns.suspended || s.returns.suspendPending
    returns.suspendPending := false }

/-! ## Requests (R125, R131, R132, R135, R144) -/

/-- Channel loads are refused with BUSY (R131 check 3, R132 check 2). -/
def loadsBusy (s : State) : Bool := !s.returns.suspended || s.returns.suspendPending

/-- A window mode (R130). -/
def ChannelMode.isWindow (m : ChannelMode) : Bool :=
  match m with
  | .inside | .outside => true
  | .off | .above | .below => false

/-- Checks 4 and 5 of R131: the two channels of a pair conflict. -/
def channelConflict (s : State) (c : Nat) (m : ChannelMode) : Bool :=
  if c < 8 then m.isWindow && decide ((channelAt s.returns (c + 8)).mode ≠ .off)
  else decide (m ≠ .off) && (channelAt s.returns (c - 8)).mode.isWindow

/-- SET_CHANNEL's checks 2 to 5 and its effect (R131). -/
def writeChannel (c : Nat) (cfg : Channel) (s : State) : Answer :=
  if 8 ≤ c ∧ cfg.mode.isWindow = true then refuse .badField s
  else if loadsBusy s then refuse .busy s
  else if channelConflict s c cfg.mode then refuse .conflict s
  else
    ⟨{ s with
        returns.channels := bankModify s.returns.channels (c + 1) fun _ => cfg
        returns.stored := bankModify s.returns.stored (c + 1) fun _ => {} }, .ok, []⟩

/-- SET_CHANNEL (R131). -/
def execSetChannel (channel mode action store reference : Byte) (s : State) : Result :=
  request (.setChannel channel mode action store reference) s fun s =>
    match channelModeOf mode, channelActionOf action, channelStoreOf store, channelReferenceOf reference with
    | some m, some a, some st, some r =>
      if 15 < channel.toNat then refuse .badField s
      else writeChannel channel.toNat { mode := m, action := a, store := st, reference := r } s
    | _, _, _, _ => refuse .badField s

/-- SET_THRESHOLD (R132). -/
def execSetThreshold (entry : Byte) (value : U16) (s : State) : Result :=
  request (.setThreshold entry value) s fun s =>
    if 15 < entry.toNat then refuse .badField s
    else if loadsBusy s then refuse .busy s
    else ⟨{ s with returns.thresholds := bankModify s.returns.thresholds (entry.toNat + 1) fun _ => value.toInt }, .ok, []⟩

/-- The inspection state and the suspend pending indication, as a reply carries them (R125). -/
def inspectionBytes (s : State) : List Byte := [flagByte s.returns.suspended, flagByte s.returns.suspendPending]

/-- INSPECT_SUSPEND's effect (R125). -/
def suspendInspection (s : State) : State :=
  if s.returns.suspended then s
  else if s.returns.item.isSome then { s with returns.suspendPending := true }
  else { s with returns.suspended := true }

/-- INSPECT_SUSPEND (R125). -/
def execInspectSuspend (s : State) : Result :=
  request .inspectSuspend s fun s => ⟨suspendInspection s, .ok, inspectionBytes (suspendInspection s)⟩

/-- INSPECT_RESUME's effect (R125). -/
def resumeInspection (s : State) : State :=
  if s.returns.suspended then startInspection { s with returns.suspended := false }
  else { s with returns.suspendPending := false }

/-- INSPECT_RESUME (R125). -/
def execInspectResume (s : State) : Result :=
  request .inspectResume s fun s => ⟨resumeInspection s, .ok, inspectionBytes (resumeInspection s)⟩

/-- CLEAR_HITS (R135). -/
def execClearHits (s : State) : Result :=
  request .clearHits s fun s => ⟨{ s with returns.hits := 0, returns.high := 0 }, .ok, []⟩

/-- The item in inspection as a read-out shows it: 0 is among the values, so a presence byte comes first (R144, R201). -/
def itemBytes (i : Option ReturnItem) : List Byte :=
  match i with
  | none => [0, 0, 0, 0]
  | some i => 1 :: (bytesLE 2 i.consignment ++ [byteOf i.part])

/-- READ_INSPECTION (R144). -/
def execReadInspection (s : State) : Result :=
  request .readInspection s fun s =>
    ⟨s, .ok, inspectionBytes s ++ [byteOf s.returns.queue.length] ++ itemBytes s.returns.item ++
      [flagByte s.returns.owedAnswer.isSome] ++ bytesLE 2 s.returns.hits.toNat ++ bytesLE 2 s.returns.high.toNat⟩

/-- A channel's configuration, threshold entry and stored reading (R144). -/
def channelBytes (u : ReturnUnit) (c : Nat) : List Byte :=
  let cfg := channelAt u c
  let st := storedAt u c
  [byteOf (channelModeValue cfg.mode), byteOf (channelActionValue cfg.action), byteOf (channelStoreValue cfg.store),
    byteOf (channelReferenceValue cfg.reference)] ++ signedLE (thresholdAt u c) ++
    [flagByte st.valid] ++ signedLE st.value ++ bytesLE 2 st.consignment

/-- READ_CHANNEL (R144). -/
def execReadChannel (channel : Byte) (s : State) : Result :=
  request (.readChannel channel) s fun s =>
    if 15 < channel.toNat then refuse .badField s else ⟨s, .ok, channelBytes s.returns channel.toNat⟩

end Sys2Proof.Machine
end

