-- ==== Sys2Proof/Machine/Stock.lean ====
section
/-! DEFINITION. The requests of Stock Accounts (07): adjustments by the supervisor, DECLARE_LOST and READ_STOCK. -/

namespace Sys2Proof.Machine

/-- Every count is at most 65,535 (R148, R149). -/
abbrev countMax : Nat := 65535

/-- STOCK_ADD's checks and effect; its reply carries the counts after the placement pass, so the pass is taken here (R154,
log 28). -/
def addStock (cls n : Nat) (s : State) : Answer :=
  if cls = 0 ∨ 4 < cls ∨ n = 0 ∨ countMax < (accountAt s cls).stock + n then refuse .badField s
  else
    let s1 := settle (owePass (modAccount cls (ClassAccount.add .blank n) s))
    ⟨s1, .ok, bytesLE 2 (accountAt s1 cls).blank ++ bytesLE 2 (accountAt s1 cls).stock⟩

/-- STOCK_ADD (R154). -/
def execStockAdd (cls : Byte) (n : U16) (s : State) : Result :=
  request (.stockAdd cls n) s fun s => addStock cls.toNat n.toNat s

/-- Checks 2 to 4 of R155: the title field names a present title of policy SHELF, which braille titles have too. -/
def shelfTitle (s : State) (title : Nat) : Except Code Title :=
  if title = 0 ∨ s.management.geometry.t < title then .error .titleRange
  else
    match Table.get s.records.titles title with
    | none => .error .titleAbsent
    | some t => if t.policy = .onDemand then .error .format else .ok t

/-- New copies of a title on its shelf; for SHELF audio they are new cartridges of the class too (R155). -/
def addCopies (title n : Nat) (t : Title) (s : State) : State :=
  let s1 := modTitle title (fun x => { x with copies := x.copies + n, shelf := x.shelf + n }) s
  if t.format = .audio then modAccount t.shelfClass (ClassAccount.add .shelf n) s1 else s1

/-- STOCK_ADD_TITLE's checks and effect (R155). -/
def addTitleStock (title n : Nat) (s : State) : Answer :=
  if n = 0 then refuse .badField s
  else
    match shelfTitle s title with
    | .error c => refuse c s
    | .ok t =>
      if countMax < t.copies + n ∨ (t.format = .audio ∧ countMax < (accountAt s t.shelfClass).stock + n) then
        refuse .badField s
      else ⟨copiesFreed n title (addCopies title n t s), .ok, []⟩

/-- STOCK_ADD_TITLE (R155). -/
def execStockAddTitle (title n : U16) (s : State) : Result :=
  request (.stockAddTitle title n) s fun s => addTitleStock title.toNat n.toNat s

/-- A class's unbound repair (R148). -/
def unboundRepair (s : State) (cls : Nat) : Nat := (accountAt s cls).repair - (accountAt s cls).bound

/-- Where REPAIRED and RETIRE_REPAIR take their items from. -/
inductive Bench
  | unbound
  | title (t : Title)
  deriving DecidableEq, Repr

/-- The checks of R156, which are those of R157 too. -/
def benchChecks (s : State) (cls n title : Nat) : Except Code Bench :=
  if n = 0 then .error .badField
  else if title = 0 then
    if cls = 0 ∨ 4 < cls ∨ unboundRepair s cls < n then .error .badField else .ok .unbound
  else
    match shelfTitle s title with
    | .error c => .error c
    | .ok t =>
      if t.format = .audio ∧ t.shelfClass ≠ cls then .error .format
      else if t.repair < n then .error .badField
      else .ok (.title t)

/-- Mended copies of a title go to its shelf (R156). -/
def mendCopies (title n : Nat) (t : Title) (s : State) : State :=
  let s1 := modTitle title (fun x => { x with repair := x.repair - n, shelf := x.shelf + n }) s
  if t.format = .audio then modAccount t.shelfClass (ClassAccount.boundToShelf n) s1 else s1

/-- REPAIRED's effect (R156). -/
def repairItems (cls n title : Nat) (s : State) : Answer :=
  match benchChecks s cls n title with
  | .error c => refuse c s
  | .ok .unbound => ⟨owePass (modAccount cls (ClassAccount.move .repair .blank n) s), .ok, []⟩
  | .ok (.title t) => ⟨copiesFreed n title (mendCopies title n t s), .ok, []⟩

/-- REPAIRED (R156). -/
def execRepaired (cls : Byte) (n title : U16) (s : State) : Result :=
  request (.repaired cls n title) s fun s => repairItems cls.toNat n.toNat title.toNat s

/-- Copies of a title that cannot be mended leave the centre (R157). -/
def retireCopies (title n : Nat) (t : Title) (s : State) : State :=
  let s1 := modTitle title (fun x => { x with repair := x.repair - n, copies := x.copies - n }) s
  if t.format = .audio then modAccount t.shelfClass (ClassAccount.retireBound n) s1 else s1

/-- RETIRE_REPAIR's effect (R157). -/
def retireItems (cls n title : Nat) (s : State) : Answer :=
  match benchChecks s cls n title with
  | .error c => refuse c s
  | .ok .unbound => ⟨modAccount cls (ClassAccount.writeOff .repair n) s, .ok, []⟩
  | .ok (.title t) => ⟨retireCopies title n t s, .ok, []⟩

/-- RETIRE_REPAIR (R157). -/
def execRetireRepair (cls : Byte) (n title : U16) (s : State) : Result :=
  request (.retireRepair cls n title) s fun s => retireItems cls.toNat n.toNat title.toNat s

/-! ## DECLARE_LOST (R158 to R160) -/

/-- The lost item leaves the accounts (R159 step 2). -/
def loseItem (c : Consignment) (s : State) : State :=
  match c.kind with
  | .pack => movePack c.cartridgeClass .retire s
  | .shelfAudio => moveShelfCartridge c.cartridgeClass .retire (moveCopy (lineTitle c) .retire s)
  | .braillePart => moveCopy (lineTitle c) .retire s

/-- The parts of a set, other than its head, that are in a state. -/
def partsIn (s : State) (h : Nat) (st : ConsState) : List Nat :=
  (s.assembly.cons.filter fun e =>
    decide (e.2.kind = .braillePart ∧ e.2.head = h ∧ e.1 ≠ h ∧ e.2.state = st)).map Prod.fst

/-- The records a declared loan frees: itself and, for a set head, its other POSTED parts in ascending index (R159 step 5). -/
def lostRecords (s : State) (k : Nat) (c : Consignment) : List Nat :=
  if c.kind = .braillePart then k :: partsIn s k .posted else [k]

/-- DECLARE_LOST of a PACK, a SHELF_AUDIO consignment or a set head (R159). -/
def loseLoan (k : Nat) (c : Consignment) (s : State) : State :=
  let s1 := closeMark c (linesClosed c.patron (openLines c).length (loseItem c (closeLines k c s)))
  headroom c.patron (freeAll (lostRecords s k c) s1)

/-- DECLARE_LOST of a non-head part (R160). -/
def losePart (k : Nat) (c : Consignment) (s : State) : State :=
  match Table.get s.assembly.cons c.head with
  | none => freeConsignment k s
  | some head =>
    let s1 := freeConsignment k (countPart c.head .retire s)
    if head.returned + 1 < head.parts then s1 else freeConsignment c.head (completeSet c.head head .retire s1)

/-- DECLARE_LOST in SERVICE (R158). -/
def declareLoss (k : Nat) (s : State) : Answer :=
  if k = 0 ∨ s.management.geometry.c < k then refuse .badField s
  else
    match Table.get s.assembly.cons k with
    | none => refuse .notFound s
    | some c =>
      if c.state ≠ .posted then refuse .notFound s
      else if c.kind = .braillePart ∧ c.head ≠ k then ⟨losePart k c s, .ok, []⟩
      else if c.kind = .braillePart ∧ c.headReturned = true then refuse .duplicate s
      else if c.kind = .braillePart ∧ (partsIn s k .ready ≠ [] ∨ partsIn s k .releasing ≠ []) then refuse .inUse s
      else ⟨loseLoan k c s, .ok, []⟩

/-- DECLARE_LOST (R158). -/
def execDeclareLost (consignment : U16) (s : State) : Result :=
  request (.declareLost consignment) s fun s => inService s (declareLoss consignment.toNat s)

/-! ## READ_STOCK (R162) -/

/-- The counts of a class in the order of R148, then its capacity (R162). -/
def stockBytes (s : State) (cls : Nat) : List Byte :=
  let a := accountAt s cls
  [a.stock, a.blank, a.reserved, a.consigned, a.shelf, a.repair, a.bound].flatMap (bytesLE 2) ++
    bytesLE 3 (capacityOf s cls)

/-- READ_STOCK (R162). -/
def execReadStock (cls : Byte) (s : State) : Result :=
  request (.readStock cls) s fun s =>
    if cls.toNat = 0 ∨ 4 < cls.toNat then refuse .badField s else ⟨s, .ok, stockBytes s cls.toNat⟩

end Sys2Proof.Machine
end

