-- ==== Sys2Proof/Machine/Days.lean ====
section
/-! DEFINITION. The Day Unit's commands (08): SET_DAY, DAY, the sweep and READ_DAY. -/

namespace Sys2Proof.Machine

/-- Today as a reply carries it (R163). -/
def todayBytes (s : State) : List Byte := bytesLE 2 s.days.today.toNat

/-- SET_DAY (R164). -/
def execSetDay (d : U16) (s : State) : Result :=
  request (.setDay d) s fun s => inSetup s ⟨{ s with days.today := d }, .ok, bytesLE 2 d.toNat⟩

/-- Today becomes `d` and a sweep starts (R165, R166). -/
def startSweep (d : Day) (s : State) : State :=
  { s with days := { today := d, sweeping := true, position := 1, marked := 0, sealedCount := 0 } }

/-- DAY in SERVICE (R165). -/
def advanceDay (d : Day) (s : State) : Answer :=
  if s.days.sweeping then ⟨s, .busy, todayBytes s⟩
  else if daysFrom s.days.today d = 0 then ⟨s, .sameDay, todayBytes s⟩
  else if daysFrom s.days.today d ≤ 7 then ⟨startSweep d s, .ok, bytesLE 2 d.toNat⟩
  else ⟨s, .dayGap, todayBytes s⟩

/-- DAY (R165). -/
def execDay (d : U16) (s : State) : Result := request (.day d) s fun s => inService s (advanceDay d s)

/-- The record carries a loan that a sweep may mark: a PACK, a SHELF_AUDIO consignment or a set head (R167). -/
def carriesLoan (k : Nat) (c : Consignment) : Bool := decide (c.kind ≠ .braillePart ∨ c.head = k)

/-- The record at `k` is to be marked overdue (R167). -/
def marks (s : State) (k : Nat) (c : Consignment) : Bool :=
  decide (c.state = .posted) && carriesLoan k c && !c.overdue && overdueOn c.dueDay s.days.today

/-- Marks record `k` overdue: the mark, the marked count, the patron's overdue count and held state (R167). -/
def markOverdue (k : Nat) (c : Consignment) (s : State) : State :=
  evaluateHeld c.patron
    (modPatron c.patron (fun p => { p with overdue := p.overdue + 1 })
      (modCons k (fun x => { x with overdue := true }) { s with days.marked := s.days.marked + 1 }))

/-- The record is a PACK whose age seals it (R168). -/
def aged (s : State) (c : Consignment) : Bool :=
  decide (c.state = .assembling ∧ c.kind = .pack ∧ s.management.settings.packHold ≤ daysFrom c.openDay s.days.today)

/-- Examines the consignment record at an index (R167, R168). -/
def examineRecord (k : Nat) (s : State) : State :=
  match Table.get s.assembly.cons k with
  | none => s
  | some c =>
    if marks s k c then markOverdue k c s
    else if aged s c then sealPack k { s with days.sealedCount := s.days.sealedCount + 1 }
    else s

/-- After the examination the position rises, or, after index C, the sweep ends (R166, R169). -/
def advanceSweep (s : State) : State :=
  if s.management.geometry.c ≤ s.days.position then
    { latch .sweepDone s.days.marked s with days.sweeping := false, days.position := 0 }
  else { s with days.position := s.days.position + 1 }

/-- SWEEP_STEP: one step of a running sweep (R166 to R169). -/
def execSweepStep (s : State) : Result :=
  if s.days.sweeping then event (advanceSweep (examineRecord s.days.position s)) else .next s

/-- READ_DAY (R175). -/
def execReadDay (s : State) : Result :=
  request .readDay s fun s =>
    ⟨s, .ok, todayBytes s ++ [flagByte s.days.sweeping] ++ bytesLE 2 s.days.position ++ bytesLE 2 s.days.marked ++
      bytesLE 2 s.days.sealedCount ++
      [byteOf s.management.settings.holdLimit, byteOf s.management.settings.packHold]⟩

end Sys2Proof.Machine
end

