-- ==== Sys2Proof/Machine/Records.lean ====
section
/-! DEFINITION. The Record Store's commands (01): LOAD_PATRON, LOAD_AGENCY, LOAD_TITLE and READ_RECORD with its layouts
(R205). -/

namespace Sys2Proof.Machine

/-! ## LOAD_PATRON (R10 to R14) -/

/-- The present field of a load: 0 a delete, 1 a load, anything else out of its range (R2, R3). -/
def presentOf (b : Byte) : Option Bool := flagOf b

/-- The static fields of a LOAD_PATRON, `none` when one is outside its range (R10 check 4; bits above the set: log 27). -/
def patronFields (status patronClass level formats cartridgeClass quota agency : Byte) (code : U24) : Option Patron :=
  match statusOf status, patronClassOf patronClass with
  | some st, some pc =>
    if 3 < level.toNat ∨ formats.toNat = 0 ∨ 3 < formats.toNat ∨ cartridgeClass.toNat = 0 ∨ 4 < cartridgeClass.toNat ∨
        quota.toNat = 0 ∨ 15 < quota.toNat then none
    else
      some { status := st, patronClass := pc, level := level.toNat, audio := formats.getLsbD 0, braille := formats.getLsbD 1,
             cartridgeClass := cartridgeClass.toNat, quota := quota.toNat, agency := agency.toNat, code := code.toNat }
  | _, _ => none

/-- A patron leaves agency `a` and joins agency `b`, 0 meaning none (R6). -/
def changeMembers (a b : Nat) (s : State) : State :=
  if a = b then s
  else
    modAgency b (fun x => { x with members := x.members + 1 }) (modAgency a (fun x => { x with members := x.members - 1 }) s)

/-- The dynamic fields of a present patron with the static fields of a load (R12). -/
def Patron.reloaded (old new : Patron) : Patron :=
  { new with charge := old.charge, wish := old.wish, chain := old.chain, openPack := old.openPack, overdue := old.overdue,
             held := old.held }

/-- A reload sends *headroom*: a greater quota, or SUSPENDED to ACTIVE (R13). -/
def freesHeadroom (old new : Patron) : Bool :=
  decide (old.quota < new.quota ∨ (old.status = .suspended ∧ new.status = .active))

/-- The patron still has open lines or waiting requests (R10 check 6, R14). -/
def patronBusy (p : Patron) : Bool := decide (0 < p.charge ∨ p.wish ≠ [])

/-- Deletes a patron (R14). -/
def deletePatron (k : Nat) (s : State) : Answer :=
  match Table.get s.records.patrons k with
  | none => refuse .patronAbsent s
  | some p =>
    if patronBusy p then refuse .inUse s
    else
      let s1 := changeMembers p.agency 0 s
      ⟨{ s1 with records.patrons := Table.delete s1.records.patrons k }, .ok, []⟩

/-- Checks 5 and 6 of R10 and the load (R11, R12, R13). -/
def writePatron (k : Nat) (new : Patron) (s : State) : Answer :=
  if new.agency ≠ 0 ∧ Table.get s.records.agencies new.agency = none then refuse .agencyAbsent s
  else
    match Table.get s.records.patrons k with
    | none =>
      let s1 := changeMembers 0 new.agency s
      ⟨{ s1 with records.patrons := Table.put s1.records.patrons k new }, .ok, []⟩
    | some old =>
      if old.cartridgeClass ≠ new.cartridgeClass ∧ patronBusy old = true then refuse .inUse s
      else
        let s1 := changeMembers old.agency new.agency s
        let s2 := { s1 with records.patrons := Table.put s1.records.patrons k (Patron.reloaded old new) }
        ⟨if freesHeadroom old new then headroom k s2 else s2, .ok, []⟩

/-- LOAD_PATRON (R10). -/
def execLoadPatron (patron : U16) (present status patronClass level formats cartridgeClass quota agency : Byte) (code : U24)
    (s : State) : Result :=
  request (.loadPatron patron present status patronClass level formats cartridgeClass quota agency code) s fun s =>
    if patron.toNat = 0 then refuse .nullPatron s
    else if s.management.geometry.p < patron.toNat then refuse .patronRange s
    else
      match presentOf present, patronFields status patronClass level formats cartridgeClass quota agency code with
      | some false, _ => deletePatron patron.toNat s
      | some true, some new => writePatron patron.toNat new s
      | _, _ => refuse .badField s

/-! ## LOAD_AGENCY (R15) -/

/-- Makes an agency present or replaces its delivery code (R15 cases 3 and 4). -/
def writeAgency (k code : Nat) (s : State) : State :=
  match Table.get s.records.agencies k with
  | none => { s with records.agencies := Table.put s.records.agencies k { code := code } }
  | some a => { s with records.agencies := Table.put s.records.agencies k { a with code := code } }

/-- Deletes an agency (R15 cases 5 to 7). -/
def deleteAgency (k : Nat) (s : State) : Answer :=
  match Table.get s.records.agencies k with
  | none => refuse .agencyAbsent s
  | some a =>
    if 0 < a.members then refuse .inUse s
    else ⟨{ s with records.agencies := Table.delete s.records.agencies k }, .ok, []⟩

/-- LOAD_AGENCY (R15). -/
def execLoadAgency (agency : U16) (present : Byte) (code : U24) (s : State) : Result :=
  request (.loadAgency agency present code) s fun s =>
    if agency.toNat = 0 ∨ 255 < agency.toNat then refuse .badField s
    else
      match presentOf present with
      | none => refuse .badField s
      | some true => ⟨writeAgency agency.toNat code.toNat s, .ok, []⟩
      | some false => deleteAgency agency.toNat s

/-! ## LOAD_TITLE (R16 to R19) -/

/-- The static fields of a LOAD_TITLE, those that do not apply stored as 0; `none` when a check of R16 fails. -/
def titleFields (format policy level availability : Byte) (extent : U16) (granularity shelfClass volumes : Byte)
    (weight : U16) : Option Title :=
  match formatOf format, policyOf policy, availabilityOf availability with
  | some .audio, some pol, some av =>
    if 3 < level.toNat ∨ 32767 < extent.toNat ∨ 1 < granularity.toNat ∨
        (pol = .shelf ∧ (shelfClass.toNat = 0 ∨ 4 < shelfClass.toNat)) then none
    else
      some { format := .audio, policy := pol, level := level.toNat, availability := av, extent := extent.toNat,
             granularity := granularity.toNat, shelfClass := if pol = .shelf then shelfClass.toNat else 0, volumes := 0,
             weight := 0 }
  | some .braille, some .shelf, some av =>
    if 3 < level.toNat ∨ volumes.toNat = 0 ∨ 32 < volumes.toNat ∨ weight.toNat < 50 ∨ 5000 < weight.toNat then none
    else
      some { format := .braille, policy := .shelf, level := level.toNat, availability := av, extent := 0, granularity := 0,
             shelfClass := 0, volumes := volumes.toNat, weight := weight.toNat }
  | _, _, _ => none

/-- A reload that R17 refuses. -/
def reloadRefused (old new : Title) : Bool :=
  decide
    (((old.format ≠ new.format ∨ old.policy ≠ new.policy) ∧ (old.waiting ≠ [] ∨ 0 < old.out ∨ 0 < old.copies)) ∨
      (old.shelfClass ≠ new.shelfClass ∧ (old.waiting ≠ [] ∨ 0 < old.copies)) ∨
      ((old.extent ≠ new.extent ∨ old.granularity ≠ new.granularity) ∧ (old.waiting ≠ [] ∨ 0 < old.out)))

/-- The waiting list and copy accounts of a present title with the static fields of a load (R16). -/
def Title.reloaded (old new : Title) : Title :=
  { new with waiting := old.waiting, copies := old.copies, shelf := old.shelf, out := old.out, repair := old.repair }

/-- The *copy freed* events of a reload: one for each shelf copy of a SHELF title made AVAILABLE (R18). -/
def copiesMadeAvailable (old new : Title) : Nat :=
  if old.availability = .withdrawn ∧ new.availability = .available ∧ new.policy = .shelf then old.shelf else 0

/-- Check 4 of R16 and the load (R16, R18). -/
def writeTitle (k : Nat) (new : Title) (s : State) : Answer :=
  match Table.get s.records.titles k with
  | none => ⟨{ s with records.titles := Table.put s.records.titles k new }, .ok, []⟩
  | some old =>
    if reloadRefused old new then refuse .inUse s
    else
      ⟨copiesFreed (copiesMadeAvailable old new) k
        { s with records.titles := Table.put s.records.titles k (Title.reloaded old new) }, .ok, []⟩

/-- The shelf cartridges of a deleted SHELF audio title return to blank stock (R19). -/
def shelfToBlank (t : Title) (s : State) : State :=
  if t.format = .audio ∧ t.policy = .shelf ∧ 0 < t.shelf then
    owePass (modAccount t.shelfClass (ClassAccount.move .shelf .blank t.shelf) s)
  else s

/-- Deletes a title (R19). -/
def deleteTitle (k : Nat) (s : State) : Answer :=
  match Table.get s.records.titles k with
  | none => refuse .titleAbsent s
  | some t =>
    if t.waiting ≠ [] ∨ 0 < t.out ∨ 0 < t.repair then refuse .inUse s
    else
      let s1 := shelfToBlank t s
      ⟨{ s1 with records.titles := Table.delete s1.records.titles k }, .ok, []⟩

/-- LOAD_TITLE (R16). -/
def execLoadTitle (title : U16) (present format policy level availability : Byte) (extent : U16)
    (granularity shelfClass volumes : Byte) (weight : U16) (s : State) : Result :=
  request (.loadTitle title present format policy level availability extent granularity shelfClass volumes weight) s fun s =>
    if title.toNat = 0 ∨ s.management.geometry.t < title.toNat then refuse .titleRange s
    else
      match presentOf present, titleFields format policy level availability extent granularity shelfClass volumes weight with
      | some false, _ => deleteTitle title.toNat s
      | some true, some new => writeTitle title.toNat new s
      | _, _ => refuse .badField s

/-! ## READ_RECORD (R20, R205) -/

/-- Every field 0 in `n` bytes: an absent or FREE record (R205). -/
def zeroBytes (n : Nat) : List Byte := List.replicate n 0

/-- The last element of a list, 0 when it is empty: a tail as a record shows it (log 5). -/
def tailOf (l : List Nat) : Nat := l.getLast?.getD 0

/-- R3, then R4. -/
def patronBytes (p : Patron) : List Byte :=
  [1, byteOf (statusValue p.status), byteOf (patronClassValue p.patronClass), byteOf p.level,
    byteOf (p.audio.toNat + 2 * p.braille.toNat), byteOf p.cartridgeClass, byteOf p.quota, byteOf p.agency] ++
    bytesLE 3 p.code ++ [byteOf p.charge] ++ bytesLE 2 (p.wish.headD 0) ++ bytesLE 2 (tailOf p.wish) ++
    [byteOf p.wish.length] ++ bytesLE 2 (p.chain.headD 0) ++ bytesLE 2 p.openPack ++ [byteOf p.overdue, flagByte p.held]

/-- R6. -/
def agencyBytes (a : Agency) : List Byte := 1 :: (bytesLE 3 a.code ++ bytesLE 2 a.members)

/-- The static fields of R7, the waiting list, the accounts of R8. -/
def titleBytes (t : Title) : List Byte :=
  [1, byteOf (formatValue t.format), byteOf (policyValue t.policy), byteOf t.level, byteOf (availabilityValue t.availability)] ++
    bytesLE 2 t.extent ++ [byteOf t.granularity, byteOf t.shelfClass, byteOf t.volumes] ++ bytesLE 2 t.weight ++
    bytesLE 2 (t.waiting.headD 0) ++ bytesLE 2 (tailOf t.waiting) ++ bytesLE 2 t.waiting.length ++
    bytesLE 2 t.copies ++ bytesLE 2 t.shelf ++ bytesLE 2 t.out ++ bytesLE 2 t.repair

/-- The waiting list of a title, empty for an absent one. -/
def waitingOf (s : State) (title : Nat) : List Nat :=
  match Table.get s.records.titles title with
  | none => []
  | some t => t.waiting

/-- The wish list and the open-line chain of a patron. -/
def wishOf (s : State) (patron : Nat) : List Nat :=
  match Table.get s.records.patrons patron with
  | none => []
  | some p => p.wish

def chainOf (s : State) (patron : Nat) : List Nat :=
  match Table.get s.records.patrons patron with
  | none => []
  | some p => p.chain

/-- R23; the state of a record that stands is WAITING. -/
def requestBytes (s : State) (k : Nat) (q : Request) : List Byte :=
  1 :: (bytesLE 2 q.patron ++ bytesLE 2 q.title ++ bytesLE 2 q.day.toNat ++ bytesLE 2 (linkAfter (waitingOf s q.title) k) ++
    bytesLE 2 (linkAfter (wishOf s q.patron) k))

/-- A line in a consignment record (R205). -/
def lineBytes (l : Line) : List Byte :=
  bytesLE 2 l.title ++ bytesLE 2 l.origin.toNat ++ [byteOf (lineStateValue l.state)]

/-- The ready-queue link: on the sealed list while SEALED, on the ready queue otherwise (R50, R105). -/
def queueLink (s : State) (k : Nat) (c : Consignment) : Nat :=
  if c.state = .sealed then linkAfter s.assembly.sealedList k else linkAfter s.dispatch.ready k

/-- R50, with the head-returned mark after the parts-returned count. -/
def consignmentBytes (s : State) (k : Nat) (c : Consignment) : List Byte :=
  [byteOf (consStateValue c.state), byteOf (consKindValue c.kind)] ++ bytesLE 2 c.patron ++
    [byteOf c.window, byteOf c.cartridgeClass] ++ serialBytes c.serial ++
    byteOf c.lines.length :: c.lines.flatMap lineBytes ++ bytesLE 3 c.used ++
    [byteOf c.sealPriority, byteOf c.part, byteOf c.parts] ++ bytesLE 2 c.head ++ [byteOf c.volumes] ++ bytesLE 3 c.weight ++
    [flagByte c.overweight, byteOf c.returned, flagByte c.headReturned, byteOf (verdictValue c.worst), flagByte c.overdue] ++
    bytesLE 2 c.openDay.toNat ++ bytesLE 2 c.postDay.toNat ++ bytesLE 2 c.dueDay.toNat ++ bytesLE 2 c.job ++
    bytesLE 2 (linkAfter (chainOf s c.patron) k) ++ bytesLE 2 (queueLink s k c)

/-- R73. -/
def jobBytes (s : State) (k : Nat) (j : Job) : List Byte :=
  [byteOf (jobStateValue j.state), byteOf (jobKindValue j.kind), byteOf j.priority] ++ bytesLE 2 j.consignment ++
    bytesLE 2 j.title ++ [byteOf j.cartridgeClass] ++ bytesLE 2 j.remaining ++ bytesLE 3 j.offset ++ serialBytes j.serial ++
    [flagByte j.retry, byteOf j.bay] ++
    bytesLE 2 (if j.state = .queued then linkAfter (queueAt s j.priority) k else 0)

/-- R75, laid out as R205 says. -/
def bayBytes (b : Bay) : List Byte :=
  [byteOf b.address, b.classes, flagByte b.preempt, byteOf (bayStateValue b.state)] ++ bytesLE 2 b.active ++
    byteOf b.stack.length :: b.stack.reverse.flatMap (bytesLE 2) ++ bytesLE 2 b.preemptor ++
    [byteOf b.timer, flagByte b.running] ++ bayCauseBytes b.cause ++ [byteOf b.owed.length]

/-- A record in range: its fields, or `n` zero bytes when it is absent or FREE (R205). -/
def recordBytes {α : Type} (t : Table α) (k n : Nat) (bytes : α → List Byte) : List Byte :=
  match Table.get t k with
  | none => zeroBytes n
  | some a => bytes a

/-- No SET_GEOMETRY has been accepted since the last full reset (R182; P is at least 1 in any geometry). -/
def geometryZero (s : State) : Bool := decide (s.management.geometry = {})

/-- The read-out of a record, or the range code (R20, R23, R49, R73, R75, R205; index 0: log 16). -/
def readRecord (table index : Nat) (s : State) : Except Code (List Byte) :=
  let g := s.management.geometry
  match table with
  | 0 =>
    if geometryZero s = true ∨ g.p < index then .error .patronRange
    else .ok (recordBytes s.records.patrons index 23 patronBytes)
  | 1 => if 255 < index then .error .badField else .ok (recordBytes s.records.agencies index 6 agencyBytes)
  | 2 =>
    if geometryZero s = true ∨ g.t < index then .error .titleRange
    else .ok (recordBytes s.records.titles index 26 titleBytes)
  | 3 =>
    if index = 0 ∨ g.q < index then .error .badField else .ok (recordBytes s.requests index 11 (requestBytes s index))
  | 4 =>
    if index = 0 ∨ g.c < index then .error .badField
    else .ok (recordBytes s.assembly.cons index 41 (consignmentBytes s index))
  | 5 =>
    if index = 0 ∨ g.j < index then .error .badField
    else .ok (recordBytes s.scheduler.jobs index 22 (jobBytes s index))
  | 6 => if index = 0 ∨ 24 < index then .error .badField else .ok (bayBytes (bayAt s index))
  | _ => .error .badField

/-- READ_RECORD (R205). -/
def execReadRecord (table : Byte) (index : U16) (s : State) : Result :=
  request (.readRecord table index) s fun s =>
    match readRecord table.toNat index.toNat s with
    | .error c => refuse c s
    | .ok bs => ⟨s, .ok, bs⟩

end Sys2Proof.Machine
end

