-- ==== Sys2Proof/Machine/Setup.lean ====
section
/-! DEFINITION. The Management Unit's commands (09): full reset, RESTART, geometry, classes, line rates, opening for service,
settings and READ_SETUP. -/

namespace Sys2Proof.Machine

/-! ## Full reset (R188) -/

/-- A full reset: every block takes its full-reset state. The command queue, the seconds count (log 24) and the model's count
of drawn free values (log 14) stand. -/
def fullReset (s : State) : State :=
  { State.reset with pending := s.pending, scheduler.seconds := s.scheduler.seconds, freeIx := s.freeIx }

/-- RESET_PIN (R188). -/
def execResetPin (s : State) : Result := .next (fullReset s)

/-- POWER_ON (R188). -/
def execPowerOn (s : State) : Result := .next (fullReset s)

/-- RESET is answered OK; the full reset follows its REPLY (R188). -/
def execReset (s : State) : Result := request .reset s fun s => ⟨s, .ok, []⟩

/-- The REPLY OK to RESET. -/
def resetReply : Frame := replyFrame 1 1 .ok []

/-- The REPLY OK to SET_LINES. -/
def linesReply : Frame := replyFrame 1 5 .ok []

/-- RESET_AFTER_REPLY: the check character of the RESET reply has been sent (R188, R195). -/
def execResetAfterReply (s : State) : Result :=
  if s.line.officeSending = some resetReply then .next (fullReset s) else .next s

/-! ## Poll set (R182, R189) -/

/-- The poll set holds the station roles that name a station. -/
def pollRoles (s : State) : State :=
  joinPoll s.management.settings.scannerRole
    (joinPoll s.management.settings.sorterRole
      (joinPoll s.management.settings.pickRole { s with line.pollSet := 0 }))

/-! ## RESTART (R189) -/

/-- A bay under RESTART: its jobs are put back and it becomes OFFLINE with no owed command (R100). -/
def restartBay (s : State) (b : Nat) : State :=
  modBay b (fun bay => { bay with state := .offline, running := false, owed := [] }) (putBackJobs b s)

/-- The Line Interface under RESTART (R189 steps 1 and 3, R200). An office frame in reception will join the emptied queue's loss,
and a floor frame in reception in a reply turn keeps that turn's station (log 13). -/
def restartLine (s : State) : State :=
  pollRoles
    { s with
      line.officeRx := []
      line.forward := none
      line.floorTx := []
      line.contended := false
      line.turn := none
      line.officeLost := s.line.officeLost || decide (s.line.officeIn ≠ [])
      line.carried :=
        if s.line.floorIn = [] then none
        else if s.line.early then s.line.carried
        else (s.line.turn.map Turn.station).or s.line.carried
      line.pollPos := 0
      line.officeFaults := 0
      line.floorFaults := 0
      line.missed := Vector.replicate 47 0 }

/-- The blocks' effects and the cleared line (R189 steps 2 and 3); no placement is made, so no pass is owed (log 12). -/
def restartBlocks (s : State) : State :=
  { restartLine (abandonReturns (cancelReleases (bayNumbers.foldl restartBay (rebuildPicks s)))) with passDue := false }

/-- The RESTARTED broadcast joins the emptied queue, and the blocks that wait on it resume (R189 step 4). -/
def resumeAfterRestart (s : State) : State :=
  let s1 := toFloor restartedFrame s
  passReleases (handPicks s1.assembly.picks.length s1)

/-- RESTART (R189). -/
def execRestart (s : State) : Result :=
  request .restart s fun s => inService s ⟨resumeAfterRestart (restartBlocks s), .ok, []⟩

/-! ## Geometry and budget (R179, R180) -/

/-- The words of table memory that each table takes, in the order in which the Record Store lays the tables (R180): patron table,
agency table, title table, request pool, consignment table, job pool. A zero geometry takes the agency table alone. -/
def tableSizes (g : Geometry) : List Nat :=
  if g = {} then [0, 2048, 0, 0, 0, 0]
  else [(g.p + 1) * 8, 256 * 8, (g.t + 1) * 8, (g.q + 1) * 4, (g.c + 1) * 16, (g.j + 1) * 8]

/-- The first word of a table, 0..5 in the order of `tableSizes`: the word after the end of the one before (R180). -/
def tableStart (g : Geometry) (table : Nat) : Nat := ((tableSizes g).take table).sum

/-- The words of one record of a table (R180). -/
def recordWords (table : Nat) : Nat := [8, 8, 8, 4, 16, 8].getD table 0

/-- The first word of a record: its slot within its table, slot 0 being reserved (R180). The record's fields stand in State's
tables; no rule gives a word of it a content, and table memory itself is not held (log 38). -/
def recordWord (g : Geometry) (table index : Nat) : Nat := tableStart g table + index * recordWords table

/-- The budget total of a geometry: the sum of the six entries, and so the word after the job pool (R180). -/
def budgetTotal (g : Geometry) : Nat := tableStart g 6

/-- A geometry within its ranges (R179). -/
def geometryOk (g : Geometry) : Bool :=
  decide ((1 ≤ g.p ∧ g.p ≤ 65535) ∧ (1 ≤ g.t ∧ g.t ≤ 32767) ∧ (1 ≤ g.q ∧ g.q ≤ 65535) ∧ (1 ≤ g.c ∧ g.c ≤ 32767) ∧
    (1 ≤ g.j ∧ g.j ≤ 4095))

def geometryBytes (g : Geometry) : List Byte := [g.p, g.t, g.q, g.c, g.j].flatMap (bytesLE 2)

/-- Every shelf cartridge loses its title and goes to blank (R148). -/
def ClassAccount.shelfToBlank (a : ClassAccount) : ClassAccount := { a with blank := a.blank + a.shelf, shelf := 0 }

/-- An accepted SET_GEOMETRY empties every table and takes the new sizes (R179). -/
def takeGeometry (g : Geometry) (s : State) : State :=
  { s with
    records := {}
    requests := []
    assembly := {}
    scheduler.jobs := []
    scheduler.queues := Vector.replicate 4 []
    dispatch := {}
    accounts := s.accounts.map ClassAccount.shelfToBlank
    management.geometry := g }

/-- SET_GEOMETRY (R179). -/
def execSetGeometry (p t q c j : U16) (s : State) : Result :=
  request (.setGeometry p t q c j) s fun s => inSetup s <|
    let g : Geometry := { p := p.toNat, t := t.toNat, q := q.toNat, c := c.toNat, j := j.toNat }
    if geometryOk g then ⟨takeGeometry g s, .ok, geometryBytes g ++ bytesLE 3 (budgetTotal g)⟩ else refuse .badField s

/-- SET_CLASS (R181). -/
def execSetClass (cls : Byte) (capacity : U24) (s : State) : Result :=
  request (.setClass cls capacity) s fun s => inSetup s <|
    if cls.toNat = 0 ∨ 4 < cls.toNat ∨ capacity.toNat < 1024 ∨ Config.maxBlocks < capacity.toNat then refuse .badField s
    else
      ⟨{ s with management.capacity := bankModify s.management.capacity cls.toNat fun _ => capacity.toNat }, .ok, []⟩

/-! ## Opening for service (R182) -/

/-- The lowest class whose capacity is unset (R182 check 2). -/
def unsetClass (s : State) : Option Nat := (List.range' 1 4).find? fun c => decide (capacityOf s c = 0)

/-- The mode becomes SERVICE and the poll set is formed (R182). -/
def openMode (s : State) : State := pollRoles { s with management.mode := .service }

/-- OPEN_SERVICE in SETUP (R182). -/
def openPart (s : State) : Answer :=
  let total := budgetTotal s.management.geometry
  if geometryZero s then ⟨s, .notFound, [0]⟩
  else
    match unsetClass s with
    | some c => ⟨s, .notFound, [byteOf c]⟩
    | none => if Config.tableWords < total then ⟨s, .budget, bytesLE 3 total⟩ else ⟨openMode s, .ok, bytesLE 3 total⟩

/-- OPEN_SERVICE (R182). -/
def execOpenService (s : State) : Result := request .openService s fun s => inSetup s (openPart s)

/-! ## Line rates (R183) -/

/-- SET_LINES: the rates are taken after the REPLY (R183). -/
def execSetLines (officeRate floorRate : Byte) (s : State) : Result :=
  request (.setLines officeRate floorRate) s fun s => inSetup s <|
    match rateOf officeRate, rateOf floorRate with
    | some o, some f => ⟨{ s with line.ratesNext := s.line.ratesNext ++ [(o, f)] }, .ok, []⟩
    | _, _ => refuse .badField s

/-- A frame in reception on the office port when its rate changes is discarded with FRAMING (R183; log 29). -/
def cutOfficeFrame (s : State) : State :=
  if s.line.officeIn = [] then s
  else recordFault .office (causeBit .framing) { s with line.officeIn := [], line.officeLost := false }

/-- OFFICE_RATE_CHANGE: the check character of the SET_LINES reply has been sent, and the new rates take effect (R183, R195): the
office port's now, the floor port's once no frame is being sent on it. -/
def execOfficeRateChange (s : State) : Result :=
  match s.line.ratesNext with
  | [] => .next s
  | (o, f) :: rest =>
    if s.line.officeSending = some linesReply then
      .next
        (cutOfficeFrame
          { s with line.officeRate := o, line.floorNext := some f, line.ratesNext := rest, line.officeSending := none })
    else .next s

/-- The frame being sent on the floor port keeps the next one waiting. The end of a frame to a station is REPLY_TURN_GRANT. The
next frame may follow a broadcast at once, and its sending stands for the broadcast's end (R197, log 4). -/
def floorBusy (s : State) : Bool :=
  match s.line.floorSending with
  | none => false
  | some f => decide (f.dst.toNat ≠ 63)

/-- FLOOR_RATE_CHANGE: taken when no frame is being sent on the floor port, a broadcast included (R183). -/
def execFloorRateChange (s : State) : Result :=
  match s.line.floorNext with
  | none => .next s
  | some r =>
    if s.line.floorSending = none then .next { s with line.floorRate := r, line.floorNext := none } else .next s

/-! ## Settings (R184 to R186) -/

/-- A write to one setting, as its number and value name it (R184, R203): a plain setting or a station role. -/
inductive SettingWrite
  | plain (f : Settings → Settings)
  | holdLimit (v : Nat)
  | pickRole (v : Nat)
  | sorterRole (v : Nat)
  | scannerRole (v : Nat)

/-- A station role value in its range (R184). -/
def roleOk (v : Nat) : Bool := decide (v = 0 ∨ (16 ≤ v ∧ v ≤ 62))

/-- The write that a setting number and a value ask for; `none` for BAD_FIELD (R184). -/
def settingWrite (setting value : Byte) : Option SettingWrite :=
  let v := value.toNat
  match setting.toNat with
  | 0 => if 1 ≤ v then some (.plain fun x => { x with audioLoan := v }) else none
  | 1 => if 1 ≤ v then some (.plain fun x => { x with brailleLoan := v }) else none
  | 2 => if v ≤ 7 then some (.plain fun x => { x with packHold := v }) else none
  | 3 => if v ≤ 15 then some (.holdLimit v) else none
  | 4 => if 5 ≤ v then some (.plain fun x => { x with stallSeconds := v }) else none
  | 5 => if 1 ≤ v ∧ v ≤ 64 then some (.plain fun x => { x with listLimit := v }) else none
  | 6 => (noticeModeOf value).map fun m => .plain fun x => { x with noticeMode := m }
  | 7 => if roleOk v then some (.pickRole v) else none
  | 8 => if roleOk v then some (.sorterRole v) else none
  | 9 => if roleOk v then some (.scannerRole v) else none
  | _ => none

/-- Changes the settings. -/
def modSettings (f : Settings → Settings) (s : State) : State :=
  { s with management.settings := f s.management.settings }

/-- The hold limit is written; a changed value re-evaluates held for every present patron in ascending index (R174, R185). -/
def writeHoldLimit (v : Nat) (s : State) : State :=
  if v = s.management.settings.holdLimit then s
  else
    (s.records.patrons.map Prod.fst).foldl (fun s k => evaluateHeld k s)
      (modSettings (fun x => { x with holdLimit := v }) s)

/-- A role may not take the address of a configured bay or of another role, whose addresses `others` gives (R186). -/
def roleConflict (s : State) (v : Nat) (others : List Nat) : Bool :=
  decide (v ≠ 0) && (decide (v ∈ others) || bayNumbers.any fun b => decide ((bayAt s b).address = v))

/-- A changed station role: recorded alone in SETUP; in SERVICE the poll set follows and the owning block acts (R186). -/
def changeRole (old new : Nat) (write : State → State) (act : State → State) (s : State) : State :=
  if old = new then s
  else
    match s.management.mode with
    | .setup => write s
    | .service => act (joinPoll new (leavePoll old (write s)))

/-- The pick station role is written (R68, R186). -/
def writePickRole (v : Nat) (s : State) : State :=
  changeRole s.management.settings.pickRole v (modSettings fun x => { x with pickRole := v })
    (fun s => handPicks (rebuildPicks s).assembly.picks.length (rebuildPicks s)) s

/-- The sorter station role is written (R119, R186). -/
def writeSorterRole (v : Nat) (s : State) : State :=
  changeRole s.management.settings.sorterRole v (modSettings fun x => { x with sorterRole := v })
    (fun s => passReleases (cancelReleases s)) s

/-- The scanner station role is written (R145, R186). -/
def writeScannerRole (v : Nat) (s : State) : State :=
  changeRole s.management.settings.scannerRole v (modSettings fun x => { x with scannerRole := v })
    (fun s => startInspection (abandonReturns s)) s

/-- The REPLY to an accepted write carries the value as written (R184). -/
def wrote (v : Nat) (s : State) : Answer := ⟨s, .ok, [byteOf v]⟩

/-- A setting is written with its effects (R184 to R186). -/
def writeSetting (w : SettingWrite) (value : Nat) (s : State) : Answer :=
  let x := s.management.settings
  match w with
  | .plain f => wrote value (modSettings f s)
  | .holdLimit v => wrote value (writeHoldLimit v s)
  | .pickRole v =>
    if roleConflict s v [x.sorterRole, x.scannerRole] then refuse .conflict s else wrote value (writePickRole v s)
  | .sorterRole v =>
    if roleConflict s v [x.pickRole, x.scannerRole] then refuse .conflict s else wrote value (writeSorterRole v s)
  | .scannerRole v =>
    if roleConflict s v [x.pickRole, x.sorterRole] then refuse .conflict s else wrote value (writeScannerRole v s)

/-- SET_SETTING (R184). -/
def execSetSetting (setting value : Byte) (s : State) : Result :=
  request (.setSetting setting value) s fun s =>
    match settingWrite setting value with
    | none => refuse .badField s
    | some w => writeSetting w value.toNat s

/-! ## READ_SETUP (R187) -/

/-- The settings in the order of R184. -/
def settingsBytes (x : Settings) : List Byte :=
  [byteOf x.audioLoan, byteOf x.brailleLoan, byteOf x.packHold, byteOf x.holdLimit, byteOf x.stallSeconds,
    byteOf x.listLimit, byteOf (noticeModeValue x.noticeMode), byteOf x.pickRole, byteOf x.sorterRole, byteOf x.scannerRole]

/-- The spare words left by a geometry (R180); above the budget no rule gives them (log 15). -/
def spareWords (total : Nat) : Nat :=
  if total ≤ Config.tableWords then Config.tableWords - total else (Config.spareOverBudget total).toNat

/-- The setup read-out (R187; the line rates as SET_LINES numbers them: log 18). -/
def setupBytes (s : State) : List Byte :=
  let total := budgetTotal s.management.geometry
  modeByte s :: geometryBytes s.management.geometry ++ bytesLE 3 total ++ bytesLE 3 (spareWords total) ++
    s.management.capacity.toList.flatMap (bytesLE 3) ++
    [byteOf (rateValue s.line.officeRate), byteOf (rateValue s.line.floorRate)] ++ settingsBytes s.management.settings

/-- READ_SETUP (R187). -/
def execReadSetup (s : State) : Result := request .readSetup s fun s => ⟨s, .ok, setupBytes s⟩

end Sys2Proof.Machine
end

