-- ==== Sys2Proof/Machine/Line.lean ====
section
/-! DEFINITION. The Line Interface's commands (10): reception and forwarding on the two ports, reply turns, sending and polling;
and the notices of the Management Unit (11). -/

namespace Sys2Proof.Machine

/-! ## The office port, receiving (R192 to R196) -/

/-- A faultless office frame joins the queue, or is discarded with OVERRUN (R194). One that was in reception at RESTART joined
the queue that RESTART emptied, and is lost (R189, R200). -/
def joinOffice (f : Frame) (s : State) : State :=
  if s.line.officeLost then { s with line.officeLost := false }
  else if s.line.officeRx.length < Config.officeQueuePlaces then { s with line.officeRx := s.line.officeRx ++ [f] }
  else recordFault .office (causeBit .overrun) s

/-- The frames of a run that end in its characters are taken, one after another, each joining the queue or discarded, and the one
that has not ended stays in reception (R191, R192, R194). Each frame that ends uses at least one character, so `fuel` may be the
length of the run. -/
def receiveFrames (fuel : Nat) (run : List Chr) (s : State) : State :=
  match fuel, receiveAt .office run with
  | n + 1, .frame f => receiveFrames n (afterFrame run) (joinOffice f s)
  | n + 1, .fault c => receiveFrames n (afterFrame run) (recordFault .office c { s with line.officeLost := false })
  | _ + 1, .incomplete | 0, _ => { s with line.officeIn := inFrame run }

/-- What a run of characters does at the office port. Every frame that ends in it is taken at once, so the port holds no frame
but the one in reception, and RESTART finds the others in the queue that it empties (R189 step 3). -/
def receiveOffice (run : List Chr) (s : State) : State := receiveFrames run.length run s

/-- OFFICE_FRAME_RECEIVE: characters arrive on the office port and continue the frame in reception, if any; a frame that
completes without fault joins the queue, and one that has not ended stays in reception (R191, R194). -/
def execOfficeFrameReceive (chars : List Chr) (s : State) : Result :=
  let run := s.line.officeIn ++ chars
  match receiveAt .office run with
  | .frame _ | .incomplete => .next (receiveOffice run s)
  | .fault _ => .next s

/-- OFFICE_PEER_FRAME: a frame at the head addressed to 1..15 leaves the queue and is discarded (R194). -/
def execOfficePeerFrame (s : State) : Result :=
  match s.line.officeRx with
  | [] => .next s
  | f :: rest =>
    if 1 ≤ f.dst.toNat ∧ f.dst.toNat ≤ 15 then .next { s with line.officeRx := rest } else .next s

/-- FORWARD_TO_FLOOR: a frame at the head addressed to 16..63 crosses to the floor, or, not being from the supervisor, is
refused once the reply slot is empty (R196). -/
def execForwardToFloor (s : State) : Result :=
  match s.line.officeRx with
  | [] => .next s
  | f :: rest =>
    if f.dst.toNat < 16 then .next s
    else if f.src = 1 then
      if floorRoom 0 s then .next (toFloor f { s with line.officeRx := rest }) else .next s
    else if s.line.replySlot = none then .next (placeReply f .notAuthorised [] { s with line.officeRx := rest })
    else .next s

/-- UNLISTED_MANAGEMENT_KIND: the REPLY of R193 cases 1 to 3 (log 33). -/
def execUnlistedManagementKind (src kind : Byte) (payload : List Byte) (s : State) : Result :=
  match officeRefusal src.toNat kind.toNat payload.length with
  | none => .next s
  | some code => request (.unlistedManagementKind src kind payload) s fun s => refuse code s

/-! ## The office port, sending (R195, R207) -/

/-- The office port may begin to send: not while a RESET or SET_LINES reply in sending still owes its effect (R195, log 29). -/
def officeFree (s : State) : Bool :=
  match s.line.officeSending with
  | none => true
  | some f => decide (f ≠ resetReply ∧ (f ≠ linesReply ∨ s.line.ratesNext = []))

/-- SEND_REPLY (R195). -/
def execSendReply (s : State) : Result :=
  match s.line.replySlot with
  | none => .next s
  | some f =>
    if officeFree s then .next { s with line.replySlot := none, line.officeSending := some f } else .next s

/-- SEND_FORWARDED_FRAME (R195, R196). -/
def execSendForwardedFrame (s : State) : Result :=
  match s.line.replySlot, s.line.forward with
  | none, some f =>
    if officeFree s then .next { s with line.forward := none, line.officeSending := some f } else .next s
  | _, _ => .next s

/-- The NOTICE frame of a notice (R201, R207). -/
def noticeFrame (n : Nat) (c : NoticeCell) : Frame := ⟨1, 0, 81, [byteOf n, byteOf c.count] ++ bytesLE 2 c.subject⟩

/-- A notice whose sending begins: latch and count become 0, the subject stays (R207). -/
def NoticeCell.sent (c : NoticeCell) : NoticeCell := { c with latch := false, count := 0 }

/-- NOTICE: the offered notice is sent when the reply slot and the forward buffer are empty (R195, R207). -/
def execNotice (s : State) : Result :=
  match s.line.replySlot, s.line.forward, offeredNotice s.management with
  | none, none, some n =>
    if officeFree s then
      .next
        { s with
          line.officeSending := some (noticeFrame n (bankGet s.management.notices n {}))
          management.notices := bankModify s.management.notices n NoticeCell.sent }
    else .next s
  | _, _, _ => .next s

/-! ## Requests on the lines and the notices (R192, R208) -/

/-- Both sets of fault causes (R192). No rule gives their order: the office port's comes first (log 45). -/
def faultBytes (s : State) : List Byte := [s.line.officeFaults, s.line.floorFaults]

/-- CLEAR_LINE_FAULTS (R192). -/
def execClearLineFaults (s : State) : Result :=
  request .clearLineFaults s fun s =>
    ⟨{ s with line.officeFaults := 0, line.floorFaults := 0 }, .ok, faultBytes s⟩

/-- The station holding the reply turn, or 0 (R192). -/
def turnStation (s : State) : Nat :=
  match s.line.turn with
  | none => 0
  | some t => t.station

/-- A frame that began in the reply turn in progress is in reception. -/
def replyBegun (s : State) : Bool := decide (s.line.floorIn ≠ []) && !s.line.early

/-- The missed-reply count of a station as it stands: 0 from the mark character of a frame that began in its turn (R198 step 2).
`missed` keeps the count that a miss raises if that frame proves to be of another source (R198 step 3, log 23). -/
def missedNow (s : State) (station : Nat) : Nat :=
  if replyBegun s && decide (turnStation s = station) then 0 else missedAt s station

/-- The line read-out (R192, R201). -/
def lineStateBytes (s : State) : List Byte :=
  faultBytes s ++ [byteOf s.line.officeRx.length, byteOf s.line.floorTx.length, byteOf (turnStation s)] ++
    bytesLE 8 s.line.pollSet.toNat ++ (List.range' 16 47).map fun k => byteOf (missedNow s k)

/-- READ_LINES (R192). -/
def execReadLines (s : State) : Result := request .readLines s fun s => ⟨s, .ok, lineStateBytes s⟩

/-- SET_MASK (R208). -/
def execSetMask (mask : U16) (s : State) : Result :=
  request (.setMask mask) s fun s =>
    if 4096 ≤ mask.toNat then refuse .badField s
    else ⟨{ s with management.mask := mask }, .ok, bytesLE 2 mask.toNat⟩

/-- One notice as READ_NOTICES shows it (R208). -/
def noticeBytes (c : NoticeCell) : List Byte := [flagByte c.latch, byteOf c.count] ++ bytesLE 2 c.subject

/-- READ_NOTICES (R208). -/
def execReadNotices (s : State) : Result :=
  request .readNotices s fun s =>
    ⟨s, .ok, bytesLE 2 s.management.mask.toNat ++ s.management.notices.toList.flatMap noticeBytes⟩

/-! ## The floor port, receiving (R192, R196, R198, R199) -/

/-- A floor frame of a station in its turn that is addressed to the office (R196): it takes the forward buffer, or is discarded
with OVERRUN, in which case it reloads no stall timer (R192, log 32). -/
def forwardToOffice (f : Frame) (s : State) : State :=
  match s.line.forward with
  | none => { reloadTimer f.src.toNat s with line.forward := some f }
  | some _ => recordFault .floor (causeBit .overrun) s

/-- A frame addressed to an office station 1..15: it crosses in its station's turn, and is stray otherwise. R196 forwards it
whatever its source, and R79 discards a frame from the floor address of an OFFLINE or FAULTED bay: the model forwards such a
bay's frame too (log 42). -/
def takeForward (f : Frame) (s : State) : State :=
  if 1 ≤ f.dst.toNat ∧ f.dst.toNat ≤ 15 ∧ sourceOk .floor f.src.toNat = true then
    match answered f.src.toNat s with
    | some s' => forwardToOffice f s'
    | none => strayFrame s
  else s

/-- FLOOR_FORWARD: a floor frame addressed to an office station 1..15 (R196). -/
def execFloorForward (frame : Frame) (s : State) : Result := floorEvent (.floorForward frame) takeForward s

/-- A frame that is not received in its station's turn is stray. -/
def takeStray (f : Frame) (s : State) : State :=
  if sourceOk .floor f.src.toNat = true ∧ answered f.src.toNat s = none then strayFrame s else s

/-- STRAY_FLOOR_FRAME: a faultless floor frame outside every turn, or in another station's turn (R198). -/
def execStrayFloorFrame (frame : Frame) (s : State) : Result := floorEvent (.strayFloorFrame frame) takeStray s

/-- QUIET, taken by the Line Interface itself (R198, R199). -/
def execQuiet (src : Byte) (s : State) : Result :=
  floorEvent (.quiet src) (fun f => receiveFloor f.src.toNat fun s => s) s

/-- The Line Interface discards a floor frame in its station's turn: addressed to a floor station, arriving in SETUP, or not
one that the owner of its source takes (R196, R199). -/
def floorFrameDropped (s : State) (f : Frame) : Bool :=
  if 16 ≤ f.dst.toNat then true
  else if f.dst.toNat = 0 then
    decide (s.management.mode = .setup) || ownerOf s f.src.toNat == .nobody ||
      !ownerTakes (ownerOf s f.src.toNat) f.kind.toNat f.payload
  else false

/-- A frame that the Line Interface discards, as against one that it hands on. -/
def takeDropped (f : Frame) (s : State) : State :=
  if floorFrameDropped s f then receiveFloor f.src.toNat (fun s => s) s else s

/-- FLOOR_FRAME_NOT_TAKEN: the frame is discarded, but ends the turn, clears the missed-reply count and reloads a bay's stall
timer (R199). -/
def execFloorFrameNotTaken (frame : Frame) (s : State) : Result := floorEvent (.floorFrameNotTaken frame) takeDropped s

/-- What a faulty frame does to the reply turn in which it began (R198): its station has answered, whatever source byte the
frame carries (log 23); a parity or framing error leaves the turn to end by silence, or at the end of the station's next frame
(log 41); any other fault ends it. -/
def faultInTurn (causes : Byte) (s : State) : State :=
  match turnOfFrame s with
  | .current t =>
    if causes &&& (causeBit .parity ||| causeBit .framing) = 0 then setMissed t.station 0 (endTurn (endReception s))
    else setMissed t.station 0 { endReception s with line.turn := some { t with silence := true } }
  | .cleared _ | .outside => endReception s

/-- A run of characters at the office port that makes it discard a frame: the fault is recorded, and an early mark character
begins the next frame (R191, R192). -/
def discardOffice (run : List Chr) (s : State) : State :=
  match receiveAt .office run with
  | .fault _ | .incomplete => receiveOffice run s
  | .frame _ => s

/-- What a discarded frame does on the floor: a frame from a source the line does not have counts as a frame from another source
(R193, R198 step 3). -/
def floorFault (run : List Chr) (causes : Byte) (s : State) : State :=
  match receive run with
  | .frame _ => badSourceFrame s
  | .fault _ | .incomplete => faultInTurn causes (recordFault .floor causes s)

/-- A run of characters at the floor port that makes it discard a frame (R191, R192). -/
def discardFloor (run : List Chr) (s : State) : State :=
  match receiveAt .floor run with
  | .fault c => { floorFault run c s with line.floorIn := afterFrame run }
  | .incomplete => { s with line.floorIn := inFrame run }
  | .frame _ => s

/-- Characters arrive at a port, continue the frame in reception, if any, and make the port discard a frame; a frame that has
not ended stays in reception. -/
def discardAt (port : Port) (chars : List Chr) (s : State) : State :=
  match port with
  | .office => discardOffice (s.line.officeIn ++ chars) s
  | .floor => discardFloor (s.line.floorIn ++ chars) s

/-- FRAME_DISCARD (R192). -/
def execFrameDiscard (port : Port) (chars : List Chr) (s : State) : Result := .next (discardAt port chars s)

/-! ## The floor port, sending (R197 to R199) -/

/-- The floor port may begin to send: no frame is being sent, no reply turn is in progress, and no rate is due: the floor port
takes its new rate once the frame in sending has ended, and so before the next one (R183). -/
def floorFree (s : State) : Bool := s.line.turn.isNone && !floorBusy s && s.line.floorNext.isNone

/-- FLOOR_SEND: the frame at the head of the floor transmit queue is sent (R197). -/
def execFloorSend (s : State) : Result :=
  match s.line.floorTx with
  | [] => .next s
  | f :: rest =>
    if floorFree s then
      .next { leaveFloor rest s with line.floorSending := some f }
    else .next s

/-- The lowest member of the poll set above the poll position, or the lowest member when none lies above it (R199). -/
def nextPoll (members : BitVec 64) (position : Nat) : Option Nat :=
  ((List.range' 16 47).find? fun k => members.getLsbD k && decide (position < k)).or
    ((List.range' 16 47).find? fun k => members.getLsbD k)

/-- POLL: in SERVICE, with nothing to send and no reply turn, the next member of the poll set is polled (R199). -/
def execPoll (s : State) : Result :=
  match nextPoll s.line.pollSet s.line.pollPos with
  | none => .next s
  | some k =>
    if s.management.mode = .service ∧ s.line.floorTx = [] ∧ floorFree s = true then
      .next { s with line.floorSending := some (pollFrame k), line.pollPos := k }
    else .next s

/-- REPLY_TURN_GRANT: the frame in sending has ended; a frame to a station 16..62 opens its reply turn, one to 63 grants none
(R197). -/
def execReplyTurnGrant (s : State) : Result :=
  match s.line.floorSending with
  | none => .next s
  | some f =>
    if 16 ≤ f.dst.toNat ∧ f.dst.toNat ≤ 62 then
      .next
        { s with
          line.floorSending := none
          line.turn := some { station := f.dst.toNat }
          line.early := decide (s.line.floorIn ≠ []) }
    else if f.dst.toNat = 63 then .next { s with line.floorSending := none }
    else .next s

/-- REPLY_WINDOW_EXPIRY: no header within 2 ms; the turn ends with a miss (R198 step 4). A mark character with a parity or framing
error is no header: it begins no frame (R192), so it neither answers the turn nor keeps it from its miss (log 43). -/
def execReplyWindowExpiry (s : State) : Result :=
  match s.line.turn with
  | none => .next s
  | some t => if t.silence || replyBegun s then .next s else .next (countMiss t.station (endTurn s))

/-- TURN_SILENCE_EXPIRY: 2 ms without a character after a parity or framing error end the turn (R198 step 2), also in the
middle of a new frame, which then completes outside every turn (log 41). -/
def execTurnSilenceExpiry (s : State) : Result :=
  match s.line.turn with
  | none => .next s
  | some t => if t.silence then .next (endTurn s) else .next s

end Sys2Proof.Machine
end

