-- ==== Sys2Proof/Machine/Dispatch.lean ====
section
/-! DEFINITION. One arm for each command: a direct call of its meaning. -/

namespace Sys2Proof.Machine

def exec (i : Instr) (s : State) : Host.Outcome State Fault Refusal :=
  match i with
  | .resetPin => Sys2Proof.Machine.execResetPin s
  | .powerOn => Sys2Proof.Machine.execPowerOn s
  | .reset => Sys2Proof.Machine.execReset s
  | .resetAfterReply => Sys2Proof.Machine.execResetAfterReply s
  | .restart => Sys2Proof.Machine.execRestart s
  | .setGeometry p t q c j => Sys2Proof.Machine.execSetGeometry p t q c j s
  | .setClass cls capacity => Sys2Proof.Machine.execSetClass cls capacity s
  | .setLines officeRate floorRate => Sys2Proof.Machine.execSetLines officeRate floorRate s
  | .officeRateChange => Sys2Proof.Machine.execOfficeRateChange s
  | .floorRateChange => Sys2Proof.Machine.execFloorRateChange s
  | .setDay d => Sys2Proof.Machine.execSetDay d s
  | .openService => Sys2Proof.Machine.execOpenService s
  | .setSetting setting value => Sys2Proof.Machine.execSetSetting setting value s
  | .loadPatron patron present status patronClass level formats cartridgeClass quota agency code => Sys2Proof.Machine.execLoadPatron patron present status patronClass level formats cartridgeClass quota agency code s
  | .loadAgency agency present code => Sys2Proof.Machine.execLoadAgency agency present code s
  | .loadTitle title present format policy level availability extent granularity shelfClass volumes weight => Sys2Proof.Machine.execLoadTitle title present format policy level availability extent granularity shelfClass volumes weight s
  | .readRecord table index => Sys2Proof.Machine.execReadRecord table index s
  | .setBay bay address classes preempt => Sys2Proof.Machine.execSetBay bay address classes preempt s
  | .bayOnline bay => Sys2Proof.Machine.execBayOnline bay s
  | .bayOffline bay => Sys2Proof.Machine.execBayOffline bay s
  | .buildStock title copies => Sys2Proof.Machine.execBuildStock title copies s
  | .raiseJob job => Sys2Proof.Machine.execRaiseJob job s
  | .flushPack patron => Sys2Proof.Machine.execFlushPack patron s
  | .day d => Sys2Proof.Machine.execDay d s
  | .setWindow window enabled low high chute mailClass transit limit hold => Sys2Proof.Machine.execSetWindow window enabled low high chute mailClass transit limit hold s
  | .releaseManifest half => Sys2Proof.Machine.execReleaseManifest half s
  | .readManifest half index => Sys2Proof.Machine.execReadManifest half index s
  | .readDispatch => Sys2Proof.Machine.execReadDispatch s
  | .setChannel channel mode action store reference => Sys2Proof.Machine.execSetChannel channel mode action store reference s
  | .setThreshold entry value => Sys2Proof.Machine.execSetThreshold entry value s
  | .inspectSuspend => Sys2Proof.Machine.execInspectSuspend s
  | .inspectResume => Sys2Proof.Machine.execInspectResume s
  | .clearHits => Sys2Proof.Machine.execClearHits s
  | .readInspection => Sys2Proof.Machine.execReadInspection s
  | .readChannel channel => Sys2Proof.Machine.execReadChannel channel s
  | .stockAdd cls n => Sys2Proof.Machine.execStockAdd cls n s
  | .stockAddTitle title n => Sys2Proof.Machine.execStockAddTitle title n s
  | .repaired cls n title => Sys2Proof.Machine.execRepaired cls n title s
  | .retireRepair cls n title => Sys2Proof.Machine.execRetireRepair cls n title s
  | .declareLost consignment => Sys2Proof.Machine.execDeclareLost consignment s
  | .readStock cls => Sys2Proof.Machine.execReadStock cls s
  | .readDay => Sys2Proof.Machine.execReadDay s
  | .readSetup => Sys2Proof.Machine.execReadSetup s
  | .clearLineFaults => Sys2Proof.Machine.execClearLineFaults s
  | .readLines => Sys2Proof.Machine.execReadLines s
  | .setMask mask => Sys2Proof.Machine.execSetMask mask s
  | .readNotices => Sys2Proof.Machine.execReadNotices s
  | .unlistedManagementKind src kind payload => Sys2Proof.Machine.execUnlistedManagementKind src kind payload s
  | .order src patron title => Sys2Proof.Machine.execOrder src patron title s
  | .probe src patron title => Sys2Proof.Machine.execProbe src patron title s
  | .cancel src patron title => Sys2Proof.Machine.execCancel src patron title s
  | .stallExpiry bay => Sys2Proof.Machine.execStallExpiry bay s
  | .started src job serial => Sys2Proof.Machine.execStarted src job serial s
  | .progress src job blocks => Sys2Proof.Machine.execProgress src job blocks s
  | .parked src job offset => Sys2Proof.Machine.execParked src job offset s
  | .copyDone src job serial result => Sys2Proof.Machine.execCopyDone src job serial result s
  | .bayFault src code => Sys2Proof.Machine.execBayFault src code s
  | .pick => Sys2Proof.Machine.execPick s
  | .picked src consignment serial => Sys2Proof.Machine.execPicked src consignment serial s
  | .notFound src consignment => Sys2Proof.Machine.execNotFound src consignment s
  | .releasePass => Sys2Proof.Machine.execReleasePass s
  | .chuted src consignment => Sys2Proof.Machine.execChuted src consignment s
  | .chuteFull src consignment chute => Sys2Proof.Machine.execChuteFull src consignment chute s
  | .chuteClear src chute => Sys2Proof.Machine.execChuteClear src chute s
  | .returnItem src consignment postDay part serial presence readings => Sys2Proof.Machine.execReturnItem src consignment postDay part serial presence readings s
  | .owedReturnAnswer => Sys2Proof.Machine.execOwedReturnAnswer s
  | .inspectionCompletion => Sys2Proof.Machine.execInspectionCompletion s
  | .sweepStep => Sys2Proof.Machine.execSweepStep s
  | .owedCommandHandOn => Sys2Proof.Machine.execOwedCommandHandOn s
  | .officeFrameReceive chars => Sys2Proof.Machine.execOfficeFrameReceive chars s
  | .officePeerFrame => Sys2Proof.Machine.execOfficePeerFrame s
  | .forwardToFloor => Sys2Proof.Machine.execForwardToFloor s
  | .floorForward frame => Sys2Proof.Machine.execFloorForward frame s
  | .frameDiscard port chars => Sys2Proof.Machine.execFrameDiscard port chars s
  | .strayFloorFrame frame => Sys2Proof.Machine.execStrayFloorFrame frame s
  | .quiet src => Sys2Proof.Machine.execQuiet src s
  | .sendReply => Sys2Proof.Machine.execSendReply s
  | .sendForwardedFrame => Sys2Proof.Machine.execSendForwardedFrame s
  | .notice => Sys2Proof.Machine.execNotice s
  | .floorSend => Sys2Proof.Machine.execFloorSend s
  | .poll => Sys2Proof.Machine.execPoll s
  | .replyTurnGrant => Sys2Proof.Machine.execReplyTurnGrant s
  | .replyWindowExpiry => Sys2Proof.Machine.execReplyWindowExpiry s
  | .turnSilenceExpiry => Sys2Proof.Machine.execTurnSilenceExpiry s
  | .floorFrameNotTaken frame => Sys2Proof.Machine.execFloorFrameNotTaken frame s

end Sys2Proof.Machine
end

