-- ==== Sys2Proof/Safety.lean ====
section
/-! DEFINITION. What a safe state of the part is, in the terms the statements use: the laws the manual writes out, each with its
rule, and the circumstances in which a command is taken. -/

namespace Sys2Proof.Machine

/-! ## When a command is taken -/

/-- No placement pass is owed: so between steps (R80, log 7). -/
def NoPassOwed (s : State) : Prop := s.passDue = false

/-- The request `i` is taken in `s`: its frame is an office frame whose turn it is, and `s0` is `s` without it, its
REPLY being due (R194). -/
def Takes (i : Instr) (s s0 : State) : Prop :=
  NoPassOwed s ∧ ∃ f, requestFrame i = some f ∧ takeOffice f s = some s0

/-- The state with the REPLY to request `i` in the reply slot (R194). -/
def replied (i : Instr) (code : Code) (fields : List Byte) (s : State) : State :=
  match requestFrame i with
  | none => s
  | some f => replyTo f code fields s

/-- A faultless frame of `station` arrives whole in its reply turn, no frame being in reception; `s1` is `s` with the
turn ended, the missed-reply count cleared and a bay's running stall timer reloaded (R79, R198). -/
def InTurn (station : Nat) (s s1 : State) : Prop :=
  NoPassOwed s ∧ s.line.floorIn = [] ∧ (16 ≤ station ∧ station ≤ 62) ∧ (∃ silence, s.line.turn = some ⟨station, silence⟩) ∧
    s1 = reloadTimer station (setMissed station 0 (endTurn (endReception s)))

/-- In SERVICE a frame of `station` in its turn reaches bay `b` (R199). -/
def AtBay (station b : Nat) (s s1 : State) : Prop :=
  InTurn station s s1 ∧ s.management.mode = .service ∧ bayOfAddress s station = some b

/-- In SERVICE a frame of `station` in its turn reaches the unit `owner` (R199). -/
def AtUnit (owner : Owner) (station : Nat) (s s1 : State) : Prop :=
  InTurn station s s1 ∧ s.management.mode = .service ∧ ownerOf s station = owner

/-- The quantity in the `n` bytes at offset `o` of a reply's result fields, least significant byte first (R201). -/
def fieldAt (fields : List Byte) (o n : Nat) : Nat := natLE ((fields.drop o).take n)

/-! ## Laws of the manual -/

/-- The counts of a class add up to its stock, and title-bound repair is part of repair (R148). -/
abbrev ClassAccount.balanced (a : ClassAccount) : Prop :=
  a.blank + a.reserved + a.consigned + a.shelf + a.repair = a.stock ∧ a.bound ≤ a.repair

/-- Every class account is balanced (R148, Law). -/
def AccountsBalanced (s : State) : Prop := ∀ c, c < 4 → (accountAt s (c + 1)).balanced

/-- The six tables are in their canonical form (log 6). -/
def TablesCanonical (s : State) : Prop :=
  Table.wf s.records.patrons ∧ Table.wf s.records.agencies ∧ Table.wf s.records.titles ∧ Table.wf s.requests ∧
    Table.wf s.assembly.cons ∧ Table.wf s.scheduler.jobs

/-- The line queues and the return queue stay within their places (R122, R194, R197). -/
def QueuesBounded (s : State) : Prop :=
  s.line.officeRx.length ≤ Config.officeQueuePlaces ∧ s.line.floorTx.length ≤ Config.floorQueuePlaces ∧
    s.returns.queue.length ≤ Config.returnQueuePlaces

/-- At most 4 releases are outstanding, each with a place in the filling half, and the other half holds at most 64 records
(R106). -/
def ManifestBounded (s : State) : Prop :=
  s.dispatch.outstanding.length ≤ Config.maxReleases ∧
    (halfAt s s.dispatch.filling).length + s.dispatch.outstanding.length ≤ Config.manifestHalfPlaces ∧
    (halfAt s (!s.dispatch.filling)).length ≤ Config.manifestHalfPlaces

/-- Every agency's member count is the number of present patrons that name it, and every named agency is present (R6; agencies
are numbered from 1). -/
def MembersCounted (s : State) : Prop :=
  (∀ k a, k ≠ 0 → Table.get s.records.agencies k = some a →
    a.members = s.records.patrons.countP fun e => decide (e.2.agency = k)) ∧
  ∀ e ∈ s.records.patrons, e.2.agency = 0 ∨ (Table.get s.records.agencies e.2.agency).isSome

/-- Every present patron is held exactly when the hold limit is not 0 and its overdue count is at or above it (R171, Law). -/
def HeldByLimit (s : State) : Prop :=
  ∀ k p, Table.get s.records.patrons k = some p →
    p.held = decide (s.management.settings.holdLimit ≠ 0 ∧ s.management.settings.holdLimit ≤ p.overdue)

/-! ## Where jobs, requests, lines and copies stand -/

/-- A bay at work: in LOADING, WRITING or PARKING. -/
def Working (bay : Bay) : Prop := bay.state = .loading ∨ bay.state = .writing ∨ bay.state = .parking

/-- A job of bay `b` in a state. -/
def isJobOf (s : State) (b : Nat) (st : JobState) (j : Nat) : Prop :=
  ((Table.get s.scheduler.jobs j).any fun x => decide (x.state = st ∧ x.bay = b)) = true

/-- The places of a bay and their order (R75, Law): its jobs name it, an idle or stopped bay holds none, and priorities
rise strictly from the bottom parked job over the active job to the pending pre-emptor. -/
def BayHoldsItsJobs (s : State) (b : Nat) (bay : Bay) : Prop :=
  (bay.active ≠ 0 → isJobOf s b .active bay.active) ∧ (bay.active ≠ 0 ↔ Working bay) ∧
    (∀ j ∈ bay.stack, isJobOf s b .parked j) ∧ bay.stack.Nodup ∧ bay.stack.length ≤ 2 ∧ (¬Working bay → bay.stack = []) ∧
    (bay.preemptor ≠ 0 → isJobOf s b .pending bay.preemptor) ∧ (bay.preemptor ≠ 0 ↔ bay.state = .parking) ∧
    (bay.stack.map (priorityOf s)).Pairwise (· > ·) ∧ (∀ j ∈ bay.stack, priorityOf s j < priorityOf s bay.active) ∧
    (bay.preemptor ≠ 0 → priorityOf s bay.active < priorityOf s bay.preemptor)

/-- A job stands where its state says (R74, Law). -/
def JobStands (s : State) (j : Nat) (x : Job) : Prop :=
  match x.state with
  | .queued => x.bay = 0 ∧ j ∈ queueAt s x.priority
  | .active => (bayAt s x.bay).active = j
  | .parked => j ∈ (bayAt s x.bay).stack
  | .pending => (bayAt s x.bay).preemptor = j

/-- Every job is in exactly one place: one queue, the level of its priority, or one place of one bay (R74, R75, Laws);
in SETUP every bay is stopped (R75). A seal priority is at most 2 (R58), so that the jobs of sealed packs have a queue.
-/
def JobsPlaced (s : State) : Prop :=
  (∀ e ∈ s.scheduler.jobs, e.1 ≠ 0 ∧ e.2.priority ≤ 3 ∧ JobStands s e.1 e.2) ∧
  (∀ l ∈ [0, 1, 2, 3], (queueAt s l).Nodup ∧ ∀ j ∈ queueAt s l,
    ((Table.get s.scheduler.jobs j).any fun x => decide (x.state = .queued ∧ x.priority = l)) = true) ∧
  (∀ b ∈ bayNumbers, BayHoldsItsJobs s b (bayAt s b)) ∧
  (s.management.mode = .setup → ∀ b ∈ bayNumbers, (bayAt s b).state = .offline ∨ (bayAt s b).state = .faulted) ∧
  ∀ e ∈ s.assembly.cons, e.2.sealPriority ≤ 2

/-- In `u` the bays `bs` have given up the jobs they hold in `s` without a counted attempt (R96 steps 2 and 3, R100):
each job, the pending pre-emptor last, has joined the head of its level as QUEUED with block offset 0 and serial absent,
and the cartridges of the active and parked jobs have moved from reserved to repair. -/
def PutBack (s u : State) (bs : List Nat) : Prop :=
  let held := bs.flatMap fun b => heldJobs (bayAt s b)
  let moved := bs.flatMap fun b =>
    heldJobs (bayAt s b) ++ if (bayAt s b).preemptor = 0 then [] else [(bayAt s b).preemptor]
  (∀ j ∈ moved, Table.get u.scheduler.jobs j =
    (Table.get s.scheduler.jobs j).map fun x => { x with state := .queued, bay := 0, offset := 0, serial := none }) ∧
  (∀ j, j ∉ moved → Table.get u.scheduler.jobs j = Table.get s.scheduler.jobs j) ∧
  (∀ l, l ≤ 3 → queueAt u l =
    (moved.filter fun j => (Table.get s.scheduler.jobs j).any fun x => x.priority == l).reverse ++ queueAt s l) ∧
  ∀ c, 1 ≤ c → c ≤ 4 →
    let n := held.countP fun j => (Table.get s.scheduler.jobs j).any fun x => x.cartridgeClass == c
    n ≤ (accountAt s c).reserved →
      accountAt u c =
        { accountAt s c with reserved := (accountAt s c).reserved - n, repair := (accountAt s c).repair + n }

/-- The OPEN lines of a patron's consignments. -/
def openLinesOf (s : State) (patron : Nat) : List Line :=
  (s.assembly.cons.filter fun e => decide (e.2.patron = patron)).flatMap fun e => openLines e.2

/-- The OPEN lines that name a title. -/
def openNaming (s : State) (title : Nat) : List Line :=
  (s.assembly.cons.flatMap fun e => openLines e.2).filter fun l => decide (l.title = title)

/-- The records of the pools and tables stand at numbers from 1 to their pool's size (R3, R7, R23, R49). -/
def InPools (s : State) : Prop :=
  (∀ e ∈ s.records.patrons, 1 ≤ e.1 ∧ e.1 ≤ s.management.geometry.p) ∧
    (∀ e ∈ s.records.titles, 1 ≤ e.1 ∧ e.1 ≤ s.management.geometry.t) ∧
    (∀ e ∈ s.requests, 1 ≤ e.1 ∧ e.1 ≤ s.management.geometry.q) ∧
    (∀ e ∈ s.assembly.cons, 1 ≤ e.1 ∧ e.1 ≤ s.management.geometry.c) ∧
    ∀ e ∈ s.scheduler.jobs, 1 ≤ e.1 ∧ e.1 ≤ s.management.geometry.j

/-- R24's law: a request stands on its title's waiting list and its patron's wish list, once on each, and on no other;
and no patron has two live requests for one title, nor one for a title on an open line of its own. -/
def RequestsListed (s : State) : Prop :=
  (∀ e ∈ s.requests,
    ((Table.get s.records.patrons e.2.patron).any fun p => decide (e.1 ∈ p.wish)) = true ∧
    ((Table.get s.records.titles e.2.title).any fun x => decide (e.1 ∈ x.waiting)) = true ∧
    (s.requests.countP fun o => decide (o.2.patron = e.2.patron ∧ o.2.title = e.2.title)) = 1 ∧
    ∀ l ∈ openLinesOf s e.2.patron, l.title ≠ e.2.title) ∧
  (∀ e ∈ s.records.patrons, e.2.wish.Nodup ∧ ∀ r ∈ e.2.wish,
    ((Table.get s.requests r).any fun q => decide (q.patron = e.1)) = true) ∧
  ∀ e ∈ s.records.titles, e.2.waiting.Nodup ∧ ∀ r ∈ e.2.waiting,
    ((Table.get s.requests r).any fun q => decide (q.title = e.1)) = true

/-- The counts and the chain of a patron (R4, R36, R171, Laws): the charge is its open lines, the overdue count its
overdue marks, the chain the consignments that carry a line, and no title stands on two of its open lines (R24). -/
def PatronsCounted (s : State) : Prop :=
  ∀ e ∈ s.records.patrons,
    e.2.charge = (openLinesOf s e.1).length ∧ ((openLinesOf s e.1).map Line.title).Nodup ∧
    e.2.overdue = (s.assembly.cons.countP fun o => decide (o.2.patron = e.1 ∧ o.2.overdue = true)) ∧
    e.2.chain.Nodup ∧
    (∀ k ∈ e.2.chain, ((Table.get s.assembly.cons k).any fun c => decide (c.patron = e.1 ∧ c.lines ≠ [])) = true) ∧
    ∀ o ∈ s.assembly.cons, o.2.patron = e.1 → o.2.lines ≠ [] → o.1 ∈ e.2.chain

/-- The copy accounts of a title (R8): out is its open lines; a SHELF title's shelf, out and repair make its copies, an
ON_DEMAND title has none. A BRAILLE title is SHELF with at least one volume (R7). -/
def CopiesBalanced (s : State) : Prop :=
  ∀ e ∈ s.records.titles,
    e.2.out = (openNaming s e.1).length ∧
    (e.2.policy = .shelf → e.2.shelf + e.2.out + e.2.repair = e.2.copies) ∧
    (e.2.policy = .onDemand → e.2.copies = 0 ∧ e.2.shelf = 0 ∧ e.2.repair = 0) ∧
    (e.2.format = .braille → e.2.policy = .shelf ∧ 1 ≤ e.2.volumes)

/-- A title that a line of a consignment of a kind names (R38 to R40). -/
def titleFitsKind (kind : ConsKind) (x : Title) : Bool :=
  match kind with
  | .pack => decide (x.policy = .onDemand)
  | .shelfAudio => decide (x.policy = .shelf ∧ x.format = .audio)
  | .braillePart => decide (x.policy = .shelf ∧ x.format = .braille)

/-- A state that a consignment of a kind can be in (R51). -/
def stateFitsKind (kind : ConsKind) (st : ConsState) : Bool :=
  match kind with
  | .pack => decide (st ≠ .picking)
  | .shelfAudio | .braillePart => decide (st = .picking ∨ st = .ready ∨ st = .releasing ∨ st = .posted)

/-- What every consignment record holds (R50 to R52): a present patron, OPEN lines that name present titles of its kind,
all parts but a set head without a line, at most one line but in a PACK, and an overdue mark only on a POSTED loan. -/
def ConsignmentsFormed (s : State) : Prop :=
  ∀ e ∈ s.assembly.cons,
    (Table.get s.records.patrons e.2.patron).isSome = true ∧ stateFitsKind e.2.kind e.2.state = true ∧
    (∀ l ∈ e.2.lines, l.state = .isOpen ∧ ((Table.get s.records.titles l.title).any (titleFitsKind e.2.kind)) = true) ∧
    (e.2.lines = [] ↔ e.2.kind = .braillePart ∧ e.2.head ≠ e.1) ∧ (e.2.kind ≠ .pack → e.2.lines.length ≤ 1) ∧
    (e.2.overdue = true → e.2.state = .posted ∧ e.2.lines ≠ [])

/-- Packs up to READY (R50, R60, R61, R74, Laws): a patron's open pack is its ASSEMBLING one, the sealed list holds the
SEALED ones and only while no job record is FREE, and a DUPLICATING one and its PACK job name each other. -/
def PacksPlaced (s : State) : Prop :=
  (∀ e ∈ s.records.patrons, e.2.openPack ≠ 0 →
    ((Table.get s.assembly.cons e.2.openPack).any fun c => decide (c.state = .assembling ∧ c.patron = e.1)) = true) ∧
  (∀ e ∈ s.assembly.cons, e.2.state = .assembling →
    ((Table.get s.records.patrons e.2.patron).any fun p => decide (p.openPack = e.1)) = true) ∧
  s.assembly.sealedList.Nodup ∧
  (∀ k ∈ s.assembly.sealedList, ((Table.get s.assembly.cons k).any fun c => decide (c.state = .sealed)) = true) ∧
  (∀ e ∈ s.assembly.cons, e.2.state = .sealed → e.1 ∈ s.assembly.sealedList) ∧
  (s.assembly.sealedList ≠ [] → Table.lowestFree s.scheduler.jobs s.management.geometry.j = none) ∧
  (∀ e ∈ s.assembly.cons, e.2.state = .duplicating →
    ((Table.get s.scheduler.jobs e.2.job).any fun x => decide (x.kind = .pack ∧ x.consignment = e.1)) = true) ∧
  ∀ e ∈ s.scheduler.jobs, e.2.kind = .pack →
    ((Table.get s.assembly.cons e.2.consignment).any fun c => decide (c.state = .duplicating ∧ c.job = e.1)) = true

/-- Braille sets (R66, R142, Law): every part names a head that stands, of one patron with it and PICKING with it, and
the parts that stand, but a returned head, and the parts returned make the set. -/
def SetsWhole (s : State) : Prop :=
  ∀ e ∈ s.assembly.cons, e.2.kind = .braillePart →
    ((Table.get s.assembly.cons e.2.head).any fun h =>
      decide (h.kind = .braillePart ∧ h.head = e.2.head ∧ h.patron = e.2.patron ∧
        (h.state = .picking ↔ e.2.state = .picking))) = true ∧
    (e.2.head = e.1 →
      (setParts s e.1).length + e.2.returned = e.2.parts + e.2.headReturned.toNat ∧ e.2.returned < e.2.parts ∧
        (e.2.headReturned = true → e.2.state = .posted))

/-- The ready queue and the outstanding releases (R105, R106): the queue holds the READY and RELEASING consignments,
once each, and the outstanding releases name the RELEASING ones, once each. -/
def ReadyQueued (s : State) : Prop :=
  s.dispatch.ready.Nodup ∧
  (∀ k ∈ s.dispatch.ready,
    ((Table.get s.assembly.cons k).any fun c => decide (c.state = .ready ∨ c.state = .releasing)) = true) ∧
  (∀ e ∈ s.assembly.cons, (e.2.state = .ready ∨ e.2.state = .releasing) → e.1 ∈ s.dispatch.ready) ∧
  (s.dispatch.outstanding.map Release.consignment).Nodup ∧
  (∀ r ∈ s.dispatch.outstanding,
    ((Table.get s.assembly.cons r.consignment).any fun c => decide (c.state = .releasing)) = true) ∧
  ∀ e ∈ s.assembly.cons, e.2.state = .releasing → e.1 ∈ s.dispatch.outstanding.map Release.consignment

/-- In SETUP nothing circulates: no request, consignment or job stands (R178, R182). -/
def SetupIsEmpty (s : State) : Prop :=
  s.management.mode = .setup → s.requests = [] ∧ s.assembly.cons = [] ∧ s.scheduler.jobs = []

/-- The SHELF audio titles of a class. -/
def shelfTitlesOf (s : State) (cls : Nat) : Table Title :=
  s.records.titles.filter fun e => decide (e.2.format = .audio ∧ e.2.policy = .shelf ∧ e.2.shelfClass = cls)

/-- A consignment whose cartridge its class counts as consigned (R148): a PACK from *job done*, a SHELF_AUDIO loan from its
allocation. -/
def countsConsigned (c : Consignment) : Bool :=
  match c.kind with
  | .pack => decide (c.state = .ready ∨ c.state = .releasing ∨ c.state = .posted)
  | .shelfAudio => decide (c.state = .picking ∨ c.state = .ready ∨ c.state = .releasing ∨ c.state = .posted)
  | .braillePart => false

/-- The counts of each class agree with the records of the other blocks (R148). -/
def CountsAgree (s : State) : Prop :=
  ∀ c, 1 ≤ c → c ≤ 4 →
    (accountAt s c).reserved =
      (s.scheduler.jobs.countP fun e =>
        decide ((e.2.state = .active ∨ e.2.state = .parked) ∧ e.2.cartridgeClass = c)) ∧
    (accountAt s c).consigned = (s.assembly.cons.countP fun e => countsConsigned e.2 && decide (e.2.cartridgeClass = c)) ∧
    (accountAt s c).shelf = ((shelfTitlesOf s c).map fun e => e.2.shelf).sum ∧
    (accountAt s c).bound = ((shelfTitlesOf s c).map fun e => e.2.repair).sum

/-- A cartridge keeps its class (R53, R60, R67, R97): every class named is one of the four, a PACK job has the class of
its pack, and a SHELF_AUDIO loan that of its title. In SETUP nothing stands on the repair bench for a title (R148). -/
def ClassesAgree (s : State) : Prop :=
  (∀ e ∈ s.records.patrons, 1 ≤ e.2.cartridgeClass ∧ e.2.cartridgeClass ≤ 4) ∧
  (∀ e ∈ s.records.titles, e.2.format = .audio → e.2.policy = .shelf → 1 ≤ e.2.shelfClass ∧ e.2.shelfClass ≤ 4) ∧
  (∀ e ∈ s.scheduler.jobs, 1 ≤ e.2.cartridgeClass ∧ e.2.cartridgeClass ≤ 4 ∧
    (e.2.kind = .pack → ((Table.get s.assembly.cons e.2.consignment).any fun c =>
      decide (c.cartridgeClass = e.2.cartridgeClass)) = true)) ∧
  (∀ e ∈ s.assembly.cons,
    (e.2.kind ≠ .braillePart → 1 ≤ e.2.cartridgeClass ∧ e.2.cartridgeClass ≤ 4) ∧
    (e.2.kind = .shelfAudio → ∀ l ∈ e.2.lines, ((Table.get s.records.titles l.title).any fun x =>
      decide (x.shelfClass = e.2.cartridgeClass)) = true)) ∧
  (s.management.mode = .setup → ∀ e ∈ s.records.titles, e.2.repair = 0)

/-- The laws of circulation together: none of them is kept by every step without the others. -/
def CirculationLaws (s : State) : Prop :=
  InPools s ∧ RequestsListed s ∧ PatronsCounted s ∧ CopiesBalanced s ∧ ConsignmentsFormed s ∧ PacksPlaced s ∧ SetsWhole s ∧
    ReadyQueued s ∧ SetupIsEmpty s

/-! ## Orders and loans -/

/-- The ORDER is taken in SERVICE and accepted: its checks pass, the wish list has room, and `r` is the lowest FREE
request record (R26, R29, R30); `p` and `x` are its patron and title. -/
def OrderAccepted (src : Byte) (patron title : U16) (s s0 : State) (p : Patron) (x : Title) (r : Nat) : Prop :=
  Takes (.order src patron title) s s0 ∧ s.management.mode = .service ∧ orderChecks s patron.toNat title.toNat = none ∧
    Table.get s.records.patrons patron.toNat = some p ∧ Table.get s.records.titles title.toNat = some x ∧
    p.wish.length < s.management.settings.listLimit ∧ Table.lowestFree s.requests s.management.geometry.q = some r

/-- In `u` the loan of consignment `k`, whose record is `c`, has been closed in `s` under verdict `v`, before its
overdue mark is looked at (R139 steps 1 to 3, R36, R140, R141, R143, R152; R159 steps 1 to 3 under RETIRE): its lines
are CLOSED and leave the charge and the out accounts, and the copy and its cartridge have moved. -/
def LoanClosed (k : Nat) (c : Consignment) (v : Verdict) (s u : State) : Prop :=
  let back := v = .pass ∨ v = .note
  let moved (x : Title) : Title :=
    if back then { x with shelf := x.shelf + 1 }
    else if v = .repair then { x with repair := x.repair + 1 }
    else { x with copies := x.copies - 1 }
  let cls := c.cartridgeClass
  let a := accountAt s cls
  u = { s with
    records.patrons := u.records.patrons, records.titles := u.records.titles, assembly.cons := u.assembly.cons,
    accounts := u.accounts, passDue := u.passDue } ∧
  (∀ j, Table.get u.assembly.cons j =
    if j = k then
      (Table.get s.assembly.cons j).map fun x => { x with lines := x.lines.map fun l => { l with state := .closed } }
    else Table.get s.assembly.cons j) ∧
  (∀ j, Table.get u.records.patrons j = (Table.get s.records.patrons j).map fun p =>
    if j = c.patron then { p with charge := p.charge - (openLines c).length } else p) ∧
  (∀ m, Table.get u.records.titles m = (Table.get s.records.titles m).map fun x =>
    let y := { x with out := x.out - (openLines c).countP fun l => decide (l.title = m) }
    if c.kind = .pack ∨ m ≠ lineTitle c then y else moved y) ∧
  (c.kind = .braillePart → u.accounts = s.accounts) ∧ (∀ d, d ≠ cls → accountAt u d = accountAt s d) ∧
  (c.kind ≠ .braillePart → 1 ≤ cls → cls ≤ 4 → 1 ≤ a.consigned →
    accountAt u cls =
      if back then
        if c.kind = .pack then { a with consigned := a.consigned - 1, blank := a.blank + 1 }
        else { a with consigned := a.consigned - 1, shelf := a.shelf + 1 }
      else if v = .repair then
        { a with consigned := a.consigned - 1, repair := a.repair + 1,
                 bound := if c.kind = .pack then a.bound else a.bound + 1 }
      else { a with consigned := a.consigned - 1, stock := a.stock - 1 }) ∧
  (u.passDue = true ↔ s.passDue = true ∨ (c.kind = .pack ∧ back))

/-- A full reset is not among the effects of this command (R188). -/
def keepsPower (i : Instr) : Prop := i ≠ .resetPin ∧ i ≠ .powerOn ∧ i ≠ .resetAfterReply

end Sys2Proof.Machine
end

