-- ==== Sys2Proof/Certificates/Slice0/Obligations.lean ====
section
/-! DEFINITION. The statements for the provers, each with the rules of spec/ it formalises. `Takes`, `replied`, `InTurn`,
`AtBay` and `AtUnit` (Safety.lean) say when a command is taken; a state between steps owes no placement pass (log 7). -/

open Sys2Proof Sys2Proof.Machine

/-! ## The step and the resets -/

/-- One step runs the command at the front of the queue on the state with the queue's rest. The queue is the model's (log
1). -/
def Obligations.StepRunsTheFrontCommand : Prop :=
  ∀ (c : Instr) (rest : List Instr) (s : State), step (s.withPending (c :: rest)) = exec c (s.withPending rest)

/-- With no command waiting one second of the seconds count passes (the model's choice, log 1): every running stall timer
counts down, a timer that stands above 1 does nothing else, and a bay whose timer stands at 1 faults with cause STALL (R79,
R94). Each expiry is an event of its own, with its own placement pass (R80); two in one second are taken from the lower bay
number up (log 25). -/
def Obligations.EmptyQueueCountsOneSecond : Prop :=
  ∀ s : State, s.pending = [] → NoPassOwed s →
    let counted : State := { s with
      scheduler.seconds := s.scheduler.seconds + 1
      scheduler.bays := s.scheduler.bays.map fun bay => if bay.running then { bay with timer := bay.timer - 1 } else bay }
    let due (b : Nat) : Prop := (bayAt s b).running = true ∧ (bayAt s b).timer ≤ 1
    ((∀ b ∈ bayNumbers, ¬due b) → step s = .next counted) ∧
    (∀ b ∈ bayNumbers, due b → (∀ o ∈ bayNumbers, o ≠ b → ¬due o) → step s = .next (settle (faultBay b .stall counted))) ∧
    (∀ b ∈ bayNumbers, ∀ c ∈ bayNumbers, b < c → due b → due c → (∀ o ∈ bayNumbers, o ≠ b → o ≠ c → ¬due o) →
      step s = .next (settle (faultBay c .stall (settle (faultBay b .stall counted))))) ∧
    (∀ b ∈ bayNumbers, (bayAt s b).running = true → (bayAt s b).timer = 1 →
      ∃ t, step s = .next t ∧ t.scheduler.seconds = s.scheduler.seconds + 1 ∧ (bayAt t b).state = .faulted ∧
        (bayAt t b).cause = .stall ∧ (bayAt t b).running = false ∧ (bayAt t b).active = 0 ∧ (bayAt t b).stack = [] ∧
        (bayAt t b).preemptor = 0 ∧ t.pending = [] ∧ t.days = s.days ∧ t.returns = s.returns ∧ t.dispatch = s.dispatch)

/-- The values the spec gives for the state after a full reset, block by block (R21, R23, R49, R73 to R75, R101, R105, R106,
R112, R114, R124, R130, R135, R136, R147, R148, R163, R166, R178, R181, R183, R184, R188, R198 to R200, R206). The stopped
stall timers' reading and the seconds count are the model's (log 24) and are not stated. -/
def Obligations.ResetHoldsTheSpecValues : Prop :=
  let s := State.reset
  (s.management.mode = .setup ∧ s.management.geometry = ⟨0, 0, 0, 0, 0⟩ ∧ (∀ c, capacityOf s c = 0) ∧
    s.management.settings = ⟨42, 56, 2, 0, 30, 32, .onHit, 0, 0, 0⟩ ∧ s.management.mask = 0 ∧
    ∀ n, bankGet s.management.notices n {} = ⟨false, 0, 0⟩) ∧
  (s.records.patrons = [] ∧ s.records.agencies = [] ∧ s.records.titles = [] ∧ s.requests = [] ∧ s.assembly.cons = [] ∧
    s.assembly.sealedList = [] ∧ s.assembly.picks = [] ∧ s.assembly.picksSent = 0) ∧
  (s.scheduler.jobs = [] ∧ (∀ l, queueAt s l = []) ∧
    ∀ b, (bayAt s b).address = 0 ∧ (bayAt s b).classes = 0 ∧ (bayAt s b).preempt = false ∧ (bayAt s b).state = .offline ∧
      (bayAt s b).active = 0 ∧ (bayAt s b).stack = [] ∧ (bayAt s b).preemptor = 0 ∧ (bayAt s b).running = false ∧
      (bayAt s b).cause = .none ∧ (bayAt s b).owed = []) ∧
  ((∀ w, windowAt s w = ⟨false, 0, 0, 1, .concession, 0, 30000, false⟩) ∧ s.dispatch.ready = [] ∧
    s.dispatch.outstanding = [] ∧ s.dispatch.blocked = 0 ∧ s.dispatch.half0 = [] ∧ s.dispatch.half1 = [] ∧
    s.dispatch.filling = false) ∧
  (s.returns.queue = [] ∧ s.returns.item = none ∧ s.returns.owedAnswer = none ∧ s.returns.suspended = false ∧
    s.returns.suspendPending = false ∧ (∀ c, channelAt s.returns c = ⟨.off, .note, .none, .absolute⟩) ∧
    (∀ e, thresholdAt s.returns e = 0) ∧ s.returns.hits = 0 ∧ s.returns.high = 0 ∧
    ∀ c, storedAt s.returns c = ⟨false, 0, 0⟩) ∧
  (∀ c, accountAt s c = ⟨0, 0, 0, 0, 0, 0, 0⟩) ∧ s.days = ⟨0, false, 0, 0, 0⟩ ∧
  (s.line.officeIn = [] ∧ s.line.floorIn = [] ∧ s.line.officeSending = none ∧ s.line.floorSending = none ∧
    s.line.officeRx = [] ∧ s.line.replySlot = none ∧ s.line.forward = none ∧ s.line.floorTx = [] ∧ s.line.turn = none ∧
    s.line.pollSet = 0 ∧ s.line.pollPos = 0 ∧ s.line.officeFaults = 0 ∧ s.line.floorFaults = 0 ∧
    (∀ k, missedAt s k = 0) ∧ s.line.officeRate = .r115200 ∧ s.line.floorRate = .r115200)

/-- RESET_PIN and POWER_ON give the full-reset state from every state. RESET is answered OK and changes nothing else; the
full reset follows once its REPLY has been sent, and not before (R188, R195). The command queue, the seconds count and the
count of drawn free values stand (log 1, log 14, log 24). -/
def Obligations.ResetCommandsGiveTheResetState : Prop :=
  ∀ s : State,
    let after : State := { State.reset with pending := s.pending, scheduler.seconds := s.scheduler.seconds, freeIx := s.freeIx }
    exec .resetPin s = .next after ∧ exec .powerOn s = .next after ∧
    (∀ s0, Takes .reset s s0 →
      exec .reset s = .next { s0 with line.replySlot := some ⟨1, 0, 80, [1, 0]⟩, line.answering := false }) ∧
    (s.line.officeSending = some ⟨1, 0, 80, [1, 0]⟩ → exec .resetAfterReply s = .next after) ∧
    (s.line.officeSending ≠ some ⟨1, 0, 80, [1, 0]⟩ → exec .resetAfterReply s = .next s)

/-! ## Laws that every step keeps, from every state -/

/-- R148's law: for each class blank + reserved + consigned + shelf + repair = stock, and title-bound repair is in
0..repair. -/
def Obligations.EveryStepKeepsAccountsBalanced : Prop :=
  ∀ s t : State, AccountsBalanced s → step s = .next t → AccountsBalanced t

/-- R106's law: releases outstanding are at most 4, each with its place in the filling half; the other half holds at most
64. -/
def Obligations.EveryStepKeepsManifestBounded : Prop :=
  ∀ s t : State, ManifestBounded s → step s = .next t →
    ManifestBounded t ∧ t.dispatch.half0.length + t.dispatch.half1.length + t.dispatch.outstanding.length ≤ 128

/-- R171's law: a patron is held exactly when the hold limit is not 0 and its overdue count is at or above it. -/
def Obligations.EveryStepKeepsHeldByLimit : Prop :=
  ∀ s t : State, HeldByLimit s → step s = .next t → HeldByLimit t

/-- R6: a member count is always the number of present patrons that name the agency, and a present patron always names a
present agency or none. The canonical form of the tables is the model's (log 6). -/
def Obligations.EveryStepKeepsMembersCounted : Prop :=
  ∀ s t : State, TablesCanonical s → MembersCounted s → step s = .next t → MembersCounted t

/-- The tables keep the model's canonical form (log 6), so that equal tables are equal data. The office receive queue, the
floor transmit queue and the return queue hold at most 16, 32 and 64 (R122, R194, R197). -/
def Obligations.EveryStepKeepsTablesAndQueues : Prop :=
  (∀ s t : State, TablesCanonical s → step s = .next t → TablesCanonical t) ∧
  (∀ s t : State, QueuesBounded s → step s = .next t → QueuesBounded t)

/-- R74's and R75's laws: every job stands in exactly one place, one queue or one place of one bay, the places of a bay in
the order of their priorities. The canonical form of the tables is the model's (log 6). -/
def Obligations.EveryStepKeepsJobsPlaced : Prop :=
  ∀ s t : State, TablesCanonical s → JobsPlaced s → step s = .next t → JobsPlaced t

/-- The laws of circulation, which need one another and the places of the jobs: R24's (each request on one waiting list
and on its patron's wish list), R36's and R4's (the charge and the chain), R8's (shelf, out and repair make the copies),
R60's, R61's and R74's (the sealed list, a DUPLICATING pack and its job), R142's (the parts of a set), R105's and R106's
(the ready queue and the outstanding releases), and R171's count of overdue marks. With them stands R148's agreement:
each class counts as reserved its ACTIVE and PARKED jobs, as consigned its cartridges out, and as shelf and title-bound
repair the sums over its SHELF audio titles. The canonical form of the tables is the model's (log 6). -/
def Obligations.EveryStepKeepsCirculationLaws : Prop :=
  ∀ s t : State, TablesCanonical s → JobsPlaced s → CirculationLaws s → step s = .next t →
    CirculationLaws t ∧
      (AccountsBalanced s → CountsAgree s → ClassesAgree s → CountsAgree t ∧ ClassesAgree t)

/-- R178's law: in SERVICE no step but a full reset changes the mode, the geometry or a class capacity. R163: today changes
only by SET_DAY in SETUP and by an accepted DAY in SERVICE (full resets apart), so while a sweep runs in SERVICE it does not
change. -/
def Obligations.ShapeAndTodayStandInService : Prop :=
  (∀ (c : Instr) (s t : State), keepsPower c → s.management.mode = .service → exec c s = .next t →
     t.management.mode = .service ∧ t.management.geometry = s.management.geometry ∧
       t.management.capacity = s.management.capacity) ∧
  (∀ (c : Instr) (s t : State), keepsPower c → exec c s = .next t → t.days.today ≠ s.days.today →
     ((∃ d, c = .setDay d) ∧ s.management.mode = .setup) ∨
     ((∃ d, c = .day d) ∧ s.management.mode = .service ∧ s.days.sweeping = false))

/-- R131's law: channel configurations and threshold entries change only while inspection is SUSPENDED, full resets apart.
-/
def Obligations.ChannelLoadsOnlyWhileSuspended : Prop :=
  ∀ (c : Instr) (s t : State), keepsPower c → exec c s = .next t →
    (t.returns.channels ≠ s.returns.channels ∨ t.returns.thresholds ≠ s.returns.thresholds) →
    s.returns.suspended = true ∧ s.returns.suspendPending = false

/-- No command stops the part (log 34), and no step leaves a placement pass owed (R80, log 7) or a request without its REPLY
(R194, log 10). -/
def Obligations.EveryStepAnswersANextState : Prop :=
  ∀ s : State, NoPassOwed s →
    ∃ t, step s = .next t ∧ NoPassOwed t ∧ (s.line.answering = false → t.line.answering = false)

/-- The full-reset state meets every law above. -/
def Obligations.ResetMeetsEveryLaw : Prop :=
  NoPassOwed State.reset ∧ AccountsBalanced State.reset ∧ ManifestBounded State.reset ∧ HeldByLimit State.reset ∧
    MembersCounted State.reset ∧ TablesCanonical State.reset ∧ QueuesBounded State.reset ∧ JobsPlaced State.reset ∧
    CirculationLaws State.reset ∧ CountsAgree State.reset ∧ ClassesAgree State.reset

/-! ## Frames and requests -/

/-- A character is 12 bits in R190's order, with an odd number of ones among its data bits, mark bit and parity bit when
the part sends it; a port reads it back from those bits, whatever follows them, and from an idle line before them nothing
(log 44). A frame sent by R190 and R191 is received whole, from its bits as from its characters: at a port that is
receiving no frame, its characters complete that frame without fault, whatever follows them. Its bytes, check included, sum
to 0 mod 256; a header above 63 or a length byte above 240 is a LENGTH failure, and a check that does not match the sum a
CHECK failure (R191 steps 2, 3 and 5, R192). A character without the mark
bit, or with it and a parity or framing error, begins no frame and is ignored (R191 step 1, R192; also in a reply turn, log
43). A parity or framing error in any character of a frame after its header discards
the frame with the causes of that character (R190, R192): with both, when both are in it (log 23). -/
def Obligations.FramesCrossTheLine : Prop :=
  (∀ c : Chr,
     Chr.bits c =
       [false, c.data.getLsbD 0, c.data.getLsbD 1, c.data.getLsbD 2, c.data.getLsbD 3, c.data.getLsbD 4, c.data.getLsbD 5,
         c.data.getLsbD 6, c.data.getLsbD 7, c.mark, c.parity, c.stop] ∧
     (∀ rest, charsOn (Chr.bits c ++ rest) = c :: charsOn rest) ∧
     (Chr.faults c = 0 ↔ (((Chr.bits c).drop 1).take 10).count true % 2 = 1 ∧ (Chr.bits c)[11]? = some true)) ∧
  (∀ (mark : Bool) (b : Byte), Chr.faults (charOf mark b) = 0) ∧
  (∀ (n : Nat) (line : List Bool), charsOn (List.replicate n true ++ line) = charsOn line) ∧
  (∀ (f : Frame) (rest : List Chr), f.dst.toNat ≤ 63 → f.payload.length ≤ 240 →
     receive (Frame.chars f ++ rest) = .frame f) ∧
  (∀ f : Frame,
     ∃ check, Frame.chars f =
         charOf true f.dst :: ([f.src, f.kind, byteOf f.payload.length] ++ f.payload ++ [check]).map (charOf false) ∧
       (([f.dst, f.src, f.kind, byteOf f.payload.length] ++ f.payload ++ [check]).map BitVec.toNat).sum % 256 = 0) ∧
  (∀ (dst src kind length : Byte) (rest : List Chr),
     (63 < dst.toNat → receive (charOf true dst :: rest) = .fault 4) ∧
     (dst.toNat ≤ 63 → 240 < length.toNat →
       receive (charOf true dst :: charOf false src :: charOf false kind :: charOf false length :: rest) = .fault 4) ∧
     ∀ (payload : List Byte) (check : Byte), dst.toNat ≤ 63 → length.toNat ≤ 240 → payload.length = length.toNat →
       (([dst, src, kind, length] ++ payload ++ [check]).map BitVec.toNat).sum % 256 ≠ 0 →
       receive (charOf true dst :: ([src, kind, length] ++ payload ++ [check]).map (charOf false) ++ rest) = .fault 8) ∧
  (∀ f : Frame,
     (Frame.bits f).length = 12 * (f.payload.length + 5) ∧ charsOn (Frame.bits f) = Frame.chars f ∧
     (f.dst.toNat ≤ 63 → f.payload.length ≤ 240 → receive (charsOn (Frame.bits f)) = .frame f)) ∧
  (∀ (c : Chr) (rest : List Chr), (c.mark = false ∨ Chr.faults c ≠ 0) → receive (c :: rest) = receive rest) ∧
  (∀ (f : Frame) (before after rest : List Chr) (x c : Chr), f.dst.toNat ≤ 63 → f.payload.length ≤ 240 →
     Frame.chars f = before ++ x :: after → before ≠ [] → Chr.faults c ≠ 0 →
     receive (before ++ c :: rest) = .fault (Chr.faults c))

/-- Reading back: for every well-formed command that stands for an office frame, the part reads that command from its frame,
every field at every value its bytes can carry (R193, R201, R203). The same of every floor frame of a bay, the pick station,
the sorter and the scanner, and of a frame to the office, by the layouts of R202 (R196, R199). -/
def Obligations.RequestsReadBack : Prop :=
  (∀ (i : Instr) (f : Frame), WellFormed i = true → requestFrame i = some f → requestOf f = i) ∧
  (∀ (i : Instr) (f : Frame), WellFormed i = true → floorFrame i = some f →
    (∀ g, i ≠ .strayFloorFrame g ∧ i ≠ .floorFrameNotTaken g) →
    floorCommandOf f = i ∧ (i ≠ .floorForward f → f.dst = 0 ∧ floorLengthOk f.kind.toNat f.payload = true))

/-- The requests that fix the shape of the part are refused with LOCKED in SERVICE, and those on circulation with WRONG_MODE
in SETUP; the reply carries the mode and nothing changes (R178). R193, cases 1 to 3: a management kind from a gateway is
NOT_AUTHORISED; otherwise a kind that neither the catalogue nor the order frames list, or a payload length that is not the
kind's, is BAD_FIELD. Nothing else changes. -/
def Obligations.RequestsAreRefusedBeforeTheirOwner : Prop :=
  (∀ (i : Instr) (s s0 : State), Takes i s s0 →
     (s.management.mode = .service →
       ((∃ p t q c j, i = .setGeometry p t q c j) ∨ (∃ c n, i = .setClass c n) ∨ (∃ o f, i = .setLines o f) ∨
         (∃ d, i = .setDay d) ∨ i = .openService) →
       exec i s = .next (replied i .locked [1] s0)) ∧
     (s.management.mode = .setup →
       (i = .restart ∨ (∃ b, i = .bayOnline b) ∨ (∃ b, i = .bayOffline b) ∨ (∃ t n, i = .buildStock t n) ∨
         (∃ j, i = .raiseJob j) ∨ (∃ p, i = .flushPack p) ∨ (∃ d, i = .day d) ∨ (∃ k, i = .declareLost k) ∨
         (∃ r p t, i = .order r p t) ∨ (∃ r p t, i = .probe r p t) ∨ ∃ r p t, i = .cancel r p t) →
       exec i s = .next (replied i .wrongMode [0] s0))) ∧
  (∀ (src kind : Byte) (payload : List Byte) (s s0 : State), Takes (.unlistedManagementKind src kind payload) s s0 →
     ((1 ≤ kind.toNat ∧ kind.toNat ≤ 63 ∧ src ≠ 1) →
       exec (.unlistedManagementKind src kind payload) s =
         .next { s0 with line.replySlot := some ⟨src, 0, 80, [kind, 21]⟩, line.answering := false }) ∧
     (¬(1 ≤ kind.toNat ∧ kind.toNat ≤ 63 ∧ src ≠ 1) → requestLength kind.toNat ≠ some payload.length →
       exec (.unlistedManagementKind src kind payload) s =
         .next { s0 with line.replySlot := some ⟨src, 0, 80, [kind, 26]⟩, line.answering := false }))

/-! ## Setup (09) -/

/-- SET_GEOMETRY in SETUP (R179, R180, R148): within the ranges every table is emptied and the new sizes are taken, shelf
counts move to blank, and the reply carries the geometry and the budget total; outside them BAD_FIELD, and nothing changes.
Table memory is laid out table after table from word 0, in R180's order; its words' contents are not held (log 38). -/
def Obligations.GeometryEmptiesEveryTable : Prop :=
  (∀ (p t q c j : U16) (s s0 : State), Takes (.setGeometry p t q c j) s s0 → s.management.mode = .setup →
    ((1 ≤ p.toNat ∧ 1 ≤ t.toNat ∧ t.toNat ≤ 32767 ∧ 1 ≤ q.toNat ∧ 1 ≤ c.toNat ∧ c.toNat ≤ 32767 ∧ 1 ≤ j.toNat ∧
        j.toNat ≤ 4095) →
      exec (.setGeometry p t q c j) s =
        .next (replied (.setGeometry p t q c j) .ok
          (bytesLE 2 p.toNat ++ bytesLE 2 t.toNat ++ bytesLE 2 q.toNat ++ bytesLE 2 c.toNat ++ bytesLE 2 j.toNat ++
            bytesLE 3 ((p.toNat + 1) * 8 + 256 * 8 + (t.toNat + 1) * 8 + (q.toNat + 1) * 4 + (c.toNat + 1) * 16 +
              (j.toNat + 1) * 8))
          { s0 with
            records := { patrons := [], agencies := [], titles := [] }
            requests := []
            assembly := { cons := [], sealedList := [], picks := [], picksSent := 0 }
            scheduler.jobs := []
            scheduler.queues := Vector.replicate 4 []
            dispatch := State.reset.dispatch
            accounts := s0.accounts.map fun a => { a with blank := a.blank + a.shelf, shelf := 0 }
            management.geometry := ⟨p.toNat, t.toNat, q.toNat, c.toNat, j.toNat⟩ })) ∧
    ((p = 0 ∨ t = 0 ∨ 32767 < t.toNat ∨ q = 0 ∨ c = 0 ∨ 32767 < c.toNat ∨ j = 0 ∨ 4095 < j.toNat) →
      exec (.setGeometry p t q c j) s = .next (replied (.setGeometry p t q c j) .badField [] s0))) ∧
  (∀ g : Geometry, g ≠ ⟨0, 0, 0, 0, 0⟩ →
    let agency := (g.p + 1) * 8
    let title := agency + 256 * 8
    let request := title + (g.t + 1) * 8
    let consignment := request + (g.q + 1) * 4
    let job := consignment + (g.c + 1) * 16
    (List.range 6).map (tableStart g) = [0, agency, title, request, consignment, job] ∧
      budgetTotal g = job + (g.j + 1) * 8 ∧
      ∀ i, recordWord g 0 i = i * 8 ∧ recordWord g 1 i = agency + i * 8 ∧ recordWord g 2 i = title + i * 8 ∧
        recordWord g 3 i = request + i * 4 ∧ recordWord g 4 i = consignment + i * 16 ∧ recordWord g 5 i = job + i * 8)

/-- SET_CLASS and SET_DAY in SETUP (R181, R164). SET_LINES is answered before its rates are taken (R183, R195). They take
effect once that REPLY has been sent: the office port's then, a frame in reception there being discarded with FRAMING; the
floor port's when no frame is being sent on it, and before the next one begins. Each REPLY keeps its own pair of rates (log
29). -/
def Obligations.ClassDayAndLineRatesAreSet : Prop :=
  (∀ s s0 : State, s.management.mode = .setup →
    (∀ (cls : Byte) (capacity : U24), Takes (.setClass cls capacity) s s0 →
      ((1 ≤ cls.toNat ∧ cls.toNat ≤ 4 ∧ 1024 ≤ capacity.toNat ∧ capacity.toNat ≤ 4194304) →
        ∃ t, exec (.setClass cls capacity) s = .next (replied (.setClass cls capacity) .ok [] t) ∧
          t = { s0 with management.capacity := t.management.capacity } ∧ capacityOf t cls.toNat = capacity.toNat ∧
          ∀ c, c ≠ cls.toNat → capacityOf t c = capacityOf s0 c) ∧
      ((cls = 0 ∨ 4 < cls.toNat ∨ capacity.toNat < 1024 ∨ 4194304 < capacity.toNat) →
        exec (.setClass cls capacity) s = .next (replied (.setClass cls capacity) .badField [] s0))) ∧
    (∀ d : U16, Takes (.setDay d) s s0 →
      exec (.setDay d) s = .next (replied (.setDay d) .ok (bytesLE 2 d.toNat) { s0 with days.today := d }))) ∧
  (∀ s s0 : State,
    (∀ (o f : Byte) (ro rf : LineRate), Takes (.setLines o f) s s0 → s.management.mode = .setup →
      o.toNat = rateValue ro → f.toNat = rateValue rf →
      exec (.setLines o f) s =
        .next (replied (.setLines o f) .ok [] { s0 with line.ratesNext := s0.line.ratesNext ++ [(ro, rf)] })) ∧
    (∀ o f : Byte, Takes (.setLines o f) s s0 → s.management.mode = .setup → (2 < o.toNat ∨ 2 < f.toNat) →
      exec (.setLines o f) s = .next (replied (.setLines o f) .badField [] s0)) ∧
    (∀ ro rf rest, s.line.ratesNext = (ro, rf) :: rest → s.line.officeSending = some ⟨1, 0, 80, [5, 0]⟩ →
      let u : State :=
        { s with
          line.officeRate := ro, line.floorNext := some rf, line.ratesNext := rest, line.officeSending := none }
      (s.line.officeIn = [] → exec .officeRateChange s = .next u) ∧
      (s.line.officeIn ≠ [] →
        exec .officeRateChange s =
          .next (latch .lineFault 0
            { u with
              line.officeIn := [], line.officeLost := false, line.officeFaults := s.line.officeFaults ||| 2 }))) ∧
    ((s.line.officeSending ≠ some ⟨1, 0, 80, [5, 0]⟩ ∨ s.line.ratesNext = []) → exec .officeRateChange s = .next s) ∧
    (∀ r, s.line.floorNext = some r → s.line.floorSending = none →
      exec .floorRateChange s = .next { s with line.floorRate := r, line.floorNext := none }) ∧
    (s.line.floorNext ≠ none → exec .floorSend s = .next s ∧ exec .poll s = .next s) ∧
    ((s.line.floorNext = none ∨ s.line.floorSending ≠ none) → exec .floorRateChange s = .next s))

/-- OPEN_SERVICE (R182): LOCKED in SERVICE; in SETUP its three checks in order, each with the item or the total of its
reply; then the mode becomes SERVICE, the poll set is formed from the station roles that name a station (R199), the reply
carries the budget total, and nothing else changes. -/
def Obligations.OpenServiceChecksAndOpens : Prop :=
  ∀ s s0 : State, Takes .openService s s0 →
    (s.management.mode = .service → exec .openService s = .next (replied .openService .locked [1] s0)) ∧
    (s.management.mode = .setup →
      let g := s.management.geometry
      let total := (g.p + 1) * 8 + 256 * 8 + (g.t + 1) * 8 + (g.q + 1) * 4 + (g.c + 1) * 16 + (g.j + 1) * 8
      (g = ⟨0, 0, 0, 0, 0⟩ → exec .openService s = .next (replied .openService .notFound [0] s0)) ∧
      (g ≠ ⟨0, 0, 0, 0, 0⟩ →
        (∀ c, 1 ≤ c ∧ c ≤ 4 → capacityOf s c = 0 → (∀ b, 1 ≤ b → b < c → capacityOf s b ≠ 0) →
          exec .openService s = .next (replied .openService .notFound [byteOf c] s0)) ∧
        ((∀ c, 1 ≤ c ∧ c ≤ 4 → capacityOf s c ≠ 0) →
          (1048576 < total → exec .openService s = .next (replied .openService .budget (bytesLE 3 total) s0)) ∧
          (total ≤ 1048576 →
            ∃ t, exec .openService s = .next (replied .openService .ok (bytesLE 3 total) t) ∧
              t = { s0 with management.mode := .service, line.pollSet := t.line.pollSet } ∧
              ∀ k, k < 64 → (t.line.pollSet.getLsbD k = true ↔
                k ≠ 0 ∧ (k = s.management.settings.pickRole ∨ k = s.management.settings.sorterRole ∨
                  k = s.management.settings.scannerRole))))))

/-- SET_SETTING for the settings other than the station roles (R184, R185): a value in range is written and starts no work,
but for a changed hold limit, which evaluates held for every present patron in ascending index, each *headroom* walk of a
patron whose hold clears taken whole before the next (R174); a value outside the range is BAD_FIELD. -/
def Obligations.SettingsAreWritten : Prop :=
  ∀ (setting value : Byte) (s s0 : State), Takes (.setSetting setting value) s s0 →
    let v := value.toNat
    let i := Instr.setSetting setting value
    let ok (x : Settings) : Prop := exec i s = .next (replied i .ok [value] { s0 with management.settings := x })
    let x := s.management.settings
    (setting = 0 → 1 ≤ v → ok { x with audioLoan := v }) ∧ (setting = 1 → 1 ≤ v → ok { x with brailleLoan := v }) ∧
    (setting = 2 → v ≤ 7 → ok { x with packHold := v }) ∧ (setting = 4 → 5 ≤ v → ok { x with stallSeconds := v }) ∧
    (setting = 5 → 1 ≤ v ∧ v ≤ 64 → ok { x with listLimit := v }) ∧
    (∀ m, setting = 6 → noticeModeValue m = v → ok { x with noticeMode := m }) ∧
    (setting = 3 → v ≤ 15 →
      (v = x.holdLimit → ok x) ∧
      (v ≠ x.holdLimit → ∃ t, exec i s = .next t ∧ t.line.replySlot = some ⟨1, 0, 80, [8, 0, value]⟩ ∧
        t.management.settings = { x with holdLimit := v } ∧ t.days = s.days ∧ t.returns = s.returns ∧
        t.dispatch = s.dispatch ∧
        ∀ k p, Table.get t.records.patrons k = some p → (p.held = true ↔ v ≠ 0 ∧ v ≤ p.overdue)) ∧
      (v ≠ x.holdLimit →
        ∃ us : List State, us.length = s.records.patrons.length + 1 ∧
          us.head? = some { s0 with management.settings := { x with holdLimit := v } } ∧
          (∀ u, us.getLast? = some u → exec i s = .next (replied i .ok [value] (settle u))) ∧
          ∀ n u u' k p, us[n]? = some u → us[n + 1]? = some u' → (s.records.patrons[n]?).map Prod.fst = some k →
            Table.get u.records.patrons k = some p →
            let held := decide (v ≠ 0 ∧ v ≤ p.overdue)
            ∃ w, w = { u with records.patrons := w.records.patrons } ∧
              Table.get w.records.patrons k = some { p with held := held } ∧
              (∀ j, j ≠ k → Table.get w.records.patrons j = Table.get u.records.patrons j) ∧
              u' = if p.held = true ∧ held = false then headroom k w else w)) ∧
    (((setting.toNat ≤ 1 ∧ v = 0) ∨ (setting = 2 ∧ 7 < v) ∨ (setting = 3 ∧ 15 < v) ∨ (setting = 4 ∧ v < 5) ∨
        (setting = 5 ∧ (v = 0 ∨ 64 < v)) ∨ (setting = 6 ∧ 2 < v) ∨
        (7 ≤ setting.toNat ∧ setting.toNat ≤ 9 ∧ ((1 ≤ v ∧ v ≤ 15) ∨ 62 < v)) ∨ 9 < setting.toNat) →
      exec i s = .next (replied i .badField [] s0))

/-- SET_SETTING for the three station roles (R186): CONFLICT with a configured bay or another role; in SETUP the address
alone is recorded; in SERVICE a changed address moves in the poll set and the block that owns the role acts (R68, R119,
R145). The pick role's change makes every pick request pending again, in ascending index, and hands the PICKs on (R68). The
sorter's change empties the outstanding releases and the blocked chutes and makes each RELEASING consignment
READY where it stands, before the release pass (R119). -/
def Obligations.StationRolesAreWritten : Prop :=
  ∀ (setting value : Byte) (s s0 : State), Takes (.setSetting setting value) s s0 →
    let v := value.toNat
    let i := Instr.setSetting setting value
    let x := s.management.settings
    let roles := [x.pickRole, x.sorterRole, x.scannerRole]
    let written : Settings :=
      if setting = 7 then { x with pickRole := v } else if setting = 8 then { x with sorterRole := v }
      else { x with scannerRole := v }
    let old := if setting = 7 then x.pickRole else if setting = 8 then x.sorterRole else x.scannerRole
    let clash := v ≠ 0 ∧ (v ∈ roles.eraseIdx (setting.toNat - 7) ∨ ∃ b ∈ bayNumbers, (bayAt s b).address = v)
    (7 ≤ setting.toNat ∧ setting.toNat ≤ 9) → (v = 0 ∨ (16 ≤ v ∧ v ≤ 62)) →
    (clash → exec i s = .next (replied i .conflict [] s0)) ∧
    (¬clash →
      (v = old → exec i s = .next (replied i .ok [value] s0)) ∧
      (s.management.mode = .setup →
        exec i s = .next (replied i .ok [value] { s0 with management.settings := written })) ∧
      (s.management.mode = .service → v ≠ old →
        ∃ t, exec i s = .next t ∧ t.line.replySlot = some ⟨1, 0, 80, [8, 0, value]⟩ ∧
          t.management = { s0.management with settings := written } ∧ t.records = s.records ∧ t.requests = s.requests ∧
          t.scheduler = s.scheduler ∧ t.accounts = s.accounts ∧ t.days = s.days ∧
          (∀ k, k < 64 → (t.line.pollSet.getLsbD k = true ↔
            (v ≠ 0 ∧ k = v) ∨ (s0.line.pollSet.getLsbD k = true ∧ (old = 0 ∨ k ≠ old)))) ∧
          (setting = 7 →
            t.assembly.cons = s.assembly.cons ∧ t.dispatch = s.dispatch ∧ t.returns = s.returns ∧
            ∃ u, t = replied i .ok [value] (handPicks u.assembly.picks.length u) ∧
              u = { s0 with
                line.pollSet := t.line.pollSet
                management.settings := written
                assembly.picks :=
                  (s.assembly.cons.filter fun e => decide (e.2.state = .picking ∧ e.2.lines ≠ [])).map Prod.fst
                assembly.picksSent := 0 }) ∧
          (setting = 8 → t.dispatch.blocked = 0 ∧ t.dispatch.ready = s.dispatch.ready ∧ t.returns = s.returns ∧
            ∃ u, t = replied i .ok [value] (passReleases u) ∧
              u = { s0 with
                line.pollSet := t.line.pollSet
                management.settings := written
                assembly.cons := s.assembly.cons.map fun e =>
                  if e.2.state = .releasing then (e.1, { e.2 with state := .ready }) else e
                dispatch := { s.dispatch with outstanding := [], blocked := 0 } }) ∧
          (setting = 9 → t.returns = { s.returns with
            item := none, queue := [], owedAnswer := none, suspendPending := false,
            suspended := s.returns.suspended || s.returns.suspendPending } ∧
            t.assembly = s.assembly ∧ t.dispatch = s.dispatch)))

/-- RESTART in SERVICE (R189, R100, R120, R146): what it empties, what it keeps, its REPLY and its broadcast. Every bay's
jobs are put back from bay 1 upward (R96 steps 2 and 3), every RELEASING consignment is READY where it stands and every pick
request pending again, before the pending picks are handed on and the release pass is taken. A frame in reception goes on as
log 13 says; a stopped timer keeps its reading (log 24); no placement pass is taken (log 12). -/
def Obligations.RestartClearsLineAndBays : Prop :=
  ∀ s s0 : State, Takes .restart s s0 → s.management.mode = .service →
    ∃ t, exec .restart s = .next t ∧ t.line.replySlot = some ⟨1, 0, 80, [2, 0]⟩ ∧
      t.line.floorTx.head? = some ⟨63, 0, 98, []⟩ ∧ t.line.officeRx = [] ∧ t.line.forward = none ∧ t.line.turn = none ∧
      t.line.officeFaults = 0 ∧ t.line.floorFaults = 0 ∧ (∀ k, missedAt t k = 0) ∧
      (∀ k, k < 64 → (t.line.pollSet.getLsbD k = true ↔
        k ≠ 0 ∧ (k = s.management.settings.pickRole ∨ k = s.management.settings.sorterRole ∨
          k = s.management.settings.scannerRole))) ∧
      t.line.officeSending = s.line.officeSending ∧ t.line.floorSending = s.line.floorSending ∧
      t.line.officeRate = s.line.officeRate ∧ t.line.floorRate = s.line.floorRate ∧ t.line.pollPos = 0 ∧
      t.management = s.management ∧ t.records = s.records ∧ t.requests = s.requests ∧ t.days = s.days ∧
      (∀ b ∈ bayNumbers, bayAt t b =
        { bayAt s b with state := .offline, active := 0, stack := [], preemptor := 0, running := false, owed := [] }) ∧
      t.dispatch.half0 = s.dispatch.half0 ∧ t.dispatch.half1 = s.dispatch.half1 ∧ t.dispatch.filling = s.dispatch.filling ∧
      t.dispatch.windows = s.dispatch.windows ∧ t.dispatch.ready = s.dispatch.ready ∧ t.dispatch.blocked = 0 ∧
      t.returns = { s.returns with
        queue := [], item := none, owedAnswer := none, suspendPending := false,
        suspended := s.returns.suspended || s.returns.suspendPending } ∧
      (∀ c, accountAt t c = { accountAt s c with reserved := (accountAt t c).reserved, repair := (accountAt t c).repair }) ∧
      (∀ k, (Table.get t.assembly.cons k).map Consignment.lines = (Table.get s.assembly.cons k).map Consignment.lines) ∧
      NoPassOwed t ∧ t.line.officeIn = s.line.officeIn ∧ t.line.floorIn = s.line.floorIn ∧
      (t.line.officeLost = true ↔ s.line.officeLost = true ∨ s.line.officeIn ≠ []) ∧
      (s.line.floorIn = [] → t.line.carried = none) ∧
      (∀ turn, s.line.floorIn ≠ [] → s.line.early = false → s.line.turn = some turn →
        t.line.carried = some turn.station) ∧
      ∃ u, t = replied .restart .ok [] (passReleases (handPicks u.assembly.picks.length u)) ∧
        u.line.floorTx = [⟨63, 0, 98, []⟩] ∧ PutBack s u bayNumbers ∧
        u.assembly =
          { s.assembly with
            cons := s.assembly.cons.map fun e =>
              if e.2.state = .releasing then (e.1, { e.2 with state := .ready }) else e
            picks := (s.assembly.cons.filter fun e => decide (e.2.state = .picking ∧ e.2.lines ≠ [])).map Prod.fst
            picksSent := 0 } ∧
        u.dispatch = { s.dispatch with outstanding := [], blocked := 0 }

/-! ## The Record Store (01) -/

/-- LOAD_PATRON (R10 to R14): the checks that refuse it, a load of an absent patron, a reload of a present one, and the
delete. The static fields stand as their bytes name them. -/
def Obligations.PatronLoadsAndDeletes : Prop :=
  ∀ (k : U16) (present status cls level formats cartridge quota agency : Byte) (code : U24) (s s0 : State)
    (st : PatronStatus) (pc : PatronClass),
    let i := Instr.loadPatron k present status cls level formats cartridge quota agency code
    Takes i s s0 →
    let fit := status.toNat ≤ 1 ∧ cls.toNat ≤ 2 ∧ level.toNat ≤ 3 ∧ 1 ≤ formats.toNat ∧ formats.toNat ≤ 3 ∧ 1 ≤ cartridge.toNat ∧ cartridge.toNat ≤ 4 ∧
      1 ≤ quota.toNat ∧ quota.toNat ≤ 15
    let static : Patron :=
      { status := st, patronClass := pc, level := level.toNat, audio := formats.getLsbD 0, braille := formats.getLsbD 1,
        cartridgeClass := cartridge.toNat, quota := quota.toNat, agency := agency.toNat, code := code.toNat }
    let refused (c : Code) : Prop := exec i s = .next (replied i c [] s0)
    let recordsOnly (t : State) : Prop :=
      t = { s0 with records.patrons := t.records.patrons, records.agencies := t.records.agencies } ∧
        ∀ j, j ≠ k.toNat → Table.get t.records.patrons j = Table.get s0.records.patrons j
    let members (t : State) (a b : Nat) : Prop :=
      ∀ j, j ≠ 0 → Table.get t.records.agencies j = (Table.get s0.records.agencies j).map fun x =>
        { x with members := if a = b then x.members else if j = a then x.members - 1 else if j = b then x.members + 1
                            else x.members }
    (k = 0 → refused .nullPatron) ∧ (k ≠ 0 → s.management.geometry.p < k.toNat → refused .patronRange) ∧
    (k ≠ 0 → k.toNat ≤ s.management.geometry.p →
      (1 < present.toNat → refused .badField) ∧
      (present = 0 →
        (Table.get s.records.patrons k.toNat = none → refused .patronAbsent) ∧
        (∀ old, Table.get s.records.patrons k.toNat = some old →
          ((0 < old.charge ∨ old.wish ≠ []) → refused .inUse) ∧
          (old.charge = 0 ∧ old.wish = [] →
            ∃ t, exec i s = .next (replied i .ok [] t) ∧ recordsOnly t ∧ Table.get t.records.patrons k.toNat = none ∧
              members t old.agency 0))) ∧
      (present = 1 →
        (¬fit → refused .badField) ∧
        (fit → statusValue st = status.toNat → patronClassValue pc = cls.toNat →
          (agency ≠ 0 → Table.get s.records.agencies agency.toNat = none → refused .agencyAbsent) ∧
          ((agency = 0 ∨ (Table.get s.records.agencies agency.toNat).isSome) →
            (Table.get s.records.patrons k.toNat = none →
              ∃ t, exec i s = .next (replied i .ok [] t) ∧ recordsOnly t ∧
                Table.get t.records.patrons k.toNat = some static ∧ members t 0 agency.toNat) ∧
            (∀ old, Table.get s.records.patrons k.toNat = some old →
              (old.cartridgeClass ≠ cartridge.toNat → (0 < old.charge ∨ old.wish ≠ []) → refused .inUse) ∧
              ((old.cartridgeClass = cartridge.toNat ∨ (old.charge = 0 ∧ old.wish = [])) →
                ∃ t, recordsOnly t ∧ members t old.agency agency.toNat ∧
                  Table.get t.records.patrons k.toNat =
                    some { static with charge := old.charge, wish := old.wish, chain := old.chain, openPack := old.openPack,
                                       overdue := old.overdue, held := old.held } ∧
                  exec i s =
                    .next (replied i .ok []
                      (if old.quota < quota.toNat ∨ (old.status = .suspended ∧ st = .active) then
                        settle (headroom k.toNat t) else t))))))))

/-- LOAD_AGENCY (R15), case by case; a present field above 1 is BAD_FIELD, by the sentence of R203 on field values (log
27). -/
def Obligations.AgencyLoadsAndDeletes : Prop :=
  ∀ (k : U16) (present : Byte) (code : U24) (s s0 : State),
    let i := Instr.loadAgency k present code
    Takes i s s0 →
    let refused (c : Code) : Prop := exec i s = .next (replied i c [] s0)
    let becomes (a : Option Agency) : Prop :=
      ∃ t, exec i s = .next (replied i .ok [] t) ∧ t = { s0 with records.agencies := t.records.agencies } ∧
        Table.get t.records.agencies k.toNat = a ∧
        ∀ j, j ≠ k.toNat → Table.get t.records.agencies j = Table.get s0.records.agencies j
    ((k = 0 ∨ 255 < k.toNat) → refused .badField) ∧
    (k ≠ 0 → k.toNat ≤ 255 →
      (1 < present.toNat → refused .badField) ∧
      (present = 1 →
        (Table.get s.records.agencies k.toNat = none → becomes (some ⟨code.toNat, 0⟩)) ∧
        (∀ a, Table.get s.records.agencies k.toNat = some a → becomes (some ⟨code.toNat, a.members⟩))) ∧
      (present = 0 →
        (Table.get s.records.agencies k.toNat = none → refused .agencyAbsent) ∧
        (∀ a, Table.get s.records.agencies k.toNat = some a →
          (0 < a.members → refused .inUse) ∧ (a.members = 0 → becomes none))))

/-- LOAD_TITLE for the two formats (R16 to R19): a load of an absent title stores the fields that apply and 0 in the others;
a reload keeps the waiting list and the accounts, is refused where it touches a live title, and sends one *copy freed* for
each shelf copy of a SHELF title made AVAILABLE; a delete returns a SHELF audio title's shelf cartridges to blank. -/
def Obligations.TitleLoadsAndDeletes : Prop :=
  ∀ (k : U16) (present format policy level availability : Byte) (extent : U16) (granularity shelfClass volumes : Byte)
    (weight : U16) (s s0 : State) (fm : TitleFormat) (pol : Policy) (av : Availability),
    let i := Instr.loadTitle k present format policy level availability extent granularity shelfClass volumes weight
    Takes i s s0 →
    let audio := format = 0 ∧ policy.toNat ≤ 1 ∧ extent.toNat ≤ 32767 ∧ granularity.toNat ≤ 1 ∧
      (policy = 1 → 1 ≤ shelfClass.toNat ∧ shelfClass.toNat ≤ 4)
    let braille := format = 1 ∧ policy = 1 ∧ 1 ≤ volumes.toNat ∧ volumes.toNat ≤ 32 ∧ 50 ≤ weight.toNat ∧
      weight.toNat ≤ 5000
    let fit := level.toNat ≤ 3 ∧ availability.toNat ≤ 1 ∧ (audio ∨ braille)
    let static : Title :=
      if fm = .audio then
        ⟨fm, pol, level.toNat, av, extent.toNat, granularity.toNat, if pol = .shelf then shelfClass.toNat else 0, 0, 0,
          [], 0, 0, 0, 0⟩
      else ⟨fm, pol, level.toNat, av, 0, 0, 0, volumes.toNat, weight.toNat, [], 0, 0, 0, 0⟩
    let refused (c : Code) : Prop := exec i s = .next (replied i c [] s0)
    let titlesOnly (t : State) : Prop :=
      t = { s0 with records.titles := t.records.titles } ∧
        ∀ j, j ≠ k.toNat → Table.get t.records.titles j = Table.get s0.records.titles j
    ((k = 0 ∨ s.management.geometry.t < k.toNat) → refused .titleRange) ∧
    (k ≠ 0 → k.toNat ≤ s.management.geometry.t →
      (1 < present.toNat → refused .badField) ∧
      (present = 1 →
        (¬fit → refused .badField) ∧
        (fit → formatValue fm = format.toNat → policyValue pol = policy.toNat → availabilityValue av = availability.toNat →
          (Table.get s.records.titles k.toNat = none →
            ∃ t, exec i s = .next (replied i .ok [] t) ∧ titlesOnly t ∧ Table.get t.records.titles k.toNat = some static) ∧
          (∀ old, Table.get s.records.titles k.toNat = some old →
            let live := ((old.format ≠ fm ∨ old.policy ≠ pol) ∧ (old.waiting ≠ [] ∨ 0 < old.out ∨ 0 < old.copies)) ∨
              (old.shelfClass ≠ static.shelfClass ∧ (old.waiting ≠ [] ∨ 0 < old.copies)) ∨
              ((old.extent ≠ static.extent ∨ old.granularity ≠ static.granularity) ∧ (old.waiting ≠ [] ∨ 0 < old.out))
            (live → refused .inUse) ∧
            (¬live →
              ∃ t, titlesOnly t ∧
                Table.get t.records.titles k.toNat =
                  some { static with waiting := old.waiting, copies := old.copies, shelf := old.shelf, out := old.out,
                                     repair := old.repair } ∧
                exec i s =
                  .next (replied i .ok []
                    (if old.availability = .withdrawn ∧ av = .available ∧ pol = .shelf then
                      settle (copiesFreed old.shelf k.toNat t) else t)))))) ∧
      (present = 0 →
        (Table.get s.records.titles k.toNat = none → refused .titleAbsent) ∧
        (∀ old, Table.get s.records.titles k.toNat = some old →
          ((old.waiting ≠ [] ∨ 0 < old.out ∨ 0 < old.repair) → refused .inUse) ∧
          (old.waiting = [] ∧ old.out = 0 ∧ old.repair = 0 →
            (¬(old.format = .audio ∧ old.policy = .shelf ∧ 0 < old.shelf) →
              ∃ t, exec i s = .next (replied i .ok [] t) ∧ titlesOnly t ∧ Table.get t.records.titles k.toNat = none) ∧
            ((old.format = .audio ∧ old.policy = .shelf ∧ 0 < old.shelf) →
              ∃ t, titlesOnly t ∧ Table.get t.records.titles k.toNat = none ∧
                exec i s =
                  .next (replied i .ok []
                    (settle (owePass (modAccount old.shelfClass (ClassAccount.move .shelf .blank old.shelf) t)))))))))

/-- READ_RECORD (R20, R23, R49, R73, R75, R205): a record in range is returned whole, an absent or FREE one as zeros, an
index out of range with the range code of its table; no state changes. The places of the fields of every table (R3, R4, R6,
R7, R8, R23, R50, R73, R75), each quantity least significant byte first and modulo the width of its field, and the numbers
of the named values (R201). -/
def Obligations.RecordsAreReadWhole : Prop :=
  (∀ (table : Byte) (k : U16) (s s0 : State),
    let i := Instr.readRecord table k
    Takes i s s0 →
    let n := k.toNat
    let g := s.management.geometry
    let reads (bs : List Byte) : Prop := exec i s = .next (replied i .ok bs s0)
    let refused (c : Code) : Prop := exec i s = .next (replied i c [] s0)
    (table = 0 → 1 ≤ n →
      (n ≤ g.p → reads (match Table.get s.records.patrons n with | none => List.replicate 23 0 | some p => patronBytes p)) ∧
      (g.p < n → refused .patronRange)) ∧
    (table = 1 → 1 ≤ n →
      (n ≤ 255 → reads (match Table.get s.records.agencies n with | none => List.replicate 6 0 | some a => agencyBytes a)) ∧
      (255 < n → refused .badField)) ∧
    (table = 2 → 1 ≤ n →
      (n ≤ g.t → reads (match Table.get s.records.titles n with | none => List.replicate 26 0 | some t => titleBytes t)) ∧
      (g.t < n → refused .titleRange)) ∧
    (table = 3 →
      (1 ≤ n → n ≤ g.q →
        reads (match Table.get s.requests n with | none => List.replicate 11 0 | some q => requestBytes s0 n q)) ∧
      ((n = 0 ∨ g.q < n) → refused .badField)) ∧
    (table = 4 →
      (1 ≤ n → n ≤ g.c →
        reads (match Table.get s.assembly.cons n with | none => List.replicate 41 0 | some c => consignmentBytes s0 n c)) ∧
      ((n = 0 ∨ g.c < n) → refused .badField)) ∧
    (table = 5 →
      (1 ≤ n → n ≤ g.j →
        reads (match Table.get s.scheduler.jobs n with | none => List.replicate 22 0 | some j => jobBytes s0 n j)) ∧
      ((n = 0 ∨ g.j < n) → refused .badField)) ∧
    (table = 6 → (1 ≤ n → n ≤ 24 → reads (bayBytes (bayAt s n))) ∧ ((n = 0 ∨ 24 < n) → refused .badField)) ∧
    (6 < table.toNat → refused .badField)) ∧
  ((∀ p : Patron, (patronBytes p).length = 23 ∧ fieldAt (patronBytes p) 0 1 = 1 ∧
    fieldAt (patronBytes p) 1 1 = statusValue p.status ∧ fieldAt (patronBytes p) 2 1 = patronClassValue p.patronClass ∧
    fieldAt (patronBytes p) 3 1 = p.level % 256 ∧ fieldAt (patronBytes p) 4 1 = p.audio.toNat + 2 * p.braille.toNat ∧
    fieldAt (patronBytes p) 5 1 = p.cartridgeClass % 256 ∧
    fieldAt (patronBytes p) 6 1 = p.quota % 256 ∧ fieldAt (patronBytes p) 7 1 = p.agency % 256 ∧
    fieldAt (patronBytes p) 8 3 = p.code % 16777216 ∧ fieldAt (patronBytes p) 11 1 = p.charge % 256 ∧
    fieldAt (patronBytes p) 12 2 = p.wish.headD 0 % 65536 ∧ fieldAt (patronBytes p) 14 2 = (p.wish.getLast?.getD 0) % 65536 ∧
    fieldAt (patronBytes p) 16 1 = p.wish.length % 256 ∧ fieldAt (patronBytes p) 17 2 = p.chain.headD 0 % 65536 ∧
    fieldAt (patronBytes p) 19 2 = p.openPack % 65536 ∧ fieldAt (patronBytes p) 21 1 = p.overdue % 256 ∧
    fieldAt (patronBytes p) 22 1 = p.held.toNat) ∧
  (∀ a : Agency, (agencyBytes a).length = 6 ∧ fieldAt (agencyBytes a) 0 1 = 1 ∧
    fieldAt (agencyBytes a) 1 3 = a.code % 16777216 ∧ fieldAt (agencyBytes a) 4 2 = a.members % 65536) ∧
  (∀ t : Title, (titleBytes t).length = 26 ∧ fieldAt (titleBytes t) 0 1 = 1 ∧
    fieldAt (titleBytes t) 1 1 = formatValue t.format ∧ fieldAt (titleBytes t) 2 1 = policyValue t.policy ∧
    fieldAt (titleBytes t) 3 1 = t.level % 256 ∧ fieldAt (titleBytes t) 4 1 = availabilityValue t.availability ∧
    fieldAt (titleBytes t) 5 2 = t.extent % 65536 ∧ fieldAt (titleBytes t) 7 1 = t.granularity % 256 ∧
    fieldAt (titleBytes t) 8 1 = t.shelfClass % 256 ∧ fieldAt (titleBytes t) 9 1 = t.volumes % 256 ∧
    fieldAt (titleBytes t) 10 2 = t.weight % 65536 ∧
    fieldAt (titleBytes t) 12 2 = t.waiting.headD 0 % 65536 ∧
    fieldAt (titleBytes t) 14 2 = (t.waiting.getLast?.getD 0) % 65536 ∧
    fieldAt (titleBytes t) 16 2 = t.waiting.length % 65536 ∧
    fieldAt (titleBytes t) 18 2 = t.copies % 65536 ∧ fieldAt (titleBytes t) 20 2 = t.shelf % 65536 ∧
    fieldAt (titleBytes t) 22 2 = t.out % 65536 ∧ fieldAt (titleBytes t) 24 2 = t.repair % 65536) ∧
  (∀ (s : State) (k : Nat) (q : Request),
    let bs := requestBytes s k q
    bs.length = 11 ∧ fieldAt bs 0 1 = 1 ∧ fieldAt bs 1 2 = q.patron % 65536 ∧ fieldAt bs 3 2 = q.title % 65536 ∧
    fieldAt bs 5 2 = q.day.toNat ∧
    (∀ before after x, Table.get s.records.titles q.title = some x → x.waiting = before ++ k :: after → k ∉ before →
      fieldAt bs 7 2 = after.headD 0 % 65536) ∧
    ∀ before after p, Table.get s.records.patrons q.patron = some p → p.wish = before ++ k :: after → k ∉ before →
      fieldAt bs 9 2 = after.headD 0 % 65536) ∧
  (∀ (s : State) (k : Nat) (c : Consignment),
    let bs := consignmentBytes s k c
    let o := 12 + 5 * c.lines.length
    bs.length = o + 29 ∧ fieldAt bs 0 1 = consStateValue c.state ∧ fieldAt bs 1 1 = consKindValue c.kind ∧
    fieldAt bs 2 2 = c.patron % 65536 ∧ fieldAt bs 4 1 = c.window % 256 ∧ fieldAt bs 5 1 = c.cartridgeClass % 256 ∧
    fieldAt bs 6 1 = c.serial.isSome.toNat ∧ fieldAt bs 7 4 = (c.serial.getD 0).toNat ∧
    fieldAt bs 11 1 = c.lines.length % 256 ∧
    (∀ n l, c.lines[n]? = some l → fieldAt bs (12 + 5 * n) 2 = l.title % 65536 ∧
      fieldAt bs (14 + 5 * n) 2 = l.origin.toNat ∧ fieldAt bs (16 + 5 * n) 1 = lineStateValue l.state) ∧
    fieldAt bs o 3 = c.used % 16777216 ∧ fieldAt bs (o + 3) 1 = c.sealPriority % 256 ∧ fieldAt bs (o + 4) 1 = c.part % 256 ∧
    fieldAt bs (o + 5) 1 = c.parts % 256 ∧ fieldAt bs (o + 6) 2 = c.head % 65536 ∧ fieldAt bs (o + 8) 1 = c.volumes % 256 ∧
    fieldAt bs (o + 9) 3 = c.weight % 16777216 ∧ fieldAt bs (o + 12) 1 = c.overweight.toNat ∧
    fieldAt bs (o + 13) 1 = c.returned % 256 ∧ fieldAt bs (o + 14) 1 = c.headReturned.toNat ∧
    fieldAt bs (o + 15) 1 = verdictValue c.worst ∧ fieldAt bs (o + 16) 1 = c.overdue.toNat ∧
    fieldAt bs (o + 17) 2 = c.openDay.toNat ∧ fieldAt bs (o + 19) 2 = c.postDay.toNat ∧
    fieldAt bs (o + 21) 2 = c.dueDay.toNat ∧ fieldAt bs (o + 23) 2 = c.job % 65536 ∧
    (∀ before after p, Table.get s.records.patrons c.patron = some p → p.chain = before ++ k :: after → k ∉ before →
      fieldAt bs (o + 25) 2 = after.headD 0 % 65536) ∧
    ∀ before after, (if c.state = .sealed then s.assembly.sealedList else s.dispatch.ready) = before ++ k :: after →
      k ∉ before → fieldAt bs (o + 27) 2 = after.headD 0 % 65536) ∧
  (∀ (s : State) (k : Nat) (j : Job),
    let bs := jobBytes s k j
    bs.length = 22 ∧ fieldAt bs 0 1 = jobStateValue j.state ∧ fieldAt bs 1 1 = jobKindValue j.kind ∧
    fieldAt bs 2 1 = j.priority % 256 ∧ fieldAt bs 3 2 = j.consignment % 65536 ∧ fieldAt bs 5 2 = j.title % 65536 ∧
    fieldAt bs 7 1 = j.cartridgeClass % 256 ∧ fieldAt bs 8 2 = j.remaining % 65536 ∧ fieldAt bs 10 3 = j.offset % 16777216 ∧
    fieldAt bs 13 1 = j.serial.isSome.toNat ∧ fieldAt bs 14 4 = (j.serial.getD 0).toNat ∧
    fieldAt bs 18 1 = j.retry.toNat ∧ fieldAt bs 19 1 = j.bay % 256 ∧
    (j.state ≠ .queued → fieldAt bs 20 2 = 0) ∧
    ∀ before after, j.state = .queued → queueAt s j.priority = before ++ k :: after → k ∉ before →
      fieldAt bs 20 2 = after.headD 0 % 65536) ∧
  (∀ b : Bay,
    let o := 7 + 2 * b.stack.length
    (bayBytes b).length = o + 7 ∧ fieldAt (bayBytes b) 0 1 = b.address % 256 ∧
    fieldAt (bayBytes b) 1 1 = b.classes.toNat ∧ fieldAt (bayBytes b) 2 1 = b.preempt.toNat ∧
    fieldAt (bayBytes b) 3 1 = bayStateValue b.state ∧
    fieldAt (bayBytes b) 4 2 = b.active % 65536 ∧ fieldAt (bayBytes b) 6 1 = b.stack.length % 256 ∧
    (∀ n j, b.stack.reverse[n]? = some j → fieldAt (bayBytes b) (7 + 2 * n) 2 = j % 65536) ∧
    fieldAt (bayBytes b) o 2 = b.preemptor % 65536 ∧ fieldAt (bayBytes b) (o + 2) 1 = b.timer % 256 ∧
    fieldAt (bayBytes b) (o + 3) 1 = b.running.toNat ∧
    fieldAt (bayBytes b) (o + 4) 1 = (match b.cause with | .none => 0 | .stall => 1 | .reported _ => 2) ∧
    fieldAt (bayBytes b) (o + 5) 1 = (match b.cause with | .reported code => code.toNat | _ => 0) ∧
    fieldAt (bayBytes b) (o + 6) 1 = b.owed.length % 256) ∧
  [ConsState.assembling, .sealed, .duplicating, .picking, .ready, .releasing, .posted].map consStateValue = [1, 2, 3, 4, 5, 6, 7] ∧
  [ConsKind.pack, .shelfAudio, .braillePart].map consKindValue = [0, 1, 2] ∧
  [JobState.queued, .pending, .active, .parked].map jobStateValue = [1, 2, 3, 4] ∧ [JobKind.pack, .stock].map jobKindValue = [0, 1] ∧
  [BayState.offline, .idle, .loading, .writing, .parking, .faulted].map bayStateValue = [0, 1, 2, 3, 4, 5] ∧
  [LineState.isOpen, .closed].map lineStateValue = [0, 1] ∧ [Verdict.pass, .note, .repair, .retire].map verdictValue = [0, 1, 2, 3] ∧
  [PatronStatus.active, .suspended].map statusValue = [0, 1] ∧
  [PatronClass.standard, .priority, .institution].map patronClassValue = [0, 1, 2] ∧
  [TitleFormat.audio, .braille].map formatValue = [0, 1] ∧ [Policy.onDemand, .shelf].map policyValue = [0, 1] ∧
  [Availability.available, .withdrawn].map availabilityValue = [0, 1])

/-! ## Read-outs: each answers OK with its fields in the order of its rule, and nothing but the reply slot changes -/

/-- READ_STOCK, READ_DAY, READ_INSPECTION and READ_CHANNEL (R148, R162, R166, R175, R144, R201). READ_DISPATCH and
READ_MANIFEST (R114, R117, R118, R201); the outstanding releases stand in the order they were made (log 39). -/
def Obligations.UnitsAreRead : Prop :=
  (∀ s s0 : State,
    (∀ cls : Byte, Takes (.readStock cls) s s0 →
      ((cls = 0 ∨ 4 < cls.toNat) → exec (.readStock cls) s = .next (replied (.readStock cls) .badField [] s0)) ∧
      (1 ≤ cls.toNat → cls.toNat ≤ 4 →
        ∃ fs, exec (.readStock cls) s = .next (replied (.readStock cls) .ok fs s0) ∧ fs.length = 17 ∧
          let a := accountAt s cls.toNat
          fieldAt fs 0 2 = a.stock % 65536 ∧ fieldAt fs 2 2 = a.blank % 65536 ∧ fieldAt fs 4 2 = a.reserved % 65536 ∧
          fieldAt fs 6 2 = a.consigned % 65536 ∧ fieldAt fs 8 2 = a.shelf % 65536 ∧ fieldAt fs 10 2 = a.repair % 65536 ∧
          fieldAt fs 12 2 = a.bound % 65536 ∧ fieldAt fs 14 3 = capacityOf s cls.toNat % 16777216)) ∧
    (Takes .readDay s s0 →
      ∃ fs, exec .readDay s = .next (replied .readDay .ok fs s0) ∧ fs.length = 11 ∧
        fieldAt fs 0 2 = s.days.today.toNat ∧ fieldAt fs 2 1 = s.days.sweeping.toNat ∧
        fieldAt fs 3 2 = s.days.position % 65536 ∧ fieldAt fs 5 2 = s.days.marked % 65536 ∧
        fieldAt fs 7 2 = s.days.sealedCount % 65536 ∧ fieldAt fs 9 1 = s.management.settings.holdLimit % 256 ∧
        fieldAt fs 10 1 = s.management.settings.packHold % 256) ∧
    (Takes .readInspection s s0 →
      ∃ fs, exec .readInspection s = .next (replied .readInspection .ok fs s0) ∧ fs.length = 12 ∧
        fieldAt fs 0 1 = s.returns.suspended.toNat ∧ fieldAt fs 1 1 = s.returns.suspendPending.toNat ∧
        fieldAt fs 2 1 = s.returns.queue.length % 256 ∧ fieldAt fs 3 1 = s.returns.item.isSome.toNat ∧
        (∀ i, s.returns.item = some i → fieldAt fs 4 2 = i.consignment % 65536 ∧ fieldAt fs 6 1 = i.part % 256) ∧
        fieldAt fs 7 1 = s.returns.owedAnswer.isSome.toNat ∧ fieldAt fs 8 2 = s.returns.hits.toNat ∧
        fieldAt fs 10 2 = s.returns.high.toNat) ∧
    (∀ c : Byte, Takes (.readChannel c) s s0 →
      (15 < c.toNat → exec (.readChannel c) s = .next (replied (.readChannel c) .badField [] s0)) ∧
      (c.toNat ≤ 15 →
        ∃ fs, exec (.readChannel c) s = .next (replied (.readChannel c) .ok fs s0) ∧ fs.length = 11 ∧
          let cfg := channelAt s.returns c.toNat
          let st := storedAt s.returns c.toNat
          fieldAt fs 0 1 = channelModeValue cfg.mode ∧ fieldAt fs 1 1 = channelActionValue cfg.action ∧
          fieldAt fs 2 1 = channelStoreValue cfg.store ∧ fieldAt fs 3 1 = channelReferenceValue cfg.reference ∧
          fieldAt fs 4 2 = (BitVec.ofInt 16 (thresholdAt s.returns c.toNat)).toNat ∧ fieldAt fs 6 1 = st.valid.toNat ∧
          fieldAt fs 7 2 = (BitVec.ofInt 16 st.value).toNat ∧ fieldAt fs 9 2 = st.consignment % 65536))) ∧
  (∀ s s0 : State,
    (Takes .readDispatch s s0 →
      let d := s.dispatch
      let o := 5 + 4 * d.outstanding.length
      ∃ fs, exec .readDispatch s = .next (replied .readDispatch .ok fs s0) ∧ fs.length = o + 8 ∧
        fieldAt fs 0 2 = d.ready.length % 65536 ∧ fieldAt fs 2 2 = d.ready.headD 0 % 65536 ∧
        fieldAt fs 4 1 = d.outstanding.length % 256 ∧
        (∀ n r, d.outstanding[n]? = some r → fieldAt fs (5 + 4 * n) 2 = r.consignment % 65536 ∧
          fieldAt fs (7 + 4 * n) 1 = r.chute % 256 ∧ fieldAt fs (8 + 4 * n) 1 = mailClassValue r.mailClass) ∧
        fieldAt fs o 4 = d.blocked.toNat ∧
        fieldAt fs (o + 4) 1 = d.half0.length % 256 ∧ fieldAt fs (o + 5) 1 = d.half1.length % 256 ∧
        fieldAt fs (o + 6) 1 = d.filling.toNat ∧
        (fieldAt fs (o + 7) 1 = 1 ↔ (if d.filling then d.half1 else d.half0).length = 64)) ∧
    (∀ half index : Byte, Takes (.readManifest half index) s s0 →
      let i := Instr.readManifest half index
      ((1 < half.toNat ∨ index = 0 ∨ 64 < index.toNat) → exec i s = .next (replied i .badField [] s0)) ∧
      (half.toNat ≤ 1 → 1 ≤ index.toNat → index.toNat ≤ 64 →
        let rs := if half = 1 then s.dispatch.half1 else s.dispatch.half0
        let counts : List Byte := [byteOf rs.length, if s.dispatch.filling then 1 else 0]
        (rs.length < index.toNat → exec i s = .next (replied i .notFound counts s0)) ∧
        (∀ r, rs[index.toNat - 1]? = some r →
          ∃ fs, exec i s = .next (replied i .ok (counts ++ fs) s0) ∧ fs.length = 22 ∧
            fieldAt fs 0 2 = r.consignment % 65536 ∧ fieldAt fs 2 2 = r.patron % 65536 ∧
            fieldAt fs 4 1 = consKindValue r.kind ∧ fieldAt fs 5 1 = r.part % 256 ∧ fieldAt fs 6 1 = r.parts % 256 ∧
            fieldAt fs 7 1 = r.window % 256 ∧ fieldAt fs 8 1 = r.chute % 256 ∧ fieldAt fs 9 1 = mailClassValue r.mailClass ∧
            fieldAt fs 10 4 = r.serial.toNat ∧ fieldAt fs 14 3 = r.weight % 16777216 ∧ fieldAt fs 17 1 = r.overweight.toNat ∧
            fieldAt fs 18 2 = r.postDay.toNat ∧ fieldAt fs 20 2 = r.dueDay.toNat))))

/-- READ_SETUP, READ_LINES and READ_NOTICES (R187, R180, R192, R201, R208). Above the budget the spare words are a free
value (log 15): nothing is stated of them. The missed-reply count of the station in its turn is 0 from the mark character of
the frame that answers (R198 step 2; log 13, log 23); the office port's fault causes come first (log 45). -/
def Obligations.SetupLinesAndNoticesAreRead : Prop :=
  ∀ s s0 : State,
    (Takes .readSetup s s0 →
      let g := s.management.geometry
      let total := (g.p + 1) * 8 + 256 * 8 + (g.t + 1) * 8 + (g.q + 1) * 4 + (g.c + 1) * 16 + (g.j + 1) * 8
      let x := s.management.settings
      ∃ fs, exec .readSetup s = .next (replied .readSetup .ok fs s0) ∧ fs.length = 41 ∧
        fieldAt fs 0 1 = modeValue s.management.mode ∧ fieldAt fs 1 2 = g.p % 65536 ∧ fieldAt fs 3 2 = g.t % 65536 ∧
        fieldAt fs 5 2 = g.q % 65536 ∧ fieldAt fs 7 2 = g.c % 65536 ∧ fieldAt fs 9 2 = g.j % 65536 ∧
        (g = ⟨0, 0, 0, 0, 0⟩ → fieldAt fs 11 3 = 2048) ∧
        (g ≠ ⟨0, 0, 0, 0, 0⟩ → fieldAt fs 11 3 = total % 16777216) ∧
        (g ≠ ⟨0, 0, 0, 0, 0⟩ → total ≤ 1048576 → fieldAt fs 14 3 = 1048576 - total) ∧
        (∀ c, 1 ≤ c → c ≤ 4 → fieldAt fs (14 + 3 * c) 3 = capacityOf s c % 16777216) ∧
        fieldAt fs 29 1 = rateValue s.line.officeRate ∧ fieldAt fs 30 1 = rateValue s.line.floorRate ∧
        fieldAt fs 31 1 = x.audioLoan % 256 ∧ fieldAt fs 32 1 = x.brailleLoan % 256 ∧ fieldAt fs 33 1 = x.packHold % 256 ∧
        fieldAt fs 34 1 = x.holdLimit % 256 ∧ fieldAt fs 35 1 = x.stallSeconds % 256 ∧ fieldAt fs 36 1 = x.listLimit % 256 ∧
        fieldAt fs 37 1 = noticeModeValue x.noticeMode ∧ fieldAt fs 38 1 = x.pickRole % 256 ∧
        fieldAt fs 39 1 = x.sorterRole % 256 ∧ fieldAt fs 40 1 = x.scannerRole % 256) ∧
    (Takes .readLines s s0 →
      ∃ fs, exec .readLines s = .next (replied .readLines .ok fs s0) ∧ fs.length = 60 ∧
        fieldAt fs 0 1 = s.line.officeFaults.toNat ∧ fieldAt fs 1 1 = s.line.floorFaults.toNat ∧
        fieldAt fs 2 1 = s0.line.officeRx.length % 256 ∧ fieldAt fs 3 1 = s.line.floorTx.length % 256 ∧
        (s.line.turn = none → fieldAt fs 4 1 = 0) ∧ (∀ t, s.line.turn = some t → fieldAt fs 4 1 = t.station % 256) ∧
        fieldAt fs 5 8 = s.line.pollSet.toNat ∧
        ∀ k, 16 ≤ k → k ≤ 62 →
          let begun := s.line.floorIn ≠ [] ∧ s.line.early = false ∧ ∃ t, s.line.turn = some t ∧ t.station = k
          (begun → fieldAt fs (k - 3) 1 = 0) ∧ (¬begun → fieldAt fs (k - 3) 1 = missedAt s k % 256)) ∧
    (Takes .readNotices s s0 →
      ∃ fs, exec .readNotices s = .next (replied .readNotices .ok fs s0) ∧ fs.length = 50 ∧
        fieldAt fs 0 2 = s.management.mask.toNat ∧
        ∀ n, 1 ≤ n → n ≤ 12 →
          let cell := bankGet s.management.notices n {}
          fieldAt fs (4 * n - 2) 1 = cell.latch.toNat ∧ fieldAt fs (4 * n - 1) 1 = cell.count % 256 ∧
            fieldAt fs (4 * n) 2 = cell.subject % 65536)

/-! ## The Order Unit (02) -/

/-- The checks of ORDER and PROBE in SERVICE, in their order (R26 to R29, R31). A refused ORDER changes nothing; the waiting
count in its REPLY is a free value (log 14) and the statement holds for every value of it. A PROBE that passes its twelve
checks is answered ELIGIBLE with the title's waiting count. -/
def Obligations.OrderAndProbeChecksInOrder : Prop :=
  ∀ (src : Byte) (patron title : U16) (s s0 : State), s.management.mode = .service →
    let n := patron.toNat
    let m := title.toNat
    let common : Option Code :=
      if n = 0 then some .nullPatron
      else if s.management.geometry.p < n then some .patronRange
      else match Table.get s.records.patrons n with
        | none => some .patronAbsent
        | some p =>
          if p.status = .suspended then some .patronSuspended
          else if m = 0 ∨ s.management.geometry.t < m then some .titleRange
          else match Table.get s.records.titles m with
            | none => some .titleAbsent
            | some t =>
              let blocks := if t.granularity = 0 then t.extent + 1 else (t.extent + 1) * 64
              if t.availability = .withdrawn then some .withdrawn
              else if p.level < t.level then some .restricted
              else if (t.format = .audio ∧ p.audio = false) ∨ (t.format = .braille ∧ p.braille = false) then some .format
              else if t.format = .audio ∧ t.policy = .onDemand ∧ capacityOf s p.cartridgeClass < 64 + (blocks + 16) then
                some .extent
              else if t.format = .audio ∧ t.policy = .shelf ∧ t.shelfClass ≠ p.cartridgeClass then some .format
              else if p.wish.any (fun r => (Table.get s.requests r).any fun q => q.title == m) then some .duplicate
              else if p.chain.any (fun k => (Table.get s.assembly.cons k).any fun c =>
                  c.lines.any fun l => l.title == m && decide (l.state = .isOpen)) then some .onLoan
              else none
    (Takes (.probe src patron title) s s0 →
      (∀ c, common = some c →
        exec (.probe src patron title) s = .next (replied (.probe src patron title) c [0, 0] s0)) ∧
      (common = none →
        exec (.probe src patron title) s =
          .next (replied (.probe src patron title) .eligible (bytesLE 2 (waitingCount s m)) s0))) ∧
    (Takes (.order src patron title) s s0 →
      let refused (c : Code) : Prop :=
        ∃ w : U16, exec (.order src patron title) s =
          .next (replied (.order src patron title) c ([0, 0] ++ bytesLE 2 w.toNat) { s0 with freeIx := s0.freeIx + 1 })
      (∀ c, common = some c → refused c) ∧
      (common = none → ∀ p, Table.get s.records.patrons n = some p →
        (s.management.settings.listLimit ≤ p.wish.length → refused .listFull) ∧
        (p.wish.length < s.management.settings.listLimit →
          Table.lowestFree s.requests s.management.geometry.q = none → refused .poolFull)))

/-- An accepted ORDER (R24, R30). It waits, at the tails of both lists, while the patron is held or at its quota or no copy
is on the shelf (R37), and while the FREE consignment records do not suffice, with POOL_EXHAUSTED latched (R42). Else it is
allocated: a title that fits joins the open pack (R38, R55, R56); one that does not seals it and opens another in the lowest
FREE record, as does the first (R54, R58, R60); a SHELF audio title takes a copy, its cartridge and one record (R39, R67); a
braille title takes the lowest FREE records for the parts of its plan (R40, R65, R66). The charge, the accounts, the chain,
the pick list and the reply (R41, R52); then the close conditions of the open pack are examined (R57): a first pack that
takes the charge to the quota, or with pack hold 0, is sealed at once. -/
def Obligations.OrderWaitsOrOpensAPack : Prop :=
  (∀ (src : Byte) (patron title : U16) (s s0 : State) (p : Patron) (x : Title) (r : Nat),
    OrderAccepted src patron title s s0 p x r →
    let i := Instr.order src patron title
    let n := patron.toNat
    let m := title.toNat
    let blocks := if x.granularity = 0 then x.extent + 1 else (x.extent + 1) * 64
    let window := resolveWindow s (destination s p)
    let plan := planSet (windowAt s window).limit x.volumes x.weight
    let line : Line := { title := m, origin := s.days.today }
    let room := Table.lowestFree s.assembly.cons s.management.geometry.c
    let fits := ∃ c, Table.get s.assembly.cons p.openPack = some c ∧ c.used + blocks + 16 ≤ capacityOf s c.cartridgeClass
    let pack : Consignment :=
      { state := .assembling, kind := .pack, patron := n, window := window, cartridgeClass := p.cartridgeClass,
        lines := [line], used := 64 + (blocks + 16), openDay := s.days.today }
    let others (t : State) : Prop :=
      (∀ j, j ≠ r → Table.get t.requests j = Table.get s.requests j) ∧
      (∀ j, j ≠ n → Table.get t.records.patrons j = Table.get s.records.patrons j) ∧
      ∀ j, j ≠ m → Table.get t.records.titles j = Table.get s.records.titles j
    let waits (notices : ManagementUnit) : Prop :=
      ∃ t, exec i s = .next (replied i .waiting ([0, 0] ++ bytesLE 2 (x.waiting.length + 1)) t) ∧ others t ∧
        t = { s0 with
          requests := t.requests, records.patrons := t.records.patrons, records.titles := t.records.titles,
          management := notices } ∧
        Table.get t.requests r = some { patron := n, title := m, day := s.days.today } ∧
        Table.get t.records.patrons n = some { p with wish := p.wish ++ [r] } ∧
        Table.get t.records.titles m = some { x with waiting := x.waiting ++ [r] }
    let allocated (k : Nat) (t : State) : Prop :=
      exec i s = .next (replied i .allocated (bytesLE 2 k ++ bytesLE 2 ((x.waiting ++ [r]).erase r).length) t)
    let granted (p' : Patron) (x' : Title) (t : State) : Prop :=
      others t ∧ Table.get t.requests r = none ∧
        Table.get t.records.patrons n = some { p' with wish := (p.wish ++ [r]).erase r, charge := p.charge + 1 } ∧
        Table.get t.records.titles m = some { x' with waiting := (x.waiting ++ [r]).erase r, out := x.out + 1 }
    ((p.held = true ∨ p.quota ≤ p.charge ∨ (x.policy = .shelf ∧ x.shelf = 0)) → waits s.management) ∧
    (p.held = false → p.charge < p.quota →
      ((x.policy = .onDemand → ¬fits ∧ room = none) → (x.policy = .shelf → 1 ≤ x.shelf ∧
          (room = none ∨ (x.format = .braille ∧ freeConsignments s < plan.parts))) →
        waits (latch .poolExhausted n s).management) ∧
      (∀ c, x.policy = .onDemand → Table.get s.assembly.cons p.openPack = some c →
        c.used + blocks + 16 ≤ capacityOf s c.cartridgeClass →
        ∃ t, allocated p.openPack (settle (examineClose n t)) ∧ granted p x t ∧
          t = { s0 with
            requests := t.requests, records.patrons := t.records.patrons, records.titles := t.records.titles,
            assembly.cons := t.assembly.cons } ∧
          Table.get t.assembly.cons p.openPack =
            some { c with lines := c.lines ++ [line], used := c.used + blocks + 16 } ∧
          ∀ j, j ≠ p.openPack → Table.get t.assembly.cons j = Table.get s.assembly.cons j) ∧
      (∀ k, x.policy = .onDemand → Table.get s.assembly.cons p.openPack = none → room = some k → p.charge + 1 < p.quota →
        s.management.settings.packHold ≠ 0 →
        ∃ t, allocated k t ∧ granted { p with chain := k :: p.chain, openPack := k } x t ∧
          t = { s0 with
            requests := t.requests, records.patrons := t.records.patrons, records.titles := t.records.titles,
            assembly.cons := t.assembly.cons } ∧
          Table.get t.assembly.cons k = some pack ∧
          ∀ j, j ≠ k → Table.get t.assembly.cons j = Table.get s.assembly.cons j) ∧
      (∀ k, x.policy = .onDemand → Table.get s.assembly.cons p.openPack = none → room = some k →
        (p.quota ≤ p.charge + 1 ∨ s.management.settings.packHold = 0) → TablesCanonical s →
        let priority := match p.patronClass with | .institution => 0 | .standard => 1 | .priority => 2
        ∃ t c', allocated k (settle t) ∧ granted { p with chain := k :: p.chain, openPack := 0 } x t ∧
          t = { s0 with
            requests := t.requests, records.patrons := t.records.patrons, records.titles := t.records.titles,
            assembly.cons := t.assembly.cons, assembly.sealedList := t.assembly.sealedList,
            scheduler.jobs := t.scheduler.jobs, scheduler.queues := t.scheduler.queues, passDue := t.passDue } ∧
          Table.get t.assembly.cons k = some c' ∧
          c' = { pack with state := c'.state, job := c'.job, sealPriority := priority } ∧
          (∀ j, j ≠ k → Table.get t.assembly.cons j = Table.get s.assembly.cons j) ∧
          (∀ j, s.assembly.sealedList = [] → Table.lowestFree s.scheduler.jobs s.management.geometry.j = some j →
            c'.state = .duplicating ∧ c'.job = j ∧ t.assembly.sealedList = [] ∧ t.passDue = true ∧
            Table.get t.scheduler.jobs j = some { state := .queued, kind := .pack, priority := priority,
                                                  consignment := k, cartridgeClass := p.cartridgeClass } ∧
            queueAt t priority = queueAt s priority ++ [j]) ∧
          ((s.assembly.sealedList ≠ [] ∨ Table.lowestFree s.scheduler.jobs s.management.geometry.j = none) →
            c'.state = .sealed ∧ c'.job = 0 ∧ t.assembly.sealedList = s.assembly.sealedList ++ [k] ∧
            t.scheduler = s.scheduler)) ∧
      (∀ k c, x.policy = .onDemand → Table.get s.assembly.cons p.openPack = some c → c.state = .assembling → c.patron = n →
        capacityOf s c.cartridgeClass < c.used + blocks + 16 → room = some k → TablesCanonical s →
        let priority := match p.patronClass with | .institution => 0 | .standard => 1 | .priority => 2
        ∃ t c', allocated k (settle (examineClose n t)) ∧ granted { p with chain := k :: p.chain, openPack := k } x t ∧
          t = { s0 with
            requests := t.requests, records.patrons := t.records.patrons, records.titles := t.records.titles,
            assembly.cons := t.assembly.cons, assembly.sealedList := t.assembly.sealedList,
            scheduler.jobs := t.scheduler.jobs, scheduler.queues := t.scheduler.queues, passDue := t.passDue } ∧
          Table.get t.assembly.cons k = some pack ∧ Table.get t.assembly.cons p.openPack = some c' ∧
          c' = { c with state := c'.state, job := c'.job, sealPriority := priority } ∧
          (∀ j, j ≠ k → j ≠ p.openPack → Table.get t.assembly.cons j = Table.get s.assembly.cons j) ∧
          (∀ j, s.assembly.sealedList = [] → Table.lowestFree s.scheduler.jobs s.management.geometry.j = some j →
            c'.state = .duplicating ∧ c'.job = j ∧ t.assembly.sealedList = [] ∧
            Table.get t.scheduler.jobs j = some { state := .queued, kind := .pack, priority := priority,
                                                  consignment := p.openPack, cartridgeClass := c.cartridgeClass } ∧
            queueAt t priority = queueAt s priority ++ [j]) ∧
          ((s.assembly.sealedList ≠ [] ∨ Table.lowestFree s.scheduler.jobs s.management.geometry.j = none) →
            c'.state = .sealed ∧ c'.job = c.job ∧ t.assembly.sealedList = s.assembly.sealedList ++ [p.openPack] ∧
            t.scheduler = s.scheduler)) ∧
      (∀ k, x.policy = .shelf → 1 ≤ x.shelf → room = some k →
        let a := accountAt s x.shelfClass
        let free := (List.range' 1 s.management.geometry.c).filter fun j => (Table.get s.assembly.cons j).isNone
        (x.format = .audio → 1 ≤ x.shelfClass → x.shelfClass ≤ 4 → 1 ≤ a.shelf →
          ∃ t, allocated k (settle (examineClose n t)) ∧
            granted { p with chain := k :: p.chain } { x with shelf := x.shelf - 1 } t ∧
            t = { s0 with
              requests := t.requests, records.patrons := t.records.patrons, records.titles := t.records.titles,
              assembly.cons := t.assembly.cons, assembly.picks := s.assembly.picks ++ [k], accounts := t.accounts } ∧
            Table.get t.assembly.cons k =
              some { state := .picking, kind := .shelfAudio, patron := n, window := window, cartridgeClass := x.shelfClass,
                     lines := [line], openDay := s.days.today } ∧
            (∀ j, j ≠ k → Table.get t.assembly.cons j = Table.get s.assembly.cons j) ∧
            accountAt t x.shelfClass = { a with shelf := a.shelf - 1, consigned := a.consigned + 1 } ∧
            ∀ d, d ≠ x.shelfClass → accountAt t d = accountAt s d) ∧
        (x.format = .braille → 1 ≤ x.volumes → plan.parts ≤ freeConsignments s → TablesCanonical s → InPools s →
          ∃ t, allocated k (settle (examineClose n t)) ∧
            granted { p with chain := k :: p.chain } { x with shelf := x.shelf - 1 } t ∧
            t = { s0 with
              requests := t.requests, records.patrons := t.records.patrons, records.titles := t.records.titles,
              assembly.cons := t.assembly.cons, assembly.picks := s.assembly.picks ++ [k] } ∧
            (∀ part, part < plan.parts → ∃ j, free[part]? = some j ∧ (part = 0 → j = k) ∧
              Table.get t.assembly.cons j =
                some { state := .picking, kind := .braillePart, patron := n, window := window,
                       lines := if part = 0 then [line] else [], part := part + 1, parts := plan.parts, head := k,
                       volumes := volumesIn plan x.volumes (part + 1),
                       weight := volumesIn plan x.volumes (part + 1) * x.weight, overweight := plan.overweight,
                       openDay := s.days.today }) ∧
            ∀ j, j ∉ free.take plan.parts → Table.get t.assembly.cons j = Table.get s.assembly.cons j)))) ∧
  ∀ (u : State) (n : Nat) (q : Patron) (c : Consignment), Table.get u.records.patrons n = some q →
    Table.get u.assembly.cons q.openPack = some c →
    examineClose n u =
      if 8 ≤ c.lines.length ∨ q.quota ≤ q.charge ∨ u.management.settings.packHold = 0 then sealPack q.openPack u else u

/-- CANCEL in SERVICE (R32 to R34, R64): its checks; a live request is freed; a line on the ASSEMBLING open pack is
taken back, its title's out account falling by 1, and one *headroom* walk follows; a line past ASSEMBLING is TOO_LATE;
anything else NOT_FOUND. -/
def Obligations.CancelTakesBackRequestOrLine : Prop :=
  ∀ (src : Byte) (patron title : U16) (s s0 : State), Takes (.cancel src patron title) s s0 → s.management.mode = .service →
    let n := patron.toNat
    let m := title.toNat
    let i := Instr.cancel src patron title
    let refused (c : Code) : Prop := exec i s = .next (replied i c [] s0)
    (n = 0 → refused .nullPatron) ∧ (n ≠ 0 → s.management.geometry.p < n → refused .patronRange) ∧
    (n ≠ 0 → n ≤ s.management.geometry.p →
      (Table.get s.records.patrons n = none → refused .patronAbsent) ∧
      (∀ p, Table.get s.records.patrons n = some p →
        ((m = 0 ∨ s.management.geometry.t < m) → refused .titleRange) ∧
        (m ≠ 0 → m ≤ s.management.geometry.t →
          (∀ r q, liveRequest s p m = some r → Table.get s.requests r = some q → q.patron = n →
            ∃ t, exec i s = .next (replied i .ok [] t) ∧
              t = { s0 with requests := t.requests, records.patrons := t.records.patrons, records.titles := t.records.titles } ∧
              Table.get t.requests r = none ∧ Table.get t.records.patrons n = some { p with wish := p.wish.erase r } ∧
              Table.get t.records.titles m = (Table.get s.records.titles m).map (fun x => { x with waiting := x.waiting.erase r }) ∧
              (∀ j, j ≠ m → Table.get t.records.titles j = Table.get s.records.titles j) ∧
              (∀ j, j ≠ n → Table.get t.records.patrons j = Table.get s.records.patrons j) ∧
              ∀ j, j ≠ r → Table.get t.requests j = Table.get s.requests j) ∧
          (liveRequest s p m = none →
            (∀ c, Table.get s.assembly.cons p.openPack = some c → c.state = .assembling →
              carriesOpen s m p.openPack = true →
              let left := dropLine m c.lines
              ∃ t, t = { s0 with
                  records.patrons := t.records.patrons, records.titles := t.records.titles,
                  assembly.cons := t.assembly.cons } ∧
                (∀ j, Table.get t.records.titles j = (Table.get s.records.titles j).map fun x =>
                  if j = m ∧ x.policy = .onDemand then { x with out := x.out - 1 } else x) ∧
                (∀ j, j ≠ p.openPack → Table.get t.assembly.cons j = Table.get s.assembly.cons j) ∧
                (c.patron = n → ∀ j, j ≠ n → Table.get t.records.patrons j = Table.get s.records.patrons j) ∧
                (left ≠ [] →
                  exec i s = .next (replied i .ok [] (settle (headroom n (examineClose n t)))) ∧
                  Table.get t.assembly.cons p.openPack =
                    some { c with lines := left, used := c.used - (blocksAt s m + 16) } ∧
                  Table.get t.records.patrons n = some { p with charge := p.charge - 1 }) ∧
                (left = [] → c.patron = n →
                  exec i s = .next (replied i .ok [] (settle (headroom n t))) ∧
                  Table.get t.assembly.cons p.openPack = none ∧
                  Table.get t.records.patrons n =
                    some { p with charge := p.charge - 1, chain := p.chain.erase p.openPack, openPack := 0 })) ∧
            ((∀ c, Table.get s.assembly.cons p.openPack = some c → c.state = .assembling →
                carriesOpen s m p.openPack = false) →
              (onLoan s p m = true → refused .tooLate) ∧ (onLoan s p m = false → refused .notFound))))))

/-- The claim score (R43): its formula in integers, its law (0..1,023, and 0..511 for INSTITUTION), and that it does not
fall as the wait grows; a request has a score when its patron is ACTIVE, not held and below its quota (R37), and it is
that one. *Copy freed* for a SHELF title with a copy on its shelf (R44): the highest score wins, between equals the
request nearer the head, and one attempt is made for the winner alone; with no eligible request, and for a title that is
absent, ON_DEMAND, WITHDRAWN or without a copy on its shelf, nothing changes. *Headroom* (R45) tries each request of the
wish list once, from head to tail, against the state the one before left: while the patron is not eligible nothing
changes, a WITHDRAWN title or an empty shelf passes it over, missing consignment records latch POOL_EXHAUSTED (R42), and
else it becomes a line with its day and the charge rises by 1 (R41). -/
def Obligations.ClaimsAreScoredAndChosen : Prop :=
  (∀ (today day : Day) (p : Patron), p.charge < p.quota →
     let raw := 2 * min 511 (daysFrom day today) + (if p.patronClass = .priority then 384 else 0) + 16 * (p.quota - p.charge)
     (p.patronClass ≠ .institution → claimScore today day p = min 1023 raw) ∧
     (p.patronClass = .institution → claimScore today day p = min 1023 raw / 2 ∧ claimScore today day p ≤ 511) ∧
     claimScore today day p ≤ 1023 ∧
     ∀ later : Day, daysFrom day today ≤ daysFrom day later → claimScore today day p ≤ claimScore later day p) ∧
  (∀ (s : State) (r y : Nat),
     scoreOf s r = some y ↔
       ∃ q p, Table.get s.requests r = some q ∧ Table.get s.records.patrons q.patron = some p ∧ p.status = .active ∧
         p.held = false ∧ p.charge < p.quota ∧ y = claimScore s.days.today q.day p) ∧
  (∀ (s : State) (title : Nat),
     (∀ x, Table.get s.records.titles title = some x →
       x.policy = .onDemand ∨ x.shelf = 0 ∨ x.availability = .withdrawn) → copyFreed title s = s) ∧
  (∀ (s : State) (title : Nat) (x : Title), Table.get s.records.titles title = some x → x.policy = .shelf → 1 ≤ x.shelf →
     x.availability = .available →
     ((∀ r ∈ x.waiting, scoreOf s r = none) → copyFreed title s = s) ∧
     ((∃ r ∈ x.waiting, scoreOf s r ≠ none) →
       ∃ before r after y, x.waiting = before ++ r :: after ∧ scoreOf s r = some y ∧
         (∀ b ∈ before, ∀ z, scoreOf s b = some z → z < y) ∧ (∀ a ∈ after, ∀ z, scoreOf s a = some z → z ≤ y) ∧
         copyFreed title s = (attempt r s).2)) ∧
  (∀ (s : State) (n : Nat),
     (Table.get s.records.patrons n = none → headroom n s = s) ∧
     (∀ p, Table.get s.records.patrons n = some p →
       ∃ us : List State, us.length = p.wish.length + 1 ∧ us.head? = some s ∧ us.getLast? = some (headroom n s) ∧
         ∀ a r u u', p.wish[a]? = some r → us[a]? = some u → us[a + 1]? = some u' → u' = (attempt r u).2)) ∧
  ∀ (u : State) (r n : Nat) (q : Request),
    (Table.get u.requests r = none → attempt r u = (.passedOver, u)) ∧
    (Table.get u.requests r = some q → q.patron = n →
      (∀ y x, Table.get u.records.patrons n = some y → Table.get u.records.titles q.title = some x →
        let blocks := if x.granularity = 0 then x.extent + 1 else (x.extent + 1) * 64
        let plan := planSet (windowAt u (resolveWindow u (destination u y))).limit x.volumes x.weight
        let room := Table.lowestFree u.assembly.cons u.management.geometry.c
        let fits :=
          ∃ c, Table.get u.assembly.cons y.openPack = some c ∧ c.used + blocks + 16 ≤ capacityOf u c.cartridgeClass
        let eligible := y.status = .active ∧ y.held = false ∧ y.charge < y.quota
        let lacking := (x.policy = .onDemand ∧ ¬fits ∧ room = none) ∨
          (x.policy = .shelf ∧ (room = none ∨ (x.format = .braille ∧ freeConsignments u < plan.parts)))
        let ready := x.availability = .available ∧ (x.policy = .shelf → 1 ≤ x.shelf)
        (¬(eligible ∧ ready) → attempt r u = (.passedOver, u)) ∧
        (eligible → ready → lacking → attempt r u = (.noRecords, latch .poolExhausted n u)) ∧
        (eligible → ready → ¬lacking → TablesCanonical u → (x.format = .braille → 1 ≤ x.volumes) →
          ∃ k c, (attempt r u).1 = .made k ∧
            let t := (attempt r u).2
            Table.get t.assembly.cons k = some c ∧ { title := q.title, origin := q.day } ∈ c.lines ∧
            (x.policy = .onDemand → fits → k = y.openPack) ∧ (¬(x.policy = .onDemand ∧ fits) → room = some k) ∧
            (∀ j, Table.get t.requests j = if j = r then none else Table.get u.requests j) ∧
            (∃ y', Table.get t.records.patrons n = some y' ∧ y'.wish = y.wish.erase r ∧ y'.charge = y.charge + 1) ∧
            ∃ x', Table.get t.records.titles q.title = some x' ∧ x'.waiting = x.waiting.erase r ∧ x'.out = x.out + 1)) ∧
      ((Table.get u.records.patrons n = none ∨ Table.get u.records.titles q.title = none) →
        attempt r u = (.passedOver, u)))

/-! ## The Assembly Unit (03) -/

/-- Window resolution (R103): the highest-numbered enabled window whose range holds the destination, else window 0. Braille
planning (R65): the parts hold every volume once, each part at least one and at most k, no part above the limit unless the
set is overweight, and then every part one volume. -/
def Obligations.WindowsResolveAndSetsArePlanned : Prop :=
  (∀ (s : State) (dest w : Nat),
     let claimed (v : Nat) : Prop :=
       (windowAt s v).enabled = true ∧ (windowAt s v).low ≤ dest ∧ dest ≤ (windowAt s v).high
     resolveWindow s dest = w ↔
       (1 ≤ w ∧ w ≤ 15 ∧ claimed w ∧ ∀ v, w < v → v ≤ 15 → ¬claimed v) ∨ (w = 0 ∧ ∀ v, 1 ≤ v → v ≤ 15 → ¬claimed v)) ∧
  (∀ limit v w : Nat, 1 ≤ v → 1 ≤ w →
     let plan := planSet limit v w
     plan.perPart = (if limit / w = 0 then 1 else limit / w) ∧ plan.parts = (v + plan.perPart - 1) / plan.perPart ∧
     ((List.range' 1 plan.parts).map fun i => volumesIn plan v i).sum = v ∧
     (∀ i, 1 ≤ i → i ≤ plan.parts → 1 ≤ volumesIn plan v i ∧ volumesIn plan v i ≤ plan.perPart) ∧
     (plan.overweight = true ↔ limit < w) ∧
     (plan.overweight = false → ∀ i, 1 ≤ i → i ≤ plan.parts → volumesIn plan v i * w ≤ limit) ∧
     (plan.overweight = true → plan.parts = v ∧ ∀ i, 1 ≤ i → i ≤ plan.parts → volumesIn plan v i = 1))

/-- FLUSH_PACK in SERVICE (R58 to R60): the refusals; the seal of a patron's open pack, which takes a job at once when a job
record is FREE and no pack waits, and else joins the tail of the sealed list; and the seal of every ASSEMBLING pack in
ascending index, each in the same way, while all other records stand. -/
def Obligations.FlushSealsOpenPacks : Prop :=
  ∀ (patron : U16) (s s0 : State), Takes (.flushPack patron) s s0 → s.management.mode = .service →
    let n := patron.toNat
    let i := Instr.flushPack patron
    let refused (c : Code) : Prop := exec i s = .next (replied i c [] s0)
    (s.management.geometry.p < n → refused .patronRange) ∧
    (n ≠ 0 → n ≤ s.management.geometry.p →
      (Table.get s.records.patrons n = none → refused .patronAbsent) ∧
      (∀ p, Table.get s.records.patrons n = some p →
        (p.openPack = 0 → refused .notFound) ∧
        (∀ c, p.openPack ≠ 0 → Table.get s.assembly.cons p.openPack = some c → c.state = .assembling → c.patron = n →
          let priority := match p.patronClass with | .institution => 0 | .standard => 1 | .priority => 2
          (∀ j, s.assembly.sealedList = [] → Table.lowestFree s.scheduler.jobs s.management.geometry.j = some j →
            ∃ t, exec i s = .next (replied i .ok [] (settle t)) ∧
              Table.get t.assembly.cons p.openPack = some { c with state := .duplicating, sealPriority := priority, job := j } ∧
              Table.get t.records.patrons n = some { p with openPack := 0 } ∧
              Table.get t.scheduler.jobs j =
                some { state := .queued, kind := .pack, priority := priority, consignment := p.openPack,
                       cartridgeClass := c.cartridgeClass } ∧
              queueAt t priority = queueAt s priority ++ [j] ∧ (∀ l, l ≠ priority → queueAt t l = queueAt s l) ∧
              (∀ k, k ≠ p.openPack → Table.get t.assembly.cons k = Table.get s.assembly.cons k) ∧
              (∀ m, m ≠ n → Table.get t.records.patrons m = Table.get s.records.patrons m) ∧
              (∀ o, o ≠ j → Table.get t.scheduler.jobs o = Table.get s.scheduler.jobs o) ∧
              t = { s0 with
                records.patrons := t.records.patrons, assembly.cons := t.assembly.cons, scheduler.jobs := t.scheduler.jobs,
                scheduler.queues := t.scheduler.queues, passDue := true }) ∧
          ((s.assembly.sealedList ≠ [] ∨ Table.lowestFree s.scheduler.jobs s.management.geometry.j = none) →
            ∃ t, exec i s = .next (replied i .ok [] t) ∧
              Table.get t.assembly.cons p.openPack = some { c with state := .sealed, sealPriority := priority } ∧
              t = { s0 with
                records.patrons := t.records.patrons, assembly.cons := t.assembly.cons,
                assembly.sealedList := s.assembly.sealedList ++ [p.openPack] } ∧
              (∀ k, k ≠ p.openPack → Table.get t.assembly.cons k = Table.get s.assembly.cons k) ∧
              (∀ m, m ≠ n → Table.get t.records.patrons m = Table.get s.records.patrons m) ∧
              Table.get t.records.patrons n = some { p with openPack := 0 })))) ∧
    (n = 0 →
      ∃ t, exec i s = .next t ∧ t.line.replySlot = some ⟨1, 0, 80, [18, 0]⟩ ∧ t.dispatch = s.dispatch ∧
        t.returns = s.returns ∧ t.days = s.days ∧ t.requests = s.requests ∧ t.records.titles = s.records.titles ∧
        ∀ k c, Table.get t.assembly.cons k = some c → c.state = .assembling → Table.get s.records.patrons c.patron = none) ∧
    (n = 0 → TablesCanonical s →
      let ks := (s.assembly.cons.filter fun e =>
        decide (e.2.state = .assembling) && (Table.get s.records.patrons e.2.patron).isSome).map Prod.fst
      let free := (List.range' 1 s.management.geometry.j).filter fun j => (Table.get s.scheduler.jobs j).isNone
      let js := if s.assembly.sealedList = [] then free.take ks.length else []
      let priority (k : Nat) : Nat :=
        match (Table.get s.assembly.cons k).bind fun c => Table.get s.records.patrons c.patron with
        | none => 0
        | some p => match p.patronClass with | .institution => 0 | .standard => 1 | .priority => 2
      ∃ t, exec i s = .next (replied i .ok [] (settle t)) ∧
        t = { s0 with
          records.patrons := t.records.patrons, assembly.cons := t.assembly.cons
          assembly.sealedList := s.assembly.sealedList ++ ks.drop js.length
          scheduler.jobs := t.scheduler.jobs, scheduler.queues := t.scheduler.queues, passDue := decide (js ≠ []) } ∧
        (∀ k, k ∉ ks → Table.get t.assembly.cons k = Table.get s.assembly.cons k) ∧
        (∀ a k c, ks[a]? = some k → Table.get s.assembly.cons k = some c →
          (js.length ≤ a → Table.get t.assembly.cons k = some { c with state := .sealed, sealPriority := priority k }) ∧
          (∀ j, js[a]? = some j →
            Table.get t.assembly.cons k = some { c with state := .duplicating, sealPriority := priority k, job := j } ∧
            Table.get t.scheduler.jobs j =
              some { state := .queued, kind := .pack, priority := priority k, consignment := k,
                     cartridgeClass := c.cartridgeClass })) ∧
        (∀ j, j ∉ js → Table.get t.scheduler.jobs j = Table.get s.scheduler.jobs j) ∧
        (∀ l, l ≤ 3 → queueAt t l =
          queueAt s l ++ ((js.zip ks).filter fun e => decide (priority e.2 = l)).map Prod.fst) ∧
        ∀ m, Table.get t.records.patrons m = (Table.get s.records.patrons m).map fun p =>
          if ks.any fun k => (Table.get s.assembly.cons k).any fun c => c.patron == m then { p with openPack := 0 } else p)

/-- PICK (R68, R197): the PICK at the head of the pending list is handed on when the role names a station, the floor queue
has room for it; otherwise nothing changes. What waits for room in the floor transmit queue
(R78, R123, R197): the oldest owed command of the lowest-numbered bay that owes one, with its stall timer loaded unless it
is an ABANDON (R79); and the owed answer to the scanner, behind every owed command. A change of the pick role and RESTART
hand on, from the head of the rebuilt list, every PICK that has a place. A producer has room while the queue holds fewer than
32; in a queue that was full the places are contended until no frame waits, and go in R197's order: a forwarded frame at the
head of the office queue, owed commands, the owed answer, the VERDICT of an item in inspection, pending picks, releases (log
10). -/
def Obligations.WaitingFramesAreHandedOn : Prop :=
  (∀ s : State, NoPassOwed s →
     (∀ k rest c l more, s.assembly.picks = k :: rest → Table.get s.assembly.cons k = some c → c.lines = l :: more →
       s.management.settings.pickRole ≠ 0 → floorRoom (aheadOfPicks s) s = true →
       exec .pick s = .next (toFloor
         ⟨byteOf s.management.settings.pickRole, 0, 128,
           bytesLE 2 k ++ bytesLE 2 l.title ++
             (if c.kind = .braillePart then [1, byteOf c.parts] else [0, byteOf c.cartridgeClass])⟩
         { s with assembly.picks := rest, assembly.picksSent := s.assembly.picksSent + 1 })) ∧
     ((s.assembly.picks = [] ∨ s.management.settings.pickRole = 0 ∨ floorRoom (aheadOfPicks s) s = false) →
       exec .pick s = .next s)) ∧
  (∀ s : State,
     let role := s.management.settings.pickRole
     let n :=
       if role = 0 ∨ floorRoom (aheadOfPicks s) s = false then 0
       else min s.assembly.picks.length (32 - s.line.floorTx.length)
     let frame (k : Nat) (c : Consignment) : Frame :=
       ⟨byteOf role, 0, 128,
         bytesLE 2 k ++ bytesLE 2 ((c.lines.head?.map Line.title).getD 0) ++
           (if c.kind = .braillePart then [1, byteOf c.parts] else [0, byteOf c.cartridgeClass])⟩
     (∀ k ∈ s.assembly.picks, (Table.get s.assembly.cons k).isSome = true) →
     handPicks s.assembly.picks.length s = { s with
       assembly.picks := s.assembly.picks.drop n
       assembly.picksSent := s.assembly.picksSent + n
       line.contended := if n = 0 then s.line.contended else s.line.contended && decide (n < s.assembly.picks.length)
       line.floorTx := s.line.floorTx ++
         (s.assembly.picks.take n).filterMap fun k => (Table.get s.assembly.cons k).map (frame k) }) ∧
  (∀ s : State,
     (∀ n, floorRoom n s = true ↔ s.line.floorTx.length < 32 ∧ (s.line.contended = false ∨ n = 0)) ∧
     (∀ f, toFloor f s = { s with
       line.floorTx := s.line.floorTx ++ [f], line.contended := s.line.contended && decide (aheadOfReleases s ≠ 0) }) ∧
     aheadOfCommands s = waitingForwards s ∧ aheadOfAnswers s = waitingForwards s + waitingCommands s ∧
     aheadOfVerdicts s = aheadOfAnswers s + waitingAnswers s ∧ aheadOfPicks s = aheadOfVerdicts s + waitingVerdicts s ∧
     aheadOfReleases s = aheadOfPicks s + waitingPicks s ∧
     (waitingForwards s ≠ 0 ↔
       s.line.answering = false ∧ ∃ f rest, s.line.officeRx = f :: rest ∧ f.src = 1 ∧ 16 ≤ f.dst.toNat) ∧
     (waitingCommands s ≠ 0 ↔ ∃ b ∈ bayNumbers, (bayAt s b).owed ≠ []) ∧
     (waitingAnswers s ≠ 0 ↔ s.returns.owedAnswer ≠ none) ∧ (waitingVerdicts s ≠ 0 ↔ s.returns.item ≠ none) ∧
     (waitingPicks s ≠ 0 ↔ s.management.settings.pickRole ≠ 0 ∧ s.assembly.picks ≠ [])) ∧
  (∀ s : State,
     (∀ b f rest, 1 ≤ b → b ≤ 24 → (∀ o, 1 ≤ o → o < b → (bayAt s o).owed = []) → (bayAt s b).owed = f :: rest →
       (floorRoom (waitingForwards s) s = true →
         ∃ u t, exec .owedCommandHandOn s = .next t ∧ u = { s with scheduler.bays := u.scheduler.bays } ∧
           bayAt u b = { bayAt s b with owed := rest } ∧ (∀ o, o ≠ b → bayAt u o = bayAt s o) ∧
           t = { toFloor f u with scheduler.bays := t.scheduler.bays } ∧
           (f.kind = 115 → bayAt t b = { bayAt s b with owed := rest }) ∧
           ((f.kind = 112 ∨ f.kind = 113 ∨ f.kind = 114) →
             bayAt t b = { bayAt s b with owed := rest, timer := s.management.settings.stallSeconds, running := true }) ∧
           ∀ o, o ≠ b → bayAt t o = bayAt s o) ∧
       (floorRoom (waitingForwards s) s = false → exec .owedCommandHandOn s = .next s)) ∧
     ((∀ b, (bayAt s b).owed = []) → exec .owedCommandHandOn s = .next s) ∧
     (∀ f, s.returns.owedAnswer = some f →
       (floorRoom (waitingForwards s + waitingCommands s) s = true →
         exec .owedReturnAnswer s = .next (toFloor f { s with returns.owedAnswer := none })) ∧
       (floorRoom (waitingForwards s + waitingCommands s) s = false → exec .owedReturnAnswer s = .next s)) ∧
     (s.returns.owedAnswer = none → exec .owedReturnAnswer s = .next s))

/-- PICKED and NOT_FOUND (R69 to R71, R47, R48): a PICKED makes a SHELF_AUDIO consignment READY at the tail of the ready
queue with its serial, and every part of a braille set with the copy number, in order, a release pass after each (R105,
R107); a NOT_FOUND takes the copy, and the cartridge of a SHELF_AUDIO consignment, out of the accounts, frees the record
or every part of the set, restores the line, or drops it with RESTORE_DROPPED when no request record is FREE, and one
*headroom* walk follows; any other answer is discarded. -/
def Obligations.PickAnswersAreTaken : Prop :=
  ∀ (src : Byte) (consignment : U16) (serial : U32) (s s1 : State), AtUnit .pickStation src.toNat s s1 →
    let k := consignment.toNat
    let ended : List Nat × Nat :=
      if k ∈ s.assembly.picks then (s.assembly.picks.erase k, s.assembly.picksSent)
      else (s.assembly.picks, s.assembly.picksSent - 1)
    (∀ c l more, Table.get s.assembly.cons k = some c → c.state = .picking → c.lines = l :: more →
      (c.kind = .shelfAudio →
        ∃ t, exec (.picked src consignment serial) s = .next (passReleases t) ∧
          t = { s1 with
            assembly.cons := t.assembly.cons, assembly.picks := ended.1, assembly.picksSent := ended.2,
            dispatch.ready := s.dispatch.ready ++ [k] } ∧
          Table.get t.assembly.cons k = some { c with serial := some serial, state := .ready } ∧
          ∀ j, j ≠ k → Table.get t.assembly.cons j = Table.get s.assembly.cons j) ∧
      (c.kind = .braillePart →
        ∃ u t, exec (.picked src consignment serial) s = .next t ∧
          u = { s1 with assembly.cons := u.assembly.cons, assembly.picks := ended.1, assembly.picksSent := ended.2 } ∧
          (∀ j, Table.get u.assembly.cons j =
            if j ∈ setParts s k then (Table.get s.assembly.cons j).map fun x => { x with serial := some serial }
            else Table.get s.assembly.cons j) ∧
          t = (setParts s k).foldl
            (fun w j => passReleases
              (modCons j (fun x => { x with state := .ready }) { w with dispatch.ready := w.dispatch.ready ++ [j] })) u ∧
          t = { s1 with
            line.floorTx := t.line.floorTx, line.contended := t.line.contended, assembly.cons := t.assembly.cons,
            assembly.picks := ended.1, assembly.picksSent := ended.2,
            dispatch.ready := s.dispatch.ready ++ setParts s k, dispatch.outstanding := t.dispatch.outstanding } ∧
          (∀ j ∈ setParts s k, ∃ x st, Table.get s.assembly.cons j = some x ∧ (st = .ready ∨ st = .releasing) ∧
            Table.get t.assembly.cons j = some { x with serial := some serial, state := st }) ∧
          ∀ j, j ∉ setParts s k →
            Table.get t.assembly.cons j = Table.get s.assembly.cons j ∨
              ∃ x, Table.get s.assembly.cons j = some x ∧ x.state = .ready ∧
                Table.get t.assembly.cons j = some { x with state := .releasing }) ∧
      (∀ p x, c.kind ≠ .pack → l.state = .isOpen → more = [] →
        Table.get s.records.patrons c.patron = some p → Table.get s.records.titles l.title = some x → x.policy = .shelf →
        let freed := if c.kind = .braillePart then setParts s k else [k]
        let left : Title := { x with copies := x.copies - 1, out := x.out - 1 }
        ∃ t p', exec (.notFound src consignment) s = .next (settle (latch .pickShort l.title (headroom c.patron t))) ∧
          t = { s1 with
            records := t.records, requests := t.requests, accounts := t.accounts, assembly := t.assembly,
            management := t.management } ∧
          (∀ j, Table.get t.assembly.cons j = if j ∈ freed then none else Table.get s.assembly.cons j) ∧
          t.assembly.picks = ended.1 ∧ t.assembly.picksSent = ended.2 ∧ t.assembly.sealedList = s.assembly.sealedList ∧
          Table.get t.records.patrons c.patron = some p' ∧ p'.charge = p.charge - 1 ∧
          p' = { p with charge := p.charge - 1, chain := p'.chain, openPack := p'.openPack, wish := p'.wish } ∧
          (c.kind = .shelfAudio →
            p'.chain = p.chain.erase k ∧ p'.openPack = if p.openPack = k then 0 else p.openPack) ∧
          (TablesCanonical s → (∀ i ∈ freed, ∀ e, Table.get s.assembly.cons i = some e → e.patron = c.patron) →
            p'.chain = freed.foldl List.erase p.chain ∧
            p'.openPack = (if p.openPack ∈ freed then 0 else p.openPack) ∧
            ∀ n, n ≠ c.patron → Table.get t.records.patrons n = Table.get s.records.patrons n) ∧
          (∀ m, m ≠ l.title → Table.get t.records.titles m = Table.get s.records.titles m) ∧
          t.records.agencies = s.records.agencies ∧
          (c.kind = .braillePart → t.accounts = s.accounts) ∧
          (c.kind = .shelfAudio → ∀ d, accountAt t d =
            if d = c.cartridgeClass ∧ 1 ≤ d ∧ d ≤ 4 then ClassAccount.writeOff .consigned 1 (accountAt s d)
            else accountAt s d) ∧
          (∀ r, Table.lowestFree s.requests s.management.geometry.q = some r →
            t.management = s.management ∧ r ∈ p'.wish ∧ (0 ∉ p.wish → p'.wish = r :: p.wish) ∧
            Table.get t.records.titles l.title = some { left with waiting := r :: x.waiting } ∧
            Table.get t.requests r = some { patron := c.patron, title := l.title, day := l.origin } ∧
            ∀ o, o ≠ r → Table.get t.requests o = Table.get s.requests o) ∧
          (Table.lowestFree s.requests s.management.geometry.q = none →
            t.management = (latch .restoreDropped c.patron s).management ∧ p'.wish = p.wish ∧
            Table.get t.records.titles l.title = some left ∧ t.requests = s.requests))) ∧
    ((∀ c, Table.get s.assembly.cons k = some c → c.state ≠ .picking ∨ c.lines = []) →
      exec (.picked src consignment serial) s = .next s1 ∧ exec (.notFound src consignment) s = .next s1)

/-! ## The Duplication Scheduler (04) -/

/-- SET_BAY (R76): its checks in order, and the three fields it writes (values above the fields' ranges: log 27). BAY_ONLINE
and BAY_OFFLINE in SERVICE (R77, R96): their refusals, the bays they leave alone, a bay brought online (its stopped timer's
reading stands, log 24), and a bay taken offline with an ABANDON for each job it held, handed to the floor or owed, its jobs
put back at the heads of their levels and their cartridges on the repair bench. -/
def Obligations.BaysAreSetUp : Prop :=
  (∀ (bay address classes preempt : Byte) (s s0 : State), Takes (.setBay bay address classes preempt) s s0 →
     let i := Instr.setBay bay address classes preempt
     let b := bay.toNat
     let a := address.toNat
     let x := s.management.settings
     let bad := b = 0 ∨ 24 < b ∨ (a ≠ 0 ∧ (a < 16 ∨ 62 < a)) ∨ 1 < preempt.toNat ∨ 15 < classes.toNat ∨ (a ≠ 0 ∧ classes = 0)
     let taken := a ≠ 0 ∧ ((∃ o ∈ bayNumbers, o ≠ b ∧ (bayAt s o).address = a) ∨ a = x.pickRole ∨ a = x.sorterRole ∨
       a = x.scannerRole)
     (bad → exec i s = .next (replied i .badField [] s0)) ∧
     (¬bad → (bayAt s b).state ≠ .offline → exec i s = .next (replied i .inUse [] s0)) ∧
     (¬bad → (bayAt s b).state = .offline → taken → exec i s = .next (replied i .conflict [] s0)) ∧
     (¬bad → (bayAt s b).state = .offline → ¬taken →
       ∃ t, exec i s = .next (replied i .ok [] t) ∧ t = { s0 with scheduler.bays := t.scheduler.bays } ∧
         bayAt t b = { bayAt s b with address := a, classes := if a = 0 then 0 else classes,
                                      preempt := decide (a ≠ 0) && decide (preempt = 1) } ∧
         ∀ o, o ≠ b → bayAt t o = bayAt s o)) ∧
  (∀ (bay : Byte) (s s0 : State), s.management.mode = .service →
     let b := bay.toNat
     (Takes (.bayOnline bay) s s0 →
       let i := Instr.bayOnline bay
       ((b = 0 ∨ 24 < b ∨ (bayAt s b).address = 0) → exec i s = .next (replied i .badField [] s0)) ∧
       (1 ≤ b → b ≤ 24 → (bayAt s b).address ≠ 0 →
         (((bayAt s b).state = .idle ∨ (bayAt s b).state = .loading ∨ (bayAt s b).state = .writing ∨
             (bayAt s b).state = .parking) → exec i s = .next (replied i .ok [] s0)) ∧
         (((bayAt s b).state = .offline ∨ (bayAt s b).state = .faulted) →
           ∃ t, exec i s = .next (replied i .ok [] (settle t)) ∧ t.passDue = true ∧
             t = { s0 with scheduler.bays := t.scheduler.bays, line.pollSet := t.line.pollSet, passDue := true } ∧
             bayAt t b = { bayAt s b with state := .idle, active := 0, stack := [], preemptor := 0, owed := [],
                                          running := false, cause := .none } ∧
             (∀ o, o ≠ b → bayAt t o = bayAt s o) ∧
             ∀ k, k < 64 → (t.line.pollSet.getLsbD k = true ↔
               k = (bayAt s b).address ∨ s.line.pollSet.getLsbD k = true)))) ∧
     (Takes (.bayOffline bay) s s0 →
       let i := Instr.bayOffline bay
       ((b = 0 ∨ 24 < b) → exec i s = .next (replied i .badField [] s0)) ∧
       (1 ≤ b → b ≤ 24 →
         ((bayAt s b).state = .offline → exec i s = .next (replied i .ok [] s0)) ∧
         ((bayAt s b).state = .faulted →
           exec i s = .next (replied i .ok [] (modBay b (fun x => { x with state := .offline }) s0))) ∧
         (((bayAt s b).state = .idle ∨ (bayAt s b).state = .loading ∨ (bayAt s b).state = .writing ∨
             (bayAt s b).state = .parking) →
           (∃ u, exec i s = .next (replied i .ok [] (settle u)) ∧ PutBack s u [b] ∧ u.passDue = true ∧
             (bayAt u b).state = .offline ∧ (bayAt u b).active = 0 ∧ (bayAt u b).stack = [] ∧ (bayAt u b).preemptor = 0 ∧
             u.management = s.management ∧ ∀ o, o ≠ b → bayAt u o = bayAt s o) ∧
           ∃ t, exec i s = .next t ∧ t.line.replySlot = some ⟨1, 0, 80, [15, 0]⟩ ∧
             (bayAt t b).state = .offline ∧ (bayAt t b).active = 0 ∧ (bayAt t b).stack = [] ∧ (bayAt t b).preemptor = 0 ∧
             (bayAt t b).running = false ∧ (bayAt t b).address = (bayAt s b).address ∧
             (∀ k, k < 64 → k = (bayAt s b).address → k ≠ 0 → t.line.pollSet.getLsbD k = false) ∧
             t.records = s.records ∧ t.requests = s.requests ∧ t.assembly = s.assembly ∧ t.dispatch = s.dispatch ∧
             t.returns = s.returns ∧ t.days = s.days ∧
             ∀ j, (j ∈ (bayAt s b).stack ∨ ((bayAt s b).active ≠ 0 ∧ j = (bayAt s b).active)) →
               abandonFrame (bayAt s b).address j ∈ t.line.floorTx ∨
                 abandonFrame (bayAt s b).address j ∈ (bayAt t b).owed))))

/-- A placement pass tries every queued job once, levels 3 to 0, head to tail (R80). A job's try (R80 to R82): BLANK_SHORT
for want of a blank; else the lowest IDLE bay that accepts its class; else the pre-emption candidate with the lowest active
priority, between equals the lowest bay; else nothing. Placing, parking for a pre-emptor and resuming: the job, its queue,
the bay, its stall timer (R79), the accounts and the LOAD, PARK or RESUME (R81, R82, R93), handed to the floor while it has
room for it, else owed (R78; log 10). Next work (R92): the first queued job the bay accepts,
above its top parked job, with a blank; else the top parked job resumes, or the bay is IDLE. A pending pre-emptor is loaded,
or goes back to its level for want of a blank (R87). The block counts of AUDIO titles are R9's;
for a BRAILLE title, which only the LOAD of a STOCK run can meet, R9's formula is the model's choice (log 37). -/
def Obligations.PlacementLoadsTheBay : Prop :=
  (∀ s : State, placementPass s = (queueAt s 3 ++ queueAt s 2 ++ queueAt s 1 ++ queueAt s 0).foldl tryPlace s ∧
    (s.passDue = true → settle s = { placementPass s with passDue := false })) ∧
  (∀ (s : State) (j : Nat) (job : Job), Table.get s.scheduler.jobs j = some job →
    let blank := (accountAt s job.cartridgeClass).blank
    let accepts (b : Nat) : Prop := 1 ≤ job.cartridgeClass ∧ (bayAt s b).classes.getLsbD (job.cartridgeClass - 1) = true
    let idle (b : Nat) : Prop := b ∈ bayNumbers ∧ (bayAt s b).state = .idle ∧ accepts b
    let activeAt (b : Nat) : Nat := priorityOf s (bayAt s b).active
    let candidate (b : Nat) : Prop :=
      b ∈ bayNumbers ∧ (bayAt s b).preempt = true ∧ (bayAt s b).state = .writing ∧ (bayAt s b).stack.length < 2 ∧ accepts b ∧
        activeAt b < job.priority
    (blank = 0 → tryPlace s j = latch .blankShort job.cartridgeClass s) ∧
    (1 ≤ blank →
      (∀ b, idle b → (∀ o, idle o → b ≤ o) → tryPlace s j = placeOn b j s) ∧
      ((∀ b, ¬idle b) →
        (∀ b, candidate b → (∀ o, candidate o → activeAt b < activeAt o ∨ (activeAt b = activeAt o ∧ b ≤ o)) →
          tryPlace s j = preemptOn b j s) ∧
        ((∀ b, ¬candidate b) → tryPlace s j = s)))) ∧
  (∀ (s : State) (b j : Nat) (job : Job), 1 ≤ b → b ≤ 24 → Table.get s.scheduler.jobs j = some job →
    let room := floorRoom (waitingForwards s + waitingCommands s) s = true
    let bay := bayAt s b
    let loaded (x : Bay) : Bay := { x with timer := s.management.settings.stallSeconds, running := true }
    let sends (f : Frame) (x : Bay) (t : State) : Prop :=
      (room → t.line = (toFloor f s).line ∧ bayAt t b = x) ∧
      (¬room → t.line = s.line ∧ bayAt t b = { x with owed := x.owed ++ [f] }) ∧ (∀ o, o ≠ b → bayAt t o = bayAt s o) ∧
      ∀ i, i ≠ j → Table.get t.scheduler.jobs i = Table.get s.scheduler.jobs i
    let dequeued (t : State) : Prop :=
      ∀ l, queueAt t l = if l = job.priority then (queueAt s l).erase j else queueAt s l
    (let t := placeOn b j s
     t = { s with line := t.line, scheduler := t.scheduler, accounts := t.accounts } ∧
     Table.get t.scheduler.jobs j = some { job with state := .active, bay := b, offset := 0, serial := none } ∧
     (1 ≤ job.cartridgeClass → job.cartridgeClass ≤ 4 → 1 ≤ (accountAt s job.cartridgeClass).blank →
       accountAt t job.cartridgeClass =
         { accountAt s job.cartridgeClass with
           blank := (accountAt s job.cartridgeClass).blank - 1
           reserved := (accountAt s job.cartridgeClass).reserved + 1 }) ∧
     (∀ c, c ≠ job.cartridgeClass → accountAt t c = accountAt s c) ∧ dequeued t ∧
     sends ⟨byteOf bay.address, 0, 112,
         bytesLE 2 j ++ [byteOf job.cartridgeClass] ++ bytesLE 3 0 ++ [byteOf (loadBlocks s job).length] ++
           (loadBlocks s job).flatMap (bytesLE 3)⟩
       (loaded { bay with active := j, state := .loading }) t) ∧
    (let t := preemptOn b j s
     t = { s with line := t.line, scheduler := t.scheduler } ∧
     Table.get t.scheduler.jobs j = some { job with state := .pending, bay := b } ∧ dequeued t ∧
     sends ⟨byteOf bay.address, 0, 113, bytesLE 2 bay.active⟩ (loaded { bay with preemptor := j, state := .parking }) t) ∧
    (let t := resumeOn b j s
     t = { s with line := t.line, scheduler := t.scheduler } ∧
     Table.get t.scheduler.jobs j = some { job with state := .active } ∧ t.scheduler.queues = s.scheduler.queues ∧
     sends ⟨byteOf bay.address, 0, 114, bytesLE 2 j ++ bytesLE 3 job.offset⟩
       (loaded { bay with active := j, stack := bay.stack.drop 1, state := .loading }) t)) ∧
  (∀ (s : State) (job : Job),
    (job.kind = .stock → loadBlocks s job = [blocksAt s job.title]) ∧
    (∀ c, job.kind = .pack → Table.get s.assembly.cons job.consignment = some c →
      loadBlocks s job = c.lines.map fun l => blocksAt s l.title) ∧
    ∀ m x, Table.get s.records.titles m = some x →
      blocksAt s m = if x.granularity = 0 then x.extent + 1 else (x.extent + 1) * 64) ∧
  (∀ (s : State) (b : Nat),
    let least := match (bayAt s b).stack with | [] => 0 | top :: _ => priorityOf s top + 1
    let fits (x : Job) : Prop :=
      (1 ≤ x.cartridgeClass ∧ (bayAt s b).classes.getLsbD (x.cartridgeClass - 1) = true) ∧ least ≤ x.priority
    let blank (x : Job) : Nat := (accountAt s x.cartridgeClass).blank
    let short (js : List Nat) : State := js.foldl
      (fun u i =>
        match Table.get s.scheduler.jobs i with
        | none => u
        | some x =>
          if acceptsClass (bayAt s b) x.cartridgeClass = true ∧ least ≤ x.priority ∧ blank x = 0 then
            latch .blankShort x.cartridgeClass u
          else u) s
    let order := queueAt s 3 ++ queueAt s 2 ++ queueAt s 1 ++ queueAt s 0
    let unfit (i : Nat) : Prop := ∀ x, Table.get s.scheduler.jobs i = some x → ¬(fits x ∧ 1 ≤ blank x)
    (∀ before j after x, order = before ++ j :: after → (∀ i ∈ before, unfit i) → Table.get s.scheduler.jobs j = some x →
      fits x → 1 ≤ blank x → nextWork b s = placeOn b j (short before)) ∧
    ((∀ i ∈ order, unfit i) →
      (∀ top more, (bayAt s b).stack = top :: more → nextWork b s = resumeOn b top (short order)) ∧
      ((bayAt s b).stack = [] →
        nextWork b s =
          { modBay b (fun x => { x with state := .idle, running := false }) (short order) with passDue := true }))) ∧
  ∀ (s : State) (b : Nat) (job : Job), Table.get s.scheduler.jobs (bayAt s b).preemptor = some job →
    let j := (bayAt s b).preemptor
    let left := modBay b (fun x => { x with preemptor := 0 }) s
    (1 ≤ (accountAt s job.cartridgeClass).blank → loadPreemptor b s = placeOn b j left) ∧
    ((accountAt s job.cartridgeClass).blank = 0 →
      ∃ u, loadPreemptor b s = nextWork b u ∧
        u = { latch .blankShort job.cartridgeClass left with
          scheduler.jobs := u.scheduler.jobs, scheduler.queues := u.scheduler.queues, passDue := true } ∧
        Table.get u.scheduler.jobs j = some { job with state := .queued, bay := 0 } ∧
        ∀ l, l ≤ 3 → queueAt u l = if l = job.priority then j :: queueAt s l else queueAt s l)

/-- STARTED, PROGRESS and PARKED from a bay in its reply turn (R83 to R85, R87): what each writes when it names the bay's
active job in a state that takes it, and that any other is discarded. -/
def Obligations.BayReportsAreTaken : Prop :=
  ∀ (src : Byte) (job : U16) (s s1 : State) (b : Nat), AtBay src.toNat b s s1 →
    let j := job.toNat
    let active := j ≠ 0 ∧ (bayAt s b).active = j
    let working := (bayAt s b).state = .loading ∨ (bayAt s b).state = .writing ∨ (bayAt s b).state = .parking
    (∀ serial : U32,
      (active → (bayAt s b).state = .loading →
        exec (.started src job serial) s =
          .next (modBay b (fun x => { x with state := .writing, owed := x.owed.filter fun f => !waitsForAnswer f })
            (modJob j (fun x => { x with serial := some serial }) s1))) ∧
      (active → (bayAt s b).state = .writing →
        exec (.started src job serial) s = .next (modJob j (fun x => { x with serial := some serial }) s1)) ∧
      (¬(active ∧ ((bayAt s b).state = .loading ∨ (bayAt s b).state = .writing)) →
        exec (.started src job serial) s = .next s1)) ∧
    (∀ blocks : U24,
      (active → working →
        exec (.progress src job blocks) s =
          .next (modJob j (fun x => { x with offset := min 4194304 blocks.toNat }) s1)) ∧
      (¬(active ∧ working) → exec (.progress src job blocks) s = .next s1)) ∧
    (∀ offset : U24,
      (active → (bayAt s b).state = .parking →
        ∃ t, exec (.parked src job offset) s = .next (settle (loadPreemptor b t)) ∧
          bayAt t b = { bayAt s1 b with active := 0, stack := j :: (bayAt s b).stack,
                                        owed := (bayAt s b).owed.filter fun f => !waitsForAnswer f } ∧
          Table.get t.scheduler.jobs j =
            (Table.get s.scheduler.jobs j).map (fun x => { x with state := .parked, offset := offset.toNat }) ∧
          (∀ o, o ≠ b → bayAt t o = bayAt s o) ∧ (∀ i, i ≠ j → Table.get t.scheduler.jobs i = Table.get s.scheduler.jobs i) ∧
          t = { s1 with scheduler.bays := t.scheduler.bays, scheduler.jobs := t.scheduler.jobs }) ∧
      (¬(active ∧ (bayAt s b).state = .parking) → exec (.parked src job offset) s = .next s1))

/-- COPY_DONE for a bay's active job (R86, R88 to R91, R98). PASS of a PACK makes its consignment READY with its serial and
moves its cartridge to consigned; PASS of a STOCK run adds a copy to its title, whose *copy freed* competition follows, and
goes on for the copies that remain at the tail of level 0, or ends, or, its title no longer SHELF audio of its class, ends
with the cartridge blank. A first FAIL moves the cartridge to repair and puts the job at the head of its level; a second
fails it: JOB_FAILED, a PACK's consignment freed and its lines restored, the record freed. Lines restored (R47, R48) stand
in their order at the head of the wish list, each at the head of its title's list with its origin day; those past the last
FREE request record are dropped, each with RESTORE_DROPPED; one *headroom* walk follows. A freed record goes to the head
of the sealed list (R61). Then the bay takes next work, or its pending pre-emptor when it was PARKING. Any other COPY_DONE
is discarded. -/
def Obligations.CopyResultsAreTaken : Prop :=
  (∀ (src : Byte) (job : U16) (serial : U32) (s s1 : State) (b : Nat), AtBay src.toNat b s s1 →
    let j := job.toNat
    let active := j ≠ 0 ∧ (bayAt s b).active = j
    let working := (bayAt s b).state = .loading ∨ (bayAt s b).state = .writing ∨ (bayAt s b).state = .parking
    (∀ x, active → working → Table.get s.scheduler.jobs j = some x → 1 ≤ x.cartridgeClass → x.cartridgeClass ≤ 4 →
      1 ≤ (accountAt s x.cartridgeClass).reserved →
      let a := accountAt s x.cartridgeClass
      let others (u : State) : Prop := ∀ d, d ≠ x.cartridgeClass → accountAt u d = accountAt s d
      let done (result : Byte) (u : State) : Prop :=
        exec (.copyDone src job serial result) s = .next (settle (afterJob b u))
      (∀ c, x.kind = .pack → Table.get s.assembly.cons x.consignment = some c →
        (∃ u, done 0 (freeJob j (passReleases u)) ∧
          u = { s1 with
            assembly.cons := u.assembly.cons, accounts := u.accounts
            dispatch.ready := s.dispatch.ready ++ [x.consignment] } ∧
          Table.get u.assembly.cons x.consignment = some { c with serial := some serial, job := 0, state := .ready } ∧
          (∀ k, k ≠ x.consignment → Table.get u.assembly.cons k = Table.get s.assembly.cons k) ∧
          accountAt u x.cartridgeClass = { a with reserved := a.reserved - 1, consigned := a.consigned + 1 } ∧ others u) ∧
        (s.assembly.sealedList = [] →
          ∃ t, exec (.copyDone src job serial 0) s = .next t ∧
            (∃ c', Table.get t.assembly.cons x.consignment = some c' ∧ c'.serial = some serial ∧ c'.job = 0 ∧
              (c'.state = .ready ∨ c'.state = .releasing) ∧ c'.lines = c.lines) ∧
            t.dispatch.ready = s.dispatch.ready ++ [x.consignment] ∧ Table.get t.scheduler.jobs j = none ∧
            t.records = s.records ∧ t.requests = s.requests ∧ t.returns = s.returns ∧ t.days = s.days ∧
            (accountAt t x.cartridgeClass).consigned = (accountAt s x.cartridgeClass).consigned + 1)) ∧
      (x.kind = .stock →
        let qualifies := ∃ y, Table.get s.records.titles x.title = some y ∧ y.format = .audio ∧ y.policy = .shelf ∧
          y.shelfClass = x.cartridgeClass
        (qualifies →
          ∃ u, u = { s1 with accounts := u.accounts, records.titles := u.records.titles } ∧
            (∀ m, Table.get u.records.titles m = (Table.get s.records.titles m).map fun y =>
              if m = x.title then { y with copies := y.copies + 1, shelf := y.shelf + 1 } else y) ∧
            accountAt u x.cartridgeClass = { a with reserved := a.reserved - 1, shelf := a.shelf + 1 } ∧ others u ∧
            (x.remaining ≤ 1 → done 0 (freeJob j (copyFreed x.title u))) ∧
            (2 ≤ x.remaining →
              done 0 (queueTail j (modJob j
                (fun y => { y with remaining := x.remaining - 1, retry := false, priority := 0, offset := 0, serial := none })
                (copyFreed x.title u))))) ∧
        (¬qualifies →
          ∃ u, done 0 (freeJob j u) ∧ u = { s1 with accounts := u.accounts } ∧
            accountAt u x.cartridgeClass = { a with reserved := a.reserved - 1, blank := a.blank + 1 } ∧ others u)) ∧
      (x.retry = false →
        (∃ u, done 1 u ∧
          u = { s1 with
            accounts := u.accounts, scheduler.jobs := u.scheduler.jobs, scheduler.queues := u.scheduler.queues
            passDue := true } ∧
          Table.get u.scheduler.jobs j =
            some { x with state := .queued, bay := 0, offset := 0, serial := none, retry := true } ∧
          (∀ l, l ≤ 3 → queueAt u l = if l = x.priority then j :: queueAt s l else queueAt s l) ∧
          (∀ o, o ≠ j → Table.get u.scheduler.jobs o = Table.get s.scheduler.jobs o) ∧
          accountAt u x.cartridgeClass = { a with reserved := a.reserved - 1, repair := a.repair + 1 } ∧ others u) ∧
        ∃ t, exec (.copyDone src job serial 1) s = .next t ∧
          (∃ x', Table.get t.scheduler.jobs j = some x' ∧ x'.retry = true ∧ x'.priority = x.priority ∧ x'.offset = 0) ∧
          t.records = s.records ∧ t.requests = s.requests ∧ t.assembly = s.assembly ∧ t.dispatch = s.dispatch ∧
          t.returns = s.returns ∧ t.days = s.days ∧
          (accountAt t x.cartridgeClass).repair = (accountAt s x.cartridgeClass).repair + 1) ∧
      (x.retry = true →
        ∃ u, u = { s1 with
            accounts := u.accounts, scheduler.jobs := u.scheduler.jobs, assembly.cons := u.assembly.cons
            records.patrons := u.records.patrons, management := (latch .jobFailed j s).management } ∧
          Table.get u.scheduler.jobs j = some { x with offset := 0, serial := none } ∧
          (∀ o, o ≠ j → Table.get u.scheduler.jobs o = Table.get s.scheduler.jobs o) ∧
          accountAt u x.cartridgeClass = { a with reserved := a.reserved - 1, repair := a.repair + 1 } ∧ others u ∧
          (x.kind = .stock → done 1 (freeJob j u) ∧ u.assembly = s.assembly ∧ u.records = s.records) ∧
          (∀ c, x.kind = .pack → Table.get s.assembly.cons x.consignment = some c →
            done 1 (freeJob j (handOver c.patron (openLines c) u)) ∧
            (∀ k, Table.get u.assembly.cons k = if k = x.consignment then none else Table.get s.assembly.cons k) ∧
            ∀ n, Table.get u.records.patrons n = (Table.get s.records.patrons n).map fun p =>
              if n = c.patron then
                { p with chain := p.chain.erase x.consignment
                         openPack := if p.openPack = x.consignment then 0 else p.openPack }
              else p))) ∧
    (∀ result : Byte, (¬(active ∧ working) ∨ 1 < result.toNat) → exec (.copyDone src job serial result) s = .next s1)) ∧
  (∀ (u : State) (j : Nat),
    (u.assembly.sealedList = [] → freeJob j u = { u with scheduler.jobs := Table.delete u.scheduler.jobs j }) ∧
    (∀ k rest c, u.assembly.sealedList = k :: rest → Table.get u.assembly.cons k = some c → TablesCanonical u →
      let t := freeJob j u
      t = { u with
        assembly.sealedList := rest, assembly.cons := t.assembly.cons, scheduler.jobs := t.scheduler.jobs
        scheduler.queues := t.scheduler.queues, passDue := true } ∧
      Table.get t.scheduler.jobs j =
        some { state := .queued, kind := .pack, priority := c.sealPriority, consignment := k,
               cartridgeClass := c.cartridgeClass } ∧
      (∀ o, o ≠ j → Table.get t.scheduler.jobs o = Table.get u.scheduler.jobs o) ∧
      Table.get t.assembly.cons k = some { c with state := .duplicating, job := j } ∧
      (∀ o, o ≠ k → Table.get t.assembly.cons o = Table.get u.assembly.cons o) ∧
      ∀ l, l ≤ 3 → queueAt t l = if l = c.sealPriority then queueAt u l ++ [j] else queueAt u l)) ∧
  (∀ (u : State) (b : Nat),
    let ended := modBay b (fun y => { y with active := 0, owed := y.owed.filter fun f => !waitsForAnswer f }) u
    afterJob b u =
      { (if (bayAt u b).state = .parking then loadPreemptor b ended else nextWork b ended) with passDue := true }) ∧
  ∀ (u : State) (n : Nat) (p : Patron) (lines : List Line), TablesCanonical u → Table.get u.records.patrons n = some p →
    let free := (List.range' 1 u.management.geometry.q).filter fun r => (Table.get u.requests r).isNone
    let rs := free.take lines.length
    let dropped := lines.drop rs.length
    0 ∉ p.wish → (∀ r ∈ rs, r ∉ p.wish) →
    ∃ t, handOver n lines u = headroom n t ∧
      t = { u with
        requests := t.requests, records.patrons := t.records.patrons, records.titles := t.records.titles
        management := (dropped.foldl (fun w _ => latch .restoreDropped n w) u).management } ∧
      (∀ (a r : Nat) (l : Line), rs[a]? = some r → lines[a]? = some l →
        Table.get t.requests r = some { patron := n, title := l.title, day := l.origin }) ∧
      (∀ r, r ∉ rs → Table.get t.requests r = Table.get u.requests r) ∧
      Table.get t.records.patrons n = some { p with wish := rs ++ p.wish, charge := p.charge - lines.length } ∧
      (∀ j, j ≠ n → Table.get t.records.patrons j = Table.get u.records.patrons j) ∧
      ∀ m, Table.get t.records.titles m = (Table.get u.records.titles m).map fun x =>
        { x with
          waiting := (((rs.zip lines).filter fun e => decide (e.2.title = m)).map Prod.fst).reverse ++ x.waiting
          out := if x.policy = .onDemand then x.out - lines.countP fun l => decide (l.title = m) else x.out }

/-- A bay fault (R94, R95), reported by the bay or by its stall timer (R79): the bay is FAULTED and empty with its cause,
out of the poll set, and BAY_FAULT is latched; the cartridges of its active and parked jobs move to repair; jobs that have
not failed before go to the heads of their levels marked, a job that has failed before fails (R63, R91), one after another
from the active job down the stack (log 40), and the pending pre-emptor goes to its level after them unmarked; what freeing
the job record and handing over the lines do is what CopyResultsAreTaken says, and what freeing the consignment does is
what LostItemsLeaveTheAccounts says. A report of a bay in OFFLINE or FAULTED is discarded.
STALL_EXPIRY is taken for the timer that is the next to reach 0 (the model's choice, log 25). -/
def Obligations.BayFaultsEmptyTheBay : Prop :=
  let faulted (t s : State) (b : Nat) (cause : BayCause) : Prop :=
    (bayAt t b).state = .faulted ∧ (bayAt t b).cause = cause ∧ (bayAt t b).active = 0 ∧ (bayAt t b).stack = [] ∧
      (bayAt t b).preemptor = 0 ∧ (bayAt t b).running = false ∧
      (∀ k, k < 64 → k = (bayAt s b).address → k ≠ 0 → t.line.pollSet.getLsbD k = false) ∧
      bankGet t.management.notices 2 {} =
        { latch := true, count := min 255 ((bankGet s.management.notices 2 {}).count + 1), subject := b } ∧
      t.returns = s.returns ∧ t.days = s.days ∧ t.dispatch = s.dispatch
  let putAtHead (j : Nat) (x y : Job) (v v' : State) : Prop :=
    v' = { v with scheduler.jobs := v'.scheduler.jobs, scheduler.queues := v'.scheduler.queues, passDue := true } ∧
      Table.get v'.scheduler.jobs j = some y ∧
      (∀ o, o ≠ j → Table.get v'.scheduler.jobs o = Table.get v.scheduler.jobs o) ∧
      ∀ l, l ≤ 3 → queueAt v' l = if l = x.priority then j :: queueAt v l else queueAt v l
  let attempted (j : Nat) (v v' : State) : Prop :=
    (Table.get v.scheduler.jobs j = none → v' = v) ∧
    ∀ x, Table.get v.scheduler.jobs j = some x →
      (x.retry = false →
        putAtHead j x { x with state := .queued, bay := 0, offset := 0, serial := none, retry := true } v v') ∧
      (x.retry = true →
        ∃ f, f = { v with scheduler.jobs := f.scheduler.jobs, management := (latch .jobFailed j v).management } ∧
          Table.get f.scheduler.jobs j = some { x with offset := 0, serial := none } ∧
          (∀ o, o ≠ j → Table.get f.scheduler.jobs o = Table.get v.scheduler.jobs o) ∧
          (x.kind = .stock → v' = freeJob j f) ∧
          (x.kind = .pack →
            (Table.get v.assembly.cons x.consignment = none → v' = freeJob j f) ∧
            ∀ c, Table.get v.assembly.cons x.consignment = some c →
              v' = freeJob j (handOver c.patron (openLines c) (freeConsignment x.consignment f))))
  let emptied (u s : State) (b : Nat) (cause : BayCause) : Prop :=
    let held := heldJobs (bayAt s b)
    let pre := if (bayAt s b).preemptor = 0 then [] else [(bayAt s b).preemptor]
    u.passDue = true ∧
    ((∀ j ∈ held, ((Table.get s.scheduler.jobs j).any fun x => !x.retry) = true) → held.Nodup →
      (bayAt s b).preemptor ∉ held →
      u.records = s.records ∧ u.requests = s.requests ∧ u.assembly = s.assembly ∧
      (∀ j ∈ held, Table.get u.scheduler.jobs j = (Table.get s.scheduler.jobs j).map fun x =>
        { x with state := .queued, bay := 0, offset := 0, serial := none, retry := true }) ∧
      (∀ j ∈ pre, Table.get u.scheduler.jobs j =
        (Table.get s.scheduler.jobs j).map fun x => { x with state := .queued, bay := 0 }) ∧
      (∀ j, j ∉ held ++ pre → Table.get u.scheduler.jobs j = Table.get s.scheduler.jobs j) ∧
      (∀ l, l ≤ 3 → queueAt u l =
        ((held ++ pre).filter fun j => (Table.get s.scheduler.jobs j).any fun x => x.priority == l).reverse ++ queueAt s l) ∧
      ∀ c, 1 ≤ c → c ≤ 4 →
        let n := held.countP fun j => (Table.get s.scheduler.jobs j).any fun x => x.cartridgeClass == c
        n ≤ (accountAt s c).reserved →
          accountAt u c =
            { accountAt s c with reserved := (accountAt s c).reserved - n, repair := (accountAt s c).repair + n }) ∧
    ∃ m w q, ∃ us : List State,
      m = { s with accounts := m.accounts } ∧
      (∀ c, 1 ≤ c → c ≤ 4 →
        let n := held.countP fun j => (Table.get s.scheduler.jobs j).any fun x => x.cartridgeClass == c
        n ≤ (accountAt s c).reserved →
          accountAt m c =
            { accountAt s c with reserved := (accountAt s c).reserved - n, repair := (accountAt s c).repair + n }) ∧
      us.length = held.length + 1 ∧ us.head? = some m ∧ us.getLast? = some w ∧
      (∀ a j v v', held[a]? = some j → us[a]? = some v → us[a + 1]? = some v' → attempted j v v') ∧
      ((∀ j ∈ pre, Table.get w.scheduler.jobs j = none) → q = w) ∧
      (∀ j ∈ pre, ∀ x, Table.get w.scheduler.jobs j = some x → putAtHead j x { x with state := .queued, bay := 0 } w q) ∧
      u = { q with
        scheduler.bays := u.scheduler.bays, line := u.line, management := (latch .bayFault b q).management
        passDue := true } ∧
      u.line = { s.line with pollSet := u.line.pollSet } ∧
      (∀ k, k < 64 → (u.line.pollSet.getLsbD k = true ↔
        s.line.pollSet.getLsbD k = true ∧ ¬(k ≠ 0 ∧ k = (bayAt s b).address))) ∧
      bayAt u b = { bayAt s b with
        state := .faulted, cause := cause, active := 0, stack := [], preemptor := 0, running := false
        owed := (bayAt s b).owed.filter fun f => !waitsForAnswer f } ∧
      ∀ o, o ≠ b → bayAt u o = bayAt s o
  (∀ (src code : Byte) (s s1 : State) (b : Nat), AtBay src.toNat b s s1 →
    (((bayAt s b).state = .offline ∨ (bayAt s b).state = .faulted) → exec (.bayFault src code) s = .next s1) ∧
    (((bayAt s b).state = .idle ∨ (bayAt s b).state = .loading ∨ (bayAt s b).state = .writing ∨
        (bayAt s b).state = .parking) →
      (∃ t, exec (.bayFault src code) s = .next t ∧ faulted t s b (.reported code)) ∧
      ∃ u, exec (.bayFault src code) s = .next (settle u) ∧ emptied u s1 b (.reported code))) ∧
  (∀ (bay : Byte) (s : State), NoPassOwed s → 1 ≤ bay.toNat → bay.toNat ≤ 24 → (bayAt s bay.toNat).running = true →
    ((∀ o ∈ bayNumbers, (bayAt s o).running = true → (bayAt s bay.toNat).timer ≤ (bayAt s o).timer) →
      (∃ t, exec (.stallExpiry bay) s = .next t ∧ faulted t s bay.toNat .stall ∧
        t.scheduler.seconds = s.scheduler.seconds + (bayAt s bay.toNat).timer) ∧
      ∃ p u, p = { s with
          scheduler.seconds := s.scheduler.seconds + (bayAt s bay.toNat).timer, scheduler.bays := p.scheduler.bays } ∧
        (∀ o, bayAt p o = { bayAt s o with
          timer :=
            if (bayAt s o).running = true then (bayAt s o).timer - (bayAt s bay.toNat).timer else (bayAt s o).timer }) ∧
        exec (.stallExpiry bay) s = .next (settle u) ∧ emptied u p bay.toNat .stall)) ∧
  (∀ (bay : Byte) (s : State), (bayAt s bay.toNat).running = false → exec (.stallExpiry bay) s = .next s)

/-- BUILD_STOCK and RAISE_JOB in SERVICE (R97, R99). The pass after a raised PENDING or ACTIVE job is R80's (log 17). -/
def Obligations.StockRunsAndRaises : Prop :=
  ∀ s s0 : State, s.management.mode = .service →
    (∀ (title : U16) (copies : Byte), Takes (.buildStock title copies) s s0 →
      let m := title.toNat
      let i := Instr.buildStock title copies
      let refused (c : Code) : Prop := exec i s = .next (replied i c [] s0)
      ((m = 0 ∨ s.management.geometry.t < m) → refused .titleRange) ∧
      (m ≠ 0 → m ≤ s.management.geometry.t →
        (Table.get s.records.titles m = none → refused .titleAbsent) ∧
        (∀ x, Table.get s.records.titles m = some x →
          ((x.format = .braille ∨ x.policy = .onDemand) → refused .format) ∧
          (x.format = .audio → x.policy = .shelf →
            (capacityOf s x.shelfClass < titleBlocks x + 80 → refused .extent) ∧
            (titleBlocks x + 80 ≤ capacityOf s x.shelfClass →
              (Table.lowestFree s.scheduler.jobs s.management.geometry.j = none → refused .poolFull) ∧
              (∀ j, Table.lowestFree s.scheduler.jobs s.management.geometry.j = some j →
                ∃ t, exec i s = .next (replied i .ok (bytesLE 2 j) (settle t)) ∧
                  t = { s0 with scheduler.jobs := t.scheduler.jobs, scheduler.queues := t.scheduler.queues, passDue := true } ∧
                  Table.get t.scheduler.jobs j =
                    some { state := .queued, kind := .stock, priority := 0, title := m, cartridgeClass := x.shelfClass,
                           remaining := if copies = 0 then 256 else copies.toNat } ∧
                  (∀ o, o ≠ j → Table.get t.scheduler.jobs o = Table.get s.scheduler.jobs o) ∧
                  queueAt t 0 = queueAt s 0 ++ [j] ∧ ∀ l, l ≠ 0 → queueAt t l = queueAt s l)))))) ∧
    (∀ job : U16, Takes (.raiseJob job) s s0 →
      let j := job.toNat
      let i := Instr.raiseJob job
      let refused (c : Code) : Prop := exec i s = .next (replied i c [] s0)
      ((j = 0 ∨ s.management.geometry.j < j) → refused .badField) ∧
      (j ≠ 0 → j ≤ s.management.geometry.j →
        (Table.get s.scheduler.jobs j = none → refused .notFound) ∧
        (∀ x, Table.get s.scheduler.jobs j = some x →
          ((x.state = .parked ∨ (x.state = .active ∧ (bayAt s x.bay).state = .parking)) → refused .inUse) ∧
          (x.state ≠ .parked → ¬(x.state = .active ∧ (bayAt s x.bay).state = .parking) → x.priority = 3 →
            exec i s = .next (replied i .ok [] s0)) ∧
          (x.state = .queued → x.priority < 3 →
            ∃ t, exec i s = .next (replied i .ok [] (settle t)) ∧
              t = { s0 with scheduler.jobs := t.scheduler.jobs, scheduler.queues := t.scheduler.queues, passDue := true } ∧
              Table.get t.scheduler.jobs j = some { x with priority := 3, bay := 0 } ∧
              (∀ o, o ≠ j → Table.get t.scheduler.jobs o = Table.get s.scheduler.jobs o) ∧
              queueAt t x.priority = (queueAt s x.priority).erase j ∧ queueAt t 3 = queueAt s 3 ++ [j] ∧
              ∀ l, l ≠ x.priority → l ≠ 3 → queueAt t l = queueAt s l) ∧
          ((x.state = .pending ∨ (x.state = .active ∧ (bayAt s x.bay).state ≠ .parking)) → x.priority ≠ 3 →
            ∃ t, exec i s = .next (replied i .ok [] (settle t)) ∧
              t = { s0 with scheduler.jobs := t.scheduler.jobs, passDue := true } ∧
              Table.get t.scheduler.jobs j = some { x with priority := 3 } ∧
              ∀ o, o ≠ j → Table.get t.scheduler.jobs o = Table.get s.scheduler.jobs o))))

/-! ## The Dispatch Unit (05) -/

/-- A release pass (R106, R108): with a sorter role, it releases the READY consignments of the ready queue whose window is
not held and whose chute is not blocked, from the head, while fewer than 4 releases are outstanding and a manifest slot and
a floor place are free; each becomes RELEASING with an outstanding release of its window's chute and mail class, its RELEASE
joins the floor transmit queue, and nothing else changes. The places of a queue that was full go first to the frames that wait
before the releases in R197's order (log 10). -/
def Obligations.ReleasePassTakesAllItCan : Prop :=
  ∀ s : State, NoPassOwed s →
    let role := s.management.settings.sorterRole
    let window (c : Consignment) : Window := windowAt s c.window
    let can (k : Nat) : Bool :=
      (Table.get s.assembly.cons k).any fun c =>
        decide (c.state = .ready ∧ (window c).hold = false ∧ chuteBlocked s (window c).chute = false)
    let outstanding := s.dispatch.outstanding.length
    let n := if role = 0 ∨ floorRoom (aheadOfReleases s) s = false then 0
      else min (4 - outstanding)
        (min (64 - ((halfAt s s.dispatch.filling).length + outstanding)) (32 - s.line.floorTx.length))
    let ks := ((s.dispatch.ready.filter can).eraseDups).take n
    let frame (k : Nat) (c : Consignment) : Frame :=
      let part := if c.kind = .braillePart then (c.part, c.parts) else (1, 1)
      ⟨byteOf role, 0, 144,
        bytesLE 2 k ++ [byteOf (consKindValue c.kind), byteOf part.1, byteOf part.2, byteOf (window c).chute,
          byteOf (mailClassValue (window c).mailClass)] ++
        bytesLE 4 (c.serial.getD 0).toNat ++ bytesLE 3 c.weight ++ [if c.overweight then 1 else 0]⟩
    exec .releasePass s = .next { s with
      line.contended := if ks = [] then s.line.contended else false
      line.floorTx := s.line.floorTx ++ ks.filterMap fun k => (Table.get s.assembly.cons k).map (frame k)
      dispatch.outstanding := s.dispatch.outstanding ++ ks.filterMap fun k =>
        (Table.get s.assembly.cons k).map fun c => { consignment := k, chute := (window c).chute, mailClass := (window c).mailClass }
      assembly.cons := s.assembly.cons.map fun e => if e.1 ∈ ks then (e.1, { e.2 with state := .releasing }) else e }

/-- CHUTED of an outstanding release posts its consignment (R109, R110, R114, R115): the manifest record with the post day
and the due day, the record POSTED, the release and the ready queue; at 64 records the halves switch, or MANIFEST_FULL is
latched; a release pass follows. A CHUTED that names no outstanding release is discarded (R113). -/
def Obligations.ChutedPostsTheConsignment : Prop :=
  ∀ (src : Byte) (consignment : U16) (s s1 : State), AtUnit .sorter src.toNat s s1 →
    let k := consignment.toNat
    (∀ c r, Table.get s.assembly.cons k = some c → c.state = .releasing →
      s.dispatch.outstanding.find? (fun r => decide (r.consignment = k)) = some r →
      let h := s.dispatch.filling
      let loan := if c.kind = .braillePart then s.management.settings.brailleLoan else s.management.settings.audioLoan
      let due : Day := s.days.today + BitVec.ofNat 16 (loan + 2 * (windowAt s c.window).transit)
      let record : ManifestRecord :=
        { consignment := k, patron := c.patron, kind := c.kind, part := if c.kind = .braillePart then c.part else 1,
          parts := if c.kind = .braillePart then c.parts else 1, window := c.window, chute := r.chute,
          mailClass := r.mailClass, serial := c.serial.getD 0, weight := c.weight, overweight := c.overweight,
          postDay := s.days.today, dueDay := due }
      ∃ t, exec (.chuted src consignment) s = .next (passReleases t) ∧ halfAt t h = halfAt s h ++ [record] ∧
        halfAt t (!h) = halfAt s (!h) ∧
        Table.get t.assembly.cons k =
          some { c with state := .posted, postDay := s.days.today, dueDay := due, overdue := false } ∧
        (∀ j, j ≠ k → Table.get t.assembly.cons j = Table.get s.assembly.cons j) ∧
        t.dispatch.outstanding = s.dispatch.outstanding.filter (fun r => decide (r.consignment ≠ k)) ∧
        t = { s1 with
          assembly.cons := t.assembly.cons, dispatch := t.dispatch, management.notices := t.management.notices } ∧
        t.dispatch.ready = s.dispatch.ready.erase k ∧ t.dispatch.windows = s.dispatch.windows ∧
        t.dispatch.blocked = s.dispatch.blocked ∧
        ((halfAt s h).length + 1 ≠ 64 → t.dispatch.filling = h ∧ t.management = s.management) ∧
        ((halfAt s h).length + 1 = 64 → halfAt s (!h) = [] →
          t.dispatch.filling = (!h) ∧ t.management = (latch .manifestHalf (if h then 1 else 0) s).management) ∧
        ((halfAt s h).length + 1 = 64 → halfAt s (!h) ≠ [] →
          t.dispatch.filling = h ∧ t.management = (latch .manifestFull (if h then 1 else 0) s).management)) ∧
    ((∀ c, Table.get s.assembly.cons k = some c → c.state = .releasing →
        s.dispatch.outstanding.find? (fun r => decide (r.consignment = k)) = none) →
      exec (.chuted src consignment) s = .next s1)

/-- CHUTE_FULL and CHUTE_CLEAR (R111 to R113): the consignment returns READY to the head of the ready queue and a chute is
blocked; a blocked chute is cleared; a release pass follows each; anything else is discarded. -/
def Obligations.ChutesBlockAndClear : Prop :=
  ∀ (src : Byte) (s s1 : State), AtUnit .sorter src.toNat s s1 →
    (∀ (consignment : U16) (chute : Byte),
      let k := consignment.toNat
      (∀ c r, Table.get s.assembly.cons k = some c → c.state = .releasing →
        s.dispatch.outstanding.find? (fun r => decide (r.consignment = k)) = some r →
        let full := if 1 ≤ chute.toNat ∧ chute.toNat ≤ 32 then chute.toNat else r.chute
        ∃ t, exec (.chuteFull src consignment chute) s = .next (passReleases t) ∧
          t = { s1 with assembly.cons := t.assembly.cons, dispatch := t.dispatch } ∧
          Table.get t.assembly.cons k = some { c with state := .ready } ∧
          (∀ j, j ≠ k → Table.get t.assembly.cons j = Table.get s.assembly.cons j) ∧
          t.dispatch = { s.dispatch with
            outstanding := s.dispatch.outstanding.filter fun r => decide (r.consignment ≠ k)
            ready := k :: s.dispatch.ready.erase k
            blocked := t.dispatch.blocked } ∧
          ∀ n, 1 ≤ n → n ≤ 32 → 1 ≤ full → full ≤ 32 →
            (chuteBlocked t n = true ↔ n = full ∨ chuteBlocked s n = true)) ∧
      ((∀ c, Table.get s.assembly.cons k = some c → c.state = .releasing →
          s.dispatch.outstanding.find? (fun r => decide (r.consignment = k)) = none) →
        exec (.chuteFull src consignment chute) s = .next s1)) ∧
    (∀ chute : Byte,
      (1 ≤ chute.toNat → chute.toNat ≤ 32 → chuteBlocked s chute.toNat = true →
        ∃ t, exec (.chuteClear src chute) s = .next (passReleases t) ∧
          t = { s1 with dispatch.blocked := t.dispatch.blocked } ∧
          ∀ n, 1 ≤ n → n ≤ 32 → (chuteBlocked t n = true ↔ n ≠ chute.toNat ∧ chuteBlocked s n = true)) ∧
      ((chute = 0 ∨ 32 < chute.toNat ∨ chuteBlocked s chute.toNat = false) →
        exec (.chuteClear src chute) s = .next s1))

/-- SET_WINDOW writes one whole entry and RELEASE_MANIFEST empties the half that is not filling, each with a release pass
(R102, R116); their refusals change nothing. A disabled window whose low code lies above its high code is stored with both
codes 0 (R101, R102; log 26). -/
def Obligations.WindowsAndHalvesAreWritten : Prop :=
  ∀ s s0 : State,
    (∀ (window enabled : Byte) (low high : U24) (chute mailClass transit : Byte) (limit : U16) (hold : Byte) (m : MailClass),
      let i := Instr.setWindow window enabled low high chute mailClass transit limit hold
      Takes i s s0 →
      let common := window.toNat ≤ 15 ∧ 1 ≤ chute.toNat ∧ chute.toNat ≤ 32 ∧ mailClass.toNat ≤ 1 ∧ transit.toNat ≤ 15 ∧
        500 ≤ limit.toNat ∧ limit.toNat ≤ 30000 ∧ hold.toNat ≤ 1
      let codes := window ≠ 0 → enabled.toNat ≤ 1 ∧ (enabled = 1 → low.toNat ≤ high.toNat)
      let stored : Nat × Nat := if low.toNat ≤ high.toNat then (low.toNat, high.toNat) else (0, 0)
      (¬(common ∧ codes) → exec i s = .next (replied i .badField [] s0)) ∧
      (common → codes → mailClassValue m = mailClass.toNat →
        ∃ t, exec i s = .next (replied i .ok [] (passReleases t)) ∧
          t = { s0 with dispatch.windows := t.dispatch.windows } ∧
          (∀ w, w ≤ 15 → w ≠ window.toNat → windowAt t w = windowAt s w) ∧
          (window ≠ 0 → windowAt t window.toNat =
            ⟨decide (enabled = 1), stored.1, stored.2, chute.toNat, m, transit.toNat, limit.toNat, decide (hold = 1)⟩) ∧
          (window = 0 →
            (windowAt t 0).chute = chute.toNat ∧ (windowAt t 0).mailClass = m ∧ (windowAt t 0).transit = transit.toNat ∧
              (windowAt t 0).limit = limit.toNat ∧ (windowAt t 0).hold = decide (hold = 1)))) ∧
    (∀ (half : Byte) (h : Bool),
      let i := Instr.releaseManifest half
      Takes i s s0 →
      (1 < half.toNat → exec i s = .next (replied i .badField [] s0)) ∧
      (half.toNat = h.toNat →
        (h = s.dispatch.filling → exec i s = .next (replied i .inUse [] s0)) ∧
        (h ≠ s.dispatch.filling →
          (halfAt s h = [] → exec i s = .next (replied i .ok [] s0)) ∧
          (halfAt s h ≠ [] →
            ∃ t, exec i s = .next (replied i .ok [] (passReleases t)) ∧ halfAt t h = [] ∧
              halfAt t (!h) = halfAt s (!h) ∧
              t = { s0 with dispatch := t.dispatch, management.notices := t.management.notices } ∧
              t.dispatch = { s.dispatch with
                half0 := t.dispatch.half0, half1 := t.dispatch.half1, filling := t.dispatch.filling } ∧
              ((halfAt s (!h)).length < 64 → t.dispatch.filling = s.dispatch.filling ∧ t.management = s.management) ∧
              (64 ≤ (halfAt s (!h)).length →
                t.dispatch.filling = h ∧ t.management = (latch .manifestHalf (if h then 0 else 1) s).management)))))

/-! ## The Return Inspection Unit (06) -/

/-- INSPECT_SUSPEND, INSPECT_RESUME and CLEAR_HITS in both modes (R125, R126, R135): what each changes by the state it
finds. SET_CHANNEL and SET_THRESHOLD (R131, R132, R136): BAD_FIELD, BUSY and CONFLICT in their order, and what an accepted
load writes. -/
def Obligations.InspectionAndChannelsAreSet : Prop :=
  (∀ s s0 : State,
     (Takes .inspectSuspend s s0 →
       let i := Instr.inspectSuspend
       (s.returns.suspended = true →
         exec i s = .next (replied i .ok [1, if s.returns.suspendPending then 1 else 0] s0)) ∧
       (s.returns.suspended = false → s.returns.item = none →
         exec i s = .next (replied i .ok [1, if s.returns.suspendPending then 1 else 0] { s0 with returns.suspended := true })) ∧
       (s.returns.suspended = false → s.returns.item ≠ none →
         exec i s = .next (replied i .ok [0, 1] { s0 with returns.suspendPending := true }))) ∧
     (Takes .inspectResume s s0 →
       let i := Instr.inspectResume
       (s.returns.suspended = false →
         exec i s = .next (replied i .ok [0, 0] { s0 with returns.suspendPending := false })) ∧
       (s.returns.suspended = true → s.returns.suspendPending = false →
         ((s.returns.item ≠ none ∨ s.returns.queue = [] ∨ s.management.settings.scannerRole = 0) →
           exec i s = .next (replied i .ok [0, 0] { s0 with returns.suspended := false })) ∧
         (∀ x rest, s.returns.item = none → s.returns.queue = x :: rest → s.management.settings.scannerRole ≠ 0 →
           exec i s = .next (replied i .ok [0, 0]
             { s0 with returns.suspended := false, returns.queue := rest, returns.item := some x })))) ∧
     (Takes .clearHits s s0 →
       exec .clearHits s = .next (replied .clearHits .ok [] { s0 with returns.hits := 0, returns.high := 0 }))) ∧
  (∀ s s0 : State,
     let suspended := s.returns.suspended = true ∧ s.returns.suspendPending = false
     (∀ (channel mode action store reference : Byte) (cfg : Channel),
       let i := Instr.setChannel channel mode action store reference
       Takes i s s0 →
       let c := channel.toNat
       let window := mode = 3 ∨ mode = 4
       let bad := 15 < c ∨ 4 < mode.toNat ∨ 2 < action.toNat ∨ 2 < store.toNat ∨ 1 < reference.toNat ∨ (8 ≤ c ∧ window)
       let clash := (c < 8 ∧ window ∧ (channelAt s.returns (c + 8)).mode ≠ .off) ∨
         (8 ≤ c ∧ mode ≠ 0 ∧ ((channelAt s.returns (c - 8)).mode = .inside ∨ (channelAt s.returns (c - 8)).mode = .outside))
       (bad → exec i s = .next (replied i .badField [] s0)) ∧
       (¬bad → ¬suspended → exec i s = .next (replied i .busy [] s0)) ∧
       (¬bad → suspended → clash → exec i s = .next (replied i .conflict [] s0)) ∧
       (¬bad → suspended → ¬clash → channelModeValue cfg.mode = mode.toNat → channelActionValue cfg.action = action.toNat →
         channelStoreValue cfg.store = store.toNat → channelReferenceValue cfg.reference = reference.toNat →
         ∃ t, exec i s = .next (replied i .ok [] t) ∧
           t = { s0 with returns.channels := t.returns.channels, returns.stored := t.returns.stored } ∧
           channelAt t.returns c = cfg ∧ storedAt t.returns c = ⟨false, 0, 0⟩ ∧
           ∀ d, d ≠ c → channelAt t.returns d = channelAt s.returns d ∧ storedAt t.returns d = storedAt s.returns d)) ∧
     (∀ (entry : Byte) (value : U16),
       let i := Instr.setThreshold entry value
       Takes i s s0 →
       (15 < entry.toNat → exec i s = .next (replied i .badField [] s0)) ∧
       (entry.toNat ≤ 15 →
         (¬suspended → exec i s = .next (replied i .busy [] s0)) ∧
         (suspended →
           ∃ t, exec i s = .next (replied i .ok [] t) ∧ t = { s0 with returns.thresholds := t.returns.thresholds } ∧
             thresholdAt t.returns entry.toNat = value.toInt ∧
             ∀ d, d ≠ entry.toNat → thresholdAt t.returns d = thresholdAt s.returns d))))

/-- RETURN_ITEM from the scanner (R122, R123, R126): with room the item joins the queue under a RETURN_ACK, an
inspection starting where one can; a full queue gives RETURN_WAIT; an answer that finds no room (R197, log 10) is owed;
and while an answer is owed the item is discarded. -/
def Obligations.ReturnItemsAreQueued : Prop :=
  ∀ (src : Byte) (consignment postDay : U16) (part : Byte) (serial : U32) (presence : U16) (readings : List U16)
    (s s1 : State), AtUnit .scanner src.toNat s s1 → readings.length = (presentChannels presence).length →
    let i := Instr.returnItem src consignment postDay part serial presence readings
    let x : ReturnItem :=
      { consignment := consignment.toNat, postDay := postDay, part := part.toNat, serial := serial,
        readings := (presentChannels presence).zip (readings.map BitVec.toInt) }
    let frame (kind : Byte) : Frame := ⟨byteOf s.management.settings.scannerRole, 0, kind, bytesLE 2 consignment.toNat ++ [part]⟩
    let starts := s.returns.suspended = false ∧ s.returns.suspendPending = false ∧ s.returns.item = none
    let room := floorRoom (waitingForwards s + waitingCommands s) s = true
    (s.returns.owedAnswer ≠ none → exec i s = .next s1) ∧
    (s.returns.owedAnswer = none →
      (s.returns.queue.length < 64 → ¬starts →
        (room →
          exec i s = .next (toFloor (frame 160) { s1 with returns.queue := s.returns.queue ++ [x] })) ∧
        (¬room →
          exec i s = .next { s1 with returns.queue := s.returns.queue ++ [x], returns.owedAnswer := some (frame 160) })) ∧
      (s.returns.queue = [] → starts → s.management.settings.scannerRole ≠ 0 →
        (room → exec i s = .next { toFloor (frame 160) s1 with returns.item := some x }) ∧
        (¬room → exec i s = .next { s1 with returns.item := some x, returns.owedAnswer := some (frame 160) })) ∧
      (64 ≤ s.returns.queue.length → ¬starts →
        (room → exec i s = .next (toFloor (frame 161) s1)) ∧
        (¬room → exec i s = .next { s1 with returns.owedAnswer := some (frame 161) })))

/-- The compare modes (R134): every comparison is strict; the side recorded; an INSIDE window whose lower is at or above its
upper never hits, an OUTSIDE window whose lower is above its upper always does. A channel's comparison (R133, R134): skipped
when it is OFF or has no reading; else of the reading, less the part weight and saturated for PART_WEIGHT, with the entries
of channels c and c + 8. The verdict of a matched item (R130, R137): a hit asks for the channel's action, no channel asks
for a more severe one, and it is PASS or asked for by a channel that hits. The hit sets and the stored readings after it
(R135, R136). -/
def Obligations.ComparisonsFormTheVerdict : Prop :=
  (∀ r lower upper : Int,
     compareMode .off r lower upper = .none ∧
     (compareMode .above r lower upper = .centre ↔ lower < r) ∧ (compareMode .below r lower upper = .centre ↔ r < lower) ∧
     (compareMode .inside r lower upper = .centre ↔ lower < r ∧ r < upper) ∧
     (compareMode .outside r lower upper = .high ↔ upper < r) ∧
     (compareMode .outside r lower upper ≠ .none ↔ r < lower ∨ upper < r) ∧
     (upper ≤ lower → compareMode .inside r lower upper = .none) ∧ (upper < lower → compareMode .outside r lower upper ≠ .none) ∧
     (∀ m, compareMode m r lower upper = .high → m = .outside)) ∧
  (∀ (u : ReturnUnit) (i : ReturnItem) (weight c : Nat),
     let cfg := channelAt u c
     ((cfg.mode = .off ∨ i.readings.lookup c = none) → compareChannel u i weight c = none) ∧
     (∀ reading, cfg.mode ≠ .off → i.readings.lookup c = some reading →
       let r := if cfg.reference = .absolute then reading else max (-32768) (min 32767 (reading - weight))
       compareChannel u i weight c = some (r, compareMode cfg.mode r (thresholdAt u c) (thresholdAt u (c + 8)))) ∧
     ((∀ r h, compareChannel u i weight c = some (r, h) → h = .none) → channelVerdict u i weight c = .pass) ∧
     (∀ r h, compareChannel u i weight c = some (r, h) → h ≠ .none →
       channelVerdict u i weight c = match cfg.action with | .note => .note | .repair => .repair | .retire => .retire)) ∧
  (∀ (u : ReturnUnit) (i : ReturnItem) (weight : Nat),
     (∀ c, c < 16 → verdictValue (channelVerdict u i weight c) ≤ verdictValue (verdictOf u i weight)) ∧
     (verdictOf u i weight = .pass ∨ ∃ c r h, c < 16 ∧ compareChannel u i weight c = some (r, h) ∧ h ≠ .none ∧
       actionVerdict (channelAt u c).action = verdictOf u i weight) ∧
     ((∀ c, c < 16 → ∀ r h, compareChannel u i weight c = some (r, h) → h = .none) → verdictOf u i weight = .pass)) ∧
  ∀ (u : ReturnUnit) (i : ReturnItem) (weight : Nat),
    let t := recordChannels i weight u
    t = { u with hits := t.hits, high := t.high, stored := t.stored } ∧
    ∀ c, c < 16 →
      (t.hits.getLsbD c = true ↔ u.hits.getLsbD c = true ∨ (∃ r h, compareChannel u i weight c = some (r, h) ∧ h ≠ .none) ∨
        (8 ≤ c ∧ ∃ r, compareChannel u i weight (c - 8) = some (r, .high))) ∧
      (t.high.getLsbD c = true ↔ u.high.getLsbD c = true ∨ ∃ r, compareChannel u i weight c = some (r, .high)) ∧
      (compareChannel u i weight c = none → storedAt t c = storedAt u c) ∧
      ∀ r h, compareChannel u i weight c = some (r, h) →
        storedAt t c =
          if (channelAt u c).store = .always ∨ ((channelAt u c).store = .onHit ∧ h ≠ .none) then ⟨true, r, i.consignment⟩
          else storedAt u c

/-- The checks of R128 in their order. A completion (R127 to R129): with no item, an owed answer or no room (log 10)
nothing happens; an item that fails the match is answered DESK with its cause, RETURN_EXCEPTION is latched and no set or
account changes; a matched one is judged, its hits recorded, disposed of, its VERDICT sent and INSPECTION latched as the
notice mode asks (R138); the placement pass that is owed then comes after the VERDICT (R80, log 36). A PACK or a
SHELF_AUDIO loan is closed, its copy goes where its verdict sends it, and its record is freed (R139 to R141). A part of
a set is held and counted on its head (R142), which stays until the last one returns; that one closes the set under the
worst verdict (R143). -/
def Obligations.InspectionsAreCompleted : Prop :=
  ∀ s : State, NoPassOwed s →
    let role := s.management.settings.scannerRole
    let frame (x : ReturnItem) (v d e : Nat) : Frame :=
      ⟨byteOf role, 0, 162, bytesLE 2 x.consignment ++ [byteOf x.part, byteOf v, byteOf d, byteOf e]⟩
    ((s.returns.item = none ∨ s.returns.owedAnswer ≠ none ∨ floorRoom (aheadOfVerdicts s) s = false) →
      exec .inspectionCompletion s = .next s) ∧
    (∀ x : ReturnItem,
      let k := x.consignment
      let fits (c : Consignment) : Prop :=
        c.state = .posted ∧ c.postDay = x.postDay ∧ x.part = if c.kind = .braillePart then c.part else 1
      ((k = 0 ∨ s.management.geometry.c < k ∨ ∀ c, Table.get s.assembly.cons k = some c → ¬fits c) →
        matchItem s x = .error .unmatched) ∧
      (∀ c, k ≠ 0 → k ≤ s.management.geometry.c → Table.get s.assembly.cons k = some c → fits c →
        (c.kind = .braillePart → c.head = k → c.headReturned = true → matchItem s x = .error .duplicate) ∧
        (c.kind = .braillePart → (c.head ≠ k ∨ c.headReturned = false) → matchItem s x = .ok c) ∧
        (c.kind ≠ .braillePart → c.serial.getD 0 ≠ x.serial → matchItem s x = .error .serialMismatch) ∧
        (c.kind ≠ .braillePart → c.serial.getD 0 = x.serial → matchItem s x = .ok c))) ∧
    (∀ u : State,
      (u.returns.suspendPending = true → finishInspection u =
        { u with returns.item := none, returns.suspended := true, returns.suspendPending := false }) ∧
      (u.returns.suspendPending = false →
        ((u.returns.suspended = true ∨ u.management.settings.scannerRole = 0 ∨ u.returns.queue = []) →
          finishInspection u = { u with returns.item := none }) ∧
        (∀ y rest, u.returns.suspended = false → u.management.settings.scannerRole ≠ 0 → u.returns.queue = y :: rest →
          finishInspection u = { u with returns.item := some y, returns.queue := rest }))) ∧
    (∀ x, s.returns.item = some x → s.returns.owedAnswer = none → floorRoom (aheadOfVerdicts s) s = true →
      (∀ e, matchItem s x = .error e →
        ∃ t, exec .inspectionCompletion s = .next t ∧ t.line.floorTx = s.line.floorTx ++ [frame x 4 5 (exceptionCauseValue e)] ∧
          t.management = (latch .returnException x.consignment s).management ∧ t.assembly = s.assembly ∧
          t.accounts = s.accounts ∧ t.records = s.records ∧ t.requests = s.requests ∧ t.scheduler = s.scheduler ∧
          t.dispatch = s.dispatch ∧ t.days = s.days ∧
          t.returns = { s.returns with
            item := t.returns.item, queue := t.returns.queue, suspended := t.returns.suspended
            suspendPending := t.returns.suspendPending } ∧
          t = finishInspection (toFloor (frame x 4 5 (exceptionCauseValue e))
            { latch .returnException x.consignment s with returns.item := none }) ∧
          (s.returns.suspendPending = true → t.returns.item = none ∧ t.returns.suspended = true ∧
            t.returns.suspendPending = false) ∧
          (s.returns.suspendPending = false → s.returns.suspended = false → role ≠ 0 →
            t.returns.item = s.returns.queue.head? ∧ t.returns.queue = s.returns.queue.tail)) ∧
      (∀ c, matchItem s x = .ok c →
        let k := x.consignment
        let v := verdictOf s.returns x c.weight
        let judged : State := { s with returns := recordChannels x c.weight s.returns }
        let mode := s.management.settings.noticeMode
        let noticed (w : State) : State :=
          if (mode = .onHit ∧ v ≠ .pass) ∨ (mode = .onRetire ∧ v = .retire) then latch .inspection k w else w
        let back (v : Verdict) : Prop := v = .pass ∨ v = .note
        let diverted (home d : Nat) (v : Verdict) : Prop :=
          (back v → d = home) ∧ (v = .repair → d = 2) ∧ (v = .retire → d = 3)
        ∃ w d, exec .inspectionCompletion s =
            .next (settle (finishInspection
              (toFloor (frame x (verdictValue v) d 0) { noticed w with returns.item := none }))) ∧
          (c.kind = .pack → diverted 0 d v ∧
            ∃ u, LoanClosed k c v judged u ∧ w = freeConsignment k (headroom c.patron (closeMark c u))) ∧
          (c.kind = .shelfAudio → diverted 1 d v ∧
            ∃ u, LoanClosed k c v judged u ∧
              (back v → w = freeConsignment k (headroom c.patron (copyFreed (lineTitle c) (closeMark c u)))) ∧
              (¬back v → w = freeConsignment k (headroom c.patron (closeMark c u)))) ∧
          (∀ head, c.kind = .braillePart → Table.get s.assembly.cons c.head = some head →
            let worst := if verdictValue v ≤ verdictValue head.worst then head.worst else v
            let counted : Consignment := { head with returned := head.returned + 1, worst := worst }
            (head.returned + 1 < head.parts →
              d = 4 ∧ w = { judged with assembly.cons := w.assembly.cons, records.patrons := w.records.patrons } ∧
              (∀ j, j ≠ k → j ≠ c.head → Table.get w.assembly.cons j = Table.get s.assembly.cons j) ∧
              (k = c.head → Table.get w.assembly.cons k = some { counted with headReturned := true } ∧
                w.records = s.records) ∧
              (k ≠ c.head → Table.get w.assembly.cons k = none ∧ Table.get w.assembly.cons c.head = some counted ∧
                w.records.agencies = s.records.agencies ∧ w.records.titles = s.records.titles ∧
                ∀ n, Table.get w.records.patrons n = (Table.get s.records.patrons n).map fun p =>
                  if n = c.patron then
                    { p with chain := p.chain.erase k, openPack := if p.openPack = k then 0 else p.openPack }
                  else p)) ∧
            (head.parts ≤ head.returned + 1 → head.kind = .braillePart →
              diverted 1 d worst ∧
              ∃ s' u, s' = { judged with assembly.cons := s'.assembly.cons } ∧
                (∀ j, Table.get s'.assembly.cons j = if j = c.head then some counted else Table.get s.assembly.cons j) ∧
                LoanClosed c.head head worst s' u ∧
                let ks := if k = c.head then [k] else [c.head, k]
                (back worst → w = freeAll ks (headroom head.patron (copyFreed (lineTitle head) (closeMark head u)))) ∧
                (¬back worst → w = freeAll ks (headroom head.patron (closeMark head u)))))) ∧
      (∀ c, matchItem s x = .ok c → c.kind = .pack →
        let v := verdictOf s.returns x c.weight
        ∃ t, exec .inspectionCompletion s = .next t ∧
          frame x (verdictValue v) (match v with | .pass => 0 | .note => 0 | .repair => 2 | .retire => 3) 0 ∈ t.line.floorTx ∧
          Table.get t.assembly.cons x.consignment = none ∧ t.dispatch = s.dispatch ∧ t.days = s.days ∧
          t.returns.channels = s.returns.channels ∧ t.returns.thresholds = s.returns.thresholds ∧
          t.returns.hits = (recordChannels x c.weight s.returns).hits ∧
          t.returns.stored = (recordChannels x c.weight s.returns).stored ∧
          (∀ n, n ≠ c.cartridgeClass → (accountAt t n).stock = (accountAt s n).stock) ∧
          (1 ≤ c.cartridgeClass → c.cartridgeClass ≤ 4 → 1 ≤ (accountAt s c.cartridgeClass).consigned →
            (accountAt t c.cartridgeClass).stock =
              if v = .retire then (accountAt s c.cartridgeClass).stock - 1 else (accountAt s c.cartridgeClass).stock)))

/-! ## Stock Accounts (07) -/

/-- STOCK_ADD and STOCK_ADD_TITLE (R154, R155, R153): checks, movements, and the events that follow; the counts in the REPLY
of STOCK_ADD are those after its placement pass (log 28). -/
def Obligations.StockIsAdded : Prop :=
  (∀ (n m : Nat) (u : State), copiesFreed 0 m u = u ∧ copiesFreed (n + 1) m u = copiesFreed n m (copyFreed m u)) ∧
  ∀ s s0 : State,
    (∀ (cls : Byte) (n : U16), Takes (.stockAdd cls n) s s0 →
      let i := Instr.stockAdd cls n
      let c := cls.toNat
      let a := accountAt s c
      let bad := c = 0 ∨ 4 < c ∨ n = 0 ∨ 65535 < a.stock + n.toNat
      (bad → exec i s = .next (replied i .badField [] s0)) ∧
      (¬bad →
        ∃ t u, exec i s =
            .next (replied i .ok (bytesLE 2 (accountAt u c).blank ++ bytesLE 2 (accountAt u c).stock) u) ∧
          u = settle t ∧ t = { s0 with accounts := t.accounts, passDue := true } ∧
          accountAt t c = { a with blank := a.blank + n.toNat, stock := a.stock + n.toNat } ∧
          (∀ d, d ≠ c → accountAt t d = accountAt s d) ∧ (accountAt u c).stock = a.stock + n.toNat)) ∧
    (∀ title n : U16, Takes (.stockAddTitle title n) s s0 →
      let i := Instr.stockAddTitle title n
      let m := title.toNat
      let refused (c : Code) : Prop := exec i s = .next (replied i c [] s0)
      (n = 0 → refused .badField) ∧
      (n ≠ 0 → (m = 0 ∨ s.management.geometry.t < m) → refused .titleRange) ∧
      (n ≠ 0 → m ≠ 0 → m ≤ s.management.geometry.t →
        (Table.get s.records.titles m = none → refused .titleAbsent) ∧
        (∀ x, Table.get s.records.titles m = some x →
          (x.policy = .onDemand → refused .format) ∧
          (x.policy = .shelf →
            let tooMany := 65535 < x.copies + n.toNat ∨
              (x.format = .audio ∧ 65535 < (accountAt s x.shelfClass).stock + n.toNat)
            (tooMany → refused .badField) ∧
            (¬tooMany →
              ∃ t, exec i s = .next (replied i .ok [] (settle (copiesFreed n.toNat m t))) ∧
                t = { s0 with accounts := t.accounts, records.titles := t.records.titles } ∧
                t.records = { s.records with titles := t.records.titles } ∧
                Table.get t.records.titles m = some { x with copies := x.copies + n.toNat, shelf := x.shelf + n.toNat } ∧
                (∀ o, o ≠ m → Table.get t.records.titles o = Table.get s.records.titles o) ∧
                (x.format = .braille → t.accounts = s.accounts) ∧
                (x.format = .audio → 1 ≤ x.shelfClass → x.shelfClass ≤ 4 →
                  accountAt t x.shelfClass =
                    { accountAt s x.shelfClass with
                      shelf := (accountAt s x.shelfClass).shelf + n.toNat
                      stock := (accountAt s x.shelfClass).stock + n.toNat } ∧
                  ∀ d, d ≠ x.shelfClass → accountAt t d = accountAt s d))))))

/-- REPAIRED and RETIRE_REPAIR (R156, R157): the checks they share, and the movements of unbound repair, of a SHELF audio
title and of a braille title, on accounts that can supply the items (as R148's law and R156 say they can). -/
def Obligations.RepairBenchIsEmptied : Prop :=
  ∀ (cls : Byte) (count title : U16) (s s0 : State),
    let c := cls.toNat
    let n := count.toNat
    let m := title.toNat
    let a := accountAt s c
    let refused (i : Instr) (k : Code) : Prop := exec i s = .next (replied i k [] s0)
    let checks (i : Instr) : Prop :=
      (n = 0 → refused i .badField) ∧
      (n ≠ 0 → m = 0 → (c = 0 ∨ 4 < c ∨ a.repair - a.bound < n) → refused i .badField) ∧
      (n ≠ 0 → m ≠ 0 → s.management.geometry.t < m → refused i .titleRange) ∧
      (n ≠ 0 → m ≠ 0 → m ≤ s.management.geometry.t →
        (Table.get s.records.titles m = none → refused i .titleAbsent) ∧
        (∀ x, Table.get s.records.titles m = some x →
          (x.policy = .onDemand → refused i .format) ∧
          (x.policy = .shelf → x.format = .audio → x.shelfClass ≠ c → refused i .format) ∧
          (x.policy = .shelf → (x.format = .audio → x.shelfClass = c) → x.repair < n → refused i .badField)))
    (Takes (.repaired cls count title) s s0 →
      let i := Instr.repaired cls count title
      checks i ∧
      (n ≠ 0 → m = 0 → 1 ≤ c → c ≤ 4 → n ≤ a.repair - a.bound →
        ∃ t, exec i s = .next (replied i .ok [] (settle t)) ∧ t = { s0 with accounts := t.accounts, passDue := true } ∧
          accountAt t c = { a with repair := a.repair - n, blank := a.blank + n } ∧
          ∀ d, d ≠ c → accountAt t d = accountAt s d) ∧
      (∀ x, n ≠ 0 → m ≠ 0 → m ≤ s.management.geometry.t → Table.get s.records.titles m = some x → x.policy = .shelf →
        n ≤ x.repair → (x.format = .audio → x.shelfClass = c ∧ 1 ≤ c ∧ c ≤ 4 ∧ n ≤ a.bound ∧ a.bound ≤ a.repair) →
        ∃ t, exec i s = .next (replied i .ok [] (settle (copiesFreed n m t))) ∧
          t = { s0 with accounts := t.accounts, records.titles := t.records.titles } ∧
          Table.get t.records.titles m = some { x with repair := x.repair - n, shelf := x.shelf + n } ∧
          (∀ o, o ≠ m → Table.get t.records.titles o = Table.get s.records.titles o) ∧
          (∀ d, d ≠ c → accountAt t d = accountAt s d) ∧
          (x.format = .braille → t.accounts = s.accounts) ∧
          (x.format = .audio → accountAt t c =
            { a with repair := a.repair - n, bound := a.bound - n, shelf := a.shelf + n }))) ∧
    (Takes (.retireRepair cls count title) s s0 →
      let i := Instr.retireRepair cls count title
      checks i ∧
      (n ≠ 0 → m = 0 → 1 ≤ c → c ≤ 4 → n ≤ a.repair - a.bound →
        ∃ t, exec i s = .next (replied i .ok [] t) ∧ t = { s0 with accounts := t.accounts } ∧
          accountAt t c = { a with repair := a.repair - n, stock := a.stock - n } ∧
          ∀ d, d ≠ c → accountAt t d = accountAt s d) ∧
      (∀ x, n ≠ 0 → m ≠ 0 → m ≤ s.management.geometry.t → Table.get s.records.titles m = some x → x.policy = .shelf →
        n ≤ x.repair → (x.format = .audio → x.shelfClass = c ∧ 1 ≤ c ∧ c ≤ 4 ∧ n ≤ a.bound ∧ a.bound ≤ a.repair) →
        ∃ t, exec i s = .next (replied i .ok [] t) ∧
          t = { s0 with accounts := t.accounts, records.titles := t.records.titles } ∧
          Table.get t.records.titles m = some { x with repair := x.repair - n, copies := x.copies - n } ∧
          (∀ o, o ≠ m → Table.get t.records.titles o = Table.get s.records.titles o) ∧
          (∀ d, d ≠ c → accountAt t d = accountAt s d) ∧
          (x.format = .braille → t.accounts = s.accounts) ∧
          (x.format = .audio → accountAt t c =
            { a with repair := a.repair - n, bound := a.bound - n, stock := a.stock - n })))

/-- DECLARE_LOST in SERVICE (R158 to R160): its checks; a PACK, a SHELF_AUDIO consignment or a set head, whose loan is
closed under RETIRE, its overdue mark with it, and whose record, with the set's other POSTED parts, is freed before the
*headroom* walk; a non-head part that leaves its set incomplete, which is counted on its head under RETIRE and freed, and
one that completes it, whose set is closed under RETIRE. What an overdue mark does when its loan closes (R172, R173, here
and at a return): without a mark nothing; with one the patron's overdue count falls by 1 and held is evaluated anew, and
when the hold clears a *headroom* walk of the patron follows at once. What freeing a record changes (R53). -/
def Obligations.LostItemsLeaveTheAccounts : Prop :=
  (∀ (consignment : U16) (s s0 : State), Takes (.declareLost consignment) s s0 → s.management.mode = .service →
    let k := consignment.toNat
    let i := Instr.declareLost consignment
    let refused (c : Code) : Prop := exec i s = .next (replied i c [] s0)
    let unsent := s.assembly.cons.any fun e =>
      decide (e.2.kind = .braillePart ∧ e.2.head = k ∧ e.1 ≠ k ∧ (e.2.state = .ready ∨ e.2.state = .releasing))
    let sent := (s.assembly.cons.filter fun e =>
      decide (e.2.kind = .braillePart ∧ e.2.head = k ∧ e.1 ≠ k ∧ e.2.state = .posted)).map Prod.fst
    ((k = 0 ∨ s.management.geometry.c < k) → refused .badField) ∧
    (k ≠ 0 → k ≤ s.management.geometry.c →
      (Table.get s.assembly.cons k = none → refused .notFound) ∧
      (∀ c, Table.get s.assembly.cons k = some c →
        (c.state ≠ .posted → refused .notFound) ∧
        (c.state = .posted →
          (c.kind = .braillePart → c.head = k →
            (c.headReturned = true → refused .duplicate) ∧ (c.headReturned = false → unsent = true → refused .inUse)) ∧
          ((c.kind = .braillePart → c.head = k ∧ c.headReturned = false ∧ unsent = false) →
            ∃ u, LoanClosed k c .retire s0 u ∧
              exec i s = .next (replied i .ok [] (settle (headroom c.patron
                (freeAll (if c.kind = .braillePart then k :: sent else [k]) (closeMark c u)))))) ∧
          (∀ l p x, c.kind = .shelfAudio → c.lines = [l] → l.state = .isOpen → c.overdue = false → 1 ≤ c.cartridgeClass →
            c.cartridgeClass ≤ 4 → 1 ≤ (accountAt s c.cartridgeClass).consigned →
            Table.get s.records.patrons c.patron = some p → Table.get s.records.titles l.title = some x →
            ∃ t, exec i s = .next (replied i .ok [] (settle (headroom c.patron t))) ∧
              t = { s0 with
                records := t.records, accounts := t.accounts, assembly.cons := t.assembly.cons } ∧
              Table.get t.assembly.cons k = none ∧
              Table.get t.records.titles l.title = some { x with out := x.out - 1, copies := x.copies - 1 } ∧
              Table.get t.records.patrons c.patron =
                some { p with charge := p.charge - 1, chain := p.chain.erase k,
                              openPack := if p.openPack = k then 0 else p.openPack } ∧
              accountAt t c.cartridgeClass =
                { accountAt s c.cartridgeClass with
                  consigned := (accountAt s c.cartridgeClass).consigned - 1
                  stock := (accountAt s c.cartridgeClass).stock - 1 } ∧
              ∀ d, d ≠ c.cartridgeClass → accountAt t d = accountAt s d) ∧
          (∀ head, c.kind = .braillePart → c.head ≠ k → Table.get s.assembly.cons c.head = some head →
            let counted : Consignment := { head with returned := head.returned + 1, worst := .retire }
            ∃ m, m = { s0 with assembly.cons := m.assembly.cons } ∧
              (∀ j, Table.get m.assembly.cons j = if j = c.head then some counted else Table.get s.assembly.cons j) ∧
              let s' := freeConsignment k m
              (head.returned + 1 < head.parts → exec i s = .next (replied i .ok [] s')) ∧
              (head.parts ≤ head.returned + 1 → head.kind = .braillePart →
                ∃ u, LoanClosed c.head head .retire s' u ∧
                  exec i s = .next (replied i .ok [] (settle
                    (freeConsignment c.head (headroom head.patron (closeMark head u)))))) ∧
              s' = { s0 with assembly.cons := s'.assembly.cons, records.patrons := s'.records.patrons } ∧
              (∀ j, Table.get s'.assembly.cons j =
                if j = k then none else if j = c.head then some counted else Table.get s.assembly.cons j) ∧
              ∀ n, Table.get s'.records.patrons n = (Table.get s.records.patrons n).map fun p =>
                if n = c.patron then
                  { p with chain := p.chain.erase k, openPack := if p.openPack = k then 0 else p.openPack }
                else p))))) ∧
  (∀ (s : State) (c : Consignment),
    (c.overdue = false → closeMark c s = s) ∧
    (Table.get s.records.patrons c.patron = none → closeMark c s = s) ∧
    ∀ p, c.overdue = true → Table.get s.records.patrons c.patron = some p →
      let held := decide (s.management.settings.holdLimit ≠ 0 ∧ s.management.settings.holdLimit ≤ p.overdue - 1)
      ∃ t, t = { s with records.patrons := t.records.patrons } ∧
        Table.get t.records.patrons c.patron = some { p with overdue := p.overdue - 1, held := held } ∧
        (∀ n, n ≠ c.patron → Table.get t.records.patrons n = Table.get s.records.patrons n) ∧
        (p.held = true → held = false → closeMark c s = headroom c.patron t) ∧
        ((p.held = false ∨ held = true) → closeMark c s = t)) ∧
  ∀ (s : State) (k : Nat) (c : Consignment), Table.get s.assembly.cons k = some c →
    let t := freeConsignment k s
    t = { s with assembly.cons := t.assembly.cons, records.patrons := t.records.patrons } ∧
    (∀ j, Table.get t.assembly.cons j = if j = k then none else Table.get s.assembly.cons j) ∧
    ∀ n, Table.get t.records.patrons n = (Table.get s.records.patrons n).map fun p =>
      if n = c.patron then { p with chain := p.chain.erase k, openPack := if p.openPack = k then 0 else p.openPack } else p

/-! ## The Day Unit (08) -/

/-- DAY in SERVICE (R163, R165, R166): BUSY while a sweep runs, then by the advance modulo 65,536. SWEEP_STEP (R166 to
R171): a POSTED loan past its due day is marked and raises its patron's overdue count and held state; a pack of age is
sealed; any other record is passed over; the position rises, or after index C the sweep ends with SWEEP_DONE; with no sweep
nothing happens. -/
def Obligations.DaysAdvanceAndSweepsStep : Prop :=
  (∀ (d : U16) (s s0 : State), Takes (.day d) s s0 → s.management.mode = .service →
     let advance := (d.toNat + 65536 - s.days.today.toNat) % 65536
     let i := Instr.day d
     (s.days.sweeping = true → exec i s = .next (replied i .busy (bytesLE 2 s.days.today.toNat) s0)) ∧
     (s.days.sweeping = false →
       (advance = 0 → exec i s = .next (replied i .sameDay (bytesLE 2 s.days.today.toNat) s0)) ∧
       (1 ≤ advance → advance ≤ 7 →
         exec i s = .next (replied i .ok (bytesLE 2 d.toNat) { s0 with days := ⟨d, true, 1, 0, 0⟩ })) ∧
       (8 ≤ advance → exec i s = .next (replied i .dayGap (bytesLE 2 s.days.today.toNat) s0)))) ∧
  (∀ s : State, NoPassOwed s →
     (s.days.sweeping = false → exec .sweepStep s = .next s) ∧
     (s.days.sweeping = true →
       let k := s.days.position
       let moved (u : State) : State :=
         if s.management.geometry.c ≤ k then
           { latch .sweepDone u.days.marked u with days.sweeping := false, days.position := 0 }
         else { u with days.position := k + 1 }
       let late (c : Consignment) : Prop :=
         c.state = .posted ∧ (c.kind ≠ .braillePart ∨ c.head = k) ∧ c.overdue = false ∧
           1 ≤ daysFrom c.dueDay s.days.today ∧ daysFrom c.dueDay s.days.today ≤ 32767
       let old (c : Consignment) : Prop :=
         c.state = .assembling ∧ c.kind = .pack ∧ s.management.settings.packHold ≤ daysFrom c.openDay s.days.today
       ((∀ c, Table.get s.assembly.cons k = some c → ¬late c ∧ ¬old c) → exec .sweepStep s = .next (moved s)) ∧
       (∀ c p, Table.get s.assembly.cons k = some c → late c → Table.get s.records.patrons c.patron = some p →
         (p.held = true → s.management.settings.holdLimit ≠ 0 ∧ s.management.settings.holdLimit ≤ p.overdue) →
         ∃ u, exec .sweepStep s = .next (moved u) ∧
           u = { s with
             days.marked := s.days.marked + 1, assembly.cons := u.assembly.cons, records.patrons := u.records.patrons } ∧
           Table.get u.assembly.cons k = some { c with overdue := true } ∧
           (∀ j, j ≠ k → Table.get u.assembly.cons j = Table.get s.assembly.cons j) ∧
           (∀ n, n ≠ c.patron → Table.get u.records.patrons n = Table.get s.records.patrons n) ∧
           Table.get u.records.patrons c.patron =
             some { p with overdue := p.overdue + 1,
                           held := decide (s.management.settings.holdLimit ≠ 0 ∧
                             s.management.settings.holdLimit ≤ p.overdue + 1) }) ∧
       (∀ c, Table.get s.assembly.cons k = some c → old c →
         exec .sweepStep s =
           .next (settle (moved (sealPack k { s with days.sealedCount := s.days.sealedCount + 1 }))))))

/-! ## The Line Interface and the notices (10, 11) -/

/-- Reception (R191 to R194). The characters of a command follow those of the frame in reception (log 13): a faultless
office frame joins the queue or is discarded with OVERRUN (one that RESTART overtook is lost, R189, R200; log 13), an
unended one stays in reception, every frame that ends in the characters is taken so in its turn, and a faulty one joins
its causes to the port's and latches LINE_FAULT with subject 0, or 63 on the floor port, where a turn in which it began
ends, or waits for its silence, its station's count cleared (R198, log 23), and any other stands; a faulty mark
character alone begins no frame and leaves a turn as it is (log 43); a whole floor frame of a source outside 16..62 is a
CHECK failure, and in a turn a miss of its station besides (R193, R198, log 23). A mark character in a frame is a LENGTH
failure and begins the next frame. The head of the office receive queue (R194, R196): a frame to 1..15 is discarded; a
frame to the floor crosses from the supervisor when the floor queue has room, and from a gateway is refused with
NOT_AUTHORISED once the reply slot is empty (log 30). -/
def Obligations.OfficeFramesAreTaken : Prop :=
  (∀ (chars : List Chr) (s : State),
     let run := s.line.officeIn ++ chars
     (∀ f, receive run = .frame f → 1 ≤ f.src.toNat → f.src.toNat ≤ 15 →
       exec (.officeFrameReceive chars) s = .next (receiveOffice run s) ∧ exec (.frameDiscard .office chars) s = .next s) ∧
     (receive run = .incomplete →
       exec (.officeFrameReceive chars) s = .next { s with line.officeIn := inFrame run } ∧
       exec (.frameDiscard .office chars) s = .next { s with line.officeIn := inFrame run }) ∧
     (∀ causes, (receive run = .fault causes ∨
         (causes = 8 ∧ ∃ f, receive run = .frame f ∧ (f.src = 0 ∨ 15 < f.src.toNat))) →
       exec (.frameDiscard .office chars) s = .next (receiveOffice run s) ∧ exec (.officeFrameReceive chars) s = .next s)) ∧
  (∀ (run : List Chr) (s : State),
     let rest := afterFrame run
     (receive run = .incomplete → receiveOffice run s = { s with line.officeIn := inFrame run }) ∧
     (∀ f, receive run = .frame f → 1 ≤ f.src.toNat → f.src.toNat ≤ 15 →
       (s.line.officeLost = true → receiveOffice run s = receiveOffice rest { s with line.officeLost := false }) ∧
       (s.line.officeLost = false →
         (s.line.officeRx.length < 16 →
           receiveOffice run s = receiveOffice rest { s with line.officeRx := s.line.officeRx ++ [f] }) ∧
         (16 ≤ s.line.officeRx.length →
           receiveOffice run s =
             receiveOffice rest (latch .lineFault 0 { s with line.officeFaults := s.line.officeFaults ||| 16 })))) ∧
     (∀ causes, (receive run = .fault causes ∨
         (causes = 8 ∧ ∃ f, receive run = .frame f ∧ (f.src = 0 ∨ 15 < f.src.toNat))) →
       receiveOffice run s =
         receiveOffice rest (latch .lineFault 0
           { s with line.officeFaults := s.line.officeFaults ||| causes, line.officeLost := false })) ∧
     receive (receiveOffice run s).line.officeIn = .incomplete) ∧
  (∀ (chars : List Chr) (s : State),
     let run := s.line.floorIn ++ chars
     (receive run = .incomplete → exec (.frameDiscard .floor chars) s = .next { s with line.floorIn := inFrame run }) ∧
     (∀ causes, (receive run = .fault causes ∨
         (causes = 8 ∧ ∃ f, receive run = .frame f ∧ (f.src.toNat < 16 ∨ 62 < f.src.toNat))) →
       let ended : State := { s with
         line.floorFaults := s.line.floorFaults ||| causes, line.floorIn := afterFrame run
         line.carried := none, line.early := s.line.early && decide (afterFrame s.line.floorIn ≠ []) }
       ((s.line.turn = none ∨ (s.line.floorIn ≠ [] ∧ (s.line.carried ≠ none ∨ s.line.early = true))) →
         exec (.frameDiscard .floor chars) s = .next (latch .lineFault 63 ended)) ∧
       (∀ t, s.line.turn = some t → (s.line.floorIn = [] ∨ (s.line.carried = none ∧ s.line.early = false)) →
         16 ≤ t.station → t.station ≤ 62 → receive run = .fault causes →
         ∃ u, exec (.frameDiscard .floor chars) s = .next (latch .lineFault 63 u) ∧
           u = { ended with
             line.turn := if causes &&& 3 = 0 then none else some ⟨t.station, true⟩
             line.missed := u.line.missed } ∧
           missedAt u t.station = 0 ∧ ∀ k, 16 ≤ k → k ≠ t.station → missedAt u k = missedAt s k) ∧
       (∀ t f, s.line.turn = some t → (s.line.floorIn = [] ∨ (s.line.carried = none ∧ s.line.early = false)) →
         16 ≤ t.station → t.station ≤ 62 → receive run = .frame f → causes = 8 →
         ∃ u, exec (.frameDiscard .floor chars) s = .next u ∧
           u = { ended with
             line.turn := none, line.missed := u.line.missed, management.notices := u.management.notices } ∧
           (missedAt s t.station + 1 ≠ 3 →
             missedAt u t.station = missedAt s t.station + 1 ∧ u.management = (latch .lineFault 63 s).management) ∧
           (missedAt s t.station + 1 = 3 →
             missedAt u t.station = 0 ∧
               u.management = (latch .lineFault t.station (latch .lineFault 63 s)).management) ∧
           ∀ k, 16 ≤ k → k ≠ t.station → missedAt u k = missedAt s k))) ∧
  (∀ (before : List Chr) (c : Chr) (more : List Chr), receive before = .incomplete → inFrame before ≠ [] → c.mark = true →
     Chr.faults c = 0 →
     receive (before ++ c :: more) = .fault 4 ∧ afterFrame (before ++ c :: more) = c :: more) ∧
  (∀ (f : Frame) (rest : List Frame) (s : State), s.line.officeRx = f :: rest →
     (1 ≤ f.dst.toNat → f.dst.toNat ≤ 15 → exec .officePeerFrame s = .next { s with line.officeRx := rest }) ∧
     ((f.dst = 0 ∨ 16 ≤ f.dst.toNat) → exec .officePeerFrame s = .next s) ∧
     (16 ≤ f.dst.toNat →
       (f.src = 1 → s.line.floorTx.length < 32 →
         exec .forwardToFloor s = .next (toFloor f { s with line.officeRx := rest })) ∧
       (f.src = 1 → 32 ≤ s.line.floorTx.length → exec .forwardToFloor s = .next s) ∧
       (f.src ≠ 1 → s.line.replySlot = none →
         exec .forwardToFloor s =
           .next { s with line.officeRx := rest, line.replySlot := some ⟨f.src, 0, 80, [f.kind, 21]⟩ }) ∧
       (f.src ≠ 1 → s.line.replySlot ≠ none → exec .forwardToFloor s = .next s)))

/-- What the office port sends (R195, R207): the REPLY first, then the forwarded frame, then the lowest-numbered notice
latched and not masked, whose latch and count are cleared. No other frame begins while the effect of a RESET or
SET_LINES reply is due (log 29); any other frame in sending has ended when the next one begins (log 4).
CLEAR_LINE_FAULTS, whose REPLY gives the office port's
set first (log 45), and SET_MASK (R192, R208), and the latching of a notice (R206). -/
def Obligations.OfficePortSendsInOrder : Prop :=
  (∀ s : State,
     (s.line.officeSending = some ⟨1, 0, 80, [1, 0]⟩ ∨
       (s.line.officeSending = some ⟨1, 0, 80, [5, 0]⟩ ∧ s.line.ratesNext ≠ [])) →
     exec .sendReply s = .next s ∧ exec .sendForwardedFrame s = .next s ∧ exec .notice s = .next s) ∧
  (∀ s : State,
     (∀ f, s.line.officeSending = some f → f ≠ ⟨1, 0, 80, [1, 0]⟩ ∧ (f = ⟨1, 0, 80, [5, 0]⟩ → s.line.ratesNext = [])) →
     (∀ f, s.line.replySlot = some f →
       exec .sendReply s = .next { s with line.replySlot := none, line.officeSending := some f } ∧
       exec .sendForwardedFrame s = .next s ∧ exec .notice s = .next s) ∧
     (s.line.replySlot = none →
       exec .sendReply s = .next s ∧
       (∀ f, s.line.forward = some f →
         exec .sendForwardedFrame s = .next { s with line.forward := none, line.officeSending := some f } ∧
         exec .notice s = .next s) ∧
       (s.line.forward = none →
         exec .sendForwardedFrame s = .next s ∧
         (∀ n, 1 ≤ n → n ≤ 12 → (bankGet s.management.notices n {}).latch = true → s.management.mask.getLsbD (n - 1) = false →
           (∀ m, 1 ≤ m → m < n → (bankGet s.management.notices m {}).latch = false ∨ s.management.mask.getLsbD (m - 1) = true) →
           let cell := bankGet s.management.notices n {}
           ∃ t, exec .notice s = .next t ∧
             t = { s with management.notices := t.management.notices, line.officeSending := t.line.officeSending } ∧
             t.line.officeSending = some ⟨1, 0, 81, [byteOf n, byteOf cell.count] ++ bytesLE 2 cell.subject⟩ ∧
             bankGet t.management.notices n {} = ⟨false, 0, cell.subject⟩ ∧
             ∀ m, m ≠ n → bankGet t.management.notices m {} = bankGet s.management.notices m {}) ∧
         ((∀ n, 1 ≤ n → n ≤ 12 → (bankGet s.management.notices n {}).latch = false ∨ s.management.mask.getLsbD (n - 1) = true) →
           exec .notice s = .next s)))) ∧
  (∀ s s0 : State,
     (Takes .clearLineFaults s s0 →
       exec .clearLineFaults s =
         .next (replied .clearLineFaults .ok [s.line.officeFaults, s.line.floorFaults]
           { s0 with line.officeFaults := 0, line.floorFaults := 0 })) ∧
     (∀ mask : U16, Takes (.setMask mask) s s0 →
       (mask.toNat < 4096 →
         exec (.setMask mask) s = .next (replied (.setMask mask) .ok (bytesLE 2 mask.toNat) { s0 with management.mask := mask })) ∧
       (4096 ≤ mask.toNat → exec (.setMask mask) s = .next (replied (.setMask mask) .badField [] s0))) ∧
     (∀ (n : NoticeId) (subject : Nat),
       bankGet (latch n subject s).management.notices (noticeNumber n) {} =
         ⟨true, min 255 ((bankGet s.management.notices (noticeNumber n) {}).count + 1), subject⟩ ∧
       ∀ m, m ≠ noticeNumber n → bankGet (latch n subject s).management.notices m {} = bankGet s.management.notices m {}))

/-- Sending on the floor port (R197 to R199): the head of the queue, then in SERVICE a POLL of the next member of the
poll set, and none when that is empty (the place left in a full queue is contended while a frame waits for it, log 10),
both only while no reply turn is in progress, no rate is due (R183, log 29) and no frame to a station is being sent (a
broadcast in sending keeps nothing waiting, log 4); the end of a frame to 16..62 grants its turn, in which a frame
already in reception did not begin (log 13), and the end of a broadcast grants none. -/
def Obligations.FloorPortSendsAndPolls : Prop :=
  ∀ s : State,
    (∀ f rest, s.line.floorTx = f :: rest → s.line.turn = none → s.line.floorNext = none →
      (∀ g, s.line.floorSending = some g → g.dst = 63) →
      exec .floorSend s = .next { s with
        line.floorTx := rest, line.floorSending := some f
        line.contended :=
          (s.line.contended || decide (32 ≤ s.line.floorTx.length)) && decide (aheadOfReleases s ≠ 0) }) ∧
    ((s.line.floorTx = [] ∨ s.line.turn ≠ none ∨ s.line.floorNext ≠ none ∨ ∃ g, s.line.floorSending = some g ∧ g.dst ≠ 63) →
      exec .floorSend s = .next s) ∧
    (∀ k, 16 ≤ k → k ≤ 62 → s.line.pollSet.getLsbD k = true →
      ((s.line.pollPos < k ∧ ∀ m, 16 ≤ m → m < k → s.line.pollPos < m → s.line.pollSet.getLsbD m = false) ∨
        ((∀ m, 16 ≤ m → m ≤ 62 → s.line.pollPos < m → s.line.pollSet.getLsbD m = false) ∧
          ∀ m, 16 ≤ m → m < k → s.line.pollSet.getLsbD m = false)) →
      s.management.mode = .service → s.line.floorTx = [] → s.line.turn = none → s.line.floorNext = none →
      (∀ g, s.line.floorSending = some g → g.dst = 63) →
      exec .poll s = .next { s with line.floorSending := some ⟨byteOf k, 0, 96, []⟩, line.pollPos := k }) ∧
    ((s.management.mode = .setup ∨ s.line.floorTx ≠ [] ∨ s.line.turn ≠ none ∨ s.line.floorNext ≠ none ∨
        ∃ g, s.line.floorSending = some g ∧ g.dst ≠ 63) → exec .poll s = .next s) ∧
    ((∀ k, 16 ≤ k → k ≤ 62 → s.line.pollSet.getLsbD k = false) → exec .poll s = .next s) ∧
    (s.line.floorSending = none → exec .replyTurnGrant s = .next s) ∧
    (∀ f, s.line.floorSending = some f →
      (16 ≤ f.dst.toNat → f.dst.toNat ≤ 62 →
        exec .replyTurnGrant s =
          .next { s with
            line.floorSending := none, line.turn := some { station := f.dst.toNat, silence := false }
            line.early := decide (s.line.floorIn ≠ []) }) ∧
      (f.dst.toNat = 63 → exec .replyTurnGrant s = .next { s with line.floorSending := none }) ∧
      ((f.dst.toNat < 16 ∨ 63 < f.dst.toNat) → exec .replyTurnGrant s = .next s))

/-- The end of a reply turn (R198): silence is a miss and the third in a row latches LINE_FAULT with the station; after
a parity or framing error silence ends the turn without a miss (also under a new frame, log 41); a frame of another
station is discarded and counts as a miss of the turn's (log 23). What the Line Interface itself does with a station's
frame in its turn (R79, R196, R199): QUIET and a frame it discards (to a floor station, in SETUP, from a source without
an owner, or of a kind or length that the owner does not take) end the turn, clear the missed-reply count and reload a
running stall timer, and nothing else (log 32); so does a unit's frame in SETUP or from another owner's source (R178,
R199); a frame to the office takes the forward buffer, or is discarded with OVERRUN and reloads no timer (log 32; an
OFFLINE or FAULTED bay's too, log 42). A frame in reception when its turn was cleared by RESTART is handed on; one in
reception when the turn began is discarded and leaves the turn; no other frame completes before it (R189, R198, R200;
log 13). A frame held whole behind an early mark character completes with its characters, and those behind it are the
next frame's (R191). -/
def Obligations.ReplyTurnsEnd : Prop :=
  (∀ (s : State) (station : Nat), 16 ≤ station → station ≤ 62 →
     let missed (line : LineUnit) (u : State) : Prop :=
       u.line = { line with missed := u.line.missed } ∧
       (missedAt s station + 1 ≠ 3 → missedAt u station = missedAt s station + 1 ∧ u.management = s.management) ∧
       (missedAt s station + 1 = 3 → missedAt u station = 0 ∧ u.management = (latch .lineFault station s).management) ∧
       (∀ k, 16 ≤ k → k ≠ station → missedAt u k = missedAt s k) ∧
       u = { s with line := u.line, management.notices := u.management.notices }
     (s.line.turn = some ⟨station, false⟩ →
       ((s.line.floorIn = [] ∨ s.line.early = true) →
         ∃ u, exec .replyWindowExpiry s = .next u ∧ missed { s.line with turn := none } u) ∧
       (s.line.floorIn ≠ [] → s.line.early = false → exec .replyWindowExpiry s = .next s) ∧
       exec .turnSilenceExpiry s = .next s) ∧
     (s.line.turn = some ⟨station, true⟩ →
       exec .turnSilenceExpiry s = .next { s with line.turn := none } ∧ exec .replyWindowExpiry s = .next s) ∧
     (∀ f : Frame, NoPassOwed s → (∃ silence, s.line.turn = some ⟨station, silence⟩) → s.line.floorIn = [] → 16 ≤ f.src.toNat →
       f.src.toNat ≤ 62 → f.src.toNat ≠ station →
       ∃ u, exec (.strayFloorFrame f) s = .next u ∧
         missed { s.line with turn := none, carried := none, early := false } u) ∧
     (∀ f : Frame, NoPassOwed s → s.line.turn = none → s.line.floorIn = [] → 16 ≤ f.src.toNat → f.src.toNat ≤ 62 →
       exec (.strayFloorFrame f) s = .next { s with line.carried := none, line.early := false })) ∧
  (∀ s s1 : State,
     let kindsOf (owner : Owner) : List Byte :=
       match owner with
       | .bay _ => [97, 120, 121, 122, 123, 124]
       | .pickStation => [97, 136, 137]
       | .sorter => [97, 152, 153, 154]
       | .scanner => [97, 168]
       | .nobody => [97]
     let formed (f : Frame) : Prop :=
       (f.kind, f.payload.length) ∈
           [((97 : Byte), 0), (120, 6), (121, 5), (122, 5), (123, 7), (124, 1), (136, 6), (137, 2), (152, 2), (153, 3), (154, 1)] ∨
         (f.kind = 168 ∧
           f.payload.length = 11 + 2 * (presentChannels (BitVec.ofNat 16 (fieldAt f.payload 9 2))).length)
     (∀ src : Byte, InTurn src.toNat s s1 → exec (.quiet src) s = .next s1) ∧
     (∀ src : Byte, InTurn src.toNat s s1 →
       ((s.management.mode = .setup ∨ ∀ b, ownerOf s src.toNat ≠ .bay b) →
         (∀ (job : U16) (serial : U32), exec (.started src job serial) s = .next s1) ∧
         (∀ (job : U16) (blocks : U24), exec (.progress src job blocks) s = .next s1 ∧
           exec (.parked src job blocks) s = .next s1) ∧
         (∀ (job : U16) (serial : U32) (result : Byte), exec (.copyDone src job serial result) s = .next s1) ∧
         ∀ code : Byte, exec (.bayFault src code) s = .next s1) ∧
       ((s.management.mode = .setup ∨ ownerOf s src.toNat ≠ .pickStation) →
         ∀ (consignment : U16) (serial : U32), exec (.picked src consignment serial) s = .next s1 ∧
           exec (.notFound src consignment) s = .next s1) ∧
       ((s.management.mode = .setup ∨ ownerOf s src.toNat ≠ .sorter) →
         ∀ (consignment : U16) (chute : Byte), exec (.chuted src consignment) s = .next s1 ∧
           exec (.chuteFull src consignment chute) s = .next s1 ∧ exec (.chuteClear src chute) s = .next s1) ∧
       ((s.management.mode = .setup ∨ ownerOf s src.toNat ≠ .scanner) →
         ∀ (consignment postDay : U16) (part : Byte) (serial : U32) (presence : U16) (readings : List U16),
           exec (.returnItem src consignment postDay part serial presence readings) s = .next s1)) ∧
     (∀ f : Frame, InTurn f.src.toNat s s1 →
       ((16 ≤ f.dst.toNat ∨ (f.dst = 0 ∧ s.management.mode = .setup) ∨
           (f.dst = 0 ∧ ownerOf s f.src.toNat = .nobody)) →
         exec (.floorFrameNotTaken f) s = .next s1) ∧
       (f.dst = 0 → (f.kind ∉ kindsOf (ownerOf s f.src.toNat) ∨ ¬formed f) → exec (.floorFrameNotTaken f) s = .next s1) ∧
       (1 ≤ f.dst.toNat → f.dst.toNat ≤ 15 →
         (s.line.forward = none → exec (.floorForward f) s = .next { s1 with line.forward := some f }) ∧
         (s.line.forward ≠ none →
           exec (.floorForward f) s =
             .next (latch .lineFault 63
               { setMissed f.src.toNat 0 (endTurn (endReception s)) with
                 line.floorFaults := s.line.floorFaults ||| 16 }))))) ∧
  (∀ (s : State) (f : Frame), s.line.floorIn ≠ [] → s.line.floorIn <+: Frame.chars f → 16 ≤ f.src.toNat →
     f.src.toNat ≤ 62 → NoPassOwed s →
     let done : State := { s with line.floorIn := [], line.carried := none, line.early := false }
     (s.line.carried = some f.src.toNat → 1 ≤ f.dst.toNat → f.dst.toNat ≤ 15 → s.line.forward = none →
       exec (.floorForward f) s = .next { reloadTimer f.src.toNat done with line.forward := some f }) ∧
     (s.line.carried = none → (s.line.turn = none ∨ s.line.early = true) → exec (.strayFloorFrame f) s = .next done)) ∧
  (∀ (s : State) (f : Frame) (rest : List Chr), s.line.floorIn = Frame.chars f ++ rest → f.dst.toNat ≤ 63 →
     f.payload.length ≤ 240 → 16 ≤ f.src.toNat → f.src.toNat ≤ 62 → NoPassOwed s → s.line.carried = none →
     (s.line.turn = none ∨ s.line.early = true) →
     exec (.strayFloorFrame f) s = .next { s with
       line.floorIn := inFrame rest, line.early := s.line.early && decide (inFrame rest ≠ []) }) ∧
  ∀ (s : State) (i : Instr) (f : Frame), floorFrame i = some f → ¬s.line.floorIn <+: Frame.chars f →
    ¬Frame.chars f <+: s.line.floorIn → exec i s = .next s
end

