-- ==== Sys2Proof/Laws/State.lean ====
section
/-! SUPPORT. What each named update leaves as it was and what it writes: one lemma per field, true by unfolding. -/

namespace Sys2Proof.Machine

/-! ### modPatron -/

@[simp] theorem modPatron_pending (k : Nat) (f : Patron → Patron) (s : State) : (modPatron k f s).pending = s.pending := rfl
@[simp] theorem modPatron_line (k : Nat) (f : Patron → Patron) (s : State) : (modPatron k f s).line = s.line := rfl
@[simp] theorem modPatron_patrons (k : Nat) (f : Patron → Patron) (s : State) :
    (modPatron k f s).records.patrons = Table.modify s.records.patrons k f := rfl
@[simp] theorem modPatron_agencies (k : Nat) (f : Patron → Patron) (s : State) : (modPatron k f s).records.agencies = s.records.agencies := rfl
@[simp] theorem modPatron_titles (k : Nat) (f : Patron → Patron) (s : State) : (modPatron k f s).records.titles = s.records.titles := rfl
@[simp] theorem modPatron_requests (k : Nat) (f : Patron → Patron) (s : State) : (modPatron k f s).requests = s.requests := rfl
@[simp] theorem modPatron_assembly (k : Nat) (f : Patron → Patron) (s : State) : (modPatron k f s).assembly = s.assembly := rfl
@[simp] theorem modPatron_scheduler (k : Nat) (f : Patron → Patron) (s : State) : (modPatron k f s).scheduler = s.scheduler := rfl
@[simp] theorem modPatron_dispatch (k : Nat) (f : Patron → Patron) (s : State) : (modPatron k f s).dispatch = s.dispatch := rfl
@[simp] theorem modPatron_returns (k : Nat) (f : Patron → Patron) (s : State) : (modPatron k f s).returns = s.returns := rfl
@[simp] theorem modPatron_accounts (k : Nat) (f : Patron → Patron) (s : State) : (modPatron k f s).accounts = s.accounts := rfl
@[simp] theorem modPatron_days (k : Nat) (f : Patron → Patron) (s : State) : (modPatron k f s).days = s.days := rfl
@[simp] theorem modPatron_management (k : Nat) (f : Patron → Patron) (s : State) : (modPatron k f s).management = s.management := rfl
@[simp] theorem modPatron_passDue (k : Nat) (f : Patron → Patron) (s : State) : (modPatron k f s).passDue = s.passDue := rfl
@[simp] theorem modPatron_freeIx (k : Nat) (f : Patron → Patron) (s : State) : (modPatron k f s).freeIx = s.freeIx := rfl

/-! ### modAgency -/

@[simp] theorem modAgency_pending (k : Nat) (f : Agency → Agency) (s : State) : (modAgency k f s).pending = s.pending := rfl
@[simp] theorem modAgency_line (k : Nat) (f : Agency → Agency) (s : State) : (modAgency k f s).line = s.line := rfl
@[simp] theorem modAgency_patrons (k : Nat) (f : Agency → Agency) (s : State) : (modAgency k f s).records.patrons = s.records.patrons := rfl
@[simp] theorem modAgency_agencies (k : Nat) (f : Agency → Agency) (s : State) :
    (modAgency k f s).records.agencies = Table.modify s.records.agencies k f := rfl
@[simp] theorem modAgency_titles (k : Nat) (f : Agency → Agency) (s : State) : (modAgency k f s).records.titles = s.records.titles := rfl
@[simp] theorem modAgency_requests (k : Nat) (f : Agency → Agency) (s : State) : (modAgency k f s).requests = s.requests := rfl
@[simp] theorem modAgency_assembly (k : Nat) (f : Agency → Agency) (s : State) : (modAgency k f s).assembly = s.assembly := rfl
@[simp] theorem modAgency_scheduler (k : Nat) (f : Agency → Agency) (s : State) : (modAgency k f s).scheduler = s.scheduler := rfl
@[simp] theorem modAgency_dispatch (k : Nat) (f : Agency → Agency) (s : State) : (modAgency k f s).dispatch = s.dispatch := rfl
@[simp] theorem modAgency_returns (k : Nat) (f : Agency → Agency) (s : State) : (modAgency k f s).returns = s.returns := rfl
@[simp] theorem modAgency_accounts (k : Nat) (f : Agency → Agency) (s : State) : (modAgency k f s).accounts = s.accounts := rfl
@[simp] theorem modAgency_days (k : Nat) (f : Agency → Agency) (s : State) : (modAgency k f s).days = s.days := rfl
@[simp] theorem modAgency_management (k : Nat) (f : Agency → Agency) (s : State) : (modAgency k f s).management = s.management := rfl
@[simp] theorem modAgency_passDue (k : Nat) (f : Agency → Agency) (s : State) : (modAgency k f s).passDue = s.passDue := rfl
@[simp] theorem modAgency_freeIx (k : Nat) (f : Agency → Agency) (s : State) : (modAgency k f s).freeIx = s.freeIx := rfl

/-! ### modTitle -/

@[simp] theorem modTitle_pending (k : Nat) (f : Title → Title) (s : State) : (modTitle k f s).pending = s.pending := rfl
@[simp] theorem modTitle_line (k : Nat) (f : Title → Title) (s : State) : (modTitle k f s).line = s.line := rfl
@[simp] theorem modTitle_patrons (k : Nat) (f : Title → Title) (s : State) : (modTitle k f s).records.patrons = s.records.patrons := rfl
@[simp] theorem modTitle_agencies (k : Nat) (f : Title → Title) (s : State) : (modTitle k f s).records.agencies = s.records.agencies := rfl
@[simp] theorem modTitle_titles (k : Nat) (f : Title → Title) (s : State) :
    (modTitle k f s).records.titles = Table.modify s.records.titles k f := rfl
@[simp] theorem modTitle_requests (k : Nat) (f : Title → Title) (s : State) : (modTitle k f s).requests = s.requests := rfl
@[simp] theorem modTitle_assembly (k : Nat) (f : Title → Title) (s : State) : (modTitle k f s).assembly = s.assembly := rfl
@[simp] theorem modTitle_scheduler (k : Nat) (f : Title → Title) (s : State) : (modTitle k f s).scheduler = s.scheduler := rfl
@[simp] theorem modTitle_dispatch (k : Nat) (f : Title → Title) (s : State) : (modTitle k f s).dispatch = s.dispatch := rfl
@[simp] theorem modTitle_returns (k : Nat) (f : Title → Title) (s : State) : (modTitle k f s).returns = s.returns := rfl
@[simp] theorem modTitle_accounts (k : Nat) (f : Title → Title) (s : State) : (modTitle k f s).accounts = s.accounts := rfl
@[simp] theorem modTitle_days (k : Nat) (f : Title → Title) (s : State) : (modTitle k f s).days = s.days := rfl
@[simp] theorem modTitle_management (k : Nat) (f : Title → Title) (s : State) : (modTitle k f s).management = s.management := rfl
@[simp] theorem modTitle_passDue (k : Nat) (f : Title → Title) (s : State) : (modTitle k f s).passDue = s.passDue := rfl
@[simp] theorem modTitle_freeIx (k : Nat) (f : Title → Title) (s : State) : (modTitle k f s).freeIx = s.freeIx := rfl

/-! ### modCons -/

@[simp] theorem modCons_pending (k : Nat) (f : Consignment → Consignment) (s : State) : (modCons k f s).pending = s.pending := rfl
@[simp] theorem modCons_line (k : Nat) (f : Consignment → Consignment) (s : State) : (modCons k f s).line = s.line := rfl
@[simp] theorem modCons_records (k : Nat) (f : Consignment → Consignment) (s : State) : (modCons k f s).records = s.records := rfl
@[simp] theorem modCons_requests (k : Nat) (f : Consignment → Consignment) (s : State) : (modCons k f s).requests = s.requests := rfl
@[simp] theorem modCons_cons (k : Nat) (f : Consignment → Consignment) (s : State) :
    (modCons k f s).assembly.cons = Table.modify s.assembly.cons k f := rfl
@[simp] theorem modCons_sealedList (k : Nat) (f : Consignment → Consignment) (s : State) : (modCons k f s).assembly.sealedList = s.assembly.sealedList := rfl
@[simp] theorem modCons_picks (k : Nat) (f : Consignment → Consignment) (s : State) : (modCons k f s).assembly.picks = s.assembly.picks := rfl
@[simp] theorem modCons_picksSent (k : Nat) (f : Consignment → Consignment) (s : State) : (modCons k f s).assembly.picksSent = s.assembly.picksSent := rfl
@[simp] theorem modCons_scheduler (k : Nat) (f : Consignment → Consignment) (s : State) : (modCons k f s).scheduler = s.scheduler := rfl
@[simp] theorem modCons_dispatch (k : Nat) (f : Consignment → Consignment) (s : State) : (modCons k f s).dispatch = s.dispatch := rfl
@[simp] theorem modCons_returns (k : Nat) (f : Consignment → Consignment) (s : State) : (modCons k f s).returns = s.returns := rfl
@[simp] theorem modCons_accounts (k : Nat) (f : Consignment → Consignment) (s : State) : (modCons k f s).accounts = s.accounts := rfl
@[simp] theorem modCons_days (k : Nat) (f : Consignment → Consignment) (s : State) : (modCons k f s).days = s.days := rfl
@[simp] theorem modCons_management (k : Nat) (f : Consignment → Consignment) (s : State) : (modCons k f s).management = s.management := rfl
@[simp] theorem modCons_passDue (k : Nat) (f : Consignment → Consignment) (s : State) : (modCons k f s).passDue = s.passDue := rfl
@[simp] theorem modCons_freeIx (k : Nat) (f : Consignment → Consignment) (s : State) : (modCons k f s).freeIx = s.freeIx := rfl

/-! ### modJob -/

@[simp] theorem modJob_pending (k : Nat) (f : Job → Job) (s : State) : (modJob k f s).pending = s.pending := rfl
@[simp] theorem modJob_line (k : Nat) (f : Job → Job) (s : State) : (modJob k f s).line = s.line := rfl
@[simp] theorem modJob_records (k : Nat) (f : Job → Job) (s : State) : (modJob k f s).records = s.records := rfl
@[simp] theorem modJob_requests (k : Nat) (f : Job → Job) (s : State) : (modJob k f s).requests = s.requests := rfl
@[simp] theorem modJob_assembly (k : Nat) (f : Job → Job) (s : State) : (modJob k f s).assembly = s.assembly := rfl
@[simp] theorem modJob_jobs (k : Nat) (f : Job → Job) (s : State) :
    (modJob k f s).scheduler.jobs = Table.modify s.scheduler.jobs k f := rfl
@[simp] theorem modJob_queues (k : Nat) (f : Job → Job) (s : State) : (modJob k f s).scheduler.queues = s.scheduler.queues := rfl
@[simp] theorem modJob_bays (k : Nat) (f : Job → Job) (s : State) : (modJob k f s).scheduler.bays = s.scheduler.bays := rfl
@[simp] theorem modJob_seconds (k : Nat) (f : Job → Job) (s : State) : (modJob k f s).scheduler.seconds = s.scheduler.seconds := rfl
@[simp] theorem modJob_dispatch (k : Nat) (f : Job → Job) (s : State) : (modJob k f s).dispatch = s.dispatch := rfl
@[simp] theorem modJob_returns (k : Nat) (f : Job → Job) (s : State) : (modJob k f s).returns = s.returns := rfl
@[simp] theorem modJob_accounts (k : Nat) (f : Job → Job) (s : State) : (modJob k f s).accounts = s.accounts := rfl
@[simp] theorem modJob_days (k : Nat) (f : Job → Job) (s : State) : (modJob k f s).days = s.days := rfl
@[simp] theorem modJob_management (k : Nat) (f : Job → Job) (s : State) : (modJob k f s).management = s.management := rfl
@[simp] theorem modJob_passDue (k : Nat) (f : Job → Job) (s : State) : (modJob k f s).passDue = s.passDue := rfl
@[simp] theorem modJob_freeIx (k : Nat) (f : Job → Job) (s : State) : (modJob k f s).freeIx = s.freeIx := rfl

/-! ### modBay -/

@[simp] theorem modBay_pending (b : Nat) (f : Bay → Bay) (s : State) : (modBay b f s).pending = s.pending := rfl
@[simp] theorem modBay_line (b : Nat) (f : Bay → Bay) (s : State) : (modBay b f s).line = s.line := rfl
@[simp] theorem modBay_records (b : Nat) (f : Bay → Bay) (s : State) : (modBay b f s).records = s.records := rfl
@[simp] theorem modBay_requests (b : Nat) (f : Bay → Bay) (s : State) : (modBay b f s).requests = s.requests := rfl
@[simp] theorem modBay_assembly (b : Nat) (f : Bay → Bay) (s : State) : (modBay b f s).assembly = s.assembly := rfl
@[simp] theorem modBay_jobs (b : Nat) (f : Bay → Bay) (s : State) : (modBay b f s).scheduler.jobs = s.scheduler.jobs := rfl
@[simp] theorem modBay_queues (b : Nat) (f : Bay → Bay) (s : State) : (modBay b f s).scheduler.queues = s.scheduler.queues := rfl
@[simp] theorem modBay_bays (b : Nat) (f : Bay → Bay) (s : State) :
    (modBay b f s).scheduler.bays = bankModify s.scheduler.bays b f := rfl
@[simp] theorem modBay_seconds (b : Nat) (f : Bay → Bay) (s : State) : (modBay b f s).scheduler.seconds = s.scheduler.seconds := rfl
@[simp] theorem modBay_dispatch (b : Nat) (f : Bay → Bay) (s : State) : (modBay b f s).dispatch = s.dispatch := rfl
@[simp] theorem modBay_returns (b : Nat) (f : Bay → Bay) (s : State) : (modBay b f s).returns = s.returns := rfl
@[simp] theorem modBay_accounts (b : Nat) (f : Bay → Bay) (s : State) : (modBay b f s).accounts = s.accounts := rfl
@[simp] theorem modBay_days (b : Nat) (f : Bay → Bay) (s : State) : (modBay b f s).days = s.days := rfl
@[simp] theorem modBay_management (b : Nat) (f : Bay → Bay) (s : State) : (modBay b f s).management = s.management := rfl
@[simp] theorem modBay_passDue (b : Nat) (f : Bay → Bay) (s : State) : (modBay b f s).passDue = s.passDue := rfl
@[simp] theorem modBay_freeIx (b : Nat) (f : Bay → Bay) (s : State) : (modBay b f s).freeIx = s.freeIx := rfl

/-! ### modQueue -/

@[simp] theorem modQueue_pending (l : Nat) (f : List Nat → List Nat) (s : State) : (modQueue l f s).pending = s.pending := rfl
@[simp] theorem modQueue_line (l : Nat) (f : List Nat → List Nat) (s : State) : (modQueue l f s).line = s.line := rfl
@[simp] theorem modQueue_records (l : Nat) (f : List Nat → List Nat) (s : State) : (modQueue l f s).records = s.records := rfl
@[simp] theorem modQueue_requests (l : Nat) (f : List Nat → List Nat) (s : State) : (modQueue l f s).requests = s.requests := rfl
@[simp] theorem modQueue_assembly (l : Nat) (f : List Nat → List Nat) (s : State) : (modQueue l f s).assembly = s.assembly := rfl
@[simp] theorem modQueue_jobs (l : Nat) (f : List Nat → List Nat) (s : State) : (modQueue l f s).scheduler.jobs = s.scheduler.jobs := rfl
@[simp] theorem modQueue_queues (l : Nat) (f : List Nat → List Nat) (s : State) :
    (modQueue l f s).scheduler.queues = bankModify s.scheduler.queues (l + 1) f := rfl
@[simp] theorem modQueue_bays (l : Nat) (f : List Nat → List Nat) (s : State) : (modQueue l f s).scheduler.bays = s.scheduler.bays := rfl
@[simp] theorem modQueue_seconds (l : Nat) (f : List Nat → List Nat) (s : State) : (modQueue l f s).scheduler.seconds = s.scheduler.seconds := rfl
@[simp] theorem modQueue_dispatch (l : Nat) (f : List Nat → List Nat) (s : State) : (modQueue l f s).dispatch = s.dispatch := rfl
@[simp] theorem modQueue_returns (l : Nat) (f : List Nat → List Nat) (s : State) : (modQueue l f s).returns = s.returns := rfl
@[simp] theorem modQueue_accounts (l : Nat) (f : List Nat → List Nat) (s : State) : (modQueue l f s).accounts = s.accounts := rfl
@[simp] theorem modQueue_days (l : Nat) (f : List Nat → List Nat) (s : State) : (modQueue l f s).days = s.days := rfl
@[simp] theorem modQueue_management (l : Nat) (f : List Nat → List Nat) (s : State) : (modQueue l f s).management = s.management := rfl
@[simp] theorem modQueue_passDue (l : Nat) (f : List Nat → List Nat) (s : State) : (modQueue l f s).passDue = s.passDue := rfl
@[simp] theorem modQueue_freeIx (l : Nat) (f : List Nat → List Nat) (s : State) : (modQueue l f s).freeIx = s.freeIx := rfl

/-! ### modAccount -/

@[simp] theorem modAccount_pending (c : Nat) (f : ClassAccount → ClassAccount) (s : State) : (modAccount c f s).pending = s.pending := rfl
@[simp] theorem modAccount_line (c : Nat) (f : ClassAccount → ClassAccount) (s : State) : (modAccount c f s).line = s.line := rfl
@[simp] theorem modAccount_records (c : Nat) (f : ClassAccount → ClassAccount) (s : State) : (modAccount c f s).records = s.records := rfl
@[simp] theorem modAccount_requests (c : Nat) (f : ClassAccount → ClassAccount) (s : State) : (modAccount c f s).requests = s.requests := rfl
@[simp] theorem modAccount_assembly (c : Nat) (f : ClassAccount → ClassAccount) (s : State) : (modAccount c f s).assembly = s.assembly := rfl
@[simp] theorem modAccount_scheduler (c : Nat) (f : ClassAccount → ClassAccount) (s : State) : (modAccount c f s).scheduler = s.scheduler := rfl
@[simp] theorem modAccount_dispatch (c : Nat) (f : ClassAccount → ClassAccount) (s : State) : (modAccount c f s).dispatch = s.dispatch := rfl
@[simp] theorem modAccount_returns (c : Nat) (f : ClassAccount → ClassAccount) (s : State) : (modAccount c f s).returns = s.returns := rfl
@[simp] theorem modAccount_accounts (c : Nat) (f : ClassAccount → ClassAccount) (s : State) : (modAccount c f s).accounts = bankModify s.accounts c f := rfl
@[simp] theorem modAccount_days (c : Nat) (f : ClassAccount → ClassAccount) (s : State) : (modAccount c f s).days = s.days := rfl
@[simp] theorem modAccount_management (c : Nat) (f : ClassAccount → ClassAccount) (s : State) : (modAccount c f s).management = s.management := rfl
@[simp] theorem modAccount_passDue (c : Nat) (f : ClassAccount → ClassAccount) (s : State) : (modAccount c f s).passDue = s.passDue := rfl
@[simp] theorem modAccount_freeIx (c : Nat) (f : ClassAccount → ClassAccount) (s : State) : (modAccount c f s).freeIx = s.freeIx := rfl

/-! ### latch -/

@[simp] theorem latch_pending (n : NoticeId) (x : Nat) (s : State) : (latch n x s).pending = s.pending := rfl
@[simp] theorem latch_line (n : NoticeId) (x : Nat) (s : State) : (latch n x s).line = s.line := rfl
@[simp] theorem latch_records (n : NoticeId) (x : Nat) (s : State) : (latch n x s).records = s.records := rfl
@[simp] theorem latch_requests (n : NoticeId) (x : Nat) (s : State) : (latch n x s).requests = s.requests := rfl
@[simp] theorem latch_assembly (n : NoticeId) (x : Nat) (s : State) : (latch n x s).assembly = s.assembly := rfl
@[simp] theorem latch_scheduler (n : NoticeId) (x : Nat) (s : State) : (latch n x s).scheduler = s.scheduler := rfl
@[simp] theorem latch_dispatch (n : NoticeId) (x : Nat) (s : State) : (latch n x s).dispatch = s.dispatch := rfl
@[simp] theorem latch_returns (n : NoticeId) (x : Nat) (s : State) : (latch n x s).returns = s.returns := rfl
@[simp] theorem latch_accounts (n : NoticeId) (x : Nat) (s : State) : (latch n x s).accounts = s.accounts := rfl
@[simp] theorem latch_days (n : NoticeId) (x : Nat) (s : State) : (latch n x s).days = s.days := rfl
@[simp] theorem latch_mode (n : NoticeId) (x : Nat) (s : State) : (latch n x s).management.mode = s.management.mode := rfl
@[simp] theorem latch_geometry (n : NoticeId) (x : Nat) (s : State) : (latch n x s).management.geometry = s.management.geometry := rfl
@[simp] theorem latch_capacity (n : NoticeId) (x : Nat) (s : State) : (latch n x s).management.capacity = s.management.capacity := rfl
@[simp] theorem latch_settings (n : NoticeId) (x : Nat) (s : State) : (latch n x s).management.settings = s.management.settings := rfl
@[simp] theorem latch_notices (n : NoticeId) (x : Nat) (s : State) :
    (latch n x s).management.notices = bankModify s.management.notices (noticeNumber n) (NoticeCell.latched x) := rfl
@[simp] theorem latch_mask (n : NoticeId) (x : Nat) (s : State) : (latch n x s).management.mask = s.management.mask := rfl
@[simp] theorem latch_passDue (n : NoticeId) (x : Nat) (s : State) : (latch n x s).passDue = s.passDue := rfl
@[simp] theorem latch_freeIx (n : NoticeId) (x : Nat) (s : State) : (latch n x s).freeIx = s.freeIx := rfl

/-! ### toFloor -/

@[simp] theorem toFloor_pending (f : Frame) (s : State) : (toFloor f s).pending = s.pending := rfl
@[simp] theorem toFloor_officeIn (f : Frame) (s : State) : (toFloor f s).line.officeIn = s.line.officeIn := rfl
@[simp] theorem toFloor_officeLost (f : Frame) (s : State) : (toFloor f s).line.officeLost = s.line.officeLost := rfl
@[simp] theorem toFloor_officeRx (f : Frame) (s : State) : (toFloor f s).line.officeRx = s.line.officeRx := rfl
@[simp] theorem toFloor_answering (f : Frame) (s : State) : (toFloor f s).line.answering = s.line.answering := rfl
@[simp] theorem toFloor_replySlot (f : Frame) (s : State) : (toFloor f s).line.replySlot = s.line.replySlot := rfl
@[simp] theorem toFloor_forward (f : Frame) (s : State) : (toFloor f s).line.forward = s.line.forward := rfl
@[simp] theorem toFloor_officeSending (f : Frame) (s : State) : (toFloor f s).line.officeSending = s.line.officeSending := rfl
@[simp] theorem toFloor_floorTx (f : Frame) (s : State) :
    (toFloor f s).line.floorTx = s.line.floorTx ++ [f] := rfl
@[simp] theorem toFloor_contended (f : Frame) (s : State) : (toFloor f s).line.contended = stillContended s := rfl
@[simp] theorem toFloor_floorSending (f : Frame) (s : State) : (toFloor f s).line.floorSending = s.line.floorSending := rfl
@[simp] theorem toFloor_turn (f : Frame) (s : State) : (toFloor f s).line.turn = s.line.turn := rfl
@[simp] theorem toFloor_floorIn (f : Frame) (s : State) : (toFloor f s).line.floorIn = s.line.floorIn := rfl
@[simp] theorem toFloor_carried (f : Frame) (s : State) : (toFloor f s).line.carried = s.line.carried := rfl
@[simp] theorem toFloor_early (f : Frame) (s : State) : (toFloor f s).line.early = s.line.early := rfl
@[simp] theorem toFloor_pollSet (f : Frame) (s : State) : (toFloor f s).line.pollSet = s.line.pollSet := rfl
@[simp] theorem toFloor_pollPos (f : Frame) (s : State) : (toFloor f s).line.pollPos = s.line.pollPos := rfl
@[simp] theorem toFloor_officeFaults (f : Frame) (s : State) : (toFloor f s).line.officeFaults = s.line.officeFaults := rfl
@[simp] theorem toFloor_floorFaults (f : Frame) (s : State) : (toFloor f s).line.floorFaults = s.line.floorFaults := rfl
@[simp] theorem toFloor_missed (f : Frame) (s : State) : (toFloor f s).line.missed = s.line.missed := rfl
@[simp] theorem toFloor_officeRate (f : Frame) (s : State) : (toFloor f s).line.officeRate = s.line.officeRate := rfl
@[simp] theorem toFloor_floorRate (f : Frame) (s : State) : (toFloor f s).line.floorRate = s.line.floorRate := rfl
@[simp] theorem toFloor_ratesNext (f : Frame) (s : State) : (toFloor f s).line.ratesNext = s.line.ratesNext := rfl
@[simp] theorem toFloor_floorNext (f : Frame) (s : State) : (toFloor f s).line.floorNext = s.line.floorNext := rfl
@[simp] theorem toFloor_records (f : Frame) (s : State) : (toFloor f s).records = s.records := rfl
@[simp] theorem toFloor_requests (f : Frame) (s : State) : (toFloor f s).requests = s.requests := rfl
@[simp] theorem toFloor_assembly (f : Frame) (s : State) : (toFloor f s).assembly = s.assembly := rfl
@[simp] theorem toFloor_scheduler (f : Frame) (s : State) : (toFloor f s).scheduler = s.scheduler := rfl
@[simp] theorem toFloor_dispatch (f : Frame) (s : State) : (toFloor f s).dispatch = s.dispatch := rfl
@[simp] theorem toFloor_returns (f : Frame) (s : State) : (toFloor f s).returns = s.returns := rfl
@[simp] theorem toFloor_accounts (f : Frame) (s : State) : (toFloor f s).accounts = s.accounts := rfl
@[simp] theorem toFloor_days (f : Frame) (s : State) : (toFloor f s).days = s.days := rfl
@[simp] theorem toFloor_management (f : Frame) (s : State) : (toFloor f s).management = s.management := rfl
@[simp] theorem toFloor_passDue (f : Frame) (s : State) : (toFloor f s).passDue = s.passDue := rfl
@[simp] theorem toFloor_freeIx (f : Frame) (s : State) : (toFloor f s).freeIx = s.freeIx := rfl

theorem floorRoom_iff (ahead : Nat) (s : State) :
    floorRoom ahead s = true ↔ s.line.floorTx.length < 32 ∧ (s.line.contended = false ∨ ahead = 0) := decide_eq_true_iff

/-- With room in a queue whose places are not contended, the frames ahead are no matter (R108). -/
theorem floorRoom_of_free (ahead : Nat) {s : State} (h : s.line.floorTx.length < 32) (hc : s.line.contended = false) :
    floorRoom ahead s = true :=
  (floorRoom_iff ahead s).mpr ⟨h, .inl hc⟩

@[simp] theorem stillContended_of_free {s : State} (h : s.line.contended = false) : stillContended s = false := by
  simp [stillContended, h]

@[simp] theorem leaveFloor_records (rest : List Frame) (s : State) : (leaveFloor rest s).records = s.records := rfl
@[simp] theorem leaveFloor_requests (rest : List Frame) (s : State) : (leaveFloor rest s).requests = s.requests := rfl
@[simp] theorem leaveFloor_assembly (rest : List Frame) (s : State) : (leaveFloor rest s).assembly = s.assembly := rfl
@[simp] theorem leaveFloor_scheduler (rest : List Frame) (s : State) : (leaveFloor rest s).scheduler = s.scheduler := rfl
@[simp] theorem leaveFloor_dispatch (rest : List Frame) (s : State) : (leaveFloor rest s).dispatch = s.dispatch := rfl
@[simp] theorem leaveFloor_returns (rest : List Frame) (s : State) : (leaveFloor rest s).returns = s.returns := rfl
@[simp] theorem leaveFloor_accounts (rest : List Frame) (s : State) : (leaveFloor rest s).accounts = s.accounts := rfl
@[simp] theorem leaveFloor_days (rest : List Frame) (s : State) : (leaveFloor rest s).days = s.days := rfl
@[simp] theorem leaveFloor_management (rest : List Frame) (s : State) : (leaveFloor rest s).management = s.management := rfl
@[simp] theorem leaveFloor_pending (rest : List Frame) (s : State) : (leaveFloor rest s).pending = s.pending := rfl
@[simp] theorem leaveFloor_passDue (rest : List Frame) (s : State) : (leaveFloor rest s).passDue = s.passDue := rfl
@[simp] theorem leaveFloor_floorTx (rest : List Frame) (s : State) : (leaveFloor rest s).line.floorTx = rest := rfl
@[simp] theorem leaveFloor_officeIn (rest : List Frame) (s : State) : (leaveFloor rest s).line.officeIn = s.line.officeIn := rfl
@[simp] theorem leaveFloor_officeRx (rest : List Frame) (s : State) : (leaveFloor rest s).line.officeRx = s.line.officeRx := rfl
@[simp] theorem leaveFloor_answering (rest : List Frame) (s : State) : (leaveFloor rest s).line.answering = s.line.answering := rfl
@[simp] theorem leaveFloor_replySlot (rest : List Frame) (s : State) : (leaveFloor rest s).line.replySlot = s.line.replySlot := rfl
@[simp] theorem leaveFloor_forward (rest : List Frame) (s : State) : (leaveFloor rest s).line.forward = s.line.forward := rfl
@[simp] theorem leaveFloor_floorSending (rest : List Frame) (s : State) : (leaveFloor rest s).line.floorSending = s.line.floorSending := rfl
@[simp] theorem leaveFloor_turn (rest : List Frame) (s : State) : (leaveFloor rest s).line.turn = s.line.turn := rfl
@[simp] theorem leaveFloor_floorIn (rest : List Frame) (s : State) : (leaveFloor rest s).line.floorIn = s.line.floorIn := rfl
@[simp] theorem leaveFloor_missed (rest : List Frame) (s : State) : (leaveFloor rest s).line.missed = s.line.missed := rfl

/-! ### owePass -/

@[simp] theorem owePass_pending (s : State) : (owePass s).pending = s.pending := rfl
@[simp] theorem owePass_line (s : State) : (owePass s).line = s.line := rfl
@[simp] theorem owePass_records (s : State) : (owePass s).records = s.records := rfl
@[simp] theorem owePass_requests (s : State) : (owePass s).requests = s.requests := rfl
@[simp] theorem owePass_assembly (s : State) : (owePass s).assembly = s.assembly := rfl
@[simp] theorem owePass_scheduler (s : State) : (owePass s).scheduler = s.scheduler := rfl
@[simp] theorem owePass_dispatch (s : State) : (owePass s).dispatch = s.dispatch := rfl
@[simp] theorem owePass_returns (s : State) : (owePass s).returns = s.returns := rfl
@[simp] theorem owePass_accounts (s : State) : (owePass s).accounts = s.accounts := rfl
@[simp] theorem owePass_days (s : State) : (owePass s).days = s.days := rfl
@[simp] theorem owePass_management (s : State) : (owePass s).management = s.management := rfl
@[simp] theorem owePass_passDue (s : State) : (owePass s).passDue = true := rfl
@[simp] theorem owePass_freeIx (s : State) : (owePass s).freeIx = s.freeIx := rfl

/-! ### pendPick -/

@[simp] theorem pendPick_pending (k : Nat) (s : State) : (pendPick k s).pending = s.pending := rfl
@[simp] theorem pendPick_line (k : Nat) (s : State) : (pendPick k s).line = s.line := rfl
@[simp] theorem pendPick_records (k : Nat) (s : State) : (pendPick k s).records = s.records := rfl
@[simp] theorem pendPick_requests (k : Nat) (s : State) : (pendPick k s).requests = s.requests := rfl
@[simp] theorem pendPick_cons (k : Nat) (s : State) : (pendPick k s).assembly.cons = s.assembly.cons := rfl
@[simp] theorem pendPick_sealedList (k : Nat) (s : State) : (pendPick k s).assembly.sealedList = s.assembly.sealedList := rfl
@[simp] theorem pendPick_picks (k : Nat) (s : State) :
    (pendPick k s).assembly.picks = s.assembly.picks ++ [k] := rfl
@[simp] theorem pendPick_picksSent (k : Nat) (s : State) : (pendPick k s).assembly.picksSent = s.assembly.picksSent := rfl
@[simp] theorem pendPick_scheduler (k : Nat) (s : State) : (pendPick k s).scheduler = s.scheduler := rfl
@[simp] theorem pendPick_dispatch (k : Nat) (s : State) : (pendPick k s).dispatch = s.dispatch := rfl
@[simp] theorem pendPick_returns (k : Nat) (s : State) : (pendPick k s).returns = s.returns := rfl
@[simp] theorem pendPick_accounts (k : Nat) (s : State) : (pendPick k s).accounts = s.accounts := rfl
@[simp] theorem pendPick_days (k : Nat) (s : State) : (pendPick k s).days = s.days := rfl
@[simp] theorem pendPick_management (k : Nat) (s : State) : (pendPick k s).management = s.management := rfl
@[simp] theorem pendPick_passDue (k : Nat) (s : State) : (pendPick k s).passDue = s.passDue := rfl
@[simp] theorem pendPick_freeIx (k : Nat) (s : State) : (pendPick k s).freeIx = s.freeIx := rfl

/-! ### placeReply -/

@[simp] theorem placeReply_pending (f : Frame) (c : Code) (bs : List Byte) (s : State) : (placeReply f c bs s).pending = s.pending := rfl
@[simp] theorem placeReply_officeIn (f : Frame) (c : Code) (bs : List Byte) (s : State) : (placeReply f c bs s).line.officeIn = s.line.officeIn := rfl
@[simp] theorem placeReply_officeLost (f : Frame) (c : Code) (bs : List Byte) (s : State) : (placeReply f c bs s).line.officeLost = s.line.officeLost := rfl
@[simp] theorem placeReply_officeRx (f : Frame) (c : Code) (bs : List Byte) (s : State) : (placeReply f c bs s).line.officeRx = s.line.officeRx := rfl
@[simp] theorem placeReply_answering (f : Frame) (c : Code) (bs : List Byte) (s : State) : (placeReply f c bs s).line.answering = s.line.answering := rfl
@[simp] theorem placeReply_replySlot (f : Frame) (c : Code) (bs : List Byte) (s : State) :
    (placeReply f c bs s).line.replySlot = some (replyFrame f.src f.kind c bs) := rfl
@[simp] theorem placeReply_forward (f : Frame) (c : Code) (bs : List Byte) (s : State) : (placeReply f c bs s).line.forward = s.line.forward := rfl
@[simp] theorem placeReply_officeSending (f : Frame) (c : Code) (bs : List Byte) (s : State) : (placeReply f c bs s).line.officeSending = s.line.officeSending := rfl
@[simp] theorem placeReply_floorTx (f : Frame) (c : Code) (bs : List Byte) (s : State) : (placeReply f c bs s).line.floorTx = s.line.floorTx := rfl
@[simp] theorem placeReply_contended (f : Frame) (c : Code) (bs : List Byte) (s : State) : (placeReply f c bs s).line.contended = s.line.contended := rfl
@[simp] theorem placeReply_floorSending (f : Frame) (c : Code) (bs : List Byte) (s : State) : (placeReply f c bs s).line.floorSending = s.line.floorSending := rfl
@[simp] theorem placeReply_turn (f : Frame) (c : Code) (bs : List Byte) (s : State) : (placeReply f c bs s).line.turn = s.line.turn := rfl
@[simp] theorem placeReply_floorIn (f : Frame) (c : Code) (bs : List Byte) (s : State) : (placeReply f c bs s).line.floorIn = s.line.floorIn := rfl
@[simp] theorem placeReply_carried (f : Frame) (c : Code) (bs : List Byte) (s : State) : (placeReply f c bs s).line.carried = s.line.carried := rfl
@[simp] theorem placeReply_early (f : Frame) (c : Code) (bs : List Byte) (s : State) : (placeReply f c bs s).line.early = s.line.early := rfl
@[simp] theorem placeReply_pollSet (f : Frame) (c : Code) (bs : List Byte) (s : State) : (placeReply f c bs s).line.pollSet = s.line.pollSet := rfl
@[simp] theorem placeReply_pollPos (f : Frame) (c : Code) (bs : List Byte) (s : State) : (placeReply f c bs s).line.pollPos = s.line.pollPos := rfl
@[simp] theorem placeReply_officeFaults (f : Frame) (c : Code) (bs : List Byte) (s : State) : (placeReply f c bs s).line.officeFaults = s.line.officeFaults := rfl
@[simp] theorem placeReply_floorFaults (f : Frame) (c : Code) (bs : List Byte) (s : State) : (placeReply f c bs s).line.floorFaults = s.line.floorFaults := rfl
@[simp] theorem placeReply_missed (f : Frame) (c : Code) (bs : List Byte) (s : State) : (placeReply f c bs s).line.missed = s.line.missed := rfl
@[simp] theorem placeReply_officeRate (f : Frame) (c : Code) (bs : List Byte) (s : State) : (placeReply f c bs s).line.officeRate = s.line.officeRate := rfl
@[simp] theorem placeReply_floorRate (f : Frame) (c : Code) (bs : List Byte) (s : State) : (placeReply f c bs s).line.floorRate = s.line.floorRate := rfl
@[simp] theorem placeReply_ratesNext (f : Frame) (c : Code) (bs : List Byte) (s : State) : (placeReply f c bs s).line.ratesNext = s.line.ratesNext := rfl
@[simp] theorem placeReply_floorNext (f : Frame) (c : Code) (bs : List Byte) (s : State) : (placeReply f c bs s).line.floorNext = s.line.floorNext := rfl
@[simp] theorem placeReply_records (f : Frame) (c : Code) (bs : List Byte) (s : State) : (placeReply f c bs s).records = s.records := rfl
@[simp] theorem placeReply_requests (f : Frame) (c : Code) (bs : List Byte) (s : State) : (placeReply f c bs s).requests = s.requests := rfl
@[simp] theorem placeReply_assembly (f : Frame) (c : Code) (bs : List Byte) (s : State) : (placeReply f c bs s).assembly = s.assembly := rfl
@[simp] theorem placeReply_scheduler (f : Frame) (c : Code) (bs : List Byte) (s : State) : (placeReply f c bs s).scheduler = s.scheduler := rfl
@[simp] theorem placeReply_dispatch (f : Frame) (c : Code) (bs : List Byte) (s : State) : (placeReply f c bs s).dispatch = s.dispatch := rfl
@[simp] theorem placeReply_returns (f : Frame) (c : Code) (bs : List Byte) (s : State) : (placeReply f c bs s).returns = s.returns := rfl
@[simp] theorem placeReply_accounts (f : Frame) (c : Code) (bs : List Byte) (s : State) : (placeReply f c bs s).accounts = s.accounts := rfl
@[simp] theorem placeReply_days (f : Frame) (c : Code) (bs : List Byte) (s : State) : (placeReply f c bs s).days = s.days := rfl
@[simp] theorem placeReply_management (f : Frame) (c : Code) (bs : List Byte) (s : State) : (placeReply f c bs s).management = s.management := rfl
@[simp] theorem placeReply_passDue (f : Frame) (c : Code) (bs : List Byte) (s : State) : (placeReply f c bs s).passDue = s.passDue := rfl
@[simp] theorem placeReply_freeIx (f : Frame) (c : Code) (bs : List Byte) (s : State) : (placeReply f c bs s).freeIx = s.freeIx := rfl

/-! ### replyTo -/

@[simp] theorem replyTo_pending (f : Frame) (c : Code) (bs : List Byte) (s : State) : (replyTo f c bs s).pending = s.pending := rfl
@[simp] theorem replyTo_officeIn (f : Frame) (c : Code) (bs : List Byte) (s : State) : (replyTo f c bs s).line.officeIn = s.line.officeIn := rfl
@[simp] theorem replyTo_officeLost (f : Frame) (c : Code) (bs : List Byte) (s : State) : (replyTo f c bs s).line.officeLost = s.line.officeLost := rfl
@[simp] theorem replyTo_officeRx (f : Frame) (c : Code) (bs : List Byte) (s : State) : (replyTo f c bs s).line.officeRx = s.line.officeRx := rfl
@[simp] theorem replyTo_answering (f : Frame) (c : Code) (bs : List Byte) (s : State) : (replyTo f c bs s).line.answering = false := rfl
@[simp] theorem replyTo_replySlot (f : Frame) (c : Code) (bs : List Byte) (s : State) :
    (replyTo f c bs s).line.replySlot = some (replyFrame f.src f.kind c bs) := rfl
@[simp] theorem replyTo_forward (f : Frame) (c : Code) (bs : List Byte) (s : State) : (replyTo f c bs s).line.forward = s.line.forward := rfl
@[simp] theorem replyTo_officeSending (f : Frame) (c : Code) (bs : List Byte) (s : State) : (replyTo f c bs s).line.officeSending = s.line.officeSending := rfl
@[simp] theorem replyTo_floorTx (f : Frame) (c : Code) (bs : List Byte) (s : State) : (replyTo f c bs s).line.floorTx = s.line.floorTx := rfl
@[simp] theorem replyTo_contended (f : Frame) (c : Code) (bs : List Byte) (s : State) : (replyTo f c bs s).line.contended = s.line.contended := rfl
@[simp] theorem replyTo_floorSending (f : Frame) (c : Code) (bs : List Byte) (s : State) : (replyTo f c bs s).line.floorSending = s.line.floorSending := rfl
@[simp] theorem replyTo_turn (f : Frame) (c : Code) (bs : List Byte) (s : State) : (replyTo f c bs s).line.turn = s.line.turn := rfl
@[simp] theorem replyTo_floorIn (f : Frame) (c : Code) (bs : List Byte) (s : State) : (replyTo f c bs s).line.floorIn = s.line.floorIn := rfl
@[simp] theorem replyTo_carried (f : Frame) (c : Code) (bs : List Byte) (s : State) : (replyTo f c bs s).line.carried = s.line.carried := rfl
@[simp] theorem replyTo_early (f : Frame) (c : Code) (bs : List Byte) (s : State) : (replyTo f c bs s).line.early = s.line.early := rfl
@[simp] theorem replyTo_pollSet (f : Frame) (c : Code) (bs : List Byte) (s : State) : (replyTo f c bs s).line.pollSet = s.line.pollSet := rfl
@[simp] theorem replyTo_pollPos (f : Frame) (c : Code) (bs : List Byte) (s : State) : (replyTo f c bs s).line.pollPos = s.line.pollPos := rfl
@[simp] theorem replyTo_officeFaults (f : Frame) (c : Code) (bs : List Byte) (s : State) : (replyTo f c bs s).line.officeFaults = s.line.officeFaults := rfl
@[simp] theorem replyTo_floorFaults (f : Frame) (c : Code) (bs : List Byte) (s : State) : (replyTo f c bs s).line.floorFaults = s.line.floorFaults := rfl
@[simp] theorem replyTo_missed (f : Frame) (c : Code) (bs : List Byte) (s : State) : (replyTo f c bs s).line.missed = s.line.missed := rfl
@[simp] theorem replyTo_officeRate (f : Frame) (c : Code) (bs : List Byte) (s : State) : (replyTo f c bs s).line.officeRate = s.line.officeRate := rfl
@[simp] theorem replyTo_floorRate (f : Frame) (c : Code) (bs : List Byte) (s : State) : (replyTo f c bs s).line.floorRate = s.line.floorRate := rfl
@[simp] theorem replyTo_ratesNext (f : Frame) (c : Code) (bs : List Byte) (s : State) : (replyTo f c bs s).line.ratesNext = s.line.ratesNext := rfl
@[simp] theorem replyTo_floorNext (f : Frame) (c : Code) (bs : List Byte) (s : State) : (replyTo f c bs s).line.floorNext = s.line.floorNext := rfl
@[simp] theorem replyTo_records (f : Frame) (c : Code) (bs : List Byte) (s : State) : (replyTo f c bs s).records = s.records := rfl
@[simp] theorem replyTo_requests (f : Frame) (c : Code) (bs : List Byte) (s : State) : (replyTo f c bs s).requests = s.requests := rfl
@[simp] theorem replyTo_assembly (f : Frame) (c : Code) (bs : List Byte) (s : State) : (replyTo f c bs s).assembly = s.assembly := rfl
@[simp] theorem replyTo_scheduler (f : Frame) (c : Code) (bs : List Byte) (s : State) : (replyTo f c bs s).scheduler = s.scheduler := rfl
@[simp] theorem replyTo_dispatch (f : Frame) (c : Code) (bs : List Byte) (s : State) : (replyTo f c bs s).dispatch = s.dispatch := rfl
@[simp] theorem replyTo_returns (f : Frame) (c : Code) (bs : List Byte) (s : State) : (replyTo f c bs s).returns = s.returns := rfl
@[simp] theorem replyTo_accounts (f : Frame) (c : Code) (bs : List Byte) (s : State) : (replyTo f c bs s).accounts = s.accounts := rfl
@[simp] theorem replyTo_days (f : Frame) (c : Code) (bs : List Byte) (s : State) : (replyTo f c bs s).days = s.days := rfl
@[simp] theorem replyTo_management (f : Frame) (c : Code) (bs : List Byte) (s : State) : (replyTo f c bs s).management = s.management := rfl
@[simp] theorem replyTo_passDue (f : Frame) (c : Code) (bs : List Byte) (s : State) : (replyTo f c bs s).passDue = s.passDue := rfl
@[simp] theorem replyTo_freeIx (f : Frame) (c : Code) (bs : List Byte) (s : State) : (replyTo f c bs s).freeIx = s.freeIx := rfl

/-! ### modSettings -/

@[simp] theorem modSettings_pending (f : Settings → Settings) (s : State) : (modSettings f s).pending = s.pending := rfl
@[simp] theorem modSettings_line (f : Settings → Settings) (s : State) : (modSettings f s).line = s.line := rfl
@[simp] theorem modSettings_records (f : Settings → Settings) (s : State) : (modSettings f s).records = s.records := rfl
@[simp] theorem modSettings_requests (f : Settings → Settings) (s : State) : (modSettings f s).requests = s.requests := rfl
@[simp] theorem modSettings_assembly (f : Settings → Settings) (s : State) : (modSettings f s).assembly = s.assembly := rfl
@[simp] theorem modSettings_scheduler (f : Settings → Settings) (s : State) : (modSettings f s).scheduler = s.scheduler := rfl
@[simp] theorem modSettings_dispatch (f : Settings → Settings) (s : State) : (modSettings f s).dispatch = s.dispatch := rfl
@[simp] theorem modSettings_returns (f : Settings → Settings) (s : State) : (modSettings f s).returns = s.returns := rfl
@[simp] theorem modSettings_accounts (f : Settings → Settings) (s : State) : (modSettings f s).accounts = s.accounts := rfl
@[simp] theorem modSettings_days (f : Settings → Settings) (s : State) : (modSettings f s).days = s.days := rfl
@[simp] theorem modSettings_mode (f : Settings → Settings) (s : State) : (modSettings f s).management.mode = s.management.mode := rfl
@[simp] theorem modSettings_geometry (f : Settings → Settings) (s : State) : (modSettings f s).management.geometry = s.management.geometry := rfl
@[simp] theorem modSettings_capacity (f : Settings → Settings) (s : State) : (modSettings f s).management.capacity = s.management.capacity := rfl
@[simp] theorem modSettings_settings (f : Settings → Settings) (s : State) :
    (modSettings f s).management.settings = f s.management.settings := rfl
@[simp] theorem modSettings_notices (f : Settings → Settings) (s : State) : (modSettings f s).management.notices = s.management.notices := rfl
@[simp] theorem modSettings_mask (f : Settings → Settings) (s : State) : (modSettings f s).management.mask = s.management.mask := rfl
@[simp] theorem modSettings_passDue (f : Settings → Settings) (s : State) : (modSettings f s).passDue = s.passDue := rfl
@[simp] theorem modSettings_freeIx (f : Settings → Settings) (s : State) : (modSettings f s).freeIx = s.freeIx := rfl

end Sys2Proof.Machine
end

