-- ==== Sys2Proof/Laws/Tables.lean ====
section
/-! SUPPORT. Tables and banks: reading after writing, and that every table operation keeps the canonical form. -/

namespace Sys2Proof.Machine

variable {α : Type}

/-! ## Reading after writing -/

@[simp] theorem Table.get_nil (k : Nat) : Table.get ([] : Table α) k = none := rfl

theorem Table.get_cons (e : Nat × α) (t : Table α) (k : Nat) :
    Table.get (e :: t) k = if e.1 = k then some e.2 else Table.get t k := rfl

theorem Table.get_put_same (t : Table α) (k : Nat) (a : α) : Table.get (Table.put t k a) k = some a := by
  induction t with
  | nil => simp [Table.put, Table.get]
  | cons e t ih =>
    obtain ⟨j, b⟩ := e
    simp only [Table.put]
    split_ifs with h1 h2
    · simp [Table.get]
    · simp [Table.get]
    · have h3 : ¬ j = k := fun h => h2 h.symm
      simp [Table.get, h3, ih]

theorem Table.get_put_other (t : Table α) {k j : Nat} (a : α) (h : j ≠ k) :
    Table.get (Table.put t k a) j = Table.get t j := by
  have hk : ¬ k = j := fun e => h e.symm
  induction t with
  | nil => simp [Table.put, Table.get, hk]
  | cons e t ih =>
    obtain ⟨i, b⟩ := e
    simp only [Table.put]
    split_ifs with h1 h2
    · simp [Table.get, hk]
    · subst h2; simp [Table.get, hk]
    · simp [Table.get, ih]

theorem Table.get_modify_same (t : Table α) (k : Nat) (f : α → α) :
    Table.get (Table.modify t k f) k = (Table.get t k).map f := by
  induction t with
  | nil => rfl
  | cons e t ih =>
    obtain ⟨i, b⟩ := e
    by_cases h : i = k
    · simp [Table.modify, Table.get, h]
    · simp only [Table.modify, List.map_cons, h, if_false, Table.get]
      exact ih

theorem Table.get_modify_other (t : Table α) {k j : Nat} (f : α → α) (h : j ≠ k) :
    Table.get (Table.modify t k f) j = Table.get t j := by
  induction t with
  | nil => rfl
  | cons e t ih =>
    obtain ⟨i, b⟩ := e
    simp only [Table.modify, List.map_cons] at ih ⊢
    by_cases h1 : i = k
    · have h2 : ¬ i = j := fun h2 => h (h2.symm.trans h1)
      simp [Table.get_cons, h1, ih, h1 ▸ h2]
    · simp [Table.get_cons, h1, ih]

theorem Table.get_delete_same (t : Table α) (k : Nat) : Table.get (Table.delete t k) k = none := by
  induction t with
  | nil => rfl
  | cons e t ih =>
    obtain ⟨i, b⟩ := e
    by_cases h : i = k
    · simp only [Table.delete, List.filter, h, bne_self_eq_false] at ih ⊢; exact ih
    · have : (i != k) = true := by simp [h]
      simp only [Table.delete, List.filter, this] at ih ⊢
      simp [Table.get_cons, h, ih]

theorem Table.get_delete_other (t : Table α) {k j : Nat} (h : j ≠ k) :
    Table.get (Table.delete t k) j = Table.get t j := by
  induction t with
  | nil => rfl
  | cons e t ih =>
    obtain ⟨i, b⟩ := e
    by_cases h1 : i = k
    · have h2 : ¬ i = j := fun h2 => h (h2.symm.trans h1)
      simp only [Table.delete, List.filter, h1, bne_self_eq_false] at ih ⊢
      simp [Table.get_cons, h1 ▸ h2, ih]
    · have : (i != k) = true := by simp [h1]
      simp only [Table.delete, List.filter, this] at ih ⊢
      simp [Table.get_cons, ih]

/-! ## Canonical form -/

@[simp] theorem Table.modify_keys (t : Table α) (k : Nat) (f : α → α) :
    (Table.modify t k f).map Prod.fst = t.map Prod.fst := by
  simp only [Table.modify, List.map_map]
  apply List.map_congr_left
  intro e _
  simp only [Function.comp]
  split_ifs <;> rfl

theorem Table.wf_modify (t : Table α) (k : Nat) (f : α → α) (h : Table.wf t) : Table.wf (Table.modify t k f) := by
  simpa [Table.wf] using h

theorem Table.wf_delete (t : Table α) (k : Nat) (h : Table.wf t) : Table.wf (Table.delete t k) :=
  List.Pairwise.sublist (List.Sublist.map _ (List.filter_sublist)) h

theorem Table.put_keys_above (t : Table α) (k m : Nat) (a : α) (hm : m < k) (h : ∀ j ∈ t.map Prod.fst, m < j) :
    ∀ j ∈ (Table.put t k a).map Prod.fst, m < j := by
  induction t with
  | nil => simp [Table.put, hm]
  | cons e t ih =>
    obtain ⟨i, b⟩ := e
    simp only [List.map_cons, List.mem_cons, forall_eq_or_imp] at h
    simp only [Table.put]
    split_ifs with h1 h2
    · simp only [List.map_cons, List.mem_cons, forall_eq_or_imp]; exact ⟨hm, h.1, h.2⟩
    · simp only [List.map_cons, List.mem_cons, forall_eq_or_imp]; exact ⟨hm, h.2⟩
    · simp only [List.map_cons, List.mem_cons, forall_eq_or_imp]; exact ⟨h.1, ih h.2⟩

theorem Table.wf_put (t : Table α) (k : Nat) (a : α) (h : Table.wf t) : Table.wf (Table.put t k a) := by
  induction t with
  | nil => simp [Table.put, Table.wf]
  | cons e t ih =>
    obtain ⟨i, b⟩ := e
    simp only [Table.wf, List.map_cons, List.pairwise_cons] at h ih ⊢
    simp only [Table.put]
    split_ifs with h1 h2
    · simp only [List.map_cons, List.pairwise_cons, List.mem_cons, forall_eq_or_imp]
      exact ⟨⟨h1, fun j hj => lt_trans h1 (h.1 j hj)⟩, h.1, h.2⟩
    · subst h2; simp only [List.map_cons, List.pairwise_cons]; exact h
    · simp only [List.map_cons, List.pairwise_cons]
      exact ⟨Table.put_keys_above t k i a (by omega) h.1, ih h.2⟩

/-- The lowest FREE record of a pool lies in the pool. -/
theorem Table.lowestFree_le {t : Table α} {n k : Nat} (h : Table.lowestFree t n = some k) : k ≤ n := by
  simp only [Table.lowestFree] at h
  split_ifs at h with h1
  cases h; exact h1

/-! ## Banks -/

theorem bankGet_modify_same {n : Nat} (v : Vector α n) (k : Nat) (f : α → α) (d : α) (hk : 1 ≤ k ∧ k ≤ n) :
    bankGet (bankModify v k f) k d = f (bankGet v k d) := by
  have h0 : k ≠ 0 := by omega
  have h1 : k - 1 < n := by omega
  simp [bankGet, bankModify, hk, h0, h1]

theorem bankGet_modify_other {n : Nat} (v : Vector α n) {k j : Nat} (f : α → α) (d : α) (h : j ≠ k) :
    bankGet (bankModify v k f) j d = bankGet v j d := by
  by_cases hj : j = 0
  · simp [bankGet, hj]
  · simp only [bankGet, hj, if_false, bankModify]
    split_ifs with hk
    · rw [Vector.getElem?_set_ne]
      omega
    · rfl

/-- Outside its numbering a bank reads its default. -/
theorem bankGet_outside {n : Nat} (v : Vector α n) (k : Nat) (d : α) (h : k = 0 ∨ n < k) : bankGet v k d = d := by
  rcases h with h | h
  · simp [bankGet, h]
  · simp only [bankGet]
    split_ifs
    · rfl
    · rw [Vector.getElem?_eq_none (by omega)]; rfl

end Sys2Proof.Machine
end

