-- ==== Sys2Proof/Laws/Accounts.lean ====
section
/-! SUPPORT. Every movement of cartridges keeps a class account balanced (R148). -/

namespace Sys2Proof.Machine

theorem ClassAccount.move_balanced {a : ClassAccount} {src dst : Place} {n : Nat} (h : a.balanced)
    (hb : src = .repair → n ≤ a.repair - a.bound) : (ClassAccount.move src dst n a).balanced := by
  obtain ⟨h1, h2⟩ := h
  unfold ClassAccount.move
  split_ifs with hn
  · cases src <;> cases dst <;>
      simp only [ClassAccount.count, ClassAccount.setCount, ClassAccount.balanced, forall_const, reduceCtorEq,
        IsEmpty.forall_iff] at * <;> omega
  · exact ⟨h1, h2⟩

theorem ClassAccount.writeOff_balanced {a : ClassAccount} {src : Place} {n : Nat} (h : a.balanced)
    (hb : src = .repair → n ≤ a.repair - a.bound) : (ClassAccount.writeOff src n a).balanced := by
  obtain ⟨h1, h2⟩ := h
  unfold ClassAccount.writeOff
  split_ifs with hn
  · cases src <;>
      simp only [ClassAccount.count, ClassAccount.setCount, ClassAccount.balanced, forall_const, reduceCtorEq,
        IsEmpty.forall_iff] at * <;> omega
  · exact ⟨h1, h2⟩

theorem ClassAccount.add_balanced {a : ClassAccount} {dst : Place} {n : Nat} (h : a.balanced) :
    (ClassAccount.add dst n a).balanced := by
  obtain ⟨h1, h2⟩ := h
  cases dst <;> simp only [ClassAccount.add, ClassAccount.count, ClassAccount.setCount, ClassAccount.balanced] at * <;> omega

theorem ClassAccount.toBoundRepair_balanced {a : ClassAccount} {n : Nat} (h : a.balanced) :
    (ClassAccount.toBoundRepair n a).balanced := by
  obtain ⟨h1, h2⟩ := h
  unfold ClassAccount.toBoundRepair
  split_ifs with hn
  · simp only [ClassAccount.move, ClassAccount.count, hn, if_true, ClassAccount.setCount, ClassAccount.balanced]
    omega
  · exact ⟨h1, h2⟩

theorem ClassAccount.boundToShelf_balanced {a : ClassAccount} {n : Nat} (h : a.balanced) :
    (ClassAccount.boundToShelf n a).balanced := by
  obtain ⟨h1, h2⟩ := h
  unfold ClassAccount.boundToShelf
  split_ifs with hn
  · simp only [ClassAccount.move, ClassAccount.count, hn.1, if_true, ClassAccount.setCount, ClassAccount.balanced]
    omega
  · exact ⟨h1, h2⟩

theorem ClassAccount.retireBound_balanced {a : ClassAccount} {n : Nat} (h : a.balanced) :
    (ClassAccount.retireBound n a).balanced := by
  obtain ⟨h1, h2⟩ := h
  unfold ClassAccount.retireBound
  split_ifs with hn
  · simp only [ClassAccount.writeOff, ClassAccount.count, hn.1, if_true, ClassAccount.setCount, ClassAccount.balanced]
    omega
  · exact ⟨h1, h2⟩

theorem ClassAccount.shelfToBlank_balanced {a : ClassAccount} (h : a.balanced) : (ClassAccount.shelfToBlank a).balanced := by
  obtain ⟨h1, h2⟩ := h
  simp only [ClassAccount.shelfToBlank, ClassAccount.balanced]
  omega

/-- A change of one account that keeps it balanced keeps all of them balanced. -/
theorem modAccount_balanced {s : State} (c : Nat) {f : ClassAccount → ClassAccount} (h : AccountsBalanced s)
    (hf : ∀ a, a.balanced → a = accountAt s c → (f a).balanced) : AccountsBalanced (modAccount c f s) := by
  intro d hd
  by_cases e : d + 1 = c
  · subst e
    have := bankGet_modify_same s.accounts (d + 1) f {} ⟨by omega, by omega⟩
    simp only [accountAt, modAccount_accounts, this]
    exact hf _ (h d hd) rfl
  · simp only [accountAt, modAccount_accounts]
    rw [bankGet_modify_other _ _ _ e]
    exact h d hd

end Sys2Proof.Machine
end

