-- ==== Sys2Proof/Laws/Bits.lean ====
section
/-! SUPPORT. The bits of a character (R190): what a port reads from them is the character. -/

namespace Sys2Proof.Machine

@[simp] theorem Chr.bits_length (c : Chr) : (Chr.bits c).length = 12 := rfl

theorem Chr.bits_eq (c : Chr) :
    Chr.bits c =
      [false, c.data.getLsbD 0, c.data.getLsbD 1, c.data.getLsbD 2, c.data.getLsbD 3, c.data.getLsbD 4, c.data.getLsbD 5,
        c.data.getLsbD 6, c.data.getLsbD 7, c.mark, c.parity, c.stop] := rfl

@[simp] theorem charsOn_nil : charsOn [] = [] := rfl

@[simp] theorem charsOn_idle (line : List Bool) : charsOn (true :: line) = charsOn line := rfl

/-- The data bits, put together from the least significant on, are the data. -/
theorem dataOfBits (b : Byte) :
    BitVec.ofBoolListLE [b.getLsbD 0, b.getLsbD 1, b.getLsbD 2, b.getLsbD 3, b.getLsbD 4, b.getLsbD 5, b.getLsbD 6, b.getLsbD 7] =
      b := by
  revert b; decide

@[simp] theorem charsOn_bits (c : Chr) (rest : List Bool) : charsOn (Chr.bits c ++ rest) = c :: charsOn rest := by
  simp only [Chr.bits_eq, List.cons_append, List.nil_append, charsOn, dataOfBits]

end Sys2Proof.Machine
end

