-- ==== Sys2Proof/Laws/OrderUnit.lean ====
section
/-! SUPPORT. What the work of the Order Unit and the Assembly Unit can change (`OrderChange`), said once for each shared
operation of Jobs.lean, Assembly.lean and Orders.lean that allocates, seals, frees or restores. -/

namespace Sys2Proof.Machine

/-- What of a patron's record allocation never writes: its number, agency, overdue count and held state. -/
def patronKey (e : Nat × Patron) : Nat × Nat × Nat × Bool := (e.1, e.2.agency, e.2.overdue, e.2.held)

/-- Everything that allocating, sealing, freeing and restoring leave as it was or keep in form. -/
structure OrderChange (s t : State) : Prop where
  pending : t.pending = s.pending
  line : t.line = s.line
  returns : t.returns = s.returns
  dispatch : t.dispatch = s.dispatch
  days : t.days = s.days
  freeIx : t.freeIx = s.freeIx
  bays : t.scheduler.bays = s.scheduler.bays
  seconds : t.scheduler.seconds = s.scheduler.seconds
  agencies : t.records.agencies = s.records.agencies
  mode : t.management.mode = s.management.mode
  geometry : t.management.geometry = s.management.geometry
  capacity : t.management.capacity = s.management.capacity
  settings : t.management.settings = s.management.settings
  mask : t.management.mask = s.management.mask
  patrons : t.records.patrons.map patronKey = s.records.patrons.map patronKey
  titles : t.records.titles.map Prod.fst = s.records.titles.map Prod.fst
  requests : Table.wf s.requests → Table.wf t.requests
  cons : Table.wf s.assembly.cons → Table.wf t.assembly.cons
  jobs : Table.wf s.scheduler.jobs → Table.wf t.scheduler.jobs
  accounts : AccountsBalanced s → AccountsBalanced t

theorem OrderChange.refl (s : State) : OrderChange s s :=
  ⟨rfl, rfl, rfl, rfl, rfl, rfl, rfl, rfl, rfl, rfl, rfl, rfl, rfl, rfl, rfl, rfl, id, id, id, id⟩

theorem OrderChange.trans {s t u : State} (h : OrderChange s t) (g : OrderChange t u) : OrderChange s u :=
  ⟨g.pending.trans h.pending, g.line.trans h.line, g.returns.trans h.returns, g.dispatch.trans h.dispatch,
    g.days.trans h.days, g.freeIx.trans h.freeIx, g.bays.trans h.bays, g.seconds.trans h.seconds,
    g.agencies.trans h.agencies, g.mode.trans h.mode, g.geometry.trans h.geometry, g.capacity.trans h.capacity,
    g.settings.trans h.settings, g.mask.trans h.mask, g.patrons.trans h.patrons, g.titles.trans h.titles,
    g.requests ∘ h.requests, g.cons ∘ h.cons, g.jobs ∘ h.jobs, g.accounts ∘ h.accounts⟩

/-- A change followed by one more. -/
theorem OrderChange.step {s t : State} (f : State → State) (h : OrderChange s t) (g : ∀ x, OrderChange x (f x)) :
    OrderChange s (f t) := h.trans (g t)

/-- A list of changes. -/
theorem OrderChange.foldl {β : Type} (f : State → β → State) (hf : ∀ s b, OrderChange s (f s b)) (l : List β) (s : State) :
    OrderChange s (l.foldl f s) := by
  induction l generalizing s with
  | nil => exact .refl s
  | cons b l ih => exact (hf s b).trans (ih (f s b))

/-! ## The named updates -/

theorem OrderChange.modPatron (k : Nat) {f : Patron → Patron}
    (hf : ∀ p, (f p).agency = p.agency ∧ (f p).overdue = p.overdue ∧ (f p).held = p.held) (s : State) :
    OrderChange s (modPatron k f s) := by
  refine ⟨rfl, rfl, rfl, rfl, rfl, rfl, rfl, rfl, rfl, rfl, rfl, rfl, rfl, rfl, ?_, rfl, id, id, id, id⟩
  simp only [modPatron_patrons, Table.modify, List.map_map]
  apply List.map_congr_left
  intro e _
  simp only [Function.comp, patronKey]
  split_ifs
  · simp [hf e.2]
  · rfl

theorem OrderChange.modTitle (k : Nat) (f : Title → Title) (s : State) : OrderChange s (modTitle k f s) := by
  refine ⟨rfl, rfl, rfl, rfl, rfl, rfl, rfl, rfl, rfl, rfl, rfl, rfl, rfl, rfl, rfl, ?_, id, id, id, id⟩
  simp

theorem OrderChange.modCons (k : Nat) (f : Consignment → Consignment) (s : State) : OrderChange s (modCons k f s) :=
  ⟨rfl, rfl, rfl, rfl, rfl, rfl, rfl, rfl, rfl, rfl, rfl, rfl, rfl, rfl, rfl, rfl, id, Table.wf_modify _ k f, id, id⟩

theorem OrderChange.modJob (k : Nat) (f : Job → Job) (s : State) : OrderChange s (modJob k f s) :=
  ⟨rfl, rfl, rfl, rfl, rfl, rfl, rfl, rfl, rfl, rfl, rfl, rfl, rfl, rfl, rfl, rfl, id, id, Table.wf_modify _ k f, id⟩

theorem OrderChange.modQueue (l : Nat) (f : List Nat → List Nat) (s : State) : OrderChange s (modQueue l f s) :=
  ⟨rfl, rfl, rfl, rfl, rfl, rfl, rfl, rfl, rfl, rfl, rfl, rfl, rfl, rfl, rfl, rfl, id, id, id, id⟩

theorem OrderChange.latch (n : NoticeId) (x : Nat) (s : State) : OrderChange s (latch n x s) :=
  ⟨rfl, rfl, rfl, rfl, rfl, rfl, rfl, rfl, rfl, rfl, rfl, rfl, rfl, rfl, rfl, rfl, id, id, id, id⟩

theorem OrderChange.owePass (s : State) : OrderChange s (owePass s) :=
  ⟨rfl, rfl, rfl, rfl, rfl, rfl, rfl, rfl, rfl, rfl, rfl, rfl, rfl, rfl, rfl, rfl, id, id, id, id⟩

theorem OrderChange.pendPick (k : Nat) (s : State) : OrderChange s (pendPick k s) :=
  ⟨rfl, rfl, rfl, rfl, rfl, rfl, rfl, rfl, rfl, rfl, rfl, rfl, rfl, rfl, rfl, rfl, id, id, id, id⟩

theorem OrderChange.sealedList (l : List Nat) (s : State) : OrderChange s { s with assembly.sealedList := l } :=
  ⟨rfl, rfl, rfl, rfl, rfl, rfl, rfl, rfl, rfl, rfl, rfl, rfl, rfl, rfl, rfl, rfl, id, id, id, id⟩

theorem OrderChange.putCons (k : Nat) (c : Consignment) (s : State) :
    OrderChange s { s with assembly.cons := Table.put s.assembly.cons k c } :=
  ⟨rfl, rfl, rfl, rfl, rfl, rfl, rfl, rfl, rfl, rfl, rfl, rfl, rfl, rfl, rfl, rfl, id, Table.wf_put _ k c, id, id⟩

theorem OrderChange.deleteCons (k : Nat) (s : State) :
    OrderChange s { s with assembly.cons := Table.delete s.assembly.cons k } :=
  ⟨rfl, rfl, rfl, rfl, rfl, rfl, rfl, rfl, rfl, rfl, rfl, rfl, rfl, rfl, rfl, rfl, id, Table.wf_delete _ k, id, id⟩

theorem OrderChange.putJob (k : Nat) (j : Job) (s : State) :
    OrderChange s { s with scheduler.jobs := Table.put s.scheduler.jobs k j } :=
  ⟨rfl, rfl, rfl, rfl, rfl, rfl, rfl, rfl, rfl, rfl, rfl, rfl, rfl, rfl, rfl, rfl, id, id, Table.wf_put _ k j, id⟩

theorem OrderChange.deleteJob (k : Nat) (s : State) :
    OrderChange s { s with scheduler.jobs := Table.delete s.scheduler.jobs k } :=
  ⟨rfl, rfl, rfl, rfl, rfl, rfl, rfl, rfl, rfl, rfl, rfl, rfl, rfl, rfl, rfl, rfl, id, id, Table.wf_delete _ k, id⟩

theorem OrderChange.putRequest (k : Nat) (q : Request) (s : State) :
    OrderChange s { s with requests := Table.put s.requests k q } :=
  ⟨rfl, rfl, rfl, rfl, rfl, rfl, rfl, rfl, rfl, rfl, rfl, rfl, rfl, rfl, rfl, rfl, Table.wf_put _ k q, id, id, id⟩

theorem OrderChange.deleteRequest (k : Nat) (s : State) : OrderChange s { s with requests := Table.delete s.requests k } :=
  ⟨rfl, rfl, rfl, rfl, rfl, rfl, rfl, rfl, rfl, rfl, rfl, rfl, rfl, rfl, rfl, rfl, Table.wf_delete _ k, id, id, id⟩

theorem OrderChange.modAccount (c : Nat) {f : ClassAccount → ClassAccount} (hf : ∀ a, a.balanced → (f a).balanced)
    (s : State) : OrderChange s (modAccount c f s) :=
  ⟨rfl, rfl, rfl, rfl, rfl, rfl, rfl, rfl, rfl, rfl, rfl, rfl, rfl, rfl, rfl, rfl, id, id, id,
    fun h => modAccount_balanced c h fun a ha _ => hf a ha⟩

/-! ## Jobs and the sealed list -/

theorem queueTail_change (j : Nat) (s : State) : OrderChange s (queueTail j s) := by
  unfold queueTail
  split
  · exact .refl s
  · exact (((OrderChange.modJob j _ s).trans (.modQueue _ _ _)).trans (.owePass _))

theorem queueHead_change (j : Nat) (s : State) : OrderChange s (queueHead j s) := by
  unfold queueHead
  split
  · exact .refl s
  · exact (((OrderChange.modJob j _ s).trans (.modQueue _ _ _)).trans (.owePass _))

theorem dequeue_change (j : Nat) (s : State) : OrderChange s (dequeue j s) := by
  unfold dequeue
  split
  · exact .refl s
  · exact .modQueue _ _ s

theorem createPackJob_change (j k : Nat) (s : State) : OrderChange s (createPackJob j k s) := by
  unfold createPackJob
  split
  · exact .refl s
  · exact ((OrderChange.putJob j _ s).trans (.modCons k _ _)).trans (queueTail_change j _)

theorem packSealed_change (k : Nat) (s : State) : OrderChange s (packSealed k s) := by
  unfold packSealed
  split
  · exact createPackJob_change _ k s
  · exact .sealedList _ s

theorem freeJob_change (j : Nat) (s : State) : OrderChange s (freeJob j s) := by
  unfold freeJob
  split
  · exact .deleteJob j s
  · next k rest _ =>
    exact ((OrderChange.deleteJob j s).trans (.sealedList rest _)).trans (createPackJob_change j k _)

/-! ## Consignments -/

theorem createOnChain_change (k : Nat) (c : Consignment) (s : State) : OrderChange s (createOnChain k c s) :=
  (OrderChange.putCons k c s).trans (.modPatron _ (by intro; exact ⟨rfl, rfl, rfl⟩) _)

theorem freeConsignment_change (k : Nat) (s : State) : OrderChange s (freeConsignment k s) := by
  unfold freeConsignment
  split
  · exact .refl s
  · exact (OrderChange.modPatron _ (by intro; exact ⟨rfl, rfl, rfl⟩) s).trans (.deleteCons k _)

theorem freeAll_change (ks : List Nat) (s : State) : OrderChange s (freeAll ks s) :=
  .foldl _ (fun s k => freeConsignment_change k s) ks s

theorem sealPack_change (k : Nat) (s : State) : OrderChange s (sealPack k s) := by
  unfold sealPack
  split
  · exact .refl s
  · split_ifs
    · split
      · exact .refl s
      · exact ((OrderChange.modCons k _ s).trans (.modPatron _ (by intro; exact ⟨rfl, rfl, rfl⟩) _)).trans (packSealed_change k _)
    · exact .refl s

theorem examineClose_change (patron : Nat) (s : State) : OrderChange s (examineClose patron s) := by
  unfold examineClose
  split
  · exact .refl s
  · split
    · exact .refl s
    · split_ifs
      · exact sealPack_change _ s
      · exact .refl s

theorem createParts_change (n i head : Nat) (plan : BraillePlan) (v w : Nat) (c : Consignment) (s : State) :
    OrderChange s (createParts n i head plan v w c s) := by
  induction n generalizing i s with
  | zero => exact .refl s
  | succ m ih =>
    unfold createParts
    split
    · exact .refl s
    · exact (OrderChange.putCons _ _ s).trans (ih _ _)

/-! ## Requests and allocation -/

theorem freeRequest_change (r : Nat) (q : Request) (s : State) : OrderChange s (freeRequest r q s) :=
  ((OrderChange.deleteRequest r s).trans (.modTitle _ _ _)).trans (.modPatron _ (by intro; exact ⟨rfl, rfl, rfl⟩) _)

theorem addRequest_change (r : Nat) (q : Request) (s : State) : OrderChange s (addRequest r q s) :=
  ((OrderChange.putRequest r q s).trans (.modTitle _ _ _)).trans (.modPatron _ (by intro; exact ⟨rfl, rfl, rfl⟩) _)

theorem grant_change (patron title : Nat) (s : State) : OrderChange s (grant patron title s) :=
  (OrderChange.modPatron _ (by intro; exact ⟨rfl, rfl, rfl⟩) s).trans (.modTitle _ _ _)

theorem openPackAt_change (k r b : Nat) (q : Request) (p : Patron) (s : State) :
    OrderChange s (openPackAt k r b q p s) :=
  ((((freeRequest_change r q s).trans (createOnChain_change k _ _)).trans
    (.modPatron _ (by intro; exact ⟨rfl, rfl, rfl⟩) _)).trans (grant_change _ _ _)).trans (examineClose_change _ _)

theorem addToPack_change (k r b : Nat) (q : Request) (s : State) : OrderChange s (addToPack k r b q s) :=
  (((freeRequest_change r q s).trans (.modCons k _ _)).trans (grant_change _ _ _)).trans (examineClose_change _ _)

theorem takeCopy_change (title : Nat) (s : State) : OrderChange s (takeCopy title s) := .modTitle _ _ s

theorem allocateOnDemand_change (r : Nat) (q : Request) (p : Patron) (t : Title) (s : State) :
    OrderChange s (allocateOnDemand r q p t s).2 := by
  unfold allocateOnDemand
  split
  · split_ifs
    · exact addToPack_change _ _ _ _ s
    · split
      · exact .refl s
      · exact (sealPack_change _ s).trans (openPackAt_change _ _ _ _ _ _)
  · split
    · exact .refl s
    · exact openPackAt_change _ _ _ _ _ s

theorem allocateShelf_change (r : Nat) (q : Request) (p : Patron) (t : Title) (s : State) :
    OrderChange s (allocateShelf r q p t s).2 := by
  unfold allocateShelf
  split
  · exact .refl s
  · exact ((((((freeRequest_change r q s).trans (createOnChain_change _ _ _)).trans (takeCopy_change _ _)).trans
      (.modAccount _ (fun _ h => ClassAccount.move_balanced h (by simp)) _)).trans (grant_change _ _ _)).trans
      (.pendPick _ _)).trans (examineClose_change _ _)

theorem allocateBraille_change (r : Nat) (q : Request) (p : Patron) (t : Title) (s : State) :
    OrderChange s (allocateBraille r q p t s).2 := by
  unfold allocateBraille
  simp only
  split
  · exact .refl s
  · split_ifs
    · exact .refl s
    · exact ((((((freeRequest_change r q s).trans (createParts_change _ _ _ _ _ _ _ _)).trans
        (.modPatron _ (by intro; exact ⟨rfl, rfl, rfl⟩) _)).trans (takeCopy_change _ _)).trans (grant_change _ _ _)).trans
        (.pendPick _ _)).trans (examineClose_change _ _)

theorem allocateKind_change (r : Nat) (q : Request) (p : Patron) (t : Title) (s : State) :
    OrderChange s (allocateKind r q p t s).2 := by
  unfold allocateKind
  split
  · exact allocateOnDemand_change r q p t s
  · split_ifs
    · exact .refl s
    · split
      · exact allocateShelf_change r q p t s
      · exact allocateBraille_change r q p t s

/-- One allocation attempt (R37 to R42). -/
theorem attempt_change (r : Nat) (s : State) : OrderChange s (attempt r s).2 := by
  unfold attempt
  split
  · exact .refl s
  · split
    · split_ifs
      · unfold noteExhausted
        split
        · exact (allocateKind_change _ _ _ _ s).trans (.latch _ _ _)
        · exact allocateKind_change _ _ _ _ s
        · exact allocateKind_change _ _ _ _ s
      · exact .refl s
    · exact .refl s

/-- *Copy freed* (R44). -/
theorem copyFreed_change (title : Nat) (s : State) : OrderChange s (copyFreed title s) := by
  unfold copyFreed
  split
  · exact .refl s
  · split_ifs
    · split
      · exact .refl s
      · exact attempt_change _ s
    · exact .refl s

theorem copiesFreed_change (n title : Nat) (s : State) : OrderChange s (copiesFreed n title s) := by
  induction n generalizing s with
  | zero => exact .refl s
  | succ m ih => exact (copyFreed_change title s).trans (ih _)

/-- *Headroom* (R45). -/
theorem headroom_change (patron : Nat) (s : State) : OrderChange s (headroom patron s) := by
  unfold headroom
  split
  · exact .refl s
  · exact .foldl _ (fun s r => attempt_change r s) _ s

/-! ## Restoration and cancelling -/

theorem ungrant_change (patron title : Nat) (s : State) : OrderChange s (ungrant patron title s) :=
  (OrderChange.modPatron _ (by intro; exact ⟨rfl, rfl, rfl⟩) s).trans (.modTitle _ _ _)

theorem restoreLines_change (patron prev : Nat) (lines : List Line) (s : State) :
    OrderChange s (restoreLines patron prev lines s) := by
  induction lines generalizing prev s with
  | nil => exact .refl s
  | cons l rest ih =>
    unfold restoreLines
    split
    · exact ((ungrant_change _ _ s).trans (.latch _ _ _)).trans (ih _ _)
    · exact ((((OrderChange.putRequest _ _ s).trans (.modTitle _ _ _)).trans
        (.modPatron _ (by intro; exact ⟨rfl, rfl, rfl⟩) _)).trans (ungrant_change _ _ _)).trans (ih _ _)

/-- The hand-over of a failed consignment's lines (R47, R48). -/
theorem handOver_change (patron : Nat) (lines : List Line) (s : State) : OrderChange s (handOver patron lines s) :=
  (restoreLines_change _ _ _ s).trans (headroom_change _ _)

theorem takeBackLine_change (k patron title : Nat) (c : Consignment) (s : State) :
    OrderChange s (takeBackLine k patron title c s) := by
  unfold takeBackLine
  simp only
  refine OrderChange.trans ?_ (headroom_change _ _)
  split_ifs
  · exact ((OrderChange.modCons k _ s).trans (ungrant_change _ _ _)).trans (freeConsignment_change _ _)
  · exact ((OrderChange.modCons k _ s).trans (ungrant_change _ _ _)).trans (examineClose_change _ _)

end Sys2Proof.Machine
end

