-- ==== Sys2Proof/Laws/PerInstr.lean ====
section
/-! SUPPORT. Per command: the office frame that a well-formed command stands for is addressed to the part, comes from a source
of the office line, and fits a frame (R191, R193). -/

namespace Sys2Proof.Laws

open Sys2Proof Sys2Proof.Machine

/-- The frame of a well-formed command can arrive on the office line. -/
def RequestForm.Statement (i : Instr) : Prop :=
  ∀ f, requestFrame i = some f → WellFormed i = true →
    f.dst = 0 ∧ officeSource f.src = true ∧ f.payload.length ≤ 240

/-- `bytesLE n` is `n` bytes long. -/
@[simp] theorem bytesLE_length (n v : Nat) : (bytesLE n v).length = n := by
  induction n generalizing v with
  | zero => rfl
  | succ n ih => simp [bytesLE, ih]

/-- A command that stands for no office frame. -/
theorem requestForm_none {i : Instr} (h : requestFrame i = none) : RequestForm.Statement i := by
  intro f hf
  rw [h] at hf
  cases hf

/-- A management request whose payload is short enough. -/
theorem requestForm_management {i : Instr} {kind : Nat} {payload : List Byte} (h : requestFrame i = management kind payload)
    (hl : payload.length ≤ 240) : RequestForm.Statement i := by
  intro f hf _
  rw [h] at hf
  cases hf
  exact ⟨rfl, rfl, hl⟩

/-- An order frame from a source of the office line. -/
theorem requestForm_order {i : Instr} {src : Byte} {kind : Nat} {p t : U16} (h : requestFrame i = orderFrame src kind p t)
    (hw : WellFormed i = officeSource src) : RequestForm.Statement i := by
  intro f hf hi
  rw [h] at hf
  cases hf
  exact ⟨rfl, hw ▸ hi, by simp⟩

theorem RequestForm.resetPin : RequestForm.Statement Instr.resetPin :=
  requestForm_none rfl
theorem RequestForm.powerOn : RequestForm.Statement Instr.powerOn :=
  requestForm_none rfl
theorem RequestForm.reset : RequestForm.Statement Instr.reset :=
  requestForm_management rfl (by simp)
theorem RequestForm.resetAfterReply : RequestForm.Statement Instr.resetAfterReply :=
  requestForm_none rfl
theorem RequestForm.restart : RequestForm.Statement Instr.restart :=
  requestForm_management rfl (by simp)
theorem RequestForm.setGeometry : ∀ p t q c j, RequestForm.Statement (Instr.setGeometry p t q c j) :=
  fun _ _ _ _ _ => requestForm_management rfl (by simp)
theorem RequestForm.setClass : ∀ cls capacity, RequestForm.Statement (Instr.setClass cls capacity) :=
  fun _ _ => requestForm_management rfl (by simp)
theorem RequestForm.setLines : ∀ officeRate floorRate, RequestForm.Statement (Instr.setLines officeRate floorRate) :=
  fun _ _ => requestForm_management rfl (by simp)
theorem RequestForm.officeRateChange : RequestForm.Statement Instr.officeRateChange :=
  requestForm_none rfl
theorem RequestForm.floorRateChange : RequestForm.Statement Instr.floorRateChange :=
  requestForm_none rfl
theorem RequestForm.setDay : ∀ d, RequestForm.Statement (Instr.setDay d) :=
  fun _ => requestForm_management rfl (by simp)
theorem RequestForm.openService : RequestForm.Statement Instr.openService :=
  requestForm_management rfl (by simp)
theorem RequestForm.setSetting : ∀ setting value, RequestForm.Statement (Instr.setSetting setting value) :=
  fun _ _ => requestForm_management rfl (by simp)
theorem RequestForm.loadPatron :
    ∀ patron present status patronClass level formats cartridgeClass quota agency code,
    RequestForm.Statement
      (Instr.loadPatron patron present status patronClass level formats cartridgeClass quota agency code) :=
  fun _ _ _ _ _ _ _ _ _ _ => requestForm_management rfl (by simp)
theorem RequestForm.loadAgency : ∀ agency present code, RequestForm.Statement (Instr.loadAgency agency present code) :=
  fun _ _ _ => requestForm_management rfl (by simp)
theorem RequestForm.loadTitle :
    ∀ title present format policy level availability extent granularity shelfClass volumes weight,
    RequestForm.Statement
      (Instr.loadTitle title present format policy level availability extent granularity shelfClass volumes weight) :=
  fun _ _ _ _ _ _ _ _ _ _ _ => requestForm_management rfl (by simp)
theorem RequestForm.readRecord : ∀ table index, RequestForm.Statement (Instr.readRecord table index) :=
  fun _ _ => requestForm_management rfl (by simp)
theorem RequestForm.setBay :
    ∀ bay address classes preempt,
    RequestForm.Statement (Instr.setBay bay address classes preempt) :=
  fun _ _ _ _ => requestForm_management rfl (by simp)
theorem RequestForm.bayOnline : ∀ bay, RequestForm.Statement (Instr.bayOnline bay) :=
  fun _ => requestForm_management rfl (by simp)
theorem RequestForm.bayOffline : ∀ bay, RequestForm.Statement (Instr.bayOffline bay) :=
  fun _ => requestForm_management rfl (by simp)
theorem RequestForm.buildStock : ∀ title copies, RequestForm.Statement (Instr.buildStock title copies) :=
  fun _ _ => requestForm_management rfl (by simp)
theorem RequestForm.raiseJob : ∀ job, RequestForm.Statement (Instr.raiseJob job) :=
  fun _ => requestForm_management rfl (by simp)
theorem RequestForm.flushPack : ∀ patron, RequestForm.Statement (Instr.flushPack patron) :=
  fun _ => requestForm_management rfl (by simp)
theorem RequestForm.day : ∀ d, RequestForm.Statement (Instr.day d) :=
  fun _ => requestForm_management rfl (by simp)
theorem RequestForm.setWindow :
    ∀ window enabled low high chute mailClass transit limit hold,
    RequestForm.Statement (Instr.setWindow window enabled low high chute mailClass transit limit hold) :=
  fun _ _ _ _ _ _ _ _ _ => requestForm_management rfl (by simp)
theorem RequestForm.releaseManifest : ∀ half, RequestForm.Statement (Instr.releaseManifest half) :=
  fun _ => requestForm_management rfl (by simp)
theorem RequestForm.readManifest : ∀ half index, RequestForm.Statement (Instr.readManifest half index) :=
  fun _ _ => requestForm_management rfl (by simp)
theorem RequestForm.readDispatch : RequestForm.Statement Instr.readDispatch :=
  requestForm_management rfl (by simp)
theorem RequestForm.setChannel :
    ∀ channel mode action store reference,
    RequestForm.Statement (Instr.setChannel channel mode action store reference) :=
  fun _ _ _ _ _ => requestForm_management rfl (by simp)
theorem RequestForm.setThreshold : ∀ entry value, RequestForm.Statement (Instr.setThreshold entry value) :=
  fun _ _ => requestForm_management rfl (by simp)
theorem RequestForm.inspectSuspend : RequestForm.Statement Instr.inspectSuspend :=
  requestForm_management rfl (by simp)
theorem RequestForm.inspectResume : RequestForm.Statement Instr.inspectResume :=
  requestForm_management rfl (by simp)
theorem RequestForm.clearHits : RequestForm.Statement Instr.clearHits :=
  requestForm_management rfl (by simp)
theorem RequestForm.readInspection : RequestForm.Statement Instr.readInspection :=
  requestForm_management rfl (by simp)
theorem RequestForm.readChannel : ∀ channel, RequestForm.Statement (Instr.readChannel channel) :=
  fun _ => requestForm_management rfl (by simp)
theorem RequestForm.stockAdd : ∀ cls n, RequestForm.Statement (Instr.stockAdd cls n) :=
  fun _ _ => requestForm_management rfl (by simp)
theorem RequestForm.stockAddTitle : ∀ title n, RequestForm.Statement (Instr.stockAddTitle title n) :=
  fun _ _ => requestForm_management rfl (by simp)
theorem RequestForm.repaired : ∀ cls n title, RequestForm.Statement (Instr.repaired cls n title) :=
  fun _ _ _ => requestForm_management rfl (by simp)
theorem RequestForm.retireRepair : ∀ cls n title, RequestForm.Statement (Instr.retireRepair cls n title) :=
  fun _ _ _ => requestForm_management rfl (by simp)
theorem RequestForm.declareLost : ∀ consignment, RequestForm.Statement (Instr.declareLost consignment) :=
  fun _ => requestForm_management rfl (by simp)
theorem RequestForm.readStock : ∀ cls, RequestForm.Statement (Instr.readStock cls) :=
  fun _ => requestForm_management rfl (by simp)
theorem RequestForm.readDay : RequestForm.Statement Instr.readDay :=
  requestForm_management rfl (by simp)
theorem RequestForm.readSetup : RequestForm.Statement Instr.readSetup :=
  requestForm_management rfl (by simp)
theorem RequestForm.clearLineFaults : RequestForm.Statement Instr.clearLineFaults :=
  requestForm_management rfl (by simp)
theorem RequestForm.readLines : RequestForm.Statement Instr.readLines :=
  requestForm_management rfl (by simp)
theorem RequestForm.setMask : ∀ mask, RequestForm.Statement (Instr.setMask mask) :=
  fun _ => requestForm_management rfl (by simp)
theorem RequestForm.readNotices : RequestForm.Statement Instr.readNotices :=
  requestForm_management rfl (by simp)
theorem RequestForm.unlistedManagementKind :
    ∀ src kind payload,
    RequestForm.Statement (Instr.unlistedManagementKind src kind payload) := by
  intro src kind payload f hf hw
  cases hf
  simp only [WellFormed, Bool.and_eq_true, decide_eq_true_eq] at hw
  exact ⟨rfl, hw.1.1, hw.1.2⟩
theorem RequestForm.order : ∀ src patron title, RequestForm.Statement (Instr.order src patron title) :=
  fun _ _ _ => requestForm_order rfl rfl
theorem RequestForm.probe : ∀ src patron title, RequestForm.Statement (Instr.probe src patron title) :=
  fun _ _ _ => requestForm_order rfl rfl
theorem RequestForm.cancel : ∀ src patron title, RequestForm.Statement (Instr.cancel src patron title) :=
  fun _ _ _ => requestForm_order rfl rfl
theorem RequestForm.stallExpiry : ∀ bay, RequestForm.Statement (Instr.stallExpiry bay) :=
  fun _ => requestForm_none rfl
theorem RequestForm.started : ∀ src job serial, RequestForm.Statement (Instr.started src job serial) :=
  fun _ _ _ => requestForm_none rfl
theorem RequestForm.progress : ∀ src job blocks, RequestForm.Statement (Instr.progress src job blocks) :=
  fun _ _ _ => requestForm_none rfl
theorem RequestForm.parked : ∀ src job offset, RequestForm.Statement (Instr.parked src job offset) :=
  fun _ _ _ => requestForm_none rfl
theorem RequestForm.copyDone : ∀ src job serial result, RequestForm.Statement (Instr.copyDone src job serial result) :=
  fun _ _ _ _ => requestForm_none rfl
theorem RequestForm.bayFault : ∀ src code, RequestForm.Statement (Instr.bayFault src code) :=
  fun _ _ => requestForm_none rfl
theorem RequestForm.pick : RequestForm.Statement Instr.pick :=
  requestForm_none rfl
theorem RequestForm.picked : ∀ src consignment serial, RequestForm.Statement (Instr.picked src consignment serial) :=
  fun _ _ _ => requestForm_none rfl
theorem RequestForm.notFound : ∀ src consignment, RequestForm.Statement (Instr.notFound src consignment) :=
  fun _ _ => requestForm_none rfl
theorem RequestForm.releasePass : RequestForm.Statement Instr.releasePass :=
  requestForm_none rfl
theorem RequestForm.chuted : ∀ src consignment, RequestForm.Statement (Instr.chuted src consignment) :=
  fun _ _ => requestForm_none rfl
theorem RequestForm.chuteFull :
    ∀ src consignment chute,
    RequestForm.Statement (Instr.chuteFull src consignment chute) :=
  fun _ _ _ => requestForm_none rfl
theorem RequestForm.chuteClear : ∀ src chute, RequestForm.Statement (Instr.chuteClear src chute) :=
  fun _ _ => requestForm_none rfl
theorem RequestForm.returnItem :
    ∀ src consignment postDay part serial presence readings,
    RequestForm.Statement (Instr.returnItem src consignment postDay part serial presence readings) :=
  fun _ _ _ _ _ _ _ => requestForm_none rfl
theorem RequestForm.owedReturnAnswer : RequestForm.Statement Instr.owedReturnAnswer :=
  requestForm_none rfl
theorem RequestForm.inspectionCompletion : RequestForm.Statement Instr.inspectionCompletion :=
  requestForm_none rfl
theorem RequestForm.sweepStep : RequestForm.Statement Instr.sweepStep :=
  requestForm_none rfl
theorem RequestForm.owedCommandHandOn : RequestForm.Statement Instr.owedCommandHandOn :=
  requestForm_none rfl
theorem RequestForm.officeFrameReceive : ∀ chars, RequestForm.Statement (Instr.officeFrameReceive chars) :=
  fun _ => requestForm_none rfl
theorem RequestForm.officePeerFrame : RequestForm.Statement Instr.officePeerFrame :=
  requestForm_none rfl
theorem RequestForm.forwardToFloor : RequestForm.Statement Instr.forwardToFloor :=
  requestForm_none rfl
theorem RequestForm.floorForward : ∀ frame, RequestForm.Statement (Instr.floorForward frame) :=
  fun _ => requestForm_none rfl
theorem RequestForm.frameDiscard : ∀ port chars, RequestForm.Statement (Instr.frameDiscard port chars) :=
  fun _ _ => requestForm_none rfl
theorem RequestForm.strayFloorFrame : ∀ frame, RequestForm.Statement (Instr.strayFloorFrame frame) :=
  fun _ => requestForm_none rfl
theorem RequestForm.quiet : ∀ src, RequestForm.Statement (Instr.quiet src) :=
  fun _ => requestForm_none rfl
theorem RequestForm.sendReply : RequestForm.Statement Instr.sendReply :=
  requestForm_none rfl
theorem RequestForm.sendForwardedFrame : RequestForm.Statement Instr.sendForwardedFrame :=
  requestForm_none rfl
theorem RequestForm.notice : RequestForm.Statement Instr.notice :=
  requestForm_none rfl
theorem RequestForm.floorSend : RequestForm.Statement Instr.floorSend :=
  requestForm_none rfl
theorem RequestForm.poll : RequestForm.Statement Instr.poll :=
  requestForm_none rfl
theorem RequestForm.replyTurnGrant : RequestForm.Statement Instr.replyTurnGrant :=
  requestForm_none rfl
theorem RequestForm.replyWindowExpiry : RequestForm.Statement Instr.replyWindowExpiry :=
  requestForm_none rfl
theorem RequestForm.turnSilenceExpiry : RequestForm.Statement Instr.turnSilenceExpiry :=
  requestForm_none rfl
theorem RequestForm.floorFrameNotTaken : ∀ frame, RequestForm.Statement (Instr.floorFrameNotTaken frame) :=
  fun _ => requestForm_none rfl

end Sys2Proof.Laws
end

