-- ==== Sys2Proof/Laws/Reception.lean ====
section
/-! SUPPORT. Reception on the office port: a frame that ends uses up characters of its run, and so the equations of `receiveOffice`. -/

namespace Sys2Proof.Machine

/-- What follows a step of reception is no longer than what it began with. -/
theorem nextByte_rest_le (cs : List Chr) :
    (∀ r, nextByte cs = .error r → r.2.length ≤ cs.length) ∧
      ∀ b rest, nextByte cs = .ok (b, rest) → rest.length ≤ cs.length := by
  cases cs with
  | nil => simp [nextByte]
  | cons c rest =>
    constructor <;> intro <;> simp only [nextByte] <;> split_ifs <;> intros <;> simp_all <;> subst_vars <;> simp

theorem nextBytes_rest_le (n : Nat) (cs : List Chr) :
    (∀ r, nextBytes n cs = .error r → r.2.length ≤ cs.length) ∧
      ∀ bs rest, nextBytes n cs = .ok (bs, rest) → rest.length ≤ cs.length := by
  induction n generalizing cs with
  | zero => simp [nextBytes]
  | succ n ih =>
    have h := nextByte_rest_le cs
    simp only [nextBytes]
    cases e : nextByte cs with
    | error r => simpa using h.1 r e
    | ok p =>
      have h1 := h.2 p.1 p.2 e
      have h2 := ih p.2
      cases e2 : nextBytes n p.2 with
      | error r => simpa [e2] using (h2.1 r e2).trans h1
      | ok q =>
        have h3 := h2.2 q.1 q.2 e2
        simp only [e2, reduceCtorEq, false_implies, implies_true, Except.ok.injEq, Prod.mk.injEq, true_and]
        rintro _ _ ⟨_, rfl⟩
        exact h3.trans h1

theorem receivePayload_rest_le (dst src kind : Byte) (n : Nat) (cs : List Chr) :
    (receivePayload dst src kind n cs).2.length ≤ cs.length := by
  have h := nextBytes_rest_le n cs
  unfold receivePayload
  cases e : nextBytes n cs with
  | error r => exact h.1 r e
  | ok p =>
    have h1 := h.2 p.1 p.2 e
    have h2 := nextByte_rest_le p.2
    cases e2 : nextByte p.2 with
    | error r => simpa [e2] using (h2.1 r e2).trans h1
    | ok q => 
      have h3 := (h2.2 q.1 q.2 e2).trans h1
      simp only [e2]
      split_ifs <;> exact h3

theorem receiveBody_rest_le (dst : Byte) (cs : List Chr) : (receiveBody dst cs).2.length ≤ cs.length := by
  unfold receiveBody
  split_ifs
  · exact le_rfl
  cases e : nextByte cs with
  | error r => exact (nextByte_rest_le cs).1 r e
  | ok p =>
    have h1 := (nextByte_rest_le cs).2 p.1 p.2 e
    cases e2 : nextByte p.2 with
    | error r => simpa [e2] using ((nextByte_rest_le p.2).1 r e2).trans h1
    | ok q =>
      have h2 := ((nextByte_rest_le p.2).2 q.1 q.2 e2).trans h1
      cases e3 : nextByte q.2 with
      | error r => simpa [e2, e3] using ((nextByte_rest_le q.2).1 r e3).trans h2
      | ok t =>
        have h3 := ((nextByte_rest_le q.2).2 t.1 t.2 e3).trans h2
        simp only [e2, e3]
        split_ifs
        · exact h3
        · exact (receivePayload_rest_le ..).trans h3

/-- A run in which a frame ends leaves fewer characters. -/
theorem receiveAll_rest_lt (cs : List Chr) (h : (receiveAll cs).1 ≠ .incomplete) : (receiveAll cs).2.length < cs.length := by
  induction cs with
  | nil => simp [receiveAll] at h
  | cons c rest ih =>
    unfold receiveAll at h ⊢
    split_ifs at h ⊢
    · exact Nat.lt_succ_of_le (receiveBody_rest_le c.data rest)
    · exact Nat.lt_succ_of_lt (ih h)

theorem afterFrame_length_lt {port : Port} {run : List Chr} (h : receiveAt port run ≠ .incomplete) :
    (afterFrame run).length < run.length := by
  refine lt_of_le_of_lt (List.dropWhile_suffix _).length_le (receiveAll_rest_lt run fun e => h ?_)
  simp [receiveAt, receive, e]

/-- More fuel than characters changes nothing. -/
theorem receiveFrames_fuel (n : Nat) (run : List Chr) (s : State) (h : run.length ≤ n) :
    receiveFrames n run s = receiveOffice run s := by
  suffices H : ∀ m n (run : List Chr) s, run.length ≤ n → run.length ≤ m → receiveFrames n run s = receiveFrames m run s from
    H _ _ _ _ h le_rfl
  clear h s run n
  intro m
  induction m with
  | zero =>
    intro n run s _ hm
    obtain rfl : run = [] := List.length_eq_zero_iff.mp (Nat.le_zero.mp hm)
    cases n <;> rfl
  | succ m ih =>
    intro n run s hn hm
    cases n with
    | zero =>
      obtain rfl : run = [] := List.length_eq_zero_iff.mp (Nat.le_zero.mp hn)
      rfl
    | succ n =>
      unfold receiveFrames
      cases e : receiveAt .office run with
      | incomplete => rfl
      | frame f =>
        have := afterFrame_length_lt (port := .office) (run := run) (by simp [e])
        exact ih _ _ _ (by omega) (by omega)
      | fault c =>
        have := afterFrame_length_lt (port := .office) (run := run) (by simp [e])
        exact ih _ _ _ (by omega) (by omega)

theorem receiveOffice_incomplete {run : List Chr} (h : receiveAt .office run = .incomplete) (s : State) :
    receiveOffice run s = { s with line.officeIn := inFrame run } := by
  cases run with
  | nil => rfl
  | cons c rest => simp only [receiveOffice, List.length_cons, receiveFrames, h]

theorem receiveOffice_frame {run : List Chr} {f : Frame} (h : receiveAt .office run = .frame f) (s : State) :
    receiveOffice run s = receiveOffice (afterFrame run) (joinOffice f s) := by
  have hl := afterFrame_length_lt (port := .office) (run := run) (by simp [h])
  rw [← receiveFrames_fuel (run.length + 1) run s (by omega), ← receiveFrames_fuel run.length (afterFrame run) _ hl.le]
  conv_lhs => unfold receiveFrames
  simp only [h]

theorem receiveOffice_fault {run : List Chr} {c : Byte} (h : receiveAt .office run = .fault c) (s : State) :
    receiveOffice run s =
      receiveOffice (afterFrame run) (recordFault .office c { s with line.officeLost := false }) := by
  have hl := afterFrame_length_lt (port := .office) (run := run) (by simp [h])
  rw [← receiveFrames_fuel (run.length + 1) run s (by omega), ← receiveFrames_fuel run.length (afterFrame run) _ hl.le]
  conv_lhs => unfold receiveFrames
  simp only [h]

end Sys2Proof.Machine
end

