-- ==== Sys2Proof/Laws/Work.lean ====
section
/-! SUPPORT. What the part's work in circulation can change (`WorkChange`), and what it keeps whatever state it starts from:
said once for each shared operation of the scheduler, the Dispatch Unit, the Return Inspection Unit, Stock Accounts and the
Day Unit. -/

namespace Sys2Proof.Machine

/-- Everything that work in circulation leaves as it was, and the laws it keeps. -/
structure WorkChange (s t : State) : Prop where
  pending : t.pending = s.pending
  freeIx : t.freeIx = s.freeIx
  seconds : t.scheduler.seconds = s.scheduler.seconds
  line : t.line = { s.line with floorTx := t.line.floorTx, contended := t.line.contended, pollSet := t.line.pollSet }
  agencies : t.records.agencies = s.records.agencies
  mode : t.management.mode = s.management.mode
  geometry : t.management.geometry = s.management.geometry
  capacity : t.management.capacity = s.management.capacity
  settings : t.management.settings = s.management.settings
  mask : t.management.mask = s.management.mask
  windows : t.dispatch.windows = s.dispatch.windows
  channels : t.returns.channels = s.returns.channels
  thresholds : t.returns.thresholds = s.returns.thresholds
  today : t.days.today = s.days.today
  members : t.records.patrons.map (fun e => (e.1, e.2.agency)) = s.records.patrons.map fun e => (e.1, e.2.agency)
  titles : t.records.titles.map Prod.fst = s.records.titles.map Prod.fst
  requests : Table.wf s.requests → Table.wf t.requests
  cons : Table.wf s.assembly.cons → Table.wf t.assembly.cons
  jobs : Table.wf s.scheduler.jobs → Table.wf t.scheduler.jobs
  accounts : AccountsBalanced s → AccountsBalanced t
  held : HeldByLimit s → HeldByLimit t
  floor : s.line.floorTx.length ≤ Config.floorQueuePlaces → t.line.floorTx.length ≤ Config.floorQueuePlaces
  returnQueue : s.returns.queue.length ≤ Config.returnQueuePlaces → t.returns.queue.length ≤ Config.returnQueuePlaces
  manifest : ManifestBounded s → ManifestBounded t

theorem WorkChange.refl (s : State) : WorkChange s s :=
  ⟨rfl, rfl, rfl, rfl, rfl, rfl, rfl, rfl, rfl, rfl, rfl, rfl, rfl, rfl, rfl, rfl, id, id, id, id, id, id, id, id⟩

theorem WorkChange.trans {s t u : State} (h : WorkChange s t) (g : WorkChange t u) : WorkChange s u where
  pending := g.pending.trans h.pending
  freeIx := g.freeIx.trans h.freeIx
  seconds := g.seconds.trans h.seconds
  line := by rw [g.line, h.line]
  agencies := g.agencies.trans h.agencies
  mode := g.mode.trans h.mode
  geometry := g.geometry.trans h.geometry
  capacity := g.capacity.trans h.capacity
  settings := g.settings.trans h.settings
  mask := g.mask.trans h.mask
  windows := g.windows.trans h.windows
  channels := g.channels.trans h.channels
  thresholds := g.thresholds.trans h.thresholds
  today := g.today.trans h.today
  members := g.members.trans h.members
  titles := g.titles.trans h.titles
  requests := g.requests ∘ h.requests
  cons := g.cons ∘ h.cons
  jobs := g.jobs ∘ h.jobs
  accounts := g.accounts ∘ h.accounts
  held := g.held ∘ h.held
  floor := g.floor ∘ h.floor
  returnQueue := g.returnQueue ∘ h.returnQueue
  manifest := g.manifest ∘ h.manifest

theorem WorkChange.foldl {β : Type} (f : State → β → State) (hf : ∀ s b, WorkChange s (f s b)) (l : List β) (s : State) :
    WorkChange s (l.foldl f s) := by
  induction l generalizing s with
  | nil => exact .refl s
  | cons b l ih => exact (hf s b).trans (ih (f s b))

/-! ## Order work is work -/

/-- Tables whose records agree in a key have records that agree in it at every number. -/
theorem Table.get_of_map_eq {α β : Type} {t u : Table α} {key : Nat × α → Nat × β} (hk : ∀ e, (key e).1 = e.1)
    (h : t.map key = u.map key) (k : Nat) :
    (Table.get t k).map (fun a => (key (k, a)).2) = (Table.get u k).map fun a => (key (k, a)).2 := by
  induction t generalizing u with
  | nil =>
    cases u with
    | nil => rfl
    | cons e u => simp at h
  | cons e t ih =>
    cases u with
    | nil => simp at h
    | cons e' u =>
      simp only [List.map_cons, List.cons.injEq] at h
      have h1 : e.1 = e'.1 := by rw [← hk e, ← hk e', h.1]
      simp only [Table.get_cons]
      by_cases hkk : e.1 = k
      · have hkk' : e'.1 = k := h1 ▸ hkk
        simp only [hkk, hkk', if_true, Option.map_some, Option.some.injEq]
        have := congrArg Prod.snd h.1
        obtain ⟨i, a⟩ := e
        obtain ⟨j, b⟩ := e'
        simp only at hkk hkk'
        subst hkk; subst hkk'
        exact this
      · have hkk' : ¬ e'.1 = k := h1 ▸ hkk
        simp only [hkk, hkk', if_false]
        exact ih h.2

theorem heldByLimit_of_key {s t : State} (hp : t.records.patrons.map patronKey = s.records.patrons.map patronKey)
    (hs : t.management.settings = s.management.settings) (h : HeldByLimit s) : HeldByLimit t := by
  intro k p hk
  have key := Table.get_of_map_eq (key := patronKey) (fun _ => rfl) hp k
  rw [hk] at key
  cases hq : Table.get s.records.patrons k with
  | none => rw [hq] at key; simp at key
  | some q =>
    rw [hq] at key
    simp only [patronKey, Option.map_some, Option.some.injEq, Prod.mk.injEq] at key
    rw [hs, key.2.1, key.2.2]
    exact h k q hq

theorem OrderChange.work {s t : State} (h : OrderChange s t) : WorkChange s t where
  pending := h.pending
  freeIx := h.freeIx
  seconds := h.seconds
  line := by rw [h.line]
  agencies := h.agencies
  mode := h.mode
  geometry := h.geometry
  capacity := h.capacity
  settings := h.settings
  mask := h.mask
  windows := by rw [h.dispatch]
  channels := by rw [h.returns]
  thresholds := by rw [h.returns]
  today := by rw [h.days]
  members := by
    have := congrArg (List.map fun e : Nat × Nat × Nat × Bool => (e.1, e.2.1)) h.patrons
    simpa [List.map_map, Function.comp_def, patronKey] using this
  titles := h.titles
  requests := h.requests
  cons := h.cons
  jobs := h.jobs
  accounts := h.accounts
  held := heldByLimit_of_key h.patrons h.settings
  floor := by rw [h.line]; exact id
  returnQueue := by rw [h.returns]; exact id
  manifest := by simp only [ManifestBounded, halfAt, h.dispatch]; exact id

/-! ## Bays, timers and the floor queue -/

theorem WorkChange.modBay (b : Nat) (f : Bay → Bay) (s : State) : WorkChange s (modBay b f s) :=
  ⟨rfl, rfl, rfl, rfl, rfl, rfl, rfl, rfl, rfl, rfl, rfl, rfl, rfl, rfl, rfl, rfl, id, id, id, id, id, id, id, id⟩

theorem WorkChange.toFloor (f : Frame) (ahead : Nat) (s : State) (h : floorRoom ahead s = true) :
    WorkChange s (toFloor f s) := by
  refine ⟨rfl, rfl, rfl, rfl, rfl, rfl, rfl, rfl, rfl, rfl, rfl, rfl, rfl, rfl, rfl, rfl, id, id, id, id, id, ?_, id, id⟩
  intro _
  simp only [floorRoom, decide_eq_true_eq] at h
  simp only [toFloor_floorTx, List.length_append, List.length_singleton]
  omega

theorem WorkChange.pollSet (p : BitVec 64) (s : State) : WorkChange s { s with line.pollSet := p } :=
  ⟨rfl, rfl, rfl, rfl, rfl, rfl, rfl, rfl, rfl, rfl, rfl, rfl, rfl, rfl, rfl, rfl, id, id, id, id, id, id, id, id⟩

theorem joinPoll_work (k : Nat) (s : State) : WorkChange s (joinPoll k s) := by
  unfold joinPoll
  split_ifs
  · exact .refl s
  · exact .pollSet _ s

theorem leavePoll_work (k : Nat) (s : State) : WorkChange s (leavePoll k s) := by
  unfold leavePoll
  split_ifs
  · exact .refl s
  · exact .pollSet _ s

theorem loadTimer_work (b : Nat) (s : State) : WorkChange s (loadTimer b s) := .modBay b _ s

theorem dropOwed_work (b : Nat) (s : State) : WorkChange s (dropOwed b s) := .modBay b _ s

theorem reloadTimer_work (station : Nat) (s : State) : WorkChange s (reloadTimer station s) := by
  unfold reloadTimer
  split
  · exact .refl s
  · split_ifs
    · exact loadTimer_work _ s
    · exact .refl s

/-- A command made for a bay (R78). -/
theorem makeCommand_work (b : Nat) (f : Frame) (s : State) : WorkChange s (makeCommand b f s) := by
  unfold makeCommand
  split_ifs with h
  · exact (WorkChange.toFloor f _ s h).trans (loadTimer_work b _)
  · exact .toFloor f _ s h
  · exact .modBay b _ s

/-! ## Placement and next work -/

theorem placeOn_work (b j : Nat) (s : State) : WorkChange s (placeOn b j s) := by
  unfold placeOn
  split
  · exact .refl s
  · exact ((((((dequeue_change j s).trans (.modJob j _ _)).trans
      (.modAccount _ (fun _ h => ClassAccount.move_balanced h (by simp)) _)).work.trans (.modBay b _ _)).trans
      (loadTimer_work b _))).trans (makeCommand_work b _ _)

theorem preemptOn_work (b j : Nat) (s : State) : WorkChange s (preemptOn b j s) :=
  ((((dequeue_change j s).trans (.modJob j _ _)).work.trans (.modBay b _ _)).trans (loadTimer_work b _)).trans
    (makeCommand_work b _ _)

theorem tryPlace_work (s : State) (j : Nat) : WorkChange s (tryPlace s j) := by
  unfold tryPlace
  split
  · exact .refl s
  · split_ifs
    · exact (OrderChange.latch _ _ s).work
    · split
      · exact placeOn_work _ _ s
      · split
        · exact preemptOn_work _ _ s
        · exact .refl s

/-- A placement pass (R80). -/
theorem placementPass_work (s : State) : WorkChange s (placementPass s) := .foldl _ tryPlace_work _ s

theorem WorkChange.passDue (b : Bool) (s : State) : WorkChange s { s with passDue := b } :=
  ⟨rfl, rfl, rfl, rfl, rfl, rfl, rfl, rfl, rfl, rfl, rfl, rfl, rfl, rfl, rfl, rfl, id, id, id, id, id, id, id, id⟩

/-- The end of a step (R80). -/
theorem settle_work (s : State) : WorkChange s (settle s) := by
  unfold settle
  split_ifs
  · exact (placementPass_work s).trans (.passDue _ _)
  · exact .refl s

/-- After a step no placement pass is owed. -/
theorem settle_noPass (s : State) : NoPassOwed (settle s) := by
  unfold settle NoPassOwed
  split_ifs with h
  · rfl
  · simpa using h

@[simp] theorem settle_of_noPass {s : State} (h : NoPassOwed s) : settle s = s := by
  unfold NoPassOwed at h
  simp [settle, h]

theorem chooseWork_work (b fl : Nat) (jobs : List Nat) (s : State) : WorkChange s (chooseWork b fl jobs s).2 := by
  induction jobs generalizing s with
  | nil => exact .refl s
  | cons j rest ih =>
    unfold chooseWork
    split
    · exact ih s
    · split_ifs
      · exact (OrderChange.latch _ _ s).work.trans (ih _)
      · exact .refl s
      · exact ih s

theorem resumeOn_work (b j : Nat) (s : State) : WorkChange s (resumeOn b j s) := by
  unfold resumeOn
  split
  · exact .refl s
  · exact (((OrderChange.modJob j _ s).work.trans (.modBay b _ _)).trans (loadTimer_work b _)).trans
      (makeCommand_work b _ _)

theorem idleBay_work (b : Nat) (s : State) : WorkChange s (idleBay b s) :=
  (WorkChange.modBay b _ s).trans (OrderChange.owePass _).work

/-- The choice of a bay's next work (R92). -/
theorem nextWork_work (b : Nat) (s : State) : WorkChange s (nextWork b s) := by
  unfold nextWork
  split
  · next top _ _ =>
    have hc := chooseWork_work b (priorityOf s top + 1) (placementOrder s) s
    split
    · next j s' hw => rw [hw] at hc; exact hc.trans (placeOn_work _ _ _)
    · next s' hw => rw [hw] at hc; exact hc.trans (resumeOn_work _ _ _)
  · have hc := chooseWork_work b 0 (placementOrder s) s
    split
    · next j s' hw => rw [hw] at hc; exact hc.trans (placeOn_work _ _ _)
    · next s' hw => rw [hw] at hc; exact hc.trans (idleBay_work _ _)

/-- The load of a pending pre-emptor (R87). -/
theorem loadPreemptor_work (b : Nat) (s : State) : WorkChange s (loadPreemptor b s) := by
  unfold loadPreemptor
  simp only
  split
  · exact (WorkChange.modBay b _ s).trans (nextWork_work b _)
  · split_ifs
    · exact (((WorkChange.modBay b _ s).trans (OrderChange.latch _ _ _).work).trans (queueHead_change _ _).work).trans
        (nextWork_work b _)
    · exact (WorkChange.modBay b _ s).trans (placeOn_work _ _ _)

/-! ## The Dispatch Unit -/

/-- An update of the ready queue alone. -/
theorem WorkChange.ready (q : List Nat) (s : State) : WorkChange s { s with dispatch.ready := q } :=
  ⟨rfl, rfl, rfl, rfl, rfl, rfl, rfl, rfl, rfl, rfl, rfl, rfl, rfl, rfl, rfl, rfl, id, id, id, id, id, id, id, id⟩

theorem WorkChange.blocked (b : U32) (s : State) : WorkChange s { s with dispatch.blocked := b } :=
  ⟨rfl, rfl, rfl, rfl, rfl, rfl, rfl, rfl, rfl, rfl, rfl, rfl, rfl, rfl, rfl, rfl, id, id, id, id, id, id, id, id⟩

/-- The bound of R106 in the Dispatch Unit's own terms. -/
def dispatchBounded (d : DispatchUnit) : Prop :=
  d.outstanding.length ≤ 4 ∧ (if d.filling then d.half1 else d.half0).length + d.outstanding.length ≤ 64 ∧
    (if d.filling then d.half0 else d.half1).length ≤ 64

theorem manifestBounded_iff (s : State) : ManifestBounded s ↔ dispatchBounded s.dispatch := by
  cases h : s.dispatch.filling <;>
    simp [ManifestBounded, dispatchBounded, halfAt, h, Config.maxReleases, Config.manifestHalfPlaces]

/-- A dispatch update that keeps the windows and the manifest bound. -/
theorem WorkChange.dispatch (d : DispatchUnit) (s : State) (hw : d.windows = s.dispatch.windows)
    (h : dispatchBounded s.dispatch → dispatchBounded d) : WorkChange s { s with dispatch := d } := by
  have h : ManifestBounded s → ManifestBounded { s with dispatch := d } := by
    intro g; rw [manifestBounded_iff] at g ⊢; exact h g
  exact
  ⟨rfl, rfl, rfl, rfl, rfl, rfl, rfl, rfl, rfl, rfl, hw, rfl, rfl, rfl, rfl, rfl, id, id, id, id, id, id, id, h⟩

theorem releaseOne_work (ahead k : Nat) (c : Consignment) (s : State) (h : releaseOpen ahead s = true) :
    WorkChange s (releaseOne k c s) := by
  simp only [releaseOpen, Bool.and_eq_true, decide_eq_true_eq, slotFree] at h
  obtain ⟨⟨⟨h1, h2⟩, _⟩, h4⟩ := h
  unfold releaseOne
  simp only
  refine WorkChange.trans (WorkChange.trans (WorkChange.dispatch { s.dispatch with
      outstanding := s.dispatch.outstanding ++
        [Release.mk k (windowAt s c.window).chute (windowAt s c.window).mailClass] } s rfl ?_) (OrderChange.modCons k _ _).work)
    (WorkChange.toFloor _ ahead _ ?_)
  · rintro ⟨g1, g2, g3⟩
    simp only [dispatchBounded, List.length_append, List.length_singleton]
    simp only [halfAt, Config.maxReleases, Config.manifestHalfPlaces] at h1 h2
    omega
  · exact h4

theorem releaseUpTo_work (n ahead : Nat) (s : State) : WorkChange s (releaseUpTo n ahead s) := by
  induction n generalizing s with
  | zero => exact .refl s
  | succ m ih =>
    unfold releaseUpTo
    split_ifs with h
    · split
      · exact .refl s
      · split
        · exact .refl s
        · exact (releaseOne_work ahead _ _ s h).trans (ih _)
    · exact .refl s

/-- A release pass (R108). -/
theorem releasePassWith_work (ahead : Nat) (s : State) : WorkChange s (releasePassWith ahead s) := releaseUpTo_work _ _ s

theorem passReleases_work (s : State) : WorkChange s (passReleases s) := releasePassWith_work _ s

/-- *Consignment ready* (R105). -/
theorem consignmentReady_work (k : Nat) (s : State) : WorkChange s (consignmentReady k s) :=
  ((WorkChange.ready _ s).trans (OrderChange.modCons k _ _).work).trans (passReleases_work _)

theorem releaseOf_mem {s : State} {k : Nat} {c : Consignment} {r : Release} (h : releaseOf s k = some (c, r)) :
    r ∈ s.dispatch.outstanding ∧ r.consignment = k := by
  unfold releaseOf at h
  split at h
  · next c' r' _ hr =>
    split_ifs at h
    cases h
    exact ⟨List.mem_of_find?_eq_some hr, by simpa using List.find?_some hr⟩
  · cases h

theorem dropRelease_length {s : State} {k : Nat} {c : Consignment} {r : Release} (h : releaseOf s k = some (c, r)) :
    (dropRelease k s).dispatch.outstanding.length + 1 ≤ s.dispatch.outstanding.length := by
  obtain ⟨hm, hk⟩ := releaseOf_mem h
  have : (s.dispatch.outstanding.filter fun x => decide (x.consignment ≠ k)).length < s.dispatch.outstanding.length := by
    apply List.length_filter_lt_length_iff_exists.mpr
    exact ⟨r, hm, by simp [hk]⟩
  exact this

theorem dropRelease_work (k : Nat) (s : State) : WorkChange s (dropRelease k s) := by
  unfold dropRelease
  refine .dispatch { s.dispatch with
    outstanding := s.dispatch.outstanding.filter fun r => decide (r.consignment ≠ k) } s rfl ?_
  rintro ⟨h1, h2, h3⟩
  have hl := List.length_filter_le (fun r : Release => decide (r.consignment ≠ k)) s.dispatch.outstanding
  exact ⟨le_trans hl h1, le_trans (Nat.add_le_add_left hl _) h2, h3⟩

theorem switchHalf_work (s : State) : WorkChange s (switchHalf s) := by
  unfold switchHalf
  simp only
  split_ifs with h1 h2
  · refine (WorkChange.dispatch { s.dispatch with filling := !s.dispatch.filling } s rfl ?_).trans (OrderChange.latch _ _ _).work
    rintro ⟨g1, g2, g3⟩
    cases hf : s.dispatch.filling <;>
      simp_all [dispatchBounded, halfAt, Config.manifestHalfPlaces]
  · exact (OrderChange.latch _ _ s).work
  · exact .refl s

theorem postConsignment_work {k : Nat} {c : Consignment} {r : Release} {s : State} (h : releaseOf s k = some (c, r)) :
    WorkChange s (postConsignment k c r s) := by
  have hl := dropRelease_length h
  unfold postConsignment
  simp only
  refine ((WorkChange.trans ?_ (OrderChange.modCons k _ _).work).trans (.ready _ _)).trans (switchHalf_work _)
  have hd : ∃ d : DispatchUnit, dropRelease k (setHalf s.dispatch.filling
      (halfAt s s.dispatch.filling ++ [manifestRecordOf s k c r]) s) = { s with dispatch := d } ∧
      d.windows = s.dispatch.windows ∧ (dispatchBounded s.dispatch → dispatchBounded d) := by
    cases hf : s.dispatch.filling
    · refine ⟨_, rfl, rfl, ?_⟩
      rintro ⟨g1, g2, g3⟩
      simp only [hf, Bool.false_eq_true, if_false] at g2 g3
      simp only [dispatchBounded, hf, setHalf, halfAt, Bool.false_eq_true, if_false, List.length_append,
        List.length_singleton]
      simp only [dropRelease] at hl
      omega
    · refine ⟨_, rfl, rfl, ?_⟩
      rintro ⟨g1, g2, g3⟩
      simp only [hf, if_true] at g2 g3
      simp only [dispatchBounded, hf, setHalf, halfAt, if_true, List.length_append, List.length_singleton]
      simp only [dropRelease] at hl
      omega
  obtain ⟨d, e, hw, hd⟩ := hd
  rw [e]
  exact .dispatch d s hw hd

theorem takeChuted_work (k : Nat) (s : State) : WorkChange s (takeChuted k s) := by
  unfold takeChuted
  split
  · exact .refl s
  · next c r h => exact (postConsignment_work h).trans (passReleases_work _)

theorem takeChuteFull_work (k chute : Nat) (s : State) : WorkChange s (takeChuteFull k chute s) := by
  unfold takeChuteFull
  split
  · exact .refl s
  · exact ((((dropRelease_work k s).trans (OrderChange.modCons k _ _).work).trans (.ready _ _)).trans
      (.blocked _ _)).trans (passReleases_work _)

theorem takeChuteClear_work (chute : Nat) (s : State) : WorkChange s (takeChuteClear chute s) := by
  unfold takeChuteClear
  split_ifs
  · exact (WorkChange.blocked _ s).trans (passReleases_work _)
  · exact .refl s

theorem cancelReleases_work (s : State) : WorkChange s (cancelReleases s) := by
  unfold cancelReleases
  refine ⟨rfl, rfl, rfl, rfl, rfl, rfl, rfl, rfl, rfl, rfl, rfl, rfl, rfl, rfl, rfl, rfl, id, ?_, id, id, id, id, id, ?_⟩
  · intro h
    have e : (s.assembly.cons.map fun e =>
        if e.2.state = .releasing then (e.1, { e.2 with state := .ready }) else e).map Prod.fst =
        s.assembly.cons.map Prod.fst := by
      rw [List.map_map]
      apply List.map_congr_left
      intro e _
      simp only [Function.comp]
      split_ifs <;> rfl
    simpa only [Table.wf, e] using h
  · intro g
    rw [manifestBounded_iff] at g ⊢
    obtain ⟨g1, g2, g3⟩ := g
    exact ⟨Nat.zero_le _, le_trans (Nat.add_le_add_left (Nat.zero_le _) _) g2, g3⟩

end Sys2Proof.Machine
end

