-- ==== Sys2Proof/Laws/Units.lean ====
section
/-! SUPPORT. `WorkChange` for the operations of the bays, the pick protocol, returns, stock and days: each is said once, and the
meanings that use them are covered by it. -/

namespace Sys2Proof.Machine

/-! ## Bays -/

theorem jobDone_work (k : Nat) (serial : U32) (s : State) : WorkChange s (jobDone k serial s) :=
  (OrderChange.modCons k _ s).work.trans (consignmentReady_work k _)

theorem jobFailed_change (k : Nat) (s : State) : OrderChange s (jobFailed k s) := by
  unfold jobFailed
  split
  · exact .refl s
  · exact (freeConsignment_change k s).trans (handOver_change _ _ _)

/-- A job fails (R91). -/
theorem failJob_change (j : Nat) (s : State) : OrderChange s (failJob j s) := by
  unfold failJob
  split
  · exact .refl s
  · simp only
    refine OrderChange.trans ?_ (freeJob_change j _)
    split_ifs
    · exact (OrderChange.latch _ _ s).trans (jobFailed_change _ _)
    · exact .latch _ _ s

theorem forgetCartridge_change (j : Nat) (s : State) : OrderChange s (forgetCartridge j s) := .modJob j _ s

theorem retryJob_change (j : Nat) (s : State) : OrderChange s (retryJob j s) := by
  unfold retryJob
  split
  · exact .refl s
  · split_ifs
    · exact failJob_change j s
    · exact (OrderChange.modJob j _ s).trans (queueHead_change j _)

theorem moveReserved_change (j : Nat) (dst : Place) (s : State) : OrderChange s (moveReserved j dst s) := by
  unfold moveReserved
  split
  · exact .refl s
  · exact .modAccount _ (fun _ h => ClassAccount.move_balanced h (by simp)) s

theorem requeue_change (j : Nat) (s : State) : OrderChange s (requeue j s) :=
  (forgetCartridge_change j s).trans (queueHead_change j _)

/-- A bay's jobs are put back (R96, R100). -/
theorem putBackJobs_work (b : Nat) (s : State) : WorkChange s (putBackJobs b s) := by
  unfold putBackJobs
  simp only
  refine WorkChange.trans (OrderChange.work ?_) (.modBay b _ _)
  have h := (OrderChange.foldl (fun s j => moveReserved j .repair s) (fun s j => moveReserved_change j .repair s)
    (heldJobs (bayAt s b)) s).trans (OrderChange.foldl (fun s j => requeue j s) (fun s j => requeue_change j s)
    (heldJobs (bayAt s b)) _)
  split_ifs
  · exact h
  · exact h.trans (requeue_change _ _)

theorem bringOnline_work (b : Nat) (s : State) : WorkChange s (bringOnline b s) :=
  ((WorkChange.modBay b _ s).trans (joinPoll_work _ _)).trans (OrderChange.owePass _).work

theorem takeOffline_work (b : Nat) (s : State) : WorkChange s (takeOffline b s) := by
  unfold takeOffline
  simp only
  exact ((((((dropOwed_work b s).trans (.foldl _ (fun s j => makeCommand_work b _ s) _ _)).trans
    (putBackJobs_work b _)).trans (.modBay b _ _)).trans (leavePoll_work _ _)).trans (OrderChange.owePass _).work)

theorem raiseTo3_change (j : Nat) (job : Job) (s : State) : OrderChange s (raiseTo3 j job s) := by
  unfold raiseTo3
  split
  · exact ((dequeue_change j s).trans (.modJob j _ _)).trans (queueTail_change j _)
  all_goals exact (OrderChange.modJob j _ s).trans (.owePass _)

theorem takeStarted_work (j : Nat) (serial : U32) (b : Nat) (s : State) : WorkChange s (takeStarted j serial b s) := by
  unfold takeStarted
  simp only
  split_ifs
  · split
    · exact ((OrderChange.modJob j _ s).work.trans (dropOwed_work b _)).trans (.modBay b _ _)
    · exact (OrderChange.modJob j _ s).work
    all_goals exact .refl s
  · exact .refl s

theorem takeProgress_work (j blocks b : Nat) (s : State) : WorkChange s (takeProgress j blocks b s) := by
  unfold takeProgress
  split_ifs
  · exact (OrderChange.modJob j _ s).work
  · exact .refl s

theorem takeParked_work (j offset b : Nat) (s : State) : WorkChange s (takeParked j offset b s) := by
  unfold takeParked
  split_ifs
  · exact (((OrderChange.modJob j _ s).work.trans (dropOwed_work b _)).trans (.modBay b _ _)).trans (loadPreemptor_work b _)
  · exact .refl s

theorem afterJob_work (b : Nat) (s : State) : WorkChange s (afterJob b s) := by
  unfold afterJob
  simp only
  refine WorkChange.trans ?_ (OrderChange.owePass _).work
  split_ifs
  · exact ((WorkChange.modBay b _ s).trans (dropOwed_work b _)).trans (loadPreemptor_work b _)
  · exact ((WorkChange.modBay b _ s).trans (dropOwed_work b _)).trans (nextWork_work b _)

theorem copyPassed_work (j : Nat) (job : Job) (serial : U32) (s : State) : WorkChange s (copyPassed j job serial s) := by
  unfold copyPassed
  split
  · exact ((moveReserved_change j _ s).work.trans (jobDone_work _ _ _)).trans (freeJob_change j _).work
  · split_ifs
    · unfold stockPassed
      simp only
      split_ifs
      · exact ((((moveReserved_change j .shelf s).trans (.modTitle _ _ _)).trans (copyFreed_change _ _)).trans
          (freeJob_change j _)).work
      · exact (((((moveReserved_change j .shelf s).trans (.modTitle _ _ _)).trans (copyFreed_change _ _)).trans
          (.modJob j _ _)).trans (queueTail_change j _)).work
    · exact ((moveReserved_change j _ s).trans (freeJob_change j _)).work

theorem copyFailed_change (j : Nat) (s : State) : OrderChange s (copyFailed j s) :=
  ((moveReserved_change j _ s).trans (forgetCartridge_change j _)).trans (retryJob_change j _)

/-- COPY_DONE at a bay (R88). -/
theorem takeCopyDone_work (j : Nat) (serial : U32) (result b : Nat) (s : State) :
    WorkChange s (takeCopyDone j serial result b s) := by
  unfold takeCopyDone
  split
  · exact .refl s
  · split_ifs
    · exact (copyPassed_work _ _ _ s).trans (afterJob_work b _)
    · exact (copyFailed_change j s).work.trans (afterJob_work b _)
    · exact .refl s

/-- A bay faults (R94, R95). -/
theorem faultBay_work (b : Nat) (cause : BayCause) (s : State) : WorkChange s (faultBay b cause s) := by
  unfold faultBay
  simp only
  have h := (OrderChange.foldl (fun s j => moveReserved j .repair s) (fun s j => moveReserved_change j .repair s)
    (heldJobs (bayAt s b)) s).trans (OrderChange.foldl (fun s j => retryJob j (forgetCartridge j s))
    (fun s j => (forgetCartridge_change j s).trans (retryJob_change j _)) (heldJobs (bayAt s b)) _)
  refine WorkChange.trans ?_ (OrderChange.owePass _).work
  refine WorkChange.trans ?_ (OrderChange.latch _ _ _).work
  refine WorkChange.trans ?_ (leavePoll_work _ _)
  refine WorkChange.trans ?_ (dropOwed_work b _)
  refine WorkChange.trans ?_ (.modBay b _ _)
  refine WorkChange.trans (OrderChange.work ?_) (.modBay b _ _)
  split_ifs
  · exact h
  · exact h.trans (queueHead_change _ _)

theorem takeBayFault_work (code : Byte) (b : Nat) (s : State) : WorkChange s (takeBayFault code b s) := by
  unfold takeBayFault
  split_ifs
  · exact faultBay_work b _ s
  · exact .refl s

/-! ## Picks -/

theorem handPick_work (ahead : Nat) (s : State) : WorkChange s (handPick ahead s) := by
  unfold handPick
  split
  · exact .refl s
  · split_ifs with h
    · refine WorkChange.trans (t := { s with assembly.picks := _, assembly.picksSent := _ }) ?_ (.toFloor _ ahead _ h.2)
      exact ⟨rfl, rfl, rfl, rfl, rfl, rfl, rfl, rfl, rfl, rfl, rfl, rfl, rfl, rfl, rfl, rfl, id, id, id, id, id, id, id, id⟩
    · exact .refl s

theorem handPicks_work (n : Nat) (s : State) : WorkChange s (handPicks n s) := by
  induction n generalizing s with
  | zero => exact .refl s
  | succ m ih => exact (handPick_work _ s).trans (ih _)

theorem rebuildPicks_change (s : State) : OrderChange s (rebuildPicks s) :=
  ⟨rfl, rfl, rfl, rfl, rfl, rfl, rfl, rfl, rfl, rfl, rfl, rfl, rfl, rfl, rfl, rfl, id, id, id, id⟩

theorem endPick_change (k : Nat) (s : State) : OrderChange s (endPick k s) := by
  unfold endPick
  split_ifs
  all_goals exact ⟨rfl, rfl, rfl, rfl, rfl, rfl, rfl, rfl, rfl, rfl, rfl, rfl, rfl, rfl, rfl, rfl, id, id, id, id⟩

theorem takePicked_work (k : Nat) (serial : U32) (s : State) : WorkChange s (takePicked k serial s) := by
  unfold takePicked
  split
  · exact .refl s
  · exact ((endPick_change k s).trans (.foldl _ (fun s k => .modCons k _ s) _ _)).work.trans
      (.foldl _ (fun s k => consignmentReady_work k s) _ _)

theorem writeOffCopy_change (c : Consignment) (title : Nat) (s : State) : OrderChange s (writeOffCopy c title s) := by
  unfold writeOffCopy
  simp only
  split_ifs
  · exact (OrderChange.modTitle _ _ s).trans (.modAccount _ (fun _ h => ClassAccount.writeOff_balanced h (by simp)) _)
  · exact .modTitle _ _ s

theorem takeNotFound_change (k : Nat) (s : State) : OrderChange s (takeNotFound k s) := by
  unfold takeNotFound
  split
  · exact .refl s
  · exact ((((endPick_change k s).trans (writeOffCopy_change _ _ _)).trans (freeAll_change _ _)).trans
      (handOver_change _ _ _)).trans (.latch _ _ _)

/-! ## Held (R171) -/

/-- A change of a patron's overdue count, followed by the evaluation of its held state. -/
theorem evaluateHeld_after (k : Nat) (f : Patron → Patron) (hf : ∀ p, (f p).agency = p.agency) (s : State) :
    WorkChange s (evaluateHeld k (modPatron k f s)) := by
  unfold evaluateHeld
  cases hp : Table.get (modPatron k f s).records.patrons k with
  | none =>
    rw [modPatron_patrons, Table.get_modify_same] at hp
    have hs : Table.get s.records.patrons k = none := by simpa using hp
    simp only
    refine ⟨rfl, rfl, rfl, rfl, rfl, rfl, rfl, rfl, rfl, rfl, rfl, rfl, rfl, rfl, ?_, rfl, id, id, id, id, ?_, id, id, id⟩
    · simp only [modPatron_patrons, Table.modify, List.map_map]
      apply List.map_congr_left
      intro e _
      simp only [Function.comp]
      split_ifs <;> simp [hf]
    · intro h j q hq
      rw [modPatron_patrons] at hq
      by_cases hj : j = k
      · subst hj; rw [Table.get_modify_same, hs] at hq; cases hq
      · rw [Table.get_modify_other _ _ hj] at hq; exact h j q hq
  | some p =>
    simp only
    have base : WorkChange s (modPatron k (fun x => { x with
        held := decide (s.management.settings.holdLimit ≠ 0 ∧ s.management.settings.holdLimit ≤ p.overdue) })
        (modPatron k f s)) := by
      refine ⟨rfl, rfl, rfl, rfl, rfl, rfl, rfl, rfl, rfl, rfl, rfl, rfl, rfl, rfl, ?_, rfl, id, id, id, id, ?_, id, id, id⟩
      · simp only [modPatron_patrons, Table.modify, List.map_map]
        apply List.map_congr_left
        intro e _
        simp only [Function.comp]
        split_ifs <;> simp_all
      · intro h j q hq
        rw [modPatron_patrons] at hq
        by_cases hj : j = k
        · subst hj
          rw [Table.get_modify_same, hp] at hq
          simp only [Option.map_some, Option.some.injEq] at hq
          subst hq
          rfl
        · rw [Table.get_modify_other _ _ hj, modPatron_patrons, Table.get_modify_other _ _ hj] at hq
          exact h j q hq
    split_ifs
    · exact base.trans (headroom_change _ _).work
    · exact base

/-- *Set closed overdue* (R172). -/
theorem setClosedOverdue_work (k : Nat) (s : State) : WorkChange s (setClosedOverdue k s) :=
  evaluateHeld_after k _ (by intro; rfl) s

/-! ## Returns -/

/-- An update of the return unit that keeps the channels, the thresholds and the queue bound. -/
theorem WorkChange.returns (u : ReturnUnit) (s : State) (hc : u.channels = s.returns.channels)
    (ht : u.thresholds = s.returns.thresholds)
    (hq : s.returns.queue.length ≤ Config.returnQueuePlaces → u.queue.length ≤ Config.returnQueuePlaces) :
    WorkChange s { s with returns := u } :=
  ⟨rfl, rfl, rfl, rfl, rfl, rfl, rfl, rfl, rfl, rfl, rfl, hc, ht, rfl, rfl, rfl, id, id, id, id, id, id, hq, id⟩

theorem startInspection_work (s : State) : WorkChange s (startInspection s) := by
  unfold startInspection
  split
  · exact .refl s
  · next i rest h =>
    split_ifs
    · refine .returns { s.returns with queue := rest, item := some i } s rfl rfl ?_
      rw [h]
      simp only [List.length_cons]
      omega
    · exact .refl s

theorem makeAnswer_work (f : Frame) (s : State) : WorkChange s (makeAnswer f s) := by
  unfold makeAnswer
  split_ifs with h
  · exact .toFloor f _ s h
  · exact .returns { s.returns with owedAnswer := some f } s rfl rfl id

theorem takeReturnItem_work (i : ReturnItem) (s : State) : WorkChange s (takeReturnItem i s) := by
  unfold takeReturnItem
  split_ifs with h1 h2
  · exact .refl s
  · refine WorkChange.trans (WorkChange.trans ?_ (makeAnswer_work _ _)) (startInspection_work _)
    refine .returns { s.returns with queue := s.returns.queue ++ [i] } s rfl rfl ?_
    intro _
    simp only [List.length_append, List.length_singleton]
    omega
  · exact (makeAnswer_work _ s).trans (startInspection_work _)

/-- What comparing channels can change is the hit sets and the stored readings. -/
theorem recordChannel_keeps (i : ReturnItem) (w : Nat) (u : ReturnUnit) (c : Nat) :
    (recordChannel i w u c).channels = u.channels ∧ (recordChannel i w u c).thresholds = u.thresholds ∧
      (recordChannel i w u c).queue = u.queue := by
  have hr : ∀ h, (recordHit c h u).channels = u.channels ∧ (recordHit c h u).thresholds = u.thresholds ∧
      (recordHit c h u).queue = u.queue := by
    intro h; cases h <;> exact ⟨rfl, rfl, rfl⟩
  unfold recordChannel
  split
  · exact ⟨rfl, rfl, rfl⟩
  · split_ifs
    · exact hr _
    · exact hr _

theorem recordChannels_keeps (i : ReturnItem) (w : Nat) (u : ReturnUnit) :
    (recordChannels i w u).channels = u.channels ∧ (recordChannels i w u).thresholds = u.thresholds ∧
      (recordChannels i w u).queue = u.queue := by
  unfold recordChannels
  generalize List.range 16 = l
  induction l generalizing u with
  | nil => exact ⟨rfl, rfl, rfl⟩
  | cons c l ih =>
    have h := recordChannel_keeps i w u c
    have g := ih (recordChannel i w u c)
    exact ⟨g.1.trans h.1, g.2.1.trans h.2.1, g.2.2.trans h.2.2⟩

theorem closeLines_change (k : Nat) (c : Consignment) (s : State) : OrderChange s (closeLines k c s) :=
  (OrderChange.modCons k _ s).trans (.foldl _ (fun s _ => .modTitle _ _ s) _ _)

theorem linesClosed_change (patron n : Nat) (s : State) : OrderChange s (linesClosed patron n s) :=
  .modPatron _ (by intro; exact ⟨rfl, rfl, rfl⟩) s

theorem closeMark_work (c : Consignment) (s : State) : WorkChange s (closeMark c s) := by
  unfold closeMark
  split_ifs
  · exact setClosedOverdue_work _ s
  · exact .refl s

/-- The close of a loan (R139). -/
theorem closeLoan_work (k : Nat) (c : Consignment) (move : State → State) (hm : ∀ s, OrderChange s (move s))
    (freed : Option Nat) (s : State) : WorkChange s (closeLoan k c move freed s) := by
  unfold closeLoan
  simp only
  refine WorkChange.trans ?_ (headroom_change _ _).work
  have h := (((closeLines_change k c s).trans (linesClosed_change c.patron (openLines c).length _)).trans (hm _)).work.trans
    (closeMark_work c _)
  split
  · exact h
  · exact h.trans (copyFreed_change _ _).work

theorem movePack_change (cls : Nat) (v : Verdict) (s : State) : OrderChange s (movePack cls v s) := by
  unfold movePack
  have hm : ∀ dst, OrderChange s (modAccount cls (ClassAccount.move .consigned dst 1) s) := fun dst =>
    .modAccount _ (fun _ h => ClassAccount.move_balanced h (by simp)) s
  split
  · exact (hm _).trans (.owePass _)
  · exact (hm _).trans (.owePass _)
  · exact hm _
  · exact .modAccount _ (fun _ h => ClassAccount.writeOff_balanced h (by simp)) s

theorem moveCopy_change (title : Nat) (v : Verdict) (s : State) : OrderChange s (moveCopy title v s) := by
  unfold moveCopy
  split <;> exact .modTitle _ _ s

theorem moveShelfCartridge_change (cls : Nat) (v : Verdict) (s : State) : OrderChange s (moveShelfCartridge cls v s) := by
  unfold moveShelfCartridge
  split
  · exact .modAccount _ (fun _ h => ClassAccount.move_balanced h (by simp)) s
  · exact .modAccount _ (fun _ h => ClassAccount.move_balanced h (by simp)) s
  · exact .modAccount _ (fun _ h => ClassAccount.toBoundRepair_balanced h) s
  · exact .modAccount _ (fun _ h => ClassAccount.writeOff_balanced h (by simp)) s

theorem countPart_change (h : Nat) (v : Verdict) (s : State) : OrderChange s (countPart h v s) := .modCons h _ s

theorem completeSet_work (h : Nat) (head : Consignment) (v : Verdict) (s : State) :
    WorkChange s (completeSet h head v s) := closeLoan_work _ _ _ (fun s => moveCopy_change _ v s) _ s

/-- The disposition of a matched consignment (R139 to R143). -/
theorem dispose_work (k : Nat) (c : Consignment) (v : Verdict) (s : State) : WorkChange s (dispose k c v s).1 := by
  unfold dispose
  split
  · exact (closeLoan_work _ _ _ (fun s => movePack_change _ v s) _ s).trans (freeConsignment_change _ _).work
  · exact (closeLoan_work _ _ _ (fun s => (moveCopy_change _ v s).trans (moveShelfCartridge_change _ v _)) _ s).trans
      (freeConsignment_change _ _).work
  · unfold disposeBraille
    split
    · exact (freeConsignment_change _ _).work
    · split_ifs
      · exact ((countPart_change _ _ s).trans (.modCons _ _ _)).work
      · exact ((countPart_change _ _ s).trans (freeConsignment_change _ _)).work
      · exact ((countPart_change _ _ s).work.trans (completeSet_work _ _ _ _)).trans (freeAll_change _ _).work
      · exact ((countPart_change _ _ s).work.trans (completeSet_work _ _ _ _)).trans (freeAll_change _ _).work

/-- Disposing of an item hands nothing to the floor. -/
theorem OrderChange.floorTx {s t : State} (h : OrderChange s t) : t.line.floorTx = s.line.floorTx := by rw [h.line]

theorem finishInspection_work (s : State) : WorkChange s (finishInspection s) := by
  unfold finishInspection
  split_ifs
  · exact .returns { s.returns with item := none, suspendPending := false, suspended := true } s rfl rfl id
  · exact (WorkChange.returns { s.returns with item := none } s rfl rfl id).trans (startInspection_work _)

theorem abandonReturns_work (s : State) : WorkChange s (abandonReturns s) := by
  unfold abandonReturns
  exact .returns { s.returns with item := none, queue := [], owedAnswer := none,
                                  suspended := s.returns.suspended || s.returns.suspendPending,
                                  suspendPending := false } s rfl rfl (fun _ => Nat.zero_le _)

/-! ## Stock -/

theorem addCopies_change (title n : Nat) (t : Title) (s : State) : OrderChange s (addCopies title n t s) := by
  unfold addCopies
  simp only
  split_ifs
  · exact (OrderChange.modTitle _ _ s).trans (.modAccount _ (fun _ h => ClassAccount.add_balanced h) _)
  · exact .modTitle _ _ s

theorem mendCopies_change (title n : Nat) (t : Title) (s : State) : OrderChange s (mendCopies title n t s) := by
  unfold mendCopies
  simp only
  split_ifs
  · exact (OrderChange.modTitle _ _ s).trans (.modAccount _ (fun _ h => ClassAccount.boundToShelf_balanced h) _)
  · exact .modTitle _ _ s

theorem retireCopies_change (title n : Nat) (t : Title) (s : State) : OrderChange s (retireCopies title n t s) := by
  unfold retireCopies
  simp only
  split_ifs
  · exact (OrderChange.modTitle _ _ s).trans (.modAccount _ (fun _ h => ClassAccount.retireBound_balanced h) _)
  · exact .modTitle _ _ s

theorem loseItem_change (c : Consignment) (s : State) : OrderChange s (loseItem c s) := by
  unfold loseItem
  split
  · exact movePack_change _ _ s
  · exact (moveCopy_change _ _ s).trans (moveShelfCartridge_change _ _ _)
  · exact moveCopy_change _ _ s

/-- DECLARE_LOST (R159, R160). -/
theorem loseLoan_work (k : Nat) (c : Consignment) (s : State) : WorkChange s (loseLoan k c s) := by
  unfold loseLoan
  simp only
  exact (((((closeLines_change k c s).trans (loseItem_change c _)).trans (linesClosed_change _ _ _)).work.trans
    (closeMark_work c _)).trans (freeAll_change _ _).work).trans (headroom_change _ _).work

theorem losePart_work (k : Nat) (c : Consignment) (s : State) : WorkChange s (losePart k c s) := by
  unfold losePart
  split
  · exact (freeConsignment_change _ _).work
  · simp only
    have h := ((countPart_change c.head .retire s).trans (freeConsignment_change k _)).work
    split_ifs
    · exact h
    · exact (h.trans (completeSet_work _ _ _ _)).trans (freeConsignment_change _ _).work

/-! ## Days -/

/-- An update of the sweep that leaves today as it is. -/
theorem WorkChange.days (d : DayUnit) (s : State) (h : d.today = s.days.today) : WorkChange s { s with days := d } :=
  ⟨rfl, rfl, rfl, rfl, rfl, rfl, rfl, rfl, rfl, rfl, rfl, rfl, rfl, h, rfl, rfl, id, id, id, id, id, id, id, id⟩

theorem markOverdue_work (k : Nat) (c : Consignment) (s : State) : WorkChange s (markOverdue k c s) := by
  unfold markOverdue
  exact ((WorkChange.days { s.days with marked := s.days.marked + 1 } s rfl).trans (OrderChange.modCons k _ _).work).trans
    (evaluateHeld_after _ _ (by intro; rfl) _)

/-- One examination of a sweep (R167, R168). -/
theorem examineRecord_work (k : Nat) (s : State) : WorkChange s (examineRecord k s) := by
  unfold examineRecord
  split
  · exact .refl s
  · split_ifs
    · exact markOverdue_work _ _ s
    · exact (WorkChange.days { s.days with sealedCount := s.days.sealedCount + 1 } s rfl).trans (sealPack_change k _).work
    · exact .refl s

theorem advanceSweep_work (s : State) : WorkChange s (advanceSweep s) := by
  unfold advanceSweep
  split_ifs
  · exact (OrderChange.latch .sweepDone s.days.marked s).work.trans
      (.days { s.days with sweeping := false, position := 0 } (latch .sweepDone s.days.marked s) rfl)
  · exact .days { s.days with position := s.days.position + 1 } s rfl

end Sys2Proof.Machine
end

