-- ==== Sys2Proof/Laws/Taking.lean ====
section
/-! SUPPORT. How requests and floor frames are taken: what `request`, `receiveFloor` and the frames of bays and units come to. -/

namespace Sys2Proof.Machine

/-! ## Requests -/

/-- Taking an office frame: the reply slot is empty, and the frame stands at the head of the queue or arrives on an empty
one with no frame in reception (R194). -/
theorem takeOffice_some {f : Frame} {s s0 : State} (h : takeOffice f s = some s0) :
    sourceOk .office f.src.toNat = true ∧ s.line.replySlot = none ∧
      ((s.line.officeRx = [] ∧ s.line.officeIn = [] ∧ s0 = { s with line.answering := true }) ∨
        ∃ rest, s.line.officeRx = f :: rest ∧ s0 = { s with line.officeRx := rest, line.answering := true }) := by
  unfold takeOffice at h
  split at h
  · cases h
  · next h1 =>
    simp only [not_or, Bool.not_eq_false, Bool.not_eq_true] at h1
    refine ⟨h1.1, by simpa using h1.2, ?_⟩
    split at h
    · next hq =>
      split at h
      · next hi => cases h; exact .inl ⟨hq, hi, rfl⟩
      · cases h
    · next g rest hq =>
      split at h
      · next hg => cases h; subst hg; exact .inr ⟨rest, hq, rfl⟩
      · cases h

theorem takeOffice_work {f : Frame} {s s0 : State} (h : takeOffice f s = some s0) :
    s0 = { s with line.officeRx := s0.line.officeRx, line.answering := true } ∧ s0.line.officeRx.length ≤ s.line.officeRx.length := by
  obtain ⟨_, _, ⟨_, _, rfl⟩ | ⟨rest, hq, rfl⟩⟩ := takeOffice_some h
  · exact ⟨rfl, le_refl _⟩
  · exact ⟨rfl, by rw [hq]; simp⟩

/-- What a request comes to: nothing, when it is not its turn, or its owner's action and the REPLY (R194). -/
theorem request_cases {i : Instr} {s t : State} {act : State → Answer} (h : request i s act = .next t) :
    t = s ∨ ∃ f s0, requestFrame i = some f ∧ takeOffice f s = some s0 ∧
      t = replyTo f (act s0).code (act s0).fields (settle (act s0).state) := by
  unfold request at h
  split at h
  · cases h; exact .inl rfl
  · next f hf =>
    split at h
    · cases h; exact .inl rfl
    · next s0 hs => cases h; exact .inr ⟨f, s0, hf, hs, rfl⟩

/-- A request that is taken answers a next state. -/
theorem request_takes {i : Instr} {s s0 : State} (act : State → Answer) (h : Takes i s s0) :
    request i s act = .next (replied i (act s0).code (act s0).fields (settle (act s0).state)) := by
  obtain ⟨_, f, hf, ht⟩ := h
  simp only [request, hf, ht, replied]

/-- Taking a request owes no pass. -/
theorem Takes.noPass {i : Instr} {s s0 : State} (h : Takes i s s0) : NoPassOwed s0 := by
  obtain ⟨hp, f, _, ht⟩ := h
  have := (takeOffice_work ht).1
  unfold NoPassOwed at hp ⊢
  rw [this]
  exact hp

/-- A request whose owner changes no state. -/
theorem request_reads {i : Instr} {s s0 : State} (act : State → Answer) (h : Takes i s s0) (hs : (act s0).state = s0) :
    request i s act = .next (replied i (act s0).code (act s0).fields s0) := by
  rw [request_takes act h, hs, settle_of_noPass h.noPass]

/-- A request of the supervisor in SERVICE goes on to its owner (R178). -/
theorem inService_service {s : State} (a : Answer) (h : s.management.mode = .service) : inService s a = a := by
  simp [inService, h]

theorem inService_setup {s : State} (a : Answer) (h : s.management.mode = .setup) :
    inService s a = ⟨s, .wrongMode, [modeByte s]⟩ := by simp [inService, h]

theorem inSetup_setup {s : State} (a : Answer) (h : s.management.mode = .setup) : inSetup s a = a := by
  simp [inSetup, h]

theorem inSetup_service {s : State} (a : Answer) (h : s.management.mode = .service) :
    inSetup s a = ⟨s, .locked, [modeByte s]⟩ := by simp [inSetup, h]

/-! ## Floor frames -/

/-- Reloading a stall timer leaves the addresses of the bays. -/
theorem loadTimer_bayAt (b c : Nat) (s : State) :
    bayAt (loadTimer b s) c =
      if c = b ∧ 1 ≤ b ∧ b ≤ 24 then
        { bayAt s c with timer := s.management.settings.stallSeconds, running := true } else bayAt s c := by
  simp only [bayAt, loadTimer, modBay_bays]
  by_cases hc : c = b
  · subst hc
    by_cases hb : 1 ≤ c ∧ c ≤ 24
    · rw [bankGet_modify_same _ _ _ _ hb]; simp [hb]
    · simp only [hb, and_false, if_false, bankModify, dite_false]
  · rw [bankGet_modify_other _ _ _ hc]; simp [hc]

theorem loadTimer_address (b c : Nat) (s : State) : (bayAt (loadTimer b s) c).address = (bayAt s c).address := by
  rw [loadTimer_bayAt]; split_ifs <;> rfl

theorem bayOfAddress_congr {s t : State} (h : ∀ c, (bayAt t c).address = (bayAt s c).address) (address : Nat) :
    bayOfAddress t address = bayOfAddress s address := by
  unfold bayOfAddress
  simp only [h]

theorem reloadTimer_address (station c : Nat) (s : State) :
    (bayAt (reloadTimer station s) c).address = (bayAt s c).address := by
  unfold reloadTimer
  split
  · rfl
  · split_ifs
    · exact loadTimer_address _ _ s
    · rfl

theorem reloadTimer_settings (station : Nat) (s : State) :
    (reloadTimer station s).management = s.management := by
  unfold reloadTimer
  split
  · rfl
  · split_ifs <;> rfl

/-- The owner of a source address is the same before and after the turn ends (R199). -/
theorem ownerOf_turn (station addr : Nat) (s : State) :
    ownerOf (reloadTimer station (setMissed station 0 (endTurn (endReception s)))) addr = ownerOf s addr := by
  have hb : ∀ c, (bayAt (reloadTimer station (setMissed station 0 (endTurn (endReception s)))) c).address =
      (bayAt s c).address := fun c => reloadTimer_address _ _ _
  have hm : (reloadTimer station (setMissed station 0 (endTurn (endReception s)))).management = s.management :=
    reloadTimer_settings _ _
  simp only [ownerOf, bayOfAddress_congr hb, hm]

/-- With no frame in reception any frame can arrive. -/
theorem floorArrival_idle (f : Frame) {s : State} (h : s.line.floorIn = []) : floorArrival f s = true := by
  simp [floorArrival, h]

/-- With no frame in reception the frame that arrives began in the turn in progress. -/
theorem turnOfFrame_idle {s : State} (h : s.line.floorIn = []) :
    turnOfFrame s = match s.line.turn with | some t => .current t | none => .outside := by
  cases ht : s.line.turn <;> simp only [turnOfFrame, h, if_true, ht]

/-- A frame of a station in its turn goes on to `act` (R198). -/
theorem receiveFloor_inTurn {station : Nat} {s s1 : State} (act : State → State) (h : InTurn station s s1) :
    receiveFloor station act s = act s1 := by
  obtain ⟨_, hf, hr, ⟨silence, ht⟩, rfl⟩ := h
  have hs : sourceOk .floor station = true := by simp [sourceOk, hr]
  simp [receiveFloor, hs, answered, turnOfFrame_idle hf, ht]

/-- A floor frame command whose frame arrives with none in reception. -/
theorem floorEvent_idle {i : Instr} {f : Frame} {s : State} (act : Frame → State → State) (hi : floorFrame i = some f)
    (h : s.line.floorIn = []) : floorEvent i act s = .next (settle (act f s)) := by
  simp only [floorEvent, hi, floorArrival_idle f h, if_true, event]

/-- A frame of a bay in its turn is taken at the bay's record (R199). -/
theorem bayFrame_atBay {i : Instr} {f : Frame} {b : Nat} {s s1 : State} (act : Nat → State → State)
    (hi : floorFrame i = some f) (h : AtBay f.src.toNat b s s1) : bayFrame i act s = .next (settle (act b s1)) := by
  obtain ⟨ht, hm, hb⟩ := h
  have h1 := receiveFloor_inTurn (takenByBay f.src.toNat act) ht
  obtain ⟨_, hf, _, _, rfl⟩ := ht
  have ho : ownerOf (reloadTimer f.src.toNat (setMissed f.src.toNat 0 (endTurn (endReception s)))) f.src.toNat = .bay b := by
    rw [ownerOf_turn]; simp [ownerOf, hb]
  have hm' : (reloadTimer f.src.toNat (setMissed f.src.toNat 0 (endTurn (endReception s)))).management.mode = .service := by
    rw [reloadTimer_settings]; exact hm
  simp only [bayFrame, floorEvent_idle _ hi hf, h1, takenByBay, hm', ho]

/-- A frame of a unit's station in its turn is taken by the unit (R199). -/
theorem unitFrame_atUnit {i : Instr} {f : Frame} {owner : Owner} {s s1 : State} (act : State → State)
    (hi : floorFrame i = some f) (h : AtUnit owner f.src.toNat s s1) :
    unitFrame i owner act s = .next (settle (act s1)) := by
  obtain ⟨ht, hm, ho⟩ := h
  have h1 := receiveFloor_inTurn (takenBy owner f.src.toNat act) ht
  obtain ⟨_, hf, _, _, rfl⟩ := ht
  have ho' : ownerOf (reloadTimer f.src.toNat (setMissed f.src.toNat 0 (endTurn (endReception s)))) f.src.toNat = owner := by
    rw [ownerOf_turn]; exact ho
  have hm' : (reloadTimer f.src.toNat (setMissed f.src.toNat 0 (endTurn (endReception s)))).management.mode = .service := by
    rw [reloadTimer_settings]; exact hm
  simp only [unitFrame, floorEvent_idle _ hi hf, h1, takenBy, hm', ho', and_self, if_true]

/-! ## What leaves the floor transmit queue as it is -/

theorem evaluateHeld_line (k : Nat) (s : State) : (evaluateHeld k s).line = s.line := by
  unfold evaluateHeld
  split
  · rfl
  · simp only
    split_ifs
    · exact (headroom_change k _).line
    · rfl

theorem closeMark_line (c : Consignment) (s : State) : (closeMark c s).line = s.line := by
  unfold closeMark
  split_ifs
  · exact evaluateHeld_line _ _
  · rfl

theorem closeLoan_line (k : Nat) (c : Consignment) (move : State → State) (hm : ∀ s, OrderChange s (move s))
    (freed : Option Nat) (s : State) : (closeLoan k c move freed s).line = s.line := by
  have h : (closeMark c (move (linesClosed c.patron (openLines c).length (closeLines k c s)))).line = s.line := by
    rw [closeMark_line, (hm _).line, (linesClosed_change _ _ _).line, (closeLines_change k c s).line]
  unfold closeLoan
  simp only
  rw [(headroom_change _ _).line]
  split
  · exact h
  · rw [(copyFreed_change _ _).line]; exact h

/-- The disposition of an item hands nothing to the floor. -/
theorem dispose_line (k : Nat) (c : Consignment) (v : Verdict) (s : State) : (dispose k c v s).1.line = s.line := by
  unfold dispose
  split
  · exact (freeConsignment_change _ _).line.trans (closeLoan_line _ _ _ (fun s => movePack_change _ v s) _ s)
  · exact (freeConsignment_change _ _).line.trans
      (closeLoan_line _ _ _ (fun s => (moveCopy_change _ v s).trans (moveShelfCartridge_change _ v _)) _ s)
  · unfold disposeBraille
    split
    · exact (freeConsignment_change _ _).line
    · split_ifs
      · rfl
      · exact (freeConsignment_change _ _).line
      · exact (freeAll_change _ _).line.trans (closeLoan_line _ _ _ (fun s => moveCopy_change _ _ s) _ _)
      · exact (freeAll_change _ _).line.trans (closeLoan_line _ _ _ (fun s => moveCopy_change _ _ s) _ _)

end Sys2Proof.Machine
end

