-- ==== Sys2Proof/Tests/Slice0.lean ====
section
/-! SUPPORT. The model's own tests: the worked cases and encodings of spec/, the well-formedness checks, and for each statement
with hypotheses a state and operands that meet them together. Expected values come from the manual's tables, or are worked
by hand from its rules; none is copied from the model. -/

namespace Sys2Proof.Tests

open Sys2Proof Sys2Proof.Machine

-- One test after another: in parallel, the many kernel evaluations together go over the memory that a check may use.
set_option Elab.async false

/-! ## Helpers -/

/-- The state after a command. -/
def after (i : Instr) (s : State) : State :=
  match exec i s with
  | .next t => t
  | .fault _ => s
  | .refused _ => s

/-- The payload of the REPLY to a command. -/
def answer (i : Instr) (s : State) : Option (List Byte) := (after i s).line.replySlot.map Frame.payload

def aPatron : Patron :=
  { status := .active, patronClass := .standard, level := 2, audio := true, braille := true, cartridgeClass := 2, quota := 4,
    agency := 0, code := 310004 }

def anOnDemandTitle : Title :=
  { format := .audio, policy := .onDemand, level := 0, availability := .available, extent := 99, granularity := 0,
    shelfClass := 0, volumes := 0, weight := 0 }

def aShelfTitle : Title := { anOnDemandTitle with policy := .shelf, shelfClass := 2, copies := 3, shelf := 1, out := 1, repair := 1 }

def aBrailleTitle : Title :=
  { anOnDemandTitle with format := .braille, policy := .shelf, extent := 0, volumes := 1, weight := 400, copies := 2, out := 1, repair := 1 }

def aConsignment (state : ConsState) (kind : ConsKind) (patron title : Nat) : Consignment :=
  { state := state, kind := kind, patron := patron, window := 0, cartridgeClass := if kind = .braillePart then 0 else 2,
    lines := [{ title := title, origin := 900 }], used := 180, openDay := 900,
    part := if kind = .braillePart then 1 else 0, parts := if kind = .braillePart then 1 else 0 }

def aJob (state : JobState) (priority consignment : Nat) : Job :=
  { state := state, kind := .pack, priority := priority, consignment := consignment, cartridgeClass := 2 }

/-- A part in SERVICE on day 1,000 with a few records of each table; class 2 balances at 4 + 2 + 3 + 1 + 2 = 12. -/
def world : State :=
  { State.reset with
    management.mode := .service
    management.geometry := ⟨8, 8, 8, 8, 8⟩
    management.capacity := #v[1024, 65536, 65536, 4194304]
    management.settings.holdLimit := 2
    management.settings.pickRole := 40
    management.settings.sorterRole := 50
    management.settings.scannerRole := 62
    days.today := 1000
    records.agencies := [(1, ⟨500120, 1⟩), (255, ⟨7, 0⟩)]
    records.patrons :=
      [(1, { aPatron with agency := 1, charge := 1, wish := [1], chain := [1, 2, 4] }),
       (2, { aPatron with status := .suspended }),
       (3, { aPatron with charge := 1, chain := [3], openPack := 3 }),
       (4, { aPatron with held := true, overdue := 2 }),
       (8, aPatron)]
    records.titles :=
      [(1, { anOnDemandTitle with out := 1 }), (2, { aShelfTitle with waiting := [1] }), (3, aBrailleTitle),
       (4, { anOnDemandTitle with availability := .withdrawn }), (8, anOnDemandTitle)]
    requests := [(1, ⟨1, 2, 990⟩)]
    assembly.cons :=
      [(1, aConsignment .picking .shelfAudio 1 2), (2, { aConsignment .picking .braillePart 1 3 with head := 2 }),
       (3, aConsignment .assembling .pack 3 1),
       (4, { aConsignment .posted .shelfAudio 1 2 with serial := some 9, postDay := 950, dueDay := 992 }),
       (5, aConsignment .releasing .pack 3 1), (6, aConsignment .ready .pack 3 1),
       (7, { aConsignment .duplicating .pack 3 1 with job := 1 })]
    assembly.picks := [1]
    assembly.picksSent := 1
    scheduler.jobs :=
      [(1, { aJob .active 1 7 with bay := 1 }), (2, aJob .queued 1 7), (3, { aJob .parked 0 7 with bay := 5 }),
       (4, { aJob .pending 2 7 with bay := 5 }), (5, aJob .queued 3 7), (6, { aJob .active 1 7 with bay := 4 }),
       (7, { aJob .active 1 7 with bay := 5 })]
    scheduler.queues := #v[[], [2], [], [5]]
    scheduler.bays :=
      bankModify (bankModify (bankModify (bankModify (bankModify (bankModify State.reset.scheduler.bays
        1 fun _ => { address := 16, classes := 2, state := .writing, active := 1, timer := 9, running := true })
        2 fun _ => { address := 17, classes := 1, state := .idle })
        3 fun _ => { address := 18, classes := 2, state := .faulted, cause := .stall })
        4 fun _ => { address := 19, classes := 2, state := .loading, active := 6, timer := 30, running := true })
        5 fun _ => { address := 20, classes := 2, state := .parking, active := 7, stack := [3], preemptor := 4, timer := 30,
                     running := true })
        24 fun _ => { address := 61, classes := 2 }
    accounts := bankModify State.reset.accounts 2 fun _ => ⟨12, 4, 2, 3, 1, 2, 1⟩
    dispatch.ready := [5, 6]
    dispatch.outstanding := [⟨5, 1, .concession⟩]
    dispatch.blocked := 0x80000000 }

/-- A part whose laws all hold: patron 1 waits for title 3, has a set head of title 4 on its way out, and a pack of title 1 being
copied; patron 2 has a pack open. Class 2 has a cartridge reserved, and the one copy of title 3 on the repair bench. -/
def circulating : State :=
  { State.reset with
    management.mode := .service
    management.geometry := ⟨2, 4, 2, 4, 2⟩
    records.patrons :=
      [(1, { aPatron with charge := 2, wish := [2], chain := [2, 3] }), (2, { aPatron with charge := 1, chain := [1], openPack := 1 })]
    records.titles :=
      [(1, { anOnDemandTitle with out := 2 }), (3, { aShelfTitle with copies := 1, shelf := 0, out := 0, waiting := [2] }),
       (4, { aBrailleTitle with copies := 1, out := 1, repair := 0 })]
    requests := [(2, ⟨1, 3, 900⟩)]
    assembly.cons :=
      [(1, aConsignment .assembling .pack 2 1), (2, { aConsignment .duplicating .pack 1 1 with job := 2 }),
       (3, { aConsignment .releasing .braillePart 1 4 with head := 3 })]
    scheduler.jobs := [(2, { aJob .active 1 2 with bay := 24 })]
    scheduler.bays := bankModify State.reset.scheduler.bays 24 fun _ => { address := 61, classes := 2, state := .writing, active := 2 }
    accounts := bankModify State.reset.accounts 2 fun _ => ⟨5, 3, 1, 0, 0, 1, 1⟩
    dispatch.ready := [3]
    dispatch.outstanding := [⟨3, 1, .concession⟩] }

/-- A place of the full floor queue has come free, and a frame that waits comes before the releases. -/
def contested (s : State) : State := { s with line.contended := true }

/-- The same part in SETUP. -/
def setup : State := { world with management.mode := .setup }

/-- A request has been taken and its REPLY is due. -/
def due (s : State) : State := { s with line.answering := true }

/-- The request is taken in `s`. -/
def CanTake (i : Instr) (s : State) : Prop := ∃ s0, Takes i s s0

/-- A request with an empty queue and reply slot is taken. -/
theorem takenDue {i : Instr} {f : Frame} (s : State) (hf : requestFrame i = some f)
    (hs : sourceOk .office f.src.toNat = true) (hp : s.passDue = false) (hr : s.line.replySlot = none)
    (hq : s.line.officeRx = []) (hi : s.line.officeIn = [] := by rfl) : Takes i s (due s) :=
  ⟨hp, f, hf, by simp [takeOffice, hs, hr, hq, hi, due]⟩

theorem taken {i : Instr} {f : Frame} (s : State) (hf : requestFrame i = some f)
    (hs : sourceOk .office f.src.toNat = true) (hp : s.passDue = false) (hr : s.line.replySlot = none)
    (hq : s.line.officeRx = []) (hi : s.line.officeIn = [] := by rfl) : CanTake i s :=
  ⟨due s, takenDue s hf hs hp hr hq hi⟩

/-- Station `k` has the reply turn. -/
def turnOf (k : Nat) (s : State) : State := { s with line.turn := some ⟨k, false⟩ }

/-- The turn of station `k` is answered. -/
def answeredBy (k : Nat) (s : State) : State := reloadTimer k (setMissed k 0 (endTurn (endReception s)))

theorem inTurn (k : Nat) (s : State) (hk : 16 ≤ k ∧ k ≤ 62) (hp : s.passDue = false) (hf : s.line.floorIn = [] := by rfl) :
    InTurn k (turnOf k s) (answeredBy k (turnOf k s)) :=
  ⟨hp, hf, hk, ⟨false, rfl⟩, rfl⟩

/-! ## Well-formed commands: an ill-formed one for each check (R193, R191, R202) -/

theorem test_wf_refuses :
    WellFormed (.unlistedManagementKind 0 50 []) = false ∧ WellFormed (.unlistedManagementKind 1 50 (List.replicate 241 0)) = false ∧
    WellFormed (.unlistedManagementKind 1 1 []) = false ∧ WellFormed (.order 16 1 1) = false ∧ WellFormed (.probe 0 1 1) = false ∧
    WellFormed (.cancel 63 1 1) = false ∧ WellFormed (.stallExpiry 0) = false ∧ WellFormed (.stallExpiry 25) = false ∧
    WellFormed (.started 15 1 1) = false ∧ WellFormed (.progress 63 1 1) = false ∧ WellFormed (.parked 0 1 1) = false ∧
    WellFormed (.copyDone 1 1 1 0) = false ∧ WellFormed (.bayFault 64 1) = false ∧ WellFormed (.picked 15 1 1) = false ∧
    WellFormed (.notFound 15 1) = false ∧ WellFormed (.chuted 63 1) = false ∧ WellFormed (.chuteFull 0 1 1) = false ∧
    WellFormed (.chuteClear 15 1) = false ∧ WellFormed (.returnItem 15 1 1 1 1 0 []) = false ∧
    WellFormed (.returnItem 16 1 1 1 1 5 [7]) = false ∧ WellFormed (.quiet 63) = false := by
  decide +kernel

theorem test_wf_refuses_frames :
    WellFormed (.floorForward ⟨16, 16, 65, []⟩) = false ∧ WellFormed (.floorForward ⟨15, 15, 65, []⟩) = false ∧
    WellFormed (.strayFloorFrame ⟨64, 16, 65, []⟩) = false ∧
    WellFormed (.strayFloorFrame ⟨0, 16, 65, List.replicate 241 0⟩) = false ∧
    WellFormed (.floorFrameNotTaken ⟨15, 16, 65, []⟩) = false ∧ WellFormed (.officeFrameReceive []) = false ∧
    WellFormed (.frameDiscard .office (Frame.chars ⟨0, 3, 64, [1]⟩)) = false := by
  decide +kernel

theorem test_wf_accepts :
    WellFormed (.unlistedManagementKind 2 1 []) = true ∧ WellFormed (.order 15 0 65535) = true ∧
    WellFormed (.stallExpiry 24) = true ∧ WellFormed (.returnItem 62 1 1 1 1 0x8001 [7, 8]) = true ∧
    WellFormed (.floorForward ⟨15, 62, 65, []⟩) = true ∧ WellFormed (.floorFrameNotTaken ⟨63, 62, 65, []⟩) = true ∧
    WellFormed (.frameDiscard .office (Frame.chars ⟨0, 16, 64, [1]⟩)) = true := by decide

/-! ## Worked cases of the manual -/

/-- 10, Worked frame: an ORDER from a gateway. The check is 166, and the parity bits are those of the table. -/
theorem test_worked_frame :
    (Frame.chars ⟨0, 3, 64, [154, 1, 120, 0]⟩).map (fun c => (c.data.toNat, c.mark, c.parity)) =
      [(0, true, false), (3, false, true), (64, false, false), (4, false, false), (154, false, true), (1, false, false),
       (120, false, true), (0, false, true), (166, false, true)] := by decide

/-- R190, the payload byte 154 of the same frame: start bit, 154 = 10011010B with its least significant bit first, mark bit 0, its
parity bit of the table, stop bit; the frame is 9 characters of 12 bits, and the port reads it from them. -/
theorem test_worked_character_bits :
    (Chr.bits (charOf false 154)).map Bool.toNat = [0, 0, 1, 0, 1, 1, 0, 0, 1, 0, 1, 1] ∧
    (let f : Frame := ⟨0, 3, 64, [154, 1, 120, 0]⟩
     (Frame.bits f).length = 108 ∧ receive (charsOn ([true, true] ++ Frame.bits f)) = .frame f) := by decide

/-- 10, the same frame: patron 410 orders title 120 through gateway 3. -/
theorem test_worked_order_frame : requestOf ⟨0, 3, 64, [154, 1, 120, 0]⟩ = .order 3 410 120 := by decide

/-- 09, Worked budget: 1,018,276 words, 30,300 to spare; geometry B, 1,050,276 words, is refused at OPEN_SERVICE. -/
theorem test_worked_budget :
    budgetTotal ⟨40000, 20000, 60000, 18000, 1023⟩ = 1018276 ∧ budgetTotal ⟨40000, 20000, 60000, 20000, 1023⟩ = 1050276 ∧
    answer .openService { setup with management.geometry := ⟨40000, 20000, 60000, 20000, 1023⟩ } =
      some ([7, 30] ++ bytesLE 3 1050276) := by decide

/-- 01, Worked extents: blocks of E = 943 and 13 x 64 against the smallest class, and of E = 32,767 with G = 1. -/
theorem test_worked_extents :
    titleBlocks { anOnDemandTitle with extent := 943 } = 944 ∧ titleBlocks { anOnDemandTitle with extent := 13, granularity := 1 } = 896 ∧
    titleBlocks { anOnDemandTitle with extent := 32767, granularity := 1 } = 2097152 := by decide

/-- 02, Worked case: four claimants on day 1,000. -/
theorem test_worked_scores :
    claimScore 1000 940 { aPatron with quota := 4, charge := 3 } = 136 ∧
    claimScore 1000 995 { aPatron with patronClass := .priority, quota := 6, charge := 1 } = 474 ∧
    claimScore 1000 700 { aPatron with patronClass := .institution, quota := 15, charge := 2 } = 404 ∧
    claimScore 1000 480 { aPatron with quota := 2, charge := 0 } = 1023 ∧
    claimScore 1001 700 { aPatron with patronClass := .institution, quota := 15, charge := 2 } = 405 := by decide

/-- 03, Worked cases: planning. -/
theorem test_worked_plans :
    (let p := planSet 2000 7 850; (p.perPart, p.parts, volumesIn p 7 1, volumesIn p 7 4, p.overweight) = (2, 4, 2, 1, false)) ∧
    (let p := planSet 2000 7 2400; (p.perPart, p.parts, volumesIn p 7 7, p.overweight) = (1, 7, 1, true)) ∧
    (let p := planSet 30000 32 400; (p.perPart, p.parts, volumesIn p 32 1, p.overweight) = (75, 1, 32, false)) ∧
    (let p := planSet 500 5 250; (p.perPart, p.parts, volumesIn p 5 3, p.overweight) = (2, 3, 1, false)) := by decide

/-- 05, Worked case: window resolution. -/
theorem test_worked_windows :
    let s : State := { State.reset with
      dispatch.windows :=
        bankModify (bankModify (bankModify State.reset.dispatch.windows
          4 fun _ => ⟨true, 400000, 499999, 5, .priority, 1, 30000, false⟩)
          8 fun _ => ⟨true, 450000, 460000, 9, .concession, 3, 30000, true⟩)
          13 fun _ => ⟨true, 120000, 120999, 14, .concession, 4, 30000, false⟩ }
    [455000, 410000, 460001, 120999, 5].map (resolveWindow s) = [7, 3, 3, 12, 0] := by decide

/-- 05, Worked case: due day across the wrap. -/
theorem test_worked_due_day :
    let s := turnOf 50 { world with days.today := 65530, dispatch.windows := bankModify world.dispatch.windows 1 fun w => { w with transit := 3 } }
    (Table.get (after (.chuted 50 5) s).assembly.cons 5).map (fun c => (c.state, c.postDay, c.dueDay)) =
      some (.posted, 65530, 42) ∧
    overdueOn 42 42 = false ∧ overdueOn 42 50 = true ∧ overdueOn 42 65535 = false := by decide

/-- 08, Worked case: advances across the wrap. -/
theorem test_worked_days :
    answer (.day 65533) { world with days.today := 65533 } = some [19, 29, 253, 255] ∧
    answer (.day 2) { world with days.today := 65533 } = some [19, 0, 2, 0] ∧
    answer (.day 9) { world with days.today := 2 } = some [19, 0, 9, 0] ∧
    answer (.day 20) { world with days.today := 9 } = some [19, 28, 9, 0] ∧
    answer (.day 5) { world with days.today := 9 } = some [19, 28, 9, 0] := by decide

/-- 06, Worked case: relative weight, and the saturated reading of a part of 160,000 g. -/
theorem test_worked_relative_weight :
    [1640, 1420, 1830, 1800].map (fun r : Int => compareMode .outside (r - 1700) (-100) 100) = [.none, .centre, .high, .none] ∧
    comparedReading .partWeight 160000 20000 = -32768 := by decide

/-- 07, Worked sequence, steps 1, 5, 7 and 9, on class 2 of the test state. -/
theorem test_worked_stock :
    (let a := accountAt (after (.stockAdd 2 4) world) 2; (a.stock, a.blank + a.reserved) = (16, 10)) ∧
    (let a := accountAt (after (.retireRepair 2 1 0) world) 2; (a.stock, a.repair, a.bound) = (11, 1, 1)) ∧
    answer (.repaired 2 2 0) world = some [33, 26] := by decide

/-! ## Requests written out from the catalogue of R203 and the table of R202 -/

theorem test_requests_written_out :
    requestOf ⟨0, 1, 3, [16, 39, 136, 19, 32, 78, 184, 11, 244, 1]⟩ = .setGeometry 10000 5000 20000 3000 500 ∧
    requestOf ⟨0, 1, 4, [2, 0, 0, 1]⟩ = .setClass 2 65536 ∧ requestOf ⟨0, 1, 6, [254, 255]⟩ = .setDay 65534 ∧
    requestOf ⟨0, 1, 25, [9, 255, 255]⟩ = .setThreshold 9 0xFFFF ∧ requestOf ⟨0, 3, 64, [44, 1, 5, 0]⟩ = .order 3 300 5 ∧
    requestOf ⟨0, 15, 66, [1, 0, 0, 1]⟩ = .cancel 15 1 256 ∧ requestOf ⟨0, 2, 1, []⟩ = .unlistedManagementKind 2 1 [] := by
  decide

theorem test_floor_frames_written_out :
    floorCommandOf ⟨0, 16, 120, [7, 0, 1, 2, 3, 4]⟩ = .started 16 7 0x04030201 ∧
    floorCommandOf ⟨0, 16, 122, [1, 1, 0, 0, 64]⟩ = .parked 16 257 4194304 ∧
    floorCommandOf ⟨0, 62, 168, [5, 0, 182, 3, 1, 9, 0, 0, 0, 1, 128, 10, 0, 254, 255]⟩ =
      .returnItem 62 5 950 1 9 0x8001 [10, 0xFFFE] ∧
    floorCommandOf ⟨0, 16, 120, [7, 0, 1, 2, 3]⟩ = .floorFrameNotTaken ⟨0, 16, 120, [7, 0, 1, 2, 3]⟩ ∧
    floorCommandOf ⟨15, 16, 120, []⟩ = .floorForward ⟨15, 16, 120, []⟩ := by decide

/-- R191: a mark character in a frame ends it with LENGTH and begins the next, whose last characters come in a second run. -/
theorem test_mark_character_begins_a_frame :
    (let f := Frame.chars ⟨0, 3, 64, [154, 1, 120, 0]⟩
     let s := after (.frameDiscard .office (f.take 4 ++ f.take 6)) world
     s.line.officeFaults = 4 ∧ s.line.officeIn = f.take 6 ∧
       (after (.officeFrameReceive (f.drop 6)) s).line.officeRx = [⟨0, 3, 64, [154, 1, 120, 0]⟩]) := by decide

/-- R189 step 3: of characters that carry RESTART, two ORDERs and the header of a third, the whole frames join the queue and RESTART
empties it; the third was in reception and is lost when it ends, and the frame after it joins the queue. -/
theorem test_frames_behind_restart_are_lost :
    (let f : Frame := ⟨0, 3, 64, [154, 1, 120, 0]⟩
     let run := Frame.chars ⟨0, 1, 2, []⟩ ++ Frame.chars f ++ Frame.chars f ++ (Frame.chars f).take 1
     let s := after (.officeFrameReceive run) world
     let t := after .restart s
     let u := after (.officeFrameReceive ((Frame.chars f).drop 1 ++ Frame.chars f)) t
     s.line.officeRx = [⟨0, 1, 2, []⟩, f, f] ∧ t.line.officeRx = [] ∧ t.line.replySlot = some ⟨1, 0, 80, [2, 0]⟩ ∧
       t.line.officeLost = true ∧ u.line.officeRx = [f] ∧ u.line.officeIn = [] ∧ u.line.officeLost = false) := by
  decide +kernel

/-- Log 43: a mark character with a parity error in the window sets no cause and is no answer; the window ends with a miss. -/
theorem test_a_faulty_mark_is_no_answer :
    (let s := after (.frameDiscard .floor [⟨0, true, true, true⟩]) (turnOf 16 world)
     s = turnOf 16 world ∧ missedAt (after .replyWindowExpiry s) 16 = 1) := by decide

/-- R191, the same on the floor port: the whole frame behind the early mark is taken, and the character behind it begins the next. -/
theorem test_a_held_floor_frame_is_taken :
    (let f : Frame := ⟨0, 16, 97, []⟩
     let s := after (.frameDiscard .floor ([charOf true 0] ++ Frame.chars f ++ [charOf true 2])) (turnOf 16 world)
     s.line.floorFaults = 4 ∧ s.line.floorIn = Frame.chars f ++ [charOf true 2] ∧
       (after (.quiet 16) s).line.floorIn = [charOf true 2]) := by decide

theorem test_no_row_has_bits : ∀ n < 4, decodeTableWord (8 * n) 1 = none := by decide

/-! ## Witnesses: for each statement with hypotheses, a state and operands for each of its clauses -/

theorem test_witness_EmptyQueueCountsOneSecond :
    world.pending = [] ∧ NoPassOwed world ∧ (∀ b ∈ bayNumbers, ¬((bayAt world b).running = true ∧ (bayAt world b).timer ≤ 1)) ∧
    (let s := modBay 1 (fun b => { b with timer := 1 }) world
     s.pending = [] ∧ NoPassOwed s ∧ 1 ∈ bayNumbers ∧ (bayAt s 1).running = true ∧ (bayAt s 1).timer = 1 ∧
       ∀ o ∈ bayNumbers, o ≠ 1 → ¬((bayAt s o).running = true ∧ (bayAt s o).timer ≤ 1)) ∧
    (let s := modBay 4 (fun b => { b with timer := 0 }) (modBay 1 (fun b => { b with timer := 1 }) world)
     NoPassOwed s ∧ (bayAt s 4).running = true ∧ (bayAt s 4).timer ≤ 1 ∧
       ∀ o ∈ bayNumbers, o ≠ 1 → o ≠ 4 → ¬((bayAt s o).running = true ∧ (bayAt s o).timer ≤ 1)) :=
  ⟨rfl, rfl, by decide, ⟨rfl, rfl, by decide, by decide⟩, rfl, by decide⟩

theorem test_witness_ResetCommandsGiveTheResetState :
    CanTake .reset world ∧
    (let s := { world with line.officeSending := some ⟨1, 0, 80, [1, 0]⟩ }; s.line.officeSending = some ⟨1, 0, 80, [1, 0]⟩) ∧
    world.line.officeSending ≠ some ⟨1, 0, 80, [1, 0]⟩ :=
  ⟨taken world rfl (by decide) rfl rfl rfl, rfl, by decide⟩

/-- The invariants hold of a state with records in every table, and a step is taken from it. -/
theorem test_witness_EveryStepKeeps :
    NoPassOwed world ∧ AccountsBalanced world ∧ ManifestBounded world ∧ TablesCanonical world ∧ QueuesBounded world ∧
    (∀ e ∈ world.records.patrons,
      e.2.held = decide (world.management.settings.holdLimit ≠ 0 ∧ world.management.settings.holdLimit ≤ e.2.overdue)) ∧
    (∀ e ∈ world.records.agencies, e.2.members = world.records.patrons.countP fun p => decide (p.2.agency = e.1)) ∧
    (∀ e ∈ world.records.patrons, e.2.agency = 0 ∨ (Table.get world.records.agencies e.2.agency).isSome) ∧
    (let s := { world with pending := [.stockAdd 2 1] }; step s = .next (after (.stockAdd 2 1) { s with pending := [] })) := by
  refine ⟨rfl, ?_, by unfold ManifestBounded; decide, by unfold TablesCanonical; decide, by unfold QueuesBounded; decide,
    by decide, by decide, by decide, rfl⟩
  intro c hc
  match c, hc with
  | 0, _ => decide
  | 1, _ => decide
  | 2, _ => decide
  | 3, _ => decide

/-- The laws of circulation and of the jobs' places hold of a state with a record of every table, and a step is taken from it. -/
theorem test_witness_EveryStepKeepsCirculation :
    TablesCanonical circulating ∧ JobsPlaced circulating ∧ CirculationLaws circulating ∧
    AccountsBalanced circulating ∧ CountsAgree circulating ∧ ClassesAgree circulating ∧
    (let s := { circulating with pending := [.bayOffline 24] }; step s = .next (after (.bayOffline 24) circulating)) := by
  refine ⟨by unfold TablesCanonical; decide, ⟨?_, ?_, ?_, ?_, by decide⟩, ⟨?_, ?_, ?_, ?_, ?_, ?_, ?_, ?_, ?_⟩, ?_, ?_,
    by unfold ClassesAgree; decide, rfl⟩
  · intro e he
    obtain rfl : e = (2, { aJob .active 1 2 with bay := 24 }) := by simpa [circulating] using he
    exact ⟨by decide, by decide, by show (bayAt circulating 24).active = 2; decide⟩
  · decide
  · unfold BayHoldsItsJobs Working isJobOf; decide
  · decide
  · unfold InPools; decide
  · unfold RequestsListed; decide
  · unfold PatronsCounted; decide
  · unfold CopiesBalanced; decide
  · unfold ConsignmentsFormed; decide
  · unfold PacksPlaced; decide
  · unfold SetsWhole; decide
  · unfold ReadyQueued; decide
  · unfold SetupIsEmpty; decide
  · intro c hc
    match c, hc with
    | 0, _ => decide
    | 1, _ => decide
    | 2, _ => decide
    | 3, _ => decide
  · intro c h1 h4
    match c, h1, h4 with
    | 1, _, _ => decide
    | 2, _, _ => decide
    | 3, _, _ => decide
    | 4, _, _ => decide

theorem test_witness_ShapeAndTodayStandInService :
    keepsPower (.day 1001) ∧ world.management.mode = .service ∧ exec (.day 1001) world = .next (after (.day 1001) world) ∧
    (after (.day 1001) world).days.today ≠ world.days.today ∧
    keepsPower (.setDay 5) ∧ exec (.setDay 5) setup = .next (after (.setDay 5) setup) ∧
    (after (.setDay 5) setup).days.today ≠ setup.days.today :=
  ⟨by unfold keepsPower; decide, rfl, rfl, by decide, by unfold keepsPower; decide, rfl, by decide⟩

theorem test_witness_ChannelLoadsOnlyWhileSuspended :
    let s := { world with returns.suspended := true }
    let i := Instr.setThreshold 15 1
    keepsPower i ∧ exec i s = .next (after i s) ∧ (after i s).returns.thresholds ≠ s.returns.thresholds :=
  ⟨by unfold keepsPower; decide, rfl, by decide⟩

theorem test_witness_FramesCrossTheLine :
    (63 : Byte).toNat ≤ 63 ∧ (List.replicate 240 (0 : Byte)).length ≤ 240 ∧
    (let f : Frame := ⟨0, 3, 64, []⟩
     let c : Chr := ⟨3, false, false, true⟩
     ∃ before after x, Frame.chars f = before ++ x :: after ∧ before ≠ [] ∧ Chr.faults c ≠ 0) ∧
    receive (charOf true 64 :: []) = .fault 4 ∧
    receive ([charOf true 63, charOf false 3, charOf false 64, charOf false 241]) = .fault 4 ∧
    (([0, 3, 64, 1] ++ [5] ++ [184] : List Byte).map BitVec.toNat).sum % 256 ≠ 0 ∧
    receive (charOf true 0 :: ([3, 64, 1, 5, 184] : List Byte).map (charOf false)) = .fault 8 ∧
    receive (charOf true 0 :: ([3, 64, 1, 5, 183] : List Byte).map (charOf false)) = .frame ⟨0, 3, 64, [5]⟩ ∧
    (charOf false 3).mark = false ∧ Chr.faults ⟨3, true, true, true⟩ ≠ 0 ∧ Chr.faults ⟨3, true, false, false⟩ ≠ 0 :=
  ⟨by decide, by decide +kernel, ⟨[charOf true 0], (Frame.chars ⟨0, 3, 64, []⟩).drop 2, charOf false 3, by decide, by decide,
    by decide⟩, by decide, by decide, by decide, by decide, by decide, rfl, by decide, by decide⟩

theorem test_witness_RequestsReadBack :
    WellFormed (.setThreshold 255 65535) = true ∧ requestFrame (.setThreshold 255 65535) = some ⟨0, 1, 25, [255, 255, 255]⟩ ∧
    WellFormed (.unlistedManagementKind 15 1 []) = true ∧
    requestFrame (.unlistedManagementKind 15 1 []) = some ⟨0, 15, 1, []⟩ ∧
    (let i := Instr.returnItem 62 1 1 1 1 0x8001 [7, 8]; WellFormed i = true ∧ (floorFrame i).isSome = true) ∧
    WellFormed (.floorForward ⟨15, 62, 65, []⟩) = true ∧ WellFormed (.quiet 16) = true := by decide

theorem test_witness_RequestsAreRefusedBeforeTheirOwner :
    CanTake (.setDay 5) world ∧ world.management.mode = .service ∧ CanTake .restart setup ∧
    setup.management.mode = .setup ∧ CanTake (.unlistedManagementKind 2 63 []) world ∧
    CanTake (.unlistedManagementKind 1 63 []) world ∧ CanTake (.unlistedManagementKind 15 67 [1]) world ∧
    requestLength 63 ≠ some 0 ∧ requestLength 67 ≠ some 1 :=
  ⟨taken _ rfl (by decide) rfl rfl rfl, rfl, taken _ rfl (by decide) rfl rfl rfl, rfl, taken _ rfl (by decide) rfl rfl rfl,
    taken _ rfl (by decide) rfl rfl rfl, taken _ rfl (by decide) rfl rfl rfl, by decide, by decide⟩

theorem test_witness_GeometryEmptiesEveryTable :
    CanTake (.setGeometry 65535 32767 65535 32767 4095) setup ∧ CanTake (.setGeometry 1 1 1 1 1) setup ∧
    CanTake (.setGeometry 1 32768 1 1 1) setup ∧ CanTake (.setGeometry 1 1 1 1 4096) setup ∧
    setup.management.mode = .setup ∧ world.management.geometry ≠ ⟨0, 0, 0, 0, 0⟩ :=
  ⟨taken _ rfl (by decide) rfl rfl rfl, taken _ rfl (by decide) rfl rfl rfl, taken _ rfl (by decide) rfl rfl rfl,
    taken _ rfl (by decide) rfl rfl rfl, rfl, by decide⟩

theorem test_witness_ClassDayAndLineRatesAreSet :
    CanTake (.setClass 4 4194304) setup ∧ CanTake (.setClass 1 1024) setup ∧ CanTake (.setClass 5 1024) setup ∧
    CanTake (.setClass 1 1023) setup ∧ CanTake (.setDay 65535) setup ∧ CanTake (.setLines 2 0) setup ∧
    (2 : Byte).toNat = rateValue .r1843200 ∧ (0 : Byte).toNat = rateValue .r115200 ∧ CanTake (.setLines 3 0) setup ∧
    (let s := { setup with line.ratesNext := [(.r460800, .r115200)], line.officeSending := some ⟨1, 0, 80, [5, 0]⟩ }
     s.line.ratesNext = (.r460800, .r115200) :: [] ∧ s.line.officeSending = some ⟨1, 0, 80, [5, 0]⟩ ∧ s.line.officeIn = []) ∧
    (let s := { setup with line.officeIn := [charOf true 0] }; s.line.officeIn ≠ []) ∧
    setup.line.officeSending ≠ some ⟨1, 0, 80, [5, 0]⟩ ∧
    (let s := { setup with line.floorNext := some .r460800 }
     s.line.floorNext = some .r460800 ∧ s.line.floorSending = none ∧ s.line.floorNext ≠ none) ∧
    (let s := { setup with line.floorSending := some ⟨16, 0, 96, []⟩ }
     s.line.floorSending ≠ none) :=
  ⟨taken _ rfl (by decide) rfl rfl rfl, taken _ rfl (by decide) rfl rfl rfl, taken _ rfl (by decide) rfl rfl rfl,
    taken _ rfl (by decide) rfl rfl rfl, taken _ rfl (by decide) rfl rfl rfl, taken _ rfl (by decide) rfl rfl rfl, rfl, rfl,
    taken _ rfl (by decide) rfl rfl rfl, by decide, by decide, by decide, by decide, by decide⟩

theorem test_witness_OpenServiceChecksAndOpens :
    (let s := { setup with management.geometry := {} }
     CanTake .openService s ∧ s.management.geometry = ⟨0, 0, 0, 0, 0⟩) ∧
    (let s := { setup with management.capacity := #v[1024, 1024, 1024, 0] }
     CanTake .openService s ∧ capacityOf s 4 = 0 ∧ ∀ b, b < 4 → 1 ≤ b → capacityOf s b ≠ 0) ∧
    (let s := { setup with management.geometry := ⟨65535, 32767, 65535, 32767, 4095⟩ }
     CanTake .openService s ∧ 1048576 < budgetTotal s.management.geometry) ∧
    CanTake .openService world ∧ world.management.mode = .service ∧
    CanTake .openService setup ∧ setup.management.mode = .setup ∧ setup.management.geometry ≠ ⟨0, 0, 0, 0, 0⟩ ∧
    (∀ c, c < 5 → 1 ≤ c → capacityOf setup c ≠ 0) ∧ budgetTotal setup.management.geometry ≤ 1048576 :=
  ⟨⟨taken _ rfl (by decide) rfl rfl rfl, rfl⟩, ⟨taken _ rfl (by decide) rfl rfl rfl, by decide, by decide⟩,
    ⟨taken _ rfl (by decide) rfl rfl rfl, by decide⟩, taken _ rfl (by decide) rfl rfl rfl, rfl,
    taken _ rfl (by decide) rfl rfl rfl, rfl, by decide, by decide, by decide⟩

theorem test_witness_SettingsAreWritten :
    (∀ e ∈ [(0, 1), (1, 255), (2, 7), (4, 5), (5, 1), (5, 64), (6, 2), (3, 2), (3, 15), (2, 3), (0, 0), (2, 8), (3, 16), (4, 4), (5, 65),
        (6, 3), (7, 1), (7, 63), (9, 15), (10, 0)],
      CanTake (.setSetting e.1 e.2) world) ∧
    noticeModeValue .onRetire = (2 : Byte).toNat ∧ (2 : Byte).toNat = world.management.settings.holdLimit ∧
    (3 : Nat) ≠ world.management.settings.holdLimit ∧
    (world.records.patrons[3]?.any fun e => decide (e.1 = 4 ∧ e.2.held = true ∧ ¬(3 ≠ 0 ∧ 3 ≤ e.2.overdue))) = true :=
  ⟨fun e _ => taken (i := .setSetting e.1 e.2) _ rfl rfl rfl rfl rfl, rfl, rfl, by decide, by decide⟩

theorem test_witness_StationRolesAreWritten :
    CanTake (.setSetting 7 50) world ∧ 50 ∈ [40, 50, 62].eraseIdx 0 ∧ CanTake (.setSetting 8 16) world ∧
    (∃ b ∈ bayNumbers, (bayAt world b).address = 16) ∧ CanTake (.setSetting 9 62) world ∧
    CanTake (.setSetting 7 0) setup ∧ CanTake (.setSetting 7 63) world ∧ CanTake (.setSetting 9 0) world ∧
    CanTake (.setSetting 8 55) world ∧ ¬(55 ∈ [40, 50, 62].eraseIdx 1 ∨ ∃ b ∈ bayNumbers, (bayAt world b).address = 55) ∧
    CanTake (.setSetting 7 41) world ∧ ¬(41 ∈ [40, 50, 62].eraseIdx 0 ∨ ∃ b ∈ bayNumbers, (bayAt world b).address = 41) ∧
    (world.assembly.cons.filter fun e => decide (e.2.state = .picking ∧ e.2.lines ≠ [])).map Prod.fst = [1, 2] ∧
    (after (.setSetting 7 41) world).line.floorTx.map (fun f => (f.dst, f.payload.take 2)) = [(41, [1, 0]), (41, [2, 0])] :=
  ⟨taken _ rfl (by decide) rfl rfl rfl, by decide, taken _ rfl (by decide) rfl rfl rfl, by decide,
    taken _ rfl (by decide) rfl rfl rfl, taken _ rfl (by decide) rfl rfl rfl, taken _ rfl (by decide) rfl rfl rfl,
    taken _ rfl (by decide) rfl rfl rfl, taken _ rfl (by decide) rfl rfl rfl, by decide,
    taken _ rfl (by decide) rfl rfl rfl, by decide, by decide, by decide⟩

theorem test_witness_RestartClearsLineAndBays :
    CanTake .restart world ∧ world.management.mode = .service ∧ world.line.floorIn = [] ∧
    (let s := { turnOf 62 world with line.floorIn := [charOf true 0] }
     CanTake .restart s ∧ s.line.floorIn ≠ [] ∧ s.line.early = false ∧ s.line.turn = some ⟨62, false⟩) :=
  ⟨taken _ rfl (by decide) rfl rfl rfl, rfl, rfl, taken _ rfl (by decide) rfl rfl rfl, by decide, rfl, rfl⟩

theorem test_witness_PatronLoadsAndDeletes :
    (∀ k present agency : Byte, ∀ cls : Byte,
      CanTake (.loadPatron (k.setWidth 16) present 0 0 3 3 cls 15 agency 16777215) world) ∧
    world.management.geometry.p = 8 ∧ Table.get world.records.patrons 5 = none ∧
    (∃ p, Table.get world.records.patrons 1 = some p ∧ 0 < p.charge ∧ p.cartridgeClass ≠ 3) ∧
    (∃ p, Table.get world.records.patrons 8 = some p ∧ p.charge = 0 ∧ p.wish = []) ∧
    (∃ p, Table.get world.records.patrons 2 = some p ∧ p.status = .suspended ∧ p.quota < 15) ∧
    Table.get world.records.agencies 9 = none ∧ (Table.get world.records.agencies 255).isSome = true ∧
    statusValue .active = (0 : Byte).toNat ∧ patronClassValue .standard = (0 : Byte).toNat :=
  ⟨fun k present agency cls =>
      taken (i := .loadPatron (k.setWidth 16) present 0 0 3 3 cls 15 agency 16777215) _ rfl rfl rfl rfl rfl,
    rfl, by decide, ⟨_, rfl, by decide, by decide⟩, ⟨_, rfl, by decide, by decide⟩, ⟨_, rfl, by decide, by decide⟩, by decide,
    by decide, rfl, rfl⟩

theorem test_witness_AgencyLoadsAndDeletes :
    (∀ e ∈ [((0 : U16), (1 : Byte)), (256, 1), (255, 2), (255, 1), (2, 1), (2, 0), (1, 0), (255, 0)],
      CanTake (.loadAgency e.1 e.2 5) world) ∧
    Table.get world.records.agencies 2 = none ∧ Table.get world.records.agencies 1 = some ⟨500120, 1⟩ ∧
    Table.get world.records.agencies 255 = some ⟨7, 0⟩ :=
  ⟨fun e _ => taken (i := .loadAgency e.1 e.2 5) _ rfl rfl rfl rfl rfl, by decide, by decide, by decide⟩

/-- Title 2 lends and title 8 does not; title 7 is absent; a withdrawn shelf title is made available; a shelf title's copies go
to blank. -/
theorem test_witness_TitleLoadsAndDeletes :
    (∀ (k : U16) (present availability : Byte),
      CanTake (.loadTitle k present 0 1 3 availability 32767 1 4 0 0) world ∧
      CanTake (.loadTitle k present 1 1 3 availability 0 0 0 32 5000) world) ∧
    world.management.geometry.t = 8 ∧ Table.get world.records.titles 7 = none ∧
    (∃ x, Table.get world.records.titles 2 = some x ∧ x.shelfClass ≠ 4 ∧ x.waiting ≠ []) ∧
    (∃ x, Table.get world.records.titles 8 = some x ∧ x.waiting = [] ∧ x.out = 0 ∧ x.repair = 0 ∧ x.copies = 0) ∧
    formatValue .audio = (0 : Byte).toNat ∧ formatValue .braille = (1 : Byte).toNat ∧ policyValue .shelf = (1 : Byte).toNat ∧
    (let s := { world with records.titles := [(8, { aShelfTitle with copies := 1, out := 0, repair := 0, availability := .withdrawn })] }
     ∃ x, Table.get s.records.titles 8 = some x ∧ x.availability = .withdrawn ∧ x.waiting = [] ∧ x.out = 0 ∧ x.repair = 0 ∧
       x.format = .audio ∧ x.policy = .shelf ∧ 0 < x.shelf) :=
  ⟨fun k present availability =>
      ⟨taken (i := .loadTitle k present 0 1 3 availability 32767 1 4 0 0) _ rfl rfl rfl rfl rfl,
        taken (i := .loadTitle k present 1 1 3 availability 0 0 0 32 5000) _ rfl rfl rfl rfl rfl⟩,
    rfl, by decide, ⟨_, rfl, by decide, by decide⟩, ⟨_, rfl, by decide⟩, rfl, rfl, rfl, ⟨_, rfl, by decide⟩⟩

/-- Every table number and index is read in a state with every kind of record. -/
theorem test_witness_RecordsAreReadWhole :
    (∀ (table : Byte) (k : U16), CanTake (.readRecord table k) world) ∧
    world.management.geometry = ⟨8, 8, 8, 8, 8⟩ ∧ (Table.get world.requests 1).isSome = true ∧
    (Table.get world.assembly.cons 7).isSome = true ∧ Table.get world.assembly.cons 8 = none ∧
    (Table.get world.scheduler.jobs 7).isSome = true :=
  ⟨fun table k => taken (i := .readRecord table k) _ rfl rfl rfl rfl rfl, rfl, by decide, by decide, by decide, by decide⟩

theorem test_witness_UnitsAreRead :
    (∀ c : Byte, CanTake (.readStock c) world ∧ CanTake (.readChannel c) world) ∧ CanTake .readDay world ∧
    CanTake .readInspection world ∧ CanTake .readDispatch world ∧
    (∀ half index : Byte, CanTake (.readManifest half index) world) ∧
    (let s := { world with dispatch.half1 := [⟨5, 3, .pack, 1, 1, 0, 1, .concession, 9, 0, false, 1000, 1042⟩] }
     s.dispatch.half1[(1 : Byte).toNat - 1]? = some ⟨5, 3, .pack, 1, 1, 0, 1, .concession, 9, 0, false, 1000, 1042⟩ ∧
       s.dispatch.half1.length < (64 : Byte).toNat) :=
  ⟨fun c => ⟨taken (i := .readStock c) _ rfl rfl rfl rfl rfl, taken (i := .readChannel c) _ rfl rfl rfl rfl rfl⟩,
    taken _ rfl (by decide) rfl rfl rfl, taken _ rfl (by decide) rfl rfl rfl, taken _ rfl (by decide) rfl rfl rfl,
    fun half index => taken (i := .readManifest half index) _ rfl rfl rfl rfl rfl, by decide⟩

theorem test_witness_SetupLinesAndNoticesAreRead :
    CanTake .readSetup world ∧ world.management.geometry ≠ ⟨0, 0, 0, 0, 0⟩ ∧ budgetTotal world.management.geometry ≤ 1048576 ∧
    CanTake .readSetup State.reset ∧ CanTake .readLines world ∧ world.line.turn = none ∧
    (let s := turnOf 62 world; CanTake .readLines s ∧ s.line.turn = some ⟨62, false⟩) ∧
    (let s := { setMissed 62 2 (turnOf 62 world) with line.floorIn := [charOf true 0] }
     CanTake .readLines s ∧ s.line.floorIn ≠ [] ∧ s.line.early = false ∧ s.line.turn = some ⟨62, false⟩ ∧ missedNow s 62 = 0 ∧
       missedNow { s with line.floorIn := [] } 62 = 2) ∧ CanTake .readNotices world :=
  ⟨taken _ rfl (by decide) rfl rfl rfl, by decide, by decide, taken _ rfl (by decide) rfl rfl rfl,
    taken _ rfl (by decide) rfl rfl rfl, rfl, ⟨taken _ rfl (by decide) rfl rfl rfl, rfl⟩,
    ⟨taken _ rfl (by decide) rfl rfl rfl, by decide, rfl, rfl, by decide, by decide⟩, taken _ rfl (by decide) rfl rfl rfl⟩

/-- Each refusal of the checks has its operands; a full list and a full pool refuse an ORDER. -/
theorem test_witness_OrderAndProbeChecksInOrder :
    (∀ p t : U16, CanTake (.order 15 p t) world ∧ CanTake (.probe 2 p t) world) ∧
    [(0, 1), (9, 1), (5, 1), (2, 1), (1, 9), (1, 5), (8, 4), (1, 2), (3, 1)].map
        (fun e : Nat × Nat => orderChecks world e.1 e.2) =
      [some .nullPatron, some .patronRange, some .patronAbsent, some .patronSuspended, some .titleRange, some .titleAbsent,
        some .withdrawn, some .duplicate, some .onLoan] ∧
    orderChecks world 8 8 = none ∧
    (let s := { world with records.patrons := [(8, { aPatron with wish := List.replicate 32 1 })] }
     CanTake (.order 1 8 8) s ∧ s.management.settings.listLimit ≤ (List.replicate 32 1).length) ∧
    (let s := { world with requests := [1, 2, 3, 4, 5, 6, 7, 8].map fun k => (k, ⟨1, 2, 990⟩) }
     CanTake (.order 1 8 8) s ∧ Table.lowestFree s.requests s.management.geometry.q = none) :=
  ⟨fun p t => ⟨taken (i := .order 15 p t) _ rfl rfl rfl rfl rfl, taken (i := .probe 2 p t) _ rfl rfl rfl rfl rfl⟩, by decide,
    by decide, ⟨taken _ rfl (by decide) rfl rfl rfl, by decide⟩, ⟨taken _ rfl (by decide) rfl rfl rfl, by decide⟩⟩

theorem test_witness_OrderWaitsOrOpensAPack :
    (∃ p x, OrderAccepted 1 4 8 world (due world) p x 2 ∧ p.held = true) ∧
    (∃ p x, OrderAccepted 1 8 8 world (due world) p x 2 ∧ p.held = false ∧ p.charge + 1 < p.quota ∧ x.policy = .onDemand ∧
      Table.get world.assembly.cons p.openPack = none ∧ Table.lowestFree world.assembly.cons 8 = some 8 ∧
      world.management.settings.packHold ≠ 0) ∧
    (∃ p x c, OrderAccepted 1 3 8 world (due world) p x 2 ∧ x.policy = .onDemand ∧ Table.get world.assembly.cons p.openPack = some c ∧
      c.used + 100 + 16 ≤ capacityOf world c.cartridgeClass) ∧
    (let s := { world with management.capacity := #v[1024, 290, 290, 290] }
     ∃ p x c, OrderAccepted 1 3 8 s (due s) p x 2 ∧ Table.get s.assembly.cons p.openPack = some c ∧ c.state = .assembling ∧
       c.patron = 3 ∧ capacityOf s c.cartridgeClass < c.used + 100 + 16 ∧ TablesCanonical s ∧ s.assembly.sealedList = [] ∧
       Table.lowestFree s.scheduler.jobs 8 = some 8) ∧
    (let s := { world with management.capacity := #v[1024, 290, 290, 290], assembly.sealedList := [7] }
     (∃ p x, OrderAccepted 1 3 8 s (due s) p x 2) ∧ s.assembly.sealedList ≠ []) ∧
    (let s := { world with management.geometry := ⟨8, 8, 8, 7, 8⟩ }
     (∃ p x, OrderAccepted 1 8 8 s (due s) p x 2 ∧ Table.get s.assembly.cons p.openPack = none) ∧
       (∃ p x, OrderAccepted 1 8 2 s (due s) p x 2 ∧ x.policy = .shelf ∧ 1 ≤ x.shelf) ∧ Table.lowestFree s.assembly.cons 7 = none) ∧
    (∃ p x, OrderAccepted 1 8 2 world (due world) p x 2 ∧ x.policy = .shelf ∧ x.format = .audio ∧ 1 ≤ x.shelf ∧
      1 ≤ (accountAt world x.shelfClass).shelf) :=
  ⟨⟨_, _, ⟨takenDue _ rfl (by decide) rfl rfl rfl, rfl, by decide, rfl, rfl, by decide, by decide⟩, rfl⟩,
    ⟨_, _, ⟨takenDue _ rfl (by decide) rfl rfl rfl, rfl, by decide, rfl, rfl, by decide, by decide⟩, rfl, by decide, rfl,
      by decide, by decide, by decide⟩,
    ⟨_, _, _, ⟨takenDue _ rfl (by decide) rfl rfl rfl, rfl, by decide, rfl, rfl, by decide, by decide⟩, rfl, rfl, by decide⟩,
    ⟨_, _, _, ⟨takenDue _ rfl (by decide) rfl rfl rfl, rfl, by decide, rfl, rfl, by decide, by decide⟩, rfl, rfl, rfl, by decide,
      by unfold TablesCanonical; decide, rfl, by decide⟩,
    ⟨⟨_, _, takenDue _ rfl (by decide) rfl rfl rfl, rfl, by decide, rfl, rfl, by decide, by decide⟩, by decide⟩,
    ⟨⟨_, _, ⟨takenDue _ rfl (by decide) rfl rfl rfl, rfl, by decide, rfl, rfl, by decide, by decide⟩, by decide⟩,
      ⟨_, _, ⟨takenDue _ rfl (by decide) rfl rfl rfl, rfl, by decide, rfl, rfl, by decide, by decide⟩, rfl, by decide⟩,
      by decide⟩,
    ⟨_, _, ⟨takenDue _ rfl (by decide) rfl rfl rfl, rfl, by decide, rfl, rfl, by decide, by decide⟩, rfl, rfl, by decide,
      by decide⟩⟩

/-- A first pack that closes at once: at the quota with a FREE job record and without one, and with pack hold 0. -/
theorem test_witness_OrderClosesAFirstPack :
    (let s := { world with records.patrons := [(8, { aPatron with quota := 1 })] }
     ∃ p x, OrderAccepted 1 8 8 s (due s) p x 2 ∧ x.policy = .onDemand ∧ Table.get s.assembly.cons p.openPack = none ∧
       p.quota ≤ p.charge + 1 ∧ TablesCanonical s ∧ s.assembly.sealedList = [] ∧
       Table.lowestFree s.assembly.cons s.management.geometry.c = some 8 ∧
       Table.lowestFree s.scheduler.jobs s.management.geometry.j = some 8) ∧
    (let s := { world with management.settings.packHold := 0, assembly.sealedList := [7] }
     ∃ p x, OrderAccepted 1 8 8 s (due s) p x 2 ∧ x.policy = .onDemand ∧ Table.get s.assembly.cons p.openPack = none ∧
       s.management.settings.packHold = 0 ∧ TablesCanonical s ∧ s.assembly.sealedList ≠ []) :=
  ⟨⟨_, _, ⟨takenDue _ rfl (by decide) rfl rfl rfl, rfl, by decide, rfl, rfl, by decide, by decide⟩, rfl, by decide, by decide,
      by unfold TablesCanonical; decide, rfl, by decide, by decide⟩,
    _, _, ⟨takenDue _ rfl (by decide) rfl rfl rfl, rfl, by decide, rfl, rfl, by decide, by decide⟩, rfl, by decide, rfl,
      by unfold TablesCanonical; decide, by decide⟩

/-- A braille title of 3 volumes in 3 parts takes FREE records 1, 2 and 4; with 2 FREE records it waits. -/
theorem test_witness_OrderAllocatesASet :
    let set (c : Nat) : State := { circulating with
      management.geometry := ⟨2, 4, 2, c, 2⟩
      assembly.cons := [(3, { aConsignment .releasing .braillePart 1 4 with head := 3 })]
      records.patrons := [(1, { aPatron with charge := 1, chain := [3] }), (2, aPatron)]
      records.titles := [(4, { aBrailleTitle with copies := 2, shelf := 1, out := 1, repair := 0, volumes := 3, weight := 20000 })]
      requests := [], scheduler.jobs := [], scheduler.bays := State.reset.scheduler.bays }
    (∃ p x, OrderAccepted 1 2 4 (set 4) (due (set 4)) p x 1 ∧ x.format = .braille ∧ 1 ≤ x.shelf ∧ 1 ≤ x.volumes ∧
      (planSet 30000 x.volumes x.weight).parts = 3 ∧ freeConsignments (set 4) = 3 ∧ TablesCanonical (set 4) ∧
      InPools (set 4) ∧ Table.lowestFree (set 4).assembly.cons 4 = some 1) ∧
    (∃ p x, OrderAccepted 1 2 4 (set 3) (due (set 3)) p x 1 ∧ freeConsignments (set 3) < (planSet 30000 x.volumes x.weight).parts) :=
  ⟨⟨_, _, ⟨takenDue _ rfl (by decide) rfl rfl rfl, rfl, by decide, rfl, rfl, by decide, by decide⟩, rfl, by decide, by decide,
      by decide, by decide, by unfold TablesCanonical; decide, by unfold InPools; decide, by decide⟩,
    _, _, ⟨takenDue _ rfl (by decide) rfl rfl rfl, rfl, by decide, rfl, rfl, by decide, by decide⟩, by decide⟩

/-- Patron 1 waits for title 2; patron 3 has title 1 on its open pack, alone or beside title 8; patron 1's other loan is past
ASSEMBLING. -/
theorem test_witness_CancelTakesBackRequestOrLine :
    (∀ p t : U16, CanTake (.cancel 1 p t) world) ∧
    (∃ p q, Table.get world.records.patrons 1 = some p ∧ liveRequest world p 2 = some 1 ∧
      Table.get world.requests 1 = some q ∧ q.patron = 1 ∧ liveRequest world p 3 = none ∧ onLoan world p 3 = true ∧
      onLoan world p 8 = false) ∧
    (∃ p c, Table.get world.records.patrons 3 = some p ∧ liveRequest world p 1 = none ∧
      Table.get world.assembly.cons p.openPack = some c ∧ c.state = .assembling ∧ c.patron = 3 ∧
      carriesOpen world 1 p.openPack = true ∧ dropLine 1 c.lines = [] ∧ dropLine 1 (c.lines ++ [⟨8, 900, .isOpen⟩]) ≠ []) :=
  ⟨fun p t => taken (i := .cancel 1 p t) _ rfl rfl rfl rfl rfl, ⟨_, _, rfl, by decide, rfl, by decide⟩,
    ⟨_, _, rfl, by decide, rfl, by decide⟩⟩

/-- A title with a copy on its shelf, a request that cannot be scored before one that can, a title with no such request, and titles
that are absent, ON_DEMAND, WITHDRAWN and without a copy on the shelf. -/
theorem test_witness_ClaimsAreScoredAndChosen :
    aPatron.charge < aPatron.quota ∧ daysFrom 990 1000 ≤ daysFrom 990 1001 ∧ Table.get world.records.titles 7 = none ∧
    (∀ m ∈ [1, 4], (Table.get world.records.titles m).any (fun x => decide (x.policy = .onDemand)) = true) ∧
    ((Table.get world.records.titles 4).any fun x => decide (x.availability = .withdrawn)) = true ∧
    ((Table.get circulating.records.titles 3).any fun x => decide (x.policy = .shelf ∧ x.shelf = 0 ∧ x.waiting ≠ [])) = true ∧
    (∃ x, Table.get world.records.titles 2 = some x ∧ x.policy = .shelf ∧ 1 ≤ x.shelf ∧ x.availability = .available ∧
      ∃ r ∈ x.waiting, scoreOf world r ≠ none) ∧
    (let s := { world with records.patrons := [(1, { aPatron with charge := 4 })] }
     ∃ x, Table.get s.records.titles 2 = some x ∧ 1 ≤ x.shelf ∧ ∀ r ∈ x.waiting, scoreOf s r = none) ∧
    scoreOf world 1 = some 68 ∧ scoreOf { world with records.patrons := [(1, { aPatron with held := true })] } 1 = none :=
  ⟨by decide, by decide, by decide, by decide, by decide, by decide, ⟨_, rfl, by decide⟩, ⟨_, rfl, by decide⟩, by decide, by decide⟩

/-- One attempt of a walk: a request with a place, one whose patron is held, one without a FREE record, and one whose patron is
absent; and the walk over two requests, of which the quota lets the first through. -/
theorem test_witness_HeadroomAttempts :
    (∃ q y x, Table.get world.requests 1 = some q ∧ Table.get world.records.patrons q.patron = some y ∧
      Table.get world.records.titles q.title = some x ∧ x.policy = .shelf ∧ x.format = .audio ∧ 1 ≤ x.shelf ∧ y.status = .active ∧
      y.held = false ∧ y.charge < y.quota ∧ Table.lowestFree world.assembly.cons 8 = some 8) ∧ TablesCanonical world ∧
    (attempt 1 { world with records.patrons := [(1, { aPatron with held := true })] }).1 = .passedOver ∧
    (attempt 1 { world with management.geometry := ⟨8, 8, 8, 7, 8⟩ }).1 = .noRecords ∧
    Table.get world.requests 2 = none ∧ Table.get { world with records.patrons := [] }.records.patrons 1 = none ∧
    (let s := { world with
       requests := [(1, ⟨8, 2, 990⟩), (2, ⟨8, 8, 990⟩)]
       records.patrons := [(8, { aPatron with wish := [2, 1], quota := 1 })] }
     (Table.get (headroom 8 s).records.patrons 8).map (fun y => (y.wish, y.charge)) = some ([1], 1) ∧
       (Table.get (headroom 8 s).assembly.cons 8).map Consignment.lines = some [⟨8, 990, .isOpen⟩]) :=
  ⟨⟨_, _, _, rfl, rfl, rfl, by decide⟩, by unfold TablesCanonical; decide, by decide, by decide, by decide, by decide, by decide,
    by decide⟩

theorem test_witness_FlushSealsOpenPacks :
    (∀ p : U16, CanTake (.flushPack p) world) ∧
    (∃ p c, Table.get world.records.patrons 3 = some p ∧ p.openPack ≠ 0 ∧ Table.get world.assembly.cons p.openPack = some c ∧
      c.state = .assembling ∧ c.patron = 3) ∧
    world.assembly.sealedList = [] ∧ Table.lowestFree world.scheduler.jobs world.management.geometry.j = some 8 ∧
    (let s := { world with management.geometry := ⟨8, 8, 8, 8, 7⟩ }
     CanTake (.flushPack 3) s ∧ Table.lowestFree s.scheduler.jobs s.management.geometry.j = none) ∧
    (∃ p, Table.get world.records.patrons 8 = some p ∧ p.openPack = 0) ∧
    (let s := { world with
       records.patrons := [(3, { aPatron with openPack := 3 }), (8, { aPatron with patronClass := .priority, openPack := 5 })]
       assembly.cons := [(3, aConsignment .assembling .pack 3 1), (5, aConsignment .assembling .pack 8 1)] }
     CanTake (.flushPack 0) s ∧ TablesCanonical s ∧ s.assembly.sealedList = [] ∧
       ((List.range' 1 s.management.geometry.j).filter fun j => (Table.get s.scheduler.jobs j).isNone) = [8] ∧
       ((after (.flushPack 0) s).assembly.cons.map fun e => (e.2.state, e.2.sealPriority, e.2.job)) =
         [(.duplicating, 1, 8), (.sealed, 2, 0)] ∧ (after (.flushPack 0) s).assembly.sealedList = [5]) :=
  ⟨fun p => taken (i := .flushPack p) _ rfl rfl rfl rfl rfl, ⟨_, _, rfl, by decide, rfl, by decide⟩, rfl, by decide,
    ⟨taken _ rfl (by decide) rfl rfl rfl, by decide⟩, ⟨_, rfl, by decide⟩,
    ⟨taken _ rfl (by decide) rfl rfl rfl, by unfold TablesCanonical; decide, rfl, by decide, by decide, by decide⟩⟩

theorem test_witness_WaitingFramesAreHandedOn :
    (∃ c l more, world.assembly.picks = [1] ∧ Table.get world.assembly.cons 1 = some c ∧ c.lines = l :: more) ∧
    floorRoom (aheadOfPicks world) world = true ∧
    (∀ k ∈ world.assembly.picks, (Table.get world.assembly.cons k).isSome = true) ∧
    (let s := { modBay 24 (fun b => { b with owed := [⟨61, 0, 115, [1, 0]⟩] }) world with
       line.floorTx := List.replicate 31 ⟨16, 0, 96, []⟩ }
     (∀ o ∈ bayNumbers, o < 24 → (bayAt s o).owed = []) ∧ (bayAt s 24).owed = [⟨61, 0, 115, [1, 0]⟩] ∧
       floorRoom (waitingForwards s) s = true ∧ waitingCommands s ≠ 0 ∧ floorRoom (aheadOfPicks s) s = true ∧
       floorRoom (aheadOfPicks s) (contested s) = false) ∧
    (let s := { world with
       returns.owedAnswer := some ⟨62, 0, 160, [4, 0, 1]⟩, line.floorTx := List.replicate 31 ⟨16, 0, 96, []⟩ }
     floorRoom (waitingForwards s + waitingCommands s) (contested s) = true ∧ waitingAnswers s ≠ 0) ∧
    (let s := contested { world with line.officeRx := [⟨16, 1, 65, []⟩] }
     waitingForwards s ≠ 0 ∧ floorRoom (waitingForwards s) s = false) ∧
    (let s := { world with line.floorTx := List.replicate 32 ⟨16, 0, 96, []⟩ }; floorRoom 0 s = false) ∧
    (∀ b ∈ bayNumbers, (bayAt world b).owed = []) ∧ world.returns.owedAnswer = none :=
  ⟨⟨_, _, _, rfl, rfl, rfl⟩, by decide, by decide, by decide, by decide, by decide, by decide, by decide, rfl⟩

/-- R197: of the places of a queue that was full a PICK takes none while a forwarded frame waits at the head of the office
queue; a queue that was not full has room for either (R68, R108). -/
theorem test_a_forwarded_frame_goes_first :
    let s (n : Nat) := { world with line.officeRx := [⟨16, 1, 65, []⟩], line.floorTx := List.replicate n ⟨63, 0, 98, []⟩ }
    let t := after .floorSend (s 32)
    after .pick t = t ∧ (after .pick (s 31)).line.floorTx.length = 32 ∧
      ((after .pick (after .floorSend (after .forwardToFloor t))).line.floorTx.drop 30).map Frame.kind = [65, 128] := by
  decide

theorem test_witness_PickAnswersAreTaken :
    AtUnit .pickStation 40 (turnOf 40 world) (answeredBy 40 (turnOf 40 world)) ∧
    (∃ c l, Table.get world.assembly.cons 1 = some c ∧ c.state = .picking ∧ c.kind = .shelfAudio ∧ c.lines = [l] ∧
      l.state = .isOpen ∧ (∃ p, Table.get world.records.patrons c.patron = some p) ∧
      ∃ x, Table.get world.records.titles l.title = some x ∧ x.policy = .shelf) ∧
    (∃ c l, Table.get world.assembly.cons 2 = some c ∧ c.state = .picking ∧ c.kind = .braillePart ∧ c.lines = [l] ∧
      l.state = .isOpen ∧ (Table.get world.records.titles l.title).any (fun x => decide (x.policy = .shelf)) = true) ∧
    Table.lowestFree world.requests 8 = some 2 ∧ Table.lowestFree world.requests 1 = none ∧
    (∃ c, Table.get world.assembly.cons 3 = some c ∧ c.state ≠ .picking) ∧ Table.get world.assembly.cons 8 = none :=
  ⟨⟨inTurn 40 world (by decide) rfl, rfl, by decide⟩, ⟨_, _, rfl, rfl, rfl, rfl, rfl, ⟨_, rfl⟩, _, rfl, rfl⟩,
    ⟨_, _, rfl, rfl, rfl, rfl, rfl, by decide⟩, by decide, by decide, ⟨_, rfl, by decide⟩, by decide⟩

theorem test_witness_BaysAreSetUp :
    (∀ b a c p : Byte, CanTake (.setBay b a c p) world) ∧ (∀ b : Byte, CanTake (.bayOnline b) world) ∧
    (∀ b : Byte, CanTake (.bayOffline b) world) ∧ (bayAt world 6).state = .offline ∧ (bayAt world 6).address = 0 ∧
    (bayAt world 24).state = .offline ∧ (bayAt world 24).address = 61 ∧ (bayAt world 3).state = .faulted ∧
    (bayAt world 5).state = .parking ∧ (bayAt world 5).stack = [3] ∧ (bayAt world 5).active = 7 :=
  ⟨fun b a c p => taken (i := .setBay b a c p) _ rfl rfl rfl rfl rfl, fun b => taken (i := .bayOnline b) _ rfl rfl rfl rfl rfl,
    fun b => taken (i := .bayOffline b) _ rfl rfl rfl rfl rfl, by decide, by decide, by decide, by decide, by decide, by decide,
    by decide, by decide⟩

theorem test_witness_PlacementLoadsTheBay :
    (∃ j, Table.get world.scheduler.jobs 2 = some j ∧ 1 ≤ j.cartridgeClass ∧ j.cartridgeClass ≤ 4 ∧
      1 ≤ (accountAt world j.cartridgeClass).blank) ∧ floorRoom (waitingForwards world + waitingCommands world) world = true ∧
    (let s := { world with line.floorTx := List.replicate 32 ⟨16, 0, 96, []⟩ }
     floorRoom (waitingForwards s + waitingCommands s) s = false) ∧
    (let s := { world with accounts := State.reset.accounts }; (accountAt s 2).blank = 0) ∧
    idleBayFor (modBay 2 (fun b => { b with classes := 2 }) world) 2 = some 2 ∧ idleBayFor world 2 = none ∧
    preemptionBay world 2 3 = none ∧ preemptionBay (modBay 1 (fun b => { b with preempt := true }) world) 2 3 = some 1 ∧
    (Table.get world.scheduler.jobs (bayAt world 5).preemptor).isSome = true ∧
    (chooseWork 1 0 (placementOrder world) world).1 = some 5 ∧ (chooseWork 2 0 (placementOrder world) world).1 = none ∧
    (let s := modBay 5 (fun b => { b with classes := 0 }) world
     (bayAt s 5).stack = [3] ∧ (chooseWork 5 1 (placementOrder s) s).1 = none) :=
  ⟨⟨_, rfl, by decide⟩, by decide, by decide, by decide, by decide, by decide, by decide, by decide,
    by decide, by decide, by decide, by decide⟩

/-- Bays 4, 1, 5 and 2 are LOADING, WRITING, PARKING and IDLE. -/
theorem test_witness_BayReportsAreTaken :
    (∀ e ∈ [(19, 4), (16, 1), (20, 5), (17, 2)],
      AtBay e.1 e.2 (turnOf e.1 world) (answeredBy e.1 (turnOf e.1 world))) ∧
    (bayAt world 4).active = 6 ∧ (bayAt world 1).active = 1 ∧ (bayAt world 5).active = 7 ∧ (bayAt world 2).active = 0 := by
  refine ⟨?_, by decide, by decide, by decide, by decide⟩
  intro e he
  have h : 16 ≤ e.1 ∧ e.1 ≤ 62 := by revert e; decide
  exact ⟨inTurn e.1 world h rfl, rfl, by revert e; decide⟩

theorem test_witness_CopyResultsAreTaken :
    AtBay 16 1 (turnOf 16 world) (answeredBy 16 (turnOf 16 world)) ∧ (bayAt world 1).active = 1 ∧
    (∃ x c, Table.get world.scheduler.jobs 1 = some x ∧ x.kind = .pack ∧ x.retry = false ∧
      Table.get world.assembly.cons x.consignment = some c ∧ 1 ≤ (accountAt world x.cartridgeClass).reserved) ∧
    world.assembly.sealedList = [] ∧
    (let s := modJob 1 (fun x => { x with kind := .stock, title := 2, remaining := 2, retry := true }) world
     AtBay 16 1 (turnOf 16 s) (answeredBy 16 (turnOf 16 s)) ∧
       (∃ x, Table.get s.scheduler.jobs 1 = some x ∧ x.kind = .stock ∧ x.retry = true ∧ 2 ≤ x.remaining) ∧
       ∃ y, Table.get s.records.titles 2 = some y ∧ y.format = .audio ∧ y.policy = .shelf ∧ y.shelfClass = 2) ∧
    (let s := modJob 1 (fun x => { x with kind := .stock, title := 8, remaining := 1 }) world
     AtBay 16 1 (turnOf 16 s) (answeredBy 16 (turnOf 16 s)) ∧ ∃ y, Table.get s.records.titles 8 = some y ∧ y.policy = .onDemand) ∧
    (let s := modJob 1 (fun x => { x with retry := true }) world
     AtBay 16 1 (turnOf 16 s) (answeredBy 16 (turnOf 16 s)) ∧
       ∃ x, Table.get s.scheduler.jobs 1 = some x ∧ x.kind = .pack ∧ x.retry = true) ∧
    (let s := { world with assembly.sealedList := [7] }
     (∃ c, s.assembly.sealedList = 7 :: [] ∧ Table.get s.assembly.cons 7 = some c) ∧ TablesCanonical s) :=
  ⟨⟨inTurn 16 world (by decide) rfl, rfl, by decide⟩, by decide, ⟨_, _, rfl, rfl, rfl, rfl, by decide⟩, rfl,
    ⟨⟨inTurn 16 _ (by decide) rfl, rfl, by decide⟩, ⟨_, rfl, by decide⟩, ⟨_, rfl, by decide⟩⟩,
    ⟨⟨inTurn 16 _ (by decide) rfl, rfl, by decide⟩, ⟨_, rfl, by decide⟩⟩,
    ⟨⟨inTurn 16 _ (by decide) rfl, rfl, by decide⟩, ⟨_, rfl, by decide⟩⟩,
    ⟨_, rfl, rfl⟩, by unfold TablesCanonical; decide⟩

/-- Two lines come back and one request record is FREE: the first stands before patron 1's own request, the second is dropped. -/
theorem test_witness_LinesAreRestored :
    let s := { world with requests := [2, 3, 4, 5, 6, 7, 8].map fun k => (k, ⟨1, 2, 990⟩), management.geometry := ⟨8, 8, 8, 8, 8⟩
                          records.patrons := [(1, { aPatron with charge := 2, wish := [2] })] }
    let t := restoreLines 1 0 [⟨1, 900, .isOpen⟩, ⟨8, 901, .isOpen⟩] s
    TablesCanonical s ∧ (∃ p, Table.get s.records.patrons 1 = some p ∧ 0 ∉ p.wish ∧ 1 ∉ p.wish) ∧
    ((List.range' 1 s.management.geometry.q).filter fun r => (Table.get s.requests r).isNone) = [1] ∧
    (Table.get t.records.patrons 1).map (fun p => (p.wish, p.charge)) = some ([1, 2], 0) ∧ Table.get t.requests 1 = some ⟨1, 1, 900⟩ ∧
    ((Table.get t.records.titles 1).map fun x => (x.waiting, x.out)) = some ([1], 0) ∧
    (bankGet t.management.notices (noticeNumber .restoreDropped) {}).latch = true :=
  ⟨by unfold TablesCanonical; decide, ⟨_, rfl, by decide⟩, by decide, by decide, by decide, by decide, by decide⟩

theorem test_witness_BayFaultsEmptyTheBay :
    AtBay 18 3 (turnOf 18 world) (answeredBy 18 (turnOf 18 world)) ∧ AtBay 20 5 (turnOf 20 world) (answeredBy 20 (turnOf 20 world)) ∧
    (bayAt world 1).running = true ∧
    (∀ o ∈ bayNumbers, (bayAt world o).running = true → (bayAt world 1).timer ≤ (bayAt world o).timer) ∧
    (bayAt world 24).running = false ∧ heldJobs (bayAt world 5) = [7, 3] ∧ (bayAt world 5).preemptor = 4 ∧
    (∀ j ∈ [7, 3], ((Table.get world.scheduler.jobs j).any fun x => !x.retry) = true) ∧
    (let s := modJob 1 (fun x => { x with retry := true }) world
     heldJobs (bayAt s 1) = [1] ∧ (bayAt s 1).preemptor = 0 ∧ ∃ x c, Table.get s.scheduler.jobs 1 = some x ∧ x.retry = true ∧
       x.kind = .pack ∧ Table.get s.assembly.cons x.consignment = some c ∧ 1 ≤ (accountAt s x.cartridgeClass).reserved) ∧
    (let s := modJob 3 (fun x => { x with retry := true }) world
     AtBay 20 5 (turnOf 20 s) (answeredBy 20 (turnOf 20 s)) ∧ (bayAt s 5).state = .parking ∧
       [7, 3].map (fun j => (Table.get s.scheduler.jobs j).map Job.retry) = [some false, some true] ∧
       (∀ j ∈ [7, 3, 4], (Table.get s.scheduler.jobs j).isSome = true) ∧
       [7, 3, 4].map (fun j => (Table.get (faultBay 5 (.reported 1) s).scheduler.jobs j).map Job.state) =
         [some .queued, none, some .queued]) :=
  ⟨⟨inTurn 18 world (by decide) rfl, rfl, by decide⟩, ⟨inTurn 20 world (by decide) rfl, rfl, by decide⟩, by decide, by decide,
    by decide, by decide, by decide, by decide, ⟨by decide, by decide, _, _, rfl, rfl, rfl, rfl, by decide⟩,
    ⟨inTurn 20 _ (by decide) rfl, rfl, by decide⟩, by decide, by decide, by decide, by decide⟩

/-- Jobs 2, 3, 4, 5 and 7 are queued, parked, pending, queued at level 3, and active on a bay that is parking. -/
theorem test_witness_StockRunsAndRaises :
    (∀ (t : U16) (n : Byte), CanTake (.buildStock t n) world) ∧ (∀ j : U16, CanTake (.raiseJob j) world) ∧
    (∃ x, Table.get world.records.titles 2 = some x ∧ x.format = .audio ∧ x.policy = .shelf ∧
      titleBlocks x + 80 ≤ capacityOf world x.shelfClass) ∧
    (∃ x, Table.get world.records.titles 3 = some x ∧ x.format = .braille) ∧
    Table.lowestFree world.scheduler.jobs 8 = some 8 ∧
    [2, 3, 4, 5, 7].map (fun j => (Table.get world.scheduler.jobs j).map fun x => (x.state, x.priority)) =
      [some (.queued, 1), some (.parked, 0), some (.pending, 2), some (.queued, 3), some (.active, 1)] :=
  ⟨fun t n => taken (i := .buildStock t n) _ rfl rfl rfl rfl rfl, fun j => taken (i := .raiseJob j) _ rfl rfl rfl rfl rfl,
    ⟨_, rfl, by decide⟩, ⟨_, rfl, by decide⟩, by decide, by decide⟩

/-- The pass has a release to make: consignment 6 stands READY and four slots are not yet taken. With room in the queue it is
made although a PICK waits (R108); of the places of a full queue the PICK takes the first (R197). -/
theorem test_witness_ReleasePassTakesAllItCan :
    NoPassOwed world ∧ aheadOfReleases world ≠ 0 ∧ floorRoom (aheadOfReleases world) world = true ∧
    (after .releasePass world).dispatch.outstanding.length = 2 ∧
    floorRoom (aheadOfReleases (contested world)) (contested world) = false ∧
    (after .releasePass (contested world)).dispatch.outstanding.length = 1 ∧
    (after .releasePass (contested { world with assembly.picks := [] })).dispatch.outstanding.length = 2 :=
  ⟨rfl, by decide, by decide, by decide, by decide, by decide, by decide⟩

theorem test_witness_ChutedPostsTheConsignment :
    AtUnit .sorter 50 (turnOf 50 world) (answeredBy 50 (turnOf 50 world)) ∧
    (∃ c, Table.get world.assembly.cons 5 = some c ∧ c.state = .releasing) ∧
    world.dispatch.outstanding.find? (fun r => decide (r.consignment = 5)) = some ⟨5, 1, .concession⟩ ∧
    (let s := { world with dispatch.half0 := List.replicate 63 ⟨5, 3, .pack, 1, 1, 0, 1, .concession, 9, 0, false, 1000, 1042⟩ }
     (halfAt s s.dispatch.filling).length + 1 = 64 ∧ halfAt s (!s.dispatch.filling) = []) ∧
    (let s := { world with
       dispatch.half0 := List.replicate 63 ⟨5, 3, .pack, 1, 1, 0, 1, .concession, 9, 0, false, 1000, 1042⟩,
       dispatch.half1 := [⟨5, 3, .pack, 1, 1, 0, 1, .concession, 9, 0, false, 1000, 1042⟩] }
     (halfAt s s.dispatch.filling).length + 1 = 64 ∧ halfAt s (!s.dispatch.filling) ≠ []) ∧
    (∃ c, Table.get world.assembly.cons 6 = some c ∧ c.state ≠ .releasing) :=
  ⟨⟨inTurn 50 world (by decide) rfl, rfl, by decide⟩, ⟨_, rfl, rfl⟩, by decide, by decide, by decide, ⟨_, rfl, by decide⟩⟩

theorem test_witness_ChutesBlockAndClear :
    AtUnit .sorter 50 (turnOf 50 world) (answeredBy 50 (turnOf 50 world)) ∧
    world.dispatch.outstanding.find? (fun r => decide (r.consignment = 5)) = some ⟨5, 1, .concession⟩ ∧
    chuteBlocked world 32 = true ∧ chuteBlocked world 1 = false ∧ (32 : Byte).toNat ≤ 32 ∧ 32 < (33 : Byte).toNat :=
  ⟨⟨inTurn 50 world (by decide) rfl, rfl, by decide⟩, by decide, by decide, by decide, by decide, by decide⟩

theorem test_witness_WindowsAndHalvesAreWritten :
    (∀ (w e hold : Byte) (low high : U24), CanTake (.setWindow w e low high 32 1 15 500 hold) world) ∧
    mailClassValue .priority = (1 : Byte).toNat ∧ (∀ h : Byte, CanTake (.releaseManifest h) world) ∧
    halfAt world true = [] ∧
    (let s := { world with dispatch.half1 := [⟨5, 3, .pack, 1, 1, 0, 1, .concession, 9, 0, false, 1000, 1042⟩] }
     CanTake (.releaseManifest 1) s ∧ halfAt s true ≠ [] ∧ true ≠ s.dispatch.filling) :=
  ⟨fun w e hold low high => taken (i := .setWindow w e low high 32 1 15 500 hold) _ rfl rfl rfl rfl rfl, rfl,
    fun h => taken (i := .releaseManifest h) _ rfl rfl rfl rfl rfl, rfl, ⟨taken _ rfl (by decide) rfl rfl rfl, by decide⟩⟩

def anItem : ReturnItem := { consignment := 4, postDay := 950, part := 1, serial := 9, readings := [] }

theorem test_witness_InspectionAndChannelsAreSet :
    CanTake .inspectSuspend world ∧ CanTake .inspectResume world ∧ CanTake .clearHits world ∧
    world.returns.suspended = false ∧ world.returns.item = none ∧
    (let s := { world with returns.item := some anItem }
     CanTake .inspectSuspend s ∧ s.returns.suspended = false ∧ s.returns.item ≠ none) ∧
    (let s := { world with returns.suspended := true, returns.queue := [anItem] }
     CanTake .inspectSuspend s ∧ CanTake .inspectResume s ∧ s.returns.suspendPending = false ∧ s.returns.queue = anItem :: [] ∧
       s.management.settings.scannerRole ≠ 0 ∧
       (∀ c m : Byte, CanTake (.setChannel c m 2 2 1) s) ∧ (∀ (e : Byte) (v : U16), CanTake (.setThreshold e v) s) ∧
       channelModeValue .below = (2 : Byte).toNat ∧ channelActionValue .retire = (2 : Byte).toNat ∧
       channelStoreValue .always = (2 : Byte).toNat ∧ channelReferenceValue .partWeight = (1 : Byte).toNat) ∧
    (let s := { world with
       returns.suspended := true, returns.channels := bankModify world.returns.channels 16 fun c => { c with mode := .above } }
     CanTake (.setChannel 7 3 0 0 0) s ∧ (channelAt s.returns 15).mode ≠ .off) :=
  ⟨taken _ rfl (by decide) rfl rfl rfl, taken _ rfl (by decide) rfl rfl rfl, taken _ rfl (by decide) rfl rfl rfl, rfl, rfl,
    ⟨taken _ rfl (by decide) rfl rfl rfl, rfl, by decide⟩,
    ⟨taken _ rfl (by decide) rfl rfl rfl, taken _ rfl (by decide) rfl rfl rfl, rfl, rfl, by decide,
      fun c m => taken (i := .setChannel c m 2 2 1) _ rfl rfl rfl rfl rfl,
      fun e v => taken (i := .setThreshold e v) _ rfl rfl rfl rfl rfl, rfl, rfl, rfl, rfl⟩,
    ⟨taken _ rfl (by decide) rfl rfl rfl, by decide⟩⟩

theorem test_witness_ReturnItemsAreQueued :
    AtUnit .scanner 62 (turnOf 62 world) (answeredBy 62 (turnOf 62 world)) ∧
    [(7 : U16), 8].length = (presentChannels 0x8001).length ∧ world.returns.owedAnswer = none ∧ world.returns.queue = [] ∧
    floorRoom (waitingForwards world + waitingCommands world) world = true ∧
    (let s := { world with returns.queue := List.replicate 63 anItem, returns.suspended := true, line.floorTx := List.replicate 32 ⟨16, 0, 96, []⟩ }
     AtUnit .scanner 62 (turnOf 62 s) (answeredBy 62 (turnOf 62 s)) ∧ s.returns.queue.length < 64 ∧
       floorRoom (waitingForwards s + waitingCommands s) s = false) ∧
    (let s := { world with returns.queue := List.replicate 64 anItem, returns.item := some anItem }
     AtUnit .scanner 62 (turnOf 62 s) (answeredBy 62 (turnOf 62 s)) ∧ 64 ≤ s.returns.queue.length) ∧
    (let s := { world with returns.owedAnswer := some ⟨62, 0, 160, []⟩ }
     AtUnit .scanner 62 (turnOf 62 s) (answeredBy 62 (turnOf 62 s)) ∧ s.returns.owedAnswer ≠ none) :=
  ⟨⟨inTurn 62 world (by decide) rfl, rfl, by decide⟩, by decide, rfl, rfl, by decide,
    ⟨⟨inTurn 62 _ (by decide) rfl, rfl, by decide⟩, by decide⟩, ⟨⟨inTurn 62 _ (by decide) rfl, rfl, by decide⟩, by decide⟩,
    ⟨⟨inTurn 62 _ (by decide) rfl, rfl, by decide⟩, by decide⟩⟩

/-- A reading of 1,640 g against a part weight of 1,700 g (06, Worked case): r is -60, a hit BELOW -50, which asks for REPAIR. -/
theorem test_witness_ComparisonsFormTheVerdict :
    (let u : ReturnUnit := { State.reset.returns with
       channels := bankModify State.reset.returns.channels 1 fun _ => ⟨.below, .repair, .onHit, .partWeight⟩
       thresholds := bankModify State.reset.returns.thresholds 1 fun _ => -50 }
     let x : ReturnItem := { consignment := 4, postDay := 950, part := 1, serial := 9, readings := [(0, 1640)] }
     (channelAt u 0).mode ≠ .off ∧ x.readings.lookup 0 = some 1640 ∧ compareChannel u x 1700 0 = some (-60, .centre) ∧
       channelVerdict u x 1700 0 = .repair ∧ storedAt (recordChannels x 1700 u) 0 = ⟨true, -60, 4⟩ ∧
       compareChannel u x 1700 1 = none) := by decide

/-- An item that names a FREE record, and ones that match a posted pack, a SHELF_AUDIO loan, a set head with another part out, and the
last part of its set. -/
theorem test_witness_InspectionsAreCompleted :
    NoPassOwed world ∧ world.returns.item = none ∧
    (let x : ReturnItem := { anItem with consignment := 8 }
     let s := { world with returns.item := some x, returns.queue := [anItem], returns.suspendPending := true }
     NoPassOwed s ∧ matchItem s x = .error .unmatched ∧ floorRoom (aheadOfVerdicts s) s = true ∧
       floorRoom (aheadOfVerdicts (contested s)) (contested s) = true) ∧
    (let s := { world with
       assembly.cons := [(4, { aConsignment .posted .pack 3 1 with serial := some 9, postDay := 950 })], returns.item := some anItem }
     NoPassOwed s ∧ (∃ c, matchItem s anItem = .ok c ∧ c.kind = .pack ∧ 1 ≤ (accountAt s c.cartridgeClass).consigned) ∧
       floorRoom (aheadOfVerdicts s) s = true) ∧
    (∃ c, matchItem world anItem = .ok c ∧ c.kind = .shelfAudio) ∧
    (let set (returned : Nat) : State := { world with assembly.cons :=
       [(4, { aConsignment .posted .braillePart 1 3 with head := 4, parts := 2, postDay := 950, returned := returned }),
        (5, { aConsignment .posted .braillePart 1 3 with head := 4, part := 2, parts := 2, postDay := 950, lines := [] })] }
     (∃ c, matchItem (set 0) anItem = .ok c ∧ c.kind = .braillePart ∧ c.head = 4) ∧
       (∃ c h, matchItem (set 0) { anItem with consignment := 5, part := 2 } = .ok c ∧ c.head = 4 ∧
         Table.get (set 0).assembly.cons 4 = some h ∧ h.returned + 1 < h.parts) ∧
       ∃ c h, matchItem (set 1) { anItem with consignment := 5, part := 2 } = .ok c ∧ c.head = 4 ∧
         Table.get (set 1).assembly.cons 4 = some h ∧ h.parts ≤ h.returned + 1 ∧ h.kind = .braillePart) :=
  ⟨rfl, rfl, ⟨rfl, by decide⟩, ⟨rfl, ⟨_, rfl, by decide⟩, by decide⟩, ⟨_, rfl, rfl⟩, ⟨_, rfl, rfl, rfl⟩,
    ⟨_, _, rfl, rfl, rfl, by decide⟩, _, _, rfl, rfl, rfl, by decide⟩

/-- R128's checks in order, on consignments 1 (a SHELF_AUDIO loan), 2 (a set head already returned), 3 (its second part), 4 (a
pack) and 8 = C (a pack not POSTED), at the numbers 0, C and C + 1 and at each field. -/
theorem test_witness_ItemsAreMatched :
    let posted (kind : ConsKind) : Consignment := { aConsignment .posted kind 1 1 with serial := some 9, postDay := 950 }
    let s := { world with assembly.cons :=
      [(1, posted .shelfAudio), (2, { posted .braillePart with head := 2, parts := 2, headReturned := true }),
       (3, { posted .braillePart with head := 2, part := 2, parts := 2, lines := [] }), (4, posted .pack),
       (8, { posted .pack with state := .ready })] }
    s.management.geometry.c = 8 ∧
    [(0, 950, 1, 9), (9, 950, 1, 9), (8, 950, 1, 9), (7, 950, 1, 9), (4, 951, 1, 9), (4, 950, 2, 9), (3, 950, 1, 9), (2, 950, 1, 0),
     (4, 950, 1, 8), (1, 950, 1, 10), (1, 950, 1, 9), (3, 950, 2, 0), (4, 950, 1, 9)].map
        (fun e : Nat × Day × Nat × U32 =>
          match matchItem s ⟨e.1, e.2.1, e.2.2.1, e.2.2.2, []⟩ with | .error x => some x | .ok _ => none) =
      [some .unmatched, some .unmatched, some .unmatched, some .unmatched, some .unmatched, some .unmatched, some .unmatched,
       some .duplicate, some .serialMismatch, some .serialMismatch, none, none, none] := by decide

theorem test_witness_StockIsAdded :
    (∀ (c : Byte) (n : U16), CanTake (.stockAdd c n) world) ∧ (∀ t n : U16, CanTake (.stockAddTitle t n) world) ∧
    (accountAt world 2).stock + 65523 = 65535 ∧
    (∃ x, Table.get world.records.titles 2 = some x ∧ x.policy = .shelf ∧ x.format = .audio ∧ x.shelfClass = 2) ∧
    (∃ x, Table.get world.records.titles 3 = some x ∧ x.policy = .shelf ∧ x.format = .braille ∧ 65535 < x.copies + 65534) ∧
    (∃ x, Table.get world.records.titles 8 = some x ∧ x.policy = .onDemand) :=
  ⟨fun c n => taken (i := .stockAdd c n) _ rfl rfl rfl rfl rfl, fun t n => taken (i := .stockAddTitle t n) _ rfl rfl rfl rfl rfl,
    by decide, ⟨_, rfl, by decide⟩, ⟨_, rfl, by decide⟩, ⟨_, rfl, by decide⟩⟩

theorem test_witness_RepairBenchIsEmptied :
    (∀ (c : Byte) (n t : U16), CanTake (.repaired c n t) world ∧ CanTake (.retireRepair c n t) world) ∧
    1 ≤ (accountAt world 2).repair - (accountAt world 2).bound ∧ (accountAt world 2).repair - (accountAt world 2).bound < 2 ∧
    (∃ x, Table.get world.records.titles 2 = some x ∧ x.policy = .shelf ∧ x.shelfClass = 2 ∧ 1 ≤ x.repair ∧ x.repair < 2 ∧
      1 ≤ (accountAt world 2).bound ∧ (accountAt world 2).bound ≤ (accountAt world 2).repair) ∧
    (∃ x, Table.get world.records.titles 3 = some x ∧ x.policy = .shelf ∧ x.format = .braille ∧ 1 ≤ x.repair) :=
  ⟨fun c n t => ⟨taken (i := .repaired c n t) _ rfl rfl rfl rfl rfl, taken (i := .retireRepair c n t) _ rfl rfl rfl rfl rfl⟩,
    by decide, by decide, ⟨_, rfl, by decide⟩, ⟨_, rfl, by decide⟩⟩

/-- A posted SHELF_AUDIO loan; a head whose other part is READY; a head that has come home; a non-head part of a set of three. -/
theorem test_witness_LostItemsLeaveTheAccounts :
    (∀ k : U16, CanTake (.declareLost k) world) ∧
    (∃ c l, Table.get world.assembly.cons 4 = some c ∧ c.state = .posted ∧ c.kind = .shelfAudio ∧ c.lines = [l] ∧
      l.state = .isOpen ∧ c.overdue = false ∧ 1 ≤ (accountAt world c.cartridgeClass).consigned ∧
      (Table.get world.records.patrons c.patron).isSome = true ∧ (Table.get world.records.titles l.title).isSome = true) ∧
    (let s := { world with
       assembly.cons :=
         [(1, { aConsignment .posted .braillePart 1 3 with head := 1, parts := 3 }),
          (2, { aConsignment .ready .braillePart 1 3 with head := 1, part := 2, parts := 3 }),
          (3, { aConsignment .posted .braillePart 1 3 with head := 1, part := 3, parts := 3 }),
          (8, { aConsignment .posted .braillePart 1 3 with head := 8, parts := 3, headReturned := true })] }
     (∃ c, Table.get s.assembly.cons 1 = some c ∧ c.head = 1 ∧ c.headReturned = false) ∧
       (∃ c, Table.get s.assembly.cons 8 = some c ∧ c.head = 8 ∧ c.headReturned = true) ∧
       ∃ c h, Table.get s.assembly.cons 3 = some c ∧ c.kind = .braillePart ∧ c.head ≠ 3 ∧
         Table.get s.assembly.cons c.head = some h ∧ h.returned + 1 < h.parts) ∧
    (let s := { world with
       assembly.cons :=
         [(1, { aConsignment .posted .braillePart 1 3 with head := 1, parts := 2, returned := 1, overdue := true }),
          (3, { aConsignment .posted .braillePart 1 3 with head := 1, part := 2, parts := 2, lines := [] })] }
     CanTake (.declareLost 1) s ∧ CanTake (.declareLost 3) s ∧
       (∃ c, Table.get s.assembly.cons 1 = some c ∧ c.kind = .braillePart ∧ c.headReturned = false ∧ c.overdue = true ∧
         c.parts ≤ c.returned + 1) ∧
       (s.assembly.cons.any fun e =>
         decide (e.2.kind = .braillePart ∧ e.2.head = 1 ∧ e.1 ≠ 1 ∧ (e.2.state = .ready ∨ e.2.state = .releasing))) = false) :=
  ⟨fun k => taken (i := .declareLost k) _ rfl rfl rfl rfl rfl, ⟨_, _, rfl, rfl, rfl, rfl, rfl, rfl, by decide, rfl, rfl⟩,
    ⟨⟨_, rfl, rfl, rfl⟩, ⟨_, rfl, rfl, rfl⟩, ⟨_, _, rfl, rfl, by decide, rfl, by decide⟩⟩,
    taken _ rfl (by decide) rfl rfl rfl, taken _ rfl (by decide) rfl rfl rfl, ⟨_, rfl, by decide⟩, by decide⟩

/-- R172, R173: patron 4 is held with 2 overdue marks at a hold limit of 2. A marked loan that closes lowers the count and clears
the hold, and the walk that follows allocates; at limit 1 the hold stands; an unmarked loan changes nothing. -/
theorem test_witness_ClosedMarksAreTaken :
    let c : Consignment := { aConsignment .posted .pack 4 1 with overdue := true }
    let waits : State := { world with
      requests := [(1, ⟨4, 8, 990⟩)]
      records.patrons := [(4, { aPatron with held := true, overdue := 2, wish := [1] })] }
    let patron (s : State) := (Table.get s.records.patrons 4).map fun p => (p.overdue, p.held, p.wish, p.charge)
    patron (closeMark c waits) = some (1, false, [], 1) ∧
    patron (closeMark c { waits with management.settings.holdLimit := 1 }) = some (1, true, [1], 0) ∧
    patron (closeMark { c with overdue := false } waits) = some (2, true, [1], 0) ∧
    Table.get waits.records.patrons 5 = none := by decide

/-- The sweep at a loan past its due day, at a pack of age, and at the last record. -/
theorem test_witness_DaysAdvanceAndSweepsStep :
    (∀ d : U16, CanTake (.day d) world) ∧
    (let s := { world with days := ⟨1000, true, 4, 0, 0⟩ }
     CanTake (.day 1001) s ∧ s.days.sweeping = true ∧
       ∃ c p, Table.get s.assembly.cons 4 = some c ∧ c.state = .posted ∧ c.kind ≠ .braillePart ∧ c.overdue = false ∧
         daysFrom c.dueDay 1000 = 8 ∧ Table.get s.records.patrons c.patron = some p ∧ p.held = false) ∧
    (let s := { world with days := ⟨1000, true, 3, 0, 0⟩ }
     ∃ c, Table.get s.assembly.cons 3 = some c ∧ c.state = .assembling ∧ c.kind = .pack ∧
       s.management.settings.packHold ≤ daysFrom c.openDay s.days.today) ∧
    (let s := { world with days := ⟨1000, true, 8, 0, 0⟩ }
     Table.get s.assembly.cons 8 = none ∧ s.management.geometry.c ≤ s.days.position) ∧ world.days.sweeping = false :=
  ⟨fun d => taken (i := .day d) _ rfl rfl rfl rfl rfl,
    ⟨taken _ rfl (by decide) rfl rfl rfl, rfl, ⟨_, _, rfl, rfl, by decide, rfl, by decide, rfl, rfl⟩⟩,
    ⟨_, rfl, rfl, rfl, by decide⟩, by decide, rfl⟩

theorem test_witness_OfficeFramesAreTaken :
    receive (Frame.chars ⟨0, 15, 64, []⟩) = .frame ⟨0, 15, 64, []⟩ ∧ receive (Frame.chars ⟨0, 16, 64, []⟩) = .frame ⟨0, 16, 64, []⟩ ∧
    receive [charOf true 0, ⟨3, false, false, true⟩] = .fault 1 ∧ receive [charOf true 64] = .fault 4 ∧
    world.line.officeRx.length < 16 ∧
    (let s := { world with line.officeRx := List.replicate 16 ⟨0, 1, 1, []⟩ }; 16 ≤ s.line.officeRx.length) ∧ world.line.turn = none ∧
    (let s := turnOf 62 world; s.line.turn = some ⟨62, false⟩ ∧ s.line.floorIn = []) ∧
    (let s := { turnOf 62 world with line.floorIn := [charOf true 0], line.early := true }
     s.line.floorIn ≠ [] ∧ s.line.early = true ∧ receive (s.line.floorIn ++ [⟨3, false, false, true⟩]) = .fault 1) ∧
    (∀ k ∈ [(3 : Byte), 15, 63], receive (Frame.chars ⟨0, k, 97, []⟩) = .frame ⟨0, k, 97, []⟩ ∧ (k.toNat < 16 ∨ 62 < k.toNat)) ∧
    missedAt (turnOf 62 world) 62 + 1 ≠ 3 ∧ (let s := setMissed 62 2 (turnOf 62 world)
     s.line.turn = some ⟨62, false⟩ ∧ s.line.floorIn = [] ∧ missedAt s 62 + 1 = 3) ∧
    (let s := { world with line.officeIn := [charOf true 0], line.officeLost := true }
     receive (s.line.officeIn ++ (Frame.chars ⟨0, 15, 64, []⟩).drop 1) = .frame ⟨0, 15, 64, []⟩ ∧ s.line.officeLost = true) ∧
    receive [charOf true 0] = .incomplete ∧ inFrame [charOf true 0] ≠ [] ∧ (charOf true 0).mark = true ∧
    Chr.faults (charOf true 0) = 0 ∧
    (let s := { world with line.officeRx := [⟨63, 1, 64, []⟩] }; s.line.officeRx = ⟨63, 1, 64, []⟩ :: [] ∧ s.line.floorTx.length < 32) ∧
    (let s := { world with line.officeRx := [⟨16, 2, 64, []⟩] }; s.line.officeRx = ⟨16, 2, 64, []⟩ :: [] ∧ s.line.replySlot = none) ∧
    (let s := { world with line.officeRx := [⟨15, 2, 64, []⟩] }; s.line.officeRx = ⟨15, 2, 64, []⟩ :: []) := by decide

theorem test_witness_OfficePortSendsInOrder :
    (∀ f, world.line.officeSending = some f →
      f ≠ ⟨1, 0, 80, [1, 0]⟩ ∧ (f = ⟨1, 0, 80, [5, 0]⟩ → world.line.ratesNext = [])) ∧
    (let s := { setup with line.officeSending := some ⟨1, 0, 80, [5, 0]⟩, line.ratesNext := [(.r115200, .r115200)] }
     s.line.officeSending = some ⟨1, 0, 80, [5, 0]⟩ ∧ s.line.ratesNext ≠ []) ∧
    (let s := { world with line.replySlot := some ⟨1, 0, 80, [2, 0]⟩ }; s.line.replySlot = some ⟨1, 0, 80, [2, 0]⟩) ∧
    (let s := { world with line.forward := some ⟨2, 16, 65, []⟩ }; s.line.replySlot = none ∧ s.line.forward = some ⟨2, 16, 65, []⟩) ∧
    (let s := { world with management.notices := bankModify (bankModify world.management.notices 1 fun _ => ⟨true, 2, 16⟩) 12
                             fun _ => ⟨true, 255, 3⟩, management.mask := 1 }
     (bankGet s.management.notices 12 {}).latch = true ∧ s.management.mask.getLsbD 11 = false ∧
       ∀ m, m < 12 → 1 ≤ m → (bankGet s.management.notices m {}).latch = false ∨ s.management.mask.getLsbD (m - 1) = true) ∧
    (∀ n, n < 13 → 1 ≤ n → (bankGet world.management.notices n {}).latch = false) ∧
    CanTake .clearLineFaults world ∧ CanTake (.setMask 4095) world ∧ CanTake (.setMask 4096) world :=
  ⟨(by intro f h; cases h), ⟨rfl, by decide⟩, rfl, ⟨rfl, rfl⟩, by decide, by decide, taken _ rfl (by decide) rfl rfl rfl,
    taken _ rfl (by decide) rfl rfl rfl, taken _ rfl (by decide) rfl rfl rfl⟩

/-- The poll set 16 and 62, with the place at 16 and at 62. -/
theorem test_witness_FloorPortSendsAndPolls :
    (let s := { world with line.floorTx := [⟨16, 0, 96, []⟩], line.floorSending := some ⟨63, 0, 98, []⟩ }
     s.line.floorTx = ⟨16, 0, 96, []⟩ :: [] ∧ s.line.turn = none ∧ s.line.floorNext = none ∧ ∀ g, s.line.floorSending = some g → g.dst = 63) ∧
    (let s := { world with line.floorTx := List.replicate 32 ⟨16, 0, 96, []⟩ }
     32 ≤ s.line.floorTx.length ∧ aheadOfReleases s ≠ 0 ∧ (after .floorSend s).line.contended = true) ∧
    (let s := { world with line.pollSet := 0x4000000000010000, line.pollPos := 16 }
     s.line.floorTx = [] ∧ s.line.pollSet.getLsbD 62 = true ∧ s.line.pollPos < 62 ∧
       (∀ m, m < 62 → s.line.pollPos < m → s.line.pollSet.getLsbD m = false)) ∧
    (let s := { world with line.pollSet := 0x4000000000010000, line.pollPos := 62 }
     s.line.pollSet.getLsbD 16 = true ∧ ∀ m, m < 63 → s.line.pollPos < m → s.line.pollSet.getLsbD m = false) ∧
    (let s := { world with line.floorSending := some ⟨62, 0, 96, []⟩ }; s.line.floorSending = some ⟨62, 0, 96, []⟩) ∧
    (∀ k, k < 63 → 16 ≤ k → world.line.pollSet.getLsbD k = false) ∧
    setup.management.mode = .setup ∧ (let s := { world with line.floorNext := some .r115200 }; s.line.floorNext ≠ none) :=
  ⟨⟨rfl, rfl, rfl, by intro g h; cases h; rfl⟩, by decide, by decide, by decide, rfl, by decide, rfl, by decide⟩

theorem test_witness_ReplyTurnsEnd :
    (turnOf 16 world).line.turn = some ⟨16, false⟩ ∧ missedAt (turnOf 16 world) 16 + 1 ≠ 3 ∧
    (let s := setMissed 62 2 (turnOf 62 world); s.line.turn = some ⟨62, false⟩ ∧ missedAt s 62 + 1 = 3) ∧
    (let s := { world with line.turn := some ⟨62, true⟩ }; s.line.turn = some ⟨62, true⟩) ∧
    InTurn 62 (turnOf 62 world) (answeredBy 62 (turnOf 62 world)) ∧
    InTurn 16 (turnOf 16 setup) (answeredBy 16 (turnOf 16 setup)) ∧ ownerOf world 30 = .nobody ∧
    [16, 40, 50, 62].map (ownerOf world) = [.bay 1, .pickStation, .sorter, .scanner] ∧
    (∀ k ∈ [16, 40, 50, 62], InTurn k (turnOf k world) (answeredBy k (turnOf k world))) ∧
    (let s := { world with line.forward := some ⟨2, 16, 65, []⟩ }
     InTurn 16 (turnOf 16 s) (answeredBy 16 (turnOf 16 s)) ∧ s.line.forward ≠ none) ∧
    (let s := { world with line.floorIn := [charOf true 2], line.carried := some 16 }
     s.line.floorIn <+: Frame.chars ⟨2, 16, 65, []⟩ ∧ s.line.floorIn ≠ [] ∧ NoPassOwed s ∧ s.line.forward = none ∧
       ¬s.line.floorIn <+: Frame.chars ⟨0, 16, 97, []⟩) ∧
    (let s := { turnOf 62 world with line.floorIn := [charOf true 2], line.early := true }
     s.line.floorIn <+: Frame.chars ⟨2, 16, 65, []⟩ ∧ s.line.carried = none ∧ s.line.early = true ∧
       s.line.turn = some ⟨62, false⟩) ∧
    (let s := { world with line.floorIn := Frame.chars ⟨0, 16, 97, []⟩ ++ [charOf true 2] }
     s.line.floorIn = Frame.chars ⟨0, 16, 97, []⟩ ++ [charOf true 2] ∧ NoPassOwed s ∧ s.line.carried = none ∧ s.line.turn = none ∧
       inFrame [charOf true 2] ≠ []) :=
  ⟨rfl, by decide, by decide, rfl, inTurn 62 world (by decide) rfl, inTurn 16 setup (by decide) rfl, by decide, by decide,
    (fun k hk => inTurn k world (by revert k; decide) rfl),
    ⟨inTurn 16 _ (by decide) rfl, by decide⟩, ⟨by decide, by decide, rfl, rfl, by decide⟩, ⟨by decide, rfl, rfl, rfl⟩,
    rfl, rfl, rfl, rfl, by decide⟩

/-- R199: a frame of a kind its owner does not take, or of another length than the kind's, is dropped: a CHUTED of a bay, a STARTED
of the sorter, and a CHUTED of one byte; a CHUTED of consignment 5 is dropped from the pick station, and taken from the sorter. -/
theorem test_frames_not_taken :
    (∀ f ∈ [(⟨0, 16, 152, [5, 0]⟩ : Frame), ⟨0, 50, 120, [1, 0, 1, 2, 3, 4]⟩, ⟨0, 50, 152, [5]⟩],
      let s := turnOf f.src.toNat world
      after (.floorFrameNotTaken f) s = answeredBy f.src.toNat s) ∧
    (let s := turnOf 40 world; after (.chuted 40 5) s = answeredBy 40 s) ∧
    (let s := turnOf 50 world; (after (.chuted 50 5) s).dispatch.outstanding ≠ s.dispatch.outstanding) := by
  decide

end Sys2Proof.Tests
end

