-- ==== Sys2Proof/Proofs/Members.lean ====
section
/-! PROOFS. R6: every step keeps each agency counting the patrons that name it. Most commands leave the agencies and the
agency each patron names as they were (`SameMembers`); the loads of the Record Store are treated one by one. -/

namespace Sys2Proof.Machine

/-! ## The records under the Line Interface's operations -/

@[simp] theorem recordFault_records (p : Port) (c : Byte) (s : State) : (recordFault p c s).records = s.records := by
  cases p <;> exact latch_records _ _ _

@[simp] theorem setMissed_records (k n : Nat) (s : State) : (setMissed k n s).records = s.records := by
  simp only [setMissed]
@[simp] theorem endTurn_records (s : State) : (endTurn s).records = s.records := rfl
@[simp] theorem endReception_records (s : State) : (endReception s).records = s.records := rfl

@[simp] theorem loadTimer_records (b : Nat) (s : State) : (loadTimer b s).records = s.records := rfl

@[simp] theorem countMiss_records (k : Nat) (s : State) : (countMiss k s).records = s.records := by
  unfold countMiss
  split_ifs <;> rfl

@[simp] theorem reloadTimer_records (k : Nat) (s : State) : (reloadTimer k s).records = s.records := by
  unfold reloadTimer
  split
  · rfl
  · split_ifs <;> rfl

@[simp] theorem strayFrame_records (s : State) : (strayFrame s).records = s.records := by
  unfold strayFrame
  split <;> simp

@[simp] theorem badSourceFrame_records (s : State) : (badSourceFrame s).records = s.records := by simp [badSourceFrame]

theorem answered_records {k : Nat} {s s' : State} (h : answered k s = some s') : s'.records = s.records := by
  unfold answered at h
  split at h
  · split_ifs at h; cases h; rfl
  · split_ifs at h; cases h; rfl
  · cases h

@[simp] theorem faultInTurn_records (c : Byte) (s : State) : (faultInTurn c s).records = s.records := by
  unfold faultInTurn
  split
  · split_ifs <;> rfl
  all_goals rfl

@[simp] theorem joinOffice_records (f : Frame) (s : State) : (joinOffice f s).records = s.records := by
  unfold joinOffice
  split_ifs <;> simp

@[simp] theorem receiveFrames_records (n : Nat) (run : List Chr) (s : State) :
    (receiveFrames n run s).records = s.records := by
  induction n generalizing run s with
  | zero => unfold receiveFrames; rfl
  | succ n ih =>
    unfold receiveFrames
    split
    · simp_all
    · simp_all
    · rfl
    · rfl

@[simp] theorem cutOfficeFrame_records (s : State) : (cutOfficeFrame s).records = s.records := by
  unfold cutOfficeFrame
  split_ifs <;> simp

@[simp] theorem takeForward_records (f : Frame) (s : State) : (takeForward f s).records = s.records := by
  unfold takeForward forwardToOffice
  split_ifs
  · split
    · next s' h =>
      have hs := answered_records h
      split <;> simp [hs]
    · simp
  · rfl

@[simp] theorem takeStray_records (f : Frame) (s : State) : (takeStray f s).records = s.records := by
  unfold takeStray
  split_ifs <;> simp

@[simp] theorem discardOffice_records (run : List Chr) (s : State) : (discardOffice run s).records = s.records := by
  unfold discardOffice receiveOffice
  split <;> simp

@[simp] theorem floorFault_records (run : List Chr) (c : Byte) (s : State) : (floorFault run c s).records = s.records := by
  unfold floorFault
  split <;> simp

@[simp] theorem discardFloor_records (run : List Chr) (s : State) : (discardFloor run s).records = s.records := by
  unfold discardFloor
  split <;> simp

@[simp] theorem discardAt_records (p : Port) (cs : List Chr) (s : State) : (discardAt p cs s).records = s.records := by
  cases p <;> simp [discardAt]

/-! ## Steps that leave every membership as it was -/

/-- The agencies, and the agency that each patron names, are those of `s`. -/
structure SameMembers (s t : State) : Prop where
  agencies : t.records.agencies = s.records.agencies
  members : t.records.patrons.map (fun e => (e.1, e.2.agency)) = s.records.patrons.map fun e => (e.1, e.2.agency)

theorem SameMembers.of_records {s t : State} (h : t.records = s.records) : SameMembers s t := by constructor <;> rw [h]

theorem SameMembers.refl (s : State) : SameMembers s s := .of_records rfl

theorem SameMembers.trans {s t u : State} (h : SameMembers s t) (g : SameMembers t u) : SameMembers s u :=
  ⟨g.agencies.trans h.agencies, g.members.trans h.members⟩

theorem SameMembers.line (l : LineUnit) (s : State) : SameMembers s { s with line := l } := .of_records rfl

theorem SameMembers.returns (u : ReturnUnit) (s : State) : SameMembers s { s with returns := u } := .of_records rfl

theorem SameMembers.toFloor (f : Frame) (s : State) : SameMembers s (toFloor f s) := .of_records (toFloor_records f s)

theorem WorkChange.same {s t : State} (h : WorkChange s t) : SameMembers s t := ⟨h.agencies, h.members⟩

theorem OrderChange.same {s t : State} (h : OrderChange s t) : SameMembers s t := h.work.same

theorem SameMembers.wf {s t : State} (h : SameMembers s t) (hs : Table.wf s.records.patrons) :
    Table.wf t.records.patrons := by
  have hk : t.records.patrons.map Prod.fst = s.records.patrons.map Prod.fst := by
    simpa [List.map_map, Function.comp_def] using congrArg (List.map Prod.fst) h.members
  rwa [Table.wf, hk]

theorem SameMembers.counted {s t : State} (h : SameMembers s t) : MembersCounted s → MembersCounted t := by
  rintro ⟨hc, hn⟩
  refine ⟨fun k a hk ha => ?_, fun e he => ?_⟩
  · have hcount := congrArg (List.countP fun x : Nat × Nat => decide (x.2 = k)) h.members
    simp only [List.countP_map, Function.comp_def] at hcount
    rw [hcount]
    exact hc k a hk (h.agencies ▸ ha)
  · have hm : (e.1, e.2.agency) ∈ s.records.patrons.map fun e => (e.1, e.2.agency) :=
      h.members ▸ List.mem_map_of_mem he
    obtain ⟨x, hx, hxe⟩ := List.mem_map.mp hm
    obtain ⟨-, hag⟩ := Prod.mk.inj hxe
    rw [h.agencies, ← hag]
    exact hn x hx

/-- R6 carries over from `s` to `t`, the patron table of `s` being canonical. -/
def MembersKept (s t : State) : Prop := Table.wf s.records.patrons → MembersCounted s → MembersCounted t

theorem SameMembers.kept {s t : State} (h : SameMembers s t) : MembersKept s t := fun _ => h.counted

theorem MembersKept.refl (s : State) : MembersKept s s := (SameMembers.refl s).kept

theorem SameMembers.trans_kept {s t u : State} (h : SameMembers s t) (g : MembersKept t u) : MembersKept s u :=
  fun hw hm => g (h.wf hw) (h.counted hm)

theorem MembersKept.trans_same {s t u : State} (h : MembersKept s t) (g : SameMembers t u) : MembersKept s u :=
  fun hw hm => g.counted (h hw hm)

/-! ## How commands are taken -/

/-- A request keeps R6 when its owner's action does. -/
theorem request_kept {i : Instr} {s t : State} {act : State → Answer} (h : request i s act = .next t)
    (ha : ∀ u, MembersKept u (act u).state) : MembersKept s t := by
  obtain rfl | ⟨f, s0, -, ht, rfl⟩ := request_cases h
  · exact .refl _
  · have h0 : SameMembers s s0 := .of_records (by rw [(takeOffice_work ht).1])
    exact (h0.trans_kept (ha s0)).trans_same ((settle_work _).same.trans (.of_records (by simp)))

theorem request_same {i : Instr} {s t : State} {act : State → Answer} (h : request i s act = .next t)
    (ha : ∀ u, SameMembers u (act u).state) : MembersKept s t := request_kept h fun u => (ha u).kept

/-- A read-out, or a request whose action writes no records. -/
theorem request_records {i : Instr} {s t : State} {act : State → Answer} (h : request i s act = .next t)
    (ha : ∀ u, (act u).state.records = u.records) : MembersKept s t := request_same h fun u => .of_records (ha u)

theorem inService_state_same {s : State} {a : Answer} (h : SameMembers s a.state) : SameMembers s (inService s a).state := by
  unfold inService
  split
  · exact h
  · exact .refl s

theorem inSetup_state_kept {s : State} {a : Answer} (h : MembersKept s a.state) : MembersKept s (inSetup s a).state := by
  unfold inSetup
  split
  · exact h
  · exact .refl s

theorem event_same {s t u : State} (h : event t = .next u) (g : SameMembers s t) : MembersKept s u := by
  cases h
  exact (g.trans (settle_work t).same).kept

theorem receiveFloor_same (k : Nat) {act : State → State} (ha : ∀ u, SameMembers u (act u)) (s : State) :
    SameMembers s (receiveFloor k act s) := by
  unfold receiveFloor
  split_ifs
  · exact .of_records (by simp)
  · split
    · next s' h =>
      exact (SameMembers.of_records (by rw [reloadTimer_records, answered_records h])).trans (ha _)
    · exact .of_records (by simp)

theorem floorEvent_same {i : Instr} {act : Frame → State → State} {s t : State} (h : floorEvent i act s = .next t)
    (ha : ∀ f u, SameMembers u (act f u)) : MembersKept s t := by
  unfold floorEvent at h
  split at h
  · cases h; exact .refl s
  · split_ifs at h
    · exact event_same h (ha _ s)
    · cases h; exact .refl s

theorem bayFrame_same {i : Instr} {act : Nat → State → State} {s t : State} (h : bayFrame i act s = .next t)
    (ha : ∀ b u, SameMembers u (act b u)) : MembersKept s t :=
  floorEvent_same h fun f u => receiveFloor_same _ (fun v => by
    unfold takenByBay
    split
    · exact ha _ v
    · exact .refl v) u

theorem unitFrame_same {i : Instr} {owner : Owner} {act : State → State} {s t : State}
    (h : unitFrame i owner act s = .next t) (ha : ∀ u, SameMembers u (act u)) : MembersKept s t :=
  floorEvent_same h fun f u => receiveFloor_same _ (fun v => by
    unfold takenBy
    split_ifs
    · exact ha v
    · exact .refl v) u

/-! ## Counting the records of a table -/

section Counting

variable {α : Type} (P : α → Bool)

theorem Table.mem_put {t : Table α} {k : Nat} {a : α} {e : Nat × α} (h : e ∈ Table.put t k a) : e = (k, a) ∨ e ∈ t := by
  induction t with
  | nil => simpa [Table.put] using h
  | cons x t ih =>
    simp only [Table.put] at h
    split_ifs at h <;> grind

/-- A record that joins a table adds itself to a count. -/
theorem Table.countP_put_of_none {t : Table α} {k : Nat} (a : α) (h : Table.get t k = none) :
    (Table.put t k a).countP (fun e => P e.2) = t.countP (fun e => P e.2) + (P a).toNat := by
  induction t with
  | nil => cases hp : P a <;> simp [Table.put, hp]
  | cons x t ih =>
    rw [Table.get_cons] at h
    split_ifs at h with hx
    have hk : ¬k = x.1 := fun e => hx e.symm
    simp only [Table.put, hk, if_false]
    split_ifs
    · cases hp : P a <;> simp [List.countP_cons, hp]
    · simp only [List.countP_cons, ih h]; omega

theorem Table.mem_of_get {t : Table α} {k : Nat} {a : α} (h : Table.get t k = some a) : (k, a) ∈ t := by
  induction t with
  | nil => simp at h
  | cons x t ih =>
    rw [Table.get_cons] at h
    split_ifs at h with hx
    · cases h; exact hx ▸ List.mem_cons_self
    · exact List.mem_cons_of_mem _ (ih h)

/-- A record that replaces another takes its place in a count. -/
theorem Table.countP_put_of_some {t : Table α} {k : Nat} {b : α} (a : α) (hw : Table.wf t) (h : Table.get t k = some b) :
    (Table.put t k a).countP (fun e => P e.2) + (P b).toNat = t.countP (fun e => P e.2) + (P a).toNat := by
  induction t with
  | nil => simp at h
  | cons x t ih =>
    simp only [Table.wf, List.map_cons, List.pairwise_cons] at hw
    rw [Table.get_cons] at h
    split_ifs at h with hx
    · cases h
      subst hx
      cases hb : P x.2 <;> cases ha : P a <;> simp [Table.put, hb, ha]
    · have hlt := hw.1 k (List.mem_map_of_mem (Table.mem_of_get h))
      have h1 : ¬k < x.1 := by omega
      have h2 : ¬k = x.1 := by omega
      have hrest := ih hw.2 h
      simp only [Table.put, h1, h2, if_false, List.countP_cons]
      omega

/-- A record that leaves a table leaves a count. -/
theorem Table.countP_delete {t : Table α} {k : Nat} {b : α} (hw : Table.wf t) (h : Table.get t k = some b) :
    (Table.delete t k).countP (fun e => P e.2) + (P b).toNat = t.countP (fun e => P e.2) := by
  induction t with
  | nil => simp at h
  | cons x t ih =>
    simp only [Table.wf, List.map_cons, List.pairwise_cons] at hw
    rw [Table.get_cons] at h
    split_ifs at h with hx
    · cases h
      have hrest : t.filter (fun e => e.1 != k) = t := by
        refine List.filter_eq_self.mpr fun e he => ?_
        have hlt := hw.1 e.1 (List.mem_map_of_mem he)
        simp only [bne_iff_ne]
        omega
      have hdrop : (x.1 != k) = false := by simp [hx]
      cases hb : P x.2 <;> simp [Table.delete, hdrop, hrest, hb]
    · have hkeep : (x.1 != k) = true := by simpa using hx
      have hrest := ih hw.2 h
      simp only [Table.delete] at hrest
      simp only [Table.delete, List.filter_cons, hkeep, if_true, List.countP_cons]
      omega

end Counting

/-! ## The loads of the Record Store (R10 to R15) -/

/-- The member count of agency `j` after a patron has left agency `a` and joined agency `b` (R6). -/
def movedMembers (a b j n : Nat) : Nat := if a = b then n else if j = a then n - 1 else if j = b then n + 1 else n

theorem changeMembers_agency (a b j : Nat) (s : State) :
    Table.get (changeMembers a b s).records.agencies j =
      (Table.get s.records.agencies j).map fun x => { x with members := movedMembers a b j x.members } := by
  unfold changeMembers movedMembers
  by_cases hab : a = b
  · simp [hab]
  · simp only [hab, if_false, modAgency_agencies]
    by_cases hb : j = b
    · have hja : j ≠ a := fun h => hab (h.symm.trans hb)
      subst hb
      rw [Table.get_modify_same, Table.get_modify_other _ _ hja]
      simp [hja]
    · rw [Table.get_modify_other _ _ hb]
      by_cases ha : j = a
      · subst ha
        rw [Table.get_modify_same]
        simp
      · rw [Table.get_modify_other _ _ ha]
        simp [ha, hb]

@[simp] theorem changeMembers_patrons (a b : Nat) (s : State) :
    (changeMembers a b s).records.patrons = s.records.patrons := by
  unfold changeMembers
  split_ifs <;> rfl

/-- The present patrons that name agency `j`. -/
def namers (s : State) (j : Nat) : Nat := s.records.patrons.countP fun e => decide (e.2.agency = j)

/-- One patron's move from agency `a` to agency `b` keeps R6: the counts follow `changeMembers`, and the namers of an agency
change by that patron alone. -/
theorem membersCounted_of_move {s t : State} (a b : Nat) (h : MembersCounted s)
    (hag : t.records.agencies = (changeMembers a b s).records.agencies)
    (hcount : ∀ j, j ≠ 0 → namers t j + (decide (a = j)).toNat = namers s j + (decide (b = j)).toNat)
    (hnamed : ∀ e ∈ t.records.patrons, e ∈ s.records.patrons ∨ e.2.agency = b)
    (hb : b = 0 ∨ (Table.get s.records.agencies b).isSome) : MembersCounted t := by
  obtain ⟨hc, hn⟩ := h
  constructor
  · intro j x hj hx
    rw [hag, changeMembers_agency] at hx
    obtain ⟨y, hy, rfl⟩ := Option.map_eq_some_iff.mp hx
    have hs : y.members = namers s j := hc j y hj hy
    have hmove := hcount j hj
    change movedMembers a b j y.members = namers t j
    unfold movedMembers
    rw [hs]
    split_ifs with h1 h2 h3
    · subst h1; omega
    · subst h2; simp [Ne.symm h1] at hmove; omega
    · subst h3; simp [h1] at hmove; omega
    · simp [Ne.symm h2, Ne.symm h3] at hmove; omega
  · intro e he
    rw [hag, changeMembers_agency, Option.isSome_map]
    rcases hnamed e he with hs | rfl
    · exact hn e hs
    · exact hb

/-- A delete of a patron (R14). -/
theorem deletePatron_kept (k : Nat) (s : State) : MembersKept s (deletePatron k s).state := by
  unfold deletePatron
  split
  · exact .refl s
  · next p hp =>
    split_ifs
    · exact .refl s
    · intro hw hm
      refine membersCounted_of_move p.agency 0 hm rfl (fun j hj => ?_) (fun e he => .inl ?_) (.inl rfl)
      · have hdel := Table.countP_delete (fun x : Patron => decide (x.agency = j)) hw hp
        simpa [namers, Ne.symm hj] using hdel
      · simp only [changeMembers_patrons] at he
        exact List.mem_of_mem_filter he

/-- The record of patron `k` is written, and the member counts follow its move from the agency it named, none when it was
absent (R6, R11, R12). -/
theorem putPatron_kept (k a : Nat) (p : Patron) (s : State)
    (ha : a = ((Table.get s.records.patrons k).map Patron.agency).getD 0)
    (hp : p.agency = 0 ∨ (Table.get s.records.agencies p.agency).isSome) :
    MembersKept s { changeMembers a p.agency s with
      records.patrons := Table.put (changeMembers a p.agency s).records.patrons k p } := by
  intro hw hm
  refine membersCounted_of_move a p.agency hm rfl (fun j hj => ?_) (fun e he => ?_) hp
  · simp only [namers, changeMembers_patrons]
    cases hk : Table.get s.records.patrons k with
    | none =>
      have hput := Table.countP_put_of_none (fun x : Patron => decide (x.agency = j)) p hk
      have hza : (decide (a = j)).toNat = 0 := by simp [ha, hk, Ne.symm hj]
      omega
    | some old =>
      have hput := Table.countP_put_of_some (fun x : Patron => decide (x.agency = j)) p hw hk
      have hao : a = old.agency := by simpa [hk] using ha
      rwa [hao]
  · simp only [changeMembers_patrons] at he
    rcases Table.mem_put he with rfl | he
    · exact .inr rfl
    · exact .inl he

/-- A load of a patron, its agency being none or present (R10 to R13). -/
theorem writePatron_kept (k : Nat) (new : Patron) (s : State) : MembersKept s (writePatron k new s).state := by
  unfold writePatron
  split
  · exact .refl s
  next hag =>
    have hpresent : new.agency = 0 ∨ (Table.get s.records.agencies new.agency).isSome := by
      by_cases h : new.agency = 0
      · exact .inl h
      · exact .inr (Option.isSome_iff_ne_none.mpr fun hnone => hag ⟨h, hnone⟩)
    split
    · next hnone => exact putPatron_kept k 0 new s (by simp [hnone]) hpresent
    · next old hold =>
      split
      · exact .refl s
      · have hput := putPatron_kept k old.agency (Patron.reloaded old new) s (by simp [hold]) hpresent
        simp only
        split_ifs
        · exact hput.trans_same (headroom_change k _).same
        · exact hput

/-- A new agency has no members, and no present patron names an absent agency; a new code changes no count (R15). -/
theorem writeAgency_kept (k code : Nat) (s : State) : MembersKept s (writeAgency k code s) := by
  rintro - ⟨hc, hn⟩
  unfold writeAgency
  split
  · next hnone =>
    refine ⟨fun j a hj ha => ?_, fun e he => (hn e he).imp_right fun hp => ?_⟩
    · by_cases hjk : j = k
      · subst hjk
        rw [Table.get_put_same] at ha
        cases ha
        refine (List.countP_eq_zero.mpr fun e he hej => ?_).symm
        have hej : e.2.agency = j := by simpa using hej
        rcases hn e he with h0 | hsome
        · exact hj (hej.symm.trans h0)
        · rw [hej, hnone] at hsome
          cases hsome
      · rw [Table.get_put_other _ _ hjk] at ha
        exact hc j a hj ha
    · by_cases hjk : e.2.agency = k
      · rw [hjk, Table.get_put_same]; rfl
      · rwa [Table.get_put_other _ _ hjk]
  · next old hold =>
    refine ⟨fun j a hj ha => ?_, fun e he => (hn e he).imp_right fun hp => ?_⟩
    · by_cases hjk : j = k
      · subst hjk
        rw [Table.get_put_same] at ha
        cases ha
        exact hc j old hj hold
      · rw [Table.get_put_other _ _ hjk] at ha
        exact hc j a hj ha
    · by_cases hjk : e.2.agency = k
      · rw [hjk, Table.get_put_same]; rfl
      · rwa [Table.get_put_other _ _ hjk]

/-- A deleted agency has no members, so no present patron names it (R15 case 6). -/
theorem deleteAgency_kept (k : Nat) (hk : k ≠ 0) (s : State) : MembersKept s (deleteAgency k s).state := by
  rintro - ⟨hc, hn⟩
  unfold deleteAgency
  split
  · exact ⟨hc, hn⟩
  · next a ha =>
    split_ifs with hmem
    · exact ⟨hc, hn⟩
    · have hzero := (hc k a hk ha).symm.trans (Nat.eq_zero_of_not_pos hmem)
      refine ⟨fun j x hj hx => ?_, fun e he => (hn e he).imp_right fun hp => ?_⟩
      · by_cases hjk : j = k
        · rw [hjk, Table.get_delete_same] at hx
          cases hx
        · rw [Table.get_delete_other _ hjk] at hx
          exact hc j x hj hx
      · have hjk : e.2.agency ≠ k := by simpa using List.countP_eq_zero.mp hzero e he
        rwa [Table.get_delete_other _ hjk]

theorem SameMembers.titles (t : Table Title) (s : State) : SameMembers s { s with records.titles := t } := ⟨rfl, rfl⟩

theorem writeTitle_same (k : Nat) (new : Title) (s : State) : SameMembers s (writeTitle k new s).state := by
  unfold writeTitle
  split
  · exact .titles _ s
  · split_ifs
    · exact .refl s
    · exact (SameMembers.titles _ s).trans (copiesFreed_change _ k _).same

theorem deleteTitle_same (k : Nat) (s : State) : SameMembers s (deleteTitle k s).state := by
  unfold deleteTitle
  split
  · exact .refl s
  · split_ifs
    · exact .refl s
    · unfold shelfToBlank
      split_ifs <;> exact ⟨rfl, rfl⟩

/-- An accepted SET_GEOMETRY and a full reset leave no patron and no agency. -/
theorem membersCounted_of_empty {s : State} (h : s.records = {}) : MembersCounted s := by
  refine ⟨fun k a _ ha => ?_, fun e he => ?_⟩
  · rw [h] at ha; cases ha
  · rw [h] at he; cases he

/-! ## The owners' actions that are work in circulation -/

theorem configureBay_work (b address : Nat) (classes preempt : Byte) (s : State) :
    WorkChange s (configureBay b address classes preempt s).state := by
  unfold configureBay
  split
  · exact .refl s
  · split_ifs
    · exact .refl s
    · exact .refl s
    · exact .refl s
    · exact .modBay b _ s
    · exact .modBay b _ s

theorem buildRun_change (title copies : Nat) (s : State) : OrderChange s (buildRun title copies s).state := by
  unfold buildRun
  split_ifs
  · exact .refl s
  split
  · exact .refl s
  split_ifs
  · exact .refl s
  · exact .refl s
  split
  · exact .refl s
  · exact (OrderChange.putJob _ _ s).trans (queueTail_change _ _)

theorem raiseJobTo3_change (j : Nat) (s : State) : OrderChange s (raiseJobTo3 j s).state := by
  unfold raiseJobTo3
  split_ifs
  · exact .refl s
  split
  · exact .refl s
  split_ifs
  · exact .refl s
  · exact .refl s
  · exact raiseTo3_change j _ s

theorem flushPacks_change (patron : Nat) (s : State) : OrderChange s (flushPacks patron s).state := by
  unfold flushPacks
  split_ifs
  · exact .foldl _ (fun s k => sealPack_change k s) _ s
  · exact .refl s
  split
  · exact .refl s
  split_ifs
  · exact .refl s
  · exact sealPack_change _ s

theorem addTitleStock_change (title n : Nat) (s : State) : OrderChange s (addTitleStock title n s).state := by
  unfold addTitleStock
  split_ifs
  · exact .refl s
  split
  · exact .refl s
  split_ifs
  · exact .refl s
  · exact (addCopies_change title n _ s).trans (copiesFreed_change n title _)

theorem addStock_work (cls n : Nat) (s : State) : WorkChange s (addStock cls n s).state := by
  unfold addStock
  split_ifs
  · exact .refl s
  · exact ((OrderChange.modAccount cls (fun _ h => ClassAccount.add_balanced h) s).trans (.owePass _)).work.trans (settle_work _)

theorem repairItems_same (cls n title : Nat) (s : State) : SameMembers s (repairItems cls n title s).state := by
  unfold repairItems
  split
  · exact .refl s
  · exact .of_records (by simp)
  · exact ((mendCopies_change title n _ s).trans (copiesFreed_change n title _)).same

theorem retireItems_same (cls n title : Nat) (s : State) : SameMembers s (retireItems cls n title s).state := by
  unfold retireItems
  split
  · exact .refl s
  · exact .of_records (by simp)
  · exact (retireCopies_change title n _ s).same

theorem declareLoss_work (k : Nat) (s : State) : WorkChange s (declareLoss k s).state := by
  unfold declareLoss
  split_ifs
  · exact .refl s
  split
  · exact .refl s
  split_ifs
  · exact .refl s
  · exact losePart_work k _ s
  · exact .refl s
  · exact .refl s
  · exact loseLoan_work k _ s

theorem refuseOrder_same (c : Code) (s : State) : SameMembers s (refuseOrder c s).state := ⟨rfl, rfl⟩

theorem acceptOrder_change (r patron title : Nat) (s : State) : OrderChange s (acceptOrder r patron title s).state := by
  have h := (addRequest_change r { patron := patron, title := title, day := s.days.today } s).trans (attempt_change r _)
  unfold acceptOrder
  split
  all_goals
    next heq => rw [heq] at h; exact h

theorem placeOrder_same (patron title : Nat) (s : State) : SameMembers s (placeOrder patron title s).state := by
  unfold placeOrder
  split
  · exact refuseOrder_same _ s
  split
  · exact refuseOrder_same _ s
  split
  · exact refuseOrder_same _ s
  · exact (acceptOrder_change _ patron title s).same

theorem probeOrder_state (patron title : Nat) (s : State) : (probeOrder patron title s).state = s := by
  unfold probeOrder
  split <;> rfl

theorem cancelLine_change (patron title : Nat) (p : Patron) (s : State) :
    OrderChange s (cancelLine patron title p s).state := by
  unfold cancelLine
  split
  · split_ifs
    · exact takeBackLine_change _ patron title _ s
    · exact .refl s
    · exact .refl s
  · split_ifs <;> exact .refl s

theorem cancelOrder_change (patron title : Nat) (s : State) : OrderChange s (cancelOrder patron title s).state := by
  unfold cancelOrder
  split
  · exact .refl s
  split_ifs
  · exact .refl s
  split
  · exact .refl s
  split
  · split
    · exact .refl s
    · exact freeRequest_change _ _ s
  · exact cancelLine_change patron title _ s

theorem takeReturnItem_if_work (b : Prop) [Decidable b] (i : ReturnItem) (s : State) :
    WorkChange s (if b then takeReturnItem i s else s) := by
  split_ifs
  · exact takeReturnItem_work i s
  · exact .refl s

/-! ## The owners' actions on other blocks -/

theorem setHalf_records (h : Bool) (rs : List ManifestRecord) (s : State) : (setHalf h rs s).records = s.records := by
  unfold setHalf
  split_ifs <;> rfl

theorem releaseHalf_same (h : Bool) (s : State) : SameMembers s (releaseHalf h s).state := by
  have hs : SameMembers s (setHalf h [] s) := .of_records (setHalf_records h [] s)
  unfold releaseHalf
  split_ifs
  · exact .refl s
  · exact .refl s
  · exact hs.trans (passReleases_work _).same
  · exact (hs.trans (.of_records (by simp))).trans (passReleases_work _).same

theorem manifestAnswer_state (h : Bool) (n : Nat) (s : State) : (manifestAnswer h n s).state = s := by
  unfold manifestAnswer
  simp only
  split <;> rfl

theorem writeChannel_records (c : Nat) (cfg : Channel) (s : State) : (writeChannel c cfg s).state.records = s.records := by
  unfold writeChannel
  split_ifs <;> rfl

theorem suspendInspection_records (s : State) : (suspendInspection s).records = s.records := by
  unfold suspendInspection
  split_ifs <;> rfl

theorem resumeInspection_work (s : State) : WorkChange s (resumeInspection s) := by
  unfold resumeInspection
  split_ifs
  · exact (WorkChange.returns { s.returns with suspended := false } s rfl rfl id).trans (startInspection_work _)
  · exact .returns { s.returns with suspendPending := false } s rfl rfl id

theorem judgeItem_same (i : ReturnItem) (c : Consignment) (s : State) : SameMembers s (judgeItem i c s) := by
  have hd := (dispose_work i.consignment c (verdictOf s.returns i c.weight)
    { s with returns := recordChannels i c.weight s.returns }).same
  have hs := (SameMembers.of_records (s := s) (t := { s with returns := recordChannels i c.weight s.returns }) rfl).trans hd
  unfold judgeItem sendVerdict
  refine hs.trans (.of_records ?_)
  simp only [toFloor_records]
  split_ifs
  · exact latch_records _ _ _
  · rfl

theorem completeItem_same (i : ReturnItem) (s : State) : SameMembers s (completeItem i s) := by
  unfold completeItem
  refine SameMembers.trans ?_ (finishInspection_work _).same
  split
  · exact judgeItem_same i _ s
  · exact .of_records (by simp [sendVerdict])

theorem advanceDay_records (d : Day) (s : State) : (advanceDay d s).state.records = s.records := by
  unfold advanceDay
  split_ifs <;> rfl

theorem SameMembers.modPatron (k : Nat) {f : Patron → Patron} (hf : ∀ p, (f p).agency = p.agency) (s : State) :
    SameMembers s (modPatron k f s) := by
  refine ⟨rfl, ?_⟩
  simp only [modPatron_patrons, Table.modify, List.map_map]
  refine List.map_congr_left fun e _ => ?_
  simp only [Function.comp]
  split_ifs <;> simp [hf]

theorem evaluateHeld_same (k : Nat) (s : State) : SameMembers s (evaluateHeld k s) := by
  unfold evaluateHeld
  split
  · exact .refl s
  · have hm := fun held : Bool => SameMembers.modPatron k (f := fun x => { x with held := held }) (fun _ => rfl) s
    simp only
    split_ifs
    · exact (hm _).trans (headroom_change k _).same
    · exact hm _

theorem SameMembers.foldl {β : Type} (f : State → β → State) (hf : ∀ s b, SameMembers s (f s b)) (l : List β) (s : State) :
    SameMembers s (l.foldl f s) := by
  induction l generalizing s with
  | nil => exact .refl s
  | cons b l ih => exact (hf s b).trans (ih (f s b))

theorem writeHoldLimit_same (v : Nat) (s : State) : SameMembers s (writeHoldLimit v s) := by
  unfold writeHoldLimit
  split_ifs
  · exact .refl s
  · exact SameMembers.trans (.of_records (by simp)) (.foldl _ (fun s k => evaluateHeld_same k s) _ _)

theorem changeRole_same (old new : Nat) {write act : State → State} (hw : ∀ u, SameMembers u (write u))
    (ha : ∀ u, SameMembers u (act u)) (s : State) : SameMembers s (changeRole old new write act s) := by
  unfold changeRole
  split_ifs
  · exact .refl s
  split
  · exact hw s
  · exact ((hw s).trans ((leavePoll_work old _).trans (joinPoll_work new _)).same).trans (ha _)

theorem modSettings_same (f : Settings → Settings) (s : State) : SameMembers s (modSettings f s) := .of_records (by simp)

theorem writeSetting_same (w : SettingWrite) (v : Nat) (s : State) : SameMembers s (writeSetting w v s).state := by
  cases w with
  | plain f => exact modSettings_same f s
  | holdLimit n => exact writeHoldLimit_same n s
  | pickRole n =>
    unfold writeSetting
    simp only
    split_ifs
    · exact .refl s
    · exact changeRole_same _ _ (modSettings_same _)
        (fun u => ((rebuildPicks_change u).work.trans (handPicks_work _ _)).same) s
  | sorterRole n =>
    unfold writeSetting
    simp only
    split_ifs
    · exact .refl s
    · exact changeRole_same _ _ (modSettings_same _)
        (fun u => ((cancelReleases_work u).trans (passReleases_work _)).same) s
  | scannerRole n =>
    unfold writeSetting
    simp only
    split_ifs
    · exact .refl s
    · exact changeRole_same _ _ (modSettings_same _)
        (fun u => ((abandonReturns_work u).trans (startInspection_work _)).same) s

theorem restartBay_work (s : State) (b : Nat) : WorkChange s (restartBay s b) :=
  (putBackJobs_work b s).trans (.modBay b _ _)

theorem pollRoles_records (s : State) : (pollRoles s).records = s.records := by
  unfold pollRoles joinPoll
  split_ifs <;> rfl

theorem restartLine_records (s : State) : (restartLine s).records = s.records := by
  simp only [restartLine, pollRoles_records]

theorem restart_same (s : State) : SameMembers s (resumeAfterRestart (restartBlocks s)) := by
  have hblocks : SameMembers s (abandonReturns (cancelReleases (bayNumbers.foldl restartBay (rebuildPicks s)))) :=
    ((((rebuildPicks_change s).work.trans (.foldl _ restartBay_work bayNumbers _)).trans (cancelReleases_work _)).trans
      (abandonReturns_work _)).same
  have hline : SameMembers s (restartBlocks s) :=
    hblocks.trans (.of_records (by simp only [restartBlocks, restartLine_records]))
  have hsend : SameMembers s (toFloor restartedFrame (restartBlocks s)) :=
    hline.trans (.of_records (toFloor_records restartedFrame (restartBlocks s)))
  unfold resumeAfterRestart
  exact (hsend.trans (handPicks_work _ _).same).trans (passReleases_work _).same

theorem inService_mk_same {s t : State} {c : Code} {fs : List Byte} (h : SameMembers s t) :
    SameMembers s (inService s ⟨t, c, fs⟩).state := inService_state_same h

theorem windows_same (w : Vector Window 16) (s : State) : SameMembers s { s with dispatch.windows := w } := .of_records rfl

theorem openPart_records (s : State) : (openPart s).state.records = s.records := by
  unfold openPart
  simp only
  split
  · rfl
  split
  · rfl
  split
  · rfl
  · exact pollRoles_records _

/-! ## The commands that are more than a request or a frame of a unit, and the loads -/

theorem execLoadPatron_kept {k : U16} {present status cls level formats cartridge quota agency : Byte} {code : U24}
    {s t : State}
    (h : execLoadPatron k present status cls level formats cartridge quota agency code s = .next t) : MembersKept s t :=
  request_kept h fun u => by
    split_ifs
    · exact .refl u
    · exact .refl u
    split
    · exact deletePatron_kept _ u
    · exact writePatron_kept _ _ u
    · exact .refl u

theorem execLoadAgency_kept {k : U16} {present : Byte} {code : U24} {s t : State}
    (h : execLoadAgency k present code s = .next t) : MembersKept s t :=
  request_kept h fun u => by
    split_ifs with hk
    · exact .refl u
    split
    · exact .refl u
    · exact writeAgency_kept _ _ u
    · exact deleteAgency_kept _ (fun h0 => hk (.inl h0)) u

theorem execLoadTitle_kept {k : U16} {present format policy level availability : Byte} {extent : U16}
    {granularity shelfClass volumes : Byte} {weight : U16} {s t : State}
    (h : execLoadTitle k present format policy level availability extent granularity shelfClass volumes weight s = .next t) :
    MembersKept s t :=
  request_same h fun u => by
    split_ifs
    · exact .refl u
    split
    · exact deleteTitle_same _ u
    · exact writeTitle_same _ _ u
    · exact .refl u

theorem execReadRecord_kept {table : Byte} {k : U16} {s t : State} (h : execReadRecord table k s = .next t) :
    MembersKept s t := request_records h fun u => by split <;> rfl

theorem execSetGeometry_kept {p t q c j : U16} {s u : State} (h : execSetGeometry p t q c j s = .next u) :
    MembersKept s u :=
  request_kept h fun v => inSetup_state_kept <| by
    simp only
    split_ifs
    · exact fun _ _ => membersCounted_of_empty rfl
    · exact .refl v

theorem fullReset_kept (s : State) : MembersKept s (fullReset s) := fun _ _ => membersCounted_of_empty rfl

theorem passSeconds_same (n : Nat) (s : State) : SameMembers s (passSeconds n s) := .of_records rfl

theorem execResetAfterReply_kept {s t : State} (h : execResetAfterReply s = .next t) : MembersKept s t := by
  unfold execResetAfterReply at h
  split_ifs at h <;> cases h
  · exact fullReset_kept s
  · exact .refl s

theorem execOfficeRateChange_kept {s t : State} (h : execOfficeRateChange s = .next t) : MembersKept s t := by
  unfold execOfficeRateChange at h
  split at h
  · cases h; exact .refl _
  · split_ifs at h <;> cases h
    · exact (SameMembers.of_records (by simp)).kept
    · exact .refl _

theorem execFloorRateChange_kept {s t : State} (h : execFloorRateChange s = .next t) : MembersKept s t := by
  unfold execFloorRateChange at h
  split at h
  · cases h; exact .refl _
  · split_ifs at h <;> cases h
    · exact (SameMembers.of_records rfl).kept
    · exact .refl _

theorem execUnlistedManagementKind_kept {src kind : Byte} {payload : List Byte} {s t : State}
    (h : execUnlistedManagementKind src kind payload s = .next t) : MembersKept s t := by
  unfold execUnlistedManagementKind at h
  split at h
  · cases h; exact .refl _
  · exact request_records h fun _ => rfl

theorem execStallExpiry_kept {bay : Byte} {s t : State} (h : execStallExpiry bay s = .next t) : MembersKept s t := by
  unfold execStallExpiry at h
  split_ifs at h <;> cases h
  · exact ((passSeconds_same _ s).trans ((faultBay_work _ _ _).trans (settle_work _)).same).kept
  · exact .refl _

theorem execOwedReturnAnswer_kept {s t : State} (h : execOwedReturnAnswer s = .next t) : MembersKept s t := by
  unfold execOwedReturnAnswer at h
  split at h
  · cases h; exact .refl _
  · split_ifs at h <;> cases h
    · exact ((SameMembers.returns _ s).trans (.toFloor _ _)).kept
    · exact .refl _

theorem execInspectionCompletion_kept {s t : State} (h : execInspectionCompletion s = .next t) : MembersKept s t := by
  unfold execInspectionCompletion at h
  split at h
  · cases h; exact .refl _
  · split_ifs at h
    · exact event_same h (completeItem_same _ s)
    · cases h; exact .refl _

theorem execSweepStep_kept {s t : State} (h : execSweepStep s = .next t) : MembersKept s t := by
  unfold execSweepStep at h
  split_ifs at h
  · exact event_same h ((examineRecord_work _ s).trans (advanceSweep_work _)).same
  · cases h; exact .refl _

theorem execOwedCommandHandOn_kept {s t : State} (h : execOwedCommandHandOn s = .next t) : MembersKept s t := by
  unfold execOwedCommandHandOn at h
  split at h
  · cases h; exact .refl _
  · split at h
    · cases h; exact .refl _
    · split_ifs at h <;> cases h
      · exact (SameMembers.of_records (by simp)).kept
      · exact (SameMembers.of_records (by simp)).kept
      · exact .refl _

theorem execOfficeFrameReceive_kept {chars : List Chr} {s t : State} (h : execOfficeFrameReceive chars s = .next t) :
    MembersKept s t := by
  unfold execOfficeFrameReceive at h
  simp only at h
  split at h <;> cases h
  · exact (SameMembers.of_records (receiveFrames_records _ _ s)).kept
  · exact (SameMembers.of_records (receiveFrames_records _ _ s)).kept
  · exact .refl _

theorem execOfficePeerFrame_kept {s t : State} (h : execOfficePeerFrame s = .next t) : MembersKept s t := by
  unfold execOfficePeerFrame at h
  split at h
  · cases h; exact .refl _
  · split_ifs at h <;> cases h
    · exact (SameMembers.of_records rfl).kept
    · exact .refl _

theorem execForwardToFloor_kept {s t : State} (h : execForwardToFloor s = .next t) : MembersKept s t := by
  unfold execForwardToFloor at h
  split at h
  · cases h; exact .refl _
  · split_ifs at h <;> cases h
    · exact .refl _
    · exact ((SameMembers.line _ s).trans (.toFloor _ _)).kept
    · exact .refl _
    · exact (SameMembers.of_records rfl).kept
    · exact .refl _

theorem execSendReply_kept {s t : State} (h : execSendReply s = .next t) : MembersKept s t := by
  unfold execSendReply at h
  split at h
  · cases h; exact .refl _
  · split_ifs at h <;> cases h
    · exact (SameMembers.of_records rfl).kept
    · exact .refl _

theorem execSendForwardedFrame_kept {s t : State} (h : execSendForwardedFrame s = .next t) : MembersKept s t := by
  unfold execSendForwardedFrame at h
  split at h
  · split_ifs at h <;> cases h
    · exact (SameMembers.of_records rfl).kept
    · exact .refl _
  · cases h; exact .refl _

theorem execNotice_kept {s t : State} (h : execNotice s = .next t) : MembersKept s t := by
  unfold execNotice at h
  split at h
  · split_ifs at h <;> cases h
    · exact (SameMembers.of_records rfl).kept
    · exact .refl _
  · cases h; exact .refl _

theorem execFloorSend_kept {s t : State} (h : execFloorSend s = .next t) : MembersKept s t := by
  unfold execFloorSend at h
  split at h
  · cases h; exact .refl _
  · split_ifs at h <;> cases h
    · exact (SameMembers.of_records rfl).kept
    · exact .refl _

theorem execPoll_kept {s t : State} (h : execPoll s = .next t) : MembersKept s t := by
  unfold execPoll at h
  split at h
  · cases h; exact .refl _
  · split_ifs at h <;> cases h
    · exact (SameMembers.of_records rfl).kept
    · exact .refl _

theorem execReplyTurnGrant_kept {s t : State} (h : execReplyTurnGrant s = .next t) : MembersKept s t := by
  unfold execReplyTurnGrant at h
  split at h
  · cases h; exact .refl _
  · split_ifs at h <;> cases h
    · exact (SameMembers.of_records rfl).kept
    · exact (SameMembers.of_records rfl).kept
    · exact .refl _

theorem execReplyWindowExpiry_kept {s t : State} (h : execReplyWindowExpiry s = .next t) : MembersKept s t := by
  unfold execReplyWindowExpiry at h
  split at h
  · cases h; exact .refl _
  · split_ifs at h <;> cases h
    · exact .refl _
    · exact (SameMembers.of_records (by simp)).kept

theorem execTurnSilenceExpiry_kept {s t : State} (h : execTurnSilenceExpiry s = .next t) : MembersKept s t := by
  unfold execTurnSilenceExpiry at h
  split at h
  · cases h; exact .refl _
  · split_ifs at h <;> cases h
    · exact (SameMembers.of_records rfl).kept
    · exact .refl _

/-! ## Every step keeps R6 -/

/-- R6 over one command. Requests: what their owner's action can do; floor frames: what the taking unit can do; the other
steps write no records. -/
theorem exec_kept (i : Instr) {s t : State} (h : exec i s = .next t) : MembersKept s t := by
  unfold exec at h
  cases i with
  | resetPin => cases h; exact fullReset_kept s
  | powerOn => cases h; exact fullReset_kept s
  | reset => exact request_records h fun _ => rfl
  | resetAfterReply => exact execResetAfterReply_kept h
  | restart => exact request_same h fun u => inService_mk_same (restart_same u)
  | setGeometry p t q c j => exact execSetGeometry_kept h
  | setClass cls capacity =>
    exact request_kept h fun u => inSetup_state_kept <| by
      split_ifs
      · exact .refl u
      · exact (SameMembers.of_records rfl).kept
  | setLines o f =>
    exact request_kept h fun u => inSetup_state_kept <| by
      split
      · exact (SameMembers.of_records rfl).kept
      · exact .refl u
  | officeRateChange => exact execOfficeRateChange_kept h
  | floorRateChange => exact execFloorRateChange_kept h
  | setDay d => exact request_kept h fun u => inSetup_state_kept (SameMembers.of_records rfl).kept
  | openService => exact request_kept h fun u => inSetup_state_kept (SameMembers.of_records (openPart_records u)).kept
  | setSetting setting value =>
    exact request_same h fun u => by
      split
      · exact .refl u
      · exact writeSetting_same _ _ u
  | loadPatron k present status cls level formats cartridge quota agency code => exact execLoadPatron_kept h
  | loadAgency k present code => exact execLoadAgency_kept h
  | loadTitle k present format policy level availability extent granularity shelfClass volumes weight =>
    exact execLoadTitle_kept h
  | readRecord table index => exact execReadRecord_kept h
  | setBay bay address classes preempt => exact request_same h fun u => (configureBay_work _ _ _ _ u).same
  | bayOnline bay =>
    exact request_same h fun u => inService_state_same <| by
      split_ifs
      · exact .refl u
      · exact .refl u
      · exact (bringOnline_work _ u).same
  | bayOffline bay =>
    exact request_same h fun u => inService_state_same <| by
      split_ifs
      · exact .refl u
      split
      · exact .refl u
      · exact .of_records rfl
      all_goals exact (takeOffline_work _ u).same
  | buildStock title copies => exact request_same h fun u => inService_state_same (buildRun_change _ _ u).same
  | raiseJob job => exact request_same h fun u => inService_state_same (raiseJobTo3_change _ u).same
  | flushPack patron => exact request_same h fun u => inService_state_same (flushPacks_change _ u).same
  | day d => exact request_same h fun u => inService_state_same (.of_records (advanceDay_records d u))
  | setWindow window enabled low high chute mailClass transit limit hold =>
    exact request_same h fun u => by
      split
      · exact .refl u
      · exact (windows_same _ u).trans (passReleases_work _).same
  | releaseManifest half =>
    exact request_same h fun u => by
      split
      · exact .refl u
      · exact releaseHalf_same _ u
  | readManifest half index =>
    exact request_records h fun u => by
      split
      · rfl
      · split_ifs
        · rfl
        · rw [manifestAnswer_state]
  | readDispatch => exact request_records h fun _ => rfl
  | setChannel channel mode action store reference =>
    exact request_records h fun u => by
      split
      · split_ifs
        · rfl
        · exact writeChannel_records _ _ u
      · rfl
  | setThreshold entry value => exact request_records h fun u => by split_ifs <;> rfl
  | inspectSuspend => exact request_records h fun u => suspendInspection_records u
  | inspectResume => exact request_same h fun u => (resumeInspection_work u).same
  | clearHits => exact request_records h fun _ => rfl
  | readInspection => exact request_records h fun _ => rfl
  | readChannel channel => exact request_records h fun u => by split_ifs <;> rfl
  | stockAdd cls n => exact request_same h fun u => (addStock_work _ _ u).same
  | stockAddTitle title n => exact request_same h fun u => (addTitleStock_change _ _ u).same
  | repaired cls n title => exact request_same h fun u => repairItems_same _ _ _ u
  | retireRepair cls n title => exact request_same h fun u => retireItems_same _ _ _ u
  | declareLost consignment => exact request_same h fun u => inService_state_same (declareLoss_work _ u).same
  | readStock cls => exact request_records h fun u => by split_ifs <;> rfl
  | readDay => exact request_records h fun _ => rfl
  | readSetup => exact request_records h fun _ => rfl
  | clearLineFaults => exact request_records h fun _ => rfl
  | readLines => exact request_records h fun _ => rfl
  | setMask mask => exact request_records h fun u => by split_ifs <;> rfl
  | readNotices => exact request_records h fun _ => rfl
  | unlistedManagementKind src kind payload => exact execUnlistedManagementKind_kept h
  | order src patron title => exact request_same h fun u => inService_state_same (placeOrder_same _ _ u)
  | probe src patron title =>
    exact request_same h fun u => inService_state_same (.of_records (by rw [probeOrder_state]))
  | cancel src patron title => exact request_same h fun u => inService_state_same (cancelOrder_change _ _ u).same
  | stallExpiry bay => exact execStallExpiry_kept h
  | started src job serial => exact bayFrame_same h fun b u => (takeStarted_work _ _ b u).same
  | progress src job blocks => exact bayFrame_same h fun b u => (takeProgress_work _ _ b u).same
  | parked src job offset => exact bayFrame_same h fun b u => (takeParked_work _ _ b u).same
  | copyDone src job serial result => exact bayFrame_same h fun b u => (takeCopyDone_work _ _ _ b u).same
  | bayFault src code => exact bayFrame_same h fun b u => (takeBayFault_work _ b u).same
  | pick => exact event_same h (handPick_work _ s).same
  | picked src consignment serial => exact unitFrame_same h fun u => (takePicked_work _ _ u).same
  | notFound src consignment => exact unitFrame_same h fun u => (takeNotFound_change _ u).same
  | releasePass => exact event_same h (passReleases_work s).same
  | chuted src consignment => exact unitFrame_same h fun u => (takeChuted_work _ u).same
  | chuteFull src consignment chute => exact unitFrame_same h fun u => (takeChuteFull_work _ _ u).same
  | chuteClear src chute => exact unitFrame_same h fun u => (takeChuteClear_work _ u).same
  | returnItem src consignment postDay part serial presence readings =>
    exact unitFrame_same h fun u => (takeReturnItem_if_work _ _ u).same
  | owedReturnAnswer => exact execOwedReturnAnswer_kept h
  | inspectionCompletion => exact execInspectionCompletion_kept h
  | sweepStep => exact execSweepStep_kept h
  | owedCommandHandOn => exact execOwedCommandHandOn_kept h
  | officeFrameReceive chars => exact execOfficeFrameReceive_kept h
  | officePeerFrame => exact execOfficePeerFrame_kept h
  | forwardToFloor => exact execForwardToFloor_kept h
  | floorForward frame => exact floorEvent_same h fun f u => .of_records (takeForward_records f u)
  | frameDiscard port chars => cases h; exact (SameMembers.of_records (discardAt_records _ _ s)).kept
  | strayFloorFrame frame => exact floorEvent_same h fun f u => .of_records (takeStray_records f u)
  | quiet src => exact floorEvent_same h fun f u => receiveFloor_same _ .refl u
  | sendReply => exact execSendReply_kept h
  | sendForwardedFrame => exact execSendForwardedFrame_kept h
  | notice => exact execNotice_kept h
  | floorSend => exact execFloorSend_kept h
  | poll => exact execPoll_kept h
  | replyTurnGrant => exact execReplyTurnGrant_kept h
  | replyWindowExpiry => exact execReplyWindowExpiry_kept h
  | turnSilenceExpiry => exact execTurnSilenceExpiry_kept h
  | floorFrameNotTaken frame =>
    exact floorEvent_same h fun f u => by
      unfold takeDropped
      split_ifs
      · exact receiveFloor_same _ .refl u
      · exact .refl u

/-- R6 over one second on an empty queue. -/
theorem tick_same (s : State) : SameMembers s (tick s) := by
  have hexpire : ∀ u b, SameMembers u (expire u b) := fun u b => ((faultBay_work b .stall u).trans (settle_work _)).same
  exact (passSeconds_same 1 s).trans (.foldl expire hexpire _ _)

theorem step_kept {s t : State} (h : step s = .next t) : MembersKept s t := by
  unfold step at h
  split at h
  · cases h; exact (tick_same s).kept
  · next c rest _ =>
    have hpending : SameMembers s (s.withPending rest) := .of_records rfl
    exact hpending.trans_kept (exec_kept c h)

end Sys2Proof.Machine

/-- Settles O8: every command either leaves the memberships as they were, or moves one patron and adjusts both counts, or
writes an agency that no present patron names, or empties both tables. -/
theorem everyStepKeepsMembersCounted : Obligations.EveryStepKeepsMembersCounted := by
  rintro s t ⟨hwf, -⟩ hm h
  exact Sys2Proof.Machine.step_kept h hwf hm
end

