-- ==== Sys2Proof/Proofs/Reset.lean ====
section
/-! PROOFS. The full-reset state: its values (R21 and the reset rule of each block), and that it meets every law. -/

namespace Sys2Proof.Machine

/-- A bank that holds its default everywhere reads it at every number. -/
@[simp] theorem bankGet_replicate {α : Type} (n k : Nat) (d : α) : bankGet (Vector.replicate n d) k d = d := by
  unfold bankGet
  split_ifs
  · rfl
  · rw [Vector.getElem?_replicate]
    split_ifs <;> rfl

/-! ## The banks of the full-reset state -/

theorem reset_capacityOf (c : Nat) : capacityOf State.reset c = 0 := bankGet_replicate 4 c 0
theorem reset_notice (n : Nat) : bankGet State.reset.management.notices n {} = ⟨false, 0, 0⟩ := bankGet_replicate 12 n _
@[simp] theorem reset_queueAt (l : Nat) : queueAt State.reset l = [] := bankGet_replicate 4 (l + 1) []
@[simp] theorem reset_bayAt (b : Nat) : bayAt State.reset b = {} := bankGet_replicate 24 b _
theorem reset_windowAt (w : Nat) : windowAt State.reset w = {} := bankGet_replicate 16 (w + 1) _
theorem reset_channelAt (c : Nat) : channelAt State.reset.returns c = {} := bankGet_replicate 16 (c + 1) _
theorem reset_thresholdAt (e : Nat) : thresholdAt State.reset.returns e = 0 := bankGet_replicate 16 (e + 1) 0
theorem reset_storedAt (c : Nat) : storedAt State.reset.returns c = {} := bankGet_replicate 16 (c + 1) _
@[simp] theorem reset_accountAt (c : Nat) : accountAt State.reset c = {} := bankGet_replicate 4 c _
theorem reset_missedAt (k : Nat) : missedAt State.reset k = 0 := bankGet_replicate 47 (k - 15) 0

/-! ## The laws at reset: every table and list is empty, every bay OFFLINE -/

theorem reset_accountsBalanced : AccountsBalanced State.reset := fun c _ => by
  rw [reset_accountAt]
  exact ⟨rfl, le_rfl⟩

theorem reset_manifestBounded : ManifestBounded State.reset := ⟨by decide, by decide, by decide⟩

theorem reset_heldByLimit : HeldByLimit State.reset := fun _ _ h => by cases h

theorem reset_membersCounted : MembersCounted State.reset := membersCounted_of_empty rfl

theorem reset_tablesCanonical : TablesCanonical State.reset := by
  refine ⟨?_, ?_, ?_, ?_, ?_, ?_⟩ <;> exact List.Pairwise.nil

theorem reset_queuesBounded : QueuesBounded State.reset := ⟨by decide, by decide, by decide⟩

theorem reset_jobsPlaced : JobsPlaced State.reset := by
  refine ⟨List.forall_mem_nil _, fun l _ => ?_, fun b _ => ?_, fun _ b _ => ?_, List.forall_mem_nil _⟩
  · simp
  · rw [reset_bayAt]
    simp [BayHoldsItsJobs, Working]
  · rw [reset_bayAt]
    exact .inl rfl

theorem reset_circulationLaws : CirculationLaws State.reset :=
  ⟨⟨List.forall_mem_nil _, List.forall_mem_nil _, List.forall_mem_nil _, List.forall_mem_nil _, List.forall_mem_nil _⟩,
    ⟨List.forall_mem_nil _, List.forall_mem_nil _, List.forall_mem_nil _⟩, List.forall_mem_nil _, List.forall_mem_nil _,
    List.forall_mem_nil _,
    ⟨List.forall_mem_nil _, List.forall_mem_nil _, .nil, List.forall_mem_nil _, List.forall_mem_nil _, fun h => absurd rfl h,
      List.forall_mem_nil _, List.forall_mem_nil _⟩,
    List.forall_mem_nil _,
    ⟨.nil, List.forall_mem_nil _, List.forall_mem_nil _, .nil, List.forall_mem_nil _, List.forall_mem_nil _⟩,
    fun _ => ⟨rfl, rfl, rfl⟩⟩

theorem reset_countsAgree : CountsAgree State.reset := fun c _ _ => by
  rw [reset_accountAt]
  exact ⟨rfl, rfl, rfl, rfl⟩

theorem reset_classesAgree : ClassesAgree State.reset :=
  ⟨List.forall_mem_nil _, List.forall_mem_nil _, List.forall_mem_nil _, List.forall_mem_nil _, fun _ => List.forall_mem_nil _⟩

end Sys2Proof.Machine

open Sys2Proof.Machine in
/-- Settles O3: block by block, the records at their defaults and the banks by `bankGet_replicate`. -/
theorem resetHoldsTheSpecValues : Obligations.ResetHoldsTheSpecValues :=
  ⟨⟨rfl, rfl, reset_capacityOf, rfl, rfl, reset_notice⟩, ⟨rfl, rfl, rfl, rfl, rfl, rfl, rfl, rfl⟩,
    ⟨rfl, reset_queueAt, fun b => by rw [reset_bayAt]; exact ⟨rfl, rfl, rfl, rfl, rfl, rfl, rfl, rfl, rfl, rfl⟩⟩,
    ⟨reset_windowAt, rfl, rfl, rfl, rfl, rfl, rfl⟩,
    ⟨rfl, rfl, rfl, rfl, rfl, reset_channelAt, reset_thresholdAt, rfl, rfl, reset_storedAt⟩, reset_accountAt, rfl,
    ⟨rfl, rfl, rfl, rfl, rfl, rfl, rfl, rfl, rfl, rfl, rfl, rfl, rfl, reset_missedAt, rfl, rfl⟩⟩

open Sys2Proof.Machine in
/-- Settles O15: each law of the full-reset state, whose tables and lists are empty. -/
theorem resetMeetsEveryLaw : Obligations.ResetMeetsEveryLaw :=
  ⟨rfl, reset_accountsBalanced, reset_manifestBounded, reset_heldByLimit, reset_membersCounted, reset_tablesCanonical,
    reset_queuesBounded, reset_jobsPlaced, reset_circulationLaws, reset_countsAgree, reset_classesAgree⟩
end

