-- ==== Sys2Proof/Proofs/Answers.lean ====
section
/-! PROOFS. What taking a request leaves as it was, and what the part comes to once the owner has answered. -/

namespace Sys2Proof.Machine

theorem Takes.line_only {i : Instr} {s s0 : State} (h : Takes i s s0) : s0 = { s with line := s0.line } := by
  obtain ⟨-, f, -, ht⟩ := h
  have hs := (takeOffice_work ht).1
  rw [hs]

theorem Takes.records {i : Instr} {s s0 : State} (h : Takes i s s0) : s0.records = s.records := by rw [h.line_only]
theorem Takes.requests {i : Instr} {s s0 : State} (h : Takes i s s0) : s0.requests = s.requests := by rw [h.line_only]
theorem Takes.assembly {i : Instr} {s s0 : State} (h : Takes i s s0) : s0.assembly = s.assembly := by rw [h.line_only]
theorem Takes.scheduler {i : Instr} {s s0 : State} (h : Takes i s s0) : s0.scheduler = s.scheduler := by rw [h.line_only]
theorem Takes.management {i : Instr} {s s0 : State} (h : Takes i s s0) : s0.management = s.management := by
  rw [h.line_only]

/-- A request that its owner answers: the action's state, the placement pass it owes, and the REPLY (R194). -/
theorem Takes.answered {i : Instr} {s s0 t : State} {act : State → Answer} {c : Code} {fs : List Byte} (h : Takes i s s0)
    (he : exec i s = request i s act) (ha : act s0 = ⟨t, c, fs⟩) : exec i s = .next (replied i c fs (settle t)) := by
  rw [he, request_takes act h, ha]

/-- A request whose owner's action owes no placement pass. -/
theorem Takes.quiet {i : Instr} {s s0 t : State} {act : State → Answer} {c : Code} {fs : List Byte} (h : Takes i s s0)
    (he : exec i s = request i s act) (ha : act s0 = ⟨t, c, fs⟩) (hp : t.passDue = s0.passDue) :
    exec i s = .next (replied i c fs t) := by
  have hq : NoPassOwed t := hp.trans h.noPass
  rw [h.answered he ha, settle_of_noPass hq]

/-- A request that its owner refuses changes nothing but the reply slot (00, Conventions). -/
theorem Takes.refused {i : Instr} {s s0 : State} {act : State → Answer} {c : Code} (h : Takes i s s0)
    (he : exec i s = request i s act) (ha : act s0 = refuse c s0) : exec i s = .next (replied i c [] s0) :=
  h.quiet he ha rfl

end Sys2Proof.Machine
end

