-- ==== Sys2Proof/Proofs/Geometry.lean ====
section
/-! PROOFS. SET_GEOMETRY (R179) and the layout of table memory (R180). -/

namespace Sys2Proof.Machine

/-! ## The layout of table memory (R180) -/

theorem tableSizes_of_ne {g : Geometry} (h : g ≠ {}) :
    tableSizes g = [(g.p + 1) * 8, 256 * 8, (g.t + 1) * 8, (g.q + 1) * 4, (g.c + 1) * 16, (g.j + 1) * 8] := by
  unfold tableSizes
  rw [if_neg h]

/-- The six tables stand one after another, the first at word 0. -/
theorem tableStart_of_ne {g : Geometry} (h : g ≠ {}) :
    tableStart g 0 = 0 ∧ tableStart g 1 = (g.p + 1) * 8 ∧ tableStart g 2 = (g.p + 1) * 8 + 256 * 8 ∧
      tableStart g 3 = (g.p + 1) * 8 + 256 * 8 + (g.t + 1) * 8 ∧
      tableStart g 4 = (g.p + 1) * 8 + 256 * 8 + (g.t + 1) * 8 + (g.q + 1) * 4 ∧
      tableStart g 5 = (g.p + 1) * 8 + 256 * 8 + (g.t + 1) * 8 + (g.q + 1) * 4 + (g.c + 1) * 16 := by
  unfold tableStart
  rw [tableSizes_of_ne h]
  refine ⟨?_, ?_, ?_, ?_, ?_, ?_⟩ <;> simp [← Nat.add_assoc]

theorem budgetTotal_of_ne {g : Geometry} (h : g ≠ {}) :
    budgetTotal g = (g.p + 1) * 8 + 256 * 8 + (g.t + 1) * 8 + (g.q + 1) * 4 + (g.c + 1) * 16 + (g.j + 1) * 8 := by
  unfold budgetTotal tableStart
  rw [tableSizes_of_ne h]
  simp [← Nat.add_assoc]

theorem geometryBytes_eq (g : Geometry) :
    geometryBytes g = bytesLE 2 g.p ++ bytesLE 2 g.t ++ bytesLE 2 g.q ++ bytesLE 2 g.c ++ bytesLE 2 g.j := by
  simp [geometryBytes]

/-! ## SET_GEOMETRY (R179) -/

section SetGeometry

variable {p t q c j : U16} {s s0 : State}

/-- The geometry that the operands of SET_GEOMETRY name. -/
def namedGeometry (p t q c j : U16) : Geometry := ⟨p.toNat, t.toNat, q.toNat, c.toNat, j.toNat⟩

theorem geometryOk_named :
    geometryOk (namedGeometry p t q c j) = true ↔
      1 ≤ p.toNat ∧ 1 ≤ t.toNat ∧ t.toNat ≤ 32767 ∧ 1 ≤ q.toNat ∧ 1 ≤ c.toNat ∧ c.toNat ≤ 32767 ∧ 1 ≤ j.toNat ∧
        j.toNat ≤ 4095 := by
  have hp := p.isLt
  have hq := q.isLt
  unfold geometryOk namedGeometry
  rw [decide_eq_true_iff]
  simp only
  omega

/-- The action of SET_GEOMETRY at its owner. -/
def geometryAnswer (g : Geometry) (s : State) : Answer :=
  inSetup s (if geometryOk g then ⟨takeGeometry g s, .ok, geometryBytes g ++ bytesLE 3 (budgetTotal g)⟩
    else refuse .badField s)

theorem exec_setGeometry :
    exec (.setGeometry p t q c j) s = request (.setGeometry p t q c j) s (geometryAnswer (namedGeometry p t q c j)) := rfl

theorem setGeometry_accepted (h : Takes (.setGeometry p t q c j) s s0) (hm : s.management.mode = .setup)
    (hok : geometryOk (namedGeometry p t q c j) = true) :
    exec (.setGeometry p t q c j) s = .next (replied (.setGeometry p t q c j) .ok
      (geometryBytes (namedGeometry p t q c j) ++ bytesLE 3 (budgetTotal (namedGeometry p t q c j)))
      (takeGeometry (namedGeometry p t q c j) s0)) := by
  have hm0 : s0.management.mode = .setup := by rw [h.management, hm]
  refine h.quiet exec_setGeometry ?_ rfl
  simp only [geometryAnswer, inSetup_setup _ hm0, hok, if_true]

theorem setGeometry_refused (h : Takes (.setGeometry p t q c j) s s0) (hm : s.management.mode = .setup)
    (hok : geometryOk (namedGeometry p t q c j) = false) :
    exec (.setGeometry p t q c j) s = .next (replied (.setGeometry p t q c j) .badField [] s0) := by
  have hm0 : s0.management.mode = .setup := by rw [h.management, hm]
  refine h.refused exec_setGeometry ?_
  simp [geometryAnswer, inSetup_setup _ hm0, hok]

end SetGeometry

end Sys2Proof.Machine

open Sys2Proof.Machine in
/-- Settles O19: SET_GEOMETRY by whether its operands are in range; the layout by adding up the table sizes of R180. -/
theorem geometryEmptiesEveryTable : Obligations.GeometryEmptiesEveryTable := by
  refine ⟨fun p t q c j s s0 h hm => ⟨fun hin => ?_, fun hout => ?_⟩, fun g hg => ?_⟩
  · rw [setGeometry_accepted h hm (geometryOk_named.mpr hin), geometryBytes_eq, budgetTotal_of_ne]
    · rfl
    · intro h0
      have hp : p.toNat = 0 := congrArg Geometry.p h0
      omega
  · refine setGeometry_refused h hm (Bool.eq_false_iff.mpr fun hok => ?_)
    have hin := geometryOk_named.mp hok
    bv_omega
  · obtain ⟨h0, h1, h2, h3, h4, h5⟩ := tableStart_of_ne hg
    refine ⟨?_, budgetTotal_of_ne hg, fun i => ?_⟩
    · simp [List.range_succ, h0, h1, h2, h3, h4, h5]
    · simp [recordWord, recordWords, h0, h1, h2, h3, h4, h5]
end

