-- ==== Sys2Proof/Proofs/Agencies.lean ====
section
/-! PROOFS. LOAD_AGENCY (R15). -/

namespace Sys2Proof.Machine

/-- A field that is 0 or 1 names nothing above 1 (R203, log 27). -/
theorem flagOf_of_gt {b : Byte} (h : 1 < b.toNat) : flagOf b = none := by
  unfold flagOf
  split
  · omega
  · omega
  · rfl

/-- The action of LOAD_AGENCY at its owner. -/
def agencyAnswer (k : Nat) (present : Byte) (code : Nat) (s : State) : Answer :=
  if k = 0 ∨ 255 < k then refuse .badField s
  else
    match presentOf present with
    | none => refuse .badField s
    | some true => ⟨writeAgency k code s, .ok, []⟩
    | some false => deleteAgency k s

section LoadAgency

variable {k : Nat} {present : Byte} {code : Nat} {s : State}

theorem agencyAnswer_outside (h : k = 0 ∨ 255 < k) : agencyAnswer k present code s = refuse .badField s := by
  unfold agencyAnswer
  rw [if_pos h]

theorem agencyAnswer_badPresent (hp : 1 < present.toNat) : agencyAnswer k present code s = refuse .badField s := by
  unfold agencyAnswer presentOf
  rw [flagOf_of_gt hp]
  split_ifs <;> rfl

theorem agencyAnswer_load (hk : k ≠ 0) (hk' : k ≤ 255) : agencyAnswer k 1 code s = ⟨writeAgency k code s, .ok, []⟩ := by
  unfold agencyAnswer
  rw [if_neg (by omega)]
  rfl

theorem agencyAnswer_delete (hk : k ≠ 0) (hk' : k ≤ 255) : agencyAnswer k 0 code s = deleteAgency k s := by
  unfold agencyAnswer
  rw [if_neg (by omega)]
  rfl

/-- A load writes the code, and keeps the member count of an agency that is present (R15 cases 3 and 4). -/
theorem writeAgency_eq (k code : Nat) (s : State) :
    writeAgency k code s = { s with
      records.agencies := Table.put s.records.agencies k
        ⟨code, ((Table.get s.records.agencies k).map Agency.members).getD 0⟩ } := by
  unfold writeAgency
  split
  · next h => rw [h]; rfl
  · next a h => rw [h]; rfl

end LoadAgency

end Sys2Proof.Machine

open Sys2Proof Sys2Proof.Machine in
/-- Settles O26: the action of LOAD_AGENCY case by case, each with what it writes. -/
theorem agencyLoadsAndDeletes : Obligations.AgencyLoadsAndDeletes := by
  intro k present code s s0 i h refused becomes
  have he : exec i s = request i s (agencyAnswer k.toNat present code.toNat) := rfl
  have hwrite : ∀ a, Table.get s.records.agencies k.toNat = a → k ≠ 0 → k.toNat ≤ 255 → present = 1 →
      becomes (some ⟨code.toNat, (a.map Agency.members).getD 0⟩) := by
    rintro a ha hk hk' rfl
    refine ⟨_, h.quiet he (agencyAnswer_load (by bv_omega) hk') (by rw [writeAgency_eq]), ?_, ?_, ?_⟩
    · rw [writeAgency_eq]
    · rw [writeAgency_eq, Table.get_put_same, h.records, ha]
    · intro j hj
      rw [writeAgency_eq, Table.get_put_other _ _ hj]
  refine ⟨fun hk => h.refused he (agencyAnswer_outside (by bv_omega)), fun hk hk' =>
    ⟨fun hp => h.refused he (agencyAnswer_badPresent hp), fun hp => ⟨fun ha => hwrite _ ha hk hk' hp, fun a ha =>
      hwrite _ ha hk hk' hp⟩, ?_⟩⟩
  rintro rfl
  have hact : agencyAnswer k.toNat 0 code.toNat s0 = deleteAgency k.toNat s0 := agencyAnswer_delete (by bv_omega) hk'
  unfold deleteAgency at hact
  rw [h.records] at hact
  refine ⟨fun ha => h.refused he ?_, fun a ha => ⟨fun hm => h.refused he ?_, fun hm => ?_⟩⟩
  · rw [hact, ha]
  · simp only [ha, hm, if_true] at hact
    exact hact
  · simp only [ha, hm, lt_irrefl, if_false] at hact
    refine ⟨_, h.quiet he hact rfl, by rw [← h.records], Table.get_delete_same _ _, fun j hj => ?_⟩
    rw [h.records]
    exact Table.get_delete_other _ hj
end

