-- ==== Sys2Proof/Proofs/Patrons.lean ====
section
/-! PROOFS. LOAD_PATRON (R10 to R14). -/

namespace Sys2Proof.Machine

/-! ## Named values read back (R201) -/

theorem statusOf_value {st : PatronStatus} {b : Byte} (h : statusValue st = b.toNat) : statusOf b = some st := by
  unfold statusOf
  rw [← h]
  cases st <;> rfl

theorem statusOf_le {st : PatronStatus} {b : Byte} (h : statusOf b = some st) : b.toNat ≤ 1 := by
  unfold statusOf at h
  split at h
  · omega
  · omega
  · cases h

theorem patronClassOf_value {pc : PatronClass} {b : Byte} (h : patronClassValue pc = b.toNat) :
    patronClassOf b = some pc := by
  unfold patronClassOf
  rw [← h]
  cases pc <;> rfl

theorem patronClassOf_le {pc : PatronClass} {b : Byte} (h : patronClassOf b = some pc) : b.toNat ≤ 2 := by
  unfold patronClassOf at h
  split at h
  · omega
  · omega
  · omega
  · cases h

/-! ## The static fields (R3, R10 check 4) -/

section Fields

variable {status cls level formats cartridge quota agency : Byte} {code : U24}

/-- The fields of a LOAD_PATRON are within their ranges. -/
def PatronFit (status cls level formats cartridge quota : Byte) : Prop :=
  status.toNat ≤ 1 ∧ cls.toNat ≤ 2 ∧ level.toNat ≤ 3 ∧ 1 ≤ formats.toNat ∧ formats.toNat ≤ 3 ∧ 1 ≤ cartridge.toNat ∧
    cartridge.toNat ≤ 4 ∧ 1 ≤ quota.toNat ∧ quota.toNat ≤ 15

/-- The patron that the fields of a LOAD_PATRON name. -/
def namedPatron (st : PatronStatus) (pc : PatronClass) (level formats cartridge quota agency : Byte) (code : U24) : Patron :=
  { status := st, patronClass := pc, level := level.toNat, audio := formats.getLsbD 0, braille := formats.getLsbD 1,
    cartridgeClass := cartridge.toNat, quota := quota.toNat, agency := agency.toNat, code := code.toNat }

theorem patronFields_fit {st : PatronStatus} {pc : PatronClass} (hf : PatronFit status cls level formats cartridge quota)
    (hst : statusValue st = status.toNat) (hpc : patronClassValue pc = cls.toNat) :
    patronFields status cls level formats cartridge quota agency code =
      some (namedPatron st pc level formats cartridge quota agency code) := by
  obtain ⟨-, -, hl, hf1, hf3, hc1, hc4, hq1, hq15⟩ := hf
  unfold patronFields
  rw [statusOf_value hst, patronClassOf_value hpc]
  simp only
  rw [if_neg (by omega)]
  rfl

theorem patronFields_unfit (hf : ¬PatronFit status cls level formats cartridge quota) :
    patronFields status cls level formats cartridge quota agency code = none := by
  unfold patronFields
  split
  · next st pc hst hpc =>
    have h1 := statusOf_le hst
    have h2 := patronClassOf_le hpc
    unfold PatronFit at hf
    rw [if_pos (by omega)]
  · rfl

end Fields

/-! ## The action of LOAD_PATRON at its owner -/

/-- The action of LOAD_PATRON, its fields read as `new`. -/
def patronAnswer (k : Nat) (present : Byte) (new : Option Patron) (s : State) : Answer :=
  if k = 0 then refuse .nullPatron s
  else if s.management.geometry.p < k then refuse .patronRange s
  else
    match presentOf present, new with
    | some false, _ => deletePatron k s
    | some true, some new => writePatron k new s
    | _, _ => refuse .badField s

section Answer

variable {k : Nat} {present : Byte} {new : Option Patron} {s : State}

theorem patronAnswer_null : patronAnswer 0 present new s = refuse .nullPatron s := rfl

theorem patronAnswer_outside (hk : k ≠ 0) (hg : s.management.geometry.p < k) :
    patronAnswer k present new s = refuse .patronRange s := by
  unfold patronAnswer
  rw [if_neg hk, if_pos hg]

variable (hk : k ≠ 0) (hg : k ≤ s.management.geometry.p)
include hk hg

theorem patronAnswer_badPresent (hp : 1 < present.toNat) : patronAnswer k present new s = refuse .badField s := by
  unfold patronAnswer presentOf
  rw [if_neg hk, if_neg (by omega), flagOf_of_gt hp]

theorem patronAnswer_unfit : patronAnswer k 1 none s = refuse .badField s := by
  unfold patronAnswer
  rw [if_neg hk, if_neg (by omega)]
  rfl

theorem patronAnswer_delete : patronAnswer k 0 new s = deletePatron k s := by
  unfold patronAnswer
  rw [if_neg hk, if_neg (by omega)]
  rfl

theorem patronAnswer_load (p : Patron) : patronAnswer k 1 (some p) s = writePatron k p s := by
  unfold patronAnswer
  rw [if_neg hk, if_neg (by omega)]
  rfl

end Answer

/-! ## What a load and a delete write -/

theorem patronBusy_iff (p : Patron) : patronBusy p = true ↔ 0 < p.charge ∨ p.wish ≠ [] := by simp [patronBusy]

theorem changeMembers_only (a b : Nat) (s : State) :
    changeMembers a b s = { s with records.agencies := (changeMembers a b s).records.agencies } := by
  unfold changeMembers
  split_ifs <;> rfl

/-- The state after patron `k`'s move from agency `a` to agency `b`, its record being written or deleted. -/
def patronMoved (a b : Nat) (patrons : Table Patron) (s : State) : State :=
  { changeMembers a b s with records.patrons := patrons }

theorem patronMoved_only (a b : Nat) (patrons : Table Patron) (s : State) :
    patronMoved a b patrons s = { s with
      records.patrons := (patronMoved a b patrons s).records.patrons
      records.agencies := (patronMoved a b patrons s).records.agencies } := by
  unfold patronMoved
  rw [changeMembers_only]

theorem deletePatron_idle {k : Nat} {p : Patron} {s : State} (hp : Table.get s.records.patrons k = some p)
    (hb : patronBusy p = false) :
    deletePatron k s = ⟨patronMoved p.agency 0 (Table.delete s.records.patrons k) s, .ok, []⟩ := by
  unfold deletePatron patronMoved
  simp [hp, hb]

theorem deletePatron_busy {k : Nat} {p : Patron} {s : State} (hp : Table.get s.records.patrons k = some p)
    (hb : patronBusy p = true) : deletePatron k s = refuse .inUse s := by
  unfold deletePatron
  simp [hp, hb]

theorem deletePatron_absent {k : Nat} {s : State} (hp : Table.get s.records.patrons k = none) :
    deletePatron k s = refuse .patronAbsent s := by
  unfold deletePatron
  simp [hp]

section Write

variable {k : Nat} {new : Patron} {s : State}

theorem writePatron_agencyAbsent (ha : new.agency ≠ 0) (hn : Table.get s.records.agencies new.agency = none) :
    writePatron k new s = refuse .agencyAbsent s := by
  unfold writePatron
  rw [if_pos ⟨ha, hn⟩]

variable (ha : new.agency = 0 ∨ (Table.get s.records.agencies new.agency).isSome)
include ha

theorem agency_present : ¬(new.agency ≠ 0 ∧ Table.get s.records.agencies new.agency = none) := by
  rintro ⟨h0, hn⟩
  rcases ha with h | h
  · exact h0 h
  · rw [hn] at h; cases h

theorem writePatron_absent (hp : Table.get s.records.patrons k = none) :
    writePatron k new s = ⟨patronMoved 0 new.agency (Table.put s.records.patrons k new) s, .ok, []⟩ := by
  unfold writePatron patronMoved
  rw [if_neg (agency_present ha)]
  simp [hp]

theorem writePatron_busy {old : Patron} (hp : Table.get s.records.patrons k = some old)
    (hc : old.cartridgeClass ≠ new.cartridgeClass) (hb : patronBusy old = true) :
    writePatron k new s = refuse .inUse s := by
  unfold writePatron
  rw [if_neg (agency_present ha)]
  simp [hp, hc, hb]

theorem writePatron_reload {old : Patron} (hp : Table.get s.records.patrons k = some old)
    (hc : ¬(old.cartridgeClass ≠ new.cartridgeClass ∧ patronBusy old = true)) :
    writePatron k new s =
      (let t := patronMoved old.agency new.agency (Table.put s.records.patrons k (Patron.reloaded old new)) s
       ⟨if freesHeadroom old new then headroom k t else t, .ok, []⟩) := by
  unfold writePatron patronMoved
  rw [if_neg (agency_present ha)]
  simp only [hp, hc, if_false, changeMembers_patrons]

end Write

end Sys2Proof.Machine
open Sys2Proof Sys2Proof.Machine in
/-- Settles O25: the action of LOAD_PATRON case by case; what a load and a delete write is `patronMoved`, whose member counts
are those of `changeMembers_agency`. -/
theorem patronLoadsAndDeletes : Obligations.PatronLoadsAndDeletes := by
  intro k present status cls level formats cartridge quota agency code s s0 st pc i h fit static refused recordsOnly members
  have he : exec i s = request i s (patronAnswer k.toNat present
      (patronFields status cls level formats cartridge quota agency code)) := rfl
  have hmembers : ∀ a b patrons, members (patronMoved a b patrons s0) a b := fun a b _ j _ => changeMembers_agency a b j s0
  have honly : ∀ a b patrons, (∀ j, j ≠ k.toNat → Table.get patrons j = Table.get s0.records.patrons j) →
      recordsOnly (patronMoved a b patrons s0) := fun a b patrons hj => ⟨patronMoved_only a b patrons s0, hj⟩
  have hmoved : ∀ {a b patrons}, (patronMoved a b patrons s0).passDue = s0.passDue := fun {a b patrons} => by
    rw [patronMoved_only]
  have hk0 : k ≠ 0 → k.toNat ≠ 0 := fun hk => by bv_omega
  refine ⟨?_, fun hk hg => h.refused he (patronAnswer_outside (hk0 hk) (by rwa [h.management])), fun hk hg => ?_⟩
  · rintro rfl
    exact h.refused he patronAnswer_null
  have hg0 : k.toNat ≤ s0.management.geometry.p := by rwa [h.management]
  have hk := hk0 hk
  rw [← h.records]
  refine ⟨fun hp => h.refused he (patronAnswer_badPresent hk hg0 hp), ?_, ?_⟩
  · rintro rfl
    have hact := patronAnswer_delete (new := patronFields status cls level formats cartridge quota agency code) hk hg0
    refine ⟨fun hnone => h.refused he (hact.trans (deletePatron_absent hnone)), fun old hold => ⟨fun hb => ?_, fun hb => ?_⟩⟩
    · exact h.refused he (hact.trans (deletePatron_busy hold ((patronBusy_iff old).mpr hb)))
    · have hidle : patronBusy old = false := by simp [patronBusy, hb]
      exact ⟨_, h.quiet he (hact.trans (deletePatron_idle hold hidle)) hmoved,
        honly _ _ _ fun j hj => Table.get_delete_other _ hj, Table.get_delete_same _ _, hmembers _ _ _⟩
  · rintro rfl
    refine ⟨fun hf => ?_, fun hf hst hpc => ?_⟩
    · rw [patronFields_unfit hf] at he
      exact h.refused he (patronAnswer_unfit hk hg0)
    rw [patronFields_fit hf hst hpc] at he
    have hact := patronAnswer_load hk hg0 static
    refine ⟨fun ha hnone => ?_, fun ha => ?_⟩
    · exact h.refused he (hact.trans (writePatron_agencyAbsent (fun h0 => ha (BitVec.eq_of_toNat_eq h0)) hnone))
    have ha : static.agency = 0 ∨ (Table.get s0.records.agencies static.agency).isSome := by
      refine ha.imp_left ?_
      rintro rfl
      rfl
    refine ⟨fun hnone => ?_, fun old hold => ⟨fun hc hb => ?_, fun hc => ?_⟩⟩
    · exact ⟨_, h.quiet he (hact.trans (writePatron_absent ha hnone)) hmoved,
        honly _ _ _ fun j hj => Table.get_put_other _ _ hj, Table.get_put_same _ _ _, hmembers _ _ _⟩
    · exact h.refused he (hact.trans (writePatron_busy ha hold hc ((patronBusy_iff old).mpr hb)))
    · refine ⟨_, honly _ _ _ fun j hj => Table.get_put_other _ _ hj, hmembers _ _ _, Table.get_put_same _ _ _, ?_⟩
      have hfree : ¬(old.cartridgeClass ≠ static.cartridgeClass ∧ patronBusy old = true) := by
        rintro ⟨hne, hb⟩
        rcases hc with heq | ⟨h0, hw⟩
        · exact hne heq
        · simp [patronBusy, h0, hw] at hb
      rw [h.answered he (hact.trans (writePatron_reload ha hold hfree))]
      simp only [freesHeadroom, decide_eq_true_eq]
      split_ifs
      · rfl
      · rw [settle_of_noPass (hmoved.trans h.noPass)]
        rfl
end

