-- ==== Sys2Proof/Proofs/Titles.lean ====
section
/-! PROOFS. LOAD_TITLE (R16 to R19). -/

namespace Sys2Proof.Machine

/-! ## Named values read back (R201) -/

theorem formatOf_value {fm : TitleFormat} {b : Byte} (h : formatValue fm = b.toNat) : formatOf b = some fm := by
  unfold formatOf
  rw [← h]
  cases fm <;> rfl

theorem formatOf_some {fm : TitleFormat} {b : Byte} (h : formatOf b = some fm) : b.toNat = formatValue fm := by
  unfold formatOf at h
  split at h
  · next hb => cases h; exact hb
  · next hb => cases h; exact hb
  · cases h

theorem policyOf_value {pol : Policy} {b : Byte} (h : policyValue pol = b.toNat) : policyOf b = some pol := by
  unfold policyOf
  rw [← h]
  cases pol <;> rfl

theorem policyOf_some {pol : Policy} {b : Byte} (h : policyOf b = some pol) : b.toNat = policyValue pol := by
  unfold policyOf at h
  split at h
  · next hb => cases h; exact hb
  · next hb => cases h; exact hb
  · cases h

theorem availabilityOf_value {av : Availability} {b : Byte} (h : availabilityValue av = b.toNat) :
    availabilityOf b = some av := by
  unfold availabilityOf
  rw [← h]
  cases av <;> rfl

theorem availabilityOf_le {av : Availability} {b : Byte} (h : availabilityOf b = some av) : b.toNat ≤ 1 := by
  unfold availabilityOf at h
  split at h
  · omega
  · omega
  · cases h

/-! ## The static fields (R7, R16 check 3) -/

section Fields

variable {format policy level availability : Byte} {extent : U16} {granularity shelfClass volumes : Byte} {weight : U16}

/-- The fields of a LOAD_TITLE of an AUDIO title are within their ranges. -/
def AudioFit (format policy : Byte) (extent : U16) (granularity shelfClass : Byte) : Prop :=
  format = 0 ∧ policy.toNat ≤ 1 ∧ extent.toNat ≤ 32767 ∧ granularity.toNat ≤ 1 ∧
    (policy = 1 → 1 ≤ shelfClass.toNat ∧ shelfClass.toNat ≤ 4)

/-- The fields of a LOAD_TITLE of a BRAILLE title are within their ranges. -/
def BrailleFit (format policy volumes : Byte) (weight : U16) : Prop :=
  format = 1 ∧ policy = 1 ∧ 1 ≤ volumes.toNat ∧ volumes.toNat ≤ 32 ∧ 50 ≤ weight.toNat ∧ weight.toNat ≤ 5000

/-- The fields of a LOAD_TITLE are within their ranges. -/
def TitleFit (format policy level availability : Byte) (extent : U16) (granularity shelfClass volumes : Byte)
    (weight : U16) : Prop :=
  level.toNat ≤ 3 ∧ availability.toNat ≤ 1 ∧
    (AudioFit format policy extent granularity shelfClass ∨ BrailleFit format policy volumes weight)

/-- The title that the fields of a LOAD_TITLE name, those that do not apply being 0. -/
def namedTitle (fm : TitleFormat) (pol : Policy) (av : Availability) (level : Byte) (extent : U16)
    (granularity shelfClass volumes : Byte) (weight : U16) : Title :=
  if fm = .audio then
    ⟨fm, pol, level.toNat, av, extent.toNat, granularity.toNat, if pol = .shelf then shelfClass.toNat else 0, 0, 0,
      [], 0, 0, 0, 0⟩
  else ⟨fm, pol, level.toNat, av, 0, 0, 0, volumes.toNat, weight.toNat, [], 0, 0, 0, 0⟩

theorem namedTitle_names (fm : TitleFormat) (pol : Policy) (av : Availability) :
    (namedTitle fm pol av level extent granularity shelfClass volumes weight).format = fm ∧
      (namedTitle fm pol av level extent granularity shelfClass volumes weight).policy = pol ∧
      (namedTitle fm pol av level extent granularity shelfClass volumes weight).availability = av := by
  cases fm <;> exact ⟨rfl, rfl, rfl⟩

theorem titleFields_fit {fm : TitleFormat} {pol : Policy} {av : Availability}
    (hf : TitleFit format policy level availability extent granularity shelfClass volumes weight)
    (hfm : formatValue fm = format.toNat) (hpol : policyValue pol = policy.toNat)
    (hav : availabilityValue av = availability.toNat) :
    titleFields format policy level availability extent granularity shelfClass volumes weight =
      some (namedTitle fm pol av level extent granularity shelfClass volumes weight) := by
  obtain ⟨hl, -, hfit⟩ := hf
  unfold titleFields
  rw [formatOf_value hfm, policyOf_value hpol, availabilityOf_value hav]
  rcases hfit with ⟨rfl, -, hext, hgr, hcls⟩ | ⟨rfl, rfl, hv1, hv2, hw1, hw2⟩
  · cases fm with
    | braille => cases hfm
    | audio =>
      have hshelf : pol = .shelf → 1 ≤ shelfClass.toNat ∧ shelfClass.toNat ≤ 4 := by
        rintro rfl
        exact hcls (BitVec.eq_of_toNat_eq hpol.symm)
      simp only
      rw [if_neg]
      · rfl
      · rintro (h | h | h | ⟨hp, h⟩)
        · omega
        · omega
        · omega
        · have := hshelf hp
          omega
  · cases fm with
    | audio => cases hfm
    | braille =>
      cases pol with
      | onDemand => cases hpol
      | shelf =>
        simp only
        rw [if_neg (by omega)]
        rfl

theorem titleFields_unfit (hf : ¬TitleFit format policy level availability extent granularity shelfClass volumes weight) :
    titleFields format policy level availability extent granularity shelfClass volumes weight = none := by
  unfold titleFields
  split
  · next pol av hfm hpol hav =>
    have hav := availabilityOf_le hav
    have hpol := policyOf_some hpol
    rw [if_pos]
    by_contra hin
    simp only [not_or, not_lt, not_and] at hin
    obtain ⟨hl, hext, hgr, hcls⟩ := hin
    refine hf ⟨hl, hav, .inl ⟨BitVec.eq_of_toNat_eq (formatOf_some hfm), ?_, hext, hgr, ?_⟩⟩
    · cases pol <;> simp [hpol, policyValue]
    · rintro rfl
      cases pol with
      | onDemand => cases hpol
      | shelf =>
        obtain ⟨h0, h4⟩ := hcls rfl
        omega
  · next av hfm hpol hav =>
    have hav := availabilityOf_le hav
    rw [if_pos]
    by_contra hin
    refine hf ⟨by omega, hav, .inr ⟨BitVec.eq_of_toNat_eq (formatOf_some hfm), BitVec.eq_of_toNat_eq (policyOf_some hpol), ?_⟩⟩
    omega
  · rfl

end Fields

/-! ## The action of LOAD_TITLE at its owner -/

/-- The action of LOAD_TITLE, its fields read as `new`. -/
def titleAnswer (k : Nat) (present : Byte) (new : Option Title) (s : State) : Answer :=
  if k = 0 ∨ s.management.geometry.t < k then refuse .titleRange s
  else
    match presentOf present, new with
    | some false, _ => deleteTitle k s
    | some true, some new => writeTitle k new s
    | _, _ => refuse .badField s

section Answer

variable {k : Nat} {present : Byte} {new : Option Title} {s : State}

theorem titleAnswer_outside (hk : k = 0 ∨ s.management.geometry.t < k) :
    titleAnswer k present new s = refuse .titleRange s := by
  unfold titleAnswer
  rw [if_pos hk]

variable (hk : k ≠ 0) (hg : k ≤ s.management.geometry.t)
include hk hg

theorem titleAnswer_badPresent (hp : 1 < present.toNat) : titleAnswer k present new s = refuse .badField s := by
  unfold titleAnswer presentOf
  rw [if_neg (by omega), flagOf_of_gt hp]

theorem titleAnswer_unfit : titleAnswer k 1 none s = refuse .badField s := by
  unfold titleAnswer
  rw [if_neg (by omega)]
  rfl

theorem titleAnswer_delete : titleAnswer k 0 new s = deleteTitle k s := by
  unfold titleAnswer
  rw [if_neg (by omega)]
  rfl

theorem titleAnswer_load (x : Title) : titleAnswer k 1 (some x) s = writeTitle k x s := by
  unfold titleAnswer
  rw [if_neg (by omega)]
  rfl

end Answer

/-! ## What a load and a delete write -/

/-- The state with another title table. -/
def State.withTitles (titles : Table Title) (s : State) : State := { s with records.titles := titles }

section Write

variable {k : Nat} {old new : Title} {s : State}

theorem writeTitle_absent (h : Table.get s.records.titles k = none) :
    writeTitle k new s = ⟨s.withTitles (Table.put s.records.titles k new), .ok, []⟩ := by
  unfold writeTitle
  rw [h]
  rfl

theorem writeTitle_refused (h : Table.get s.records.titles k = some old) (hr : reloadRefused old new = true) :
    writeTitle k new s = refuse .inUse s := by
  unfold writeTitle
  simp [h, hr]

theorem writeTitle_reload (h : Table.get s.records.titles k = some old) (hr : reloadRefused old new = false) :
    writeTitle k new s =
      ⟨copiesFreed (copiesMadeAvailable old new) k
        (s.withTitles (Table.put s.records.titles k (Title.reloaded old new))), .ok, []⟩ := by
  unfold writeTitle State.withTitles
  simp [h, hr]

theorem deleteTitle_absent (h : Table.get s.records.titles k = none) : deleteTitle k s = refuse .titleAbsent s := by
  unfold deleteTitle
  rw [h]

theorem deleteTitle_busy (h : Table.get s.records.titles k = some old)
    (hb : old.waiting ≠ [] ∨ 0 < old.out ∨ 0 < old.repair) : deleteTitle k s = refuse .inUse s := by
  unfold deleteTitle
  simp only [h]
  rw [if_pos hb]

/-- The delete of an idle title (R19): its shelf cartridges go to blank, and its record is absent. -/
theorem deleteTitle_idle (h : Table.get s.records.titles k = some old)
    (hb : ¬(old.waiting ≠ [] ∨ 0 < old.out ∨ 0 < old.repair)) :
    deleteTitle k s = ⟨shelfToBlank old (s.withTitles (Table.delete s.records.titles k)), .ok, []⟩ := by
  unfold deleteTitle
  simp only [h]
  rw [if_neg hb]
  unfold shelfToBlank
  split_ifs <;> rfl

end Write

end Sys2Proof.Machine

open Sys2Proof Sys2Proof.Machine in
/-- Settles O27: the action of LOAD_TITLE case by case; a load and a delete write the title table alone, before the *copy
freed* events of a reload and the cartridges of a delete. -/
theorem titleLoadsAndDeletes : Obligations.TitleLoadsAndDeletes := by
  intro k present format policy level availability extent granularity shelfClass volumes weight s s0 fm pol av i h audio
    braille fit static refused titlesOnly
  have he : exec i s = request i s (titleAnswer k.toNat present
      (titleFields format policy level availability extent granularity shelfClass volumes weight)) := rfl
  have honly : ∀ titles, (∀ j, j ≠ k.toNat → Table.get titles j = Table.get s0.records.titles j) →
      titlesOnly (s0.withTitles titles) := fun titles hj => ⟨rfl, hj⟩
  have hnoPass : ∀ titles, NoPassOwed (s0.withTitles titles) := fun _ => h.noPass
  refine ⟨fun hk => h.refused he (titleAnswer_outside ?_), fun hk hg => ?_⟩
  · rw [h.management]
    exact hk.imp_left (by rintro rfl; rfl)
  have hk : k.toNat ≠ 0 := by bv_omega
  have hg0 : k.toNat ≤ s0.management.geometry.t := by rwa [h.management]
  rw [← h.records]
  refine ⟨fun hp => h.refused he (titleAnswer_badPresent hk hg0 hp), ?_, ?_⟩
  · rintro rfl
    refine ⟨fun hf => ?_, fun hf hfm hpol hav => ?_⟩
    · rw [titleFields_unfit hf] at he
      exact h.refused he (titleAnswer_unfit hk hg0)
    rw [titleFields_fit hf hfm hpol hav] at he
    have hact := titleAnswer_load hk hg0 static
    obtain ⟨hformat, hpolicy, havail⟩ : static.format = fm ∧ static.policy = pol ∧ static.availability = av :=
      namedTitle_names fm pol av
    refine ⟨fun hnone => ?_, fun old hold => ⟨fun hlive => ?_, fun hlive => ?_⟩⟩
    · exact ⟨_, h.quiet he (hact.trans (writeTitle_absent hnone)) rfl,
        honly _ fun j hj => Table.get_put_other _ _ hj, Table.get_put_same _ _ _⟩
    · have hr : reloadRefused old static = true := by
        unfold reloadRefused
        rw [hformat, hpolicy]
        exact decide_eq_true hlive
      exact h.refused he (hact.trans (writeTitle_refused hold hr))
    · have hr : reloadRefused old static = false := by
        unfold reloadRefused
        rw [hformat, hpolicy]
        exact decide_eq_false hlive
      refine ⟨s0.withTitles (Table.put s0.records.titles k.toNat (Title.reloaded old static)),
        honly _ fun j hj => Table.get_put_other _ _ hj, Table.get_put_same _ _ _, ?_⟩
      rw [h.answered he (hact.trans (writeTitle_reload hold hr))]
      unfold copiesMadeAvailable
      rw [havail, hpolicy]
      split_ifs
      · rfl
      · rw [copiesFreed, settle_of_noPass (hnoPass _)]
  · rintro rfl
    have hact := titleAnswer_delete
      (new := titleFields format policy level availability extent granularity shelfClass volumes weight) hk hg0
    refine ⟨fun hnone => h.refused he (hact.trans (deleteTitle_absent hnone)), fun old hold => ⟨fun hb => ?_, fun hb => ?_⟩⟩
    · exact h.refused he (hact.trans (deleteTitle_busy hold hb))
    have hidle : ¬(old.waiting ≠ [] ∨ 0 < old.out ∨ 0 < old.repair) := by simp [hb]
    have hexec := h.answered he (hact.trans (deleteTitle_idle hold hidle))
    refine ⟨fun hshelf => ?_, fun hshelf => ?_⟩
    · unfold shelfToBlank at hexec
      rw [if_neg hshelf, settle_of_noPass (hnoPass _)] at hexec
      exact ⟨_, hexec, honly _ fun j hj => Table.get_delete_other _ hj, Table.get_delete_same _ _⟩
    · unfold shelfToBlank at hexec
      rw [if_pos hshelf] at hexec
      exact ⟨_, honly _ fun j hj => Table.get_delete_other _ hj, Table.get_delete_same _ _, hexec⟩
end

