-- ==== Sys2Proof/Proofs/Fields.lean ====
section
/-! PROOFS. Fields of a reply (R201): what `fieldAt` reads from bytes, quantities and repeated layouts, and the links that a
record shows (log 5). -/

namespace Sys2Proof.Machine

@[simp] theorem byteOf_toNat (n : Nat) : (byteOf n).toNat = n % 256 := BitVec.toNat_ofNat n 8

@[simp] theorem flagByte_toNat (b : Bool) : (flagByte b).toNat = b.toNat := by cases b <;> rfl

theorem natLE_bytesLE (n v : Nat) : natLE (bytesLE n v) = v % 256 ^ n := by
  induction n generalizing v with
  | zero => simp [bytesLE, natLE, Nat.mod_one]
  | succ n ih =>
    have hb : (BitVec.ofNat 8 v).toNat = v % 256 := BitVec.toNat_ofNat v 8
    rw [bytesLE, natLE, ih, hb, Nat.pow_succ', Nat.mod_mul]

/-! ## Reading fields off a list of bytes -/

@[simp] theorem fieldAt_head (b : Byte) (bs : List Byte) : fieldAt (b :: bs) 0 1 = b.toNat := by simp [fieldAt, natLE]

@[simp] theorem fieldAt_cons_succ (b : Byte) (bs : List Byte) (o n : Nat) : fieldAt (b :: bs) (o + 1) n = fieldAt bs o n := rfl

theorem fieldAt_skip {xs : List Byte} {k : Nat} (h : xs.length = k) (bs : List Byte) (o n : Nat) :
    fieldAt (xs ++ bs) (o + k) n = fieldAt bs o n := by
  subst h
  unfold fieldAt
  rw [Nat.add_comm, List.drop_length_add_append]

theorem fieldAt_within {xs : List Byte} {o n : Nat} (h : o + n ≤ xs.length) (bs : List Byte) :
    fieldAt (xs ++ bs) o n = fieldAt xs o n := by
  unfold fieldAt
  rw [List.drop_append_of_le_length (by omega), List.take_append_of_le_length (by simp; omega)]

theorem fieldAt_bytesLE (n v : Nat) : fieldAt (bytesLE n v) 0 n = v % 256 ^ n := by
  unfold fieldAt
  rw [List.drop_zero, List.take_of_length_le (by simp), natLE_bytesLE]

theorem fieldAt_bytesLE_append (n v : Nat) (bs : List Byte) : fieldAt (bytesLE n v ++ bs) 0 n = v % 256 ^ n := by
  rw [fieldAt_within (by simp), fieldAt_bytesLE]

/-! The widths of R201: 2, 3 and 4 bytes. -/

@[simp] theorem fieldAt_2 (v : Nat) : fieldAt (bytesLE 2 v) 0 2 = v % 65536 := fieldAt_bytesLE 2 v
@[simp] theorem fieldAt_2_append (v : Nat) (bs : List Byte) : fieldAt (bytesLE 2 v ++ bs) 0 2 = v % 65536 :=
  fieldAt_bytesLE_append 2 v bs
@[simp] theorem fieldAt_3_append (v : Nat) (bs : List Byte) : fieldAt (bytesLE 3 v ++ bs) 0 3 = v % 16777216 :=
  fieldAt_bytesLE_append 3 v bs
@[simp] theorem fieldAt_4_append (v : Nat) (bs : List Byte) : fieldAt (bytesLE 4 v ++ bs) 0 4 = v % 4294967296 :=
  fieldAt_bytesLE_append 4 v bs
@[simp] theorem fieldAt_skip_2 (v : Nat) (bs : List Byte) (o n : Nat) :
    fieldAt (bytesLE 2 v ++ bs) (o + 2) n = fieldAt bs o n := fieldAt_skip (by simp) bs o n
@[simp] theorem fieldAt_skip_3 (v : Nat) (bs : List Byte) (o n : Nat) :
    fieldAt (bytesLE 3 v ++ bs) (o + 3) n = fieldAt bs o n := fieldAt_skip (by simp) bs o n
@[simp] theorem fieldAt_skip_4 (v : Nat) (bs : List Byte) (o n : Nat) :
    fieldAt (bytesLE 4 v ++ bs) (o + 4) n = fieldAt bs o n := fieldAt_skip (by simp) bs o n

@[simp] theorem toNat_mod_16 (x : BitVec 16) : x.toNat % 65536 = x.toNat := Nat.mod_eq_of_lt x.isLt
@[simp] theorem toNat_mod_32 (x : BitVec 32) : x.toNat % 4294967296 = x.toNat := Nat.mod_eq_of_lt x.isLt
@[simp] theorem boolToNat_mod (b : Bool) : b.toNat % 256 = b.toNat := by cases b <;> rfl

/-! ## One layout after another for the elements of a list -/

section Repeated

variable {α : Type} {f : α → List Byte} {w : Nat} (hw : ∀ a, (f a).length = w)
include hw

theorem flatMap_length (l : List α) : (l.flatMap f).length = w * l.length := by
  induction l with
  | nil => simp
  | cons a l ih => simp [ih, hw]; ring

theorem fieldAt_flatMap {l : List α} {n : Nat} {a : α} (h : l[n]? = some a) {j m : Nat} (hjm : j + m ≤ w)
    (bs : List Byte) : fieldAt (l.flatMap f ++ bs) (j + w * n) m = fieldAt (f a) j m := by
  induction l generalizing n with
  | nil => simp at h
  | cons x l ih =>
    rw [List.flatMap_cons, List.append_assoc]
    cases n with
    | zero =>
      cases h
      exact fieldAt_within (by rw [hw]; omega) _
    | succ n =>
      rw [Nat.mul_succ, ← Nat.add_assoc, fieldAt_skip (hw x)]
      exact ih (by simpa using h)

end Repeated

/-! ## Links and serials -/

/-- The link of an element is its successor on the list (log 5). -/
theorem linkAfter_append {before after : List Nat} {k : Nat} (h : k ∉ before) :
    linkAfter (before ++ k :: after) k = after.headD 0 := by
  induction before with
  | nil => simp [linkAfter]
  | cons x before ih =>
    simp only [List.mem_cons, not_or] at h
    obtain ⟨hx, hrest⟩ := h
    rw [List.cons_append, linkAfter, if_neg (Ne.symm hx), ih hrest]

theorem serialBytes_eq (s : Option U32) : serialBytes s = flagByte s.isSome :: bytesLE 4 (s.getD 0).toNat := by
  cases s <;> rfl

/-! ## Named values fit a byte (R201) -/

@[simp] theorem statusValue_mod (x : PatronStatus) : statusValue x % 256 = statusValue x := by cases x <;> rfl
@[simp] theorem patronClassValue_mod (x : PatronClass) : patronClassValue x % 256 = patronClassValue x := by cases x <;> rfl
@[simp] theorem formatValue_mod (x : TitleFormat) : formatValue x % 256 = formatValue x := by cases x <;> rfl
@[simp] theorem policyValue_mod (x : Policy) : policyValue x % 256 = policyValue x := by cases x <;> rfl
@[simp] theorem availabilityValue_mod (x : Availability) : availabilityValue x % 256 = availabilityValue x := by
  cases x <;> rfl
@[simp] theorem consStateValue_mod (x : ConsState) : consStateValue x % 256 = consStateValue x := by cases x <;> rfl
@[simp] theorem consKindValue_mod (x : ConsKind) : consKindValue x % 256 = consKindValue x := by cases x <;> rfl
@[simp] theorem lineStateValue_mod (x : LineState) : lineStateValue x % 256 = lineStateValue x := by cases x <;> rfl
@[simp] theorem verdictValue_mod (x : Verdict) : verdictValue x % 256 = verdictValue x := by cases x <;> rfl
@[simp] theorem jobStateValue_mod (x : JobState) : jobStateValue x % 256 = jobStateValue x := by cases x <;> rfl
@[simp] theorem jobKindValue_mod (x : JobKind) : jobKindValue x % 256 = jobKindValue x := by cases x <;> rfl
@[simp] theorem bayStateValue_mod (x : BayState) : bayStateValue x % 256 = bayStateValue x := by cases x <;> rfl

end Sys2Proof.Machine
end

