-- ==== Sys2Proof/Proofs/Layouts.lean ====
section
/-! PROOFS. The layouts of the records (R205). -/

namespace Sys2Proof.Machine

/-! ## The layouts -/

theorem formatsByte (a b : Bool) : (a.toNat + 2 * b.toNat) % 256 = a.toNat + 2 * b.toNat := by cases a <;> cases b <;> rfl

theorem patronBytes_fields (p : Patron) : (patronBytes p).length = 23 ∧ fieldAt (patronBytes p) 0 1 = 1 ∧
    fieldAt (patronBytes p) 1 1 = statusValue p.status ∧ fieldAt (patronBytes p) 2 1 = patronClassValue p.patronClass ∧
    fieldAt (patronBytes p) 3 1 = p.level % 256 ∧ fieldAt (patronBytes p) 4 1 = p.audio.toNat + 2 * p.braille.toNat ∧
    fieldAt (patronBytes p) 5 1 = p.cartridgeClass % 256 ∧
    fieldAt (patronBytes p) 6 1 = p.quota % 256 ∧ fieldAt (patronBytes p) 7 1 = p.agency % 256 ∧
    fieldAt (patronBytes p) 8 3 = p.code % 16777216 ∧ fieldAt (patronBytes p) 11 1 = p.charge % 256 ∧
    fieldAt (patronBytes p) 12 2 = p.wish.headD 0 % 65536 ∧ fieldAt (patronBytes p) 14 2 = (p.wish.getLast?.getD 0) % 65536 ∧
    fieldAt (patronBytes p) 16 1 = p.wish.length % 256 ∧ fieldAt (patronBytes p) 17 2 = p.chain.headD 0 % 65536 ∧
    fieldAt (patronBytes p) 19 2 = p.openPack % 65536 ∧ fieldAt (patronBytes p) 21 1 = p.overdue % 256 ∧
    fieldAt (patronBytes p) 22 1 = p.held.toNat := by
  simp [patronBytes, formatsByte, tailOf]

theorem agencyBytes_fields (a : Agency) : (agencyBytes a).length = 6 ∧ fieldAt (agencyBytes a) 0 1 = 1 ∧
    fieldAt (agencyBytes a) 1 3 = a.code % 16777216 ∧ fieldAt (agencyBytes a) 4 2 = a.members % 65536 := by
  simp [agencyBytes]

theorem titleBytes_fields (t : Title) : (titleBytes t).length = 26 ∧ fieldAt (titleBytes t) 0 1 = 1 ∧
    fieldAt (titleBytes t) 1 1 = formatValue t.format ∧ fieldAt (titleBytes t) 2 1 = policyValue t.policy ∧
    fieldAt (titleBytes t) 3 1 = t.level % 256 ∧ fieldAt (titleBytes t) 4 1 = availabilityValue t.availability ∧
    fieldAt (titleBytes t) 5 2 = t.extent % 65536 ∧ fieldAt (titleBytes t) 7 1 = t.granularity % 256 ∧
    fieldAt (titleBytes t) 8 1 = t.shelfClass % 256 ∧ fieldAt (titleBytes t) 9 1 = t.volumes % 256 ∧
    fieldAt (titleBytes t) 10 2 = t.weight % 65536 ∧
    fieldAt (titleBytes t) 12 2 = t.waiting.headD 0 % 65536 ∧
    fieldAt (titleBytes t) 14 2 = (t.waiting.getLast?.getD 0) % 65536 ∧
    fieldAt (titleBytes t) 16 2 = t.waiting.length % 65536 ∧
    fieldAt (titleBytes t) 18 2 = t.copies % 65536 ∧ fieldAt (titleBytes t) 20 2 = t.shelf % 65536 ∧
    fieldAt (titleBytes t) 22 2 = t.out % 65536 ∧ fieldAt (titleBytes t) 24 2 = t.repair % 65536 := by
  simp [titleBytes, tailOf]

section Request

variable (s : State) (k : Nat) (q : Request)

theorem requestBytes_fields :
    (requestBytes s k q).length = 11 ∧ fieldAt (requestBytes s k q) 0 1 = 1 ∧
    fieldAt (requestBytes s k q) 1 2 = q.patron % 65536 ∧ fieldAt (requestBytes s k q) 3 2 = q.title % 65536 ∧
    fieldAt (requestBytes s k q) 5 2 = q.day.toNat ∧
    fieldAt (requestBytes s k q) 7 2 = linkAfter (waitingOf s q.title) k % 65536 ∧
    fieldAt (requestBytes s k q) 9 2 = linkAfter (wishOf s q.patron) k % 65536 := by
  simp [requestBytes]

end Request

section Job

variable (s : State) (k : Nat) (j : Job)

theorem jobBytes_fields :
    (jobBytes s k j).length = 22 ∧ fieldAt (jobBytes s k j) 0 1 = jobStateValue j.state ∧
    fieldAt (jobBytes s k j) 1 1 = jobKindValue j.kind ∧ fieldAt (jobBytes s k j) 2 1 = j.priority % 256 ∧
    fieldAt (jobBytes s k j) 3 2 = j.consignment % 65536 ∧ fieldAt (jobBytes s k j) 5 2 = j.title % 65536 ∧
    fieldAt (jobBytes s k j) 7 1 = j.cartridgeClass % 256 ∧ fieldAt (jobBytes s k j) 8 2 = j.remaining % 65536 ∧
    fieldAt (jobBytes s k j) 10 3 = j.offset % 16777216 ∧ fieldAt (jobBytes s k j) 13 1 = j.serial.isSome.toNat ∧
    fieldAt (jobBytes s k j) 14 4 = (j.serial.getD 0).toNat ∧ fieldAt (jobBytes s k j) 18 1 = j.retry.toNat ∧
    fieldAt (jobBytes s k j) 19 1 = j.bay % 256 ∧
    fieldAt (jobBytes s k j) 20 2 =
      (if j.state = .queued then linkAfter (queueAt s j.priority) k else 0) % 65536 := by
  simp [jobBytes, serialBytes_eq]

end Job

section Bay

variable (b : Bay)

/-- The fields of a bay up to the count of its stack. -/
def bayHead : List Byte :=
  [byteOf b.address, b.classes, flagByte b.preempt, byteOf (bayStateValue b.state)] ++ bytesLE 2 b.active ++
    [byteOf b.stack.length]

/-- The fields of a bay after its stack. -/
def bayTail : List Byte :=
  bytesLE 2 b.preemptor ++ [byteOf b.timer, flagByte b.running] ++ bayCauseBytes b.cause ++ [byteOf b.owed.length]

theorem bayBytes_eq : bayBytes b = bayHead b ++ (b.stack.reverse.flatMap (bytesLE 2) ++ bayTail b) := by
  simp [bayBytes, bayHead, bayTail]

theorem bayCauseBytes_eq (c : BayCause) :
    bayCauseBytes c = [byteOf (match c with | .none => 0 | .stall => 1 | .reported _ => 2),
      match c with | .reported code => code | _ => 0] := by
  cases c <;> rfl

theorem bayStack_length : (b.stack.reverse.flatMap (bytesLE 2)).length = 2 * b.stack.length := by
  rw [flatMap_length (w := 2) (by simp), List.length_reverse]

theorem bayBytes_stack {n j : Nat} (h : b.stack.reverse[n]? = some j) :
    fieldAt (bayBytes b) (7 + 2 * n) 2 = j % 65536 := by
  rw [bayBytes_eq, Nat.add_comm, fieldAt_skip (by simp [bayHead]), ← Nat.zero_add (2 * n),
    fieldAt_flatMap (by simp) h (by simp), fieldAt_2]

theorem bayBytes_tail (o n : Nat) : fieldAt (bayBytes b) (7 + 2 * b.stack.length + o) n = fieldAt (bayTail b) o n := by
  rw [bayBytes_eq, show 7 + 2 * b.stack.length + o = o + 2 * b.stack.length + 7 by omega,
    fieldAt_skip (by simp [bayHead]), fieldAt_skip (bayStack_length b)]

theorem bayBytes_fields :
    let o := 7 + 2 * b.stack.length
    (bayBytes b).length = o + 7 ∧ fieldAt (bayBytes b) 0 1 = b.address % 256 ∧
    fieldAt (bayBytes b) 1 1 = b.classes.toNat ∧ fieldAt (bayBytes b) 2 1 = b.preempt.toNat ∧
    fieldAt (bayBytes b) 3 1 = bayStateValue b.state ∧
    fieldAt (bayBytes b) 4 2 = b.active % 65536 ∧ fieldAt (bayBytes b) 6 1 = b.stack.length % 256 ∧
    (∀ n j, b.stack.reverse[n]? = some j → fieldAt (bayBytes b) (7 + 2 * n) 2 = j % 65536) ∧
    fieldAt (bayBytes b) o 2 = b.preemptor % 65536 ∧ fieldAt (bayBytes b) (o + 2) 1 = b.timer % 256 ∧
    fieldAt (bayBytes b) (o + 3) 1 = b.running.toNat ∧
    fieldAt (bayBytes b) (o + 4) 1 = (match b.cause with | .none => 0 | .stall => 1 | .reported _ => 2) ∧
    fieldAt (bayBytes b) (o + 5) 1 = (match b.cause with | .reported code => code.toNat | _ => 0) ∧
    fieldAt (bayBytes b) (o + 6) 1 = b.owed.length % 256 := by
  intro o
  refine ⟨?_, by simp [bayBytes], by simp [bayBytes], by simp [bayBytes], by simp [bayBytes], by simp [bayBytes],
    by simp [bayBytes], fun n j h => bayBytes_stack b h, ?_, ?_, ?_, ?_, ?_, ?_⟩
  · rw [bayBytes_eq, List.length_append, List.length_append, bayStack_length]
    simp [bayHead, bayTail, bayCauseBytes_eq, o]
    omega
  · rw [← Nat.add_zero o, bayBytes_tail]
    simp [bayTail]
  · rw [bayBytes_tail]
    simp [bayTail]
  · rw [bayBytes_tail]
    simp [bayTail]
  · rw [bayBytes_tail]
    cases h : b.cause <;> simp [bayTail, h, bayCauseBytes]
  · rw [bayBytes_tail]
    cases h : b.cause <;> simp [bayTail, h, bayCauseBytes]
  · rw [bayBytes_tail]
    simp [bayTail, bayCauseBytes_eq]

end Bay

section Consignment

variable (s : State) (k : Nat) (c : Consignment)

/-- The fields of a consignment up to the count of its lines. -/
def consignmentHead : List Byte :=
  [byteOf (consStateValue c.state), byteOf (consKindValue c.kind)] ++ bytesLE 2 c.patron ++
    [byteOf c.window, byteOf c.cartridgeClass] ++ serialBytes c.serial ++ [byteOf c.lines.length]

/-- The fields of a consignment after its lines. -/
def consignmentTail : List Byte :=
  bytesLE 3 c.used ++ [byteOf c.sealPriority, byteOf c.part, byteOf c.parts] ++ bytesLE 2 c.head ++ [byteOf c.volumes] ++
    bytesLE 3 c.weight ++
    [flagByte c.overweight, byteOf c.returned, flagByte c.headReturned, byteOf (verdictValue c.worst), flagByte c.overdue] ++
    bytesLE 2 c.openDay.toNat ++ bytesLE 2 c.postDay.toNat ++ bytesLE 2 c.dueDay.toNat ++ bytesLE 2 c.job ++
    bytesLE 2 (linkAfter (chainOf s c.patron) k) ++ bytesLE 2 (queueLink s k c)

theorem consignmentBytes_eq :
    consignmentBytes s k c = consignmentHead c ++ (c.lines.flatMap lineBytes ++ consignmentTail s k c) := by
  simp [consignmentBytes, consignmentHead, consignmentTail]

theorem consignmentHead_length : (consignmentHead c).length = 12 := by simp [consignmentHead, serialBytes_eq]

theorem lineBytes_length (l : Line) : (lineBytes l).length = 5 := by simp [lineBytes]

theorem consignmentBytes_head (o n : Nat) (h : o + n ≤ 12) :
    fieldAt (consignmentBytes s k c) o n = fieldAt (consignmentHead c) o n := by
  rw [consignmentBytes_eq, fieldAt_within (by rwa [consignmentHead_length])]

theorem consignmentBytes_line {n : Nat} {l : Line} (h : c.lines[n]? = some l) (o m : Nat) (hom : o + m ≤ 5) :
    fieldAt (consignmentBytes s k c) (12 + o + 5 * n) m = fieldAt (lineBytes l) o m := by
  rw [consignmentBytes_eq, show 12 + o + 5 * n = o + 5 * n + 12 by omega, fieldAt_skip (consignmentHead_length c),
    fieldAt_flatMap lineBytes_length h hom]

theorem consignmentBytes_tail (o n : Nat) :
    fieldAt (consignmentBytes s k c) (12 + 5 * c.lines.length + o) n = fieldAt (consignmentTail s k c) o n := by
  rw [consignmentBytes_eq, show 12 + 5 * c.lines.length + o = o + 5 * c.lines.length + 12 by omega,
    fieldAt_skip (consignmentHead_length c), fieldAt_skip (flatMap_length lineBytes_length c.lines)]

theorem consignmentHead_fields :
    fieldAt (consignmentHead c) 0 1 = consStateValue c.state ∧ fieldAt (consignmentHead c) 1 1 = consKindValue c.kind ∧
    fieldAt (consignmentHead c) 2 2 = c.patron % 65536 ∧ fieldAt (consignmentHead c) 4 1 = c.window % 256 ∧
    fieldAt (consignmentHead c) 5 1 = c.cartridgeClass % 256 ∧
    fieldAt (consignmentHead c) 6 1 = c.serial.isSome.toNat ∧ fieldAt (consignmentHead c) 7 4 = (c.serial.getD 0).toNat ∧
    fieldAt (consignmentHead c) 11 1 = c.lines.length % 256 := by
  simp [consignmentHead, serialBytes_eq]

theorem lineBytes_fields (l : Line) :
    fieldAt (lineBytes l) 0 2 = l.title % 65536 ∧ fieldAt (lineBytes l) 2 2 = l.origin.toNat ∧
      fieldAt (lineBytes l) 4 1 = lineStateValue l.state := by
  simp [lineBytes]

theorem consignmentTail_fields :
    let bs := consignmentTail s k c
    fieldAt bs 0 3 = c.used % 16777216 ∧ fieldAt bs 3 1 = c.sealPriority % 256 ∧ fieldAt bs 4 1 = c.part % 256 ∧
    fieldAt bs 5 1 = c.parts % 256 ∧ fieldAt bs 6 2 = c.head % 65536 ∧ fieldAt bs 8 1 = c.volumes % 256 ∧
    fieldAt bs 9 3 = c.weight % 16777216 ∧ fieldAt bs 12 1 = c.overweight.toNat ∧ fieldAt bs 13 1 = c.returned % 256 ∧
    fieldAt bs 14 1 = c.headReturned.toNat ∧ fieldAt bs 15 1 = verdictValue c.worst ∧ fieldAt bs 16 1 = c.overdue.toNat ∧
    fieldAt bs 17 2 = c.openDay.toNat ∧ fieldAt bs 19 2 = c.postDay.toNat ∧ fieldAt bs 21 2 = c.dueDay.toNat ∧
    fieldAt bs 23 2 = c.job % 65536 ∧ fieldAt bs 25 2 = linkAfter (chainOf s c.patron) k % 65536 ∧
    fieldAt bs 27 2 = queueLink s k c % 65536 := by
  simp [consignmentTail]

theorem consignmentBytes_length : (consignmentBytes s k c).length = 12 + 5 * c.lines.length + 29 := by
  rw [consignmentBytes_eq, List.length_append, List.length_append, consignmentHead_length,
    flatMap_length lineBytes_length]
  simp [consignmentTail]
  omega

end Consignment

end Sys2Proof.Machine
end

