-- ==== Sys2Proof/Proofs/ReadRecord.lean ====
section
/-! PROOFS. READ_RECORD: the table and index it reads (R205), and the links it shows (log 5). -/

namespace Sys2Proof.Machine

/-! ## The read-out of one table -/

/-- A geometry with a size that is not 0 has been set (R179). -/
theorem geometryZero_false {s : State} (h : s.management.geometry ≠ {}) : geometryZero s = false := decide_eq_false h

section ReadOut

variable {s : State} {n : Nat}

theorem readRecord_patron (h1 : 1 ≤ n) (h : n ≤ s.management.geometry.p) :
    readRecord 0 n s = .ok (recordBytes s.records.patrons n 23 patronBytes) := by
  have hz := geometryZero_false (s := s) fun h0 => by rw [h0] at h; simp at h; omega
  simp only [readRecord, hz]
  rw [if_neg (by simp; omega)]

theorem readRecord_patron_outside (h : s.management.geometry.p < n) : readRecord 0 n s = .error .patronRange := by
  simp only [readRecord]
  rw [if_pos (.inr h)]

theorem readRecord_agency (h : n ≤ 255) : readRecord 1 n s = .ok (recordBytes s.records.agencies n 6 agencyBytes) := by
  simp only [readRecord]
  rw [if_neg (by omega)]

theorem readRecord_agency_outside (h : 255 < n) : readRecord 1 n s = .error .badField := by
  simp only [readRecord]
  rw [if_pos h]

theorem readRecord_title (h1 : 1 ≤ n) (h : n ≤ s.management.geometry.t) :
    readRecord 2 n s = .ok (recordBytes s.records.titles n 26 titleBytes) := by
  have hz := geometryZero_false (s := s) fun h0 => by rw [h0] at h; simp at h; omega
  simp only [readRecord, hz]
  rw [if_neg (by simp; omega)]

theorem readRecord_title_outside (h : s.management.geometry.t < n) : readRecord 2 n s = .error .titleRange := by
  simp only [readRecord]
  rw [if_pos (.inr h)]

theorem readRecord_request (h1 : 1 ≤ n) (h : n ≤ s.management.geometry.q) :
    readRecord 3 n s = .ok (recordBytes s.requests n 11 (requestBytes s n)) := by
  simp only [readRecord]
  rw [if_neg (by omega)]

theorem readRecord_request_outside (h : n = 0 ∨ s.management.geometry.q < n) : readRecord 3 n s = .error .badField := by
  simp only [readRecord]
  rw [if_pos h]

theorem readRecord_consignment (h1 : 1 ≤ n) (h : n ≤ s.management.geometry.c) :
    readRecord 4 n s = .ok (recordBytes s.assembly.cons n 41 (consignmentBytes s n)) := by
  simp only [readRecord]
  rw [if_neg (by omega)]

theorem readRecord_consignment_outside (h : n = 0 ∨ s.management.geometry.c < n) :
    readRecord 4 n s = .error .badField := by
  simp only [readRecord]
  rw [if_pos h]

theorem readRecord_job (h1 : 1 ≤ n) (h : n ≤ s.management.geometry.j) :
    readRecord 5 n s = .ok (recordBytes s.scheduler.jobs n 22 (jobBytes s n)) := by
  simp only [readRecord]
  rw [if_neg (by omega)]

theorem readRecord_job_outside (h : n = 0 ∨ s.management.geometry.j < n) : readRecord 5 n s = .error .badField := by
  simp only [readRecord]
  rw [if_pos h]

theorem readRecord_bay (h1 : 1 ≤ n) (h : n ≤ 24) : readRecord 6 n s = .ok (bayBytes (bayAt s n)) := by
  simp only [readRecord]
  rw [if_neg (by omega)]

theorem readRecord_bay_outside (h : n = 0 ∨ 24 < n) : readRecord 6 n s = .error .badField := by
  simp only [readRecord]
  rw [if_pos h]

theorem readRecord_noTable {table : Nat} (h : 6 < table) : readRecord table n s = .error .badField := by
  match table, h with
  | _ + 7, _ => rfl

end ReadOut

/-! ## READ_RECORD as a request -/

section Taken

variable {table : Byte} {k : U16} {s s0 : State}

/-- The action of READ_RECORD at its owner. -/
def recordAnswer (table index : Nat) (s : State) : Answer :=
  match readRecord table index s with
  | .error c => refuse c s
  | .ok bs => ⟨s, .ok, bs⟩

theorem exec_readRecord :
    exec (.readRecord table k) s = request (.readRecord table k) s (recordAnswer table.toNat k.toNat) := rfl

theorem readRecord_reads {n : Nat} {bs cs : List Byte} (h : Takes (.readRecord table k) s s0) (ht : table.toNat = n)
    (hr : readRecord n k.toNat s0 = .ok bs) (hb : bs = cs) :
    exec (.readRecord table k) s = .next (replied (.readRecord table k) .ok cs s0) := by
  subst ht hb
  exact h.quiet exec_readRecord (by simp only [recordAnswer, hr]) rfl

theorem readRecord_refuses {n : Nat} {c : Code} (h : Takes (.readRecord table k) s s0) (ht : table.toNat = n)
    (hr : readRecord n k.toNat s0 = .error c) :
    exec (.readRecord table k) s = .next (replied (.readRecord table k) c [] s0) := by
  subst ht
  exact h.refused exec_readRecord (by simp only [recordAnswer, hr])

/-- What `recordBytes` is, from what the record's lookup finds. -/
theorem recordBytes_eq {α : Type} {t : Table α} {n m : Nat} {bytes : α → List Byte} {cs : List Byte}
    (absent : Table.get t n = none → zeroBytes m = cs) (present : ∀ a, Table.get t n = some a → bytes a = cs) :
    recordBytes t n m bytes = cs := by
  unfold recordBytes
  cases ha : Table.get t n with
  | none => exact absent ha
  | some a => exact present a ha

end Taken

/-! ## The links of a record -/

section Links

variable {s : State} {k : Nat} {before after : List Nat}

theorem linkAfter_waitingOf {title : Nat} {x : Title} (hx : Table.get s.records.titles title = some x)
    (hl : x.waiting = before ++ k :: after) (hk : k ∉ before) : linkAfter (waitingOf s title) k = after.headD 0 := by
  simp only [waitingOf, hx, hl, linkAfter_append hk]

theorem linkAfter_wishOf {patron : Nat} {p : Patron} (hp : Table.get s.records.patrons patron = some p)
    (hl : p.wish = before ++ k :: after) (hk : k ∉ before) : linkAfter (wishOf s patron) k = after.headD 0 := by
  simp only [wishOf, hp, hl, linkAfter_append hk]

theorem linkAfter_chainOf {patron : Nat} {p : Patron} (hp : Table.get s.records.patrons patron = some p)
    (hl : p.chain = before ++ k :: after) (hk : k ∉ before) : linkAfter (chainOf s patron) k = after.headD 0 := by
  simp only [chainOf, hp, hl, linkAfter_append hk]

theorem queueLink_eq {c : Consignment}
    (hl : (if c.state = .sealed then s.assembly.sealedList else s.dispatch.ready) = before ++ k :: after)
    (hk : k ∉ before) : queueLink s k c = after.headD 0 := by
  rw [← linkAfter_append hk, ← hl]
  unfold queueLink
  split_ifs <;> rfl

end Links

/-! ## The places of a consignment's fields -/

section Consignment

variable (s : State) (k : Nat) (c : Consignment)

theorem consignmentBytes_lines {n : Nat} {l : Line} (h : c.lines[n]? = some l) :
    fieldAt (consignmentBytes s k c) (12 + 5 * n) 2 = l.title % 65536 ∧
    fieldAt (consignmentBytes s k c) (14 + 5 * n) 2 = l.origin.toNat ∧
    fieldAt (consignmentBytes s k c) (16 + 5 * n) 1 = lineStateValue l.state := by
  obtain ⟨htitle, horigin, hstate⟩ := lineBytes_fields l
  exact ⟨(consignmentBytes_line s k c h 0 2 (by decide)).trans htitle,
    (consignmentBytes_line s k c h 2 2 (by decide)).trans horigin,
    (consignmentBytes_line s k c h 4 1 (by decide)).trans hstate⟩

theorem consignmentBytes_fields :
    let bs := consignmentBytes s k c
    let o := 12 + 5 * c.lines.length
    bs.length = o + 29 ∧ fieldAt bs 0 1 = consStateValue c.state ∧ fieldAt bs 1 1 = consKindValue c.kind ∧
    fieldAt bs 2 2 = c.patron % 65536 ∧ fieldAt bs 4 1 = c.window % 256 ∧ fieldAt bs 5 1 = c.cartridgeClass % 256 ∧
    fieldAt bs 6 1 = c.serial.isSome.toNat ∧ fieldAt bs 7 4 = (c.serial.getD 0).toNat ∧
    fieldAt bs 11 1 = c.lines.length % 256 ∧
    (∀ n l, c.lines[n]? = some l → fieldAt bs (12 + 5 * n) 2 = l.title % 65536 ∧
      fieldAt bs (14 + 5 * n) 2 = l.origin.toNat ∧ fieldAt bs (16 + 5 * n) 1 = lineStateValue l.state) ∧
    fieldAt bs o 3 = c.used % 16777216 ∧ fieldAt bs (o + 3) 1 = c.sealPriority % 256 ∧ fieldAt bs (o + 4) 1 = c.part % 256 ∧
    fieldAt bs (o + 5) 1 = c.parts % 256 ∧ fieldAt bs (o + 6) 2 = c.head % 65536 ∧ fieldAt bs (o + 8) 1 = c.volumes % 256 ∧
    fieldAt bs (o + 9) 3 = c.weight % 16777216 ∧ fieldAt bs (o + 12) 1 = c.overweight.toNat ∧
    fieldAt bs (o + 13) 1 = c.returned % 256 ∧ fieldAt bs (o + 14) 1 = c.headReturned.toNat ∧
    fieldAt bs (o + 15) 1 = verdictValue c.worst ∧ fieldAt bs (o + 16) 1 = c.overdue.toNat ∧
    fieldAt bs (o + 17) 2 = c.openDay.toNat ∧ fieldAt bs (o + 19) 2 = c.postDay.toNat ∧
    fieldAt bs (o + 21) 2 = c.dueDay.toNat ∧ fieldAt bs (o + 23) 2 = c.job % 65536 ∧
    (∀ before after p, Table.get s.records.patrons c.patron = some p → p.chain = before ++ k :: after → k ∉ before →
      fieldAt bs (o + 25) 2 = after.headD 0 % 65536) ∧
    ∀ before after, (if c.state = .sealed then s.assembly.sealedList else s.dispatch.ready) = before ++ k :: after →
      k ∉ before → fieldAt bs (o + 27) 2 = after.headD 0 % 65536 := by
  intro bs o
  have head : ∀ {m n v}, m + n ≤ 12 → fieldAt (consignmentHead c) m n = v → fieldAt bs m n = v :=
    fun hmn hv => (consignmentBytes_head s k c _ _ hmn).trans hv
  have tail : ∀ {m n v}, fieldAt (consignmentTail s k c) m n = v → fieldAt bs (o + m) n = v :=
    fun hv => (consignmentBytes_tail s k c _ _).trans hv
  obtain ⟨hstate, hkind, hpatron, hwindow, hcls, hser, hserial, hlines⟩ := consignmentHead_fields c
  obtain ⟨hused, hprio, hpart, hparts, hhead, hvolumes, hweight, hover, hreturned, hheadBack, hworst, hoverdue, hopen,
    hpost, hdue, hjob, hchain, hqueue⟩ := consignmentTail_fields s k c
  refine ⟨consignmentBytes_length s k c, head (by decide) hstate, head (by decide) hkind, head (by decide) hpatron,
    head (by decide) hwindow, head (by decide) hcls, head (by decide) hser, head (by decide) hserial,
    head (by decide) hlines, fun n l hl => consignmentBytes_lines s k c hl, tail (m := 0) hused, tail hprio, tail hpart,
    tail hparts, tail hhead, tail hvolumes, tail hweight, tail hover, tail hreturned, tail hheadBack, tail hworst,
    tail hoverdue, tail hopen, tail hpost, tail hdue, tail hjob, fun before after p hp hl hk => ?_,
    fun before after hl hk => ?_⟩
  · rw [tail hchain, linkAfter_chainOf hp hl hk]
  · rw [tail hqueue, queueLink_eq hl hk]

end Consignment

end Sys2Proof.Machine

open Sys2Proof Sys2Proof.Machine in
/-- Settles O28: the read-out of each table by `readRecord`, and the layouts field by field. -/
theorem recordsAreReadWhole : Obligations.RecordsAreReadWhole := by
  refine ⟨?_, patronBytes_fields, agencyBytes_fields, titleBytes_fields, ?_, ?_, ?_, bayBytes_fields,
    rfl, rfl, rfl, rfl, rfl, rfl, rfl, rfl, rfl, rfl, rfl, rfl⟩
  · intro table k s s0 i h n g reads refused
    have hg0 : s0.management.geometry = g := congrArg _ h.management
    refine ⟨fun ht h1 => ⟨fun hg => ?_, fun hg => ?_⟩, fun ht h1 => ⟨fun hg => ?_, fun hg => ?_⟩,
      fun ht h1 => ⟨fun hg => ?_, fun hg => ?_⟩, fun ht => ⟨fun h1 hg => ?_, fun hg => ?_⟩,
      fun ht => ⟨fun h1 hg => ?_, fun hg => ?_⟩, fun ht => ⟨fun h1 hg => ?_, fun hg => ?_⟩,
      fun ht => ⟨fun h1 hg => ?_, fun hg => ?_⟩, fun ht => readRecord_refuses h rfl (readRecord_noTable ht)⟩
    · refine readRecord_reads h (congrArg _ ht) (readRecord_patron h1 (by rwa [hg0])) (recordBytes_eq ?_ ?_) <;>
        simp +contextual [n, h.records, zeroBytes]
    · exact readRecord_refuses h (congrArg _ ht) (readRecord_patron_outside (by rwa [hg0]))
    · refine readRecord_reads h (congrArg _ ht) (readRecord_agency hg) (recordBytes_eq ?_ ?_) <;>
        simp +contextual [n, h.records, zeroBytes]
    · exact readRecord_refuses h (congrArg _ ht) (readRecord_agency_outside hg)
    · refine readRecord_reads h (congrArg _ ht) (readRecord_title h1 (by rwa [hg0])) (recordBytes_eq ?_ ?_) <;>
        simp +contextual [n, h.records, zeroBytes]
    · exact readRecord_refuses h (congrArg _ ht) (readRecord_title_outside (by rwa [hg0]))
    · refine readRecord_reads h (congrArg _ ht) (readRecord_request h1 (by rwa [hg0])) (recordBytes_eq ?_ ?_) <;>
        simp +contextual [n, h.requests, zeroBytes]
    · exact readRecord_refuses h (congrArg _ ht) (readRecord_request_outside (by rwa [hg0]))
    · refine readRecord_reads h (congrArg _ ht) (readRecord_consignment h1 (by rwa [hg0])) (recordBytes_eq ?_ ?_) <;>
        simp +contextual [n, h.assembly, zeroBytes]
    · exact readRecord_refuses h (congrArg _ ht) (readRecord_consignment_outside (by rwa [hg0]))
    · refine readRecord_reads h (congrArg _ ht) (readRecord_job h1 (by rwa [hg0])) (recordBytes_eq ?_ ?_) <;>
        simp +contextual [n, h.scheduler, zeroBytes]
    · exact readRecord_refuses h (congrArg _ ht) (readRecord_job_outside (by rwa [hg0]))
    · exact readRecord_reads h (congrArg _ ht) (readRecord_bay h1 hg) (by simp only [bayAt, h.scheduler]; rfl)
    · exact readRecord_refuses h (congrArg _ ht) (readRecord_bay_outside hg)
  · intro s k q bs
    obtain ⟨hlen, hpresent, hpatron, htitle, hday, hwaiting, hwish⟩ := requestBytes_fields s k q
    refine ⟨hlen, hpresent, hpatron, htitle, hday, fun before after x hx hl hk => ?_, fun before after p hp hl hk => ?_⟩
    · rw [hwaiting, linkAfter_waitingOf hx hl hk]
    · rw [hwish, linkAfter_wishOf hp hl hk]
  · exact consignmentBytes_fields
  · intro s k j bs
    obtain ⟨hlen, hstate, hkind, hprio, hcons, htitle, hcls, hrem, hoff, hser, hserial, hretry, hbay, hlink⟩ :=
      jobBytes_fields s k j
    refine ⟨hlen, hstate, hkind, hprio, hcons, htitle, hcls, hrem, hoff, hser, hserial, hretry, hbay, fun hq => ?_,
      fun before after hq hl hk => ?_⟩
    · rw [hlink, if_neg hq]
    · rw [hlink, if_pos hq, hl, linkAfter_append hk]
end

