-- ==== Sys2Proof/Proofs/BayCommands.lean ====
section
/-! PROOFS. A command made for a bay as its state changes (R78, R79, R81, R82, R93): where its frame goes, and what it
leaves. -/

namespace Sys2Proof.Machine

/-! ## Reading a bank of the scheduler after a change -/

section Banks

variable {b l : Nat}

theorem bayAt_modBay_same (h1 : 1 ≤ b) (h24 : b ≤ 24) (f : Bay → Bay) (s : State) : bayAt (modBay b f s) b = f (bayAt s b) :=
  bankGet_modify_same _ _ _ _ ⟨h1, h24⟩

theorem bayAt_modBay_other {o : Nat} (h : o ≠ b) (f : Bay → Bay) (s : State) : bayAt (modBay b f s) o = bayAt s o :=
  bankGet_modify_other _ _ _ h

theorem bayAt_modBay_owed {f : Bay → Bay} (hf : ∀ x, (f x).owed = x.owed) (b o : Nat) (s : State) :
    (bayAt (modBay b f s) o).owed = (bayAt s o).owed := by
  by_cases ho : o = b
  · subst ho
    by_cases hb : 1 ≤ o ∧ o ≤ 24
    · rw [bayAt_modBay_same hb.1 hb.2, hf]
    · simp only [bayAt, modBay_bays, bankModify, dif_neg hb]
  · rw [bayAt_modBay_other ho]

theorem queueAt_modQueue_same (h : l ≤ 3) (f : List Nat → List Nat) (s : State) :
    queueAt (modQueue l f s) l = f (queueAt s l) :=
  bankGet_modify_same _ _ _ _ ⟨by omega, by omega⟩

theorem queueAt_modQueue_other {m : Nat} (h : m ≠ l) (f : List Nat → List Nat) (s : State) :
    queueAt (modQueue l f s) m = queueAt s m :=
  bankGet_modify_other _ _ _ (by omega)

theorem queueAt_outside (h : 3 < l) (s : State) : queueAt s l = [] := bankGet_outside _ _ _ (.inr (by omega))

end Banks

/-! ## Where the floor transmit queue stands for a new command -/

/-- Two states in which the same frames wait for the floor transmit queue (R197). -/
structure SameFloor (s u : State) : Prop where
  line : u.line = s.line
  returns : u.returns = s.returns
  assembly : u.assembly = s.assembly
  management : u.management = s.management
  owed : ∀ o, (bayAt u o).owed = (bayAt s o).owed

namespace SameFloor

variable {s u : State} (h : SameFloor s u)

include h

theorem waitingForwards : waitingForwards u = waitingForwards s := by unfold Machine.waitingForwards; rw [h.line]

theorem waitingCommands : waitingCommands u = waitingCommands s := by
  unfold Machine.waitingCommands
  simp only [h.owed]

theorem floorRoom (n : Nat) : floorRoom n u = floorRoom n s := by unfold Machine.floorRoom; rw [h.line]

theorem aheadOfReleases : aheadOfReleases u = aheadOfReleases s := by
  simp only [Machine.aheadOfReleases, aheadOfPicks, aheadOfVerdicts, aheadOfAnswers, aheadOfCommands, waitingAnswers,
    waitingVerdicts, waitingPicks, h.waitingForwards, h.waitingCommands, h.returns, h.assembly, h.management]

theorem toFloor_line (f : Frame) : (toFloor f u).line = (toFloor f s).line := by
  simp only [toFloor, stillContended, h.aheadOfReleases, h.line]

/-- A command made in the one state finds room just when it would in the other. -/
theorem roomForCommand : Machine.floorRoom (aheadOfNewCommand u) u =
    Machine.floorRoom (Machine.waitingForwards s + Machine.waitingCommands s) s := by
  rw [h.floorRoom, aheadOfNewCommand, aheadOfCommands, h.waitingForwards, h.waitingCommands]

end SameFloor

/-! ## Changing a bay and making its command -/

/-- A bay with its stall timer loaded (R79). -/
def timerLoaded (s : State) (x : Bay) : Bay := { x with timer := s.management.settings.stallSeconds, running := true }

theorem loadTimer_eq (b : Nat) (s : State) : loadTimer b s = modBay b (timerLoaded s) s := rfl

/-- The bay change `g` with the stall timer loaded, and the command that goes with it: the common end of placing, parking for
a pre-emptor and resuming. -/
def commandBay (b : Nat) (f : Frame) (g : Bay → Bay) (w : State) : State := makeCommand b f (loadTimer b (modBay b g w))

/-- Nothing but jobs, their queues and the class accounts differs. -/
def JobsMoved (s w : State) : Prop :=
  w = { s with scheduler.jobs := w.scheduler.jobs, scheduler.queues := w.scheduler.queues, accounts := w.accounts }

/-- The frame `f` goes to the bay, which becomes `x`: to the floor line when it has room, else owed by the bay (R78). -/
def SendsTo (s : State) (b : Nat) (f : Frame) (x : Bay) (t : State) : Prop :=
  (floorRoom (waitingForwards s + waitingCommands s) s = true → t.line = (toFloor f s).line ∧ bayAt t b = x) ∧
  (¬floorRoom (waitingForwards s + waitingCommands s) s = true →
    t.line = s.line ∧ bayAt t b = { x with owed := x.owed ++ [f] }) ∧
  ∀ o, o ≠ b → bayAt t o = bayAt s o

section Command

variable {b : Nat} {f : Frame} {g : Bay → Bay} {s w : State}

theorem makeCommand_frame (b : Nat) (f : Frame) (u : State) :
    makeCommand b f u =
      { u with line := (makeCommand b f u).line, scheduler.bays := (makeCommand b f u).scheduler.bays } := by
  unfold makeCommand
  split_ifs <;> rfl

theorem makeCommand_room {u : State} (hf : waitsForAnswer f = true) (hr : floorRoom (aheadOfNewCommand u) u = true) :
    makeCommand b f u = loadTimer b (toFloor f u) := by
  rw [makeCommand, if_pos hr, if_pos hf]

theorem makeCommand_owed {u : State} (hr : ¬floorRoom (aheadOfNewCommand u) u = true) :
    makeCommand b f u = modBay b (fun bay => { bay with owed := bay.owed ++ [f] }) u := by
  rw [makeCommand, if_neg hr]

theorem commandBay_frame (b : Nat) (f : Frame) (g : Bay → Bay) (w : State) :
    commandBay b f g w =
      { w with line := (commandBay b f g w).line, scheduler.bays := (commandBay b f g w).scheduler.bays } := by
  unfold commandBay
  conv_lhs => rw [makeCommand_frame]
  rfl

theorem commandBay_jobs : (commandBay b f g w).scheduler.jobs = w.scheduler.jobs := by rw [commandBay_frame]
theorem commandBay_queues : (commandBay b f g w).scheduler.queues = w.scheduler.queues := by rw [commandBay_frame]
theorem commandBay_accounts : (commandBay b f g w).accounts = w.accounts := by rw [commandBay_frame]

/-- The states on the way to a bay's command differ from `s` only in jobs, queues, accounts and the bay itself. -/
theorem sameFloor_of_change (hw : JobsMoved s w) (hg : ∀ x, (g x).owed = x.owed) :
    SameFloor s (loadTimer b (modBay b g w)) where
  line := by rw [hw]; rfl
  returns := by rw [hw]; rfl
  assembly := by rw [hw]; rfl
  management := by rw [hw]; rfl
  owed o := by
    rw [loadTimer_eq, bayAt_modBay_owed (f := timerLoaded _) (fun _ => rfl), bayAt_modBay_owed hg, hw]
    rfl

theorem commandBay_sends (h1 : 1 ≤ b) (h24 : b ≤ 24) (hf : waitsForAnswer f = true)
    (hw : JobsMoved s w)
    (hg : ∀ x, (g x).owed = x.owed) : SendsTo s b f (timerLoaded s (g (bayAt s b))) (commandBay b f g w) := by
  have hfloor : SameFloor s (loadTimer b (modBay b g w)) := sameFloor_of_change hw hg
  have hbays : ∀ o, bayAt w o = bayAt s o := fun o => by rw [hw]; rfl
  have hown : bayAt (loadTimer b (modBay b g w)) b = timerLoaded s (g (bayAt s b)) := by
    rw [loadTimer_eq, bayAt_modBay_same h1 h24, bayAt_modBay_same h1 h24, hbays, hw]
    rfl
  have hothers : ∀ o, o ≠ b → bayAt (loadTimer b (modBay b g w)) o = bayAt s o := fun o ho => by
    rw [loadTimer_eq, bayAt_modBay_other ho, bayAt_modBay_other ho, hbays]
  unfold commandBay SendsTo
  by_cases hroom : floorRoom (aheadOfNewCommand (loadTimer b (modBay b g w))) (loadTimer b (modBay b g w)) = true
  · rw [makeCommand_room hf hroom, ← hfloor.roomForCommand]
    refine ⟨fun _ => ⟨hfloor.toFloor_line f, ?_⟩, fun hn => absurd hroom hn, fun o ho => ?_⟩
    · rw [loadTimer_eq, bayAt_modBay_same h1 h24]
      show timerLoaded _ (bayAt (loadTimer b (modBay b g w)) b) = _
      rw [hown, hw]
      rfl
    · rw [loadTimer_eq, bayAt_modBay_other ho]
      exact hothers o ho
  · rw [makeCommand_owed hroom, ← hfloor.roomForCommand]
    refine ⟨fun hr => absurd hr hroom, fun _ => ⟨hfloor.line, ?_⟩, fun o ho => ?_⟩
    · rw [bayAt_modBay_same h1 h24, hown]
    · rw [bayAt_modBay_other ho, hothers o ho]

end Command

/-! ## Placing, parking for a pre-emptor, resuming -/

section Assign

variable {s : State} {b j : Nat} {job : Job}

theorem dequeue_eq (hj : Table.get s.scheduler.jobs j = some job) :
    dequeue j s = modQueue job.priority (fun q => q.erase j) s := by
  simp only [dequeue, hj]

/-- A job leaves its own level's queue and no other (R74). -/
theorem queueAt_dequeue (hj : Table.get s.scheduler.jobs j = some job) (l : Nat) :
    queueAt (dequeue j s) l = if l = job.priority then (queueAt s l).erase j else queueAt s l := by
  rw [dequeue_eq hj]
  split_ifs with hl
  · subst hl
    by_cases h3 : job.priority ≤ 3
    · rw [queueAt_modQueue_same h3]
    · rw [queueAt_outside (by omega), queueAt_outside (by omega)]
      rfl
  · rw [queueAt_modQueue_other hl]

/-- The state in which the command of a placement is made, but for the bay: the job's record and queue and the class's
counts (R81). -/
def placed (b j : Nat) (job : Job) (s : State) : State :=
  modAccount job.cartridgeClass (ClassAccount.move .blank .reserved 1)
    (modJob j (fun x => { x with state := .active, bay := b, offset := 0, serial := none }) (dequeue j s))

theorem placeOn_eq (hj : Table.get s.scheduler.jobs j = some job) :
    placeOn b j s = commandBay b (loadFrame (bayAt s b).address j job.cartridgeClass 0 (loadBlocks s job))
      (fun bay => { bay with active := j, state := .loading }) (placed b j job s) := by
  simp only [placeOn, hj]
  rfl

theorem preemptOn_eq (b j : Nat) (s : State) :
    preemptOn b j s = commandBay b (parkFrame (bayAt s b).address (bayAt s b).active)
      (fun bay => { bay with preemptor := j, state := .parking })
      (modJob j (fun x => { x with state := .pending, bay := b }) (dequeue j s)) := rfl

theorem resumeOn_eq (hj : Table.get s.scheduler.jobs j = some job) :
    resumeOn b j s = commandBay b (resumeFrame (bayAt s b).address j job.offset)
      (fun bay => { bay with active := j, stack := bay.stack.drop 1, state := .loading })
      (modJob j (fun x => { x with state := .active }) s) := by
  simp only [resumeOn, hj]
  rfl

theorem placeOn_frame (hj : Table.get s.scheduler.jobs j = some job) :
    placeOn b j s = { s with line := (placeOn b j s).line, scheduler := (placeOn b j s).scheduler,
                             accounts := (placeOn b j s).accounts } := by
  rw [placeOn_eq hj, commandBay_frame, placed, dequeue_eq hj]
  rfl

theorem preemptOn_frame (hj : Table.get s.scheduler.jobs j = some job) :
    preemptOn b j s = { s with line := (preemptOn b j s).line, scheduler := (preemptOn b j s).scheduler } := by
  rw [preemptOn_eq, commandBay_frame, dequeue_eq hj]
  rfl

theorem resumeOn_frame (hj : Table.get s.scheduler.jobs j = some job) :
    resumeOn b j s = { s with line := (resumeOn b j s).line, scheduler := (resumeOn b j s).scheduler } := by
  rw [resumeOn_eq hj, commandBay_frame]
  rfl

theorem placeOn_sends (h1 : 1 ≤ b) (h24 : b ≤ 24) (hj : Table.get s.scheduler.jobs j = some job) :
    SendsTo s b (loadFrame (bayAt s b).address j job.cartridgeClass 0 (loadBlocks s job))
      (timerLoaded s { bayAt s b with active := j, state := .loading }) (placeOn b j s) := by
  rw [placeOn_eq hj]
  exact commandBay_sends h1 h24 rfl (by rw [placed, dequeue_eq hj]; rfl) fun _ => rfl

theorem preemptOn_sends (h1 : 1 ≤ b) (h24 : b ≤ 24) (hj : Table.get s.scheduler.jobs j = some job) :
    SendsTo s b (parkFrame (bayAt s b).address (bayAt s b).active)
      (timerLoaded s { bayAt s b with preemptor := j, state := .parking }) (preemptOn b j s) := by
  rw [preemptOn_eq]
  exact commandBay_sends h1 h24 rfl (by rw [dequeue_eq hj]; rfl) fun _ => rfl

theorem resumeOn_sends (h1 : 1 ≤ b) (h24 : b ≤ 24) (hj : Table.get s.scheduler.jobs j = some job) :
    SendsTo s b (resumeFrame (bayAt s b).address j job.offset)
      (timerLoaded s { bayAt s b with active := j, stack := (bayAt s b).stack.drop 1, state := .loading })
      (resumeOn b j s) := by
  rw [resumeOn_eq hj]
  exact commandBay_sends h1 h24 rfl rfl fun _ => rfl

theorem placeOn_jobs (hj : Table.get s.scheduler.jobs j = some job) :
    (placeOn b j s).scheduler.jobs = Table.modify s.scheduler.jobs j
      (fun x => { x with state := .active, bay := b, offset := 0, serial := none }) := by
  rw [placeOn_eq hj, commandBay_jobs, placed, dequeue_eq hj]
  rfl

theorem preemptOn_jobs (hj : Table.get s.scheduler.jobs j = some job) :
    (preemptOn b j s).scheduler.jobs = Table.modify s.scheduler.jobs j (fun x => { x with state := .pending, bay := b }) := by
  rw [preemptOn_eq, commandBay_jobs, dequeue_eq hj]
  rfl

theorem resumeOn_jobs (hj : Table.get s.scheduler.jobs j = some job) :
    (resumeOn b j s).scheduler.jobs = Table.modify s.scheduler.jobs j (fun x => { x with state := .active }) := by
  rw [resumeOn_eq hj, commandBay_jobs]
  rfl

theorem placeOn_queues (hj : Table.get s.scheduler.jobs j = some job) (l : Nat) :
    queueAt (placeOn b j s) l = if l = job.priority then (queueAt s l).erase j else queueAt s l := by
  rw [placeOn_eq hj, queueAt, commandBay_queues]
  exact queueAt_dequeue hj l

theorem preemptOn_queues (hj : Table.get s.scheduler.jobs j = some job) (l : Nat) :
    queueAt (preemptOn b j s) l = if l = job.priority then (queueAt s l).erase j else queueAt s l := by
  rw [preemptOn_eq, queueAt, commandBay_queues]
  exact queueAt_dequeue hj l

theorem resumeOn_queues (hj : Table.get s.scheduler.jobs j = some job) :
    (resumeOn b j s).scheduler.queues = s.scheduler.queues := by
  rw [resumeOn_eq hj, commandBay_queues]
  rfl

theorem placeOn_accounts (hj : Table.get s.scheduler.jobs j = some job) :
    (placeOn b j s).accounts = bankModify s.accounts job.cartridgeClass (ClassAccount.move .blank .reserved 1) := by
  rw [placeOn_eq hj, commandBay_accounts, placed, dequeue_eq hj]
  rfl

/-- A blank of the class is reserved (R81, R148). -/
theorem placeOn_account_own (hj : Table.get s.scheduler.jobs j = some job) (h1 : 1 ≤ job.cartridgeClass)
    (h4 : job.cartridgeClass ≤ 4) (hb : 1 ≤ (accountAt s job.cartridgeClass).blank) :
    accountAt (placeOn b j s) job.cartridgeClass =
      { accountAt s job.cartridgeClass with
        blank := (accountAt s job.cartridgeClass).blank - 1
        reserved := (accountAt s job.cartridgeClass).reserved + 1 } := by
  rw [accountAt, placeOn_accounts hj, bankGet_modify_same _ _ _ _ ⟨h1, h4⟩]
  exact if_pos hb

theorem placeOn_account_other (hj : Table.get s.scheduler.jobs j = some job) {c : Nat} (hc : c ≠ job.cartridgeClass) :
    accountAt (placeOn b j s) c = accountAt s c := by
  rw [accountAt, placeOn_accounts hj, bankGet_modify_other _ _ _ hc]
  rfl

end Assign

end Sys2Proof.Machine
end

