-- ==== Sys2Proof/Proofs/Placement.lean ====
section
/-! PROOFS. What a queued job and a free bay choose (R80 to R82, R87, R92). -/

namespace Sys2Proof.Machine

/-! ## The lowest bay, and the bay with the lowest active job -/

theorem acceptsClass_iff {x : Bay} {c : Nat} : acceptsClass x c = true ↔ 1 ≤ c ∧ x.classes.getLsbD (c - 1) = true := by
  simp [acceptsClass]

theorem idleBayFor_eq_some {s : State} {cls b : Nat} (hb : b ∈ bayNumbers) (hi : (bayAt s b).state = .idle)
    (ha : acceptsClass (bayAt s b) cls = true)
    (hl : ∀ o ∈ bayNumbers, (bayAt s o).state = .idle → acceptsClass (bayAt s o) cls = true → b ≤ o) :
    idleBayFor s cls = some b := by
  refine List.find?_range'_eq_some.mpr ⟨by simp [hi, ha], hb, fun o h1 ho => ?_⟩
  have hmem : o ∈ bayNumbers := by
    simp only [bayNumbers, List.mem_range'_1] at hb ⊢
    omega
  simp only [Bool.not_eq_true', Bool.and_eq_false_iff, decide_eq_false_iff_not]
  by_contra hn
  simp only [not_or, not_not, Bool.not_eq_false] at hn
  have := hl o hmem hn.1 hn.2
  omega

theorem idleBayFor_eq_none {s : State} {cls : Nat}
    (h : ∀ b ∈ bayNumbers, (bayAt s b).state = .idle → ¬acceptsClass (bayAt s b) cls = true) :
    idleBayFor s cls = none := by
  refine List.find?_eq_none.mpr fun b hb hp => ?_
  simp only [Bool.and_eq_true, decide_eq_true_eq] at hp
  exact h b hb hp.1 hp.2

/-- One bay compared with the best so far: the lower value, between equals the earlier (R82). -/
def lower (v : Nat → Nat) (best : Option Nat) (b : Nat) : Option Nat :=
  match best with
  | none => some b
  | some a => if v b < v a then some b else some a

theorem foldl_lower_keep {v : Nat → Nat} {b : Nat} (l : List Nat) (h : ∀ o ∈ l, v b ≤ v o) :
    l.foldl (lower v) (some b) = some b := by
  induction l with
  | nil => rfl
  | cons o l ih =>
    have ho : v b ≤ v o := h o List.mem_cons_self
    rw [List.foldl_cons, lower, if_neg (by omega)]
    exact ih fun x hx => h x (List.mem_cons_of_mem o hx)

/-- Before the best bay, what is best so far has a higher value. -/
theorem foldl_lower_above {v : Nat → Nat} {m : Nat} (l : List Nat) (best : Option Nat) (hbest : ∀ a ∈ best, m < v a)
    (h : ∀ o ∈ l, m < v o) : ∀ a ∈ l.foldl (lower v) best, m < v a := by
  induction l generalizing best with
  | nil => exact hbest
  | cons o l ih =>
    refine ih _ (fun a ha => ?_) fun x hx => h x (List.mem_cons_of_mem o hx)
    have ho : m < v o := h o List.mem_cons_self
    cases best with
    | none =>
      cases ha
      exact ho
    | some c =>
      simp only [lower] at ha
      split_ifs at ha
      · cases ha
        exact ho
      · cases ha
        exact hbest _ rfl

theorem foldl_lower_eq {v : Nat → Nat} {b : Nat} {before after : List Nat} (hbefore : ∀ o ∈ before, v b < v o)
    (hafter : ∀ o ∈ after, v b ≤ v o) : (before ++ b :: after).foldl (lower v) none = some b := by
  rw [List.foldl_append, List.foldl_cons]
  have habove := foldl_lower_above before none (m := v b) (by simp) hbefore
  have hb : lower v (before.foldl (lower v) none) b = some b := by
    cases ha : before.foldl (lower v) none with
    | none => rfl
    | some a => exact if_pos (habove a ha)
  rw [hb, foldl_lower_keep after hafter]

/-- In a rising list, the fold finds the element of the lowest value, between equals the least element. -/
theorem foldl_lower_sorted {v : Nat → Nat} {b : Nat} {l : List Nat} (hs : l.Pairwise (· < ·)) (hb : b ∈ l)
    (hl : ∀ o ∈ l, v b < v o ∨ (v b = v o ∧ b ≤ o)) : l.foldl (lower v) none = some b := by
  obtain ⟨before, after, rfl⟩ := List.append_of_mem hb
  refine foldl_lower_eq (fun o ho => ?_) fun o ho => ?_
  · have hlt : o < b := (List.pairwise_append.mp hs).2.2 o ho b List.mem_cons_self
    have := hl o (List.mem_append_left _ ho)
    omega
  · have := hl o (List.mem_append_right _ (List.mem_cons_of_mem b ho))
    omega

section Preemption

variable {s : State} {cls priority b : Nat}

theorem isCandidate_iff : isCandidate s cls priority b = true ↔
    (bayAt s b).preempt = true ∧ (bayAt s b).state = .writing ∧ (bayAt s b).stack.length < 2 ∧
      acceptsClass (bayAt s b) cls = true ∧ priorityOf s (bayAt s b).active < priority := by
  simp [isCandidate, and_assoc]

theorem preemptionBay_eq : preemptionBay s cls priority =
    (bayNumbers.filter fun b => isCandidate s cls priority b).foldl (lower fun b => priorityOf s (bayAt s b).active) none :=
  rfl

theorem preemptionBay_eq_some (hb : b ∈ bayNumbers) (hc : isCandidate s cls priority b = true)
    (hl : ∀ o ∈ bayNumbers, isCandidate s cls priority o = true →
      priorityOf s (bayAt s b).active < priorityOf s (bayAt s o).active ∨
        (priorityOf s (bayAt s b).active = priorityOf s (bayAt s o).active ∧ b ≤ o)) :
    preemptionBay s cls priority = some b := by
  refine preemptionBay_eq.trans (foldl_lower_sorted ?_ (List.mem_filter.mpr ⟨hb, hc⟩) fun o ho => ?_)
  · exact List.Pairwise.filter _ List.pairwise_lt_range'
  · obtain ⟨hmem, hcand⟩ := List.mem_filter.mp ho
    exact hl o hmem hcand

theorem preemptionBay_eq_none (h : ∀ b ∈ bayNumbers, ¬isCandidate s cls priority b = true) :
    preemptionBay s cls priority = none := by
  rw [preemptionBay_eq, List.filter_eq_nil_iff.mpr h]
  rfl

end Preemption

/-! ## One job's try -/

section Try

variable {s : State} {j : Nat} {job : Job}

theorem tryPlace_short (hj : Table.get s.scheduler.jobs j = some job) (hb : (accountAt s job.cartridgeClass).blank = 0) :
    tryPlace s j = latch .blankShort job.cartridgeClass s := by
  simp only [tryPlace, hj, if_pos hb]

theorem tryPlace_idle {b : Nat} (hj : Table.get s.scheduler.jobs j = some job)
    (hb : 1 ≤ (accountAt s job.cartridgeClass).blank) (hi : idleBayFor s job.cartridgeClass = some b) :
    tryPlace s j = placeOn b j s := by
  simp only [tryPlace, hj, if_neg (Nat.ne_of_gt hb), hi]

theorem tryPlace_preempt {b : Nat} (hj : Table.get s.scheduler.jobs j = some job)
    (hb : 1 ≤ (accountAt s job.cartridgeClass).blank) (hi : idleBayFor s job.cartridgeClass = none)
    (hp : preemptionBay s job.cartridgeClass job.priority = some b) : tryPlace s j = preemptOn b j s := by
  simp only [tryPlace, hj, if_neg (Nat.ne_of_gt hb), hi, hp]

theorem tryPlace_none (hj : Table.get s.scheduler.jobs j = some job) (hb : 1 ≤ (accountAt s job.cartridgeClass).blank)
    (hi : idleBayFor s job.cartridgeClass = none) (hp : preemptionBay s job.cartridgeClass job.priority = none) :
    tryPlace s j = s := by
  simp only [tryPlace, hj, if_neg (Nat.ne_of_gt hb), hi, hp]

end Try

/-! ## Next work -/

/-- The least priority a queued job needs to come before the bay's parked jobs (R92). -/
def leastPriority (s : State) (b : Nat) : Nat :=
  match (bayAt s b).stack with
  | [] => 0
  | top :: _ => priorityOf s top + 1

/-- A queued job passed over by a bay: BLANK_SHORT is latched when it fits and has no blank (R92). -/
def passOver (s : State) (b : Nat) (u : State) (i : Nat) : State :=
  match Table.get s.scheduler.jobs i with
  | none => u
  | some x =>
    if acceptsClass (bayAt s b) x.cartridgeClass = true ∧ leastPriority s b ≤ x.priority ∧
        (accountAt s x.cartridgeClass).blank = 0 then
      latch .blankShort x.cartridgeClass u
    else u

/-- A queued job fits the bay and has a blank. -/
def takes (s : State) (b : Nat) (x : Job) : Prop :=
  (acceptsClass (bayAt s b) x.cartridgeClass = true ∧ leastPriority s b ≤ x.priority) ∧
    1 ≤ (accountAt s x.cartridgeClass).blank

section Work

variable {s u : State} {b j : Nat}

theorem passOver_scheduler (s : State) (b : Nat) (u : State) (i : Nat) :
    (passOver s b u i).scheduler = u.scheduler ∧ (passOver s b u i).accounts = u.accounts := by
  unfold passOver
  split
  · exact ⟨rfl, rfl⟩
  · split_ifs <;> exact ⟨rfl, rfl⟩

/-- A job that does not fit, or has no blank, is passed over. -/
theorem chooseWork_passOver {i : Nat} {rest : List Nat} (hsch : u.scheduler = s.scheduler) (hacc : u.accounts = s.accounts)
    (hi : ∀ x, Table.get s.scheduler.jobs i = some x → ¬takes s b x) :
    chooseWork b (leastPriority s b) (i :: rest) u = chooseWork b (leastPriority s b) rest (passOver s b u i) := by
  have hbay : bayAt u b = bayAt s b := by simp only [bayAt, hsch]
  have hblank : ∀ c, accountAt u c = accountAt s c := fun c => by simp only [accountAt, hacc]
  cases hx : Table.get s.scheduler.jobs i with
  | none => simp only [chooseWork, passOver, hsch, hx]
  | some x =>
    have hn := hi x hx
    simp only [chooseWork, passOver, hsch, hx, hbay, hblank, Bool.and_eq_true, decide_eq_true_eq]
    by_cases hfit : acceptsClass (bayAt s b) x.cartridgeClass = true ∧ leastPriority s b ≤ x.priority
    · have hzero : (accountAt s x.cartridgeClass).blank = 0 := by
        by_contra hpos
        exact hn ⟨hfit, Nat.pos_of_ne_zero hpos⟩
      rw [if_pos hfit, if_pos hzero, if_pos ⟨hfit.1, hfit.2, hzero⟩]
    · rw [if_neg hfit, if_neg fun h => hfit ⟨h.1, h.2.1⟩]

theorem chooseWork_takes {x : Job} {rest : List Nat} (hsch : u.scheduler = s.scheduler) (hacc : u.accounts = s.accounts)
    (hj : Table.get s.scheduler.jobs j = some x) (hx : takes s b x) :
    chooseWork b (leastPriority s b) (j :: rest) u = (some j, u) := by
  obtain ⟨hfit, hblank⟩ := hx
  have hbay : bayAt u b = bayAt s b := by simp only [bayAt, hsch]
  have hacct : accountAt u x.cartridgeClass = accountAt s x.cartridgeClass := by simp only [accountAt, hacc]
  simp only [chooseWork, hsch, hj, hbay, hacct, Bool.and_eq_true, decide_eq_true_eq, if_pos hfit,
    if_neg (Nat.ne_of_gt hblank)]

theorem chooseWork_append {before : List Nat} (rest : List Nat) (hsch : u.scheduler = s.scheduler)
    (hacc : u.accounts = s.accounts)
    (hi : ∀ i ∈ before, ∀ x, Table.get s.scheduler.jobs i = some x → ¬takes s b x) :
    chooseWork b (leastPriority s b) (before ++ rest) u =
      chooseWork b (leastPriority s b) rest (before.foldl (passOver s b) u) := by
  induction before generalizing u with
  | nil => rfl
  | cons i before ih =>
    obtain ⟨hps, hpa⟩ := passOver_scheduler s b u i
    rw [List.cons_append, chooseWork_passOver hsch hacc (hi i List.mem_cons_self)]
    exact ih (hps.trans hsch) (hpa.trans hacc) fun o ho => hi o (List.mem_cons_of_mem i ho)

theorem foldl_passOver_same (s : State) (b : Nat) (l : List Nat) (u : State) :
    (l.foldl (passOver s b) u).scheduler = u.scheduler ∧ (l.foldl (passOver s b) u).accounts = u.accounts := by
  induction l generalizing u with
  | nil => exact ⟨rfl, rfl⟩
  | cons i l ih =>
    obtain ⟨hps, hpa⟩ := passOver_scheduler s b u i
    obtain ⟨hs, ha⟩ := ih (passOver s b u i)
    exact ⟨hs.trans hps, ha.trans hpa⟩

/-- The first job that fits and has a blank is chosen (R92). -/
theorem chooseWork_first {before after : List Nat} {x : Job}
    (hi : ∀ i ∈ before, ∀ y, Table.get s.scheduler.jobs i = some y → ¬takes s b y)
    (hj : Table.get s.scheduler.jobs j = some x) (hx : takes s b x) :
    chooseWork b (leastPriority s b) (before ++ j :: after) s = (some j, before.foldl (passOver s b) s) := by
  obtain ⟨hs, ha⟩ := foldl_passOver_same s b before s
  rw [chooseWork_append _ rfl rfl hi, chooseWork_takes hs ha hj hx]

theorem chooseWork_none {l : List Nat} (hi : ∀ i ∈ l, ∀ y, Table.get s.scheduler.jobs i = some y → ¬takes s b y) :
    chooseWork b (leastPriority s b) l s = (none, l.foldl (passOver s b) s) := by
  have h := chooseWork_append (u := s) [] rfl rfl hi
  rwa [List.append_nil] at h

theorem nextWork_places {v : State} (h : chooseWork b (leastPriority s b) (placementOrder s) s = (some j, v)) :
    nextWork b s = placeOn b j v := by
  cases hst : (bayAt s b).stack with
  | nil =>
    simp only [leastPriority, hst] at h
    simp only [nextWork, hst, h]
  | cons top more =>
    simp only [leastPriority, hst] at h
    simp only [nextWork, hst, h]

theorem nextWork_resumes {v : State} {top : Nat} {more : List Nat} (hst : (bayAt s b).stack = top :: more)
    (h : chooseWork b (leastPriority s b) (placementOrder s) s = (none, v)) : nextWork b s = resumeOn b top v := by
  simp only [leastPriority, hst] at h
  simp only [nextWork, hst, h]

theorem nextWork_idles {v : State} (hst : (bayAt s b).stack = [])
    (h : chooseWork b (leastPriority s b) (placementOrder s) s = (none, v)) : nextWork b s = idleBay b v := by
  simp only [leastPriority, hst] at h
  simp only [nextWork, hst, h]

end Work

/-! ## A pending pre-emptor -/

section Preemptor

variable {s : State} {b j : Nat} {job : Job}

theorem loadPreemptor_places (hj : Table.get s.scheduler.jobs (bayAt s b).preemptor = some job)
    (hb : 1 ≤ (accountAt s job.cartridgeClass).blank) :
    loadPreemptor b s = placeOn b (bayAt s b).preemptor (modBay b (fun x => { x with preemptor := 0 }) s) := by
  simp only [loadPreemptor, hj, if_neg (Nat.ne_of_gt hb)]

theorem loadPreemptor_returns (hj : Table.get s.scheduler.jobs (bayAt s b).preemptor = some job)
    (hb : (accountAt s job.cartridgeClass).blank = 0) :
    loadPreemptor b s =
      nextWork b (queueHead (bayAt s b).preemptor
        (latch .blankShort job.cartridgeClass (modBay b (fun x => { x with preemptor := 0 }) s))) := by
  simp only [loadPreemptor, hj, if_pos hb]

theorem queueHead_eq (hj : Table.get s.scheduler.jobs j = some job) :
    queueHead j s =
      owePass (modQueue job.priority (fun q => j :: q) (modJob j (fun x => { x with state := .queued, bay := 0 }) s)) := by
  simp only [queueHead, hj]

theorem queueHead_frame (hj : Table.get s.scheduler.jobs j = some job) :
    queueHead j s =
      { s with scheduler.jobs := (queueHead j s).scheduler.jobs, scheduler.queues := (queueHead j s).scheduler.queues,
               passDue := true } := by
  rw [queueHead_eq hj]
  rfl

theorem queueHead_job (hj : Table.get s.scheduler.jobs j = some job) :
    Table.get (queueHead j s).scheduler.jobs j = some { job with state := .queued, bay := 0 } := by
  rw [queueHead_eq hj]
  simp only [owePass_scheduler, modQueue_jobs, modJob_jobs, Table.get_modify_same, hj, Option.map_some]

theorem queueAt_queueHead (hj : Table.get s.scheduler.jobs j = some job) {l : Nat} (hl : l ≤ 3) :
    queueAt (queueHead j s) l = if l = job.priority then j :: queueAt s l else queueAt s l := by
  rw [queueHead_eq hj]
  split_ifs with h
  · subst h
    exact queueAt_modQueue_same hl _ _
  · exact queueAt_modQueue_other h _ _

end Preemptor

end Sys2Proof.Machine

open Sys2Proof Sys2Proof.Machine in
/-- Settles O40: the pass, a job's try, the three commands of a bay, a LOAD's block counts, next work and the pending
pre-emptor. -/
theorem placementLoadsTheBay : Obligations.PlacementLoadsTheBay := by
  refine ⟨fun s => ⟨rfl, fun hp => if_pos hp⟩, ?_, ?_, ?_, ?_, ?_⟩
  · intro s j job hj blank accepts idle activeAt candidate
    have hacc : ∀ b, acceptsClass (bayAt s b) job.cartridgeClass = true ↔ accepts b := fun b => acceptsClass_iff
    have hcand : ∀ b ∈ bayNumbers, isCandidate s job.cartridgeClass job.priority b = true ↔ candidate b := fun b hb => by
      rw [isCandidate_iff, hacc]
      exact ⟨fun h => ⟨hb, h⟩, fun h => h.2⟩
    refine ⟨tryPlace_short hj, fun hb => ⟨fun b hidle hl => ?_, fun hno => ?_⟩⟩
    · obtain ⟨hmem, hstate, hfits⟩ := hidle
      exact tryPlace_idle hj hb (idleBayFor_eq_some hmem hstate ((hacc b).mpr hfits)
        fun o ho hi ha => hl o ⟨ho, hi, (hacc o).mp ha⟩)
    · have hnone : idleBayFor s job.cartridgeClass = none :=
        idleBayFor_eq_none fun o ho hi ha => hno o ⟨ho, hi, (hacc o).mp ha⟩
      refine ⟨fun b hc hl => ?_, fun hc => ?_⟩
      · have hmem : b ∈ bayNumbers := hc.1
        exact tryPlace_preempt hj hb hnone (preemptionBay_eq_some hmem ((hcand b hmem).mpr hc)
          fun o ho h => hl o ((hcand o ho).mp h))
      · exact tryPlace_none hj hb hnone (preemptionBay_eq_none fun o ho h => hc o ((hcand o ho).mp h))
  · intro s b j job h1 h24 hj room bay loaded sends dequeued
    have hsends : ∀ {f x t} {g : Job → Job}, SendsTo s b f (timerLoaded s x) t →
        t.scheduler.jobs = Table.modify s.scheduler.jobs j g → sends f (loaded x) t := by
      intro f x t g ⟨hroom, howed, hothers⟩ hjobs
      exact ⟨hroom, howed, hothers, fun i hi => by rw [hjobs, Table.get_modify_other _ _ hi]⟩
    have hjob : ∀ {t : State} {g : Job → Job}, t.scheduler.jobs = Table.modify s.scheduler.jobs j g →
        Table.get t.scheduler.jobs j = some (g job) := by
      intro t g hjobs
      rw [hjobs, Table.get_modify_same, hj]
      rfl
    exact ⟨⟨placeOn_frame hj, hjob (placeOn_jobs hj), placeOn_account_own hj, fun c => placeOn_account_other hj,
        placeOn_queues hj, hsends (placeOn_sends h1 h24 hj) (placeOn_jobs hj)⟩,
      ⟨preemptOn_frame hj, hjob (preemptOn_jobs hj), preemptOn_queues hj,
        hsends (preemptOn_sends h1 h24 hj) (preemptOn_jobs hj)⟩,
      ⟨resumeOn_frame hj, hjob (resumeOn_jobs hj), resumeOn_queues hj,
        hsends (resumeOn_sends h1 h24 hj) (resumeOn_jobs hj)⟩⟩
  · intro s job
    refine ⟨fun hk => by simp only [loadBlocks, hk], fun c hk hc => by simp only [loadBlocks, hk, hc], fun m x hx => ?_⟩
    simp only [blocksAt, hx, titleBlocks]
  · intro s b least fits blank short order unfit
    have hunfit : ∀ {l : List Nat}, (∀ i ∈ l, unfit i) →
        ∀ i ∈ l, ∀ x, Table.get s.scheduler.jobs i = some x → ¬takes s b x := by
      intro l hl i hi x hx ⟨⟨hacc, hleast⟩, hblank⟩
      exact hl i hi x hx ⟨⟨acceptsClass_iff.mp hacc, hleast⟩, hblank⟩
    refine ⟨fun before j after x ho hb hj hf hblank => ?_, fun hn => ⟨fun top more hst => ?_, fun hst => ?_⟩⟩
    · have htakes : takes s b x := ⟨⟨acceptsClass_iff.mpr hf.1, hf.2⟩, hblank⟩
      have hchoose := chooseWork_first (after := after) (hunfit hb) hj htakes
      rw [← ho] at hchoose
      exact nextWork_places hchoose
    · exact nextWork_resumes hst (chooseWork_none (hunfit hn))
    · exact nextWork_idles hst (chooseWork_none (hunfit hn))
  · intro s b job hj j left
    refine ⟨loadPreemptor_places hj, fun hb => ⟨_, loadPreemptor_returns hj hb, queueHead_frame hj, queueHead_job hj,
      fun l hl => queueAt_queueHead (s := latch .blankShort job.cartridgeClass left) hj hl⟩⟩
end

