-- ==== Sys2Proof/Proofs/FreeRecords.lean ====
section
/-! PROOFS. Reading a table after each of its updates, and the FREE records of a pool in rising order (R23, R49, R73). -/

namespace Sys2Proof.Machine

section Tables

variable {α : Type}

/-! ## Reading at any number after one update -/

theorem Table.get_put (t : Table α) (k j : Nat) (a : α) :
    Table.get (Table.put t k a) j = if j = k then some a else Table.get t j := by
  split_ifs with h
  · rw [h, Table.get_put_same]
  · exact Table.get_put_other t a h

theorem Table.get_modify (t : Table α) (k j : Nat) (f : α → α) :
    Table.get (Table.modify t k f) j = if j = k then (Table.get t j).map f else Table.get t j := by
  split_ifs with h
  · rw [h, Table.get_modify_same]
  · exact Table.get_modify_other t f h

theorem Table.get_delete (t : Table α) (k j : Nat) :
    Table.get (Table.delete t k) j = if j = k then none else Table.get t j := by
  split_ifs with h
  · rw [h, Table.get_delete_same]
  · exact Table.get_delete_other t h

theorem Table.modify_modify (t : Table α) (k : Nat) (f g : α → α) :
    Table.modify (Table.modify t k f) k g = Table.modify t k fun a => g (f a) := by
  simp only [Table.modify, List.map_map]
  refine List.map_congr_left fun e _ => ?_
  by_cases h : e.1 = k <;> simp [h]

theorem Table.get_isSome_iff {t : Table α} {k : Nat} : (Table.get t k).isSome = true ↔ k ∈ t.map Prod.fst := by
  induction t with
  | nil => simp
  | cons e t ih =>
    rw [Table.get_cons, List.map_cons, List.mem_cons]
    split_ifs with h
    · simp [h]
    · simp [ih, Ne.symm h]

theorem Table.get_eq_none_of_lt {t : Table α} {k : Nat} (h : ∀ j ∈ t.map Prod.fst, k < j) : Table.get t k = none := by
  by_contra hn
  exact lt_irrefl k (h k (Table.get_isSome_iff.mp (Option.isSome_iff_ne_none.mpr hn)))

/-! ## The FREE records of a pool -/

/-- The numbers of the FREE records of a pool of `n`, from the lowest up. -/
def freeNumbers (t : Table α) (n : Nat) : List Nat := (List.range' 1 n).filter fun k => (Table.get t k).isNone

theorem mem_freeNumbers {t : Table α} {n k : Nat} : k ∈ freeNumbers t n ↔ (1 ≤ k ∧ k ≤ n) ∧ Table.get t k = none := by
  unfold freeNumbers
  have hrange : k ∈ List.range' 1 n ↔ 1 ≤ k ∧ k ≤ n := by rw [List.mem_range'_1]; omega
  rw [List.mem_filter, hrange, Option.isNone_iff_eq_none]

theorem freeNumbers_pairwise (t : Table α) (n : Nat) : (freeNumbers t n).Pairwise (· < ·) :=
  List.Pairwise.filter _ List.pairwise_lt_range'

theorem freeNumbers_nodup (t : Table α) (n : Nat) : (freeNumbers t n).Nodup :=
  (freeNumbers_pairwise t n).imp Nat.ne_of_lt

/-- A record taken from the pool is no longer FREE, and no other changes. -/
theorem freeNumbers_put (t : Table α) (n r : Nat) (a : α) :
    freeNumbers (Table.put t r a) n = (freeNumbers t n).filter (· ≠ r) := by
  unfold freeNumbers
  rw [List.filter_filter]
  refine List.filter_congr fun k _ => ?_
  rw [Table.get_put]
  by_cases h : k = r <;> simp [h]

theorem freeNumbers_put_head {t : Table α} {n r : Nat} {rest : List Nat} (h : freeNumbers t n = r :: rest) (a : α) :
    freeNumbers (Table.put t r a) n = rest := by
  have hn := freeNumbers_nodup t n
  rw [h, List.nodup_cons] at hn
  rw [freeNumbers_put, h, List.filter_cons_of_neg (by simp), List.filter_eq_self.mpr]
  intro k hk
  simpa using fun e : k = r => hn.1 (e ▸ hk)

/-- In a canonical table the search for a gap ends at the least unused number. -/
theorem Table.gapFrom_least {t : Table α} (hw : Table.wf t) (k : Nat) :
    k ≤ Table.gapFrom t k ∧ Table.get t (Table.gapFrom t k) = none ∧
      ∀ i, k ≤ i → i < Table.gapFrom t k → Table.get t i ≠ none := by
  induction t generalizing k with
  | nil => exact ⟨le_refl k, rfl, fun i h1 h2 => absurd h2 (Nat.not_lt.mpr h1)⟩
  | cons e t ih =>
    obtain ⟨j, a⟩ := e
    simp only [Table.wf, List.map_cons, List.pairwise_cons] at hw
    obtain ⟨habove, hw⟩ := hw
    simp only [Table.gapFrom, Table.get_cons]
    split_ifs with h1 h2 h3 h4
    · have := (ih hw (k + 1)).1
      omega
    · obtain ⟨hle, hnone, hall⟩ := ih hw (k + 1)
      refine ⟨by omega, hnone, fun i hi hlt => ?_⟩
      split_ifs with hj
      · simp
      · exact hall i (by omega) hlt
    · have := (ih hw k).1
      omega
    · obtain ⟨hle, hnone, hall⟩ := ih hw k
      refine ⟨hle, hnone, fun i hi hlt => ?_⟩
      rw [if_neg (by omega)]
      exact hall i hi hlt
    · refine ⟨le_refl k, Table.get_eq_none_of_lt fun i hi => ?_, fun i hi hlt => absurd hlt (Nat.not_lt.mpr hi)⟩
      have := habove i hi
      omega

/-- The lowest FREE record is the first of the FREE ones. -/
theorem lowestFree_eq_head? {t : Table α} (hw : Table.wf t) (n : Nat) :
    Table.lowestFree t n = (freeNumbers t n).head? := by
  obtain ⟨hle, hnone, hall⟩ := Table.gapFrom_least hw 1
  unfold Table.lowestFree freeNumbers
  rw [List.head?_filter]
  split_ifs with h
  · refine (List.find?_range'_eq_some.mpr ⟨by simp [hnone], by rw [List.mem_range'_1]; omega, fun j h1 hj => ?_⟩).symm
    simpa using Option.ne_none_iff_isSome.mp (hall j h1 hj)
  · refine (List.find?_eq_none.mpr fun j hj => ?_).symm
    rw [List.mem_range'_1] at hj
    simpa using hall j hj.1 (by omega)

theorem lowestFree_get {t : Table α} {n k : Nat} (hw : Table.wf t) (h : Table.lowestFree t n = some k) :
    Table.get t k = none := by
  rw [lowestFree_eq_head? hw] at h
  exact (mem_freeNumbers.mp (List.mem_of_mem_head? h)).2

/-- The FREE count of a pool whose entries are all records of it (R49). -/
theorem freeNumbers_length {t : Table α} {n : Nat} (hw : Table.wf t) (hp : ∀ e ∈ t, 1 ≤ e.1 ∧ e.1 ≤ n) :
    (freeNumbers t n).length = Table.freeCount t n := by
  have hperm : ((List.range' 1 n).filter fun k => (Table.get t k).isSome).Perm (t.map Prod.fst) := by
    refine (List.perm_ext_iff_of_nodup (List.Nodup.filter _ List.nodup_range') (hw.imp Nat.ne_of_lt)).mpr fun k => ?_
    rw [List.mem_filter, Table.get_isSome_iff, List.mem_range'_1, and_iff_right_iff_imp]
    intro hk
    obtain ⟨e, he, rfl⟩ := List.mem_map.mp hk
    have := hp e he
    omega
  have hsplit := List.length_eq_length_filter_add (l := List.range' 1 n) fun k => (Table.get t k).isSome
  have hlen := hperm.length_eq
  simp only [List.length_range', List.length_map, Option.not_isSome] at hsplit hlen
  unfold Table.freeCount freeNumbers
  omega

end Tables

/-! ## A bank changed twice at one entry -/

theorem bankModify_bankModify {α : Type} {n : Nat} (v : Vector α n) (k : Nat) (f g : α → α) :
    bankModify (bankModify v k f) k g = bankModify v k fun a => g (f a) := by
  unfold bankModify
  split_ifs
  · simp
  · rfl

theorem modBay_modBay (b : Nat) (f g : Bay → Bay) (s : State) :
    modBay b g (modBay b f s) = modBay b (fun x => g (f x)) s := by
  unfold modBay
  simp only [bankModify_bankModify]

end Sys2Proof.Machine
end

