-- ==== Sys2Proof/Proofs/OrderChecks.lean ====
section
/-! PROOFS. The checks of ORDER and PROBE (R26 to R29, R31). -/

namespace Sys2Proof.Machine

theorem Takes.orderChecks {i : Instr} {s s0 : State} (h : Takes i s s0) {n m : Nat} :
    orderChecks s0 n m = Machine.orderChecks s n m := by
  rw [h.line_only]
  rfl

/-! ## The checks one by one -/

section Checks

variable {s : State} {p : Patron} {t : Title} {m : Nat}

/-- Check 9 fails: the title's format is not among those the patron is served in. -/
theorem serves_eq_false_iff : serves p t.format = false ↔
    (t.format = .audio ∧ p.audio = false) ∨ (t.format = .braille ∧ p.braille = false) := by
  cases h : t.format <;> simp [serves]

/-- Check 10 (R27) as two refusals. -/
theorem audioFit_eq : audioFit s p t =
    if t.format = .audio ∧ t.policy = .onDemand ∧ capacityOf s p.cartridgeClass < 64 + (titleBlocks t + 16) then
      some .extent
    else if t.format = .audio ∧ t.policy = .shelf ∧ t.shelfClass ≠ p.cartridgeClass then some .format
    else none := by
  cases hf : t.format <;> cases hp : t.policy <;> simp [audioFit, hf, hp, Nat.add_assoc]

/-- Check 11 (R28): a record on the wish list names the title. -/
theorem liveRequest_isSome : (liveRequest s p m).isSome =
    p.wish.any fun r => (Table.get s.requests r).any fun q => q.title == m := by
  unfold liveRequest
  rw [List.isSome_find?]
  refine congrArg p.wish.any (funext fun r => ?_)
  cases Table.get s.requests r <;> simp [beq_eq_decide]

/-- Check 12 (R28): the title stands on an open line of the patron. -/
theorem onLoan_eq : onLoan s p m = p.chain.any fun k => (Table.get s.assembly.cons k).any fun c =>
    c.lines.any fun l => l.title == m && decide (l.state = .isOpen) := by
  unfold onLoan
  refine congrArg p.chain.any (funext fun k => ?_)
  unfold carriesOpen openLines
  cases Table.get s.assembly.cons k with
  | none => rfl
  | some c => simp [List.any_filter, Bool.and_comm, beq_eq_decide]

/-- Checks 6 to 12 of R26, for a title that is present. -/
theorem titleChecks_eq (hm : ¬(m = 0 ∨ s.management.geometry.t < m)) (ht : Table.get s.records.titles m = some t) :
    titleChecks s p m =
      if t.availability = .withdrawn then some .withdrawn
      else if p.level < t.level then some .restricted
      else if (t.format = .audio ∧ p.audio = false) ∨ (t.format = .braille ∧ p.braille = false) then some .format
      else if t.format = .audio ∧ t.policy = .onDemand ∧ capacityOf s p.cartridgeClass < 64 + (titleBlocks t + 16) then
        some .extent
      else if t.format = .audio ∧ t.policy = .shelf ∧ t.shelfClass ≠ p.cartridgeClass then some .format
      else if (liveRequest s p m).isSome then some .duplicate
      else if onLoan s p m then some .onLoan
      else none := by
  simp only [titleChecks, if_neg hm, ht, serves_eq_false_iff, audioFit_eq]
  split_ifs <;> rfl

theorem titleChecks_outside (hm : m = 0 ∨ s.management.geometry.t < m) : titleChecks s p m = some .titleRange := by
  rw [titleChecks, if_pos hm]

theorem titleChecks_absent (hm : ¬(m = 0 ∨ s.management.geometry.t < m)) (ht : Table.get s.records.titles m = none) :
    titleChecks s p m = some .titleAbsent := by
  simp only [titleChecks, if_neg hm, ht]

end Checks

/-! ## The checks of the patron -/

section Patron

variable {s : State} {n m : Nat}

theorem patronChecks_present {p : Patron} (hn : n ≠ 0) (hg : n ≤ s.management.geometry.p)
    (hp : Table.get s.records.patrons n = some p) : patronChecks s n = none := by
  rw [patronChecks, if_neg hn, if_neg (Nat.not_lt.mpr hg), hp]
  rfl

theorem patronChecks_absent (hn : n ≠ 0) (hg : n ≤ s.management.geometry.p) (hp : Table.get s.records.patrons n = none) :
    patronChecks s n = some .patronAbsent := by
  rw [patronChecks, if_neg hn, if_neg (Nat.not_lt.mpr hg), hp]
  rfl

theorem patronChecks_null : patronChecks s 0 = some .nullPatron := rfl

theorem patronChecks_outside (hn : n ≠ 0) (hg : s.management.geometry.p < n) :
    patronChecks s n = some .patronRange := by
  rw [patronChecks, if_neg hn, if_pos hg]

theorem orderChecks_of_patron {c : Code} (h : patronChecks s n = some c) : orderChecks s n m = some c := by
  simp only [orderChecks, h]

/-- Checks 4 to 12 of R26, for a patron that is present. -/
theorem orderChecks_present {p : Patron} (h : patronChecks s n = none) (hp : Table.get s.records.patrons n = some p) :
    orderChecks s n m = if p.status = .suspended then some .patronSuspended else titleChecks s p m := by
  simp only [orderChecks, h, hp]

end Patron

/-! ## ORDER and PROBE at their owner -/

section Owner

variable {n m : Nat} {c : Code} {s : State}

theorem probeOrder_refused (h : orderChecks s n m = some c) : probeOrder n m s = ⟨s, c, bytesLE 2 0⟩ := by
  simp only [probeOrder, h]

theorem probeOrder_eligible (h : orderChecks s n m = none) :
    probeOrder n m s = ⟨s, .eligible, bytesLE 2 (waitingCount s m)⟩ := by
  simp only [probeOrder, h]

theorem placeOrder_refused (h : orderChecks s n m = some c) : placeOrder n m s = refuseOrder c s := by
  simp only [placeOrder, h]

theorem placeOrder_unlisted (h : orderChecks s n m = none) (hl : listChecks s n = some c) :
    placeOrder n m s = refuseOrder c s := by
  simp only [placeOrder, h, hl]

theorem placeOrder_accepted {r : Nat} (h : orderChecks s n m = none) (hl : listChecks s n = none)
    (hr : Table.lowestFree s.requests s.management.geometry.q = some r) : placeOrder n m s = acceptOrder r n m s := by
  simp only [placeOrder, h, hl, hr]

/-- Checks 13 and 14 (R29) for a present patron. -/
theorem listChecks_eq {p : Patron} (hp : Table.get s.records.patrons n = some p) :
    listChecks s n =
      if s.management.settings.listLimit ≤ p.wish.length then some .listFull
      else if (Table.lowestFree s.requests s.management.geometry.q).isNone then some .poolFull
      else none := by
  simp only [listChecks, hp]

end Owner

section Taken

variable {src : Byte} {patron title : U16} {s s0 : State} {a : Answer}

theorem exec_order_service (h : Takes (.order src patron title) s s0) (hm : s.management.mode = .service)
    (ha : placeOrder patron.toNat title.toNat s0 = a) :
    exec (.order src patron title) s = .next (replied (.order src patron title) a.code a.fields (settle a.state)) := by
  have he : exec (.order src patron title) s = request (.order src patron title) s
      fun s => inService s (placeOrder patron.toNat title.toNat s) := rfl
  have hm0 : s0.management.mode = .service := by rw [h.management, hm]
  exact h.answered he (by rw [inService_service _ hm0, ha])

theorem exec_probe_service (h : Takes (.probe src patron title) s s0) (hm : s.management.mode = .service)
    (ha : probeOrder patron.toNat title.toNat s0 = a) :
    exec (.probe src patron title) s = .next (replied (.probe src patron title) a.code a.fields (settle a.state)) := by
  have he : exec (.probe src patron title) s = request (.probe src patron title) s
      fun s => inService s (probeOrder patron.toNat title.toNat s) := rfl
  have hm0 : s0.management.mode = .service := by rw [h.management, hm]
  exact h.answered he (by rw [inService_service _ hm0, ha])

end Taken

end Sys2Proof.Machine

open Sys2Proof Sys2Proof.Machine in
/-- Settles O31: the twelve common checks are those of R26 in their order, the two of R29 follow them, and a refusal draws one
free value and changes nothing else. -/
theorem orderAndProbeChecksInOrder : Obligations.OrderAndProbeChecksInOrder := by
  intro src patron title s s0 hm n m common
  have hcommon : orderChecks s n m = common := by
    by_cases hn0 : n = 0
    · exact (orderChecks_of_patron (by rw [hn0, patronChecks_null])).trans (if_pos hn0).symm
    by_cases hnp : s.management.geometry.p < n
    · exact (orderChecks_of_patron (patronChecks_outside hn0 hnp)).trans ((if_neg hn0).trans (if_pos hnp)).symm
    refine Eq.trans ?_ ((if_neg hn0).trans (if_neg hnp)).symm
    rw [Nat.not_lt] at hnp
    split
    · next hp => exact orderChecks_of_patron (patronChecks_absent hn0 hnp hp)
    next p hp =>
    rw [orderChecks_present (patronChecks_present hn0 hnp hp) hp]
    refine if_congr Iff.rfl rfl ?_
    by_cases hrange : m = 0 ∨ s.management.geometry.t < m
    · exact (titleChecks_outside hrange).trans (if_pos hrange).symm
    refine Eq.trans ?_ (if_neg hrange).symm
    split
    · next ht => exact titleChecks_absent hrange ht
    next t ht =>
    rw [titleChecks_eq hrange ht, liveRequest_isSome, onLoan_eq]
    rfl
  refine ⟨fun h => ?_, fun h => ?_⟩
  · have hq : settle s0 = s0 := settle_of_noPass h.noPass
    have hchecks := h.orderChecks.trans hcommon
    refine ⟨fun c hc => ?_, fun hc => ?_⟩
    · have hexec := exec_probe_service h hm (probeOrder_refused (hchecks.trans hc))
      exact hexec.trans (by rw [hq]; rfl)
    · have hexec := exec_probe_service h hm (probeOrder_eligible (hchecks.trans hc))
      exact hexec.trans (by rw [hq, waitingCount, waitingCount, h.records])
  · intro refused
    have hchecks := h.orderChecks.trans hcommon
    have hrefused : ∀ c, placeOrder n m s0 = refuseOrder c s0 → refused c := by
      intro c hc
      have hq : settle (refuseOrder c s0).state = (refuseOrder c s0).state := settle_of_noPass h.noPass
      exact ⟨_, (exec_order_service h hm hc).trans (by rw [hq]; rfl)⟩
    refine ⟨fun c hc => hrefused c (placeOrder_refused (hchecks.trans hc)), fun hc p hp => ?_⟩
    have hlist := listChecks_eq (n := n) (s := s0) (p := p) (by rw [h.records, hp])
    rw [h.management, h.requests] at hlist
    refine ⟨fun hl => ?_, fun hl hr => ?_⟩
    · exact hrefused _ (placeOrder_unlisted (hchecks.trans hc) (hlist.trans (if_pos hl)))
    · rw [if_neg (Nat.not_le.mpr hl), if_pos (by rw [hr]; rfl)] at hlist
      exact hrefused _ (placeOrder_unlisted (hchecks.trans hc) hlist)
end

