-- ==== Sys2Proof/Proofs/Sealing.lean ====
section
/-! PROOFS. Sealing a pack (R57, R58) and the job it takes (R60, R61). -/

namespace Sys2Proof.Machine

/-! ## The PACK job of a sealed pack (R60) -/

section PackJob

variable {s : State} {j k : Nat} {c : Consignment}

/-- The job that a sealed pack takes (R60). -/
def packJob (k : Nat) (c : Consignment) : Job :=
  { state := .queued, kind := .pack, priority := c.sealPriority, consignment := k, cartridgeClass := c.cartridgeClass }

theorem queueTail_eq {job : Job} (hj : Table.get s.scheduler.jobs j = some job) :
    queueTail j s =
      owePass (modQueue job.priority (fun q => q ++ [j]) (modJob j (fun x => { x with state := .queued, bay := 0 }) s)) := by
  simp only [queueTail, hj]

theorem createPackJob_eq (hc : Table.get s.assembly.cons k = some c) :
    createPackJob j k s =
      owePass (modQueue c.sealPriority (fun q => q ++ [j]) (modJob j (fun x => { x with state := .queued, bay := 0 })
        (modCons k (fun x => { x with state := .duplicating, job := j })
          { s with scheduler.jobs := Table.put s.scheduler.jobs j (packJob k c) }))) := by
  simp only [createPackJob, hc]
  exact queueTail_eq (job := packJob k c) (Table.get_put_same _ _ _)

theorem createPackJob_frame (hc : Table.get s.assembly.cons k = some c) :
    createPackJob j k s = { s with
      assembly.cons := (createPackJob j k s).assembly.cons, scheduler.jobs := (createPackJob j k s).scheduler.jobs
      scheduler.queues := (createPackJob j k s).scheduler.queues, passDue := true } := by
  rw [createPackJob_eq hc]
  rfl

theorem createPackJob_job (hc : Table.get s.assembly.cons k = some c) (i : Nat) :
    Table.get (createPackJob j k s).scheduler.jobs i =
      if i = j then some (packJob k c) else Table.get s.scheduler.jobs i := by
  rw [createPackJob_eq hc]
  simp only [owePass_scheduler, modQueue_jobs, modJob_jobs, modCons_scheduler, Table.get_modify, Table.get_put]
  split_ifs <;> rfl

theorem createPackJob_cons (hc : Table.get s.assembly.cons k = some c) (i : Nat) :
    Table.get (createPackJob j k s).assembly.cons i =
      if i = k then some { c with state := .duplicating, job := j } else Table.get s.assembly.cons i := by
  rw [createPackJob_eq hc]
  simp only [owePass_assembly, modQueue_assembly, modJob_assembly, modCons_cons, Table.get_modify]
  split_ifs with h
  · rw [h, hc]
    rfl
  · rfl

theorem createPackJob_queue (hc : Table.get s.assembly.cons k = some c) {l : Nat} (hl : l ≤ 3) :
    queueAt (createPackJob j k s) l = if l = c.sealPriority then queueAt s l ++ [j] else queueAt s l := by
  rw [createPackJob_eq hc]
  split_ifs with h
  · subst h
    exact queueAt_modQueue_same hl _ _
  · exact queueAt_modQueue_other h _ _

theorem packSealed_takes (hl : s.assembly.sealedList = [])
    (hj : Table.lowestFree s.scheduler.jobs s.management.geometry.j = some j) :
    packSealed k s = createPackJob j k s := by
  simp only [packSealed, hl, hj]

theorem packSealed_waits
    (h : s.assembly.sealedList ≠ [] ∨ Table.lowestFree s.scheduler.jobs s.management.geometry.j = none) :
    packSealed k s = { s with assembly.sealedList := s.assembly.sealedList ++ [k] } := by
  unfold packSealed
  split
  · next hl hj => rcases h with h | h <;> simp_all
  · rfl

theorem freeJob_unwaited (hl : s.assembly.sealedList = []) :
    freeJob j s = { s with scheduler.jobs := Table.delete s.scheduler.jobs j } := by
  simp only [freeJob, hl]

theorem freeJob_waited {rest : List Nat} (hl : s.assembly.sealedList = k :: rest) :
    freeJob j s = createPackJob j k
      { s with scheduler.jobs := Table.delete s.scheduler.jobs j, assembly.sealedList := rest } := by
  simp only [freeJob, hl]

end PackJob

/-! ## Sealing (R58) -/

section Seal

variable {s : State} {k : Nat} {c : Consignment} {p : Patron}

/-- An ASSEMBLING pack is SEALED with its seal priority, and its patron has no open pack (R58, before *pack sealed*). -/
def markSealed (k patron priority : Nat) (s : State) : State :=
  modPatron patron (fun x => { x with openPack := 0 })
    (modCons k (fun x => { x with state := .sealed, sealPriority := priority }) s)

theorem sealPack_eq (hc : Table.get s.assembly.cons k = some c) (ha : c.state = .assembling)
    (hp : Table.get s.records.patrons c.patron = some p) :
    sealPack k s = packSealed k (markSealed k c.patron (sealPriorityOf p.patronClass) s) := by
  simp only [sealPack, hc, if_pos ha, hp]
  rfl

/-- What the seal of pack `k` makes of `s` (R58, R60): `t` with its record `c'`. -/
structure SealsPack (s t : State) (k : Nat) (c : Consignment) (p : Patron) (c' : Consignment) : Prop where
  frame : t = { s with
    records.patrons := Table.modify s.records.patrons c.patron fun x => { x with openPack := 0 }
    assembly.cons := t.assembly.cons, assembly.sealedList := t.assembly.sealedList, scheduler.jobs := t.scheduler.jobs
    scheduler.queues := t.scheduler.queues, passDue := t.passDue }
  others : ∀ j, j ≠ k → Table.get t.assembly.cons j = Table.get s.assembly.cons j
  pack : Table.get t.assembly.cons k = some c'
  fields : c' = { c with state := c'.state, job := c'.job, sealPriority := sealPriorityOf p.patronClass }
  takes : ∀ j, s.assembly.sealedList = [] → Table.lowestFree s.scheduler.jobs s.management.geometry.j = some j →
    c'.state = .duplicating ∧ c'.job = j ∧ t.assembly.sealedList = [] ∧ t.passDue = true ∧
    Table.get t.scheduler.jobs j = some { state := .queued, kind := .pack, priority := sealPriorityOf p.patronClass,
                                          consignment := k, cartridgeClass := c.cartridgeClass } ∧
    queueAt t (sealPriorityOf p.patronClass) = queueAt s (sealPriorityOf p.patronClass) ++ [j]
  waits : (s.assembly.sealedList ≠ [] ∨ Table.lowestFree s.scheduler.jobs s.management.geometry.j = none) →
    c'.state = .sealed ∧ c'.job = c.job ∧ t.assembly.sealedList = s.assembly.sealedList ++ [k] ∧ t.scheduler = s.scheduler

theorem sealPriorityOf_le (x : PatronClass) : sealPriorityOf x ≤ 2 := by cases x <;> decide

theorem markSealed_pack (hc : Table.get s.assembly.cons k = some c) (priority : Nat) :
    Table.get (markSealed k c.patron priority s).assembly.cons k =
      some { c with state := .sealed, sealPriority := priority } := by
  simp only [markSealed, modPatron_assembly, modCons_cons, Table.get_modify_same, hc, Option.map_some]

theorem markSealed_other {j : Nat} (hj : j ≠ k) (patron priority : Nat) :
    Table.get (markSealed k patron priority s).assembly.cons j = Table.get s.assembly.cons j := by
  simp only [markSealed, modPatron_assembly, modCons_cons, Table.get_modify_other _ _ hj]

/-- The seal takes a job record at once when one is FREE and no pack waits, and else joins the sealed list. -/
theorem sealPack_seals (hc : Table.get s.assembly.cons k = some c) (ha : c.state = .assembling)
    (hp : Table.get s.records.patrons c.patron = some p) : ∃ c', SealsPack s (sealPack k s) k c p c' := by
  have hmark := markSealed_pack hc (sealPriorityOf p.patronClass)
  have hprio := sealPriorityOf_le p.patronClass
  rw [sealPack_eq hc ha hp]
  by_cases hw : s.assembly.sealedList ≠ [] ∨ Table.lowestFree s.scheduler.jobs s.management.geometry.j = none
  · rw [packSealed_waits (s := markSealed k c.patron (sealPriorityOf p.patronClass) s) hw]
    refine ⟨_, rfl, fun j hj => markSealed_other hj c.patron _, hmark, rfl, fun j hl hj => ?_, fun _ => ⟨rfl, rfl, rfl, rfl⟩⟩
    rcases hw with h | h
    · exact absurd hl h
    · rw [hj] at h; cases h
  · rw [not_or, not_not] at hw
    obtain ⟨hl, hj⟩ := hw
    obtain ⟨j, hj⟩ := Option.ne_none_iff_exists'.mp hj
    rw [packSealed_takes (s := markSealed k c.patron (sealPriorityOf p.patronClass) s) hl hj]
    refine ⟨{ c with state := .duplicating, job := j, sealPriority := sealPriorityOf p.patronClass }, ?_, fun i hi => ?_,
      ?_, rfl, fun i _ hi => ?_, fun h => ?_⟩
    · rw [createPackJob_frame hmark]
      rfl
    · rw [createPackJob_cons hmark, if_neg hi, markSealed_other hi]
    · rw [createPackJob_cons hmark, if_pos rfl]
    · obtain rfl := Option.some.inj (hj.symm.trans hi)
      refine ⟨rfl, rfl, ?_, ?_, ?_, ?_⟩
      · rw [createPackJob_frame hmark]
        exact hl
      · rw [createPackJob_frame hmark]
      · rw [createPackJob_job hmark, if_pos rfl]
        rfl
      · exact (createPackJob_queue hmark (hprio.trans (by decide))).trans (if_pos rfl)
    · rcases h with h | h
      · exact absurd hl h
      · rw [hj] at h; cases h

end Seal

/-! ## What sealing and the examination of the close conditions keep (R57, R58) -/

/-- Nothing but packs, jobs and the patrons' open packs differs, and every consignment keeps its lines. -/
structure LinesKept (s t : State) : Prop where
  frame : t = { s with
    records.patrons := t.records.patrons, assembly.cons := t.assembly.cons, assembly.sealedList := t.assembly.sealedList
    scheduler.jobs := t.scheduler.jobs, scheduler.queues := t.scheduler.queues, passDue := t.passDue }
  patron : ∀ n p, Table.get s.records.patrons n = some p →
    ∃ o, Table.get t.records.patrons n = some { p with openPack := o }
  lines : ∀ k c, Table.get s.assembly.cons k = some c → ∃ c', Table.get t.assembly.cons k = some c' ∧ c'.lines = c.lines

theorem LinesKept.refl (s : State) : LinesKept s s := ⟨rfl, fun _ p h => ⟨p.openPack, h⟩, fun _ c h => ⟨c, h, rfl⟩⟩

theorem SealsPack.kept {s t : State} {k : Nat} {c c' : Consignment} {p : Patron} (h : SealsPack s t k c p c')
    (hc : Table.get s.assembly.cons k = some c) : LinesKept s t where
  frame := by rw [h.frame]
  patron n p hp := by
    rw [h.frame]
    simp only [Table.get_modify, hp, Option.map_some]
    split_ifs
    · exact ⟨0, rfl⟩
    · exact ⟨p.openPack, rfl⟩
  lines i x hx := by
    by_cases hi : i = k
    · subst hi
      obtain rfl := Option.some.inj (hc.symm.trans hx)
      exact ⟨c', h.pack, by rw [h.fields]⟩
    · exact ⟨x, (h.others i hi).trans hx, rfl⟩

theorem sealPack_kept (k : Nat) (s : State) : LinesKept s (sealPack k s) := by
  cases hc : Table.get s.assembly.cons k with
  | none => simpa only [sealPack, hc] using LinesKept.refl s
  | some c =>
    by_cases ha : c.state = .assembling
    · cases hp : Table.get s.records.patrons c.patron with
      | none => simpa only [sealPack, hc, if_pos ha, hp] using LinesKept.refl s
      | some p =>
        obtain ⟨c', h⟩ := sealPack_seals hc ha hp
        exact h.kept hc
    · simpa only [sealPack, hc, if_neg ha] using LinesKept.refl s

theorem examineClose_kept (n : Nat) (s : State) : LinesKept s (examineClose n s) := by
  unfold examineClose
  split
  · exact .refl s
  split
  · exact .refl s
  split_ifs
  · exact sealPack_kept _ s
  · exact .refl s

/-- R57's three close conditions. -/
theorem closes_iff {s : State} {p : Patron} {c : Consignment} : closes s p c = true ↔
    8 ≤ c.lines.length ∨ p.quota ≤ p.charge ∨ s.management.settings.packHold = 0 := by
  simp [closes, Config.packLines, or_assoc]

theorem examineClose_eq {s : State} {n : Nat} {p : Patron} {c : Consignment} (hp : Table.get s.records.patrons n = some p)
    (hc : Table.get s.assembly.cons p.openPack = some c) :
    examineClose n s =
      if 8 ≤ c.lines.length ∨ p.quota ≤ p.charge ∨ s.management.settings.packHold = 0 then sealPack p.openPack s
      else s := by
  simp only [examineClose, hp, hc, closes_iff]

end Sys2Proof.Machine
end

