-- ==== Sys2Proof/Proofs/Cancel.lean ====
section
/-! PROOFS. What freeing a request, taking back a charge and freeing a consignment leave in each record (R25, R47, R53),
and CANCEL (R32 to R34, R64). -/

namespace Sys2Proof.Machine

/-! ## One request or one charge less -/

section Rules

variable {s : State}

theorem freeRequest_request (r : Nat) (q : Request) (j : Nat) :
    Table.get (freeRequest r q s).requests j = if j = r then none else Table.get s.requests j :=
  Table.get_delete s.requests r j

theorem freeRequest_patron (r : Nat) (q : Request) (j : Nat) :
    Table.get (freeRequest r q s).records.patrons j =
      if j = q.patron then (Table.get s.records.patrons j).map fun p => { p with wish := p.wish.erase r }
      else Table.get s.records.patrons j := by
  simp only [freeRequest, modPatron_patrons, modTitle_patrons, Table.get_modify]

theorem freeRequest_title (r : Nat) (q : Request) (j : Nat) :
    Table.get (freeRequest r q s).records.titles j =
      if j = q.title then (Table.get s.records.titles j).map fun x => { x with waiting := x.waiting.erase r }
      else Table.get s.records.titles j := by
  simp only [freeRequest, modPatron_titles, modTitle_titles, Table.get_modify]

theorem ungrant_patron (n m j : Nat) :
    Table.get (ungrant n m s).records.patrons j =
      if j = n then (Table.get s.records.patrons j).map fun p => { p with charge := p.charge - 1 }
      else Table.get s.records.patrons j := by
  simp only [ungrant, modTitle_patrons, modPatron_patrons, Table.get_modify]

theorem ungrant_title (n m j : Nat) :
    Table.get (ungrant n m s).records.titles j = (Table.get s.records.titles j).map fun x =>
      if j = m ∧ x.policy = .onDemand then { x with out := x.out - 1 } else x := by
  simp only [ungrant, modTitle_titles, modPatron_titles, Table.get_modify]
  by_cases h : j = m <;> simp [h]

end Rules

section Free

variable {s : State} {k : Nat} {c : Consignment}

theorem freeConsignment_eq (hc : Table.get s.assembly.cons k = some c) :
    freeConsignment k s = { s with
      records.patrons := Table.modify s.records.patrons c.patron fun p =>
        { p with chain := p.chain.erase k, openPack := if p.openPack = k then 0 else p.openPack }
      assembly.cons := Table.delete s.assembly.cons k } := by
  simp only [freeConsignment, hc]
  rfl

theorem freeConsignment_absent (hc : Table.get s.assembly.cons k = none) : freeConsignment k s = s := by
  simp only [freeConsignment, hc]

theorem freeConsignment_cons (k j : Nat) :
    Table.get (freeConsignment k s).assembly.cons j = if j = k then none else Table.get s.assembly.cons j := by
  cases hc : Table.get s.assembly.cons k with
  | none =>
    rw [freeConsignment_absent hc]
    split_ifs with h
    · rw [h, hc]
    · rfl
  | some c =>
    rw [freeConsignment_eq hc]
    exact Table.get_delete s.assembly.cons k j

theorem freeConsignment_patron (hc : Table.get s.assembly.cons k = some c) (n : Nat) :
    Table.get (freeConsignment k s).records.patrons n =
      if n = c.patron then (Table.get s.records.patrons n).map fun p =>
        { p with chain := p.chain.erase k, openPack := if p.openPack = k then 0 else p.openPack }
      else Table.get s.records.patrons n := by
  rw [freeConsignment_eq hc]
  simp only [Table.get_modify]

end Free

/-! ## CANCEL at its owner -/

section Cancel

variable {s : State} {n m : Nat} {p : Patron}

theorem liveRequest_title {r : Nat} {q : Request} (h : liveRequest s p m = some r) (hq : Table.get s.requests r = some q) :
    q.title = m := by
  have hfound := List.find?_some h
  simpa only [hq, decide_eq_true_eq] using hfound

theorem cancelOrder_unknown {c : Code} (h : patronChecks s n = some c) : cancelOrder n m s = refuse c s := by
  simp only [cancelOrder, h]

theorem cancelOrder_outside (h : patronChecks s n = none) (hm : m = 0 ∨ s.management.geometry.t < m) :
    cancelOrder n m s = refuse .titleRange s := by
  simp only [cancelOrder, h, if_pos hm]

theorem cancelOrder_live {r : Nat} {q : Request} (h : patronChecks s n = none)
    (hm : ¬(m = 0 ∨ s.management.geometry.t < m)) (hp : Table.get s.records.patrons n = some p)
    (hr : liveRequest s p m = some r) (hq : Table.get s.requests r = some q) :
    cancelOrder n m s = ⟨freeRequest r q s, .ok, []⟩ := by
  simp only [cancelOrder, h, if_neg hm, hp, hr, hq]

theorem cancelOrder_line (h : patronChecks s n = none) (hm : ¬(m = 0 ∨ s.management.geometry.t < m))
    (hp : Table.get s.records.patrons n = some p) (hr : liveRequest s p m = none) :
    cancelOrder n m s = cancelLine n m p s := by
  simp only [cancelOrder, h, if_neg hm, hp, hr]

theorem cancelLine_takes {c : Consignment} (hc : Table.get s.assembly.cons p.openPack = some c) (ha : c.state = .assembling)
    (ho : carriesOpen s m p.openPack = true) :
    cancelLine n m p s = ⟨takeBackLine p.openPack n m c s, .ok, []⟩ := by
  simp only [cancelLine, hc, if_pos (And.intro ha ho)]

theorem cancelLine_refuses (h : ∀ c, Table.get s.assembly.cons p.openPack = some c → c.state = .assembling →
    carriesOpen s m p.openPack = false) :
    cancelLine n m p s = if onLoan s p m then refuse .tooLate s else refuse .notFound s := by
  unfold cancelLine
  split
  · next c hc => rw [if_neg fun ⟨ha, ho⟩ => by simp [h c hc ha] at ho]
  · rfl

/-- A line taken off pack `k`, its place and its charge given back (R64), before the pack is freed or examined. -/
def lineTaken (k n m : Nat) (c : Consignment) (s : State) : State :=
  ungrant n m (modCons k (fun x => { x with lines := dropLine m c.lines, used := x.used - (blocksAt s m + 16) }) s)

theorem takeBackLine_keeps {k : Nat} {c : Consignment} (h : dropLine m c.lines ≠ []) :
    takeBackLine k n m c s = headroom n (examineClose n (lineTaken k n m c s)) := by
  simp only [takeBackLine, if_neg h]
  rfl

theorem takeBackLine_frees {k : Nat} {c : Consignment} (h : dropLine m c.lines = []) :
    takeBackLine k n m c s = headroom n (freeConsignment k (lineTaken k n m c s)) := by
  simp only [takeBackLine, if_pos h]
  rw [lineTaken, h]

theorem lineTaken_cons (k n m : Nat) (c : Consignment) (j : Nat) :
    Table.get (lineTaken k n m c s).assembly.cons j =
      if j = k then (Table.get s.assembly.cons j).map fun x =>
        { x with lines := dropLine m c.lines, used := x.used - (blocksAt s m + 16) }
      else Table.get s.assembly.cons j := by
  refine Eq.trans ?_ (Table.get_modify s.assembly.cons k j _)
  rfl

end Cancel

section Taken

variable {src : Byte} {patron title : U16} {s s0 : State}

theorem exec_cancel_service {a : Answer} (h : Takes (.cancel src patron title) s s0) (hm : s.management.mode = .service)
    (ha : cancelOrder patron.toNat title.toNat s0 = a) :
    exec (.cancel src patron title) s = .next (replied (.cancel src patron title) a.code a.fields (settle a.state)) := by
  have he : exec (.cancel src patron title) s = request (.cancel src patron title) s
      fun s => inService s (cancelOrder patron.toNat title.toNat s) := rfl
  have hm0 : s0.management.mode = .service := by rw [h.management, hm]
  exact h.answered he (by rw [inService_service _ hm0, ha])

theorem exec_cancel_refused {c : Code} (h : Takes (.cancel src patron title) s s0) (hm : s.management.mode = .service)
    (ha : cancelOrder patron.toNat title.toNat s0 = refuse c s0) :
    exec (.cancel src patron title) s = .next (replied (.cancel src patron title) c [] s0) := by
  have hq : settle (refuse c s0).state = s0 := settle_of_noPass h.noPass
  rw [exec_cancel_service h hm ha, hq]
  rfl

theorem Takes.patronChecks {i : Instr} (h : Takes i s s0) (n : Nat) : patronChecks s0 n = Machine.patronChecks s n := by
  rw [h.line_only]
  rfl

theorem Takes.liveRequest {i : Instr} (h : Takes i s s0) (p : Patron) (m : Nat) :
    liveRequest s0 p m = Machine.liveRequest s p m := by
  rw [h.line_only]
  rfl

theorem Takes.carriesOpen {i : Instr} (h : Takes i s s0) (m k : Nat) : carriesOpen s0 m k = Machine.carriesOpen s m k := by
  rw [h.line_only]
  rfl

theorem Takes.onLoan {i : Instr} (h : Takes i s s0) (p : Patron) (m : Nat) : onLoan s0 p m = Machine.onLoan s p m := by
  rw [h.line_only]
  rfl

theorem Takes.blocksAt {i : Instr} (h : Takes i s s0) (m : Nat) : blocksAt s0 m = Machine.blocksAt s m := by
  rw [h.line_only]
  rfl

end Taken

end Sys2Proof.Machine

open Sys2Proof Sys2Proof.Machine in
/-- Settles O33: the checks in order, then the live request, the line of the open pack, or neither. -/
theorem cancelTakesBackRequestOrLine : Obligations.CancelTakesBackRequestOrLine := by
  intro src patron title s s0 h hm n m i
  have hrefused : ∀ {c}, cancelOrder n m s0 = refuse c s0 → exec i s = .next (replied i c [] s0) :=
    fun hc => exec_cancel_refused h hm hc
  have hunknown : ∀ {c}, patronChecks s n = some c → exec i s = .next (replied i c [] s0) :=
    fun hc => hrefused (cancelOrder_unknown ((h.patronChecks n).trans hc))
  refine ⟨fun hn => hunknown (by rw [hn, patronChecks_null]), fun hn hg => hunknown (patronChecks_outside hn hg),
    fun hn hg => ⟨fun hp => hunknown (patronChecks_absent hn hg hp), fun p hp => ?_⟩⟩
  have hchecks : patronChecks s0 n = none := (h.patronChecks n).trans (patronChecks_present hn hg hp)
  have hp0 : Table.get s0.records.patrons n = some p := by rw [h.records, hp]
  refine ⟨fun hr => hrefused (cancelOrder_outside hchecks (by rwa [h.management])), fun hm0 hmt => ⟨?_, fun hlive => ?_⟩⟩
  · have hrange : ¬(m = 0 ∨ s0.management.geometry.t < m) := by rw [h.management]; omega
    intro r q hr hq hqn
    have hqm := liveRequest_title hr hq
    rw [← h.liveRequest] at hr
    rw [← h.requests] at hq
    have hexec := exec_cancel_service h hm (cancelOrder_live hchecks hrange hp0 hr hq)
    have hquiet : settle (freeRequest r q s0) = freeRequest r q s0 := settle_of_noPass h.noPass
    refine ⟨freeRequest r q s0, hexec.trans (by rw [hquiet]), rfl, ?_, ?_, ?_, fun j hj => ?_, fun j hj => ?_, fun j hj => ?_⟩
    · rw [freeRequest_request, if_pos rfl]
    · rw [freeRequest_patron, if_pos hqn.symm, hp0]
      rfl
    · rw [freeRequest_title, if_pos hqm.symm, h.records]
    · rw [freeRequest_title, if_neg (hqm ▸ hj), h.records]
    · rw [freeRequest_patron, if_neg (hqn ▸ hj), h.records]
    · rw [freeRequest_request, if_neg hj, h.requests]
  · have hrange : ¬(m = 0 ∨ s0.management.geometry.t < m) := by rw [h.management]; omega
    have hline := cancelOrder_line hchecks hrange hp0 ((h.liveRequest p m).trans hlive)
    refine ⟨fun c hc ha ho => ?_, fun hno => ?_⟩
    · intro left
      have hc0 : Table.get s0.assembly.cons p.openPack = some c := by rw [h.assembly, hc]
      have hexec := exec_cancel_service h hm (hline.trans (cancelLine_takes hc0 ha ((h.carriesOpen m _).trans ho)))
      let u := lineTaken p.openPack n m c s0
      have hu : u = { s0 with
          records.patrons := u.records.patrons, records.titles := u.records.titles, assembly.cons := u.assembly.cons } := rfl
      have hcons : ∀ j, j ≠ p.openPack → Table.get u.assembly.cons j = Table.get s.assembly.cons j := fun j hj => by
        rw [lineTaken_cons, if_neg hj, h.assembly]
      have hpack : Table.get u.assembly.cons p.openPack =
          some { c with lines := left, used := c.used - (blocksAt s m + 16) } := by
        rw [lineTaken_cons, if_pos rfl, hc0, h.blocksAt]
        rfl
      have htitle : ∀ j, Table.get u.records.titles j = (Table.get s.records.titles j).map fun x =>
          if j = m ∧ x.policy = .onDemand then { x with out := x.out - 1 } else x := fun j => by
        rw [← h.records]
        exact ungrant_title n m j
      have hpatron : Table.get u.records.patrons n = some { p with charge := p.charge - 1 } := by
        refine (ungrant_patron n m n).trans ((if_pos rfl).trans ?_)
        rw [modCons_records, hp0]
        rfl
      have hothers : ∀ j, j ≠ n → Table.get u.records.patrons j = Table.get s.records.patrons j := fun j hj => by
        refine (ungrant_patron n m j).trans ((if_neg hj).trans ?_)
        rw [modCons_records, h.records]
      by_cases hleft : left = []
      · have hfreed := freeConsignment_eq hpack
        refine ⟨freeConsignment p.openPack u, ?_, fun j => ?_, fun j hj => ?_, fun hcn j hj => ?_, fun hne => absurd hleft hne,
          fun _ hcn => ⟨?_, ?_, ?_⟩⟩
        · rw [hfreed]
          rfl
        · rw [hfreed]
          exact htitle j
        · rw [freeConsignment_cons, if_neg hj, hcons j hj]
        · rw [freeConsignment_patron hpack, if_neg (hcn ▸ hj), hothers j hj]
        · rw [hexec, takeBackLine_frees hleft]
        · rw [freeConsignment_cons, if_pos rfl]
        · rw [freeConsignment_patron hpack, if_pos hcn.symm, hpatron, Option.map_some, if_pos rfl]
      · refine ⟨u, hu, htitle, hcons, fun _ => hothers, fun _ => ⟨?_, hpack, hpatron⟩, fun he => absurd he hleft⟩
        rw [hexec, takeBackLine_keeps hleft]
    · have hno0 := cancelLine_refuses (n := n) (m := m) (s := s0) (p := p) fun c hc ha => by
        rw [h.carriesOpen]
        exact hno c (by rw [← h.assembly, hc]) ha
      rw [h.onLoan] at hno0
      refine ⟨fun hl => hrefused (hline.trans (hno0.trans (if_pos hl))), fun hl => hrefused (hline.trans (hno0.trans ?_))⟩
      rw [hl, if_neg Bool.false_ne_true]
end

