-- ==== Sys2Proof/Proofs/Allocation.lean ====
section
/-! PROOFS. What one allocation attempt comes to (R37 to R42): each outcome as an equation, with the state before the close
conditions are examined, and what that state holds. -/

namespace Sys2Proof.Machine

/-! ## Requests, patrons and titles after an allocation (R41) -/

/-- Request `r` has gone, the records of patron `n` and title `m` are `p` and `x`, and no other request, patron or title
differs. -/
structure Allotted (s t : State) (r n m : Nat) (p : Patron) (x : Title) : Prop where
  requests : ∀ j, Table.get t.requests j = if j = r then none else Table.get s.requests j
  patrons : ∀ j, j ≠ n → Table.get t.records.patrons j = Table.get s.records.patrons j
  titles : ∀ j, j ≠ m → Table.get t.records.titles j = Table.get s.records.titles j
  patron : Table.get t.records.patrons n = some p
  title : Table.get t.records.titles m = some x

theorem Allotted.of_tables {s t : State} {r n m : Nat} {p : Patron} {x : Title} (f : Patron → Patron) (g : Title → Title)
    (hr : t.requests = Table.delete s.requests r) (hp : t.records.patrons = Table.modify s.records.patrons n f)
    (hx : t.records.titles = Table.modify s.records.titles m g) (hpat : Table.get s.records.patrons n = some p)
    (htit : Table.get s.records.titles m = some x) : Allotted s t r n m (f p) (g x) where
  requests j := by rw [hr, Table.get_delete]
  patrons j hj := by rw [hp, Table.get_modify_other _ _ hj]
  titles j hj := by rw [hx, Table.get_modify_other _ _ hj]
  patron := by rw [hp, Table.get_modify_same, hpat]; rfl
  title := by rw [hx, Table.get_modify_same, htit]; rfl

/-! ## A line joins the open pack (R55) -/

section Kinds

variable {s : State} {r : Nat} {q : Request} {p : Patron} {x : Title}

/-- The open pack `k` with the request's line, the request granted (R41, R55). -/
def lineAdded (k r b : Nat) (q : Request) (s : State) : State :=
  grant q.patron q.title
    (modCons k (fun c => { c with lines := c.lines ++ [lineOf q], used := c.used + b + 16 }) (freeRequest r q s))

theorem lineAdded_frame (k r b : Nat) (q : Request) (s : State) :
    lineAdded k r b q s = { s with
      requests := (lineAdded k r b q s).requests, records.patrons := (lineAdded k r b q s).records.patrons
      records.titles := (lineAdded k r b q s).records.titles
      assembly.cons := (lineAdded k r b q s).assembly.cons } := rfl

theorem lineAdded_allotted (k b : Nat) (hp : Table.get s.records.patrons q.patron = some p)
    (hx : Table.get s.records.titles q.title = some x) :
    Allotted s (lineAdded k r b q s) r q.patron q.title { p with wish := p.wish.erase r, charge := p.charge + 1 }
      { x with waiting := x.waiting.erase r, out := x.out + 1 } :=
  .of_tables (fun p => { p with wish := p.wish.erase r, charge := p.charge + 1 })
    (fun x => { x with waiting := x.waiting.erase r, out := x.out + 1 }) rfl
    (by simp only [lineAdded, grant, freeRequest, modPatron_patrons, modTitle_patrons, modCons_records, Table.modify_modify])
    (by simp only [lineAdded, grant, freeRequest, modPatron_titles, modTitle_titles, modCons_records, Table.modify_modify])
    hp hx

theorem lineAdded_cons (k r b : Nat) (q : Request) (s : State) (j : Nat) :
    Table.get (lineAdded k r b q s).assembly.cons j =
      if j = k then (Table.get s.assembly.cons j).map fun c =>
        { c with lines := c.lines ++ [lineOf q], used := c.used + b + 16 }
      else Table.get s.assembly.cons j := by
  refine Eq.trans ?_ (Table.get_modify s.assembly.cons k j _)
  rfl

/-! ## A line opens a pack (R54) -/

/-- The pack that a request opens (R52, R54). -/
def newPack (b : Nat) (q : Request) (p : Patron) (s : State) : Consignment :=
  { newConsignment s q.patron p .pack .assembling with
    cartridgeClass := p.cartridgeClass, lines := [lineOf q], used := 64 + b + 16 }

/-- The pack opened in record `k`, the request granted (R41, R54). -/
def packOpened (k r b : Nat) (q : Request) (p : Patron) (s : State) : State :=
  grant q.patron q.title
    (modPatron q.patron (fun x => { x with openPack := k }) (createOnChain k (newPack b q p s) (freeRequest r q s)))

theorem packOpened_frame (k r b : Nat) (q : Request) (p : Patron) (s : State) :
    packOpened k r b q p s = { s with
      requests := (packOpened k r b q p s).requests, records.patrons := (packOpened k r b q p s).records.patrons
      records.titles := (packOpened k r b q p s).records.titles
      assembly.cons := (packOpened k r b q p s).assembly.cons } := rfl

theorem packOpened_sealedList (k r b : Nat) (q : Request) (p : Patron) (s : State) :
    (packOpened k r b q p s).assembly.sealedList = s.assembly.sealedList := rfl

theorem packOpened_scheduler (k r b : Nat) (q : Request) (p : Patron) (s : State) :
    (packOpened k r b q p s).scheduler = s.scheduler := rfl

theorem packOpened_management (k r b : Nat) (q : Request) (p : Patron) (s : State) :
    (packOpened k r b q p s).management = s.management := rfl

theorem packOpened_queueAt (k r b : Nat) (q : Request) (p : Patron) (s : State) (l : Nat) :
    queueAt (packOpened k r b q p s) l = queueAt s l := rfl

theorem packOpened_allotted {y : Patron} (k b : Nat) (hp : Table.get s.records.patrons q.patron = some y)
    (hx : Table.get s.records.titles q.title = some x) :
    Allotted s (packOpened k r b q p s) r q.patron q.title
      { y with wish := y.wish.erase r, charge := y.charge + 1, chain := k :: y.chain, openPack := k }
      { x with waiting := x.waiting.erase r, out := x.out + 1 } :=
  .of_tables (fun y => { y with wish := y.wish.erase r, charge := y.charge + 1, chain := k :: y.chain, openPack := k })
    (fun x => { x with waiting := x.waiting.erase r, out := x.out + 1 }) rfl
    (by simp only [packOpened, grant, createOnChain, freeRequest, modPatron_patrons, modTitle_patrons, newPack, newConsignment,
      Table.modify_modify])
    (by simp only [packOpened, grant, createOnChain, freeRequest, modPatron_titles, modTitle_titles, Table.modify_modify])
    hp hx

theorem packOpened_cons (k r b : Nat) (q : Request) (p : Patron) (s : State) (j : Nat) :
    Table.get (packOpened k r b q p s).assembly.cons j =
      if j = k then some (newPack b q p s) else Table.get s.assembly.cons j :=
  Table.get_put s.assembly.cons k j _

theorem allocateOnDemand_joins {c : Consignment} (hc : Table.get s.assembly.cons p.openPack = some c)
    (hf : c.used + titleBlocks x + 16 ≤ capacityOf s c.cartridgeClass) :
    allocateOnDemand r q p x s =
      (.made p.openPack, examineClose q.patron (lineAdded p.openPack r (titleBlocks x) q s)) := by
  simp only [allocateOnDemand, hc, if_pos hf]
  rfl

theorem allocateOnDemand_reopens {c : Consignment} {k : Nat} (hc : Table.get s.assembly.cons p.openPack = some c)
    (hf : ¬c.used + titleBlocks x + 16 ≤ capacityOf s c.cartridgeClass)
    (hk : Table.lowestFree s.assembly.cons s.management.geometry.c = some k) :
    allocateOnDemand r q p x s =
      (.made k, examineClose q.patron (packOpened k r (titleBlocks x) q p (sealPack p.openPack s))) := by
  simp only [allocateOnDemand, hc, if_neg hf, hk]
  rfl

theorem allocateOnDemand_opens {k : Nat} (hc : Table.get s.assembly.cons p.openPack = none)
    (hk : Table.lowestFree s.assembly.cons s.management.geometry.c = some k) :
    allocateOnDemand r q p x s = (.made k, examineClose q.patron (packOpened k r (titleBlocks x) q p s)) := by
  simp only [allocateOnDemand, hc, hk]
  rfl

/-- The patron has an open pack with room for the title (R56). -/
def FitsOpenPack (s : State) (p : Patron) (x : Title) : Prop :=
  ∃ c, Table.get s.assembly.cons p.openPack = some c ∧ c.used + titleBlocks x + 16 ≤ capacityOf s c.cartridgeClass

theorem allocateOnDemand_lacks (hf : ¬FitsOpenPack s p x)
    (hk : Table.lowestFree s.assembly.cons s.management.geometry.c = none) :
    allocateOnDemand r q p x s = (.noRecords, s) := by
  unfold allocateOnDemand
  split
  · next c hc => rw [if_neg fun h => hf ⟨c, hc, h⟩, hk]
  · rw [hk]

/-! ## A copy leaves its shelf (R39, R67) -/

/-- The consignment of one shelf copy (R39, R52). -/
def copyConsignment (q : Request) (p : Patron) (x : Title) (s : State) : Consignment :=
  { newConsignment s q.patron p .shelfAudio .picking with cartridgeClass := x.shelfClass, lines := [lineOf q] }

/-- The copy taken into record `k`, the request granted (R39, R41, R67). -/
def copyTaken (k r : Nat) (q : Request) (p : Patron) (x : Title) (s : State) : State :=
  pendPick k
    (grant q.patron q.title
      (modAccount x.shelfClass (ClassAccount.move .shelf .consigned 1)
        (takeCopy q.title (createOnChain k (copyConsignment q p x s) (freeRequest r q s)))))

theorem copyTaken_frame (k r : Nat) (q : Request) (p : Patron) (x : Title) (s : State) :
    copyTaken k r q p x s = { s with
      requests := (copyTaken k r q p x s).requests, records.patrons := (copyTaken k r q p x s).records.patrons
      records.titles := (copyTaken k r q p x s).records.titles
      assembly.cons := (copyTaken k r q p x s).assembly.cons, assembly.picks := s.assembly.picks ++ [k]
      accounts := (copyTaken k r q p x s).accounts } := rfl

theorem copyTaken_allotted {y : Patron} (k : Nat) {z : Title} (hp : Table.get s.records.patrons q.patron = some y)
    (hx : Table.get s.records.titles q.title = some x) :
    Allotted s (copyTaken k r q p z s) r q.patron q.title
      { y with wish := y.wish.erase r, charge := y.charge + 1, chain := k :: y.chain }
      { x with waiting := x.waiting.erase r, out := x.out + 1, shelf := x.shelf - 1 } :=
  .of_tables (fun y => { y with wish := y.wish.erase r, charge := y.charge + 1, chain := k :: y.chain })
    (fun x => { x with waiting := x.waiting.erase r, out := x.out + 1, shelf := x.shelf - 1 }) rfl
    (by simp only [copyTaken, pendPick_records, grant, takeCopy, createOnChain, freeRequest, modPatron_patrons, modTitle_patrons,
      modAccount_records, copyConsignment, newConsignment, Table.modify_modify])
    (by simp only [copyTaken, pendPick_records, grant, takeCopy, createOnChain, freeRequest, modPatron_titles, modTitle_titles,
      modAccount_records, Table.modify_modify])
    hp hx

theorem copyTaken_cons (k r : Nat) (q : Request) (p : Patron) (x : Title) (s : State) (j : Nat) :
    Table.get (copyTaken k r q p x s).assembly.cons j =
      if j = k then some (copyConsignment q p x s) else Table.get s.assembly.cons j :=
  Table.get_put s.assembly.cons k j _

theorem copyTaken_account (k r : Nat) (q : Request) (p : Patron) (x : Title) (s : State) (h1 : 1 ≤ x.shelfClass)
    (h4 : x.shelfClass ≤ 4) (hs : 1 ≤ (accountAt s x.shelfClass).shelf) :
    accountAt (copyTaken k r q p x s) x.shelfClass =
      { accountAt s x.shelfClass with
        shelf := (accountAt s x.shelfClass).shelf - 1, consigned := (accountAt s x.shelfClass).consigned + 1 } := by
  refine (bankGet_modify_same s.accounts x.shelfClass _ _ ⟨h1, h4⟩).trans ?_
  exact (if_pos hs).trans rfl

theorem copyTaken_account_other (k r : Nat) (q : Request) (p : Patron) (x : Title) (s : State) {d : Nat}
    (hd : d ≠ x.shelfClass) : accountAt (copyTaken k r q p x s) d = accountAt s d :=
  bankGet_modify_other s.accounts _ _ hd

theorem allocateShelf_takes {k : Nat} (hk : Table.lowestFree s.assembly.cons s.management.geometry.c = some k) :
    allocateShelf r q p x s = (.made k, examineClose q.patron (copyTaken k r q p x s)) := by
  simp only [allocateShelf, hk]
  rfl

theorem allocateShelf_lacks (hk : Table.lowestFree s.assembly.cons s.management.geometry.c = none) :
    allocateShelf r q p x s = (.noRecords, s) := by
  simp only [allocateShelf, hk]

/-! ## A set takes a record for each part (R40, R65, R66) -/

/-- The plan of the set that a braille request takes, under the limit of its window (R65). -/
def planOf (p : Patron) (x : Title) (s : State) : BraillePlan :=
  planSet (windowAt s (resolveWindow s (destination s p))).limit x.volumes x.weight

/-- Part `i` of a set headed by `k` (R52, R66). -/
def setPart (plan : BraillePlan) (v w : Nat) (base : Consignment) (k i : Nat) : Consignment :=
  { base with
    part := i, parts := plan.parts, head := k, volumes := volumesIn plan v i, weight := volumesIn plan v i * w,
    overweight := plan.overweight, lines := if i = 1 then base.lines else [] }

/-- What the parts of a braille request's set have in common. -/
def setBase (q : Request) (p : Patron) (s : State) : Consignment :=
  { newConsignment s q.patron p .braillePart .picking with lines := [lineOf q] }

/-- The set taken with its head in record `k`, the request granted (R40, R41, R66). -/
def setTaken (k r : Nat) (q : Request) (p : Patron) (x : Title) (s : State) : State :=
  pendPick k
    (grant q.patron q.title
      (takeCopy q.title
        (modPatron q.patron (fun y => { y with chain := k :: y.chain })
          (createParts (planOf p x s).parts 1 k (planOf p x s) x.volumes x.weight (setBase q p s) (freeRequest r q s)))))

theorem createParts_succ {n i h k v w : Nat} {plan : BraillePlan} {c : Consignment}
    (hk : Table.lowestFree s.assembly.cons s.management.geometry.c = some k) :
    createParts (n + 1) i h plan v w c s =
      createParts n (i + 1) h plan v w c
        { s with assembly.cons := Table.put s.assembly.cons k (setPart plan v w c h i) } := by
  simp only [createParts, hk]
  rfl

theorem createParts_frame (n i h : Nat) (plan : BraillePlan) (v w : Nat) (c : Consignment) (s : State) :
    createParts n i h plan v w c s = { s with assembly.cons := (createParts n i h plan v w c s).assembly.cons } := by
  induction n generalizing i s with
  | zero => rfl
  | succ n ih =>
    cases hk : Table.lowestFree s.assembly.cons s.management.geometry.c with
    | none => simp only [createParts, hk]
    | some k => rw [createParts_succ hk, ih]

/-- A record that is taken stands while parts are created. -/
theorem createParts_kept {n i h : Nat} {plan : BraillePlan} {v w j : Nat} {c e : Consignment}
    (hw : Table.wf s.assembly.cons) (he : Table.get s.assembly.cons j = some e) :
    Table.get (createParts n i h plan v w c s).assembly.cons j = some e := by
  induction n generalizing i s with
  | zero => exact he
  | succ n ih =>
    cases hk : Table.lowestFree s.assembly.cons s.management.geometry.c with
    | none => simpa only [createParts, hk] using he
    | some k =>
      rw [createParts_succ hk]
      have hjk : j ≠ k := by
        rintro rfl
        rw [lowestFree_get hw hk] at he
        cases he
      exact ih (Table.wf_put _ _ _ hw) ((Table.get_put_other _ _ hjk).trans he)

/-- The parts stand in the lowest FREE records, in part order (R66). -/
theorem createParts_parts {n i h : Nat} {plan : BraillePlan} {v w : Nat} {c : Consignment} {free : List Nat}
    (hw : Table.wf s.assembly.cons) (hfree : freeNumbers s.assembly.cons s.management.geometry.c = free)
    (hn : n ≤ free.length) :
    (∀ a < n, ∃ j, free[a]? = some j ∧
      Table.get (createParts n i h plan v w c s).assembly.cons j = some (setPart plan v w c h (i + a))) ∧
    ∀ j, j ∉ free.take n → Table.get (createParts n i h plan v w c s).assembly.cons j = Table.get s.assembly.cons j := by
  induction n generalizing i s free with
  | zero => exact ⟨fun a ha => absurd ha (Nat.not_lt_zero a), fun j _ => rfl⟩
  | succ n ih =>
    match free with
    | [] => simp at hn
    | k :: rest =>
      have hk : Table.lowestFree s.assembly.cons s.management.geometry.c = some k := by
        rw [lowestFree_eq_head? hw, hfree]
        rfl
      rw [createParts_succ hk]
      have hput : Table.get (Table.put s.assembly.cons k (setPart plan v w c h i)) k = some _ := Table.get_put_same ..
      obtain ⟨hparts, hothers⟩ := ih
        (s := { s with assembly.cons := Table.put s.assembly.cons k (setPart plan v w c h i) }) (i := i + 1)
        (Table.wf_put _ _ _ hw) (freeNumbers_put_head hfree _) (Nat.le_of_succ_le_succ hn)
      refine ⟨fun a ha => ?_, fun j hj => ?_⟩
      · match a with
        | 0 => exact ⟨k, rfl, createParts_kept (Table.wf_put _ _ _ hw) hput⟩
        | a + 1 =>
          obtain ⟨j, hj, hget⟩ := hparts a (Nat.lt_of_succ_lt_succ ha)
          exact ⟨j, hj, by rw [hget, Nat.add_right_comm, Nat.add_assoc]⟩
      · rw [List.take_succ_cons, List.mem_cons, not_or] at hj
        exact (hothers j hj.2).trans (Table.get_put_other _ _ hj.1)

theorem setTaken_assembly (k r : Nat) (q : Request) (p : Patron) (x : Title) (s : State) :
    (setTaken k r q p x s).assembly.cons =
      (createParts (planOf p x s).parts 1 k (planOf p x s) x.volumes x.weight (setBase q p s) (freeRequest r q s)).assembly.cons :=
  rfl

theorem setTaken_frame (k r : Nat) (q : Request) (p : Patron) (x : Title) (s : State) :
    setTaken k r q p x s = { s with
      requests := (setTaken k r q p x s).requests, records.patrons := (setTaken k r q p x s).records.patrons
      records.titles := (setTaken k r q p x s).records.titles
      assembly.cons := (setTaken k r q p x s).assembly.cons, assembly.picks := s.assembly.picks ++ [k] } := by
  rw [setTaken, createParts_frame]
  rfl

theorem setTaken_allotted {y : Patron} (k : Nat) {z : Title} (hp : Table.get s.records.patrons q.patron = some y)
    (hx : Table.get s.records.titles q.title = some x) :
    Allotted s (setTaken k r q p z s) r q.patron q.title
      { y with wish := y.wish.erase r, charge := y.charge + 1, chain := k :: y.chain }
      { x with waiting := x.waiting.erase r, out := x.out + 1, shelf := x.shelf - 1 } := by
  refine .of_tables (fun y => { y with wish := y.wish.erase r, charge := y.charge + 1, chain := k :: y.chain })
    (fun x => { x with waiting := x.waiting.erase r, out := x.out + 1, shelf := x.shelf - 1 }) ?_ ?_ ?_ hp hx
  · rw [setTaken, createParts_frame]
    rfl
  · rw [setTaken, createParts_frame]
    simp only [pendPick_records, grant, takeCopy, freeRequest, modPatron_patrons, modTitle_patrons, Table.modify_modify]
  · rw [setTaken, createParts_frame]
    simp only [pendPick_records, grant, takeCopy, freeRequest, modPatron_titles, modTitle_titles, Table.modify_modify]

theorem planSet_parts_pos {limit v w : Nat} (hv : 1 ≤ v) : 1 ≤ (planSet limit v w).parts := by
  unfold planSet
  generalize hk : (if limit / w = 0 then 1 else limit / w) = k
  have hpos : 1 ≤ k := by
    rw [← hk]
    split_ifs with h
    · exact le_refl 1
    · exact Nat.one_le_iff_ne_zero.mpr h
  exact Nat.div_pos (by omega) hpos

/-- The head of the set stands in its record `k`, with the line (R66). -/
theorem setTaken_head {k : Nat} (hw : Table.wf s.assembly.cons)
    (hk : Table.lowestFree s.assembly.cons s.management.geometry.c = some k) (hv : 1 ≤ x.volumes) :
    Table.get (setTaken k r q p x s).assembly.cons k =
      some (setPart (planOf p x s) x.volumes x.weight (setBase q p s) k 1) := by
  obtain ⟨n, hn⟩ : ∃ n, (planOf p x s).parts = n + 1 := Nat.exists_eq_add_of_le' (planSet_parts_pos hv)
  have hk' : Table.lowestFree (freeRequest r q s).assembly.cons (freeRequest r q s).management.geometry.c = some k := hk
  rw [setTaken_assembly, hn, createParts_succ hk']
  exact createParts_kept (Table.wf_put _ _ _ hw) (Table.get_put_same ..)

theorem allocateBraille_takes {k : Nat} (hk : Table.lowestFree s.assembly.cons s.management.geometry.c = some k)
    (hf : (planOf p x s).parts ≤ freeConsignments s) :
    allocateBraille r q p x s = (.made k, examineClose q.patron (setTaken k r q p x s)) := by
  simp only [allocateBraille, hk]
  exact if_neg (Nat.not_lt.mpr hf)

theorem allocateBraille_lacks (h : Table.lowestFree s.assembly.cons s.management.geometry.c = none ∨
    freeConsignments s < (planOf p x s).parts) : allocateBraille r q p x s = (.noRecords, s) := by
  simp only [allocateBraille]
  split
  · rfl
  · next k hk =>
    refine if_pos (h.resolve_left ?_)
    rw [hk]
    exact Option.some_ne_none k

end Kinds

/-! ## The attempt (R37, R42) -/

section Attempt

variable {s : State} {r : Nat} {q : Request} {p : Patron} {x : Title}

/-- Conditions 1 and 2 of R37. -/
theorem patronEligible_iff : patronEligible p = true ↔ p.status = .active ∧ p.held = false ∧ p.charge < p.quota := by
  simp [patronEligible, and_assoc]

theorem attempt_absent (h : Table.get s.requests r = none) : attempt r s = (.passedOver, s) := by
  simp only [attempt, h]

theorem attempt_unrecorded (hq : Table.get s.requests r = some q)
    (h : Table.get s.records.patrons q.patron = none ∨ Table.get s.records.titles q.title = none) :
    attempt r s = (.passedOver, s) := by
  simp only [attempt, hq]
  split
  · next hp hx => rcases h with h | h <;> simp_all
  · rfl

theorem attempt_eligible (hq : Table.get s.requests r = some q) (hp : Table.get s.records.patrons q.patron = some p)
    (hx : Table.get s.records.titles q.title = some x) (he : patronEligible p = true) (ha : x.availability = .available) :
    attempt r s = noteExhausted q.patron (allocateKind r q p x s) := by
  simp only [attempt, hq, hp, hx, if_pos (And.intro he ha)]

theorem attempt_ineligible (hq : Table.get s.requests r = some q) (hp : Table.get s.records.patrons q.patron = some p)
    (hx : Table.get s.records.titles q.title = some x) (h : ¬(patronEligible p = true ∧ x.availability = .available)) :
    attempt r s = (.passedOver, s) := by
  simp only [attempt, hq, hp, hx, if_neg h]

theorem noteExhausted_made (n k : Nat) (s : State) : noteExhausted n (.made k, s) = (.made k, s) := rfl

theorem noteExhausted_noRecords (n : Nat) (s : State) :
    noteExhausted n (.noRecords, s) = (.noRecords, latch .poolExhausted n s) := rfl

theorem allocateKind_onDemand (h : x.policy = .onDemand) : allocateKind r q p x s = allocateOnDemand r q p x s := by
  simp only [allocateKind, h]

theorem allocateKind_copy (h : x.policy = .shelf) (h1 : 1 ≤ x.shelf) (hf : x.format = .audio) :
    allocateKind r q p x s = allocateShelf r q p x s := by
  simp only [allocateKind, h, if_neg (Nat.one_le_iff_ne_zero.mp h1), hf]

theorem allocateKind_set (h : x.policy = .shelf) (h1 : 1 ≤ x.shelf) (hf : x.format = .braille) :
    allocateKind r q p x s = allocateBraille r q p x s := by
  simp only [allocateKind, h, if_neg (Nat.one_le_iff_ne_zero.mp h1), hf]

/-- An attempt for a patron not eligible, a title WITHDRAWN or an empty shelf passes over (R37). -/
theorem attempt_passesOver (hq : Table.get s.requests r = some q) (hp : Table.get s.records.patrons q.patron = some p)
    (hx : Table.get s.records.titles q.title = some x)
    (h : ¬(patronEligible p = true ∧ x.availability = .available ∧ (x.policy = .shelf → 1 ≤ x.shelf))) :
    attempt r s = (.passedOver, s) := by
  by_cases hea : patronEligible p = true ∧ x.availability = .available
  · obtain ⟨he, ha⟩ := hea
    have hshelf : x.policy = .shelf ∧ ¬1 ≤ x.shelf := by
      by_contra hn
      exact h ⟨he, ha, fun hs => not_not.mp fun h0 => hn ⟨hs, h0⟩⟩
    rw [attempt_eligible hq hp hx he ha]
    simp only [allocateKind, hshelf.1, if_pos (Nat.lt_one_iff.mp (Nat.not_le.mp hshelf.2))]
    rfl
  · exact attempt_ineligible hq hp hx hea

/-- Too few FREE consignment records (R42). -/
theorem attempt_lacks (hq : Table.get s.requests r = some q) (hp : Table.get s.records.patrons q.patron = some p)
    (hx : Table.get s.records.titles q.title = some x) (he : patronEligible p = true) (ha : x.availability = .available)
    (h : (x.policy = .onDemand ∧ ¬FitsOpenPack s p x ∧
          Table.lowestFree s.assembly.cons s.management.geometry.c = none) ∨
        (x.policy = .shelf ∧ 1 ≤ x.shelf ∧
          (Table.lowestFree s.assembly.cons s.management.geometry.c = none ∨
            (x.format = .braille ∧ freeConsignments s < (planOf p x s).parts)))) :
    attempt r s = (.noRecords, latch .poolExhausted q.patron s) := by
  rw [attempt_eligible hq hp hx he ha, ← noteExhausted_noRecords]
  refine congrArg (noteExhausted q.patron) ?_
  obtain ⟨hpol, hf, hroom⟩ | ⟨hpol, hs, hlack⟩ := h
  · rw [allocateKind_onDemand hpol, allocateOnDemand_lacks hf hroom]
  · cases hf : x.format with
    | audio =>
      rw [allocateKind_copy hpol hs hf, allocateShelf_lacks (hlack.resolve_right fun h => by rw [hf] at h; cases h.1)]
    | braille => rw [allocateKind_set hpol hs hf, allocateBraille_lacks (hlack.imp_right And.right)]

end Attempt

end Sys2Proof.Machine
end

