-- ==== Sys2Proof/Proofs/Claims.lean ====
section
/-! PROOFS. The claim score (R43), the choice of a copy freed (R44), and the walk of *headroom* with what each attempt makes
(R45). -/

namespace Sys2Proof.Machine

/-! ## The score (R43) -/

/-- The score before it is capped and, for an INSTITUTION, halved. -/
def rawScore (today day : Day) (p : Patron) : Nat :=
  2 * min 511 (daysFrom day today) + (if p.patronClass = .priority then 384 else 0) + 16 * (p.quota - p.charge)

theorem claimScore_eq (today day : Day) (p : Patron) :
    claimScore today day p =
      if p.patronClass = .institution then min 1023 (rawScore today day p) / 2 else min 1023 (rawScore today day p) := rfl

theorem rawScore_mono {today later day : Day} (p : Patron) (h : daysFrom day today ≤ daysFrom day later) :
    rawScore today day p ≤ rawScore later day p := by
  unfold rawScore
  omega

theorem claimScore_le (today day : Day) (p : Patron) : claimScore today day p ≤ 1023 := by
  rw [claimScore_eq]
  split_ifs <;> omega

theorem claimScore_mono {today later day : Day} (p : Patron) (h : daysFrom day today ≤ daysFrom day later) :
    claimScore today day p ≤ claimScore later day p := by
  have := rawScore_mono p h
  simp only [claimScore_eq]
  split_ifs <;> omega

theorem scoreOf_eq_some_iff {s : State} {r y : Nat} : scoreOf s r = some y ↔
    ∃ q p, Table.get s.requests r = some q ∧ Table.get s.records.patrons q.patron = some p ∧ p.status = .active ∧
      p.held = false ∧ p.charge < p.quota ∧ y = claimScore s.days.today q.day p := by
  unfold scoreOf
  cases hq : Table.get s.requests r with
  | none => simp
  | some q =>
    cases hp : Table.get s.records.patrons q.patron with
    | none => simp [hp]
    | some p =>
      simp only [hp, Option.ite_none_right_eq_some, Option.some.injEq, patronEligible_iff]
      constructor
      · rintro ⟨⟨hact, hheld, hlt⟩, rfl⟩
        exact ⟨q, p, rfl, hp, hact, hheld, hlt, rfl⟩
      · rintro ⟨_, _, rfl, hp', hact, hheld, hlt, rfl⟩
        obtain rfl := Option.some.inj (hp.symm.trans hp')
        exact ⟨⟨hact, hheld, hlt⟩, rfl⟩

/-! ## The choice (R44) -/

section Choice

variable {s : State} {rs : List Nat} {r y : Nat}

/-- The better of the best claim so far and one more. -/
def betterClaim (s : State) (best : Option (Nat × Nat)) (r : Nat) : Option (Nat × Nat) :=
  match scoreOf s r, best with
  | none, _ => best
  | some x, none => some (r, x)
  | some x, some (_, y) => if y < x then some (r, x) else best

theorem bestClaim_append (s : State) (rs : List Nat) (r : Nat) :
    bestClaim s (rs ++ [r]) = betterClaim s (bestClaim s rs) r := by
  simp only [bestClaim, List.foldl_append, List.foldl_cons, List.foldl_nil]
  rfl

/-- Request `r` scores `y`, more than any request before it and at least as much as any after it (R44 step 3). -/
def Wins (s : State) (rs : List Nat) (r y : Nat) : Prop :=
  ∃ before after, rs = before ++ r :: after ∧ scoreOf s r = some y ∧
    (∀ b ∈ before, ∀ z, scoreOf s b = some z → z < y) ∧ ∀ a ∈ after, ∀ z, scoreOf s a = some z → z ≤ y

theorem Wins.le (h : Wins s rs r y) {b z : Nat} (hb : b ∈ rs) (hz : scoreOf s b = some z) : z ≤ y := by
  obtain ⟨before, after, rfl, hy, hbefore, hafter⟩ := h
  rw [List.mem_append, List.mem_cons] at hb
  obtain hb | rfl | hb := hb
  · exact (hbefore b hb z hz).le
  · exact (Option.some.inj (hz.symm.trans hy)).le
  · exact hafter b hb z hz

/-- The winner stands when one more request does not beat it. -/
theorem Wins.stands (h : Wins s rs r y) {a : Nat} (ha : ∀ z, scoreOf s a = some z → z ≤ y) : Wins s (rs ++ [a]) r y := by
  obtain ⟨before, after, rfl, hy, hbefore, hafter⟩ := h
  refine ⟨before, after ++ [a], by simp, hy, hbefore, fun b hb => ?_⟩
  obtain hb | hb := List.mem_append.mp hb
  · exact hafter b hb
  · rwa [List.mem_singleton.mp hb]

theorem wins_last {x : Nat} (hx : scoreOf s r = some x) (h : ∀ b ∈ rs, ∀ z, scoreOf s b = some z → z < x) :
    Wins s (rs ++ [r]) r x := ⟨rs, [], rfl, hx, h, by simp⟩

/-- The fold finds the first of the highest scores. -/
theorem bestClaim_wins (s : State) (rs : List Nat) :
    (bestClaim s rs = none ∧ ∀ r ∈ rs, scoreOf s r = none) ∨ ∃ r y, bestClaim s rs = some (r, y) ∧ Wins s rs r y := by
  induction rs using List.reverseRecOn with
  | nil => exact .inl ⟨rfl, by simp⟩
  | append_singleton rs a ih =>
    rw [bestClaim_append]
    unfold betterClaim
    cases ha : scoreOf s a with
    | none =>
      obtain ⟨hb, hnone⟩ | ⟨r, y, hb, hw⟩ := ih
      · exact .inl ⟨hb, by simpa [or_imp, forall_and, ha] using hnone⟩
      · exact .inr ⟨r, y, hb, hw.stands (by simp [ha])⟩
    | some x =>
      refine .inr ?_
      obtain ⟨hb, hnone⟩ | ⟨r, y, hb, hw⟩ := ih
      · refine ⟨a, x, by rw [hb], wins_last ha fun b hm z hz => ?_⟩
        rw [hnone b hm] at hz
        cases hz
      · rw [hb]
        by_cases hyx : y < x
        · exact ⟨a, x, if_pos hyx, wins_last ha fun b hm z hz => (hw.le hm hz).trans_lt hyx⟩
        · refine ⟨r, y, if_neg hyx, hw.stands fun z hz => ?_⟩
          rw [ha, Option.some_inj] at hz
          omega

theorem copyFreed_idle {m : Nat} (h : ∀ x, Table.get s.records.titles m = some x →
    x.policy = .onDemand ∨ x.shelf = 0 ∨ x.availability = .withdrawn) : copyFreed m s = s := by
  unfold copyFreed
  split
  · rfl
  next x hx =>
  refine if_neg ?_
  rintro ⟨hp, hs, ha⟩
  obtain h | h | h := h x hx
  · rw [hp] at h; cases h
  · omega
  · rw [ha] at h; cases h

theorem copyFreed_unclaimed {m : Nat} {x : Title} (hx : Table.get s.records.titles m = some x)
    (hb : bestClaim s x.waiting = none) : copyFreed m s = s := by
  simp only [copyFreed, hx, hb, ite_self]

theorem copyFreed_won {m : Nat} {x : Title} (hx : Table.get s.records.titles m = some x) (hp : x.policy = .shelf)
    (hs : 1 ≤ x.shelf) (ha : x.availability = .available) (hb : bestClaim s x.waiting = some (r, y)) :
    copyFreed m s = (attempt r s).2 := by
  simp only [copyFreed, hx, if_pos (And.intro hp (And.intro hs ha)), hb]

end Choice

/-! ## What an attempt makes (R41) -/

/-- Request `r` has become a line of consignment `k`. -/
structure MadeLine (s t : State) (r k : Nat) (q : Request) (p : Patron) (x : Title) : Prop where
  requests : ∀ j, Table.get t.requests j = if j = r then none else Table.get s.requests j
  patron : ∃ y, Table.get t.records.patrons q.patron = some y ∧ y.wish = p.wish.erase r ∧ y.charge = p.charge + 1
  title : ∃ y, Table.get t.records.titles q.title = some y ∧ y.waiting = x.waiting.erase r ∧ y.out = x.out + 1
  line : ∃ c, Table.get t.assembly.cons k = some c ∧ lineOf q ∈ c.lines

section Made

variable {s t u : State} {r k : Nat} {q : Request} {p p' : Patron} {x x' : Title}

/-- Close conditions examined afterwards keep the line. -/
theorem MadeLine.examined (h : MadeLine s t r k q p x) (n : Nat) : MadeLine s (examineClose n t) r k q p x where
  requests j := by
    rw [(examineClose_kept n t).frame]
    exact h.requests j
  patron := by
    obtain ⟨y, hy, hw, hc⟩ := h.patron
    obtain ⟨o, ho⟩ := (examineClose_kept n t).patron _ y hy
    exact ⟨_, ho, hw, hc⟩
  title := by
    rw [(examineClose_kept n t).frame]
    exact h.title
  line := by
    obtain ⟨c, hc, hl⟩ := h.line
    obtain ⟨c', hc', hlines⟩ := (examineClose_kept n t).lines k c hc
    exact ⟨c', hc', by rwa [hlines]⟩

theorem MadeLine.of_allotted {c : Consignment} (h : Allotted s t r q.patron q.title p' x')
    (hw : p'.wish = p.wish.erase r) (hch : p'.charge = p.charge + 1) (hwx : x'.waiting = x.waiting.erase r)
    (ho : x'.out = x.out + 1) (hc : Table.get t.assembly.cons k = some c) (hl : lineOf q ∈ c.lines) :
    MadeLine s t r k q p x :=
  ⟨h.requests, ⟨p', h.patron, hw, hch⟩, ⟨x', h.title, hwx, ho⟩, ⟨c, hc, hl⟩⟩

/-- An attempt not passed over and not lacking records is made: into the open pack where the title fits, else into the
lowest FREE record. -/
theorem attempt_makes (hq : Table.get s.requests r = some q) (hp : Table.get s.records.patrons q.patron = some p)
    (hx : Table.get s.records.titles q.title = some x) (he : patronEligible p = true) (ha : x.availability = .available)
    (hs : x.policy = .shelf → 1 ≤ x.shelf) (hw : Table.wf s.assembly.cons) (hv : x.format = .braille → 1 ≤ x.volumes)
    (hod : x.policy = .onDemand →
      FitsOpenPack s p x ∨ Table.lowestFree s.assembly.cons s.management.geometry.c ≠ none)
    (hsh : x.policy = .shelf → Table.lowestFree s.assembly.cons s.management.geometry.c ≠ none ∧
      (x.format = .braille → (planOf p x s).parts ≤ freeConsignments s)) :
    ∃ k, (attempt r s).1 = .made k ∧ MadeLine s (attempt r s).2 r k q p x ∧
      (x.policy = .onDemand → FitsOpenPack s p x → k = p.openPack) ∧
      (¬(x.policy = .onDemand ∧ FitsOpenPack s p x) →
        Table.lowestFree s.assembly.cons s.management.geometry.c = some k) := by
  rw [attempt_eligible hq hp hx he ha]
  cases hpol : x.policy with
  | onDemand =>
    rw [allocateKind_onDemand hpol]
    by_cases hf : FitsOpenPack s p x
    · obtain ⟨c, hc, hfit⟩ := hf
      rw [allocateOnDemand_joins hc hfit, noteExhausted_made]
      have hcons := lineAdded_cons p.openPack r (titleBlocks x) q s p.openPack
      rw [if_pos rfl, hc] at hcons
      refine ⟨p.openPack, rfl, .examined (.of_allotted (lineAdded_allotted _ _ hp hx) rfl rfl rfl rfl hcons ?_) _,
        fun _ _ => rfl, fun hn => absurd ⟨rfl, c, hc, hfit⟩ hn⟩
      exact List.mem_append_right _ (List.mem_singleton_self _)
    · obtain ⟨k, hk⟩ := Option.ne_none_iff_exists'.mp ((hod hpol).resolve_left hf)
      obtain hc | ⟨c, hc⟩ := Option.eq_none_or_eq_some (Table.get s.assembly.cons p.openPack)
      · rw [allocateOnDemand_opens hc hk, noteExhausted_made]
        refine ⟨k, rfl, .examined (.of_allotted (packOpened_allotted _ _ hp hx) rfl rfl rfl rfl
          ((packOpened_cons ..).trans (if_pos rfl)) (List.mem_singleton_self _)) _, fun _ h => absurd h hf, fun _ => hk⟩
      · have hfit : ¬c.used + titleBlocks x + 16 ≤ capacityOf s c.cartridgeClass := fun h => hf ⟨c, hc, h⟩
        rw [allocateOnDemand_reopens hc hfit hk, noteExhausted_made]
        have hkept := sealPack_kept p.openPack s
        obtain ⟨o, ho⟩ := hkept.patron _ p hp
        have hx' : Table.get (sealPack p.openPack s).records.titles q.title = some x := by rwa [hkept.frame]
        have hmade : MadeLine (sealPack p.openPack s) _ r k q { p with openPack := o } x :=
          .of_allotted (packOpened_allotted k (titleBlocks x) (p := p) ho hx') rfl rfl rfl rfl
            ((packOpened_cons ..).trans (if_pos rfl)) (List.mem_singleton_self _)
        refine ⟨k, rfl, MadeLine.examined (p := p) ⟨?_, hmade.patron, hmade.title, hmade.line⟩ _, fun _ h => absurd h hf,
          fun _ => hk⟩
        intro j
        rw [hmade.requests j, hkept.frame]
  | shelf =>
    obtain ⟨hroom, hparts⟩ := hsh hpol
    obtain ⟨k, hk⟩ := Option.ne_none_iff_exists'.mp hroom
    cases hfmt : x.format with
    | audio =>
      rw [allocateKind_copy hpol (hs hpol) hfmt, allocateShelf_takes hk, noteExhausted_made]
      exact ⟨k, rfl, .examined (.of_allotted (copyTaken_allotted _ hp hx) rfl rfl rfl rfl
        ((copyTaken_cons ..).trans (if_pos rfl)) (List.mem_singleton_self _)) _, nofun, fun _ => hk⟩
    | braille =>
      rw [allocateKind_set hpol (hs hpol) hfmt, allocateBraille_takes hk (hparts hfmt), noteExhausted_made]
      exact ⟨k, rfl, .examined (.of_allotted (setTaken_allotted _ hp hx) rfl rfl rfl rfl
        (setTaken_head hw hk (hv hfmt)) (List.mem_singleton_self _)) _, nofun, fun _ => hk⟩

end Made

end Sys2Proof.Machine

open Sys2Proof Sys2Proof.Machine in
/-- Settles O34: the score by arithmetic, the winner by induction on the waiting list, the walk as a scan of the wish list, and an
attempt by the title's kind. -/
theorem claimsAreScoredAndChosen : Obligations.ClaimsAreScoredAndChosen := by
  refine ⟨fun today day p _ => ?_, fun s r y => scoreOf_eq_some_iff, fun s m h => copyFreed_idle h,
    fun s m x hx hp hs ha => ?_, fun s n => ⟨fun h => ?_, fun p hp => ?_⟩, fun u r n q => ⟨attempt_absent, ?_⟩⟩
  · intro raw
    have hscore := claimScore_eq today day p
    refine ⟨fun hc => hscore.trans (if_neg hc), fun hc => ?_, claimScore_le today day p, fun later => claimScore_mono p⟩
    have hhalf := hscore.trans (if_pos hc)
    exact ⟨hhalf, by omega⟩
  · obtain ⟨hb, hnone⟩ | ⟨r, y, hb, before, after, hw, hy, hbefore, hafter⟩ := bestClaim_wins s x.waiting
    · exact ⟨fun _ => copyFreed_unclaimed hx hb, fun ⟨r, hr, hsome⟩ => absurd (hnone r hr) hsome⟩
    · refine ⟨fun hnone => ?_, fun _ => ⟨before, r, after, y, hw, hy, hbefore, hafter, copyFreed_won hx hp hs ha hb⟩⟩
      rw [hnone r (hw ▸ List.mem_append_right _ (List.mem_cons_self ..))] at hy
      cases hy
  · simp only [headroom, h]
  · refine ⟨p.wish.scanl (fun s r => (attempt r s).2) s, List.length_scanl, List.head?_scanl, ?_,
      fun a r v v' hr hv hv' => ?_⟩
    · simp only [List.getLast?_scanl, headroom, hp]
    · simpa [List.getElem?_succ_scanl, hr, hv] using hv'.symm
  · rintro hq rfl
    refine ⟨fun y x hp hx => ?_, attempt_unrecorded hq⟩
    intro blocks plan room fits eligible lacking ready
    refine ⟨fun hn => attempt_passesOver hq hp hx fun ⟨he, hr⟩ => hn ⟨patronEligible_iff.mp he, hr⟩,
      fun he hr hl => attempt_lacks hq hp hx (patronEligible_iff.mpr he) hr.1 ?_, fun he hr hl hw hv => ?_⟩
    · exact hl.imp id fun ⟨hpol, h⟩ => ⟨hpol, hr.2 hpol, h⟩
    · obtain ⟨-, -, -, -, hcons, -⟩ := hw
      have hod : x.policy = .onDemand → fits ∨ room ≠ none := fun hpol => by
        by_contra hn
        rw [not_or, not_not] at hn
        exact hl (.inl ⟨hpol, hn⟩)
      have hsh : x.policy = .shelf → room ≠ none ∧ (x.format = .braille → plan.parts ≤ freeConsignments u) :=
        fun hpol => ⟨fun h => hl (.inr ⟨hpol, .inl h⟩), fun hf => Nat.not_lt.mp fun h => hl (.inr ⟨hpol, .inr ⟨hf, h⟩⟩)⟩
      obtain ⟨k, hk, hmade, hin, hnew⟩ := attempt_makes hq hp hx (patronEligible_iff.mpr he) hr.1 hr.2 hcons hv hod hsh
      obtain ⟨c, hc, hline⟩ := hmade.line
      exact ⟨k, c, hk, hc, hline, hin, hnew, hmade.requests, hmade.patron, hmade.title⟩
end

