-- ==== Sys2Proof/Proofs/Orders.lean ====
section
/-! PROOFS. An accepted ORDER (R30): the request joins its lists, and the one attempt made for it. -/

namespace Sys2Proof.Machine

/-! ## The request joins its lists (R24, R30) -/

/-- Request `r` of patron `n` for title `m`, made today, stands at the tails of both lists; nothing else differs but the line. -/
structure RequestAdded (s a : State) (p : Patron) (x : Title) (r n m : Nat) : Prop where
  request : Table.get a.requests r = some { patron := n, title := m, day := s.days.today }
  patron : Table.get a.records.patrons n = some { p with wish := p.wish ++ [r] }
  title : Table.get a.records.titles m = some { x with waiting := x.waiting ++ [r] }
  requests : ∀ j, j ≠ r → Table.get a.requests j = Table.get s.requests j
  patrons : ∀ j, j ≠ n → Table.get a.records.patrons j = Table.get s.records.patrons j
  titles : ∀ j, j ≠ m → Table.get a.records.titles j = Table.get s.records.titles j
  elsewhere : a = { s with
    line := a.line, requests := a.requests, records.patrons := a.records.patrons, records.titles := a.records.titles }

/-- The state in which the attempt for an accepted ORDER is made. -/
def requestAdded (r n m : Nat) (s : State) : State := addRequest r { patron := n, title := m, day := s.days.today } s

theorem Takes.requestAdded {i : Instr} {s s0 : State} {p : Patron} {x : Title} {n m : Nat} (h : Takes i s s0) (r : Nat)
    (hp : Table.get s.records.patrons n = some p) (hx : Table.get s.records.titles m = some x) :
    RequestAdded s (requestAdded r n m s0) p x r n m := by
  have hday : s0.days = s.days := by rw [h.line_only]
  constructor
  case request => simp only [Machine.requestAdded, addRequest, modPatron_requests, modTitle_requests, Table.get_put_same, hday]
  case patron =>
    simp only [Machine.requestAdded, addRequest, modPatron_patrons, modTitle_patrons, Table.get_modify_same, h.records, hp,
      Option.map_some]
  case title =>
    simp only [Machine.requestAdded, addRequest, modPatron_titles, modTitle_titles, Table.get_modify_same, h.records, hx,
      Option.map_some]
  case requests =>
    intro j hj
    simp only [Machine.requestAdded, addRequest, modPatron_requests, modTitle_requests, Table.get_put_other _ _ hj, h.requests]
  case patrons =>
    intro j hj
    simp only [Machine.requestAdded, addRequest, modPatron_patrons, modTitle_patrons, Table.get_modify_other _ _ hj, h.records]
  case titles =>
    intro j hj
    simp only [Machine.requestAdded, addRequest, modPatron_titles, modTitle_titles, Table.get_modify_other _ _ hj, h.records]
  case elsewhere =>
    rw [h.line_only]
    rfl

section Added

variable {s a t : State} {p : Patron} {x : Title} {r n m : Nat}

theorem RequestAdded.assembly (h : RequestAdded s a p x r n m) : a.assembly = s.assembly := by rw [h.elsewhere]
theorem RequestAdded.scheduler (h : RequestAdded s a p x r n m) : a.scheduler = s.scheduler := by rw [h.elsewhere]
theorem RequestAdded.management (h : RequestAdded s a p x r n m) : a.management = s.management := by rw [h.elsewhere]
theorem RequestAdded.days (h : RequestAdded s a p x r n m) : a.days = s.days := by rw [h.elsewhere]

theorem RequestAdded.queueAt (h : RequestAdded s a p x r n m) (l : Nat) : queueAt a l = Machine.queueAt s l := by
  rw [Machine.queueAt, h.scheduler]
  rfl

theorem RequestAdded.accountAt (h : RequestAdded s a p x r n m) (d : Nat) : accountAt a d = Machine.accountAt s d := by
  rw [h.elsewhere]
  rfl

theorem RequestAdded.capacityOf (h : RequestAdded s a p x r n m) (c : Nat) : capacityOf a c = Machine.capacityOf s c := by
  rw [Machine.capacityOf, h.management]
  rfl

theorem RequestAdded.freeConsignments (h : RequestAdded s a p x r n m) :
    freeConsignments a = Machine.freeConsignments s := by
  rw [Machine.freeConsignments, h.assembly, h.management]
  rfl

theorem RequestAdded.resolveWindow (h : RequestAdded s a p x r n m) (wish : List Nat) :
    resolveWindow a (destination a { p with wish := wish }) = Machine.resolveWindow s (destination s p) := by
  rw [h.elsewhere]
  rfl

theorem RequestAdded.planOf (h : RequestAdded s a p x r n m) (wish waiting : List Nat) :
    planOf { p with wish := wish } { x with waiting := waiting } a = Machine.planOf p x s := by
  rw [h.elsewhere]
  rfl

theorem RequestAdded.fits (h : RequestAdded s a p x r n m) (wish waiting : List Nat) :
    FitsOpenPack a { p with wish := wish } { x with waiting := waiting } ↔ FitsOpenPack s p x := by
  unfold FitsOpenPack
  simp only [h.assembly, h.capacityOf]
  rfl

/-- What the attempt leaves of the request and its records, against the state before the ORDER. -/
theorem RequestAdded.granted {p' : Patron} {x' : Title} (h : RequestAdded s a p x r n m) (ht : Allotted a t r n m p' x') :
    ((∀ j, j ≠ r → Table.get t.requests j = Table.get s.requests j) ∧
      (∀ j, j ≠ n → Table.get t.records.patrons j = Table.get s.records.patrons j) ∧
      ∀ j, j ≠ m → Table.get t.records.titles j = Table.get s.records.titles j) ∧
    Table.get t.requests r = none ∧ Table.get t.records.patrons n = some p' ∧ Table.get t.records.titles m = some x' :=
  ⟨⟨fun j hj => (ht.requests j).trans ((if_neg hj).trans (h.requests j hj)),
      fun j hj => (ht.patrons j hj).trans (h.patrons j hj), fun j hj => (ht.titles j hj).trans (h.titles j hj)⟩,
    (ht.requests r).trans (if_pos rfl), ht.patron, ht.title⟩

end Added

/-! ## The ORDER at its owner -/

section Accept

variable {s t : State} {p : Patron} {x : Title} {r n m k : Nat}

/-- The checks passed: the patron is ACTIVE and the title AVAILABLE (checks 4 and 7 of R26). -/
theorem orderChecks_passed (h : orderChecks s n m = none) (hp : Table.get s.records.patrons n = some p)
    (hx : Table.get s.records.titles m = some x) : p.status = .active ∧ x.availability = .available := by
  have hpc : patronChecks s n = none := by
    by_contra hne
    obtain ⟨c, hc⟩ := Option.ne_none_iff_exists'.mp hne
    rw [orderChecks_of_patron hc] at h
    cases h
  rw [orderChecks_present hpc hp] at h
  have hactive : p.status ≠ .suspended := fun hs => by rw [if_pos hs] at h; cases h
  rw [if_neg hactive] at h
  have hrange : ¬(m = 0 ∨ s.management.geometry.t < m) := fun hr => by rw [titleChecks_outside hr] at h; cases h
  rw [titleChecks_eq hrange hx] at h
  have havail : x.availability ≠ .withdrawn := fun hw => by rw [if_pos hw] at h; cases h
  refine ⟨?_, ?_⟩
  · cases hs : p.status
    · rfl
    · exact absurd hs hactive
  · cases ha : x.availability
    · rfl
    · exact absurd ha havail

theorem waitingCount_eq (hx : Table.get s.records.titles m = some x) : waitingCount s m = x.waiting.length := by
  simp only [waitingCount, hx]

theorem acceptOrder_made (h : attempt r (requestAdded r n m s) = (.made k, t)) :
    acceptOrder r n m s = ⟨t, .allocated, bytesLE 2 k ++ bytesLE 2 (waitingCount t m)⟩ := by
  unfold requestAdded at h
  simp only [acceptOrder, h]

theorem acceptOrder_passedOver (h : attempt r (requestAdded r n m s) = (.passedOver, t)) :
    acceptOrder r n m s = ⟨t, .waiting, bytesLE 2 0 ++ bytesLE 2 (waitingCount t m)⟩ := by
  unfold requestAdded at h
  simp only [acceptOrder, h]

theorem acceptOrder_noRecords (h : attempt r (requestAdded r n m s) = (.noRecords, t)) :
    acceptOrder r n m s = ⟨t, .waiting, bytesLE 2 0 ++ bytesLE 2 (waitingCount t m)⟩ := by
  unfold requestAdded at h
  simp only [acceptOrder, h]

theorem examineClose_title (n : Nat) (h : Table.get s.records.titles m = some x) :
    Table.get (examineClose n s).records.titles m = some x := by
  rw [(examineClose_kept n s).frame]
  exact h

end Accept

section Taken

variable {src : Byte} {patron title : U16} {s s0 t : State} {p : Patron} {x : Title} {r k : Nat}

theorem exec_order_accepted (h : OrderAccepted src patron title s s0 p x r) :
    exec (.order src patron title) s =
      .next (replied (.order src patron title) (acceptOrder r patron.toNat title.toNat s0).code
        (acceptOrder r patron.toNat title.toNat s0).fields (settle (acceptOrder r patron.toNat title.toNat s0).state)) := by
  obtain ⟨htakes, hmode, hchecks, hp, hx, hlist, hr⟩ := h
  refine exec_order_service htakes hmode (placeOrder_accepted (htakes.orderChecks.trans hchecks) ?_ ?_)
  · rw [listChecks_eq (p := p) (by rw [htakes.records, hp]), htakes.management, htakes.requests,
      if_neg (Nat.not_le.mpr hlist), if_neg (by rw [hr]; exact Bool.false_ne_true)]
  · rw [htakes.management, htakes.requests, hr]

/-- An accepted ORDER is one attempt in a state `a` where its request stands on both lists (R30), and its answer tells what
became of it (R201). -/
theorem OrderAccepted.attempted (h : OrderAccepted src patron title s s0 p x r) :
    ∃ a, RequestAdded s a p x r patron.toNat title.toNat ∧
      a = { s0 with
        requests := a.requests, records.patrons := a.records.patrons, records.titles := a.records.titles } ∧
      (∀ k t y, attempt r a = (.made k, t) → Table.get t.records.titles title.toNat = some y →
        exec (.order src patron title) s =
          .next (replied (.order src patron title) .allocated (bytesLE 2 k ++ bytesLE 2 y.waiting.length) (settle t))) ∧
      ∀ o t y, o = .passedOver ∨ o = .noRecords → attempt r a = (o, t) →
        Table.get t.records.titles title.toNat = some y →
        exec (.order src patron title) s =
          .next (replied (.order src patron title) .waiting ([0, 0] ++ bytesLE 2 y.waiting.length) (settle t)) := by
  obtain ⟨htakes, -, -, hp, hx, -, -⟩ := id h
  have hexec := exec_order_accepted h
  refine ⟨requestAdded r patron.toNat title.toNat s0, htakes.requestAdded r hp hx, rfl, fun k t y ht hy => ?_,
    fun o t y ho ht hy => ?_⟩
  · rw [hexec, acceptOrder_made ht, waitingCount_eq hy]
  · obtain rfl | rfl := ho
    · rw [hexec, acceptOrder_passedOver ht, waitingCount_eq hy]
      rfl
    · rw [hexec, acceptOrder_noRecords ht, waitingCount_eq hy]
      rfl

end Taken

/-! ## What the allocation leaves elsewhere -/

section Frames

variable {s a t : State} {k r b : Nat} {q : Request} {p : Patron} {x : Title}
variable (ha : a = { s with
  requests := a.requests, records.patrons := a.records.patrons, records.titles := a.records.titles })
include ha

theorem frame_lineAdded :
    let t := lineAdded k r b q a
    t = { s with
      requests := t.requests, records.patrons := t.records.patrons, records.titles := t.records.titles
      assembly.cons := t.assembly.cons } := by
  have ht := lineAdded_frame k r b q a
  generalize lineAdded k r b q a = t at ht ⊢
  rw [ht, ha]

theorem frame_packOpened :
    let t := packOpened k r b q p a
    t = { s with
      requests := t.requests, records.patrons := t.records.patrons, records.titles := t.records.titles
      assembly.cons := t.assembly.cons } := by
  have ht := packOpened_frame k r b q p a
  generalize packOpened k r b q p a = t at ht ⊢
  rw [ht, ha]

theorem frame_copyTaken :
    let t := copyTaken k r q p x a
    t = { s with
      requests := t.requests, records.patrons := t.records.patrons, records.titles := t.records.titles
      assembly.cons := t.assembly.cons, assembly.picks := s.assembly.picks ++ [k], accounts := t.accounts } := by
  have ht := copyTaken_frame k r q p x a
  generalize copyTaken k r q p x a = t at ht ⊢
  rw [ht, ha]

theorem frame_setTaken :
    let t := setTaken k r q p x a
    t = { s with
      requests := t.requests, records.patrons := t.records.patrons, records.titles := t.records.titles
      assembly.cons := t.assembly.cons, assembly.picks := s.assembly.picks ++ [k] } := by
  have ht := setTaken_frame k r q p x a
  generalize setTaken k r q p x a = t at ht ⊢
  rw [ht, ha]

/-- What opening a pack and then sealing it leaves. -/
theorem frame_packOpened_sealed {c c' : Consignment} {y : Patron} (h : SealsPack (packOpened k r b q p a) t k c y c') :
    t = { s with
      requests := t.requests, records.patrons := t.records.patrons, records.titles := t.records.titles
      assembly.cons := t.assembly.cons, assembly.sealedList := t.assembly.sealedList, scheduler.jobs := t.scheduler.jobs
      scheduler.queues := t.scheduler.queues, passDue := t.passDue } := by
  have hu := packOpened_frame k r b q p a
  have ht := h.frame
  generalize packOpened k r b q p a = u at hu ht
  rw [ht, hu, ha]

/-- What sealing a pack and then opening one leaves. -/
theorem frame_sealed_packOpened {c c' : Consignment} {y : Patron} {j : Nat} (h : SealsPack a t j c y c') :
    let u := packOpened k r b q p t
    u = { s with
      requests := u.requests, records.patrons := u.records.patrons, records.titles := u.records.titles
      assembly.cons := u.assembly.cons, assembly.sealedList := u.assembly.sealedList, scheduler.jobs := u.scheduler.jobs
      scheduler.queues := u.scheduler.queues, passDue := u.passDue } := by
  have hu := packOpened_frame k r b q p t
  have ht := h.frame
  generalize packOpened k r b q p t = u at hu ⊢
  rw [hu, ht, ha]

end Frames

/-! ## The attempt made for the order (R37 to R42) -/

section Outcomes

variable {s a : State} {p : Patron} {x : Title} {r n m k : Nat}

/-- The pack that the order opens, against the state before it (R52, R54). -/
theorem RequestAdded.newPack (h : RequestAdded s a p x r n m) (b : Nat) (wish : List Nat) :
    newPack b { patron := n, title := m, day := s.days.today } { p with wish := wish } a =
      { state := .assembling, kind := .pack, patron := n, window := Machine.resolveWindow s (destination s p),
        cartridgeClass := p.cartridgeClass, lines := [{ title := m, origin := s.days.today }], used := 64 + (b + 16),
        openDay := s.days.today } := by
  rw [Machine.newPack, newConsignment, h.resolveWindow, h.days, Nat.add_assoc]
  rfl

/-- The consignment of the copy that the order takes. -/
theorem RequestAdded.copyConsignment (h : RequestAdded s a p x r n m) (wish waiting : List Nat) :
    copyConsignment { patron := n, title := m, day := s.days.today } { p with wish := wish }
        { x with waiting := waiting } a =
      { state := .picking, kind := .shelfAudio, patron := n, window := Machine.resolveWindow s (destination s p),
        cartridgeClass := x.shelfClass, lines := [{ title := m, origin := s.days.today }],
        openDay := s.days.today } := by
  rw [Machine.copyConsignment, newConsignment, h.resolveWindow, h.days]
  rfl

/-- Part `part + 1` of the set that the order takes (R52, R66). -/
theorem RequestAdded.setPart (h : RequestAdded s a p x r n m) (wish : List Nat) (plan : BraillePlan) (v w part : Nat) :
    setPart plan v w (setBase { patron := n, title := m, day := s.days.today } { p with wish := wish } a) k (1 + part) =
      { state := .picking, kind := .braillePart, patron := n, window := Machine.resolveWindow s (destination s p),
        lines := if part = 0 then [{ title := m, origin := s.days.today }] else [], part := part + 1, parts := plan.parts,
        head := k, volumes := volumesIn plan v (part + 1), weight := volumesIn plan v (part + 1) * w,
        overweight := plan.overweight, openDay := s.days.today } := by
  simp only [Machine.setPart, setBase, newConsignment, h.resolveWindow, h.days, Nat.add_comm 1 part, Nat.add_eq_right]
  rfl

/-- The order waits (R37). -/
theorem RequestAdded.attempt_waits (h : RequestAdded s a p x r n m)
    (hw : p.held = true ∨ p.quota ≤ p.charge ∨ (x.policy = .shelf ∧ x.shelf = 0)) : attempt r a = (.passedOver, a) := by
  refine attempt_passesOver h.request h.patron h.title ?_
  rintro ⟨he, -, hs⟩
  obtain ⟨-, hheld, hlt⟩ := patronEligible_iff.mp he
  obtain hw | hw | ⟨hpol, h0⟩ := hw
  · exact Bool.false_ne_true (hheld.symm.trans hw)
  · exact absurd hlt (Nat.not_lt.mpr hw)
  · exact absurd (hs hpol) (by rw [h0]; decide)

variable (h : RequestAdded s a p x r n m) (he : patronEligible p = true) (ha : x.availability = .available)
include h he ha

/-- The order waits for want of consignment records (R42). -/
theorem RequestAdded.attempt_lacks
    (hod : x.policy = .onDemand → ¬FitsOpenPack s p x ∧ Table.lowestFree s.assembly.cons s.management.geometry.c = none)
    (hsh : x.policy = .shelf → 1 ≤ x.shelf ∧ (Table.lowestFree s.assembly.cons s.management.geometry.c = none ∨
      (x.format = .braille ∧ Machine.freeConsignments s < (Machine.planOf p x s).parts))) :
    attempt r a = (.noRecords, latch .poolExhausted n a) := by
  refine Machine.attempt_lacks h.request h.patron h.title he ha ?_
  rw [h.fits, h.assembly, h.management, h.freeConsignments, h.planOf]
  cases hpol : x.policy
  · exact .inl ⟨rfl, hod hpol⟩
  · exact .inr ⟨rfl, hsh hpol⟩

theorem RequestAdded.attempt_joins {c : Consignment} (hpol : x.policy = .onDemand)
    (hc : Table.get s.assembly.cons p.openPack = some c)
    (hf : c.used + titleBlocks x + 16 ≤ Machine.capacityOf s c.cartridgeClass) :
    attempt r a = (.made p.openPack, examineClose n
      (lineAdded p.openPack r (titleBlocks x) { patron := n, title := m, day := s.days.today } a)) := by
  rw [attempt_eligible h.request h.patron h.title he ha, allocateKind_onDemand (x := { x with waiting := x.waiting ++ [r] }) hpol,
    allocateOnDemand_joins (c := c) (by rw [h.assembly, hc]) (by rwa [h.capacityOf]), noteExhausted_made]
  rfl

theorem RequestAdded.attempt_opens (hpol : x.policy = .onDemand) (hc : Table.get s.assembly.cons p.openPack = none)
    (hk : Table.lowestFree s.assembly.cons s.management.geometry.c = some k) :
    attempt r a = (.made k, examineClose n (packOpened k r (titleBlocks x)
      { patron := n, title := m, day := s.days.today } { p with wish := p.wish ++ [r] } a)) := by
  rw [attempt_eligible h.request h.patron h.title he ha, allocateKind_onDemand (x := { x with waiting := x.waiting ++ [r] }) hpol,
    allocateOnDemand_opens (k := k) (by rw [h.assembly, hc]) (by rw [h.assembly, h.management, hk]), noteExhausted_made]
  rfl

theorem RequestAdded.attempt_reopens {c : Consignment} (hpol : x.policy = .onDemand)
    (hc : Table.get s.assembly.cons p.openPack = some c)
    (hf : Machine.capacityOf s c.cartridgeClass < c.used + titleBlocks x + 16)
    (hk : Table.lowestFree s.assembly.cons s.management.geometry.c = some k) :
    attempt r a = (.made k, examineClose n (packOpened k r (titleBlocks x)
      { patron := n, title := m, day := s.days.today } { p with wish := p.wish ++ [r] } (sealPack p.openPack a))) := by
  rw [attempt_eligible h.request h.patron h.title he ha, allocateKind_onDemand (x := { x with waiting := x.waiting ++ [r] }) hpol,
    allocateOnDemand_reopens (k := k) (c := c) (by rw [h.assembly, hc]) (by rw [h.capacityOf]; exact Nat.not_le.mpr hf)
      (by rw [h.assembly, h.management, hk]), noteExhausted_made]
  rfl

theorem RequestAdded.attempt_takesCopy (hpol : x.policy = .shelf) (hs : 1 ≤ x.shelf) (hf : x.format = .audio)
    (hk : Table.lowestFree s.assembly.cons s.management.geometry.c = some k) :
    attempt r a = (.made k, examineClose n (copyTaken k r { patron := n, title := m, day := s.days.today }
      { p with wish := p.wish ++ [r] } { x with waiting := x.waiting ++ [r] } a)) := by
  rw [attempt_eligible h.request h.patron h.title he ha,
    allocateKind_copy (x := { x with waiting := x.waiting ++ [r] }) hpol hs hf,
    allocateShelf_takes (k := k) (by rw [h.assembly, h.management, hk]), noteExhausted_made]

theorem RequestAdded.attempt_takesSet (hpol : x.policy = .shelf) (hs : 1 ≤ x.shelf) (hf : x.format = .braille)
    (hk : Table.lowestFree s.assembly.cons s.management.geometry.c = some k)
    (hparts : (Machine.planOf p x s).parts ≤ Machine.freeConsignments s) :
    attempt r a = (.made k, examineClose n (setTaken k r { patron := n, title := m, day := s.days.today }
      { p with wish := p.wish ++ [r] } { x with waiting := x.waiting ++ [r] } a)) := by
  rw [attempt_eligible h.request h.patron h.title he ha,
    allocateKind_set (x := { x with waiting := x.waiting ++ [r] }) hpol hs hf,
    allocateBraille_takes (k := k) (by rw [h.assembly, h.management, hk])
      (by rwa [h.planOf, h.freeConsignments]), noteExhausted_made]

end Outcomes

/-! ## A pack sealed before or after the allocation -/

section Sealed

variable {a t u : State} {r n m k : Nat} {c c' : Consignment} {p p' y : Patron} {x : Title}

theorem SealsPack.patrons (h : SealsPack a t k c y c') :
    t.records.patrons = Table.modify a.records.patrons c.patron fun x => { x with openPack := 0 } := by rw [h.frame]

theorem SealsPack.requests (h : SealsPack a t k c y c') : t.requests = a.requests := by rw [h.frame]

theorem SealsPack.titles (h : SealsPack a t k c y c') : t.records.titles = a.records.titles := by rw [h.frame]

/-- A seal after the allocation leaves the patron without open pack. -/
theorem SealsPack.allotted_before (h : SealsPack t u k c y c') (hc : c.patron = n) (ht : Allotted a t r n m p x) :
    Allotted a u r n m { p with openPack := 0 } x := by
  refine ⟨fun j => by rw [h.requests, ht.requests], fun j hj => ?_, fun j hj => by rw [h.titles, ht.titles j hj], ?_,
    by rw [h.titles, ht.title]⟩
  · rw [h.patrons, Table.get_modify_other _ _ (hc ▸ hj), ht.patrons j hj]
  · rw [h.patrons, hc, Table.get_modify_same, ht.patron]
    rfl

/-- A seal before the allocation counts with it. -/
theorem SealsPack.allotted_after (h : SealsPack a t k c y c') (hc : c.patron = n) (ht : Allotted t u r n m p x) :
    Allotted a u r n m p x := by
  refine ⟨fun j => by rw [ht.requests, h.requests], fun j hj => ?_, fun j hj => by rw [ht.titles j hj, h.titles], ht.patron,
    ht.title⟩
  rw [ht.patrons j hj, h.patrons, Table.get_modify_other _ _ (hc ▸ hj)]

theorem SealsPack.patron (h : SealsPack a t k c y c') (hc : c.patron = n)
    (hp : Table.get a.records.patrons n = some p) : Table.get t.records.patrons n = some { p with openPack := 0 } := by
  rw [h.patrons, hc, Table.get_modify_same, hp]
  rfl

theorem LinesKept.newPack {s t : State} (h : LinesKept s t) (b : Nat) (q : Request) (p : Patron) :
    newPack b q p t = Machine.newPack b q p s := by
  rw [h.frame]
  rfl

end Sealed

/-! ## The records of a set -/

/-- The set that the order takes stands in the lowest FREE records, in part order (R66). -/
theorem RequestAdded.setTaken_parts {s a : State} {p : Patron} {x : Title} {r n m k : Nat} (h : RequestAdded s a p x r n m)
    (q : Request) (hw : Table.wf s.assembly.cons)
    (hpool : ∀ e ∈ s.assembly.cons, 1 ≤ e.1 ∧ e.1 ≤ s.management.geometry.c)
    (hparts : (Machine.planOf p x s).parts ≤ Machine.freeConsignments s) (wish waiting : List Nat) :
    let free := freeNumbers s.assembly.cons s.management.geometry.c
    let plan := Machine.planOf p x s
    let base := setBase q { p with wish := wish } a
    let t := setTaken k r q { p with wish := wish } { x with waiting := waiting } a
    (∀ part < plan.parts, ∃ j, free[part]? = some j ∧
      Table.get t.assembly.cons j = some (Machine.setPart plan x.volumes x.weight base k (1 + part))) ∧
    ∀ j, j ∉ free.take plan.parts → Table.get t.assembly.cons j = Table.get s.assembly.cons j := by
  intro free plan base t
  have hcons : (freeRequest r q a).assembly.cons = s.assembly.cons := congrArg AssemblyUnit.cons h.assembly
  have hgeometry : (freeRequest r q a).management = s.management := h.management
  have hlen : plan.parts ≤ free.length := by
    rw [freeNumbers_length hw hpool]
    exact hparts
  have hmade := createParts_parts (s := freeRequest r q a) (i := 1) (h := k) (plan := plan) (v := x.volumes) (w := x.weight)
    (c := base) (free := free) (hcons ▸ hw) (by rw [hcons, hgeometry]) hlen
  rw [hcons] at hmade
  have ht : t.assembly.cons =
      (createParts plan.parts 1 k plan x.volumes x.weight base (freeRequest r q a)).assembly.cons := by
    rw [setTaken_assembly, h.planOf]
  rw [ht]
  exact hmade

end Sys2Proof.Machine

open Sys2Proof Sys2Proof.Machine in
/-- Settles O32: each outcome of the attempt made in the state where the request stands on its lists. -/
theorem orderWaitsOrOpensAPack : Obligations.OrderWaitsOrOpensAPack := by
  refine ⟨fun src patron title s s0 p x r hacc => ?_, fun u n q c hq hc => examineClose_eq hq hc⟩
  intro i n m blocks window plan line room fits pack others waits allocated granted
  obtain ⟨htakes, -, hchecks, hp, hx, -, -⟩ := id hacc
  obtain ⟨hactive, havail⟩ := orderChecks_passed hchecks hp hx
  obtain ⟨a, hadd, hframe, hmade, hunmade⟩ := hacc.attempted
  have hquiet : a.passDue = false := by
    rw [hframe]
    exact htakes.noPass
  have hwaiting : (x.waiting ++ [r]).length = x.waiting.length + 1 := List.length_append
  have hwaits : ∀ o t, o = .passedOver ∨ o = .noRecords → attempt r a = (o, t) →
      t = { a with management := t.management } → waits t.management := by
    intro o t ho ht hkeep
    have hpass : NoPassOwed t := by
      rw [hkeep]
      exact hquiet
    have hexec := hunmade o t _ ho ht (by rw [hkeep]; exact hadd.title)
    rw [settle_of_noPass hpass, hwaiting] at hexec
    refine ⟨t, hexec, ?_⟩
    rw [hkeep, hframe]
    rw [hframe] at hadd
    exact ⟨⟨hadd.requests, hadd.patrons, hadd.titles⟩, rfl, hadd.request, hadd.patron, hadd.title⟩
  have hmadeBefore : ∀ k t y, attempt r a = (.made k, examineClose n t) → Table.get t.records.titles m = some y →
      y.waiting = (x.waiting ++ [r]).erase r → allocated k (settle (examineClose n t)) := by
    intro k t y ht hy hw
    have hexec := hmade k _ y ht (examineClose_title n hy)
    rwa [hw] at hexec
  let q : Request := { patron := n, title := m, day := s.days.today }
  let p1 : Patron := { p with wish := p.wish ++ [r] }
  let x1 : Title := { x with waiting := x.waiting ++ [r] }
  refine ⟨fun hw => hadd.management ▸ hwaits _ _ (.inl rfl) (hadd.attempt_waits hw) rfl, fun hheld hquota => ?_⟩
  have he : patronEligible p = true := patronEligible_iff.mpr ⟨hactive, hheld, hquota⟩
  refine ⟨fun hod hsh => ?_, fun c hpol hc hf => ?_, fun k hpol hc hk hlt hhold => ?_, fun k hpol hc hk hclose hw => ?_,
    fun k c hpol hc hasm hcn hf hk hw => ?_,
    fun k hpol hs hk => ⟨fun hf h1 h4 hshelf => ?_, fun hf hv hparts hw hpools => ?_⟩⟩
  · have hlatch : (latch .poolExhausted n a).management = (latch .poolExhausted n s).management := by
      simp only [latch, hadd.management]
    rw [← hlatch]
    exact hwaits _ _ (.inr rfl) (hadd.attempt_lacks he havail hod hsh) rfl
  · have hallot := lineAdded_allotted (q := q) (r := r) p.openPack (titleBlocks x) hadd.patron hadd.title
    refine ⟨lineAdded p.openPack r (titleBlocks x) q a,
      hmadeBefore _ _ _ (hadd.attempt_joins he havail hpol hc hf) hallot.title rfl, hadd.granted hallot,
      frame_lineAdded hframe, ?_, fun j hj => ?_⟩
    · rw [lineAdded_cons, if_pos rfl, hadd.assembly, hc]
      rfl
    · rw [lineAdded_cons, if_neg hj, hadd.assembly]
  · have hallot := packOpened_allotted (q := q) (r := r) (p := p1) k (titleBlocks x) hadd.patron hadd.title
    have hpack := (packOpened_cons k r (titleBlocks x) q p1 a k).trans (if_pos rfl)
    have hexec := hmadeBefore _ _ _ (hadd.attempt_opens he havail hpol hc hk) hallot.title rfl
    have hstays := examineClose_eq hallot.patron hpack
    have hopen : ¬(8 ≤ [lineOf q].length ∨ p.quota ≤ p.charge + 1 ∨ a.management.settings.packHold = 0) := by
      rw [hadd.management, List.length_singleton]
      omega
    have hnoPass : NoPassOwed (packOpened k r (titleBlocks x) q p1 a) := hquiet
    rw [hstays.trans (if_neg hopen), settle_of_noPass hnoPass] at hexec
    rw [hadd.newPack] at hpack
    refine ⟨packOpened k r (titleBlocks x) q p1 a, hexec, hadd.granted hallot, frame_packOpened hframe, hpack,
      fun j hj => ?_⟩
    rw [packOpened_cons, if_neg hj, hadd.assembly]
  · intro priority
    have hallot := packOpened_allotted (q := q) (r := r) (p := p1) k (titleBlocks x) hadd.patron hadd.title
    have hpack := (packOpened_cons k r (titleBlocks x) q p1 a k).trans (if_pos rfl)
    have hexec := hmadeBefore _ _ _ (hadd.attempt_opens he havail hpol hc hk) hallot.title rfl
    rw [← hadd.management] at hclose
    rw [(examineClose_eq hallot.patron hpack).trans (if_pos (.inr hclose))] at hexec
    rw [hadd.newPack] at hpack
    obtain ⟨c', hseal⟩ := sealPack_seals hpack rfl hallot.patron
    refine ⟨sealPack k (packOpened k r (titleBlocks x) q p1 a), c', hexec, hadd.granted (hseal.allotted_before rfl hallot),
      frame_packOpened_sealed hframe hseal, hseal.pack, hseal.fields, fun j hj => ?_, ?_, ?_⟩
    · rw [hseal.others j hj, packOpened_cons, if_neg hj, hadd.assembly]
    · have htakesJob := hseal.takes
      rw [packOpened_sealedList, packOpened_scheduler, packOpened_management, packOpened_queueAt, hadd.assembly,
        hadd.scheduler, hadd.management, hadd.queueAt] at htakesJob
      exact htakesJob
    · have hwaitsJob := hseal.waits
      rw [packOpened_sealedList, packOpened_scheduler, packOpened_management, hadd.assembly, hadd.scheduler,
        hadd.management] at hwaitsJob
      exact hwaitsJob
  · intro priority
    obtain ⟨-, -, -, -, hwf, -⟩ := hw
    obtain ⟨c', hseal⟩ := sealPack_seals (s := a) (k := p.openPack) (p := p1) (by rw [hadd.assembly, hc]) hasm
      (by rw [hcn]; exact hadd.patron)
    have hnew : p.openPack ≠ k := by
      rintro rfl
      rw [lowestFree_get hwf hk] at hc
      cases hc
    have hallot := packOpened_allotted (q := q) (r := r) (p := p1) (s := sealPack p.openPack a) k (titleBlocks x)
      (hseal.patron hcn hadd.patron) (x := x1) (by rw [hseal.titles, hadd.title])
    refine ⟨packOpened k r (titleBlocks x) q p1 (sealPack p.openPack a), c',
      hmadeBefore _ _ _ (hadd.attempt_reopens he havail hpol hc hf hk) hallot.title rfl,
      hadd.granted (hseal.allotted_after hcn hallot), frame_sealed_packOpened hframe hseal, ?_, ?_, hseal.fields,
      fun j hj hjo => ?_, fun j hl hj => ?_, fun hl => ?_⟩
    · rw [packOpened_cons, if_pos rfl, (sealPack_kept _ _).newPack, hadd.newPack]
      rfl
    · rw [packOpened_cons, if_neg hnew, hseal.pack]
    · rw [packOpened_cons, if_neg hj, hseal.others j hjo, hadd.assembly]
    · have htakesJob := hseal.takes j
      rw [hadd.assembly, hadd.scheduler, hadd.management, hadd.queueAt] at htakesJob
      obtain ⟨hstate, hjob, hlist, -, hjobAt, hqueueAt⟩ := htakesJob hl hj
      rw [packOpened_sealedList, packOpened_scheduler, packOpened_queueAt]
      exact ⟨hstate, hjob, hlist, hjobAt, hqueueAt⟩
    · have hwaitsJob := hseal.waits
      rw [hadd.assembly, hadd.scheduler, hadd.management] at hwaitsJob
      rw [packOpened_sealedList, packOpened_scheduler]
      exact hwaitsJob hl
  · have hallot := copyTaken_allotted (q := q) (r := r) (p := p1) k (z := x1) hadd.patron hadd.title
    refine ⟨copyTaken k r q p1 x1 a,
      hmadeBefore _ _ _ (hadd.attempt_takesCopy he havail hpol hs hf hk) hallot.title rfl, hadd.granted hallot, ?_, ?_,
      fun j hj => ?_, ?_, fun d hd => ?_⟩
    · rw [← htakes.assembly]
      exact frame_copyTaken hframe
    · rw [copyTaken_cons, if_pos rfl, hadd.copyConsignment]
    · rw [copyTaken_cons, if_neg hj, hadd.assembly]
    · rw [← hadd.accountAt] at hshelf ⊢
      exact copyTaken_account k r q p1 x1 _ h1 h4 hshelf
    · exact (copyTaken_account_other k r q p1 x1 _ hd).trans (hadd.accountAt d)
  · have hallot := setTaken_allotted (q := q) (r := r) (p := p1) k (z := x1) hadd.patron hadd.title
    obtain ⟨-, -, -, -, hwf, -⟩ := hw
    obtain ⟨-, -, -, hpool, -⟩ := hpools
    obtain ⟨hset, hrest⟩ := hadd.setTaken_parts (k := k) q hwf hpool hparts (p.wish ++ [r]) (x.waiting ++ [r])
    refine ⟨setTaken k r q p1 x1 a,
      hmadeBefore _ _ _ (hadd.attempt_takesSet he havail hpol hs hf hk hparts) hallot.title rfl, hadd.granted hallot, ?_,
      fun part hpart => ?_, hrest⟩
    · rw [← htakes.assembly]
      exact frame_setTaken hframe
    · obtain ⟨j, hj, hget⟩ := hset part hpart
      rw [hadd.setPart] at hget
      refine ⟨j, hj, fun h0 => ?_, hget⟩
      subst h0
      rw [← List.head?_eq_getElem?, ← lowestFree_eq_head? hwf] at hj
      exact Option.some.inj (hj.symm.trans hk)
end

