-- ==== Sys2Proof/Proofs/Releases.lean ====
section
/-! PROOFS. What a frame taken in a reply turn finds (R198), what release passes leave (R105, R107, R108), how several
consignments are freed (R53), and what a restored or dropped line leaves in each record (R47, R48). -/

namespace Sys2Proof.Machine

/-! ## A frame in its turn -/

section InTurn

variable {station : Nat} {s s1 : State}

theorem reloadTimer_frame (station : Nat) (s : State) :
    reloadTimer station s = { s with scheduler.bays := (reloadTimer station s).scheduler.bays } := by
  unfold reloadTimer
  split
  · rfl
  · split_ifs <;> rfl

theorem InTurn.frame (h : InTurn station s s1) :
    s1 = { s with line := s1.line, scheduler.bays := s1.scheduler.bays } := by
  obtain ⟨-, -, -, -, h1⟩ := h
  have hr := reloadTimer_frame station (setMissed station 0 (endTurn (endReception s)))
  rw [← h1] at hr
  rw [hr]
  rfl

theorem InTurn.assembly (h : InTurn station s s1) : s1.assembly = s.assembly := by rw [h.frame]
theorem InTurn.records (h : InTurn station s s1) : s1.records = s.records := by rw [h.frame]
theorem InTurn.requests (h : InTurn station s s1) : s1.requests = s.requests := by rw [h.frame]
theorem InTurn.dispatch (h : InTurn station s s1) : s1.dispatch = s.dispatch := by rw [h.frame]
theorem InTurn.accounts (h : InTurn station s s1) : s1.accounts = s.accounts := by rw [h.frame]
theorem InTurn.management (h : InTurn station s s1) : s1.management = s.management := by rw [h.frame]
theorem InTurn.returns (h : InTurn station s s1) : s1.returns = s.returns := by rw [h.frame]
theorem InTurn.days (h : InTurn station s s1) : s1.days = s.days := by rw [h.frame]
theorem InTurn.jobs (h : InTurn station s s1) : s1.scheduler.jobs = s.scheduler.jobs := by rw [h.frame]
theorem InTurn.queues (h : InTurn station s s1) : s1.scheduler.queues = s.scheduler.queues := by rw [h.frame]

theorem InTurn.accountAt (h : InTurn station s s1) (c : Nat) : accountAt s1 c = Machine.accountAt s c := by
  rw [Machine.accountAt, h.accounts, Machine.accountAt]

theorem InTurn.passDue (h : InTurn station s s1) : s1.passDue = false := by
  rw [h.frame]
  exact h.1

end InTurn

/-! ## Accounts -/

/-- What one class account reads after a change of one. -/
theorem accountAt_modAccount (c : Nat) (f : ClassAccount → ClassAccount) (s : State) (d : Nat) :
    accountAt (modAccount c f s) d = if d = c ∧ 1 ≤ d ∧ d ≤ 4 then f (accountAt s d) else accountAt s d := by
  by_cases hd : d = c
  · subst hd
    by_cases hr : 1 ≤ d ∧ d ≤ 4
    · rw [if_pos ⟨rfl, hr⟩]
      exact bankGet_modify_same s.accounts d f _ hr
    · rw [if_neg fun h => hr h.2]
      exact congrArg (fun v : Vector ClassAccount 4 => bankGet v d {}) (dif_neg hr)
  · rw [if_neg fun h => hd h.1]
    exact bankGet_modify_other s.accounts f _ hd

/-! ## Release passes -/

section Release

variable {s t u : State} {k : Nat}

/-- Consignment `j` stands as it was, or was READY and is RELEASING (R108). -/
def KeptOrReleasing (s t : State) (j : Nat) : Prop :=
  Table.get t.assembly.cons j = Table.get s.assembly.cons j ∨
    ∃ x, Table.get s.assembly.cons j = some x ∧ x.state = .ready ∧
      Table.get t.assembly.cons j = some { x with state := .releasing }

theorem KeptOrReleasing.trans {j : Nat} (h : KeptOrReleasing s t j) (g : KeptOrReleasing t u j) :
    KeptOrReleasing s u j := by
  obtain hg | ⟨x, hx, hr, hu⟩ := g
  · exact h.imp hg.trans fun ⟨y, hy, hr, ht⟩ => ⟨y, hy, hr, hg.trans ht⟩
  · obtain hh | ⟨y, -, -, ht⟩ := h
    · exact .inr ⟨x, hh ▸ hx, hr, hu⟩
    · rw [ht, Option.some_inj] at hx
      subst hx
      cases hr

/-- A release pass puts frames on the floor, outstanding releases, and READY consignments to RELEASING; nothing else. -/
structure Released (s t : State) : Prop where
  frame : t = { s with
    line.floorTx := t.line.floorTx, line.contended := t.line.contended, assembly.cons := t.assembly.cons
    dispatch.outstanding := t.dispatch.outstanding }
  cons : ∀ j, KeptOrReleasing s t j

theorem Released.refl (s : State) : Released s s := ⟨rfl, fun _ => .inl rfl⟩

theorem Released.trans (h : Released s t) (g : Released t u) : Released s u where
  frame := by rw [g.frame, h.frame]
  cons j := (h.cons j).trans (g.cons j)

theorem releaseOne_released {c : Consignment} (hc : Table.get s.assembly.cons k = some c) (hr : c.state = .ready) :
    Released s (releaseOne k c s) where
  frame := rfl
  cons j := by
    have hget : Table.get (releaseOne k c s).assembly.cons j =
        Table.get (Table.modify s.assembly.cons k fun x => { x with state := .releasing }) j := rfl
    rw [KeptOrReleasing, hget, Table.get_modify]
    split_ifs with hj
    · subst hj
      exact .inr ⟨c, hc, hr, by rw [hc]; rfl⟩
    · exact .inl rfl

theorem releasable_ready {c : Consignment} (h : releasable s k = true) (hc : Table.get s.assembly.cons k = some c) :
    c.state = .ready := by
  simp only [releasable, hc, Bool.and_eq_true, decide_eq_true_eq] at h
  obtain ⟨⟨hready, -⟩, -⟩ := h
  exact hready

theorem releaseUpTo_released (n ahead : Nat) (s : State) : Released s (releaseUpTo n ahead s) := by
  induction n generalizing s with
  | zero => exact .refl s
  | succ n ih =>
    unfold releaseUpTo
    split_ifs
    · split
      · exact .refl s
      · next k hk =>
        split
        · exact .refl s
        · next c hc => exact (releaseOne_released hc (releasable_ready (List.find?_some hk) hc)).trans (ih _)
    · exact .refl s

theorem passReleases_released (s : State) : Released s (passReleases s) := releaseUpTo_released _ _ s

/-- The consignments of `ks` are READY at the tail of the ready queue, or released since; any other READY one may have been
released. -/
structure AllReadied (ks : List Nat) (s t : State) : Prop where
  frame : t = { s with
    line.floorTx := t.line.floorTx, line.contended := t.line.contended, assembly.cons := t.assembly.cons
    dispatch.ready := s.dispatch.ready ++ ks, dispatch.outstanding := t.dispatch.outstanding }
  others : ∀ j, j ∉ ks → KeptOrReleasing s t j
  readied : ∀ j x, j ∈ ks → Table.get s.assembly.cons j = some x →
    ∃ st, (st = .ready ∨ st = .releasing) ∧ Table.get t.assembly.cons j = some { x with state := st }

/-- Consignment `k` READY at the tail of the ready queue, before the release pass (R105). -/
def readyQueued (k : Nat) (s : State) : State :=
  modCons k (fun c => { c with state := .ready }) { s with dispatch.ready := s.dispatch.ready ++ [k] }

theorem consignmentReady_eq (k : Nat) (s : State) : consignmentReady k s = passReleases (readyQueued k s) := rfl

theorem readyQueued_frame (k : Nat) (s : State) :
    readyQueued k s = { s with
      assembly.cons := (readyQueued k s).assembly.cons, dispatch.ready := s.dispatch.ready ++ [k] } := rfl

theorem readyQueued_cons (k : Nat) (s : State) (j : Nat) :
    Table.get (readyQueued k s).assembly.cons j =
      if j = k then (Table.get s.assembly.cons j).map fun c => { c with state := .ready }
      else Table.get s.assembly.cons j := by
  refine Eq.trans ?_ (Table.get_modify s.assembly.cons k j _)
  rfl

theorem consignmentReady_readied (k : Nat) (s : State) : AllReadied [k] s (consignmentReady k s) := by
  have hq := readyQueued_frame k s
  have hr := passReleases_released (readyQueued k s)
  rw [consignmentReady_eq]
  refine ⟨?_, fun j hj => ?_, fun j x hj hx => ?_⟩
  · have hf := hr.frame
    generalize passReleases (readyQueued k s) = t at hf ⊢
    generalize readyQueued k s = q at hf hq
    rw [hf, hq]
  · rw [List.mem_singleton] at hj
    have hcons := hr.cons j
    rwa [KeptOrReleasing, readyQueued_cons, if_neg hj] at hcons
  · rw [List.mem_singleton] at hj
    obtain h | ⟨y, hy, -, ht⟩ := hr.cons j
    · exact ⟨.ready, .inl rfl, by rw [h, readyQueued_cons, if_pos hj, hx]; rfl⟩
    · rw [readyQueued_cons, if_pos hj, hx] at hy
      obtain rfl := Option.some.inj hy
      exact ⟨.releasing, .inr rfl, ht⟩

theorem AllReadied.append {ks js : List Nat} (h : AllReadied ks s t) (g : AllReadied js t u) :
    AllReadied (ks ++ js) s u where
  frame := by rw [g.frame, h.frame, List.append_assoc]
  others j hj := by
    rw [List.mem_append, not_or] at hj
    exact (h.others j hj.1).trans (g.others j hj.2)
  readied j x hj hx := by
    rw [List.mem_append] at hj
    by_cases hk : j ∈ ks
    · obtain ⟨st, hst, ht⟩ := h.readied j x hk hx
      by_cases hjs : j ∈ js
      · obtain ⟨st', hst', hu⟩ := g.readied j _ hjs ht
        exact ⟨st', hst', hu⟩
      · obtain hg | ⟨y, hy, -, hu⟩ := g.others j hjs
        · exact ⟨st, hst, hg.trans ht⟩
        · rw [ht, Option.some_inj] at hy
          subst hy
          exact ⟨.releasing, .inr rfl, hu⟩
    · have hjs := hj.resolve_left hk
      obtain hh | ⟨y, hy, -, ht⟩ := h.others j hk
      · exact g.readied j x hjs (hh.trans hx)
      · rw [hx, Option.some_inj] at hy
        subst hy
        obtain ⟨st', hst', hu⟩ := g.readied j _ hjs ht
        exact ⟨st', hst', hu⟩

theorem allReady_readied (ks : List Nat) (s : State) : AllReadied ks s (allReady ks s) := by
  induction ks generalizing s with
  | nil => exact ⟨by rw [List.append_nil]; rfl, fun _ _ => .inl rfl, by simp⟩
  | cons k ks ih => exact (consignmentReady_readied k s).append (ih _)

end Release

/-! ## Serials -/

section Serials

variable {s : State} {ks : List Nat} {serial : U32}

theorem writeSerials_frame (ks : List Nat) (serial : U32) (s : State) :
    writeSerials ks serial s = { s with assembly.cons := (writeSerials ks serial s).assembly.cons } := by
  induction ks generalizing s with
  | nil => rfl
  | cons k ks ih =>
    have h := ih (modCons k (fun c => { c with serial := some serial }) s)
    exact h.trans rfl

theorem writeSerials_cons (ks : List Nat) (serial : U32) (s : State) (j : Nat) :
    Table.get (writeSerials ks serial s).assembly.cons j =
      if j ∈ ks then (Table.get s.assembly.cons j).map fun x => { x with serial := some serial }
      else Table.get s.assembly.cons j := by
  induction ks generalizing s with
  | nil => rfl
  | cons k ks ih =>
    refine (ih _).trans ?_
    rw [modCons_cons, Table.get_modify]
    by_cases hk : j = k
    · subst hk
      rw [if_pos rfl, if_pos (List.mem_cons_self ..), Option.map_map]
      split_ifs <;> rfl
    · simp only [if_neg hk, List.mem_cons, or_iff_right hk]

end Serials

/-! ## Several records freed (R53) -/

section FreeAll

variable {s : State} {n : Nat} {p : Patron}

theorem freeConsignment_frame (k : Nat) (s : State) :
    freeConsignment k s = { s with
      records.patrons := (freeConsignment k s).records.patrons, assembly.cons := (freeConsignment k s).assembly.cons } := by
  cases hc : Table.get s.assembly.cons k with
  | none => rw [freeConsignment_absent hc]
  | some c => rw [freeConsignment_eq hc]

theorem freeAll_frame (ks : List Nat) (s : State) :
    freeAll ks s = { s with
      records.patrons := (freeAll ks s).records.patrons, assembly.cons := (freeAll ks s).assembly.cons } := by
  induction ks generalizing s with
  | nil => rfl
  | cons k ks ih =>
    have h := ih (freeConsignment k s)
    have hk := freeConsignment_frame k s
    have hcons : freeAll (k :: ks) s = freeAll ks (freeConsignment k s) := rfl
    rw [hcons]
    generalize freeAll ks (freeConsignment k s) = t at h ⊢
    generalize freeConsignment k s = u at h hk
    rw [h, hk]

theorem freeAll_cons (ks : List Nat) (s : State) (j : Nat) :
    Table.get (freeAll ks s).assembly.cons j = if j ∈ ks then none else Table.get s.assembly.cons j := by
  induction ks generalizing s with
  | nil => rfl
  | cons k ks ih =>
    refine (ih (freeConsignment k s)).trans ?_
    rw [freeConsignment_cons]
    by_cases hk : j = k <;> by_cases hks : j ∈ ks <;> simp [hk, hks]

/-- Nothing of a patron differs but its chain and its open pack. -/
theorem freeAll_patron (ks : List Nat) (hp : Table.get s.records.patrons n = some p) :
    ∃ ch o, Table.get (freeAll ks s).records.patrons n = some { p with chain := ch, openPack := o } := by
  induction ks generalizing s p with
  | nil => exact ⟨p.chain, p.openPack, hp⟩
  | cons k ks ih =>
    have hstep : ∃ ch o, Table.get (freeConsignment k s).records.patrons n = some { p with chain := ch, openPack := o } := by
      cases hc : Table.get s.assembly.cons k with
      | none => exact ⟨p.chain, p.openPack, by rw [freeConsignment_absent hc, hp]⟩
      | some c =>
        rw [freeConsignment_patron hc, hp]
        split_ifs
        · exact ⟨_, _, rfl⟩
        · exact ⟨p.chain, p.openPack, rfl⟩
    obtain ⟨ch, o, hk⟩ := hstep
    obtain ⟨ch', o', hks⟩ := ih hk
    exact ⟨ch', o', hks⟩

/-- Records of one patron, each once: they leave its chain, one after another, and no other patron differs. -/
theorem freeAll_chain {ks : List Nat} (hnd : ks.Nodup)
    (hall : ∀ i ∈ ks, ∃ e, Table.get s.assembly.cons i = some e ∧ e.patron = n)
    (hp : Table.get s.records.patrons n = some p) :
    Table.get (freeAll ks s).records.patrons n =
        some { p with chain := ks.foldl List.erase p.chain, openPack := if p.openPack ∈ ks then 0 else p.openPack } ∧
      ∀ m, m ≠ n → Table.get (freeAll ks s).records.patrons m = Table.get s.records.patrons m := by
  induction ks generalizing s p with
  | nil => exact ⟨hp, fun _ _ => rfl⟩
  | cons k ks ih =>
    rw [List.nodup_cons] at hnd
    obtain ⟨c, hc, hcn⟩ := hall k (List.mem_cons_self ..)
    have hpk : Table.get (freeConsignment k s).records.patrons n =
        some { p with chain := p.chain.erase k, openPack := if p.openPack = k then 0 else p.openPack } := by
      rw [freeConsignment_patron hc, if_pos hcn.symm, hp]
      rfl
    have hrest : ∀ i ∈ ks, ∃ e, Table.get (freeConsignment k s).assembly.cons i = some e ∧ e.patron = n := fun i hi => by
      rw [freeConsignment_cons, if_neg fun h : i = k => hnd.1 (h ▸ hi)]
      exact hall i (List.mem_cons_of_mem k hi)
    obtain ⟨hpatron, hothers⟩ := ih hnd.2 hrest hpk
    refine ⟨hpatron.trans ?_, fun m hm => (hothers m hm).trans ?_⟩
    · by_cases hok : p.openPack = k <;> by_cases hoks : p.openPack ∈ ks <;> simp [hok, hoks]
    · rw [freeConsignment_patron hc, if_neg (hcn ▸ hm)]

end FreeAll

/-! ## Lines restored and dropped (R47, R48) -/

section Restore

variable {s : State} {n prev r : Nat} {l : Line}

/-- Line `l` restored as request `r` of patron `n`, behind `prev` on the wish list. -/
def lineRestored (n prev r : Nat) (l : Line) (s : State) : State :=
  ungrant n l.title
    (modPatron n (fun p => { p with wish := insertAfter p.wish prev r })
      (modTitle l.title (fun t => { t with waiting := r :: t.waiting })
        { s with requests := Table.put s.requests r { patron := n, title := l.title, day := l.origin } }))

/-- Line `l` of patron `n` dropped. -/
def lineDropped (n : Nat) (l : Line) (s : State) : State := latch .restoreDropped n (ungrant n l.title s)

theorem restoreLines_nil (n prev : Nat) (s : State) : restoreLines n prev [] s = s := rfl

theorem restoreLines_restored (rest : List Line) (hr : Table.lowestFree s.requests s.management.geometry.q = some r) :
    restoreLines n prev (l :: rest) s = restoreLines n r rest (lineRestored n prev r l s) := by
  simp only [restoreLines, hr]
  rfl

theorem restoreLines_dropped (rest : List Line) (hr : Table.lowestFree s.requests s.management.geometry.q = none) :
    restoreLines n prev (l :: rest) s = restoreLines n prev rest (lineDropped n l s) := by
  simp only [restoreLines, hr]
  rfl

theorem lineRestored_frame (n prev r : Nat) (l : Line) (s : State) :
    lineRestored n prev r l s = { s with
      requests := (lineRestored n prev r l s).requests, records.patrons := (lineRestored n prev r l s).records.patrons
      records.titles := (lineRestored n prev r l s).records.titles } := rfl

theorem lineRestored_requests (n prev r : Nat) (l : Line) (s : State) :
    (lineRestored n prev r l s).requests =
      Table.put s.requests r { patron := n, title := l.title, day := l.origin } := rfl

theorem lineRestored_patron (n prev r : Nat) (l : Line) (s : State) (j : Nat) :
    Table.get (lineRestored n prev r l s).records.patrons j =
      if j = n then (Table.get s.records.patrons j).map fun p =>
        { p with wish := insertAfter p.wish prev r, charge := p.charge - 1 }
      else Table.get s.records.patrons j := by
  rw [lineRestored, ungrant_patron, modPatron_patrons, modTitle_patrons, Table.get_modify]
  split_ifs
  · rw [Option.map_map]
    rfl
  · rfl

theorem lineRestored_title (n prev r : Nat) (l : Line) (s : State) (m : Nat) :
    Table.get (lineRestored n prev r l s).records.titles m = (Table.get s.records.titles m).map fun x =>
      { x with
        waiting := if m = l.title then r :: x.waiting else x.waiting
        out := if m = l.title ∧ x.policy = .onDemand then x.out - 1 else x.out } := by
  rw [lineRestored, ungrant_title, modPatron_titles, modTitle_titles, Table.get_modify]
  by_cases h : m = l.title
  · rw [if_pos h, Option.map_map]
    refine Option.map_congr fun x _ => ?_
    by_cases hp : x.policy = .onDemand <;> simp [h, hp]
  · simp [h]

theorem lineDropped_frame (n : Nat) (l : Line) (s : State) :
    lineDropped n l s = { s with
      records.patrons := (lineDropped n l s).records.patrons, records.titles := (lineDropped n l s).records.titles
      management := (latch .restoreDropped n s).management } := rfl

theorem lineDropped_patron (n : Nat) (l : Line) (s : State) (j : Nat) :
    Table.get (lineDropped n l s).records.patrons j =
      if j = n then (Table.get s.records.patrons j).map fun p => { p with charge := p.charge - 1 }
      else Table.get s.records.patrons j := ungrant_patron n l.title j

theorem lineDropped_title (n : Nat) (l : Line) (s : State) (m : Nat) :
    Table.get (lineDropped n l s).records.titles m = (Table.get s.records.titles m).map fun x =>
      if m = l.title ∧ x.policy = .onDemand then { x with out := x.out - 1 } else x := ungrant_title n l.title m

end Restore

end Sys2Proof.Machine
end

