-- ==== Sys2Proof/Proofs/Picking.lean ====
section
/-! PROOFS. The answers of the pick station (R69 to R71). -/

namespace Sys2Proof.Machine

section Picking

variable {s : State} {k : Nat} {c : Consignment} {l : Line} {more : List Line}

/-- The pick lists once the pick of consignment `k` has ended (R69 step 1). -/
def pickEnded (s : State) (k : Nat) : List Nat × Nat :=
  if k ∈ s.assembly.picks then (s.assembly.picks.erase k, s.assembly.picksSent)
  else (s.assembly.picks, s.assembly.picksSent - 1)

theorem endPick_eq (k : Nat) (s : State) :
    endPick k s = { s with assembly.picks := (pickEnded s k).1, assembly.picksSent := (pickEnded s k).2 } := by
  unfold endPick pickEnded
  split_ifs <;> rfl

theorem pickingOf_eq (hc : Table.get s.assembly.cons k = some c) (hp : c.state = .picking) (hl : c.lines = l :: more) :
    pickingOf s k = some (c, l) := by
  simp only [pickingOf, hc, hl, if_pos hp]

theorem pickingOf_none (h : ∀ c, Table.get s.assembly.cons k = some c → c.state ≠ .picking ∨ c.lines = []) :
    pickingOf s k = none := by
  unfold pickingOf
  split
  · rfl
  next c hc =>
  split
  · rfl
  next hl => exact if_neg fun hp => (h c hc).elim (· hp) fun h0 => by rw [hl] at h0; cases h0

theorem takePicked_eq (hc : pickingOf s k = some (c, l)) (serial : U32) :
    takePicked k serial s =
      allReady (wholeConsignment s k c) (writeSerials (wholeConsignment s k c) serial (endPick k s)) := by
  simp only [takePicked, hc]

theorem takeNotFound_eq (hc : pickingOf s k = some (c, l)) :
    takeNotFound k s =
      latch .pickShort l.title
        (handOver c.patron (openLines c) (freeAll (wholeConsignment s k c) (writeOffCopy c l.title (endPick k s)))) := by
  simp only [takeNotFound, hc]

theorem setParts_mem {j : Nat} (h : j ∈ setParts s k) : ∃ x, Table.get s.assembly.cons j = some x :=
  Option.isSome_iff_exists.mp
    (Table.get_isSome_iff.mpr ((List.filter_sublist.map Prod.fst).subset h))

theorem setParts_nodup (hw : Table.wf s.assembly.cons) (k : Nat) : (setParts s k).Nodup :=
  ((List.Pairwise.sublist (List.filter_sublist.map _) hw)).imp Nat.ne_of_lt

theorem wholeConsignment_nodup (hw : Table.wf s.assembly.cons) : (wholeConsignment s k c).Nodup := by
  unfold wholeConsignment
  split_ifs
  · exact setParts_nodup hw k
  · exact List.nodup_singleton k

theorem wholeConsignment_mem (hc : Table.get s.assembly.cons k = some c) {j : Nat} (h : j ∈ wholeConsignment s k c) :
    ∃ x, Table.get s.assembly.cons j = some x := by
  unfold wholeConsignment at h
  split_ifs at h
  · exact setParts_mem h
  · exact ⟨c, List.mem_singleton.mp h ▸ hc⟩

end Picking

/-! ## PICKED (R69) -/

section Picked

variable {s : State} {k : Nat} {c : Consignment} {serial : U32}

/-- The consignments `ks` with their serial, the pick of `k` ended. -/
def serialsWritten (k : Nat) (ks : List Nat) (serial : U32) (s : State) : State := writeSerials ks serial (endPick k s)

theorem serialsWritten_frame (k : Nat) (ks : List Nat) (serial : U32) (s : State) :
    serialsWritten k ks serial s = { s with
      assembly.cons := (serialsWritten k ks serial s).assembly.cons, assembly.picks := (pickEnded s k).1
      assembly.picksSent := (pickEnded s k).2 } := by
  have hw := writeSerials_frame ks serial (endPick k s)
  have he := endPick_eq k s
  unfold serialsWritten
  generalize writeSerials ks serial (endPick k s) = t at hw ⊢
  generalize endPick k s = u at hw he
  rw [hw, he]

theorem serialsWritten_cons (k : Nat) (ks : List Nat) (serial : U32) (s : State) (j : Nat) :
    Table.get (serialsWritten k ks serial s).assembly.cons j =
      if j ∈ ks then (Table.get s.assembly.cons j).map fun x => { x with serial := some serial }
      else Table.get s.assembly.cons j := by
  refine (writeSerials_cons ks serial (endPick k s) j).trans ?_
  rw [endPick_eq]

/-- A SHELF_AUDIO consignment picked stands READY at the tail of the ready queue, with its serial. -/
theorem readyQueued_serialsWritten (hc : Table.get s.assembly.cons k = some c) (j : Nat) :
    Table.get (readyQueued k (serialsWritten k [k] serial s)).assembly.cons j =
      if j = k then some { c with serial := some serial, state := .ready } else Table.get s.assembly.cons j := by
  rw [readyQueued_cons]
  split_ifs with hj
  · subst hj
    rw [serialsWritten_cons, if_pos (List.mem_singleton_self j), hc]
    rfl
  · rw [serialsWritten_cons, if_neg (by rwa [List.mem_singleton])]

theorem readyQueued_serialsWritten_frame (k : Nat) (serial : U32) (s : State) :
    let t := readyQueued k (serialsWritten k [k] serial s)
    t = { s with
      assembly.cons := t.assembly.cons, assembly.picks := (pickEnded s k).1, assembly.picksSent := (pickEnded s k).2
      dispatch.ready := s.dispatch.ready ++ [k] } := by
  have hq := readyQueued_frame k (serialsWritten k [k] serial s)
  have hw := serialsWritten_frame k [k] serial s
  generalize readyQueued k (serialsWritten k [k] serial s) = t at hq ⊢
  generalize serialsWritten k [k] serial s = u at hq hw
  rw [hq, hw]

/-- Every part of a set picked is READY at the tail of the ready queue, or released since, with its copy number. -/
theorem allReady_serialsWritten_frame (k : Nat) (ks : List Nat) (serial : U32) (s : State) :
    let t := allReady ks (serialsWritten k ks serial s)
    t = { s with
      line.floorTx := t.line.floorTx, line.contended := t.line.contended, assembly.cons := t.assembly.cons
      assembly.picks := (pickEnded s k).1, assembly.picksSent := (pickEnded s k).2
      dispatch.ready := s.dispatch.ready ++ ks, dispatch.outstanding := t.dispatch.outstanding } := by
  have hq := (allReady_readied ks (serialsWritten k ks serial s)).frame
  have hw := serialsWritten_frame k ks serial s
  generalize allReady ks (serialsWritten k ks serial s) = t at hq ⊢
  generalize serialsWritten k ks serial s = u at hq hw
  rw [hq, hw]

end Picked

/-! ## NOT_FOUND (R70) -/

section NotFound

variable {s : State} {k : Nat} {c : Consignment} {l : Line} {ks : List Nat}

/-- The lost copy written off and its consignments `ks` freed, the pick of `k` ended (R70 steps 1 to 3). -/
def copyLost (k : Nat) (ks : List Nat) (c : Consignment) (title : Nat) (s : State) : State :=
  freeAll ks (writeOffCopy c title (endPick k s))

theorem writeOffCopy_frame (c : Consignment) (title : Nat) (s : State) :
    writeOffCopy c title s = { s with
      records.titles := Table.modify s.records.titles title fun t => { t with copies := t.copies - 1, out := t.out - 1 }
      accounts := (writeOffCopy c title s).accounts } := by
  unfold writeOffCopy
  split_ifs <;> rfl

theorem writeOffCopy_accountAt (c : Consignment) (title : Nat) (s : State) (d : Nat) :
    accountAt (writeOffCopy c title s) d =
      if c.kind = .shelfAudio ∧ d = c.cartridgeClass ∧ 1 ≤ d ∧ d ≤ 4 then
        ClassAccount.writeOff .consigned 1 (accountAt s d)
      else accountAt s d := by
  by_cases hk : c.kind = .shelfAudio
  · simp only [writeOffCopy, hk, if_true, true_and]
    exact accountAt_modAccount _ _ _ d
  · simp only [writeOffCopy, hk, false_and, if_false]
    rfl

theorem copyLost_frame (k : Nat) (ks : List Nat) (c : Consignment) (title : Nat) (s : State) :
    let t := copyLost k ks c title s
    t = { s with
      records.patrons := t.records.patrons
      records.titles := Table.modify s.records.titles title fun x => { x with copies := x.copies - 1, out := x.out - 1 }
      assembly.cons := t.assembly.cons, assembly.picks := (pickEnded s k).1, assembly.picksSent := (pickEnded s k).2
      accounts := t.accounts } := by
  have hf := freeAll_frame ks (writeOffCopy c title (endPick k s))
  have hw := writeOffCopy_frame c title (endPick k s)
  have he := endPick_eq k s
  unfold copyLost
  generalize freeAll ks (writeOffCopy c title (endPick k s)) = t at hf ⊢
  generalize writeOffCopy c title (endPick k s) = u at hf hw
  generalize endPick k s = v at hw he
  rw [hf, hw, he]

/-- A lost set leaves every class account as it was. -/
theorem copyLost_accounts (k : Nat) (ks : List Nat) (title : Nat) (s : State) (hc : c.kind ≠ .shelfAudio) :
    (copyLost k ks c title s).accounts = s.accounts := by
  rw [copyLost, freeAll_frame, writeOffCopy, if_neg hc, endPick_eq]
  rfl

theorem copyLost_before (k : Nat) (c : Consignment) (title : Nat) (s : State) :
    (writeOffCopy c title (endPick k s)).assembly.cons = s.assembly.cons ∧
      (writeOffCopy c title (endPick k s)).records.patrons = s.records.patrons := by
  rw [writeOffCopy_frame, endPick_eq]
  exact ⟨rfl, rfl⟩

theorem copyLost_cons (k : Nat) (ks : List Nat) (c : Consignment) (title : Nat) (s : State) (j : Nat) :
    Table.get (copyLost k ks c title s).assembly.cons j = if j ∈ ks then none else Table.get s.assembly.cons j := by
  rw [copyLost, freeAll_cons, (copyLost_before k c title s).1]

theorem copyLost_patron {n : Nat} {p : Patron} (k : Nat) (ks : List Nat) (c : Consignment) (title : Nat)
    (hp : Table.get s.records.patrons n = some p) :
    ∃ ch o, Table.get (copyLost k ks c title s).records.patrons n = some { p with chain := ch, openPack := o } :=
  freeAll_patron ks (by rw [(copyLost_before k c title s).2, hp])

theorem copyLost_chain {n : Nat} {p : Patron} (k : Nat) (c : Consignment) (title : Nat) (hnd : ks.Nodup)
    (hall : ∀ i ∈ ks, ∃ e, Table.get s.assembly.cons i = some e ∧ e.patron = n)
    (hp : Table.get s.records.patrons n = some p) :
    Table.get (copyLost k ks c title s).records.patrons n =
        some { p with chain := ks.foldl List.erase p.chain, openPack := if p.openPack ∈ ks then 0 else p.openPack } ∧
      ∀ m, m ≠ n → Table.get (copyLost k ks c title s).records.patrons m = Table.get s.records.patrons m := by
  obtain ⟨hcons, hpat⟩ := copyLost_before k c title s
  have hchain := freeAll_chain (s := writeOffCopy c title (endPick k s)) (p := p) (n := n) hnd (by rwa [hcons])
    (by rw [hpat, hp])
  rwa [hpat] at hchain

theorem copyLost_accountAt (k : Nat) (ks : List Nat) (c : Consignment) (title : Nat) (s : State) (d : Nat) :
    accountAt (copyLost k ks c title s) d =
      if c.kind = .shelfAudio ∧ d = c.cartridgeClass ∧ 1 ≤ d ∧ d ≤ 4 then
        ClassAccount.writeOff .consigned 1 (accountAt s d)
      else accountAt s d := by
  rw [copyLost, freeAll_frame]
  refine (writeOffCopy_accountAt c title (endPick k s) d).trans ?_
  rw [endPick_eq]
  rfl

/-- What one hand-over of one line of a SHELF title leaves: the line restored at the heads, or dropped (R47, R48). -/
structure LineHandedOver (s t : State) (n : Nat) (l : Line) (p : Patron) (x : Title) (wish : List Nat) : Prop where
  frame : t = { s with
    requests := t.requests, records.patrons := t.records.patrons, records.titles := t.records.titles
    management := t.management }
  patron : Table.get t.records.patrons n = some { p with charge := p.charge - 1, wish := wish }
  patrons : ∀ j, j ≠ n → Table.get t.records.patrons j = Table.get s.records.patrons j
  titles : ∀ m, m ≠ l.title → Table.get t.records.titles m = Table.get s.records.titles m
  restored : ∀ r, Table.lowestFree s.requests s.management.geometry.q = some r →
    t.management = s.management ∧ wish = insertAfter p.wish 0 r ∧
    Table.get t.records.titles l.title = some { x with waiting := r :: x.waiting } ∧
    Table.get t.requests r = some { patron := n, title := l.title, day := l.origin } ∧
    ∀ o, o ≠ r → Table.get t.requests o = Table.get s.requests o
  dropped : Table.lowestFree s.requests s.management.geometry.q = none →
    t.management = (latch .restoreDropped n s).management ∧ wish = p.wish ∧
    Table.get t.records.titles l.title = some x ∧ t.requests = s.requests

theorem restoreLines_one {n : Nat} {p : Patron} {x : Title} (hp : Table.get s.records.patrons n = some p)
    (hx : Table.get s.records.titles l.title = some x) (hs : x.policy = .shelf) :
    ∃ wish, LineHandedOver s (restoreLines n 0 [l] s) n l p x wish := by
  have hpol : ¬x.policy = .onDemand := by rw [hs]; decide
  cases hr : Table.lowestFree s.requests s.management.geometry.q with
  | some r =>
    rw [restoreLines_restored [] hr, restoreLines_nil]
    refine ⟨insertAfter p.wish 0 r, rfl, ?_, fun j hj => ?_, fun m hm => ?_, fun r' hr' => ?_, by simp [hr]⟩
    · rw [lineRestored_patron, if_pos rfl, hp]
      rfl
    · rw [lineRestored_patron, if_neg hj]
    · rw [lineRestored_title]
      simp [hm]
    · obtain rfl := Option.some.inj (hr.symm.trans hr')
      refine ⟨rfl, rfl, ?_, ?_, fun o ho => ?_⟩
      · rw [lineRestored_title, hx]
        simp [hpol]
      · rw [lineRestored_requests, Table.get_put_same]
      · rw [lineRestored_requests, Table.get_put_other _ _ ho]
  | none =>
    rw [restoreLines_dropped [] hr, restoreLines_nil]
    refine ⟨p.wish, rfl, ?_, fun j hj => ?_, fun m hm => ?_, by simp [hr], fun _ => ⟨rfl, rfl, ?_, rfl⟩⟩
    · rw [lineDropped_patron, if_pos rfl, hp]
      rfl
    · rw [lineDropped_patron, if_neg hj]
    · rw [lineDropped_title]
      simp [hm]
    · rw [lineDropped_title, hx]
      simp [hpol]

theorem insertAfter_zero_mem (wish : List Nat) (r : Nat) : r ∈ insertAfter wish 0 r := by
  unfold insertAfter
  split_ifs with h
  · exact List.mem_flatMap.mpr ⟨0, h, by simp⟩
  · exact List.mem_cons_self ..

theorem insertAfter_absent {wish : List Nat} {n : Nat} (h : n ∉ wish) (r : Nat) : insertAfter wish n r = r :: wish :=
  if_neg h

end NotFound

/-! ## At the Assembly Unit -/

section AtUnit

variable {src : Byte} {consignment : U16} {s s1 : State}

theorem exec_picked (h : AtUnit .pickStation src.toNat s s1) (serial : U32) :
    exec (.picked src consignment serial) s = .next (settle (takePicked consignment.toNat serial s1)) := by
  have he : exec (.picked src consignment serial) s =
      unitFrame (.picked src consignment serial) .pickStation (takePicked consignment.toNat serial) s := rfl
  rw [he]
  exact unitFrame_atUnit _ rfl h

theorem exec_notFound (h : AtUnit .pickStation src.toNat s s1) :
    exec (.notFound src consignment) s = .next (settle (takeNotFound consignment.toNat s1)) := by
  have he : exec (.notFound src consignment) s =
      unitFrame (.notFound src consignment) .pickStation (takeNotFound consignment.toNat) s := rfl
  rw [he]
  exact unitFrame_atUnit _ rfl h

end AtUnit

end Sys2Proof.Machine

open Sys2Proof Sys2Proof.Machine in
/-- Settles O38: PICKED readies the consignment or its parts in order; NOT_FOUND writes the copy off, frees, and hands the one
line over. -/
theorem pickAnswersAreTaken : Obligations.PickAnswersAreTaken := by
  intro src consignment serial s s1 hat
  have hturn := hat.1
  have hpass : s1.passDue = false := hturn.passDue
  have hcons : s1.assembly = s.assembly := hturn.assembly
  intro k ended
  have hended : pickEnded s1 k = ended := by rw [pickEnded, hcons]
  have hparts : setParts s1 k = setParts s k := by rw [setParts, hcons, setParts]
  have hqueue : s1.dispatch.ready = s.dispatch.ready := by rw [hturn.dispatch]
  refine ⟨fun c l more hc hp hl => ?_, fun h => ?_⟩
  · have hpick : pickingOf s1 k = some (c, l) := pickingOf_eq (by rw [hcons, hc]) hp hl
    refine ⟨fun hk => ?_, fun hk => ?_, fun p x hkind hopen hmore hpat hx hpol => ?_⟩
    · have hwhole : wholeConsignment s1 k c = [k] := if_neg (by rw [hk]; decide)
      have htaken := takePicked_eq hpick serial
      rw [hwhole] at htaken
      have hquiet : NoPassOwed (passReleases (readyQueued k (serialsWritten k [k] serial s1))) := by
        unfold NoPassOwed
        rw [(passReleases_released _).frame, readyQueued_serialsWritten_frame]
        exact hpass
      have hframe := readyQueued_serialsWritten_frame k serial s1
      have hget := readyQueued_serialsWritten (s := s1) (serial := serial) (by rw [hcons, hc])
      rw [hended, hqueue] at hframe
      refine ⟨readyQueued k (serialsWritten k [k] serial s1), ?_, hframe, (hget k).trans (if_pos rfl), fun j hj => ?_⟩
      · rw [exec_picked hat, htaken]
        exact congrArg Host.Outcome.next (settle_of_noPass hquiet)
      · rw [hget j, if_neg hj, hcons]
    · have hwhole : wholeConsignment s1 k c = setParts s k := (if_pos hk).trans hparts
      have htaken := takePicked_eq hpick serial
      rw [hwhole] at htaken
      have hready := allReady_readied (setParts s k) (serialsWritten k (setParts s k) serial s1)
      have hframe := allReady_serialsWritten_frame k (setParts s k) serial s1
      have huframe := serialsWritten_frame k (setParts s k) serial s1
      have hget := serialsWritten_cons k (setParts s k) serial s1
      rw [hended] at hframe huframe
      rw [hqueue] at hframe
      rw [hcons] at hget
      have hquiet : NoPassOwed (allReady (setParts s k) (serialsWritten k (setParts s k) serial s1)) := by
        unfold NoPassOwed
        rw [hframe]
        exact hpass
      refine ⟨serialsWritten k (setParts s k) serial s1,
        allReady (setParts s k) (serialsWritten k (setParts s k) serial s1), ?_, huframe, hget, rfl, hframe, fun j hj => ?_,
        fun j hj => ?_⟩
      · rw [exec_picked hat, htaken]
        exact congrArg Host.Outcome.next (settle_of_noPass hquiet)
      · obtain ⟨x, hx⟩ := setParts_mem hj
        obtain ⟨st, hst, ht⟩ := hready.readied j { x with serial := some serial } hj (by rw [hget, if_pos hj, hx]; rfl)
        exact ⟨x, st, hx, hst, ht⟩
      · have hother := hready.others j hj
        rwa [KeptOrReleasing, hget, if_neg hj] at hother
    · intro freed left
      have hwhole : wholeConsignment s1 k c = freed := by rw [wholeConsignment, hparts]
      have hopenLines : openLines c = [l] := by simp [openLines, hl, hmore, hopen]
      have htaken := takeNotFound_eq hpick
      rw [hwhole, hopenLines] at htaken
      have hlost := copyLost_frame k freed c l.title s1
      have hlostCons := copyLost_cons k freed c l.title s1
      have hlostAccounts := copyLost_accounts (c := c) k freed l.title s1
      have hlostAccount := copyLost_accountAt k freed c l.title s1
      obtain ⟨ch, o, hlostPatron⟩ := copyLost_patron (s := s1) k freed c l.title (by rw [hturn.records, hpat])
      have hchain := fun hnd hall =>
        copyLost_chain (s := s1) (ks := freed) k c l.title hnd hall (by rw [hturn.records, hpat])
      have hshort : takeNotFound k s1 =
          latch .pickShort l.title (headroom c.patron (restoreLines c.patron 0 [l] (copyLost k freed c l.title s1))) := htaken
      rw [hended] at hlost
      rw [hcons] at hlostCons hchain
      rw [hturn.records] at hchain
      generalize copyLost k freed c l.title s1 = w at *
      have hrecords : w.records.titles = Table.modify s.records.titles l.title fun x =>
          { x with copies := x.copies - 1, out := x.out - 1 } := by rw [hlost, hturn.records]
      have hleft : Table.get w.records.titles l.title = some left := by
        rw [hrecords, Table.get_modify_same, hx]
        rfl
      have hrequests : w.requests = s.requests := by rw [hlost, hturn.requests]
      have hmanagement : w.management = s.management := by rw [hlost, hturn.management]
      have hagencies : w.records.agencies = s.records.agencies := by rw [hlost, hturn.records]
      obtain ⟨wish, hover⟩ := restoreLines_one hlostPatron hleft hpol
      generalize restoreLines c.patron 0 [l] w = t at *
      have hframe : t = { s1 with
          records := t.records, requests := t.requests, accounts := t.accounts, assembly := t.assembly
          management := t.management } := by
        have hf := hover.frame
        generalize t = u at hf ⊢
        rw [hf, hlost]
      have hsealed : s1.assembly.sealedList = s.assembly.sealedList := by rw [hcons]
      have hassembly : t.assembly = w.assembly := by rw [hover.frame]
      have haccounts : ∀ d, accountAt t d = accountAt w d := fun d => by
        rw [hover.frame]
        rfl
      refine ⟨t, _, ?_, hframe, fun j => ?_, ?_, ?_, ?_, hover.patron, rfl, rfl, fun hk => ?_, fun hw hall => ?_,
        fun m hm => ?_, ?_, fun hk => ?_, fun hk d => ?_, fun r hr => ?_, fun hr => ?_⟩
      · rw [exec_notFound hat, hshort]
      · rw [hassembly, hlostCons]
      · rw [hassembly, hlost]
      · rw [hassembly, hlost]
      · rw [hassembly, hlost]
        exact hsealed
      · have hfreed : freed = [k] := if_neg (by rw [hk]; decide)
        rw [hfreed] at hchain
        obtain ⟨hch, -⟩ := hchain (List.nodup_singleton k) fun i hi => ⟨c, List.mem_singleton.mp hi ▸ hc, rfl⟩
        rw [hlostPatron, Option.some_inj] at hch
        refine ⟨congrArg Patron.chain hch, (congrArg Patron.openPack hch).trans ?_⟩
        simp only [List.mem_singleton]
      · obtain ⟨-, -, -, -, hwf, -⟩ := hw
        have hnd : freed.Nodup := by
          rw [← hwhole]
          exact wholeConsignment_nodup (hcons ▸ hwf)
        obtain ⟨hch, hothers⟩ := hchain hnd fun i hi => by
          obtain ⟨e, he⟩ := wholeConsignment_mem (s := s1) (c := c) (by rw [hcons, hc]) (hwhole ▸ hi)
          rw [hcons] at he
          exact ⟨e, he, hall i hi e he⟩
        rw [hlostPatron, Option.some_inj] at hch
        exact ⟨congrArg Patron.chain hch, congrArg Patron.openPack hch, fun n hn => (hover.patrons n hn).trans (hothers n hn)⟩
      · rw [hover.titles m hm, hrecords, Table.get_modify_other _ _ hm]
      · rw [hover.frame]
        exact hagencies
      · refine Eq.trans (b := w.accounts) (by rw [hover.frame]) ?_
        rw [hlostAccounts (by rw [hk]; decide), hturn.accounts]
      · rw [haccounts, hlostAccount, hturn.accountAt]
        simp only [hk, true_and]
      · rw [← hrequests, ← hmanagement] at hr
        obtain ⟨hman, hwish, htitle, hreq, hothers⟩ := hover.restored r hr
        refine ⟨hman.trans hmanagement, hwish ▸ insertAfter_zero_mem p.wish r,
          fun h0 => hwish.trans (insertAfter_absent h0 r), htitle, hreq, fun j hj => ?_⟩
        rw [hothers j hj, hrequests]
      · rw [← hrequests, ← hmanagement] at hr
        obtain ⟨hman, hwish, htitle, hreq⟩ := hover.dropped hr
        refine ⟨?_, hwish, htitle, hreq.trans hrequests⟩
        rw [hman, latch, latch, hmanagement]
  · have hnone : pickingOf s1 k = none := pickingOf_none fun c hc => h c (by rw [← hcons, hc])
    have hquiet : settle s1 = s1 := settle_of_noPass hpass
    refine ⟨?_, ?_⟩
    · rw [exec_picked hat, takePicked, hnone]
      exact congrArg Host.Outcome.next hquiet
    · rw [exec_notFound hat, takeNotFound, hnone]
      exact congrArg Host.Outcome.next hquiet
end

