-- ==== Sys2Proof/Proofs/BayWork.lean ====
section
/-! PROOFS. What a bay's work (next work, a pre-emptor, a placement pass) leaves of the jobs, the accounts and the other units
(R80 to R82, R87, R92, R93). -/

namespace Sys2Proof.Machine

/-- Nothing differs but the line, the jobs with their queues and bays, the accounts, the notices and the pass owed; no job
record is taken, each keeps its priority and its retry mark, and its offset or 0; no cartridge is consigned or sent to repair. -/
structure BayWork (s t : State) : Prop where
  frame : t = { s with
    line := t.line, scheduler := t.scheduler, accounts := t.accounts, management := t.management, passDue := t.passDue }
  absent : ∀ i, Table.get s.scheduler.jobs i = none → Table.get t.scheduler.jobs i = none
  jobs : ∀ i x, Table.get s.scheduler.jobs i = some x → ∃ y, Table.get t.scheduler.jobs i = some y ∧
    y.retry = x.retry ∧ y.priority = x.priority ∧ (y.offset = x.offset ∨ y.offset = 0)
  counts : ∀ d, (accountAt t d).consigned = (accountAt s d).consigned ∧ (accountAt t d).repair = (accountAt s d).repair

namespace BayWork

variable {s t u : State}

theorem refl (s : State) : BayWork s s :=
  ⟨rfl, fun _ => id, fun _ x h => ⟨x, h, rfl, rfl, .inl rfl⟩, fun _ => ⟨rfl, rfl⟩⟩

theorem trans (h : BayWork s t) (g : BayWork t u) : BayWork s u where
  frame := by rw [g.frame, h.frame]
  absent i hi := g.absent i (h.absent i hi)
  jobs i x hx := by
    obtain ⟨y, hy, hyr, hyp, hyo⟩ := h.jobs i x hx
    obtain ⟨z, hz, hzr, hzp, hzo⟩ := g.jobs i y hy
    refine ⟨z, hz, hzr.trans hyr, hzp.trans hyp, ?_⟩
    obtain hzo | hzo := hzo
    · rwa [hzo]
    · exact .inr hzo
  counts d := ⟨(g.counts d).1.trans (h.counts d).1, (g.counts d).2.trans (h.counts d).2⟩

theorem foldl {β : Type} (f : State → β → State) (hf : ∀ s b, BayWork s (f s b)) (l : List β) (s : State) :
    BayWork s (l.foldl f s) := by
  induction l generalizing s with
  | nil => exact refl s
  | cons b l ih => exact (hf s b).trans (ih _)

/-- Work that leaves the jobs and the accounts as they are. -/
theorem of_same (hf : t = { s with
      line := t.line, scheduler := t.scheduler, accounts := t.accounts, management := t.management, passDue := t.passDue })
    (hj : t.scheduler.jobs = s.scheduler.jobs) (ha : t.accounts = s.accounts) : BayWork s t where
  frame := hf
  absent i hi := by rwa [hj]
  jobs i x hx := ⟨x, by rwa [hj], rfl, rfl, .inl rfl⟩
  counts d := by
    have hd : accountAt t d = accountAt s d := by rw [accountAt, ha, accountAt]
    rw [hd]
    exact ⟨rfl, rfl⟩

theorem modBay (b : Nat) (f : Bay → Bay) (s : State) : BayWork s (modBay b f s) := of_same rfl rfl rfl

theorem modQueue (l : Nat) (f : List Nat → List Nat) (s : State) : BayWork s (modQueue l f s) := of_same rfl rfl rfl

theorem latch (n : NoticeId) (x : Nat) (s : State) : BayWork s (latch n x s) := of_same rfl rfl rfl

theorem passDue (b : Bool) (s : State) : BayWork s { s with passDue := b } := of_same rfl rfl rfl

theorem toFloor (f : Frame) (s : State) : BayWork s (toFloor f s) := of_same rfl rfl rfl

/-- A job's state, bay, serial and offset change. -/
theorem modJob (j : Nat) (f : Job → Job) (hf : ∀ x, (f x).retry = x.retry ∧ (f x).priority = x.priority ∧
    ((f x).offset = x.offset ∨ (f x).offset = 0)) (s : State) : BayWork s (modJob j f s) where
  frame := rfl
  absent i hi := by
    rw [modJob_jobs, Table.get_modify, hi]
    split_ifs <;> rfl
  jobs i x hx := by
    rw [modJob_jobs, Table.get_modify, hx]
    split_ifs
    · exact ⟨f x, rfl, hf x⟩
    · exact ⟨x, rfl, rfl, rfl, .inl rfl⟩
  counts _ := ⟨rfl, rfl⟩

/-- A blank is reserved (R81). -/
theorem reserve (c : Nat) (s : State) : BayWork s (modAccount c (ClassAccount.move .blank .reserved 1) s) where
  frame := rfl
  absent _ := id
  jobs _ x hx := ⟨x, hx, rfl, rfl, .inl rfl⟩
  counts d := by
    rw [accountAt_modAccount]
    unfold ClassAccount.move
    split_ifs <;> exact ⟨rfl, rfl⟩

theorem loadTimer (b : Nat) (s : State) : BayWork s (loadTimer b s) := modBay b _ s

theorem dropOwed (b : Nat) (s : State) : BayWork s (dropOwed b s) := modBay b _ s

theorem makeCommand (b : Nat) (f : Frame) (s : State) : BayWork s (makeCommand b f s) := by
  unfold Machine.makeCommand
  split_ifs
  · exact (toFloor f s).trans (loadTimer b _)
  · exact toFloor f s
  · exact modBay b _ s

theorem dequeue (j : Nat) (s : State) : BayWork s (dequeue j s) := by
  unfold Machine.dequeue
  split
  · exact refl s
  · exact modQueue _ _ s

theorem queueHead (j : Nat) (s : State) : BayWork s (queueHead j s) := by
  unfold Machine.queueHead
  split
  · exact refl s
  · exact ((modJob j _ (by intro; exact ⟨rfl, rfl, .inl rfl⟩) s).trans (modQueue _ _ _)).trans (passDue true _)

theorem placeOn (b j : Nat) (s : State) : BayWork s (placeOn b j s) := by
  unfold Machine.placeOn
  split
  · exact refl s
  · exact (((((dequeue j s).trans (modJob j _ (by intro; exact ⟨rfl, rfl, .inr rfl⟩) _)).trans (reserve _ _)).trans
      (modBay b _ _)).trans (loadTimer b _)).trans (makeCommand b _ _)

theorem preemptOn (b j : Nat) (s : State) : BayWork s (preemptOn b j s) :=
  ((((dequeue j s).trans (modJob j _ (by intro; exact ⟨rfl, rfl, .inl rfl⟩) _)).trans (modBay b _ _)).trans
    (loadTimer b _)).trans (makeCommand b _ _)

theorem tryPlace (s : State) (j : Nat) : BayWork s (tryPlace s j) := by
  unfold Machine.tryPlace
  split
  · exact refl s
  · split_ifs
    · exact latch _ _ s
    · split
      · exact placeOn _ _ s
      · split
        · exact preemptOn _ _ s
        · exact refl s

theorem settle (s : State) : BayWork s (settle s) := by
  unfold Machine.settle
  split_ifs
  · exact (foldl _ tryPlace _ s).trans (passDue false _)
  · exact refl s

theorem chooseWork (b least : Nat) (js : List Nat) (s : State) : BayWork s (chooseWork b least js s).2 := by
  induction js generalizing s with
  | nil => exact refl s
  | cons j rest ih =>
    unfold Machine.chooseWork
    split
    · exact ih s
    · split_ifs
      · exact (latch _ _ s).trans (ih _)
      · exact refl s
      · exact ih s

theorem resumeOn (b j : Nat) (s : State) : BayWork s (resumeOn b j s) := by
  unfold Machine.resumeOn
  split
  · exact refl s
  · exact (((modJob j _ (by intro; exact ⟨rfl, rfl, .inl rfl⟩) s).trans (modBay b _ _)).trans (loadTimer b _)).trans
      (makeCommand b _ _)

theorem idleBay (b : Nat) (s : State) : BayWork s (idleBay b s) := (modBay b _ s).trans (passDue true _)

/-- Next work places, resumes or idles, whichever the choice gives (R92). -/
theorem nextWork (b : Nat) (s : State) : BayWork s (nextWork b s) := by
  unfold Machine.nextWork
  split
  · next top _ _ =>
    have hchoice := chooseWork b (priorityOf s top + 1) (placementOrder s) s
    split
    · next j v hv =>
      rw [hv] at hchoice
      exact hchoice.trans (placeOn b j v)
    · next v hv =>
      rw [hv] at hchoice
      exact hchoice.trans (resumeOn b top v)
  · have hchoice := chooseWork b 0 (placementOrder s) s
    split
    · next j v hv =>
      rw [hv] at hchoice
      exact hchoice.trans (placeOn b j v)
    · next v hv =>
      rw [hv] at hchoice
      exact hchoice.trans (idleBay b v)

theorem loadPreemptor (b : Nat) (s : State) : BayWork s (loadPreemptor b s) := by
  unfold Machine.loadPreemptor
  have hfreed := modBay b (fun bay => { bay with preemptor := 0 }) s
  simp only
  split
  · exact hfreed.trans (nextWork b _)
  · split_ifs
    · exact ((hfreed.trans (latch _ _ _)).trans (queueHead _ _)).trans (nextWork b _)
    · exact hfreed.trans (placeOn b _ _)

theorem afterJob (b : Nat) (s : State) : BayWork s (afterJob b s) := by
  have hended := (modBay b (fun bay => { bay with active := 0 }) s).trans (dropOwed b _)
  unfold Machine.afterJob
  simp only
  split_ifs
  · exact (hended.trans (loadPreemptor b _)).trans (passDue true _)
  · exact (hended.trans (nextWork b _)).trans (passDue true _)

theorem assembly (h : BayWork s t) : t.assembly = s.assembly := by rw [h.frame]
theorem dispatch (h : BayWork s t) : t.dispatch = s.dispatch := by rw [h.frame]
theorem records (h : BayWork s t) : t.records = s.records := by rw [h.frame]
theorem requests (h : BayWork s t) : t.requests = s.requests := by rw [h.frame]
theorem returns (h : BayWork s t) : t.returns = s.returns := by rw [h.frame]
theorem days (h : BayWork s t) : t.days = s.days := by rw [h.frame]

end BayWork

end Sys2Proof.Machine
end

