-- ==== Sys2Proof/Proofs/HandOver.lean ====
section
/-! PROOFS. The hand-over of a failed consignment's lines (R47, R48): restored in order while FREE request records last, dropped
after. -/

namespace Sys2Proof.Machine

/-- The wish list with `x` behind the one place of `k`. -/
theorem insertAfter_split {pre post : List Nat} {k : Nat} (hpre : k ∉ pre) (hpost : k ∉ post) (x : Nat) :
    insertAfter (pre ++ k :: post) k x = pre ++ k :: x :: post := by
  have hkeep : ∀ l : List Nat, k ∉ l → (l.flatMap fun y => if y = k then [y, x] else [y]) = l := by
    intro l hl
    induction l with
    | nil => rfl
    | cons y l ih =>
      rw [List.mem_cons, not_or] at hl
      rw [List.flatMap_cons, if_neg (Ne.symm hl.1), ih hl.2]
      rfl
  rw [insertAfter, if_pos (by simp), List.flatMap_append, List.flatMap_cons, if_pos rfl, hkeep pre hpre, hkeep post hpost]
  rfl

/-- The notices after `ls` lines of patron `n` have been dropped. -/
def linesDropped (n : Nat) (ls : List Line) (s : State) : State := ls.foldl (fun w _ => latch .restoreDropped n w) s

theorem linesDropped_management {s t : State} (h : t.management = s.management) (n : Nat) (ls : List Line) :
    (linesDropped n ls t).management = (linesDropped n ls s).management := by
  induction ls generalizing s t with
  | nil => exact h
  | cons l ls ih =>
    refine ih (s := latch .restoreDropped n s) (t := latch .restoreDropped n t) ?_
    simp only [latch, h]

/-- Of `lines` of patron `n`, whose record was `p`, the first became the requests `rs`, and the others were dropped; the wish list
is `wish`. -/
structure HandedOver (s t : State) (n : Nat) (p : Patron) (lines : List Line) (rs wish : List Nat) : Prop where
  frame : t = { s with
    requests := t.requests, records.patrons := t.records.patrons, records.titles := t.records.titles
    management := (linesDropped n (lines.drop rs.length) s).management }
  restored : ∀ (a r : Nat) (l : Line), rs[a]? = some r → lines[a]? = some l →
    Table.get t.requests r = some { patron := n, title := l.title, day := l.origin }
  requests : ∀ r, r ∉ rs → Table.get t.requests r = Table.get s.requests r
  patron : Table.get t.records.patrons n = some { p with wish := wish, charge := p.charge - lines.length }
  patrons : ∀ j, j ≠ n → Table.get t.records.patrons j = Table.get s.records.patrons j
  titles : ∀ m, Table.get t.records.titles m = (Table.get s.records.titles m).map fun x =>
    { x with
      waiting := (((rs.zip lines).filter fun e => decide (e.2.title = m)).map Prod.fst).reverse ++ x.waiting
      out := if x.policy = .onDemand then x.out - lines.countP fun l => decide (l.title = m) else x.out }

section Steps

variable {s t : State} {n prev r : Nat} {p : Patron} {l : Line} {lines : List Line} {rs wish : List Nat}

theorem HandedOver.nil (hp : Table.get s.records.patrons n = some p) : HandedOver s s n p [] [] p.wish where
  frame := rfl
  restored a r l hr := by simp at hr
  requests _ _ := rfl
  patron := hp
  patrons _ _ := rfl
  titles m := by
    cases Table.get s.records.titles m with
    | none => rfl
    | some x => simp

/-- A restored line before the others. -/
theorem HandedOver.cons_restored (hr : r ∉ rs)
    (h : HandedOver (lineRestored n prev r l s) t n { p with wish := insertAfter p.wish prev r, charge := p.charge - 1 }
      lines rs wish) : HandedOver s t n p (l :: lines) (r :: rs) wish where
  frame := by
    have hf := h.frame
    rw [linesDropped_management (s := s) (t := lineRestored n prev r l s) rfl] at hf
    rw [List.length_cons, List.drop_succ_cons]
    generalize (linesDropped n (lines.drop rs.length) s).management = man at hf ⊢
    have hl := lineRestored_frame n prev r l s
    generalize lineRestored n prev r l s = u at hf hl
    rw [hf, hl]
  restored a r' l' hr' hl' := by
    cases a with
    | zero =>
      simp only [List.getElem?_cons_zero, Option.some_inj] at hr' hl'
      subst hr' hl'
      rw [h.requests _ hr, lineRestored_requests, Table.get_put_same]
    | succ a => exact h.restored a r' l' hr' hl'
  requests r' hr' := by
    rw [List.mem_cons, not_or] at hr'
    rw [h.requests r' hr'.2, lineRestored_requests, Table.get_put_other _ _ hr'.1]
  patron := by
    rw [h.patron, List.length_cons, Nat.sub_sub, Nat.add_comm 1]
  patrons j hj := by rw [h.patrons j hj, lineRestored_patron, if_neg hj]
  titles m := by
    rw [h.titles m, lineRestored_title, Option.map_map]
    refine Option.map_congr fun x _ => ?_
    obtain rfl | hm := eq_or_ne l.title m
    · by_cases hx : x.policy = .onDemand <;> simp [hx, Nat.sub_sub, Nat.add_comm]
    · simp [hm, hm.symm]

/-- A dropped line before others that are dropped too. -/
theorem HandedOver.cons_dropped
    (h : HandedOver (lineDropped n l s) t n { p with charge := p.charge - 1 } lines [] wish) :
    HandedOver s t n p (l :: lines) [] wish where
  frame := by
    have hf := h.frame
    rw [linesDropped_management (s := latch .restoreDropped n s) (t := lineDropped n l s) rfl] at hf
    have hd : linesDropped n ((l :: lines).drop ([] : List Nat).length) s =
        linesDropped n (lines.drop ([] : List Nat).length) (latch .restoreDropped n s) := rfl
    rw [hd]
    generalize (linesDropped n (lines.drop ([] : List Nat).length) (latch .restoreDropped n s)).management = man at hf ⊢
    have hl := lineDropped_frame n l s
    generalize lineDropped n l s = u at hf hl
    rw [hf, hl]
  restored a r l hr := by simp at hr
  requests r hr := h.requests r hr
  patron := by
    rw [h.patron, List.length_cons, Nat.sub_sub, Nat.add_comm 1]
  patrons j hj := by rw [h.patrons j hj, lineDropped_patron, if_neg hj]
  titles m := by
    rw [h.titles m, lineDropped_title, Option.map_map]
    refine Option.map_congr fun x _ => ?_
    obtain rfl | hm := eq_or_ne l.title m
    · by_cases hx : x.policy = .onDemand <;> simp [hx, Nat.sub_sub, Nat.add_comm]
    · simp [hm, hm.symm]

end Steps

/-- The lines go, in order, to the lowest FREE request records, and stand together on the wish list where the first is put. -/
theorem restoreLines_handedOver {s : State} {n prev : Nat} {p : Patron} {lines : List Line} {pre post free : List Nat}
    (hw : Table.wf s.requests) (hp : Table.get s.records.patrons n = some p) (hwish : p.wish = pre ++ post)
    (hput : ∀ r, insertAfter p.wish prev r = pre ++ r :: post)
    (hfree : freeNumbers s.requests s.management.geometry.q = free) (hnew : ∀ r ∈ free.take lines.length, r ∉ p.wish) :
    HandedOver s (restoreLines n prev lines s) n p lines (free.take lines.length)
      (pre ++ free.take lines.length ++ post) := by
  induction lines generalizing s prev p pre free with
  | nil =>
    rw [List.length_nil, List.take_zero, List.append_nil, ← hwish]
    exact .nil hp
  | cons l lines ih =>
    match free with
    | [] =>
      have hnone : Table.lowestFree s.requests s.management.geometry.q = none := by
        rw [lowestFree_eq_head? hw, hfree]
        rfl
      rw [restoreLines_dropped lines hnone]
      have hp' : Table.get (lineDropped n l s).records.patrons n = some { p with charge := p.charge - 1 } := by
        rw [lineDropped_patron, if_pos rfl, hp]
        rfl
      have hrest := ih (s := lineDropped n l s) (prev := prev) (pre := pre) (free := []) hw hp' hwish hput hfree
        (by simp)
      rw [List.take_nil] at hrest ⊢
      exact hrest.cons_dropped
    | r :: free =>
      have hsome : Table.lowestFree s.requests s.management.geometry.q = some r := by
        rw [lowestFree_eq_head? hw, hfree]
        rfl
      rw [restoreLines_restored lines hsome]
      have hnd : (r :: free).Nodup := hfree ▸ freeNumbers_nodup ..
      rw [List.nodup_cons] at hnd
      have hp' : Table.get (lineRestored n prev r l s).records.patrons n =
          some { p with wish := insertAfter p.wish prev r, charge := p.charge - 1 } := by
        rw [lineRestored_patron, if_pos rfl, hp]
        rfl
      have hr : r ∉ p.wish := hnew r (by rw [List.length_cons, List.take_succ_cons]; exact List.mem_cons_self ..)
      rw [hwish, List.mem_append, not_or] at hr
      have hsplit : ∀ r', insertAfter (insertAfter p.wish prev r) r r' = (pre ++ [r]) ++ r' :: post := fun r' => by
        rw [hput, insertAfter_split hr.1 hr.2, List.append_assoc]
        rfl
      have hrest := ih (s := lineRestored n prev r l s) (prev := r) (pre := pre ++ [r]) (free := free)
        (Table.wf_put _ _ _ hw) hp' (by rw [hput, List.append_assoc]; rfl) hsplit
        (freeNumbers_put_head hfree _) fun r' hr' => ?_
      · rw [List.length_cons, List.take_succ_cons]
        have htaken : r ∉ free.take lines.length := fun h => hnd.1 (List.mem_of_mem_take h)
        have hover := hrest.cons_restored htaken
        rwa [List.append_assoc pre, List.singleton_append] at hover
      · have hne : r' ≠ r := fun h => hnd.1 (h ▸ List.mem_of_mem_take hr')
        have hout := hnew r' (by rw [List.length_cons, List.take_succ_cons]; exact List.mem_cons_of_mem r hr')
        rw [hput]
        rw [hwish] at hout
        simp only [List.mem_append, List.mem_cons, not_or] at hout ⊢
        exact ⟨hout.1, hne, hout.2⟩

/-- The lines restored stand at the head of the wish list. -/
theorem handOver_handedOver {s : State} {n : Nat} {p : Patron} (lines : List Line) (hw : Table.wf s.requests)
    (hp : Table.get s.records.patrons n = some p) (h0 : 0 ∉ p.wish)
    (hnew : ∀ r ∈ (freeNumbers s.requests s.management.geometry.q).take lines.length, r ∉ p.wish) :
    let rs := (freeNumbers s.requests s.management.geometry.q).take lines.length
    HandedOver s (restoreLines n 0 lines s) n p lines rs (rs ++ p.wish) :=
  restoreLines_handedOver (pre := []) hw hp rfl (insertAfter_absent h0) rfl hnew

end Sys2Proof.Machine
end

