-- ==== Sys2Proof/Proofs/CopyResults.lean ====
section
/-! PROOFS. COPY_DONE (R86, R88 to R91, R98): what the result writes before the bay takes its next work. -/

namespace Sys2Proof.Machine

/-! ## The bay that reports -/

section Reports

variable {src : Byte} {job : U16} {serial : U32} {s s1 : State} {b : Nat}

/-- Of a bay only its stall timer differs once its frame is taken (R79). -/
theorem InTurn.bay {station : Nat} (h : InTurn station s s1) (c : Nat) :
    (bayAt s1 c).active = (bayAt s c).active ∧ (bayAt s1 c).state = (bayAt s c).state := by
  obtain ⟨-, -, -, -, rfl⟩ := h
  unfold reloadTimer
  split
  · exact ⟨rfl, rfl⟩
  · split_ifs
    · rw [loadTimer_bayAt]
      split_ifs <;> exact ⟨rfl, rfl⟩
    · exact ⟨rfl, rfl⟩

theorem bayWorking_iff {bay : Bay} : bayWorking bay = true ↔
    bay.state = .loading ∨ bay.state = .writing ∨ bay.state = .parking := by
  unfold bayWorking
  cases bay.state <;> simp

theorem isActive_iff {j : Nat} : isActive s b j = true ↔ j ≠ 0 ∧ (bayAt s b).active = j := by
  simp [isActive]

theorem exec_copyDone (h : AtBay src.toNat b s s1) (result : Byte) :
    exec (.copyDone src job serial result) s =
      .next (settle (takeCopyDone job.toNat serial result.toNat b s1)) := by
  have he : exec (.copyDone src job serial result) s =
      bayFrame (.copyDone src job serial result) (takeCopyDone job.toNat serial result.toNat) s := rfl
  rw [he]
  exact bayFrame_atBay _ rfl h

/-- The frame is the bay's active job's, from a bay that is at work. -/
def Reports (s : State) (b j : Nat) : Prop :=
  (j ≠ 0 ∧ (bayAt s b).active = j) ∧
    ((bayAt s b).state = .loading ∨ (bayAt s b).state = .writing ∨ (bayAt s b).state = .parking)

theorem InTurn.reports {station : Nat} (h : InTurn station s s1) (b j : Nat) : Reports s1 b j ↔ Reports s b j := by
  obtain ⟨ha, hs⟩ := h.bay b
  rw [Reports, ha, hs, Reports]

theorem takeCopyDone_taken {j result : Nat} {x : Job} (h : Reports s b j) (hx : Table.get s.scheduler.jobs j = some x)
    (hr : result ≤ 1) :
    takeCopyDone j serial result b s =
      afterJob b (if result = 0 then copyPassed j x serial s else copyFailed j s) := by
  obtain ⟨ha, hw⟩ := h
  simp only [takeCopyDone, hx, isActive_iff.mpr ha, bayWorking_iff.mpr hw, decide_eq_true hr, Bool.and_self, if_true]

theorem takeCopyDone_discarded {j result : Nat} (h : ¬Reports s b j ∨ 1 < result) :
    takeCopyDone j serial result b s = s := by
  unfold takeCopyDone
  split
  · rfl
  next x hx =>
  refine if_neg ?_
  rw [Bool.and_eq_true, Bool.and_eq_true, isActive_iff, bayWorking_iff, decide_eq_true_eq]
  rintro ⟨hreports, hr⟩
  exact h.elim (· hreports) (Nat.not_lt.mpr hr)

end Reports

/-! ## The cartridge leaves *reserved* (R150) -/

section Reserved

variable {s : State} {j : Nat} {x : Job}

theorem moveReserved_eq (hx : Table.get s.scheduler.jobs j = some x) (dst : Place) :
    moveReserved j dst s = modAccount x.cartridgeClass (ClassAccount.move .reserved dst 1) s := by
  simp only [moveReserved, hx]

theorem moveReserved_accountAt (hx : Table.get s.scheduler.jobs j = some x) (h1 : 1 ≤ x.cartridgeClass)
    (h4 : x.cartridgeClass ≤ 4) (hr : 1 ≤ (accountAt s x.cartridgeClass).reserved) (dst : Place) :
    let a := accountAt s x.cartridgeClass
    let taken : ClassAccount := { a with reserved := a.reserved - 1 }
    accountAt (moveReserved j dst s) x.cartridgeClass = taken.setCount dst (taken.count dst + 1) := by
  intro a taken
  rw [moveReserved_eq hx, accountAt_modAccount, if_pos ⟨rfl, h1, h4⟩]
  exact if_pos hr

theorem moveReserved_other (hx : Table.get s.scheduler.jobs j = some x) (dst : Place) {d : Nat}
    (hd : d ≠ x.cartridgeClass) : accountAt (moveReserved j dst s) d = accountAt s d := by
  rw [moveReserved_eq hx, accountAt_modAccount, if_neg fun h => hd h.1]

theorem moveReserved_frame (hx : Table.get s.scheduler.jobs j = some x) (dst : Place) :
    moveReserved j dst s = { s with accounts := (moveReserved j dst s).accounts } := by
  rw [moveReserved_eq hx]
  rfl

end Reserved

/-! ## PASS -/

section Pass

variable {s : State} {j : Nat} {x : Job} {serial : U32} {c : Consignment}

/-- The PACK's consignment READY with its serial, before the release pass (R62, R88). -/
def packCopied (j : Nat) (x : Job) (serial : U32) (s : State) : State :=
  readyQueued x.consignment
    (modCons x.consignment (fun c => { c with serial := some serial, job := 0 }) (moveReserved j .consigned s))

theorem copyPassed_pack (hk : x.kind = .pack) :
    copyPassed j x serial s = freeJob j (passReleases (packCopied j x serial s)) := by
  simp only [copyPassed, hk]
  rfl

theorem packCopied_frame (hx : Table.get s.scheduler.jobs j = some x) (serial : U32) :
    let u := packCopied j x serial s
    u = { s with
      assembly.cons := u.assembly.cons, accounts := u.accounts
      dispatch.ready := s.dispatch.ready ++ [x.consignment] } := by
  have hm := moveReserved_frame hx .consigned
  unfold packCopied
  generalize moveReserved j .consigned s = v at hm ⊢
  intro u
  have hu : u = { v with assembly.cons := u.assembly.cons, dispatch.ready := v.dispatch.ready ++ [x.consignment] } := rfl
  generalize u = w at hu
  rw [hu, hm]

theorem packCopied_cons (hx : Table.get s.scheduler.jobs j = some x) (serial : U32) (k : Nat) :
    Table.get (packCopied j x serial s).assembly.cons k =
      if k = x.consignment then
        (Table.get s.assembly.cons k).map fun c => { c with serial := some serial, job := 0, state := .ready }
      else Table.get s.assembly.cons k := by
  rw [packCopied, readyQueued_cons, modCons_cons, Table.get_modify, moveReserved_eq hx, modAccount_assembly]
  split_ifs
  · rw [Option.map_map]
    rfl
  · rfl

theorem packCopied_accountAt (j : Nat) (x : Job) (serial : U32) (s : State) (d : Nat) :
    accountAt (packCopied j x serial s) d = accountAt (moveReserved j .consigned s) d := rfl

/-- R98: whether the run's title is still SHELF audio of the job's class. -/
theorem stockQualifies_iff : stockQualifies s x = true ↔ ∃ y, Table.get s.records.titles x.title = some y ∧
    y.format = .audio ∧ y.policy = .shelf ∧ y.shelfClass = x.cartridgeClass := by
  unfold stockQualifies
  cases Table.get s.records.titles x.title <;> simp

/-- The copy that a STOCK run adds to its title (R89 steps 1 and 2). -/
def copyAdded (j : Nat) (x : Job) (s : State) : State :=
  modTitle x.title (fun t => { t with copies := t.copies + 1, shelf := t.shelf + 1 }) (moveReserved j .shelf s)

theorem copyPassed_last (hk : x.kind = .stock) (hq : stockQualifies s x = true) (hr : x.remaining ≤ 1) :
    copyPassed j x serial s = freeJob j (copyFreed x.title (copyAdded j x s)) := by
  simp only [copyPassed, hk, hq, if_true, stockPassed, if_pos (Nat.sub_eq_zero_of_le hr)]
  rfl

theorem copyPassed_more (hk : x.kind = .stock) (hq : stockQualifies s x = true) (hr : 2 ≤ x.remaining) :
    copyPassed j x serial s = queueTail j (modJob j
      (fun y => { y with remaining := x.remaining - 1, retry := false, priority := 0, offset := 0, serial := none })
      (copyFreed x.title (copyAdded j x s))) := by
  simp only [copyPassed, hk, hq, if_true, stockPassed, if_neg (Nat.sub_ne_zero_of_lt hr)]
  rfl

theorem copyPassed_ended (hk : x.kind = .stock) (hq : ¬stockQualifies s x = true) :
    copyPassed j x serial s = freeJob j (moveReserved j .blank s) := by
  simp only [copyPassed, hk, if_neg hq]
  rfl

theorem copyAdded_frame (hx : Table.get s.scheduler.jobs j = some x) :
    copyAdded j x s = { s with
      accounts := (copyAdded j x s).accounts, records.titles := (copyAdded j x s).records.titles } := by
  rw [copyAdded, moveReserved_eq hx]
  rfl

theorem copyAdded_title (hx : Table.get s.scheduler.jobs j = some x) (m : Nat) :
    Table.get (copyAdded j x s).records.titles m = (Table.get s.records.titles m).map fun y =>
      if m = x.title then { y with copies := y.copies + 1, shelf := y.shelf + 1 } else y := by
  rw [copyAdded, moveReserved_eq hx, modTitle_titles, modAccount_records, Table.get_modify]
  split_ifs
  · rfl
  · exact Option.map_id'.symm

end Pass

/-! ## FAIL -/

section Fail

variable {s : State} {j : Nat} {x : Job}

/-- The cartridge at the repair bench, the job without it (R90 steps 1 and 2). -/
def attemptLost (j : Nat) (s : State) : State := forgetCartridge j (moveReserved j .repair s)

theorem attemptLost_job (hx : Table.get s.scheduler.jobs j = some x) (i : Nat) :
    Table.get (attemptLost j s).scheduler.jobs i =
      if i = j then some { x with offset := 0, serial := none } else Table.get s.scheduler.jobs i := by
  rw [attemptLost, moveReserved_eq hx, forgetCartridge, modJob_jobs, modAccount_scheduler, Table.get_modify]
  split_ifs with h
  · rw [h, hx]
    rfl
  · rfl

theorem attemptLost_frame (hx : Table.get s.scheduler.jobs j = some x) :
    attemptLost j s = { s with
      accounts := (attemptLost j s).accounts, scheduler.jobs := (attemptLost j s).scheduler.jobs } := by
  rw [attemptLost, moveReserved_eq hx]
  rfl

/-- The job marked at the head of its level after its first failure (R90 step 4). -/
def retried (j : Nat) (s : State) : State := queueHead j (modJob j (fun y => { y with retry := true }) (attemptLost j s))

theorem copyFailed_first (hx : Table.get s.scheduler.jobs j = some x) (hr : x.retry = false) :
    copyFailed j s = retried j s := by
  have hjob := (attemptLost_job hx j).trans (if_pos rfl)
  have he : copyFailed j s = retryJob j (attemptLost j s) := rfl
  rw [he, retryJob]
  simp only [hjob, hr]
  rfl

theorem retried_marked (hx : Table.get s.scheduler.jobs j = some x) :
    Table.get (modJob j (fun y => { y with retry := true }) (attemptLost j s)).scheduler.jobs j =
      some { x with offset := 0, serial := none, retry := true } := by
  rw [modJob_jobs, Table.get_modify_same, attemptLost_job hx, if_pos rfl]
  rfl

theorem retried_job (hx : Table.get s.scheduler.jobs j = some x) :
    Table.get (retried j s).scheduler.jobs j =
      some { x with state := .queued, bay := 0, offset := 0, serial := none, retry := true } := queueHead_job (retried_marked hx)

theorem retried_other (hx : Table.get s.scheduler.jobs j = some x) {i : Nat} (hi : i ≠ j) :
    Table.get (retried j s).scheduler.jobs i = Table.get s.scheduler.jobs i := by
  rw [retried, queueHead_eq (retried_marked hx)]
  simp only [owePass_scheduler, modQueue_jobs, modJob_jobs, Table.get_modify_other _ _ hi]
  rw [attemptLost_job hx, if_neg hi]

theorem retried_queue (hx : Table.get s.scheduler.jobs j = some x) {l : Nat} (hl : l ≤ 3) :
    queueAt (retried j s) l = if l = x.priority then j :: queueAt s l else queueAt s l := by
  have hq : queueAt (modJob j (fun y => { y with retry := true }) (attemptLost j s)) l = queueAt s l := by
    rw [attemptLost, moveReserved_eq hx]
    rfl
  have hqueue := queueAt_queueHead (retried_marked hx) hl
  rwa [hq] at hqueue

theorem retried_frame (hx : Table.get s.scheduler.jobs j = some x) :
    let u := retried j s
    u = { s with
      accounts := u.accounts, scheduler.jobs := u.scheduler.jobs, scheduler.queues := u.scheduler.queues
      passDue := true } := by
  have hq := queueHead_frame (retried_marked hx)
  have hm : modJob j (fun y => { y with retry := true }) (attemptLost j s) = { attemptLost j s with
    scheduler.jobs := (modJob j (fun y => { y with retry := true }) (attemptLost j s)).scheduler.jobs } := rfl
  have ha := attemptLost_frame hx
  unfold retried
  generalize queueHead j (modJob j (fun y => { y with retry := true }) (attemptLost j s)) = t at hq ⊢
  generalize modJob j (fun y => { y with retry := true }) (attemptLost j s) = u at hq hm
  generalize attemptLost j s = v at hm ha
  rw [hq, hm, ha]

theorem retried_accountAt (hx : Table.get s.scheduler.jobs j = some x) (d : Nat) :
    accountAt (retried j s) d = accountAt (moveReserved j .repair s) d := by
  rw [retried, queueHead_eq (retried_marked hx)]
  rfl

/-- The job failed (R91): JOB_FAILED latched, and a PACK's consignment freed. -/
def jobLost (j : Nat) (x : Job) (s : State) : State :=
  if x.kind = .pack then freeConsignment x.consignment (latch .jobFailed j (attemptLost j s))
  else latch .jobFailed j (attemptLost j s)

theorem copyFailed_second (hx : Table.get s.scheduler.jobs j = some x) (hr : x.retry = true) :
    copyFailed j s =
      freeJob j (if x.kind = .pack then jobFailed x.consignment (latch .jobFailed j (attemptLost j s))
        else latch .jobFailed j (attemptLost j s)) := by
  have hjob := (attemptLost_job hx j).trans (if_pos rfl)
  have he : copyFailed j s = retryJob j (attemptLost j s) := rfl
  rw [he, retryJob]
  simp only [hjob, hr, if_true, failJob]

theorem copyFailed_stock (hx : Table.get s.scheduler.jobs j = some x) (hr : x.retry = true) (hk : x.kind = .stock) :
    copyFailed j s = freeJob j (jobLost j x s) := by
  have hpack : ¬x.kind = .pack := by rw [hk]; decide
  rw [copyFailed_second hx hr, if_neg hpack, jobLost, if_neg hpack]

theorem copyFailed_pack {c : Consignment} (hx : Table.get s.scheduler.jobs j = some x) (hr : x.retry = true)
    (hk : x.kind = .pack) (hc : Table.get s.assembly.cons x.consignment = some c) :
    copyFailed j s = freeJob j (handOver c.patron (openLines c) (jobLost j x s)) := by
  have hc' : Table.get (latch .jobFailed j (attemptLost j s)).assembly.cons x.consignment = some c := by
    rw [attemptLost_frame hx]
    exact hc
  rw [copyFailed_second hx hr, if_pos hk, jobLost, if_pos hk, jobFailed]
  simp only [hc']

/-- Everything of `attemptLost` but the notice stands in the state of a lost job. -/
theorem jobLost_frame (hx : Table.get s.scheduler.jobs j = some x) :
    let u := jobLost j x s
    u = { s with
      accounts := (attemptLost j s).accounts, scheduler.jobs := (attemptLost j s).scheduler.jobs
      assembly.cons := u.assembly.cons, records.patrons := u.records.patrons
      management := (latch .jobFailed j s).management } := by
  have ha := attemptLost_frame hx
  unfold jobLost
  generalize attemptLost j s = v at ha ⊢
  have hl : latch .jobFailed j v = { s with
      accounts := v.accounts, scheduler.jobs := v.scheduler.jobs
      management := (latch .jobFailed j s).management } := by
    rw [ha]
    rfl
  split_ifs
  · have hf := freeConsignment_frame x.consignment (latch .jobFailed j v)
    generalize freeConsignment x.consignment (latch .jobFailed j v) = t at hf ⊢
    generalize latch .jobFailed j v = w at hf hl
    rw [hf, hl]
  · generalize latch .jobFailed j v = w at hl ⊢
    rw [hl]

theorem jobLost_job (hx : Table.get s.scheduler.jobs j = some x) (i : Nat) :
    Table.get (jobLost j x s).scheduler.jobs i =
      if i = j then some { x with offset := 0, serial := none } else Table.get s.scheduler.jobs i := by
  rw [jobLost_frame hx]
  exact attemptLost_job hx i

theorem jobLost_accountAt (hx : Table.get s.scheduler.jobs j = some x) (d : Nat) :
    accountAt (jobLost j x s) d = accountAt (moveReserved j .repair s) d := by
  rw [jobLost_frame hx]
  rfl

theorem jobLost_stock (hx : Table.get s.scheduler.jobs j = some x) (hk : x.kind = .stock) :
    (jobLost j x s).assembly = s.assembly ∧ (jobLost j x s).records = s.records := by
  rw [jobLost, if_neg (by rw [hk]; decide), attemptLost_frame hx]
  exact ⟨rfl, rfl⟩

theorem jobLost_cons (hx : Table.get s.scheduler.jobs j = some x) (hk : x.kind = .pack) (k : Nat) :
    Table.get (jobLost j x s).assembly.cons k =
      if k = x.consignment then none else Table.get s.assembly.cons k := by
  rw [jobLost, if_pos hk, freeConsignment_cons, attemptLost_frame hx]
  rfl

theorem jobLost_patron {c : Consignment} (hx : Table.get s.scheduler.jobs j = some x) (hk : x.kind = .pack)
    (hc : Table.get s.assembly.cons x.consignment = some c) (n : Nat) :
    Table.get (jobLost j x s).records.patrons n = (Table.get s.records.patrons n).map fun p =>
      if n = c.patron then
        { p with chain := p.chain.erase x.consignment, openPack := if p.openPack = x.consignment then 0 else p.openPack }
      else p := by
  have hl : (latch .jobFailed j (attemptLost j s)).assembly = s.assembly ∧
      (latch .jobFailed j (attemptLost j s)).records = s.records := by
    rw [attemptLost_frame hx]
    exact ⟨rfl, rfl⟩
  rw [jobLost, if_pos hk, freeConsignment_patron (c := c) (by rw [hl.1, hc]), hl.2]
  split_ifs
  · rfl
  · exact Option.map_id'.symm

end Fail

/-! ## The job record freed, the bay's active job ended -/

/-- A freed job record goes to the head of the sealed list (R61). -/
theorem freeJob_waited_frame {s : State} {j k : Nat} {rest : List Nat} {c : Consignment}
    (hl : s.assembly.sealedList = k :: rest) (hc : Table.get s.assembly.cons k = some c) :
    let t := freeJob j s
    t = { s with
      assembly.sealedList := rest, assembly.cons := t.assembly.cons, scheduler.jobs := t.scheduler.jobs
      scheduler.queues := t.scheduler.queues, passDue := true } := by
  intro t
  have hf := createPackJob_frame (s := { s with
    scheduler.jobs := Table.delete s.scheduler.jobs j, assembly.sealedList := rest }) (j := j) hc
  rw [← freeJob_waited hl] at hf
  exact hf.trans rfl

theorem afterJob_eq (b : Nat) (u : State) :
    let ended := modBay b (fun y => { y with active := 0, owed := y.owed.filter fun f => !waitsForAnswer f }) u
    afterJob b u =
      { (if (bayAt u b).state = .parking then loadPreemptor b ended else nextWork b ended) with passDue := true } := by
  intro ended
  have he : dropOwed b (modBay b (fun bay => { bay with active := 0 }) u) = ended := modBay_modBay b _ _ u
  rw [afterJob, he]
  rfl

end Sys2Proof.Machine

open Sys2Proof Sys2Proof.Machine in
/-- Settles O42: each result by the job's kind and mark, then the bay's work; the hand-over by induction on the lines. -/
theorem copyResultsAreTaken : Obligations.CopyResultsAreTaken := by
  refine ⟨fun src job serial s s1 b hat => ?_, fun u j => ⟨freeJob_unwaited, fun k rest c hl hc _ => ?_⟩,
    fun u b => afterJob_eq b u, fun u n p lines hw hp => ?_⟩
  · have hturn := hat.1
    intro j active working
    refine ⟨fun x hactive hworking hx h1 h4 hreserved => ?_, fun result hdiscard => ?_⟩
    · intro a others done
      have hx1 : Table.get s1.scheduler.jobs j = some x := by rw [hturn.jobs, hx]
      have hreports : Reports s1 b j := (hturn.reports b j).mpr ⟨hactive, hworking⟩
      have haccount : accountAt s1 x.cartridgeClass = a := hturn.accountAt _
      have hmoved := moveReserved_accountAt hx1 h1 h4 (by rw [haccount]; exact hreserved)
      rw [haccount] at hmoved
      have hothers : ∀ dst d, d ≠ x.cartridgeClass → accountAt (moveReserved j dst s1) d = accountAt s d :=
        fun dst d hd => (moveReserved_other hx1 dst hd).trans (hturn.accountAt d)
      have hpass : ∀ u, copyPassed j x serial s1 = u → done 0 u := fun u hu => by
        refine (exec_copyDone hat 0).trans ?_
        rw [takeCopyDone_taken hreports hx1 (by decide), if_pos (by decide), hu]
      have hfail : ∀ u, copyFailed j s1 = u → done 1 u := fun u hu => by
        refine (exec_copyDone hat 1).trans ?_
        rw [takeCopyDone_taken hreports hx1 (by decide), if_neg (by decide), hu]
      refine ⟨fun c hk hc => ?_, fun hk => ?_, fun hr => ?_, fun hr => ?_⟩
      · have hframe := packCopied_frame hx1 serial
        have hget := packCopied_cons hx1 serial
        have hqueue : s1.dispatch.ready = s.dispatch.ready := by rw [hturn.dispatch]
        rw [hturn.assembly] at hget
        rw [hqueue] at hframe
        have hdone := hpass _ (copyPassed_pack hk)
        have hconsigned := (packCopied_accountAt j x serial s1 x.cartridgeClass).trans (hmoved .consigned)
        have hrest : ∀ d, d ≠ x.cartridgeClass → accountAt (packCopied j x serial s1) d = accountAt s d :=
          fun d hd => (packCopied_accountAt ..).trans (hothers _ d hd)
        have hrel := passReleases_released (packCopied j x serial s1)
        have hwork := (BayWork.afterJob b (freeJob j (passReleases (packCopied j x serial s1)))).trans (.settle _)
        generalize hr : passReleases (packCopied j x serial s1) = r at hdone hrel hwork
        generalize packCopied j x serial s1 = u at *
        have hpacked := hget x.consignment
        rw [if_pos rfl, hc] at hpacked
        refine ⟨⟨u, ?_, hframe, hpacked, fun k hkk => (hget k).trans (if_neg hkk), hconsigned, hrest⟩, fun hl => ?_⟩
        · rw [hr]
          exact hdone
        · have hcons := hrel.cons x.consignment
          rw [KeptOrReleasing, hpacked] at hcons
          have haccounts : accountAt r x.cartridgeClass = accountAt u x.cartridgeClass := by
            rw [hrel.frame]
            rfl
          have hsealed1 : s1.assembly.sealedList = s.assembly.sealedList := by rw [hturn.assembly]
          have hkept : r.assembly.sealedList = s.assembly.sealedList ∧
              r.dispatch.ready = s.dispatch.ready ++ [x.consignment] ∧ r.records = s.records ∧ r.requests = s.requests ∧
              r.returns = s.returns ∧ r.days = s.days := by
            rw [hrel.frame, hframe]
            exact ⟨hsealed1, rfl, hturn.records, hturn.requests, hturn.returns, hturn.days⟩
          obtain ⟨hsealed, hready, hrecords, hrequests, hreturns, hdays⟩ := hkept
          rw [freeJob_unwaited (hsealed.trans hl)] at hdone hwork
          refine ⟨_, hdone, ?_, ?_, hwork.absent j (Table.get_delete_same ..), hwork.records.trans hrecords,
            hwork.requests.trans hrequests, hwork.returns.trans hreturns, hwork.days.trans hdays, ?_⟩
          · rw [hwork.assembly]
            obtain hkeep | ⟨c', hc', -, hreleased⟩ := hcons
            · exact ⟨_, hkeep, rfl, rfl, .inl rfl, rfl⟩
            · obtain rfl := Option.some.inj hc'
              exact ⟨_, hreleased, rfl, rfl, .inr rfl, rfl⟩
          · rw [hwork.dispatch]
            exact hready
          · refine (hwork.counts _).1.trans ((congrArg ClassAccount.consigned (haccounts.trans hconsigned)).trans ?_)
            rfl
      · have htitles := copyAdded_title hx1
        rw [hturn.records] at htitles
        intro qualifies
        have hiff : stockQualifies s1 x = true ↔ qualifies := by
          rw [stockQualifies_iff, hturn.records]
        refine ⟨fun hq => ⟨copyAdded j x s1, copyAdded_frame hx1, htitles, hmoved .shelf, hothers .shelf,
            fun hr => hpass _ (copyPassed_last hk (hiff.mpr hq) hr), fun hr => hpass _ (copyPassed_more hk (hiff.mpr hq) hr)⟩,
          fun hq => ⟨moveReserved j .blank s1, hpass _ (copyPassed_ended hk (mt hiff.mp hq)), moveReserved_frame hx1 .blank,
            hmoved .blank, hothers .blank⟩⟩
      · have hdone := hfail _ (copyFailed_first hx1 hr)
        have hjob := retried_job hx1
        have hother := fun {i} => retried_other hx1 (i := i)
        have hqueue := fun {l} => retried_queue hx1 (l := l)
        have hframe := retried_frame hx1
        have haccountAt := retried_accountAt hx1
        have hlevel : ∀ l, queueAt s1 l = queueAt s l := fun l => by rw [queueAt, hturn.queues, queueAt]
        simp only [hturn.jobs] at hother
        simp only [hlevel] at hqueue
        have hwork := (BayWork.afterJob b (retried j s1)).trans (.settle _)
        generalize retried j s1 = u at *
        refine ⟨⟨u, hdone, hframe, hjob, fun l => hqueue, fun o => hother, (haccountAt _).trans (hmoved .repair),
          fun d hd => (haccountAt d).trans (hothers .repair d hd)⟩, _, hdone, ?_, ?_⟩
        · obtain ⟨y, hy, hretry, hpriority, hoffset⟩ := hwork.jobs j _ hjob
          exact ⟨y, hy, hretry, hpriority, hoffset.elim id id⟩
        · have hkept : u.records = s.records ∧ u.requests = s.requests ∧ u.assembly = s.assembly ∧ u.dispatch = s.dispatch ∧
              u.returns = s.returns ∧ u.days = s.days := by
            rw [hframe]
            exact ⟨hturn.records, hturn.requests, hturn.assembly, hturn.dispatch, hturn.returns, hturn.days⟩
          obtain ⟨hrecords, hrequests, hassembly, hdispatch, hreturns, hdays⟩ := hkept
          refine ⟨hwork.records.trans hrecords, hwork.requests.trans hrequests, hwork.assembly.trans hassembly,
            hwork.dispatch.trans hdispatch, hwork.returns.trans hreturns, hwork.days.trans hdays, ?_⟩
          rw [(hwork.counts _).2, haccountAt, hmoved .repair]
          rfl
      · have hjob := jobLost_job hx1
        have haccountAt := jobLost_accountAt hx1
        rw [hturn.jobs] at hjob
        refine ⟨jobLost j x s1, ?_, (hjob j).trans (if_pos rfl), fun o ho => (hjob o).trans (if_neg ho),
          (haccountAt _).trans (hmoved .repair), fun d hd => (haccountAt d).trans (hothers .repair d hd), fun hk => ?_,
          fun c hk hc => ⟨?_, fun k => ?_, fun n => ?_⟩⟩
        · have hnotice : (latch .jobFailed j s1).management = (latch .jobFailed j s).management := by
            rw [latch, hturn.management, latch]
          have hframe := jobLost_frame hx1
          rw [hnotice] at hframe
          generalize jobLost j x s1 = u at hframe ⊢
          rw [hframe]
        · obtain ⟨hassembly, hrecords⟩ := jobLost_stock hx1 hk
          exact ⟨hfail _ (copyFailed_stock hx1 hr hk), hassembly.trans hturn.assembly, hrecords.trans hturn.records⟩
        · exact hfail _ (copyFailed_pack hx1 hr hk (by rw [hturn.assembly, hc]))
        · rw [jobLost_cons hx1 hk, hturn.assembly]
        · rw [jobLost_patron hx1 hk (c := c) (by rw [hturn.assembly, hc]), hturn.records]
    · have hnot : ¬Reports s1 b j ∨ 1 < result.toNat := hdiscard.imp_left (mt (hturn.reports b j).mp)
      rw [exec_copyDone hat, takeCopyDone_discarded hnot]
      exact congrArg Host.Outcome.next (settle_of_noPass hturn.passDue)
  · intro t
    have ht := freeJob_waited (j := j) hl
    have hjob := createPackJob_job (s := { u with
      scheduler.jobs := Table.delete u.scheduler.jobs j, assembly.sealedList := rest }) (j := j) hc
    have hcons := createPackJob_cons (s := { u with
      scheduler.jobs := Table.delete u.scheduler.jobs j, assembly.sealedList := rest }) (j := j) hc
    have hqueue := fun {l} => createPackJob_queue (s := { u with
      scheduler.jobs := Table.delete u.scheduler.jobs j, assembly.sealedList := rest }) (j := j) hc (l := l)
    rw [← ht] at hjob hcons hqueue
    refine ⟨freeJob_waited_frame hl hc, (hjob j).trans (if_pos rfl), fun o ho => ?_, (hcons k).trans (if_pos rfl),
      fun o ho => (hcons o).trans (if_neg ho), fun l => hqueue⟩
    rw [hjob, if_neg ho]
    exact Table.get_delete_other _ ho
  · intro free rs dropped h0 hnew
    obtain ⟨-, -, -, hwf, -⟩ := hw
    have hover := handOver_handedOver lines hwf hp h0 hnew
    exact ⟨restoreLines n 0 lines u, rfl, hover.frame, hover.restored, hover.requests, hover.patron, hover.patrons,
      hover.titles⟩
end

