-- ==== Sys2Proof/Proofs/Planning.lean ====
section
/-! PROOFS. Window resolution (R103) and the plan of a braille set (R65). -/

namespace Sys2Proof.Machine

/-! ## The highest number of a pool that a test picks -/

section Highest

variable (P : Nat → Bool)

/-- The highest of the numbers 1 to `n` that pass a test, 0 when none does. -/
def highest (n : Nat) : Nat := (((List.range' 1 n).filter P).getLast?).getD 0

theorem highest_succ (n : Nat) : highest P (n + 1) = if P (n + 1) then n + 1 else highest P n := by
  have hrange : List.range' 1 (n + 1) = List.range' 1 n ++ [n + 1] := by rw [List.range'_1_concat, Nat.add_comm 1]
  unfold highest
  rw [hrange, List.filter_append]
  split_ifs with h <;> simp [h]

theorem highest_eq_iff (n w : Nat) : highest P n = w ↔
    (1 ≤ w ∧ w ≤ n ∧ P w = true ∧ ∀ v, w < v → v ≤ n → ¬P v = true) ∨
      (w = 0 ∧ ∀ v, 1 ≤ v → v ≤ n → ¬P v = true) := by
  induction n with
  | zero =>
    have hzero : highest P 0 = 0 := rfl
    rw [hzero]
    constructor
    · rintro rfl
      exact .inr ⟨rfl, fun v h1 h0 => absurd h0 (by omega)⟩
    · rintro (⟨h1, h0, -, -⟩ | ⟨rfl, -⟩)
      · omega
      · rfl
  | succ n ih =>
    rw [highest_succ]
    split_ifs with hn
    · constructor
      · rintro rfl
        exact .inl ⟨by omega, le_refl _, hn, fun v hv hle => absurd hle (by omega)⟩
      · rintro (⟨-, hle, -, habove⟩ | ⟨-, hnone⟩)
        · by_contra hne
          exact habove (n + 1) (by omega) (le_refl _) hn
        · exact absurd hn (hnone (n + 1) (by omega) (le_refl _))
    · have hstep : ∀ v, v ≤ n + 1 → P v = true → v ≤ n := fun v hv hp => by
        by_contra hgt
        obtain rfl : v = n + 1 := by omega
        exact hn hp
      rw [ih]
      constructor
      · rintro (⟨h1, hle, hp, habove⟩ | ⟨rfl, hnone⟩)
        · exact .inl ⟨h1, by omega, hp, fun v hv hv' hpv => habove v hv (hstep v hv' hpv) hpv⟩
        · exact .inr ⟨rfl, fun v h1 hv hpv => hnone v h1 (hstep v hv hpv) hpv⟩
      · rintro (⟨h1, hle, hp, habove⟩ | ⟨rfl, hnone⟩)
        · exact .inl ⟨h1, hstep w hle hp, hp, fun v hv hv' => habove v hv (by omega)⟩
        · exact .inr ⟨rfl, fun v h1 hv => hnone v h1 (by omega)⟩

end Highest

theorem resolveWindow_eq (s : State) (dest : Nat) : resolveWindow s dest = highest (claims s dest) 15 := rfl

theorem claims_iff {s : State} {dest w : Nat} : claims s dest w = true ↔
    (windowAt s w).enabled = true ∧ (windowAt s w).low ≤ dest ∧ dest ≤ (windowAt s w).high := by
  simp [claims]

/-! ## The plan of a set (R65) -/

section Plan

variable {limit v w : Nat}

theorem planSet_perPart_pos : 1 ≤ (planSet limit v w).perPart := by
  unfold planSet
  simp only
  split_ifs with h
  · exact le_refl 1
  · exact Nat.one_le_iff_ne_zero.mpr h

/-- All parts but the last are full, and the last holds at least one volume. -/
theorem planSet_parts_fill (hv : 1 ≤ v) :
    ((planSet limit v w).parts - 1) * (planSet limit v w).perPart < v ∧
      v ≤ (planSet limit v w).parts * (planSet limit v w).perPart := by
  have hpos : 1 ≤ (planSet limit v w).perPart := planSet_perPart_pos
  have hparts : (planSet limit v w).parts =
      (v + (planSet limit v w).perPart - 1) / (planSet limit v w).perPart := rfl
  generalize (planSet limit v w).perPart = k at hpos hparts
  generalize (planSet limit v w).parts = n at hparts
  have hdiv := Nat.div_add_mod (v + k - 1) k
  have hmod := Nat.mod_lt (v + k - 1) hpos
  rw [← hparts, Nat.mul_comm] at hdiv
  rw [Nat.sub_mul, Nat.one_mul]
  omega

theorem volumesIn_bounds (hv : 1 ≤ v) (i : Nat) :
    1 ≤ volumesIn (planSet limit v w) v i ∧ volumesIn (planSet limit v w) v i ≤ (planSet limit v w).perPart := by
  obtain ⟨hlast, hall⟩ := planSet_parts_fill (limit := limit) (w := w) hv
  have hpos : 1 ≤ (planSet limit v w).perPart := planSet_perPart_pos
  rw [Nat.sub_mul, Nat.one_mul] at hlast
  unfold volumesIn
  split_ifs
  · exact ⟨hpos, le_refl _⟩
  · rw [Nat.sub_mul, Nat.one_mul]
    omega

/-- Every volume is in one part. -/
theorem volumesIn_sum (hv : 1 ≤ v) :
    ((List.range' 1 (planSet limit v w).parts).map fun i => volumesIn (planSet limit v w) v i).sum = v := by
  obtain ⟨hlast, -⟩ := planSet_parts_fill (limit := limit) (w := w) hv
  obtain ⟨m, hm⟩ := Nat.exists_eq_add_of_le' (planSet_parts_pos (limit := limit) (w := w) hv)
  have hfull : (List.range' 1 m).map (fun i => volumesIn (planSet limit v w) v i) =
      List.replicate m (planSet limit v w).perPart := by
    refine List.eq_replicate_iff.mpr ⟨by simp, fun x hx => ?_⟩
    obtain ⟨i, hi, rfl⟩ := List.mem_map.mp hx
    rw [List.mem_range'_1] at hi
    exact if_pos (by omega)
  have hrest : volumesIn (planSet limit v w) v (1 + m) = v - m * (planSet limit v w).perPart := by
    rw [volumesIn, if_neg (by omega), hm, Nat.add_sub_cancel]
  rw [hm, Nat.add_sub_cancel] at hlast
  rw [hm, List.range'_1_concat, List.map_append, hfull, List.map_singleton, hrest, List.sum_append, List.sum_replicate,
    smul_eq_mul, List.sum_singleton]
  omega

theorem planSet_overweight (hw : 1 ≤ w) : (planSet limit v w).overweight = true ↔ limit < w := by
  have hdiv : limit / w = 0 ↔ limit < w := by rw [Nat.div_eq_zero_iff]; omega
  rw [planSet, decide_eq_true_iff, hdiv]

/-- A set that is not overweight fills its parts within the limit. -/
theorem planSet_within (h : (planSet limit v w).overweight = false) : (planSet limit v w).perPart * w ≤ limit := by
  have hne : ¬limit / w = 0 := of_decide_eq_false h
  have hper : (planSet limit v w).perPart = limit / w := if_neg hne
  rw [hper]
  exact Nat.div_mul_le_self limit w

/-- An overweight set puts one volume in each part. -/
theorem planSet_single (h : (planSet limit v w).overweight = true) :
    (planSet limit v w).perPart = 1 ∧ (planSet limit v w).parts = v := by
  have hzero : limit / w = 0 := of_decide_eq_true h
  have hper : (planSet limit v w).perPart = 1 := if_pos hzero
  have hparts : (planSet limit v w).parts =
      (v + (planSet limit v w).perPart - 1) / (planSet limit v w).perPart := rfl
  rw [hper, Nat.add_sub_cancel, Nat.div_one] at hparts
  exact ⟨hper, hparts⟩

end Plan

end Sys2Proof.Machine

open Sys2Proof Sys2Proof.Machine in
/-- Settles O35: the windows by induction on their number, the plan from what all parts but the last and all parts hold. -/
theorem windowsResolveAndSetsArePlanned : Obligations.WindowsResolveAndSetsArePlanned := by
  refine ⟨fun s dest w => ?_, fun limit v w hv hw => ?_⟩
  · intro claimed
    rw [resolveWindow_eq, highest_eq_iff]
    simp only [claims_iff]
    rfl
  · intro plan
    have hbounds : ∀ i, 1 ≤ volumesIn plan v i ∧ volumesIn plan v i ≤ plan.perPart := volumesIn_bounds hv
    refine ⟨rfl, rfl, volumesIn_sum hv, fun i _ _ => hbounds i, planSet_overweight hw, fun hlight i _ _ => ?_,
      fun hheavy => ?_⟩
    · obtain ⟨-, hle⟩ := hbounds i
      exact (Nat.mul_le_mul_right w hle).trans (planSet_within hlight)
    · obtain ⟨hper, hparts⟩ := planSet_single hheavy
      refine ⟨hparts, fun i _ _ => ?_⟩
      obtain ⟨hge, hle⟩ := hbounds i
      exact Nat.le_antisymm (hle.trans hper.le) hge
end

