-- ==== Sys2Proof/Proofs/Handing.lean ====
section
/-! PROOFS. What is handed to the floor transmit queue and who waits ahead (R68, R78, R123, R197). -/

namespace Sys2Proof.Machine

/-! ## Who waits (R197) -/

section Waiting

variable {s : State}

theorem waitingForwards_ne_zero : waitingForwards s ≠ 0 ↔
    s.line.answering = false ∧ ∃ f rest, s.line.officeRx = f :: rest ∧ f.src = 1 ∧ 16 ≤ f.dst.toNat := by
  unfold waitingForwards
  split
  · next f rest ha hq => simp [ha, hq, forwardable, and_comm]
  · next ha hq => simp [hq]
  · next ha => simp [ha]

theorem waitingCommands_ne_zero : waitingCommands s ≠ 0 ↔ ∃ b ∈ bayNumbers, (bayAt s b).owed ≠ [] := by
  simp [waitingCommands, List.sum_eq_zero_iff]

theorem waitingAnswers_ne_zero : waitingAnswers s ≠ 0 ↔ s.returns.owedAnswer ≠ none := by
  simp [waitingAnswers, ← Option.isSome_iff_ne_none]

theorem waitingVerdicts_ne_zero : waitingVerdicts s ≠ 0 ↔ s.returns.item ≠ none := by
  simp [waitingVerdicts, ← Option.isSome_iff_ne_none]

theorem waitingPicks_ne_zero : waitingPicks s ≠ 0 ↔ s.management.settings.pickRole ≠ 0 ∧ s.assembly.picks ≠ [] := by
  simp [waitingPicks]

end Waiting

/-! ## PICKs (R68) -/

section Picks

variable {s : State} {k : Nat} {rest : List Nat}

/-- The PICK for consignment `k` (R202). -/
def pickTo (role k : Nat) (c : Consignment) : Frame :=
  ⟨byteOf role, 0, 128, bytesLE 2 k ++ bytesLE 2 ((c.lines.head?.map Line.title).getD 0) ++
    if c.kind = .braillePart then [1, byteOf c.parts] else [0, byteOf c.cartridgeClass]⟩

theorem pickFor_eq {c : Consignment} (hc : Table.get s.assembly.cons k = some c) :
    pickFor s k = pickTo s.management.settings.pickRole k c := by
  simp only [pickFor, hc, pickTo]
  split_ifs <;> rfl

/-- The PICK at the head of the pending list is handed on. -/
def pickHanded (k : Nat) (rest : List Nat) (s : State) : State :=
  toFloor (pickFor s k) { s with assembly.picks := rest, assembly.picksSent := s.assembly.picksSent + 1 }

theorem handPick_hands {ahead : Nat} (hp : s.assembly.picks = k :: rest) (hr : s.management.settings.pickRole ≠ 0)
    (hroom : floorRoom ahead s = true) : handPick ahead s = pickHanded k rest s := by
  simp only [handPick, hp, if_pos (And.intro hr hroom), pickHanded]

theorem handPick_waits {ahead : Nat} (h : s.assembly.picks = [] ∨ s.management.settings.pickRole = 0 ∨
    floorRoom ahead s = false) : handPick ahead s = s := by
  unfold handPick
  split
  · rfl
  · next k rest hp =>
    refine if_neg fun hn => ?_
    obtain ⟨hr, hroom⟩ := hn
    simp [hp, hr, hroom] at h

theorem exec_pick (h : NoPassOwed s) : exec .pick s = .next (handPick (aheadOfPicks s) s) := by
  have hq : NoPassOwed (handPick (aheadOfPicks s) s) := by
    unfold handPick
    split
    · exact h
    · split_ifs <;> exact h
  have he : exec .pick s = .next (settle (handPick (aheadOfPicks s) s)) := rfl
  rw [he, settle_of_noPass hq]

theorem handPicks_stuck (h : handPick (aheadOfPicks s) s = s) (n : Nat) : handPicks n s = s := by
  induction n with
  | zero => rfl
  | succ n ih => rw [handPicks, h, ih]

/-- The pending PICKs that have a place, from the head of the list. -/
def placesForPicks (s : State) : Nat :=
  if s.management.settings.pickRole = 0 ∨ floorRoom (aheadOfPicks s) s = false then 0
  else min s.assembly.picks.length (32 - s.line.floorTx.length)

theorem placesForPicks_open (hr : s.management.settings.pickRole ≠ 0)
    (hc : s.line.contended = false ∨ aheadOfPicks s = 0) :
    placesForPicks s = min s.assembly.picks.length (32 - s.line.floorTx.length) := by
  unfold placesForPicks
  split_ifs with h
  · have hroom := h.resolve_left hr
    have hfull : ¬s.line.floorTx.length < 32 := fun hlt => by
      rw [(floorRoom_iff _ _).mpr ⟨hlt, hc⟩] at hroom
      cases hroom
    omega
  · rfl

/-- The first `n` pending PICKs are handed on. -/
def picksHanded (n : Nat) (s : State) : State :=
  { s with
    assembly.picks := s.assembly.picks.drop n
    assembly.picksSent := s.assembly.picksSent + n
    line.contended := if n = 0 then s.line.contended else s.line.contended && decide (n < s.assembly.picks.length)
    line.floorTx := s.line.floorTx ++ (s.assembly.picks.take n).filterMap fun k =>
      (Table.get s.assembly.cons k).map (pickTo s.management.settings.pickRole k) }

theorem picksHanded_zero (s : State) : picksHanded 0 s = s := by simp [picksHanded]

/-- While a PICK has a place no frame of an earlier producer waits for it, so the places stay contended just while a PICK
waits. -/
theorem pickHanded_contended (hr : s.management.settings.pickRole ≠ 0)
    (hc : s.line.contended = false ∨ aheadOfPicks s = 0) :
    (pickHanded k rest s).line.contended = (s.line.contended && decide (rest ≠ [])) := by
  have hahead : (pickHanded k rest s).line.contended = (s.line.contended && decide (aheadOfPicks s +
      (if s.management.settings.pickRole = 0 then 0 else rest.length) ≠ 0)) := rfl
  rw [hahead, if_neg hr]
  obtain h | h := hc
  · rw [h, Bool.false_and, Bool.false_and]
  · rw [h]
    simp

theorem picksHanded_pickHanded {c : Consignment} (hp : s.assembly.picks = k :: rest)
    (hc : Table.get s.assembly.cons k = some c) (hr : s.management.settings.pickRole ≠ 0)
    (hcon : s.line.contended = false ∨ aheadOfPicks s = 0) (n : Nat) :
    picksHanded n (pickHanded k rest s) = picksHanded (n + 1) s := by
  have hcont := pickHanded_contended (k := k) (rest := rest) hr hcon
  have hpicks : picksHanded n (pickHanded k rest s) = { s with
      assembly.picks := rest.drop n
      assembly.picksSent := s.assembly.picksSent + 1 + n
      line.contended := if n = 0 then (pickHanded k rest s).line.contended else
        (pickHanded k rest s).line.contended && decide (n < rest.length)
      line.floorTx := s.line.floorTx ++ [pickFor s k] ++ (rest.take n).filterMap fun k =>
        (Table.get s.assembly.cons k).map (pickTo s.management.settings.pickRole k) } := rfl
  have hstill : (if n = 0 then s.line.contended && decide (rest ≠ []) else
      s.line.contended && decide (rest ≠ []) && decide (n < rest.length)) =
        (s.line.contended && decide (n + 1 < (k :: rest).length)) := by
    cases rest <;> cases n <;> simp
  rw [hpicks, hcont, hstill, pickFor_eq hc]
  simp [picksHanded, hp, hc, Nat.add_assoc, Nat.add_comm 1]

/-- PICKs are handed on from the head of the pending list while they have a place (R68, R197). -/
theorem handPicks_eq (hall : ∀ k ∈ s.assembly.picks, (Table.get s.assembly.cons k).isSome = true) :
    handPicks s.assembly.picks.length s = picksHanded (placesForPicks s) s := by
  generalize hl : s.assembly.picks = picks at hall ⊢
  induction picks generalizing s with
  | nil =>
    have hnone : placesForPicks s = 0 := by simp [placesForPicks, hl]
    rw [hnone, picksHanded_zero]
    rfl
  | cons k rest ih =>
    by_cases hopen : s.management.settings.pickRole = 0 ∨ floorRoom (aheadOfPicks s) s = false
    · have hnone : placesForPicks s = 0 := if_pos hopen
      rw [hnone, picksHanded_zero, handPicks_stuck (handPick_waits (.inr hopen))]
    · rw [not_or, Bool.not_eq_false] at hopen
      obtain ⟨hr, hroom⟩ := hopen
      obtain ⟨hlen, hcon⟩ := (floorRoom_iff _ _).mp hroom
      obtain ⟨c, hc⟩ := Option.isSome_iff_exists.mp (hall k (List.mem_cons_self ..))
      have hcon' : (pickHanded k rest s).line.contended = false ∨ aheadOfPicks (pickHanded k rest s) = 0 := by
        rw [pickHanded_contended hr hcon]
        exact hcon.imp_left fun h => by rw [h, Bool.false_and]
      have hplaces : placesForPicks s = placesForPicks (pickHanded k rest s) + 1 := by
        have hlen' : (pickHanded k rest s).line.floorTx.length = s.line.floorTx.length + 1 := List.length_append
        have hrest : (pickHanded k rest s).assembly.picks = rest := rfl
        rw [placesForPicks_open hr hcon, placesForPicks_open (s := pickHanded k rest s) hr hcon', hlen', hrest, hl,
          List.length_cons]
        omega
      have hstep : handPicks (k :: rest).length s = handPicks rest.length (pickHanded k rest s) := by
        rw [List.length_cons, handPicks, handPick_hands hl hr hroom]
      rw [hstep, ih (s := pickHanded k rest s) rfl fun i hi => hall i (List.mem_cons_of_mem k hi), hplaces,
        picksHanded_pickHanded hl hc hr hcon]

end Picks

/-! ## Owed commands and the owed answer (R78, R123) -/

section Owed

variable {s : State} {b : Nat} {f : Frame} {rest : List Frame}

theorem owingBay_eq (h1 : 1 ≤ b) (h24 : b ≤ 24) (hlow : ∀ o, 1 ≤ o → o < b → (bayAt s o).owed = [])
    (hb : (bayAt s b).owed = f :: rest) :
    (bayNumbers.find? fun o => decide ((bayAt s o).owed ≠ [])) = some b := by
  refine List.find?_range'_eq_some.mpr ⟨by simp [hb], ?_, fun o ho hlt => ?_⟩
  · rw [List.mem_range'_1]
    omega
  · simp [hlow o ho hlt]

/-- The oldest owed command of bay `b` is handed on, its stall timer loaded when it waits for an answer (R79). -/
def commandHanded (b : Nat) (f : Frame) (u : State) : State :=
  if waitsForAnswer f then loadTimer b (toFloor f u) else toFloor f u

theorem exec_owedCommand (hfind : (bayNumbers.find? fun o => decide ((bayAt s o).owed ≠ [])) = some b)
    (hb : (bayAt s b).owed = f :: rest) :
    exec .owedCommandHandOn s =
      if floorRoom (waitingForwards s) s then
        .next (commandHanded b f (modBay b (fun bay => { bay with owed := rest }) s))
      else .next s := by
  have he : exec .owedCommandHandOn s = execOwedCommandHandOn s := rfl
  rw [he, execOwedCommandHandOn]
  simp only [hfind, hb]
  rfl

theorem exec_owedCommand_none (h : ∀ b, (bayAt s b).owed = []) : exec .owedCommandHandOn s = .next s := by
  have hfind : (bayNumbers.find? fun o => decide ((bayAt s o).owed ≠ [])) = none :=
    List.find?_eq_none.mpr fun o _ => by simp [h]
  have he : exec .owedCommandHandOn s = execOwedCommandHandOn s := rfl
  rw [he, execOwedCommandHandOn]
  simp only [hfind]

theorem commandHanded_frame (b : Nat) (f : Frame) (u : State) :
    commandHanded b f u = { toFloor f u with scheduler.bays := (commandHanded b f u).scheduler.bays } := by
  unfold commandHanded
  split_ifs <;> rfl

theorem commandHanded_bay (h1 : 1 ≤ b) (h24 : b ≤ 24) (u : State) :
    bayAt (commandHanded b f u) b = if waitsForAnswer f then timerLoaded u (bayAt u b) else bayAt u b := by
  unfold commandHanded
  split_ifs
  · rw [loadTimer_eq, bayAt_modBay_same h1 h24]
    rfl
  · rfl

theorem commandHanded_other {o : Nat} (ho : o ≠ b) (u : State) : bayAt (commandHanded b f u) o = bayAt u o := by
  unfold commandHanded
  split_ifs
  · rw [loadTimer_eq, bayAt_modBay_other ho]
    rfl
  · rfl

theorem exec_owedAnswer (hf : s.returns.owedAnswer = some f) :
    exec .owedReturnAnswer s =
      if floorRoom (waitingForwards s + waitingCommands s) s = true then
        .next (toFloor f { s with returns.owedAnswer := none })
      else .next s := by
  have he : exec .owedReturnAnswer s = execOwedReturnAnswer s := rfl
  rw [he, execOwedReturnAnswer]
  simp only [hf]
  rfl

theorem exec_owedAnswer_none (hf : s.returns.owedAnswer = none) : exec .owedReturnAnswer s = .next s := by
  have he : exec .owedReturnAnswer s = execOwedReturnAnswer s := rfl
  rw [he, execOwedReturnAnswer]
  simp only [hf]

end Owed

end Sys2Proof.Machine

open Sys2Proof Sys2Proof.Machine in
/-- Settles O37: PICKs by induction on the pending list, the others producer by producer. -/
theorem waitingFramesAreHandedOn : Obligations.WaitingFramesAreHandedOn := by
  refine ⟨fun s hpass => ⟨fun k rest c l more hp hc hl hr hroom => ?_, fun h => ?_⟩, fun s => ?_,
    fun s => ⟨fun n => floorRoom_iff n s, fun f => rfl, rfl, rfl, rfl, rfl, rfl, waitingForwards_ne_zero,
      waitingCommands_ne_zero, waitingAnswers_ne_zero, waitingVerdicts_ne_zero, waitingPicks_ne_zero⟩,
    fun s => ⟨fun b f rest h1 h24 hlow hb => ⟨fun hroom => ?_, fun hroom => ?_⟩, exec_owedCommand_none,
      fun f hf => ⟨fun hroom => ?_, fun hroom => ?_⟩, fun hf => ?_⟩⟩
  · rw [exec_pick hpass, handPick_hands hp hr hroom, pickHanded, pickFor_eq hc, pickTo, hl]
    rfl
  · rw [exec_pick hpass, handPick_waits h]
  · intro role n frame hall
    exact handPicks_eq hall
  · have hbay : bayAt (modBay b (fun bay => { bay with owed := rest }) s) b = { bayAt s b with owed := rest } :=
      bayAt_modBay_same h1 h24 _ s
    have hothers : ∀ o, o ≠ b → bayAt (modBay b (fun bay => { bay with owed := rest }) s) o = bayAt s o :=
      fun o ho => bayAt_modBay_other ho _ s
    have hown := commandHanded_bay (f := f) h1 h24 (modBay b (fun bay => { bay with owed := rest }) s)
    rw [hbay] at hown
    refine ⟨modBay b (fun bay => { bay with owed := rest }) s, _,
      (exec_owedCommand (owingBay_eq h1 h24 hlow hb) hb).trans (if_pos hroom), rfl, hbay, hothers,
      commandHanded_frame b f _, fun hkind => ?_, fun hkind => ?_, fun o ho => ?_⟩
    · rw [hown, if_neg (by simp [waitsForAnswer, hkind])]
    · rw [hown, if_pos (by simpa [waitsForAnswer, or_assoc] using hkind)]
      rfl
    · rw [commandHanded_other ho, hothers o ho]
  · rw [exec_owedCommand (owingBay_eq h1 h24 hlow hb) hb, hroom]
    rfl
  · exact (exec_owedAnswer hf).trans (if_pos hroom)
  · exact (exec_owedAnswer hf).trans (if_neg (Bool.eq_false_iff.mp hroom))
  · exact exec_owedAnswer_none hf
end

