-- ==== Sys2Proof/Proofs/Roles.lean ====
section
/-! PROOFS. The poll set (R199), what handing on leaves as it was, and the station roles (R68, R119, R145, R186). -/

namespace Sys2Proof.Machine

/-! ## The poll set -/

section Poll

variable {s : State} {b k : Nat}

theorem joinPoll_frame (b : Nat) (s : State) : joinPoll b s = { s with line.pollSet := (joinPoll b s).line.pollSet } := by
  unfold joinPoll
  split_ifs <;> rfl

theorem leavePoll_frame (b : Nat) (s : State) : leavePoll b s = { s with line.pollSet := (leavePoll b s).line.pollSet } := by
  unfold leavePoll
  split_ifs <;> rfl

theorem mem_joinPoll (hk : k < 64) : (joinPoll b s).line.pollSet.getLsbD k = true ↔
    (b ≠ 0 ∧ k = b) ∨ s.line.pollSet.getLsbD k = true := by
  unfold joinPoll
  split_ifs with hb
  · simp [hb]
  · have hb' : b < 64 ∧ b = k ↔ b ≠ 0 ∧ k = b := by omega
    simp only [BitVec.getLsbD_or, BitVec.getLsbD_twoPow, Bool.or_eq_true, Bool.and_eq_true, decide_eq_true_eq, hb']
    exact or_comm

theorem mem_leavePoll (hk : k < 64) : (leavePoll b s).line.pollSet.getLsbD k = true ↔
    s.line.pollSet.getLsbD k = true ∧ (b = 0 ∨ k ≠ b) := by
  unfold leavePoll
  split_ifs with hb
  · simp [hb]
  · have hb' : k < 64 ∧ ¬(b < 64 ∧ b = k) ↔ b = 0 ∨ k ≠ b := by omega
    simp only [BitVec.getLsbD_and, BitVec.getLsbD_not, BitVec.getLsbD_twoPow, Bool.and_eq_true, Bool.not_eq_true',
      decide_eq_true_eq, ← Bool.not_eq_true, hb']

end Poll

/-! ## Handing on (R68, R107) -/

section HandOn

variable {s : State}

/-- Nothing differs but the floor transmit queue and the picks. -/
def PicksOnly (s t : State) : Prop :=
  t = { s with
    line.floorTx := t.line.floorTx, line.contended := t.line.contended
    assembly.picks := t.assembly.picks, assembly.picksSent := t.assembly.picksSent }

theorem PicksOnly.trans {t u : State} (h : PicksOnly s t) (g : PicksOnly t u) : PicksOnly s u := by
  unfold PicksOnly at h g ⊢
  rw [g, h]

theorem handPick_frame (ahead : Nat) (s : State) : PicksOnly s (handPick ahead s) := by
  unfold handPick
  split
  · rfl
  · split_ifs <;> rfl

theorem handPicks_frame (n : Nat) (s : State) : PicksOnly s (handPicks n s) := by
  induction n generalizing s with
  | zero => rfl
  | succ n ih => exact (handPick_frame _ s).trans (ih _)

theorem handPick_prefix (ahead : Nat) (s : State) : s.line.floorTx <+: (handPick ahead s).line.floorTx := by
  unfold handPick
  split
  · exact List.prefix_rfl
  · split_ifs
    · exact List.prefix_append ..
    · exact List.prefix_rfl

theorem handPicks_prefix (n : Nat) (s : State) : s.line.floorTx <+: (handPicks n s).line.floorTx := by
  induction n generalizing s with
  | zero => exact List.prefix_rfl
  | succ n ih => exact (handPick_prefix _ s).trans (ih _)

theorem releaseUpTo_prefix (n ahead : Nat) (s : State) : s.line.floorTx <+: (releaseUpTo n ahead s).line.floorTx := by
  induction n generalizing s with
  | zero => exact List.prefix_rfl
  | succ n ih =>
    unfold releaseUpTo
    split_ifs
    · split
      · exact List.prefix_rfl
      · split
        · exact List.prefix_rfl
        · next k _ _ c _ =>
          have hone : s.line.floorTx <+: (releaseOne k c s).line.floorTx := List.prefix_append ..
          exact hone.trans (ih _)
    · exact List.prefix_rfl

end HandOn

/-! ## A role's write (R186) -/

section Role

variable {setting value : Byte} {s s0 : State} {old : Nat} {others : List Nat} {f : Settings → Settings}
  {act : State → State}

/-- The answer to the write of a role that stood at `old`: `f` writes the setting, and in SERVICE its block does `act`. -/
def roleAnswer (old v : Nat) (others : List Nat) (f : Settings → Settings) (act : State → State) (s : State) : Answer :=
  if roleConflict s v others then refuse .conflict s else wrote v (changeRole old v (modSettings f) act s)

theorem roleConflict_iff {v : Nat} : roleConflict s v others = true ↔
    v ≠ 0 ∧ (v ∈ others ∨ ∃ b ∈ bayNumbers, (bayAt s b).address = v) := by
  simp [roleConflict]

/-- The setting written and the address moved in the poll set, before the block acts. -/
def roleMoved (old v : Nat) (f : Settings → Settings) (s : State) : State := joinPoll v (leavePoll old (modSettings f s))

theorem roleMoved_eq (old v : Nat) (f : Settings → Settings) (s : State) :
    roleMoved old v f s = { s with
      line.pollSet := (roleMoved old v f s).line.pollSet, management.settings := f s.management.settings } := by
  have hjoin := joinPoll_frame v (leavePoll old (modSettings f s))
  have hleave := leavePoll_frame old (modSettings f s)
  unfold roleMoved
  generalize joinPoll v (leavePoll old (modSettings f s)) = t at hjoin ⊢
  generalize leavePoll old (modSettings f s) = u at hjoin hleave
  rw [hjoin, hleave]
  rfl

theorem mem_roleMoved {v k : Nat} (hk : k < 64) : (roleMoved old v f s).line.pollSet.getLsbD k = true ↔
    (v ≠ 0 ∧ k = v) ∨ (s.line.pollSet.getLsbD k = true ∧ (old = 0 ∨ k ≠ old)) := by
  rw [roleMoved, mem_joinPoll hk, mem_leavePoll hk]
  rfl

/-- SET_SETTING `setting` writes the role that stands at `old`. -/
def WritesRole (setting value : Byte) (s0 : State) (old : Nat) (others : List Nat) (f : Settings → Settings)
    (act : State → State) : Prop :=
  (match settingWrite setting value with
    | none => refuse .badField s0
    | some w => writeSetting w value.toNat s0) = roleAnswer old value.toNat others f act s0

theorem WritesRole.exec_eq (hw : WritesRole setting value s0 old others f act) (h : Takes (.setSetting setting value) s s0) :
    let a := roleAnswer old value.toNat others f act s0
    exec (.setSetting setting value) s = .next (replied (.setSetting setting value) a.code a.fields (settle a.state)) :=
  h.answered (act := fun s =>
    match settingWrite setting value with
    | none => refuse .badField s
    | some w => writeSetting w value.toNat s) rfl hw

theorem WritesRole.conflict (hw : WritesRole setting value s0 old others f act)
    (h : Takes (.setSetting setting value) s s0) (hc : roleConflict s0 value.toNat others = true) :
    exec (.setSetting setting value) s = .next (replied (.setSetting setting value) .conflict [] s0) := by
  rw [hw.exec_eq h, roleAnswer, if_pos hc]
  exact congrArg (fun u => Host.Outcome.next (replied _ _ _ u)) (settle_of_noPass h.noPass)

/-- A role that is accepted: the write, its placement pass (none is owed), the REPLY. -/
theorem WritesRole.accepted {t : State} (hw : WritesRole setting value s0 old others f act)
    (h : Takes (.setSetting setting value) s s0) (hc : ¬roleConflict s0 value.toNat others = true)
    (ht : changeRole old value.toNat (modSettings f) act s0 = t) (hp : t.passDue = s0.passDue) :
    exec (.setSetting setting value) s = .next (replied (.setSetting setting value) .ok [value] t) := by
  have hq : NoPassOwed t := hp.trans h.noPass
  have hbyte : byteOf value.toNat = value := BitVec.ofNat_toNat 8 value |>.trans (by simp)
  rw [hw.exec_eq h, roleAnswer, if_neg hc, wrote, ht, hbyte]
  exact congrArg (fun u => Host.Outcome.next (replied _ _ _ u)) (settle_of_noPass hq)

/-- What the blocks' acts leave as it was (R68, R119, R145). -/
def RoleActed (u t : State) : Prop :=
  t = { u with
    line.floorTx := t.line.floorTx, line.contended := t.line.contended, assembly := t.assembly, dispatch := t.dispatch
    returns := t.returns }

theorem changeRole_kept (write act : State → State) {v : Nat} (h : v = old) : changeRole old v write act s = s :=
  if_pos h.symm

theorem changeRole_setup (write act : State → State) {v : Nat} (h : v ≠ old) (hm : s.management.mode = .setup) :
    changeRole old v write act s = write s := by
  rw [changeRole, if_neg (Ne.symm h), hm]

theorem changeRole_service (f : Settings → Settings) (act : State → State) {v : Nat} (h : v ≠ old)
    (hm : s.management.mode = .service) : changeRole old v (modSettings f) act s = act (roleMoved old v f s) := by
  rw [changeRole, if_neg (Ne.symm h), hm]
  rfl

end Role

/-! ## What the blocks do (R68, R119, R145) -/

section Acts

variable {setting value : Byte} {s s0 u t : State} {old : Nat} {others : List Nat} {f : Settings → Settings}
  {act : State → State}

/-- The Assembly Unit at a change of the pick role. -/
def pickRoleAct (u : State) : State := handPicks (rebuildPicks u).assembly.picks.length (rebuildPicks u)

/-- The Dispatch Unit at a change of the sorter role. -/
def sorterRoleAct (u : State) : State := passReleases (cancelReleases u)

/-- The Return Inspection Unit at a change of the scanner role. -/
def scannerRoleAct (u : State) : State := startInspection (abandonReturns u)

theorem pickRole_acts (u : State) : RoleActed u (pickRoleAct u) := by
  have h := handPicks_frame (rebuildPicks u).assembly.picks.length (rebuildPicks u)
  unfold pickRoleAct
  generalize handPicks (rebuildPicks u).assembly.picks.length (rebuildPicks u) = t at h ⊢
  rw [PicksOnly] at h
  rw [RoleActed, h]
  rfl

theorem sorterRole_acts (u : State) : RoleActed u (sorterRoleAct u) := by
  have h := (passReleases_released (cancelReleases u)).frame
  unfold sorterRoleAct
  generalize passReleases (cancelReleases u) = t at h ⊢
  rw [RoleActed, h]
  rfl

/-- The emptied return queue starts no inspection (R126, R145). -/
theorem scannerRole_acts (u : State) : RoleActed u (scannerRoleAct u) := rfl

theorem RoleActed.passDue (h : RoleActed u t) : t.passDue = u.passDue := by
  unfold RoleActed at h
  rw [h]

theorem RoleActed.pollSet (h : RoleActed u t) : t.line.pollSet = u.line.pollSet := by
  unfold RoleActed at h
  rw [h]

/-- Outside the units that act, an accepted change in SERVICE writes the setting and moves the address (R186). -/
theorem RoleActed.kept {v : Nat} (h : RoleActed (roleMoved old v f s0) t) (hs : Takes (.setSetting setting value) s s0) :
    t.management = { s0.management with settings := f s.management.settings } ∧ t.records = s.records ∧
      t.requests = s.requests ∧ t.scheduler = s.scheduler ∧ t.accounts = s.accounts ∧ t.days = s.days ∧
      ∀ k, k < 64 → (t.line.pollSet.getLsbD k = true ↔
        (v ≠ 0 ∧ k = v) ∨ (s0.line.pollSet.getLsbD k = true ∧ (old = 0 ∨ k ≠ old))) := by
  have hpoll : ∀ k, k < 64 → (t.line.pollSet.getLsbD k = true ↔
      (v ≠ 0 ∧ k = v) ∨ (s0.line.pollSet.getLsbD k = true ∧ (old = 0 ∨ k ≠ old))) := fun k hk => by
    rw [h.pollSet, mem_roleMoved hk]
  have hm : s0.management = s.management := hs.management
  have hline := hs.line_only
  rw [roleMoved_eq] at h
  unfold RoleActed at h
  rw [h]
  refine ⟨by rw [hm], hs.records, hs.requests, hs.scheduler, ?_, ?_, ?_⟩
  · rw [hline]
  · rw [hline]
  · rwa [h] at hpoll

theorem settingWrite_pick (hv : roleOk value.toNat = true) :
    WritesRole 7 value s0 s0.management.settings.pickRole
      [s0.management.settings.sorterRole, s0.management.settings.scannerRole]
      (fun x => { x with pickRole := value.toNat }) pickRoleAct := by
  have hs : settingWrite 7 value = some (.pickRole value.toNat) := if_pos hv
  rw [WritesRole, hs]
  rfl

theorem settingWrite_sorter (hv : roleOk value.toNat = true) :
    WritesRole 8 value s0 s0.management.settings.sorterRole
      [s0.management.settings.pickRole, s0.management.settings.scannerRole]
      (fun x => { x with sorterRole := value.toNat }) sorterRoleAct := by
  have hs : settingWrite 8 value = some (.sorterRole value.toNat) := if_pos hv
  rw [WritesRole, hs]
  rfl

theorem settingWrite_scanner (hv : roleOk value.toNat = true) :
    WritesRole 9 value s0 s0.management.settings.scannerRole
      [s0.management.settings.pickRole, s0.management.settings.sorterRole]
      (fun x => { x with scannerRole := value.toNat }) scannerRoleAct := by
  have hs : settingWrite 9 value = some (.scannerRole value.toNat) := if_pos hv
  rw [WritesRole, hs]
  rfl

/-- R186 for one role: the conflict, the value that stands, the write in SETUP, the change in SERVICE. -/
theorem WritesRole.outcomes (hw : WritesRole setting value s0 old others f act) (h : Takes (.setSetting setting value) s s0)
    (hact : ∀ u, RoleActed u (act u)) (hf : value.toNat = old → f s0.management.settings = s0.management.settings) :
    let reply := replied (.setSetting setting value) .ok [value]
    (roleConflict s0 value.toNat others = true →
      exec (.setSetting setting value) s = .next (replied (.setSetting setting value) .conflict [] s0)) ∧
    (¬roleConflict s0 value.toNat others = true →
      (value.toNat = old → exec (.setSetting setting value) s = .next (reply s0)) ∧
      (s.management.mode = .setup →
        exec (.setSetting setting value) s = .next (reply (modSettings f s0))) ∧
      (s.management.mode = .service → value.toNat ≠ old →
        exec (.setSetting setting value) s = .next (reply (act (roleMoved old value.toNat f s0))))) := by
  intro reply
  have hm : s0.management.mode = s.management.mode := by rw [h.management]
  have hsame : value.toNat = old → modSettings f s0 = s0 := fun hv => by
    rw [modSettings, hf hv]
  refine ⟨hw.conflict h, fun hc => ⟨fun hv => hw.accepted h hc (changeRole_kept _ _ hv) rfl, fun hsetup => ?_,
    fun hservice hv => hw.accepted h hc (changeRole_service f act hv (hm.trans hservice)) ?_⟩⟩
  · by_cases hv : value.toNat = old
    · rw [hsame hv]
      exact hw.accepted h hc (changeRole_kept _ _ hv) rfl
    · exact hw.accepted h hc (changeRole_setup _ _ hv (hm.trans hsetup)) rfl
  · rw [(hact _).passDue, roleMoved_eq]

/-- R68: the pick requests are pending again, in ascending index, when the PICKs are handed on. -/
theorem rebuildPicks_roleMoved (v : Nat) (h : t.line.pollSet = (roleMoved old v f s0).line.pollSet)
    (hasm : s0.assembly = s.assembly) : rebuildPicks (roleMoved old v f s0) = { s0 with
      line.pollSet := t.line.pollSet, management.settings := f s0.management.settings
      assembly.picks := (s.assembly.cons.filter fun e => decide (e.2.state = .picking ∧ e.2.lines ≠ [])).map Prod.fst
      assembly.picksSent := 0 } := by
  rw [h, ← hasm]
  unfold rebuildPicks
  rw [roleMoved_eq]

/-- R119: the releases are cancelled before the release pass. -/
theorem cancelReleases_roleMoved (v : Nat) (h : t.line.pollSet = (roleMoved old v f s0).line.pollSet)
    (hasm : s0.assembly = s.assembly) (hdis : s0.dispatch = s.dispatch) : cancelReleases (roleMoved old v f s0) = { s0 with
      line.pollSet := t.line.pollSet, management.settings := f s0.management.settings
      assembly.cons := s.assembly.cons.map fun e =>
        if e.2.state = .releasing then (e.1, { e.2 with state := .ready }) else e
      dispatch := { s.dispatch with outstanding := [], blocked := 0 } } := by
  rw [h, ← hasm, ← hdis]
  unfold cancelReleases
  rw [roleMoved_eq]

theorem roleMoved_units (old v : Nat) (f : Settings → Settings) (s : State) :
    (roleMoved old v f s).assembly = s.assembly ∧ (roleMoved old v f s).dispatch = s.dispatch ∧
      (roleMoved old v f s).returns = s.returns := by
  rw [roleMoved_eq]
  exact ⟨rfl, rfl, rfl⟩

theorem pickRoleAct_kept (u : State) : (pickRoleAct u).assembly.cons = u.assembly.cons ∧
    (pickRoleAct u).dispatch = u.dispatch ∧ (pickRoleAct u).returns = u.returns := by
  have h := handPicks_frame (rebuildPicks u).assembly.picks.length (rebuildPicks u)
  rw [PicksOnly] at h
  rw [pickRoleAct, h]
  exact ⟨rfl, rfl, rfl⟩

theorem sorterRoleAct_kept (u : State) : (sorterRoleAct u).dispatch.blocked = 0 ∧
    (sorterRoleAct u).dispatch.ready = u.dispatch.ready ∧ (sorterRoleAct u).returns = u.returns := by
  rw [sorterRoleAct, (passReleases_released _).frame]
  exact ⟨rfl, rfl, rfl⟩

end Acts

end Sys2Proof.Machine

open Sys2Proof Sys2Proof.Machine in
/-- Settles O23: one account of the three roles, and what each of their blocks does with it. -/
theorem stationRolesAreWritten : Obligations.StationRolesAreWritten := by
  intro setting value s s0 h v i x roles written old clash hset hv
  have hok : roleOk value.toNat = true := decide_eq_true hv
  have hx : s0.management.settings = x := by rw [h.management]
  have hbays : ∀ b, bayAt s0 b = bayAt s b := fun b => by rw [bayAt, h.scheduler, bayAt]
  have hasm : s0.assembly = s.assembly := h.assembly
  have hdispatch : s0.dispatch = s.dispatch := by rw [h.line_only]
  have hreturns : s0.returns = s.returns := by rw [h.line_only]
  have hcases : setting = 7 ∨ setting = 8 ∨ setting = 9 := by
    have h7 : setting.toNat = 7 ∨ setting.toNat = 8 ∨ setting.toNat = 9 := by omega
    exact h7.imp BitVec.eq_of_toNat_eq (Or.imp BitVec.eq_of_toNat_eq BitVec.eq_of_toNat_eq)
  have hclash : ∀ {others : List Nat}, (v ≠ 0 ∧ (v ∈ others ∨ ∃ b ∈ bayNumbers, (bayAt s b).address = v)) ↔
      roleConflict s0 v others = true := by
    intro others
    rw [roleConflict_iff]
    simp only [hbays]
  obtain rfl | rfl | rfl := hcases
  · have hw := settingWrite_pick (s0 := s0) hok
    rw [hx] at hw
    obtain ⟨hrefused, haccepted⟩ := hw.outcomes h pickRole_acts fun hold => by rw [hx, hold]
    refine ⟨fun hc => hrefused (hclash.mp hc), fun hc => ?_⟩
    obtain ⟨hsame, hsetup, hservice⟩ := haccepted fun hr => hc (hclash.mpr hr)
    refine ⟨hsame, fun hm => by rw [hsetup hm, modSettings, hx]; rfl, fun hm hne => ?_⟩
    obtain ⟨hasmu, hdisu, hretu⟩ := roleMoved_units x.pickRole v (fun x => { x with pickRole := v }) s0
    have hacts := pickRole_acts (roleMoved x.pickRole v (fun x => { x with pickRole := v }) s0)
    obtain ⟨hman, hrec, hreq, hsch, hacc, hdays, hpoll⟩ := hacts.kept h
    obtain ⟨hcons, hdis, hret⟩ := pickRoleAct_kept (roleMoved x.pickRole v (fun x => { x with pickRole := v }) s0)
    have hu := rebuildPicks_roleMoved v hacts.pollSet hasm
    rw [hx] at hu
    exact ⟨_, hservice hm hne, rfl, hman, hrec, hreq, hsch, hacc, hdays, hpoll,
      fun _ => ⟨hcons.trans (by rw [hasmu, hasm]), hdis.trans (hdisu.trans hdispatch), hret.trans (hretu.trans hreturns),
        _, rfl, hu⟩,
      fun h8 => absurd h8 (by decide), fun h9 => absurd h9 (by decide)⟩
  · have hw := settingWrite_sorter (s0 := s0) hok
    rw [hx] at hw
    obtain ⟨hrefused, haccepted⟩ := hw.outcomes h sorterRole_acts fun hold => by rw [hx, hold]
    refine ⟨fun hc => hrefused (hclash.mp hc), fun hc => ?_⟩
    obtain ⟨hsame, hsetup, hservice⟩ := haccepted fun hr => hc (hclash.mpr hr)
    refine ⟨hsame, fun hm => by rw [hsetup hm, modSettings, hx]; rfl, fun hm hne => ?_⟩
    obtain ⟨hasmu, hdisu, hretu⟩ := roleMoved_units x.sorterRole v (fun x => { x with sorterRole := v }) s0
    have hacts := sorterRole_acts (roleMoved x.sorterRole v (fun x => { x with sorterRole := v }) s0)
    obtain ⟨hman, hrec, hreq, hsch, hacc, hdays, hpoll⟩ := hacts.kept h
    obtain ⟨hblocked, hready, hret⟩ :=
      sorterRoleAct_kept (roleMoved x.sorterRole v (fun x => { x with sorterRole := v }) s0)
    have hu := cancelReleases_roleMoved v hacts.pollSet hasm hdispatch
    rw [hx] at hu
    exact ⟨_, hservice hm hne, rfl, hman, hrec, hreq, hsch, hacc, hdays, hpoll, fun h7 => absurd h7 (by decide),
      fun _ => ⟨hblocked, hready.trans (by rw [hdisu, hdispatch]), hret.trans (hretu.trans hreturns), _, rfl, hu⟩,
      fun h9 => absurd h9 (by decide)⟩
  · have hw := settingWrite_scanner (s0 := s0) hok
    rw [hx] at hw
    obtain ⟨hrefused, haccepted⟩ := hw.outcomes h scannerRole_acts fun hold => by rw [hx, hold]
    refine ⟨fun hc => hrefused (hclash.mp hc), fun hc => ?_⟩
    obtain ⟨hsame, hsetup, hservice⟩ := haccepted fun hr => hc (hclash.mpr hr)
    refine ⟨hsame, fun hm => by rw [hsetup hm, modSettings, hx]; rfl, fun hm hne => ?_⟩
    obtain ⟨hasmu, hdisu, hretu⟩ := roleMoved_units x.scannerRole v (fun x => { x with scannerRole := v }) s0
    have hacts := scannerRole_acts (roleMoved x.scannerRole v (fun x => { x with scannerRole := v }) s0)
    obtain ⟨hman, hrec, hreq, hsch, hacc, hdays, hpoll⟩ := hacts.kept h
    refine ⟨_, hservice hm hne, rfl, hman, hrec, hreq, hsch, hacc, hdays, hpoll, fun h7 => absurd h7 (by decide),
      fun h8 => absurd h8 (by decide), fun _ => ⟨?_, hasmu.trans hasm, hdisu.trans hdispatch⟩⟩
    rw [← hreturns, ← hretu]
    rfl
end

