-- ==== Sys2Proof/Proofs/JobsSent.lean ====
section
/-! PROOFS. Jobs sent back to the heads of their levels while cartridges move from reserved to repair (R74, R95, R96). -/

namespace Sys2Proof.Machine

section Sent

variable {s t u : State} {f g : Nat → Job → Job} {held moved js : List Nat} {j : Nat} {x : Job}

/-- Job `j` has priority `l`. -/
def ofLevel (s : State) (l j : Nat) : Bool := (Table.get s.scheduler.jobs j).any fun x => x.priority == l

/-- Job `j` has cartridge class `c`. -/
def ofClass (s : State) (c j : Nat) : Bool := (Table.get s.scheduler.jobs j).any fun x => x.cartridgeClass == c

/-- From `s` to `u` the jobs `moved`, rewritten by `f`, have joined the heads of their levels one after another, and one
reserved cartridge of each of the jobs `held` has moved to repair. -/
structure JobsSent (f : Nat → Job → Job) (held moved : List Nat) (s u : State) : Prop where
  frame : u = { s with
    accounts := u.accounts, scheduler.jobs := u.scheduler.jobs, scheduler.queues := u.scheduler.queues
    scheduler.bays := u.scheduler.bays, passDue := u.passDue }
  jobs : ∀ j, Table.get u.scheduler.jobs j =
    if j ∈ moved then (Table.get s.scheduler.jobs j).map (f j) else Table.get s.scheduler.jobs j
  queues : ∀ l, l ≤ 3 → queueAt u l = (moved.filter (ofLevel s l)).reverse ++ queueAt s l
  counts : ∀ c, accountAt u c =
    { accountAt s c with reserved := (accountAt u c).reserved, repair := (accountAt u c).repair }
  accounts : ∀ c, 1 ≤ c → c ≤ 4 → held.countP (ofClass s c) ≤ (accountAt s c).reserved → accountAt u c =
    { accountAt s c with
      reserved := (accountAt s c).reserved - held.countP (ofClass s c)
      repair := (accountAt s c).repair + held.countP (ofClass s c) }

/-- What rewrites the jobs keeps their level and class, and twice is once. -/
def Resettles (f : Nat → Job → Job) : Prop :=
  ∀ j x, f j (f j x) = f j x ∧ (f j x).priority = x.priority ∧ (f j x).cartridgeClass = x.cartridgeClass

theorem JobsSent.of_bays (h : u = { s with scheduler.bays := u.scheduler.bays, passDue := u.passDue }) :
    JobsSent f [] [] s u where
  frame := by rw [h]
  jobs _ := by rw [h]; rfl
  queues _ _ := by rw [h]; rfl
  counts _ := by rw [h]; rfl
  accounts _ _ _ _ := by rw [h]; rfl

theorem JobsSent.refl (s : State) : JobsSent f [] [] s s := .of_bays rfl

theorem JobsSent.any_eq (h : JobsSent f held moved s t) {p : Job → Bool}
    (hp : ∀ j x, p (f j x) = p x) (j : Nat) :
    (Table.get t.scheduler.jobs j).any p = (Table.get s.scheduler.jobs j).any p := by
  rw [h.jobs]
  split_ifs
  · cases Table.get s.scheduler.jobs j with
    | none => rfl
    | some x => exact hp j x
  · rfl

theorem JobsSent.ofLevel_eq (hf : Resettles f) (h : JobsSent f held moved s t) (l : Nat) : ofLevel t l = ofLevel s l :=
  funext fun j => h.any_eq (fun j x => by rw [(hf j x).2.1]) j

theorem JobsSent.ofClass_eq (hf : Resettles f) (h : JobsSent f held moved s t) (c : Nat) : ofClass t c = ofClass s c :=
  funext fun j => h.any_eq (fun j x => by rw [(hf j x).2.2]) j

theorem JobsSent.trans (hf : Resettles f) {held' moved' : List Nat} (h : JobsSent f held moved s t)
    (g : JobsSent f held' moved' t u) : JobsSent f (held ++ held') (moved ++ moved') s u where
  frame := by rw [g.frame, h.frame]
  jobs j := by
    rw [g.jobs, h.jobs]
    by_cases h1 : j ∈ moved <;> by_cases h2 : j ∈ moved' <;>
      simp [h1, h2, Option.map_map, Function.comp_def, (hf j _).1]
  queues l hl := by
    rw [g.queues l hl, h.queues l hl, h.ofLevel_eq hf, List.filter_append, List.reverse_append, List.append_assoc]
  counts c := by rw [g.counts, h.counts]
  accounts c h1 h4 hr := by
    rw [List.countP_append] at hr ⊢
    have ht := h.accounts c h1 h4 (by omega)
    have hu := g.accounts c h1 h4 (by rw [h.ofClass_eq hf, ht]; show _ ≤ _ - _; omega)
    rw [hu, ht, h.ofClass_eq hf]
    simp only [Nat.sub_sub, Nat.add_assoc]

theorem JobsSent.congr (h : JobsSent f held moved s u) (hfg : ∀ j ∈ moved, f j = g j) : JobsSent g held moved s u where
  frame := h.frame
  jobs j := by
    rw [h.jobs]
    split_ifs with hj
    · rw [hfg j hj]
    · rfl
  queues := h.queues
  counts := h.counts
  accounts := h.accounts

/-- A step that sends `held j` and `moved j` for one number, taken over a list. -/
theorem JobsSent.foldl (hf : Resettles f) {step : State → Nat → State} {heldOf movedOf : Nat → List Nat}
    (h : ∀ s j, JobsSent f (heldOf j) (movedOf j) s (step s j)) (js : List Nat) (s : State) :
    JobsSent f (js.flatMap heldOf) (js.flatMap movedOf) s (js.foldl step s) := by
  induction js generalizing s with
  | nil => exact .refl s
  | cons j js ih => exact (h s j).trans hf (ih _)

/-! ## One cartridge, one job -/

theorem move_repair (a : ClassAccount) : ClassAccount.move .reserved .repair 1 a =
    if 1 ≤ a.reserved then { a with reserved := a.reserved - 1, repair := a.repair + 1 } else a := rfl

theorem moveReserved_absent (hj : Table.get s.scheduler.jobs j = none) (dst : Place) : moveReserved j dst s = s := by
  simp only [moveReserved, hj]

theorem ofClass_iff {c : Nat} (hj : Table.get s.scheduler.jobs j = some x) : ofClass s c j = true ↔ x.cartridgeClass = c := by
  simp [ofClass, hj]

theorem moveReserved_sent (j : Nat) (s : State) : JobsSent f [j] [] s (moveReserved j .repair s) := by
  cases hj : Table.get s.scheduler.jobs j with
  | none =>
    rw [moveReserved_absent hj]
    refine ⟨rfl, fun _ => rfl, fun _ _ => rfl, fun _ => rfl, fun c _ _ _ => ?_⟩
    have hc : [j].countP (ofClass s c) = 0 := by simp [ofClass, hj]
    rw [hc]
    rfl
  | some x =>
    have hacc : ∀ c, accountAt (moveReserved j .repair s) c =
        if c = x.cartridgeClass ∧ 1 ≤ c ∧ c ≤ 4 then ClassAccount.move .reserved .repair 1 (accountAt s c)
        else accountAt s c := fun c => by rw [moveReserved_eq hj, accountAt_modAccount]
    have hframe := moveReserved_frame hj .repair
    refine ⟨?_, fun _ => ?_, fun l _ => ?_, fun c => ?_, fun c h1 h4 hr => ?_⟩
    · rw [hframe]
    · rw [hframe]; rfl
    · rw [hframe]; rfl
    · rw [hacc, move_repair]
      split_ifs <;> rfl
    · rw [List.countP_singleton] at hr ⊢
      rw [hacc, move_repair]
      by_cases hc : x.cartridgeClass = c
      · rw [if_pos ((ofClass_iff hj).mpr hc)] at hr ⊢
        rw [if_pos ⟨hc.symm, h1, h4⟩, if_pos hr]
      · rw [if_neg fun h => hc ((ofClass_iff hj).mp h), if_neg fun h => hc h.1.symm]
        rfl

theorem queueHead_absent (hj : Table.get s.scheduler.jobs j = none) : queueHead j s = s := by
  simp only [queueHead, hj]

/-- A job rewritten by `r` joins the head of its level. -/
theorem queueHead_sent {r : Job → Job} (hframe : t = { s with scheduler.jobs := t.scheduler.jobs })
    (hjobs : ∀ i, Table.get t.scheduler.jobs i =
      if i = j then (Table.get s.scheduler.jobs i).map r else Table.get s.scheduler.jobs i)
    (hr : ∀ x, (r x).priority = x.priority) :
    JobsSent (fun _ x => { r x with state := .queued, bay := 0 }) [] [j] s (queueHead j t) := by
  have hqueues : ∀ l, queueAt t l = queueAt s l := fun l => by rw [hframe]; rfl
  have haccounts : ∀ c, accountAt t c = accountAt s c := fun c => by rw [hframe]; rfl
  have htj : Table.get t.scheduler.jobs j = (Table.get s.scheduler.jobs j).map r := by rw [hjobs, if_pos rfl]
  cases hj : Table.get s.scheduler.jobs j with
  | none =>
    rw [hj] at htj
    rw [queueHead_absent htj]
    refine ⟨by rw [hframe], fun i => ?_, fun l _ => ?_, fun c => by rw [haccounts], fun c _ _ _ => by rw [haccounts]; rfl⟩
    · simp only [hjobs, List.mem_singleton]
      split_ifs with hi
      · rw [hi, hj]; rfl
      · rfl
    · rw [hqueues, List.filter_singleton, ofLevel, hj]
      rfl
  | some x =>
    rw [hj] at htj
    have hacc : ∀ c, accountAt (queueHead j t) c = accountAt s c := fun c => by
      rw [queueHead_frame htj, ← haccounts]
      rfl
    refine ⟨?_, fun i => ?_, fun l hl => ?_, fun c => by rw [hacc], fun c _ _ _ => by rw [hacc]; rfl⟩
    · rw [queueHead_frame htj, hframe]
    · simp only [List.mem_singleton, queueHead_eq htj, owePass_scheduler, modQueue_jobs, modJob_jobs, Table.get_modify, hjobs]
      split_ifs
      · rw [Option.map_map]; rfl
      · rfl
    · rw [queueAt_queueHead htj hl, hqueues, List.filter_singleton, ofLevel, hj, hr]
      by_cases h : l = x.priority
      · simp [h]
      · have hl' : (x.priority == l) = false := beq_false_of_ne (Ne.symm h)
        simp [h, hl']

theorem queueHead_same_sent (j : Nat) (s : State) :
    JobsSent (fun _ x => { x with state := .queued, bay := 0 }) [] [j] s (queueHead j s) :=
  queueHead_sent (r := id) rfl (fun i => by rw [Option.map_id_fun, id_eq, ite_self]) fun _ => rfl

theorem requeue_sent (j : Nat) (s : State) :
    JobsSent (fun _ x => { x with state := .queued, bay := 0, offset := 0, serial := none }) [] [j] s (requeue j s) :=
  queueHead_sent (r := fun x => { x with offset := 0, serial := none }) rfl
    (fun i => Table.get_modify s.scheduler.jobs j i fun x => { x with offset := 0, serial := none }) fun _ => rfl

/-! ## The cartridges of a list of jobs, the jobs themselves -/

theorem flatMap_nil (js : List Nat) : (js.flatMap fun _ => ([] : List Nat)) = [] :=
  List.flatMap_eq_nil_iff.mpr fun _ _ => rfl

theorem moveReserved_foldl_sent (hf : Resettles f) (js : List Nat) (s : State) :
    JobsSent f js [] s (js.foldl (fun s j => moveReserved j .repair s) s) := by
  have h := JobsSent.foldl hf (step := fun s j => moveReserved j .repair s) (fun s j => moveReserved_sent j s) js s
  rwa [List.flatMap_singleton', flatMap_nil] at h

theorem foldl_bays {step : State → Nat → State} (h : ∀ s j, (step s j).scheduler.bays = s.scheduler.bays) (js : List Nat)
    (s : State) : (js.foldl step s).scheduler.bays = s.scheduler.bays := by
  induction js generalizing s with
  | nil => rfl
  | cons j js ih => exact (ih _).trans (h s j)

theorem moveReserved_bays (dst : Place) (s : State) (j : Nat) :
    (moveReserved j dst s).scheduler.bays = s.scheduler.bays := by
  unfold moveReserved
  split <;> rfl

theorem queueHead_bays (j : Nat) (s : State) : (queueHead j s).scheduler.bays = s.scheduler.bays := by
  unfold queueHead
  split <;> rfl

/-- The pending pre-emptor of a bay, if it has one. -/
def pendingOf (bay : Bay) : List Nat := if bay.preemptor = 0 then [] else [bay.preemptor]

end Sent

end Sys2Proof.Machine
end

