-- ==== Sys2Proof/Proofs/Restart.lean ====
section
/-! PROOFS. RESTART: the bays' jobs put back (R100), the line emptied (R189, R200), the releases and returns given up (R120,
R146), the picks and releases handed on again. -/

namespace Sys2Proof.Machine

/-! ## The bays' jobs are put back (R96, R100) -/

section PutBacks

variable {s t u : State} {b o : Nat}

/-- A job put back is QUEUED with its cartridge forgotten (R96). -/
def putBackJob (_ : Nat) (x : Job) : Job := { x with state := .queued, bay := 0, offset := 0, serial := none }

theorem putBackJob_resettles : Resettles putBackJob := fun _ _ => ⟨rfl, rfl, rfl⟩

/-- A bay after RESTART (R100). -/
def restartedBay (x : Bay) : Bay :=
  { x with state := .offline, active := 0, stack := [], preemptor := 0, running := false, owed := [] }

theorem requeue_bays (s : State) (j : Nat) : (requeue j s).scheduler.bays = s.scheduler.bays := queueHead_bays j _

/-- A bay's jobs sent back, before the bay is emptied. -/
def jobsPutBack (b : Nat) (s : State) : State :=
  let s2 := (heldJobs (bayAt s b)).foldl (fun s j => requeue j s)
    ((heldJobs (bayAt s b)).foldl (fun s j => moveReserved j .repair s) s)
  if (bayAt s b).preemptor = 0 then s2 else requeue (bayAt s b).preemptor s2

theorem jobsPutBack_sent (b : Nat) (s : State) :
    JobsSent putBackJob (heldJobs (bayAt s b)) (heldJobs (bayAt s b) ++ pendingOf (bayAt s b)) s (jobsPutBack b s) := by
  have hmoved := moveReserved_foldl_sent putBackJob_resettles (heldJobs (bayAt s b)) s
  have hboth := hmoved.trans putBackJob_resettles
    (.foldl putBackJob_resettles (step := fun s j => requeue j s) (fun s j => requeue_sent j s) (heldJobs (bayAt s b)) _)
  rw [List.flatMap_singleton', flatMap_nil, List.append_nil, List.nil_append] at hboth
  unfold jobsPutBack pendingOf
  split_ifs
  · rwa [List.append_nil]
  · have h := hboth.trans putBackJob_resettles (requeue_sent (bayAt s b).preemptor _)
    rwa [List.append_nil] at h

theorem jobsPutBack_bays (b : Nat) (s : State) : (jobsPutBack b s).scheduler.bays = s.scheduler.bays := by
  have h2 := (foldl_bays requeue_bays (heldJobs (bayAt s b)) _).trans
    (foldl_bays (moveReserved_bays .repair) (heldJobs (bayAt s b)) s)
  unfold jobsPutBack
  split_ifs
  · exact h2
  · exact (requeue_bays _ _).trans h2

theorem restartBay_eq (s : State) (b : Nat) : restartBay s b = modBay b restartedBay (jobsPutBack b s) :=
  modBay_modBay b _ _ _

theorem restartBay_sent (s : State) (b : Nat) :
    JobsSent putBackJob (heldJobs (bayAt s b)) (heldJobs (bayAt s b) ++ pendingOf (bayAt s b)) s (restartBay s b) := by
  have h := (jobsPutBack_sent b s).trans putBackJob_resettles (.of_bays (u := modBay b restartedBay (jobsPutBack b s)) rfl)
  rwa [List.append_nil, List.append_nil, ← restartBay_eq] at h

theorem restartBay_bayAt (h1 : 1 ≤ b) (h24 : b ≤ 24) (s : State) : bayAt (restartBay s b) b = restartedBay (bayAt s b) := by
  rw [restartBay_eq, bayAt_modBay_same h1 h24, bayAt, jobsPutBack_bays]
  rfl

theorem restartBay_other (h : o ≠ b) (s : State) : bayAt (restartBay s b) o = bayAt s o := by
  rw [restartBay_eq, bayAt_modBay_other h, bayAt, jobsPutBack_bays]
  rfl

/-- The bays one after another: no bay's jobs depend on another bay's. -/
theorem restartBays_sent {bs : List Nat} (hn : bs.Nodup) (s : State) :
    JobsSent putBackJob (bs.flatMap fun b => heldJobs (bayAt s b))
      (bs.flatMap fun b => heldJobs (bayAt s b) ++ pendingOf (bayAt s b)) s (bs.foldl restartBay s) := by
  induction bs generalizing s with
  | nil => exact .refl s
  | cons b bs ih =>
    rw [List.nodup_cons] at hn
    obtain ⟨hb, hn⟩ := hn
    have hsame : ∀ o ∈ bs, bayAt (restartBay s b) o = bayAt s o := fun o ho =>
      restartBay_other (ne_of_mem_of_not_mem ho hb) s
    have h := (restartBay_sent s b).trans putBackJob_resettles (ih hn (restartBay s b))
    have h1 : (bs.flatMap fun o => heldJobs (bayAt (restartBay s b) o)) = bs.flatMap fun o => heldJobs (bayAt s o) :=
      List.flatMap_congr fun o ho => by rw [hsame o ho]
    have h2 : (bs.flatMap fun o => heldJobs (bayAt (restartBay s b) o) ++ pendingOf (bayAt (restartBay s b) o)) =
        bs.flatMap fun o => heldJobs (bayAt s o) ++ pendingOf (bayAt s o) :=
      List.flatMap_congr fun o ho => by rw [hsame o ho]
    rw [h1, h2] at h
    exact h

theorem restartBays_bayAt {bs : List Nat} (hn : bs.Nodup) (hr : ∀ b ∈ bs, 1 ≤ b ∧ b ≤ 24) (s : State) :
    bayAt (bs.foldl restartBay s) o = if o ∈ bs then restartedBay (bayAt s o) else bayAt s o := by
  induction bs generalizing s with
  | nil => rfl
  | cons b bs ih =>
    rw [List.nodup_cons] at hn
    obtain ⟨hb, hn⟩ := hn
    obtain ⟨⟨h1, h24⟩, hr⟩ := List.forall_mem_cons.mp hr
    have hrest := ih hn hr (restartBay s b)
    rw [List.foldl_cons, hrest]
    by_cases ho : o = b
    · subst ho
      rw [if_neg hb, if_pos (List.mem_cons_self ..), restartBay_bayAt h1 h24]
    · rw [restartBay_other ho]
      simp [ho]

theorem JobsSent.putBack {bs : List Nat}
    (h : JobsSent putBackJob (bs.flatMap fun b => heldJobs (bayAt s b))
      (bs.flatMap fun b => heldJobs (bayAt s b) ++ pendingOf (bayAt s b)) s t)
    (hjobs : u.scheduler.jobs = t.scheduler.jobs) (hqueues : u.scheduler.queues = t.scheduler.queues) (hacc : u.accounts = t.accounts) :
    PutBack s u bs := by
  have hqueue : ∀ l, queueAt u l = queueAt t l := fun l => by rw [queueAt, hqueues, queueAt]
  have haccount : ∀ c, accountAt u c = accountAt t c := fun c => by rw [accountAt, hacc, accountAt]
  refine ⟨fun j hj => ?_, fun j hj => ?_, fun l hl => ?_, fun c h1 h4 hr => ?_⟩
  · rw [hjobs]
    exact (h.jobs j).trans (if_pos hj)
  · rw [hjobs]
    exact (h.jobs j).trans (if_neg hj)
  · rw [hqueue]
    exact h.queues l hl
  · rw [haccount]
    exact h.accounts c h1 h4 hr

theorem mem_bayNumbers : b ∈ bayNumbers ↔ 1 ≤ b ∧ b ≤ 24 := by
  simp [bayNumbers]
  omega

theorem bayNumbers_nodup : bayNumbers.Nodup := List.nodup_range'

end PutBacks

/-! ## The emptied line (R189 steps 1 and 3, R200) -/

section EmptiedLine

variable {s : State} {k : Nat}

theorem pollRoles_frame (s : State) : pollRoles s = { s with line.pollSet := (pollRoles s).line.pollSet } := by
  have h1 := joinPoll_frame s.management.settings.pickRole { s with line.pollSet := 0 }
  have h2 := joinPoll_frame s.management.settings.sorterRole
    (joinPoll s.management.settings.pickRole { s with line.pollSet := 0 })
  have h3 := joinPoll_frame s.management.settings.scannerRole (joinPoll s.management.settings.sorterRole
    (joinPoll s.management.settings.pickRole { s with line.pollSet := 0 }))
  unfold pollRoles
  rw [h3, h2, h1]

theorem mem_pollRoles (hk : k < 64) : (pollRoles s).line.pollSet.getLsbD k = true ↔
    k ≠ 0 ∧ (k = s.management.settings.pickRole ∨ k = s.management.settings.sorterRole ∨
      k = s.management.settings.scannerRole) := by
  have h0 : ((0 : BitVec 64).getLsbD k = true) ↔ False := by simp
  unfold pollRoles
  rw [mem_joinPoll hk, mem_joinPoll hk, mem_joinPoll hk, h0]
  constructor
  · rintro (⟨h, rfl⟩ | ⟨h, rfl⟩ | ⟨h, rfl⟩ | h)
    · exact ⟨h, .inr (.inr rfl)⟩
    · exact ⟨h, .inr (.inl rfl)⟩
    · exact ⟨h, .inl rfl⟩
    · exact h.elim
  · rintro ⟨h, rfl | rfl | rfl⟩
    · exact .inr (.inr (.inl ⟨h, rfl⟩))
    · exact .inr (.inl ⟨h, rfl⟩)
    · exact .inl ⟨h, rfl⟩

/-- The Line Interface after RESTART has emptied it, but for the poll set. -/
def emptiedLine (l : LineUnit) : LineUnit :=
  { l with
    officeRx := [], forward := none, floorTx := [], contended := false, turn := none
    officeLost := l.officeLost || decide (l.officeIn ≠ [])
    carried := if l.floorIn = [] then none else if l.early then l.carried else (l.turn.map Turn.station).or l.carried
    pollPos := 0, officeFaults := 0, floorFaults := 0, missed := Vector.replicate 47 0 }

theorem restartLine_eq (s : State) : restartLine s =
    { s with line := { emptiedLine s.line with pollSet := (restartLine s).line.pollSet } } := by
  have h := pollRoles_frame { s with line := emptiedLine s.line }
  have hdef : restartLine s = pollRoles { s with line := emptiedLine s.line } := rfl
  rw [hdef, h]

theorem mem_restartLine (hk : k < 64) : (restartLine s).line.pollSet.getLsbD k = true ↔
    k ≠ 0 ∧ (k = s.management.settings.pickRole ∨ k = s.management.settings.sorterRole ∨
      k = s.management.settings.scannerRole) :=
  mem_pollRoles hk

end EmptiedLine

/-! ## The blocks cleared, and handed on (R72, R100, R120, R146) -/

section Blocks

variable {s t u : State} {k : Nat}

/-- A consignment RELEASING is READY again (R120). -/
def releaseCancelled (e : Nat × Consignment) : Nat × Consignment :=
  if e.2.state = .releasing then (e.1, { e.2 with state := .ready }) else e

/-- The state after RESTART has cleared the blocks, with the bays' jobs of `v`. -/
def blocksCleared (s v : State) : State :=
  { s with
    assembly := { s.assembly with
      cons := s.assembly.cons.map releaseCancelled
      picks := (s.assembly.cons.filter fun e => decide (e.2.state = .picking ∧ e.2.lines ≠ [])).map Prod.fst
      picksSent := 0 }
    dispatch := { s.dispatch with outstanding := [], blocked := 0 }
    returns := { s.returns with
      queue := [], item := none, owedAnswer := none, suspendPending := false
      suspended := s.returns.suspended || s.returns.suspendPending }
    scheduler.jobs := v.scheduler.jobs, scheduler.queues := v.scheduler.queues, scheduler.bays := v.scheduler.bays
    accounts := v.accounts, passDue := false }

/-- The bays' jobs put back, from bay 1 upward (R100). -/
def baysRestarted (s : State) : State := bayNumbers.foldl restartBay (rebuildPicks s)

theorem baysRestarted_sent (s : State) : JobsSent putBackJob (bayNumbers.flatMap fun b => heldJobs (bayAt s b))
    (bayNumbers.flatMap fun b => heldJobs (bayAt s b) ++ pendingOf (bayAt s b)) (rebuildPicks s) (baysRestarted s) :=
  restartBays_sent bayNumbers_nodup (rebuildPicks s)

theorem baysRestarted_bayAt {b : Nat} (hb : b ∈ bayNumbers) (s : State) :
    bayAt (baysRestarted s) b = restartedBay (bayAt s b) :=
  (restartBays_bayAt bayNumbers_nodup (fun _ h => mem_bayNumbers.mp h) (rebuildPicks s)).trans (if_pos hb)

theorem restartBlocks_eq (s : State) : restartBlocks s = { blocksCleared s (baysRestarted s) with
    line := { emptiedLine s.line with pollSet := (restartBlocks s).line.pollSet } } := by
  have hdef : restartBlocks s =
      { restartLine (abandonReturns (cancelReleases (baysRestarted s))) with passDue := false } := rfl
  have hline := restartLine_eq (abandonReturns (cancelReleases (baysRestarted s)))
  have hbays := (baysRestarted_sent s).frame
  rw [hdef]
  generalize restartLine (abandonReturns (cancelReleases (baysRestarted s))) = r at hline ⊢
  rw [hline]
  generalize baysRestarted s = v at hbays ⊢
  rw [hbays]
  rfl

theorem restartBlocks_pollSet (hk : k < 64) : (restartBlocks s).line.pollSet.getLsbD k = true ↔
    k ≠ 0 ∧ (k = s.management.settings.pickRole ∨ k = s.management.settings.sorterRole ∨
      k = s.management.settings.scannerRole) := by
  have hm : (baysRestarted s).management = s.management := by rw [(baysRestarted_sent s).frame]; rfl
  have h := mem_restartLine (s := abandonReturns (cancelReleases (baysRestarted s))) hk
  have hdef : restartBlocks s =
      { restartLine (abandonReturns (cancelReleases (baysRestarted s))) with passDue := false } := rfl
  rw [hdef]
  generalize baysRestarted s = v at hm h ⊢
  rw [← hm]
  exact h

/-- What handing on after RESTART leaves as it was (R189 step 4). -/
def Resumed (u t : State) : Prop :=
  t = { u with
    line.floorTx := t.line.floorTx, line.contended := t.line.contended, assembly := t.assembly
    dispatch.outstanding := t.dispatch.outstanding }

theorem resume_resumed (u : State) (n : Nat) : Resumed u (passReleases (handPicks n u)) := by
  have hp := handPicks_frame n u
  have hr := (passReleases_released (handPicks n u)).frame
  generalize passReleases (handPicks n u) = t at hr ⊢
  generalize handPicks n u = v at hp hr
  rw [PicksOnly] at hp
  rw [Resumed, hr, hp]

theorem resume_prefix (u : State) (n : Nat) : u.line.floorTx <+: (passReleases (handPicks n u)).line.floorTx :=
  (handPicks_prefix n u).trans (releaseUpTo_prefix _ _ _)

theorem Table.get_map {α : Type} {t : Table α} {f : Nat × α → Nat × α} (hf : ∀ e, (f e).1 = e.1) (k : Nat) :
    Table.get (t.map f) k = (Table.get t k).map fun a => (f (k, a)).2 := by
  induction t with
  | nil => rfl
  | cons e t ih =>
    rw [List.map_cons, Table.get_cons, Table.get_cons, hf, ih]
    split_ifs with he
    · rw [← he]; rfl
    · rfl

theorem KeptOrReleasing.lines (h : KeptOrReleasing s t k) :
    (Table.get t.assembly.cons k).map Consignment.lines = (Table.get s.assembly.cons k).map Consignment.lines := by
  obtain h | ⟨x, hx, -, ht⟩ := h
  · rw [h]
  · rw [hx, ht]
    rfl

theorem releaseCancelled_lines (e : Nat × Consignment) :
    (releaseCancelled e).1 = e.1 ∧ (releaseCancelled e).2.lines = e.2.lines := by
  unfold releaseCancelled
  split_ifs <;> exact ⟨rfl, rfl⟩

theorem blocksCleared_lines (v : State) (k : Nat) :
    (Table.get (blocksCleared s v).assembly.cons k).map Consignment.lines =
      (Table.get s.assembly.cons k).map Consignment.lines := by
  have hget : Table.get (blocksCleared s v).assembly.cons k = _ :=
    Table.get_map (fun e => (releaseCancelled_lines e).1) k
  rw [hget, Option.map_map]
  exact congrArg (fun g => (Table.get s.assembly.cons k).map g) (funext fun x => (releaseCancelled_lines (k, x)).2)

theorem resume_lines (u : State) (n k : Nat) :
    (Table.get (passReleases (handPicks n u)).assembly.cons k).map Consignment.lines =
      (Table.get u.assembly.cons k).map Consignment.lines := by
  have hp := handPicks_frame n u
  rw [PicksOnly] at hp
  rw [((passReleases_released (handPicks n u)).cons k).lines, hp]

/-- RESTARTED stands alone in the floor transmit queue when the blocks resume (R189 step 4). -/
def restartedState (s : State) : State := toFloor restartedFrame (restartBlocks s)

theorem restartedState_eq (s : State) : restartedState s = { blocksCleared s (baysRestarted s) with
    line := { emptiedLine s.line with
      pollSet := (restartBlocks s).line.pollSet, floorTx := [restartedFrame]
      contended := (restartedState s).line.contended } } := by
  have h := restartBlocks_eq s
  unfold restartedState
  generalize restartBlocks s = r at h ⊢
  generalize baysRestarted s = v at h ⊢
  rw [h]
  rfl

theorem resumeAfterRestart_eq (s : State) : resumeAfterRestart (restartBlocks s) =
    passReleases (handPicks (restartedState s).assembly.picks.length (restartedState s)) := rfl

theorem PutBack.of_rebuildPicks {bs : List Nat} (h : PutBack (rebuildPicks s) u bs) : PutBack s u bs := h

theorem restartedState_putBack (s : State) : PutBack s (restartedState s) bayNumbers := by
  have h := baysRestarted_sent s
  have hu := restartedState_eq s
  refine .of_rebuildPicks (JobsSent.putBack (t := baysRestarted s) h ?_ ?_ ?_)
  all_goals
    generalize restartedState s = u at hu ⊢
    generalize baysRestarted s = v at hu ⊢
    rw [hu]
    rfl

/-- RESTART's outcome, before its REPLY, but for what the blocks hand on. -/
def RestartOutcome (s t : State) : Prop :=
  t = { blocksCleared s (baysRestarted s) with
    line := { emptiedLine s.line with
      pollSet := (restartBlocks s).line.pollSet, floorTx := t.line.floorTx, contended := t.line.contended }
    assembly := t.assembly
    dispatch := { s.dispatch with outstanding := t.dispatch.outstanding, blocked := 0 } }

theorem resumeAfterRestart_outcome (s : State) : RestartOutcome s (resumeAfterRestart (restartBlocks s)) := by
  have h := resume_resumed (restartedState s) (restartedState s).assembly.picks.length
  have hs := restartedState_eq s
  rw [← resumeAfterRestart_eq] at h
  unfold Resumed at h
  unfold RestartOutcome
  generalize resumeAfterRestart (restartBlocks s) = t at h ⊢
  generalize restartBlocks s = r at hs ⊢
  generalize baysRestarted s = v at hs ⊢
  rw [hs] at h
  exact h

theorem resumeAfterRestart_head (s : State) :
    (resumeAfterRestart (restartBlocks s)).line.floorTx.head? = some restartedFrame := by
  obtain ⟨rest, hrest⟩ := resume_prefix (restartedState s) (restartedState s).assembly.picks.length
  have hfloor : (restartedState s).line.floorTx = [restartedFrame] := by rw [restartedState_eq]
  rw [hfloor] at hrest
  rw [resumeAfterRestart_eq, ← hrest]
  rfl

theorem resumeAfterRestart_lines (s : State) (k : Nat) :
    (Table.get (resumeAfterRestart (restartBlocks s)).assembly.cons k).map Consignment.lines =
      (Table.get s.assembly.cons k).map Consignment.lines := by
  rw [resumeAfterRestart_eq, resume_lines, restartedState_eq]
  exact blocksCleared_lines (baysRestarted s) k

theorem restart_carried (l : LineUnit) : (l.floorIn = [] → (emptiedLine l).carried = none) ∧
    ∀ turn, l.floorIn ≠ [] → l.early = false → l.turn = some turn → (emptiedLine l).carried = some turn.station := by
  refine ⟨fun hin => if_pos hin, fun turn hin hearly hturn => ?_⟩
  show (if l.floorIn = [] then none else if l.early then l.carried else (l.turn.map Turn.station).or l.carried) = _
  rw [if_neg hin, hearly, hturn]
  rfl

theorem restart_officeLost (l : LineUnit) : (emptiedLine l).officeLost = true ↔
    l.officeLost = true ∨ l.officeIn ≠ [] := by
  show (l.officeLost || decide (l.officeIn ≠ [])) = true ↔ _
  rw [Bool.or_eq_true, decide_eq_true_eq]

end Blocks

end Sys2Proof.Machine

open Sys2Proof Sys2Proof.Machine in
/-- Settles O24: the blocks one by one, the emptied line, and what the two handings on leave as it was. -/
theorem restartClearsLineAndBays : Obligations.RestartClearsLineAndBays := by
  intro s s0 h hm
  have hexec : exec .restart s = .next (replied .restart .ok [] (resumeAfterRestart (restartBlocks s0))) := by
    have hm0 : s0.management.mode = .service := by rw [h.management, hm]
    have hdue : s0.passDue = false := h.noPass
    have ht := resumeAfterRestart_outcome s0
    refine h.quiet (act := fun s => inService s ⟨resumeAfterRestart (restartBlocks s), .ok, []⟩) rfl
      (inService_service _ hm0) ?_
    rw [ht, hdue]
    rfl
  have hl : ∃ rx, s0.line = { s.line with officeRx := rx, answering := true } := by
    obtain ⟨-, f, -, ht⟩ := h
    exact ⟨_, congrArg State.line (takeOffice_work ht).1⟩
  obtain ⟨rx, hl⟩ := hl
  have hdispatch : s0.dispatch = s.dispatch := by rw [h.line_only]
  have hreturns : s0.returns = s.returns := by rw [h.line_only]
  have haccount : ∀ c, accountAt s0 c = accountAt s c := fun c => by rw [h.line_only]; rfl
  have hdays : s0.days = s.days := by rw [h.line_only]
  have hbayAt : ∀ b, bayAt s0 b = bayAt s b := fun b => by rw [bayAt, h.scheduler, bayAt]
  have hbays := fun b (hb : b ∈ bayNumbers) => baysRestarted_bayAt hb s0
  have hcounts := (baysRestarted_sent s0).counts
  have hhead := resumeAfterRestart_head s0
  have hlines := resumeAfterRestart_lines s0
  have hpoll := fun k (hk : k < 64) => restartBlocks_pollSet (s := s0) hk
  have ht := resumeAfterRestart_outcome s0
  have hu := restartedState_eq s0
  have hback := restartedState_putBack s0
  refine ⟨_, hexec, rfl, ?_⟩
  rw [resumeAfterRestart_eq] at ht hhead hlines ⊢
  unfold RestartOutcome at ht
  generalize hdef : passReleases (handPicks (restartedState s0).assembly.picks.length (restartedState s0)) = t
    at ht hhead hlines ⊢
  generalize restartedState s0 = u at hdef hu hback
  generalize restartBlocks s0 = r at ht hu hpoll
  generalize baysRestarted s0 = v at ht hu hbays hcounts
  have htline : t.line = { emptiedLine s0.line with
      pollSet := r.line.pollSet, floorTx := t.line.floorTx, contended := t.line.contended } := by rw [ht]
  have hscheduler : t.scheduler.bays = v.scheduler.bays := by rw [ht]; rfl
  have htdispatch : t.dispatch =
      { s.dispatch with outstanding := t.dispatch.outstanding, blocked := 0 } := by rw [ht, ← hdispatch]
  have htbay : ∀ b, bayAt t b = bayAt v b := fun b => by rw [bayAt, hscheduler, bayAt]
  have htaccount : ∀ c, accountAt t c = accountAt v c := fun c => by rw [ht]; rfl
  have hcarried := restart_carried s0.line
  have hlost := restart_officeLost s0.line
  rw [hl] at htline hcarried hlost
  refine ⟨hhead, (congrArg LineUnit.officeRx htline :), (congrArg LineUnit.forward htline :),
    (congrArg LineUnit.turn htline :), (congrArg LineUnit.officeFaults htline :),
    (congrArg LineUnit.floorFaults htline :), fun k => ?_, fun k hk => ?_, (congrArg LineUnit.officeSending htline :),
    (congrArg LineUnit.floorSending htline :), (congrArg LineUnit.officeRate htline :),
    (congrArg LineUnit.floorRate htline :), (congrArg LineUnit.pollPos htline :),
    (congrArg State.management ht).trans h.management, (congrArg State.records ht).trans h.records, (congrArg State.requests ht).trans h.requests,
    (congrArg State.days ht).trans hdays, fun b hb => ?_, (congrArg DispatchUnit.half0 htdispatch :),
    (congrArg DispatchUnit.half1 htdispatch :), (congrArg DispatchUnit.filling htdispatch :),
    (congrArg DispatchUnit.windows htdispatch :), (congrArg DispatchUnit.ready htdispatch :),
    (congrArg DispatchUnit.blocked htdispatch :), (congrArg State.returns ht).trans (by rw [← hreturns]; rfl), fun c => ?_,
    fun k => ?_, congrArg State.passDue ht, (congrArg LineUnit.officeIn htline :),
    (congrArg LineUnit.floorIn htline :), ?_, fun hin => ?_, fun turn hin hearly hturn => ?_, u, by rw [hdef],
    congrArg (fun x => x.line.floorTx) hu, ?_, (congrArg State.assembly hu).trans (by rw [← h.assembly]; rfl),
    (congrArg State.dispatch hu).trans (by rw [← hdispatch]; rfl)⟩
  · have hmissed : t.line.missed = Vector.replicate 47 0 := congrArg LineUnit.missed htline
    show bankGet t.line.missed (k - 15) 0 = 0
    rw [hmissed, bankGet_replicate]
  · have hset : t.line.pollSet = r.line.pollSet := (congrArg LineUnit.pollSet htline :)
    show t.line.pollSet.getLsbD k = true ↔ _
    rw [hset, hpoll k hk, h.management]
  · exact (htbay b).trans ((hbays b hb).trans (by rw [hbayAt]; rfl))
  · have hc : accountAt v c =
        { accountAt s0 c with reserved := (accountAt v c).reserved, repair := (accountAt v c).repair } := hcounts c
    rw [haccount, ← htaccount] at hc
    exact hc
  · exact (hlines k).trans (by rw [h.assembly])
  · have hl : t.line.officeLost = _ := congrArg LineUnit.officeLost htline
    exact (by rw [hl] : t.line.officeLost = true ↔ _).trans hlost
  · exact (congrArg LineUnit.carried htline :).trans (hcarried.1 hin)
  · exact (congrArg LineUnit.carried htline :).trans (hcarried.2 turn hin hearly hturn)
  · rw [h.line_only] at hback
    exact hback
end

