-- ==== Sys2Proof/Proofs/Losses.lean ====
section
/-! PROOFS. Loans that close under RETIRE (R139, R143, R159, R160), the overdue mark that leaves with its loan (R172, R173),
and what freeing a record changes (R53). -/

namespace Sys2Proof.Machine

/-! ## The lines of a loan close (R36, R139) -/

section Close

variable {s t u : State} {k : Nat} {c : Consignment}

/-- A table without the number is left as it was. -/
theorem Table.modify_absent {α : Type} {t : Table α} {k : Nat} (h : Table.get t k = none) (f : α → α) :
    Table.modify t k f = t := by
  have hne : ∀ e ∈ t, e.1 ≠ k := fun e he hk => by
    have hsome := Table.get_isSome_iff.mpr (List.mem_map_of_mem (f := Prod.fst) he)
    rw [hk, h] at hsome
    cases hsome
  exact (List.map_congr_left fun e he => if_neg (hne e he)).trans (List.map_id t)

/-- Each OPEN line is taken from its title's out account. -/
theorem outFalls_frame (ls : List Line) (s : State) :
    ls.foldl (fun s l => modTitle l.title (fun t => { t with out := t.out - 1 }) s) s =
      { s with records.titles :=
          (ls.foldl (fun s l => modTitle l.title (fun t => { t with out := t.out - 1 }) s) s).records.titles } := by
  induction ls generalizing s with
  | nil => rfl
  | cons l ls ih =>
    rw [List.foldl_cons, ih]
    rfl

theorem outFalls_titles (ls : List Line) (s : State) (m : Nat) :
    Table.get (ls.foldl (fun s l => modTitle l.title (fun t => { t with out := t.out - 1 }) s) s).records.titles m =
      (Table.get s.records.titles m).map fun x => { x with out := x.out - ls.countP fun l => decide (l.title = m) } := by
  induction ls generalizing s with
  | nil => exact Option.map_id_apply.symm
  | cons l ls ih =>
    rw [List.foldl_cons, ih, modTitle_titles, Table.get_modify, List.countP_cons]
    by_cases hm : m = l.title
    · subst hm
      rw [if_pos rfl, Option.map_map]
      simp only [Function.comp_def, Nat.sub_sub, Nat.add_comm 1, decide_true, if_true]
    · simp [hm, Ne.symm hm]

/-- What the close of its lines does to a loan's accounts (R139 steps 1 and 2). -/
theorem closeLines_eq (k : Nat) (c : Consignment) (s : State) : closeLines k c s = { s with
    assembly.cons := Table.modify s.assembly.cons k fun x => { x with lines := x.lines.map fun l => { l with state := .closed } }
    records.titles := (closeLines k c s).records.titles } := by
  unfold closeLines
  rw [outFalls_frame]
  rfl

theorem closeLines_titles (k : Nat) (c : Consignment) (s : State) (m : Nat) :
    Table.get (closeLines k c s).records.titles m = (Table.get s.records.titles m).map fun x =>
      { x with out := x.out - (openLines c).countP fun l => decide (l.title = m) } :=
  outFalls_titles (openLines c) _ m

/-! ## The copy is lost (R159 step 3) -/

theorem loseItem_frame (c : Consignment) (s : State) : loseItem c s =
    { s with records.titles := (loseItem c s).records.titles, accounts := (loseItem c s).accounts } := by
  unfold loseItem
  split <;> rfl

theorem loseItem_titles (c : Consignment) (s : State) (m : Nat) : Table.get (loseItem c s).records.titles m =
    if c.kind = .pack ∨ m ≠ lineTitle c then Table.get s.records.titles m
    else (Table.get s.records.titles m).map fun x => { x with copies := x.copies - 1 } := by
  unfold loseItem
  split
  · next hk => exact (if_pos (.inl hk)).symm
  · next hk =>
    have h := Table.get_modify s.records.titles (lineTitle c) m fun x => { x with copies := x.copies - 1 }
    refine h.trans ?_
    by_cases hm : m = lineTitle c <;> simp [hk, hm]
  · next hk =>
    have h := Table.get_modify s.records.titles (lineTitle c) m fun x => { x with copies := x.copies - 1 }
    refine h.trans ?_
    by_cases hm : m = lineTitle c <;> simp [hk, hm]

theorem loseItem_accounts (c : Consignment) (s : State) (d : Nat) : accountAt (loseItem c s) d =
    if c.kind ≠ .braillePart ∧ d = c.cartridgeClass ∧ 1 ≤ d ∧ d ≤ 4 then
      ClassAccount.writeOff .consigned 1 (accountAt s d)
    else accountAt s d := by
  have hoff := accountAt_modAccount c.cartridgeClass (ClassAccount.writeOff .consigned 1) s d
  unfold loseItem
  split
  · next hk => exact hoff.trans (by simp [hk])
  · next hk => exact hoff.trans (by simp [hk])
  · next hk => simp [hk, moveCopy, accountAt]

/-- A loan closed under RETIRE, before its overdue mark is looked at. -/
def loanLost (k : Nat) (c : Consignment) (s : State) : State :=
  loseItem c (linesClosed c.patron (openLines c).length (closeLines k c s))

theorem loanLost_eq (k : Nat) (c : Consignment) (s : State) :
    loanLost k c s = linesClosed c.patron (openLines c).length (loseItem c (closeLines k c s)) := by
  unfold loanLost loseItem
  cases c.kind <;> rfl

theorem loanLost_frame (k : Nat) (c : Consignment) (s : State) : loanLost k c s = { s with
    records.patrons := Table.modify s.records.patrons c.patron fun p => { p with charge := p.charge - (openLines c).length }
    records.titles := (loanLost k c s).records.titles
    assembly.cons := Table.modify s.assembly.cons k fun x => { x with lines := x.lines.map fun l => { l with state := .closed } }
    accounts := (loanLost k c s).accounts } := by
  have h := loseItem_frame c (linesClosed c.patron (openLines c).length (closeLines k c s))
  have hlines := closeLines_eq k c s
  unfold loanLost
  generalize loseItem c (linesClosed c.patron (openLines c).length (closeLines k c s)) = t at h ⊢
  generalize closeLines k c s = v at h hlines
  rw [h, hlines]
  rfl

theorem loanLost_titles (k : Nat) (c : Consignment) (s : State) (m : Nat) :
    Table.get (loanLost k c s).records.titles m = (Table.get s.records.titles m).map fun x =>
      let y := { x with out := x.out - (openLines c).countP fun l => decide (l.title = m) }
      if c.kind = .pack ∨ m ≠ lineTitle c then y else { y with copies := y.copies - 1 } := by
  have hlines : Table.get (linesClosed c.patron (openLines c).length (closeLines k c s)).records.titles m = _ :=
    closeLines_titles k c s m
  rw [loanLost, loseItem_titles, hlines]
  split_ifs
  · rfl
  · rw [Option.map_map]
    rfl

theorem loanLost_accounts (k : Nat) (c : Consignment) (s : State) (d : Nat) : accountAt (loanLost k c s) d =
    if c.kind ≠ .braillePart ∧ d = c.cartridgeClass ∧ 1 ≤ d ∧ d ≤ 4 then
      ClassAccount.writeOff .consigned 1 (accountAt s d)
    else accountAt s d := by
  have hlines : accountAt (linesClosed c.patron (openLines c).length (closeLines k c s)) d = accountAt s d := by
    rw [closeLines_eq]
    rfl
  rw [loanLost, loseItem_accounts, hlines]

theorem loanLost_braille (hk : c.kind = .braillePart) : (loanLost k c s).accounts = s.accounts := by
  have h : (loanLost k c s).accounts = (closeLines k c s).accounts := by
    unfold loanLost loseItem
    rw [hk]
    rfl
  rw [h, closeLines_eq]

/-- R159 steps 1 to 3: the loan is closed under RETIRE. -/
theorem loanLost_closed (k : Nat) (c : Consignment) (s : State) : LoanClosed k c .retire s (loanLost k c s) := by
  have hback : ¬(Verdict.retire = .pass ∨ Verdict.retire = .note) := by decide
  have hrepair : Verdict.retire ≠ .repair := by decide
  have hframe := loanLost_frame k c s
  refine ⟨by rw [hframe], fun j => ?_, fun j => ?_, fun m => ?_, loanLost_braille, fun d hd => ?_, fun hk h1 h4 hc => ?_, ?_⟩
  · rw [hframe, Table.get_modify]
  · rw [hframe, Table.get_modify]
    split_ifs
    · rfl
    · exact Option.map_id_apply.symm
  · rw [loanLost_titles]
    simp only [if_neg hback, if_neg hrepair]
  · rw [loanLost_accounts, if_neg fun h => hd h.2.1]
  · rw [loanLost_accounts, if_pos ⟨hk, rfl, h1, h4⟩, if_neg hback, if_neg hrepair]
    exact if_pos hc
  · have hdue : (loanLost k c s).passDue = s.passDue := by rw [hframe]
    simp [hdue]

end Close

/-! ## The overdue mark (R172, R173) -/

section Mark

variable {s : State} {c : Consignment} {p : Patron}

theorem closeMark_unmarked (h : c.overdue = false) (s : State) : closeMark c s = s := by
  rw [closeMark, h]
  rfl

theorem evaluateHeld_absent {n : Nat} (h : Table.get s.records.patrons n = none) : evaluateHeld n s = s := by
  simp only [evaluateHeld, h]

theorem closeMark_absent (h : Table.get s.records.patrons c.patron = none) : closeMark c s = s := by
  have hsame : modPatron c.patron (fun p => { p with overdue := p.overdue - 1 }) s = s := by
    rw [modPatron, Table.modify_absent h]
  unfold closeMark
  split_ifs
  · rw [setClosedOverdue, hsame, evaluateHeld_absent h]
  · rfl

/-- R172: the patron's overdue count falls by 1 and held is evaluated anew. -/
def markClosed (c : Consignment) (held : Bool) (s : State) : State :=
  modPatron c.patron (fun p => { p with overdue := p.overdue - 1, held := held }) s

theorem closeMark_marked (hc : c.overdue = true) (hp : Table.get s.records.patrons c.patron = some p) :
    let held := decide (s.management.settings.holdLimit ≠ 0 ∧ s.management.settings.holdLimit ≤ p.overdue - 1)
    closeMark c s = if p.held = true ∧ held = false then headroom c.patron (markClosed c held s) else markClosed c held s := by
  intro held
  have hget : Table.get (modPatron c.patron (fun p => { p with overdue := p.overdue - 1 }) s).records.patrons c.patron =
      some { p with overdue := p.overdue - 1 } := by
    rw [modPatron_patrons, Table.get_modify_same, hp]
    rfl
  have htwice : modPatron c.patron (fun x => { x with held := held })
      (modPatron c.patron (fun p => { p with overdue := p.overdue - 1 }) s) = markClosed c held s := by
    rw [modPatron, modPatron, Table.modify_modify]
    rfl
  rw [closeMark, if_pos hc, setClosedOverdue, evaluateHeld, hget]
  have hcond : ((p.held && !held) = true) ↔ (p.held = true ∧ held = false) := by simp
  exact (if_congr hcond (congrArg (headroom c.patron) htwice) htwice)

end Mark

/-! ## DECLARE_LOST (R158 to R160) -/

section Declare

variable {s : State} {k : Nat} {c head : Consignment}

theorem loseLoan_eq (k : Nat) (c : Consignment) (s : State) :
    loseLoan k c s = headroom c.patron (freeAll (lostRecords s k c) (closeMark c (loanLost k c s))) := by
  rw [loanLost_eq]
  rfl

theorem completeSet_retire (hk : head.kind = .braillePart) (h : Nat) (s : State) :
    completeSet h head .retire s = headroom head.patron (closeMark head (loanLost h head s)) := by
  unfold loanLost loseItem
  rw [hk]
  rfl

theorem worse_retire (v : Verdict) : worse v .retire = .retire := by
  cases v <;> rfl

theorem declareLoss_out {r : Nat} (h : r = 0 ∨ s.management.geometry.c < r) : declareLoss r s = refuse .badField s := if_pos h

theorem declareLoss_present (h0 : k ≠ 0) (hk : k ≤ s.management.geometry.c) (hc : Table.get s.assembly.cons k = some c) :
    declareLoss k s =
      if c.state ≠ .posted then refuse .notFound s
      else if c.kind = .braillePart ∧ c.head ≠ k then ⟨losePart k c s, .ok, []⟩
      else if c.kind = .braillePart ∧ c.headReturned = true then refuse .duplicate s
      else if c.kind = .braillePart ∧ (partsIn s k .ready ≠ [] ∨ partsIn s k .releasing ≠ []) then refuse .inUse s
      else ⟨loseLoan k c s, .ok, []⟩ := by
  rw [declareLoss, if_neg (by omega), hc]

theorem declareLoss_absent (h0 : k ≠ 0) (hk : k ≤ s.management.geometry.c) (hc : Table.get s.assembly.cons k = none) :
    declareLoss k s = refuse .notFound s := by
  rw [declareLoss, if_neg (by omega), hc]

/-- Some part of the set headed by `k`, other than its head, has not been sent. -/
theorem unsent_iff : (partsIn s k .ready ≠ [] ∨ partsIn s k .releasing ≠ []) ↔
    (s.assembly.cons.any fun e => decide (e.2.kind = .braillePart ∧ e.2.head = k ∧ e.1 ≠ k ∧
      (e.2.state = .ready ∨ e.2.state = .releasing))) = true := by
  simp only [partsIn, ne_eq, List.map_eq_nil_iff, List.filter_eq_nil_iff, List.any_eq_true, decide_eq_true_eq]
  push Not
  constructor
  · rintro (⟨e, he, h1, h2, h3, h4⟩ | ⟨e, he, h1, h2, h3, h4⟩)
    · exact ⟨e, he, h1, h2, h3, .inl h4⟩
    · exact ⟨e, he, h1, h2, h3, .inr h4⟩
  · rintro ⟨e, he, h1, h2, h3, h4 | h4⟩
    · exact .inl ⟨e, he, h1, h2, h3, h4⟩
    · exact .inr ⟨e, he, h1, h2, h3, h4⟩

/-- What freeing a record does to every patron (R53). -/
theorem freeConsignment_patrons (hc : Table.get s.assembly.cons k = some c) (n : Nat) :
    Table.get (freeConsignment k s).records.patrons n = (Table.get s.records.patrons n).map fun p =>
      if n = c.patron then { p with chain := p.chain.erase k, openPack := if p.openPack = k then 0 else p.openPack } else p := by
  rw [freeConsignment_patron hc]
  split_ifs
  · rfl
  · exact Option.map_id_apply.symm

/-- R159 for a shelf cartridge's loan without a mark: its record freed, its copy and its cartridge written off. -/
theorem shelfAudio_lost {l : Line} {p : Patron} {x : Title} (hget : Table.get s.assembly.cons k = some c)
    (hk : c.kind = .shelfAudio) (hl : c.lines = [l]) (ho : l.state = .isOpen) (h1 : 1 ≤ c.cartridgeClass)
    (h4 : c.cartridgeClass ≤ 4) (hcons : 1 ≤ (accountAt s c.cartridgeClass).consigned)
    (hp : Table.get s.records.patrons c.patron = some p) (hx : Table.get s.records.titles l.title = some x) :
    let t := freeConsignment k (loanLost k c s)
    t = { s with records := t.records, accounts := t.accounts, assembly.cons := t.assembly.cons } ∧
      Table.get t.assembly.cons k = none ∧
      Table.get t.records.titles l.title = some { x with out := x.out - 1, copies := x.copies - 1 } ∧
      Table.get t.records.patrons c.patron = some { p with
        charge := p.charge - 1, chain := p.chain.erase k, openPack := if p.openPack = k then 0 else p.openPack } ∧
      accountAt t c.cartridgeClass = { accountAt s c.cartridgeClass with
        consigned := (accountAt s c.cartridgeClass).consigned - 1
        stock := (accountAt s c.cartridgeClass).stock - 1 } ∧
      ∀ d, d ≠ c.cartridgeClass → accountAt t d = accountAt s d := by
  have hopen : openLines c = [l] := by simp [openLines, hl, ho]
  have htitle : lineTitle c = l.title := by rw [lineTitle, hl]; rfl
  have hframe := loanLost_frame k c s
  have hfree := freeConsignment_frame k (loanLost k c s)
  have haccount : ∀ d, accountAt (freeConsignment k (loanLost k c s)) d = accountAt (loanLost k c s) d := fun d => by
    rw [hfree]
    rfl
  have htitles : (freeConsignment k (loanLost k c s)).records.titles = (loanLost k c s).records.titles := by rw [hfree]
  have hrecord : ∃ c', Table.get (loanLost k c s).assembly.cons k = some c' ∧ c'.patron = c.patron := by
    rw [hframe, Table.get_modify_same, hget]
    exact ⟨_, rfl, rfl⟩
  obtain ⟨c', hc', hpatron⟩ := hrecord
  have hwhole : freeConsignment k (loanLost k c s) = { s with
      records := (freeConsignment k (loanLost k c s)).records, accounts := (freeConsignment k (loanLost k c s)).accounts
      assembly.cons := (freeConsignment k (loanLost k c s)).assembly.cons } := by
    generalize freeConsignment k (loanLost k c s) = t at hfree ⊢
    generalize loanLost k c s = u at hfree hframe
    rw [hfree, hframe]
  intro t
  refine ⟨hwhole, by rw [freeConsignment_cons, if_pos rfl], ?_, ?_, ?_, fun d hd => ?_⟩
  · rw [htitles, loanLost_titles, hx, hopen, htitle]
    simp [hk]
  · rw [freeConsignment_patrons hc', hframe, Table.get_modify_same, hp, hopen, hpatron]
    simp
  · rw [haccount, loanLost_accounts, if_pos ⟨by rw [hk]; decide, rfl, h1, h4⟩]
    exact if_pos hcons
  · rw [haccount, loanLost_accounts, if_neg fun h => hd h.2.1]

/-- R160: a part counted on its head under RETIRE. -/
theorem countPart_retire {h : Nat} (hh : Table.get s.assembly.cons h = some head) (j : Nat) :
    Table.get (countPart h .retire s).assembly.cons j =
      if j = h then some { head with returned := head.returned + 1, worst := .retire } else Table.get s.assembly.cons j := by
  rw [countPart, modCons_cons, Table.get_modify]
  split_ifs with hj
  · rw [hj, hh, Option.map_some, worse_retire]
  · rfl

end Declare

end Sys2Proof.Machine

open Sys2Proof Sys2Proof.Machine in
/-- Settles O55: the loan closed under RETIRE, the part counted on its head, the mark, and the freed record. -/
theorem lostItemsLeaveTheAccounts : Obligations.LostItemsLeaveTheAccounts := by
  refine ⟨?_, fun s c => ⟨fun h => closeMark_unmarked h s, closeMark_absent, ?_⟩, fun s k c hc => ?_⟩
  · intro consignment s s0 h hm k i refused unsent sent
    have he : exec i s = request i s fun s => inService s (declareLoss k s) := rfl
    have hact : inService s0 (declareLoss k s0) = declareLoss k s0 := inService_service _ (by rw [h.management, hm])
    have hcons : s0.assembly.cons = s.assembly.cons := by rw [h.assembly]
    have haccount : ∀ d, accountAt s0 d = accountAt s d := fun d => by rw [h.line_only]; rfl
    have hunsent : (partsIn s0 k .ready ≠ [] ∨ partsIn s0 k .releasing ≠ []) ↔ unsent = true := by
      rw [unsent_iff, hcons]
    refine ⟨fun hr => h.refused he (hact.trans (declareLoss_out ?_)), fun h0 hk => ⟨fun hc => ?_, fun c hc => ?_⟩⟩
    · rwa [h.management]
    · exact h.refused he (hact.trans (declareLoss_absent h0 (by rwa [h.management]) (by rw [hcons, hc])))
    · have hdecl := hact.trans (declareLoss_present h0 (by rwa [h.management]) (by rw [hcons, hc]))
      refine ⟨fun hstate => h.refused he (hdecl.trans (if_pos hstate)), fun hstate => ?_⟩
      rw [if_neg (not_not_intro hstate)] at hdecl
      refine ⟨fun hb hh => ⟨fun hr => ?_, fun hr hu => ?_⟩, fun hloan => ?_, ?_, ?_⟩
      · rw [if_neg fun hx => hx.2 hh, if_pos ⟨hb, hr⟩] at hdecl
        exact h.refused he hdecl
      · rw [if_neg fun hx => hx.2 hh, if_neg fun hx => absurd (hr.symm.trans hx.2) (by decide),
          if_pos ⟨hb, hunsent.mpr hu⟩] at hdecl
        exact h.refused he hdecl
      · have hrecords : lostRecords s0 k c = if c.kind = .braillePart then k :: sent else [k] := by
          rw [lostRecords, partsIn, hcons]
        rw [if_neg fun hx => hx.2 (hloan hx.1).1,
          if_neg fun hx => absurd ((hloan hx.1).2.1.symm.trans hx.2) (by decide),
          if_neg fun hx => absurd ((hloan hx.1).2.2.symm.trans (hunsent.mp hx.2)) (by decide), loseLoan_eq,
          hrecords] at hdecl
        exact ⟨loanLost k c s0, loanLost_closed k c s0, h.answered he hdecl⟩
      · intro l p x hkind hl ho hmark h1 h4 hcon hp hx
        have hb : c.kind ≠ .braillePart := by rw [hkind]; decide
        rw [if_neg fun hx => hb hx.1, if_neg fun hx => hb hx.1, if_neg fun hx => hb hx.1, loseLoan_eq, lostRecords,
          if_neg hb, closeMark_unmarked hmark] at hdecl
        rw [← h.records] at hp hx
        simp only [← haccount] at hcon ⊢
        have ht := shelfAudio_lost (by rw [hcons, hc]) hkind hl ho h1 h4 hcon hp hx
        exact ⟨freeConsignment k (loanLost k c s0), h.answered he hdecl, ht⟩
      · intro head hb hh hhead counted
        have hhead0 : Table.get s0.assembly.cons c.head = some head := by rw [hcons, hhead]
        have hm0 : ∀ j, Table.get (countPart c.head .retire s0).assembly.cons j =
            if j = c.head then some counted else Table.get s.assembly.cons j := fun j => by
          rw [countPart_retire hhead0, hcons]
        have hck : Table.get (countPart c.head .retire s0).assembly.cons k = some c := by
          rw [hm0, if_neg (Ne.symm hh), hc]
        rw [if_pos ⟨hb, hh⟩, losePart, hhead0] at hdecl
        refine ⟨countPart c.head .retire s0, rfl, hm0, fun hlt => ?_, fun hge hbk => ?_, ?_, fun j => ?_, fun n => ?_⟩
        · simp only [if_pos hlt] at hdecl
          refine h.quiet he hdecl ?_
          rw [freeConsignment_frame]
          rfl
        · simp only [if_neg (Nat.not_lt.mpr hge), completeSet_retire hbk] at hdecl
          exact ⟨_, loanLost_closed _ _ _, h.answered he hdecl⟩
        · exact freeConsignment_frame k _
        · rw [freeConsignment_cons, hm0]
        · rw [freeConsignment_patrons hck, ← h.records]
          rfl
  · intro p hc hp held
    have hmark := closeMark_marked hc hp
    refine ⟨markClosed c held s, rfl, ?_, fun n hn => ?_, fun h1 h2 => ?_, fun h => ?_⟩
    · rw [markClosed, modPatron_patrons, Table.get_modify_same, hp]
      rfl
    · rw [markClosed, modPatron_patrons, Table.get_modify_other _ _ hn]
    · exact hmark.trans (if_pos ⟨h1, h2⟩)
    · refine hmark.trans (if_neg fun ⟨h1, h2⟩ => ?_)
      obtain h | h := h
      · exact absurd (h1.symm.trans h) (by decide)
      · exact absurd (h2.symm.trans h) (by decide)
  · exact ⟨freeConsignment_frame k s, freeConsignment_cons k, freeConsignment_patrons hc⟩
end

