-- ==== Sys2Proof/Proofs/Flush.lean ====
section
/-! PROOFS. FLUSH_PACK: the packs sealed one after another, the first of them with the FREE job records (R58 to R60). -/

namespace Sys2Proof.Machine

/-! ## Lists with one element more -/

section Lists

variable {α β : Type}

theorem getElem?_concat_some {l : List α} {x y : α} {a : Nat} (h : (l ++ [x])[a]? = some y) :
    l[a]? = some y ∨ (a = l.length ∧ y = x) := by
  rw [List.getElem?_append] at h
  split_ifs at h with ha
  · exact .inl h
  · rw [List.getElem?_singleton] at h
    split_ifs at h with h0
    · exact .inr ⟨by omega, (Option.some.inj h).symm⟩

theorem zip_append_of_le {l : List α} {m : List β} (h : l.length ≤ m.length) (r : List β) :
    l.zip (m ++ r) = l.zip m := by
  induction l generalizing m with
  | nil => rfl
  | cons a l ih =>
    cases m with
    | nil => exact absurd h (by simp)
    | cons b m => exact congrArg (List.cons (a, b)) (ih (Nat.le_of_succ_le_succ h))

end Lists

/-! ## Packs sealed one after another -/

section SealedPacks

variable {s t u : State} {k j : Nat} {ks js : List Nat} {c : Consignment} {p q : Patron}

/-- The seal priority that the pack at `k` takes from its patron (R58). -/
def priorityAt (s : State) (k : Nat) : Nat :=
  match (Table.get s.assembly.cons k).bind fun c => Table.get s.records.patrons c.patron with
  | none => 0
  | some p => sealPriorityOf p.patronClass

theorem priorityAt_eq (hc : Table.get s.assembly.cons k = some c) (hp : Table.get s.records.patrons c.patron = some p) :
    priorityAt s k = sealPriorityOf p.patronClass := by
  rw [priorityAt, hc, Option.bind_some, hp]

/-- One of the packs `ks` is patron `m`'s. -/
def sealedFor (s : State) (ks : List Nat) (m : Nat) : Bool :=
  ks.any fun k => (Table.get s.assembly.cons k).any fun c => c.patron == m

/-- From `s` to `t` the packs `ks` have been sealed in order: the first of them took the job records `js`, the others
joined the sealed list (R58 to R60). -/
structure SealedAll (s : State) (ks js : List Nat) (t : State) : Prop where
  frame : t = { s with
    records.patrons := t.records.patrons, assembly.cons := t.assembly.cons
    assembly.sealedList := s.assembly.sealedList ++ ks.drop js.length
    scheduler.jobs := t.scheduler.jobs, scheduler.queues := t.scheduler.queues
    passDue := s.passDue || decide (js ≠ []) }
  count : js.length ≤ ks.length
  others : ∀ k, k ∉ ks → Table.get t.assembly.cons k = Table.get s.assembly.cons k
  waiting : ∀ (a k : Nat) c, ks[a]? = some k → Table.get s.assembly.cons k = some c → js.length ≤ a →
    Table.get t.assembly.cons k = some { c with state := .sealed, sealPriority := priorityAt s k }
  taken : ∀ (a k : Nat) c (j : Nat), ks[a]? = some k → Table.get s.assembly.cons k = some c → js[a]? = some j →
    Table.get t.assembly.cons k = some { c with state := .duplicating, sealPriority := priorityAt s k, job := j } ∧
      Table.get t.scheduler.jobs j = some { state := .queued, kind := .pack, priority := priorityAt s k, consignment := k,
                                            cartridgeClass := c.cartridgeClass }
  jobs : ∀ j, j ∉ js → Table.get t.scheduler.jobs j = Table.get s.scheduler.jobs j
  used : ∀ j ∈ js, (Table.get t.scheduler.jobs j).isSome = true
  canonical : Table.wf s.scheduler.jobs → Table.wf t.scheduler.jobs
  queues : ∀ l, l ≤ 3 → queueAt t l =
    queueAt s l ++ ((js.zip ks).filter fun e => decide (priorityAt s e.2 = l)).map Prod.fst
  patrons : ∀ m, Table.get t.records.patrons m = (Table.get s.records.patrons m).map fun p =>
    if sealedFor s ks m then { p with openPack := 0 } else p

theorem SealedAll.refl (s : State) : SealedAll s [] [] s where
  frame := by simp
  count := le_refl 0
  others _ _ := rfl
  waiting _ _ _ h := by simp at h
  taken _ _ _ _ h := by simp at h
  jobs _ _ := rfl
  used _ h := by simp at h
  canonical := id
  queues _ _ := by simp
  patrons _ := Option.map_id_apply.symm

/-- What is needed of the next pack: it is ASSEMBLING in `s`, its patron present, and it has not been sealed. -/
structure NextPack (s : State) (ks : List Nat) (k : Nat) (c : Consignment) (p : Patron) : Prop where
  fresh : k ∉ ks
  get : Table.get s.assembly.cons k = some c
  assembling : c.state = .assembling
  patron : Table.get s.records.patrons c.patron = some p

theorem SealedAll.sealPack_eq (h : SealedAll s ks js t) (n : NextPack s ks k c p) :
    sealPack k t = packSealed k (markSealed k c.patron (priorityAt s k) t) := by
  have hpatron := h.patrons c.patron
  rw [n.patron, Option.map_some] at hpatron
  rw [Machine.sealPack_eq ((h.others k n.fresh).trans n.get) n.assembling hpatron, priorityAt_eq n.get n.patron]
  split_ifs <;> rfl

theorem sealedFor_concat (n : NextPack s ks k c p) (m : Nat) :
    sealedFor s (ks ++ [k]) m = (sealedFor s ks m || (c.patron == m)) := by
  simp only [sealedFor, List.any_append, List.any_cons, List.any_nil, n.get, Option.any_some, Bool.or_false]

theorem SealedAll.marked_patrons (h : SealedAll s ks js t) (n : NextPack s ks k c p) (m priority : Nat) :
    Table.get (markSealed k c.patron priority t).records.patrons m = (Table.get s.records.patrons m).map fun p =>
      if sealedFor s (ks ++ [k]) m then { p with openPack := 0 } else p := by
  have hm : Table.get (markSealed k c.patron priority t).records.patrons m = _ :=
    Table.get_modify t.records.patrons c.patron m fun x => { x with openPack := 0 }
  rw [hm, h.patrons, sealedFor_concat n]
  by_cases hc : m = c.patron
  · have hbeq : (c.patron == m) = true := by simp [hc]
    rw [if_pos hc, Option.map_map, hbeq, Bool.or_true]
    refine congrArg (fun g => (Table.get s.records.patrons m).map g) (funext fun x => ?_)
    by_cases hs : sealedFor s ks m = true <;> simp [hs]
  · have hbeq : (c.patron == m) = false := by simp [Ne.symm hc]
    rw [if_neg hc, hbeq, Bool.or_false]

/-- A pack that waits takes no job record (R60). -/
theorem SealedAll.waits_frame (h : SealedAll s ks js t) (n : NextPack s ks k c p)
    (hw : t.assembly.sealedList ≠ [] ∨ Table.lowestFree t.scheduler.jobs t.management.geometry.j = none) :
    sealPack k t = { t with
      records.patrons := (sealPack k t).records.patrons, assembly.cons := (sealPack k t).assembly.cons
      assembly.sealedList := t.assembly.sealedList ++ [k] } := by
  rw [(h.sealPack_eq n).trans (packSealed_waits (s := markSealed k c.patron (priorityAt s k) t) hw)]
  rfl

/-- The next pack waits (R60). -/
theorem SealedAll.wait (h : SealedAll s ks js t) (n : NextPack s ks k c p)
    (hw : t.assembly.sealedList ≠ [] ∨ Table.lowestFree t.scheduler.jobs t.management.geometry.j = none) :
    SealedAll s (ks ++ [k]) js (sealPack k t) := by
  have hmark := markSealed_pack ((h.others k n.fresh).trans n.get) (priorityAt s k)
  have heq := (h.sealPack_eq n).trans (packSealed_waits (s := markSealed k c.patron (priorityAt s k) t) hw)
  have hcons : ∀ i, i ≠ k → Table.get (sealPack k t).assembly.cons i = Table.get t.assembly.cons i := fun i hi => by
    rw [heq]
    exact markSealed_other hi c.patron (priorityAt s k)
  have hpack : Table.get (sealPack k t).assembly.cons k = some { c with state := .sealed, sealPriority := priorityAt s k } := by
    rw [heq]
    exact hmark
  have hsched : (sealPack k t).scheduler = t.scheduler := by rw [heq]; rfl
  have hpatrons : (sealPack k t).records.patrons = (markSealed k c.patron (priorityAt s k) t).records.patrons := by rw [heq]
  have hkeep : ∀ {a i : Nat}, ks[a]? = some i → i ≠ k := fun ha => ne_of_mem_of_not_mem (List.mem_of_getElem? ha) n.fresh
  refine ⟨?_, h.count.trans (by simp), fun i hi => ?_, fun a i x ha hx hl => ?_, fun a i x j ha hx hj => ?_, ?_, ?_, ?_,
    fun l hl => ?_, fun m => by rw [hpatrons, h.marked_patrons n]⟩
  · have hf := h.frame
    have hwait := h.waits_frame n hw
    rw [List.drop_append_of_le_length h.count, ← List.append_assoc]
    generalize sealPack k t = u at hwait ⊢
    rw [hwait, hf]
  · rw [List.mem_append, List.mem_singleton, not_or] at hi
    rw [hcons i hi.2, h.others i hi.1]
  · obtain ha | ⟨-, rfl⟩ := getElem?_concat_some ha
    · rw [hcons i (hkeep ha)]
      exact h.waiting a i x ha hx hl
    · rw [n.get, Option.some_inj] at hx
      rw [hpack, hx]
  · have hlt := (List.getElem?_eq_some_iff.mp hj).1
    obtain ha | ⟨hlen, -⟩ := getElem?_concat_some ha
    · rw [hcons i (hkeep ha), hsched]
      exact h.taken a i x j ha hx hj
    · have := h.count
      omega
  · rw [hsched]
    exact h.jobs
  · rw [hsched]
    exact h.used
  · rw [hsched]
    exact h.canonical
  · rw [zip_append_of_le h.count, queueAt, hsched]
    exact h.queues l hl

/-- The next pack takes a FREE job record (R60). -/
theorem SealedAll.take (h : SealedAll s ks js t) (n : NextPack s ks k c p) (hlen : js.length = ks.length) (hnew : j ∉ js)
    (hl : t.assembly.sealedList = []) (hj : Table.lowestFree t.scheduler.jobs t.management.geometry.j = some j) :
    SealedAll s (ks ++ [k]) (js ++ [j]) (sealPack k t) := by
  have hmark := markSealed_pack ((h.others k n.fresh).trans n.get) (priorityAt s k)
  have heq := (h.sealPack_eq n).trans (packSealed_takes (s := markSealed k c.patron (priorityAt s k) t) hl hj)
  have hcons : ∀ i, i ≠ k → Table.get (sealPack k t).assembly.cons i = Table.get t.assembly.cons i := fun i hi => by
    rw [heq, createPackJob_cons hmark, if_neg hi, markSealed_other hi]
  have hpack : Table.get (sealPack k t).assembly.cons k =
      some { c with state := .duplicating, sealPriority := priorityAt s k, job := j } := by
    rw [heq, createPackJob_cons hmark, if_pos rfl]
  have hjob : ∀ i, i ≠ j → Table.get (sealPack k t).scheduler.jobs i = Table.get t.scheduler.jobs i := fun i hi => by
    rw [heq, createPackJob_job hmark, if_neg hi]
    rfl
  have hown : Table.get (sealPack k t).scheduler.jobs j = some
      { state := .queued, kind := .pack, priority := priorityAt s k, consignment := k
        cartridgeClass := c.cartridgeClass } := by
    rw [heq, createPackJob_job hmark, if_pos rfl]
    rfl
  have hprio : priorityAt s k ≤ 3 := by
    rw [priorityAt_eq n.get n.patron]
    exact (sealPriorityOf_le _).trans (by decide)
  have hkeep : ∀ {a i : Nat}, ks[a]? = some i → i ≠ k := fun ha => ne_of_mem_of_not_mem (List.mem_of_getElem? ha) n.fresh
  have hother : ∀ {a i : Nat}, js[a]? = some i → i ≠ j := fun ha => ne_of_mem_of_not_mem (List.mem_of_getElem? ha) hnew
  refine ⟨?_, by simp [hlen], fun i hi => ?_, fun a i x ha hx hle => ?_, fun a i x o ha hx ho => ?_, fun i hi => ?_,
    fun i hi => ?_, fun hw => ?_, fun l hle => ?_, fun m => ?_⟩
  · have hf := h.frame
    have htakes : sealPack k t = { t with
        records.patrons := (sealPack k t).records.patrons, assembly.cons := (sealPack k t).assembly.cons
        scheduler.jobs := (sealPack k t).scheduler.jobs, scheduler.queues := (sealPack k t).scheduler.queues
        passDue := true } := by
      rw [heq, createPackJob_frame hmark]
      rfl
    have hlen' : (js ++ [j]).length = (ks ++ [k]).length := by simp [hlen]
    have hdue : (s.passDue || decide (js ++ [j] ≠ [])) = true := by simp
    rw [hlen', List.drop_length, hdue]
    rw [hlen, List.drop_length] at hf
    generalize sealPack k t = u at htakes ⊢
    rw [htakes, hf]
  · rw [List.mem_append, List.mem_singleton, not_or] at hi
    rw [hcons i hi.2, h.others i hi.1]
  · have ha := (List.getElem?_eq_some_iff.mp ha).1
    simp only [List.length_append, List.length_singleton] at ha hle
    omega
  · obtain ha | ⟨hlast, rfl⟩ := getElem?_concat_some ha
    · obtain ho | ⟨hlast, -⟩ := getElem?_concat_some ho
      · rw [hcons i (hkeep ha), hjob o (hother ho)]
        exact h.taken a i x o ha hx ho
      · have := (List.getElem?_eq_some_iff.mp ha).1
        omega
    · obtain ho | ⟨-, rfl⟩ := getElem?_concat_some ho
      · have := (List.getElem?_eq_some_iff.mp ho).1
        omega
      · rw [n.get, Option.some_inj] at hx
        subst hx
        exact ⟨hpack, hown⟩
  · rw [List.mem_append, List.mem_singleton, not_or] at hi
    rw [hjob i hi.2, h.jobs i hi.1]
  · rw [List.mem_append, List.mem_singleton] at hi
    by_cases hij : i = j
    · rw [hij, hown]
      rfl
    · rw [hjob i hij]
      exact h.used i (hi.resolve_right hij)
  · rw [heq, createPackJob_eq hmark]
    rw [owePass_scheduler, modQueue_jobs, modJob_jobs]
    exact Table.wf_modify _ _ _ (Table.wf_put _ _ _ (h.canonical hw))
  · have hq : queueAt (markSealed k c.patron (priorityAt s k) t) l = queueAt t l := rfl
    rw [heq, createPackJob_queue hmark hle, hq, h.queues l hle, List.zip_append hlen, List.filter_append, List.map_append]
    by_cases hlp : l = priorityAt s k
    · simp [hlp]
    · simp [hlp, Ne.symm hlp]
  · have hpatrons : (sealPack k t).records.patrons = (markSealed k c.patron (priorityAt s k) t).records.patrons := by
      rw [heq, createPackJob_frame hmark]
    rw [hpatrons, h.marked_patrons n]

/-! ## Every pack in turn -/

/-- The job records that `n` sealed packs take at once: the FREE ones from the lowest up, if no pack waits (R60). -/
def recordsFor (s : State) (n : Nat) : List Nat :=
  if s.assembly.sealedList = [] then (freeNumbers s.scheduler.jobs s.management.geometry.j).take n else []

theorem recordsFor_length_le (s : State) (n : Nat) : (recordsFor s n).length ≤ n := by
  unfold recordsFor
  split_ifs
  · exact List.length_take_le _ _
  · exact Nat.zero_le n

theorem SealedAll.free (h : SealedAll s ks js t) (n : Nat) :
    freeNumbers t.scheduler.jobs n = (freeNumbers s.scheduler.jobs n).filter (· ∉ js) := by
  unfold freeNumbers
  rw [List.filter_filter]
  refine List.filter_congr fun i _ => ?_
  by_cases hi : i ∈ js
  · have hused := h.used i hi
    simp [hi, Option.isNone_eq_false_iff.mpr hused]
  · simp [hi, h.jobs i hi]

theorem filter_notMem_take {l : List Nat} (hn : l.Nodup) (n : Nat) : l.filter (· ∉ l.take n) = l.drop n := by
  have hsplit := List.take_append_drop n l
  have hdis := List.disjoint_of_nodup_append (hsplit.symm ▸ hn)
  have htake : (l.take n).filter (· ∉ l.take n) = [] := List.filter_eq_nil_iff.mpr fun i hi => by simpa using hi
  have hdrop : (l.drop n).filter (· ∉ l.take n) = l.drop n :=
    List.filter_eq_self.mpr fun i hi => by simpa using fun h => hdis h hi
  calc l.filter (· ∉ l.take n) = (l.take n ++ l.drop n).filter (· ∉ l.take n) := by rw [hsplit]
    _ = l.drop n := by rw [List.filter_append, htake, hdrop, List.nil_append]

/-- The next pack, whether a job record is FREE for it or not. -/
theorem SealedAll.next (hw : Table.wf s.scheduler.jobs) (h : SealedAll s ks (recordsFor s ks.length) t)
    (n : NextPack s ks k c p) : SealedAll s (ks ++ [k]) (recordsFor s (ks ++ [k]).length) (sealPack k t) := by
  have hj : t.management = s.management := by rw [h.frame]
  have hlowest : Table.lowestFree t.scheduler.jobs t.management.geometry.j = _ := lowestFree_eq_head? (h.canonical hw) _
  rw [h.free, hj] at hlowest
  have hlist : t.assembly.sealedList = s.assembly.sealedList ++ ks.drop (recordsFor s ks.length).length := by rw [h.frame]
  rw [List.length_append, List.length_singleton]
  unfold recordsFor at h hlowest hlist ⊢
  by_cases hl : s.assembly.sealedList = []
  · have hn := freeNumbers_nodup s.scheduler.jobs s.management.geometry.j
    simp only [if_pos hl] at h hlowest hlist ⊢
    rw [filter_notMem_take hn] at hlowest
    generalize freeNumbers s.scheduler.jobs s.management.geometry.j = free at *
    by_cases hlt : ks.length < free.length
    · rw [List.drop_eq_getElem_cons hlt, List.head?_cons] at hlowest
      rw [List.take_succ_eq_append_getElem hlt]
      have hlen : (free.take ks.length).length = ks.length := List.length_take_of_le (Nat.le_of_lt hlt)
      refine h.take n hlen (fun hin => ?_) (by rw [hlist, hl, hlen, List.drop_length]; rfl) (by rw [hj, hlowest])
      have hused := h.used _ hin
      rw [lowestFree_get (h.canonical hw) hlowest] at hused
      cases hused
    · rw [List.take_of_length_le (by omega)] at h
      rw [List.take_of_length_le (by omega)]
      refine h.wait n (.inr ?_)
      rw [hj, hlowest, List.drop_eq_nil_of_le (by omega)]
      rfl
  · simp only [if_neg hl] at h ⊢
    exact h.wait n (.inl (by rw [hlist]; simp [hl]))

theorem Table.get_of_mem_wf {α : Type} {t : Table α} (hw : Table.wf t) {e : Nat × α} (he : e ∈ t) :
    Table.get t e.1 = some e.2 := by
  induction t with
  | nil => cases he
  | cons x t ih =>
    simp only [Table.wf, List.map_cons, List.pairwise_cons] at hw
    obtain ⟨habove, hw⟩ := hw
    rw [Table.get_cons]
    obtain rfl | he := List.mem_cons.mp he
    · exact if_pos rfl
    · have hlt := habove e.1 (List.mem_map_of_mem he)
      rw [if_neg (Nat.ne_of_lt hlt)]
      exact ih hw he

/-- The patron of a consignment is present. -/
def patronPresent (s : State) (e : Nat × Consignment) : Bool := (Table.get s.records.patrons e.2.patron).isSome

theorem sealPack_patronAbsent (hc : Table.get s.assembly.cons k = some c) (hp : Table.get s.records.patrons c.patron = none) :
    sealPack k s = s := by
  simp only [sealPack, hc, hp, ite_self]

/-- Packs sealed in order; those whose patron is absent stand as they are. -/
theorem sealPacks_sealed (hw : Table.wf s.scheduler.jobs) (es : List (Nat × Consignment))
    (hn : (es.map Prod.fst).Nodup) (hes : ∀ e ∈ es, Table.get s.assembly.cons e.1 = some e.2 ∧ e.2.state = .assembling) :
    SealedAll s ((es.filter (patronPresent s)).map Prod.fst)
      (recordsFor s ((es.filter (patronPresent s)).map Prod.fst).length)
      ((es.map Prod.fst).foldl (fun s k => sealPack k s) s) := by
  induction es using List.reverseRecOn with
  | nil =>
    have hnone : recordsFor s 0 = [] := List.eq_nil_of_length_eq_zero (Nat.le_zero.mp (recordsFor_length_le s 0))
    simpa [hnone] using SealedAll.refl s
  | append_singleton es e ih =>
    rw [List.map_append, List.map_singleton, List.nodup_append] at hn
    obtain ⟨hn, -, hfresh⟩ := hn
    have h := ih hn fun x hx => hes x (List.mem_append_left _ hx)
    obtain ⟨hget, hstate⟩ := hes e (List.mem_append_right _ (List.mem_singleton_self e))
    have hkey : e.1 ∉ (es.filter (patronPresent s)).map Prod.fst := fun hin =>
      hfresh _ ((List.filter_sublist.map _).subset hin) _ (List.mem_singleton_self _) rfl
    rw [List.map_append, List.map_singleton, List.foldl_append, List.foldl_cons, List.foldl_nil, List.filter_append]
    cases hp : Table.get s.records.patrons e.2.patron with
    | none =>
      have hskip : patronPresent s e = false := by rw [patronPresent, hp]; rfl
      have hsame := sealPack_patronAbsent (s := (es.map Prod.fst).foldl (fun s k => sealPack k s) s)
        ((h.others e.1 hkey).trans hget) (by rw [h.patrons, hp]; rfl)
      rw [hsame, List.filter_cons_of_neg (by simp [hskip]), List.filter_nil, List.append_nil]
      exact h
    | some p =>
      have htake : patronPresent s e = true := by rw [patronPresent, hp]; rfl
      rw [List.filter_cons_of_pos htake, List.filter_nil, List.map_append, List.map_singleton]
      exact h.next hw ⟨hkey, hget, hstate, hp⟩

/-! ## What every seal does to any table -/

/-- From `s` to `t` an ASSEMBLING pack stands as it was, and no patron has come or gone. -/
structure Sealing (s t : State) : Prop where
  kept : LinesKept s t
  assembling : ∀ k c, Table.get t.assembly.cons k = some c → c.state = .assembling → Table.get s.assembly.cons k = some c
  absent : ∀ n, Table.get t.records.patrons n = none → Table.get s.records.patrons n = none

theorem Sealing.refl (s : State) : Sealing s s := ⟨.refl s, fun _ _ h _ => h, fun _ h => h⟩

theorem LinesKept.trans (h : LinesKept s t) (g : LinesKept t u) : LinesKept s u where
  frame := by rw [g.frame, h.frame]
  patron n p hp := by
    obtain ⟨o, ho⟩ := h.patron n p hp
    obtain ⟨o', ho'⟩ := g.patron n _ ho
    exact ⟨o', ho'⟩
  lines k c hc := by
    obtain ⟨c1, hc1, hl1⟩ := h.lines k c hc
    obtain ⟨c2, hc2, hl2⟩ := g.lines k c1 hc1
    exact ⟨c2, hc2, hl2.trans hl1⟩

theorem Sealing.trans (h : Sealing s t) (g : Sealing t u) : Sealing s u where
  kept := h.kept.trans g.kept
  assembling k c hc ha := h.assembling k c (g.assembling k c hc ha) ha
  absent n hn := h.absent n (g.absent n hn)

/-- A sealed pack is no longer ASSEMBLING (R58). -/
theorem SealsPack.notAssembling {c' : Consignment} (h : SealsPack s t k c p c') : c'.state ≠ .assembling := by
  by_cases hw : s.assembly.sealedList ≠ [] ∨ Table.lowestFree s.scheduler.jobs s.management.geometry.j = none
  · rw [(h.waits hw).1]
    decide
  · rw [not_or, not_not] at hw
    obtain ⟨hl, hj⟩ := hw
    obtain ⟨j, hj⟩ := Option.ne_none_iff_exists'.mp hj
    rw [(h.takes j hl hj).1]
    decide

/-- Every seal is a Sealing, after which its pack is not ASSEMBLING unless its patron is absent. -/
theorem sealPack_sealing (k : Nat) (s : State) : Sealing s (sealPack k s) ∧
    ∀ c, Table.get (sealPack k s).assembly.cons k = some c → c.state = .assembling →
      Table.get s.records.patrons c.patron = none := by
  cases hc : Table.get s.assembly.cons k with
  | none =>
    have hsame : sealPack k s = s := by simp only [sealPack, hc]
    rw [hsame]
    exact ⟨.refl s, fun c h => by rw [hc] at h; cases h⟩
  | some c =>
    by_cases ha : c.state = .assembling
    · cases hp : Table.get s.records.patrons c.patron with
      | none =>
        rw [sealPack_patronAbsent hc hp]
        refine ⟨.refl s, fun x hx _ => ?_⟩
        rw [hc, Option.some_inj] at hx
        rw [← hx, hp]
      | some p =>
        obtain ⟨c', h⟩ := sealPack_seals hc ha hp
        refine ⟨⟨h.kept hc, fun i x hx hax => ?_, fun n hn => ?_⟩, fun x hx hax => ?_⟩
        · by_cases hi : i = k
          · subst hi
            rw [h.pack, Option.some_inj] at hx
            exact absurd hax (hx ▸ h.notAssembling)
          · rwa [h.others i hi] at hx
        · rw [h.frame, Table.get_modify] at hn
          split_ifs at hn
          · exact Option.map_eq_none_iff.mp hn
          · exact hn
        · rw [h.pack, Option.some_inj] at hx
          exact absurd hax (hx ▸ h.notAssembling)
    · have hsame : sealPack k s = s := by simp only [sealPack, hc, if_neg ha]
      rw [hsame]
      refine ⟨.refl s, fun x hx hax => absurd hax ?_⟩
      rw [hc, Option.some_inj] at hx
      rwa [← hx]

/-- Packs sealed in order: what is still ASSEMBLING is not one of them, or its patron is absent. -/
theorem sealPacks_sealing (ks : List Nat) (s : State) : Sealing s (ks.foldl (fun s k => sealPack k s) s) ∧
    ∀ k ∈ ks, ∀ c, Table.get (ks.foldl (fun s k => sealPack k s) s).assembly.cons k = some c → c.state = .assembling →
      Table.get s.records.patrons c.patron = none := by
  induction ks generalizing s with
  | nil => exact ⟨.refl s, fun k hk => by cases hk⟩
  | cons i ks ih =>
    obtain ⟨hone, hdone⟩ := sealPack_sealing i s
    obtain ⟨hrest, hall⟩ := ih (sealPack i s)
    refine ⟨hone.trans hrest, fun k hk c hc ha => ?_⟩
    obtain rfl | hk := List.mem_cons.mp hk
    · exact hdone c (hrest.assembling k c hc ha) ha
    · exact hone.absent _ (hall k hk c hc ha)

/-- FLUSH_PACK of every patron leaves no pack ASSEMBLING whose patron is present (R59). -/
theorem flushAll_assembling {x : Consignment}
    (hx : Table.get ((assemblingPacks s).foldl (fun s k => sealPack k s) s).assembly.cons k = some x)
    (ha : x.state = .assembling) : Table.get s.records.patrons x.patron = none := by
  obtain ⟨hall, hdone⟩ := sealPacks_sealing (assemblingPacks s) s
  have hmem := Table.mem_of_get (hall.assembling k x hx ha)
  refine hdone k ?_ x hx ha
  exact List.mem_map_of_mem (f := Prod.fst) (List.mem_filter.mpr ⟨hmem, decide_eq_true ha⟩)

/-! ## FLUSH_PACK's answers (R59) -/

theorem flushPacks_all (s : State) :
    flushPacks 0 s = ⟨(assemblingPacks s).foldl (fun s k => sealPack k s) s, .ok, []⟩ := if_pos rfl

theorem flushPacks_range {n : Nat} (h : s.management.geometry.p < n) : flushPacks n s = refuse .patronRange s := by
  rw [flushPacks, if_neg (by omega), if_pos h]

theorem flushPacks_patron {n : Nat} (h0 : n ≠ 0) (hr : n ≤ s.management.geometry.p)
    (hp : Table.get s.records.patrons n = some p) :
    flushPacks n s = if p.openPack = 0 then refuse .notFound s else ⟨sealPack p.openPack s, .ok, []⟩ := by
  rw [flushPacks, if_neg h0, if_neg (Nat.not_lt.mpr hr), hp]

theorem flushPacks_absent {n : Nat} (h0 : n ≠ 0) (hr : n ≤ s.management.geometry.p)
    (hp : Table.get s.records.patrons n = none) : flushPacks n s = refuse .patronAbsent s := by
  rw [flushPacks, if_neg h0, if_neg (Nat.not_lt.mpr hr), hp]

end SealedPacks

end Sys2Proof.Machine

open Sys2Proof Sys2Proof.Machine in
/-- Settles O36: one pack is the first of a list of packs sealed in order, and every pack is that list. -/
theorem flushSealsOpenPacks : Obligations.FlushSealsOpenPacks := by
  intro patron s s0 h hm n i refused
  have he : exec i s = request i s fun s => inService s (flushPacks n s) := rfl
  have hact : inService s0 (flushPacks n s0) = flushPacks n s0 := inService_service _ (by rw [h.management, hm])
  have hdue : s0.passDue = false := h.noPass
  have hqueue : ∀ l, queueAt s0 l = queueAt s l := fun l => by rw [queueAt, h.scheduler, queueAt]
  refine ⟨fun hr => h.refused he (hact.trans (flushPacks_range (by rwa [h.management]))), fun h0 hr => ⟨fun hp => ?_,
    fun p hp => ?_⟩, fun h0 => ?_, fun h0 hcanon => ?_⟩
  · exact h.refused he (hact.trans (flushPacks_absent h0 (by rwa [h.management]) (by rwa [h.records])))
  · have hflush := hact.trans (flushPacks_patron h0 (by rwa [h.management]) (by rwa [h.records]))
    refine ⟨fun hopen => h.refused he (hflush.trans (if_pos hopen)), fun c hopen hc ha hcp => ?_⟩
    rw [if_neg hopen] at hflush
    intro priority
    have hnext : NextPack s0 [] p.openPack c p := ⟨List.not_mem_nil, by rwa [h.assembly], ha, by rw [hcp]; rwa [h.records]⟩
    have hprio : priorityAt s0 p.openPack = priority := priorityAt_eq hnext.get hnext.patron
    have hle : priority ≤ 3 := (sealPriorityOf_le p.patronClass).trans (by decide)
    have hpatrons : ∀ m, (Table.get s0.records.patrons m).map (fun q =>
          if sealedFor s0 [p.openPack] m then { q with openPack := 0 } else q) =
        if m = n then some { p with openPack := 0 } else Table.get s.records.patrons m := fun m => by
      have hfor := sealedFor_concat hnext m
      rw [List.nil_append] at hfor
      rw [hfor, hcp, h.records]
      by_cases hm : m = n
      · simp [hm, hp]
      · simp [hm, Ne.symm hm, sealedFor]
    refine ⟨fun j hl hj => ?_, fun hw => ?_⟩
    · have hsealed := (SealedAll.refl s0).take hnext rfl List.not_mem_nil (by rw [h.assembly, hl])
        (by rw [h.scheduler, h.management]; exact hj)
      rw [List.nil_append, List.nil_append] at hsealed
      obtain ⟨hpack, hjob⟩ := hsealed.taken 0 p.openPack c j rfl hnext.get rfl
      have hqueues : ∀ l, l ≤ 3 → _ := hsealed.queues
      have hframe := hsealed.frame
      have hdrop : [p.openPack].drop [j].length = [] := rfl
      have hpass : (s0.passDue || decide ([j] ≠ [])) = true := by simp
      rw [hprio] at hpack hjob
      rw [hdrop, List.append_nil, hpass] at hframe
      simp only [List.zip_cons_cons, List.zip_nil_right, List.filter_singleton, hprio, hqueue] at hqueues
      refine ⟨_, h.answered he hflush, hpack, (hsealed.patrons n).trans ((hpatrons n).trans (if_pos rfl)), hjob, ?_,
        fun l hl => ?_, fun k hk => ?_, fun m hm => (hsealed.patrons m).trans ((hpatrons m).trans (if_neg hm)),
        fun o ho => ?_, ?_⟩
      · rw [hqueues priority hle, decide_eq_true rfl]
        rfl
      · by_cases h3 : l ≤ 3
        · rw [hqueues l h3, decide_eq_false (Ne.symm hl)]
          exact List.append_nil _
        · rw [queueAt_outside (Nat.lt_of_not_le h3), queueAt_outside (Nat.lt_of_not_le h3)]
      · rw [hsealed.others k (by simpa using hk), h.assembly]
      · rw [hsealed.jobs o (by simpa using ho), h.scheduler]
      · exact hframe
    · have hw0 : s0.assembly.sealedList ≠ [] ∨ Table.lowestFree s0.scheduler.jobs s0.management.geometry.j = none := by
        rw [h.assembly, h.scheduler, h.management]
        exact hw
      have hsealed := (SealedAll.refl s0).wait hnext hw0
      have hframe := (SealedAll.refl s0).waits_frame hnext hw0
      have hpack := hsealed.waiting 0 p.openPack c rfl hnext.get (le_refl 0)
      rw [hprio] at hpack
      refine ⟨sealPack p.openPack s0, h.quiet he hflush (by rw [hframe]), hpack, by rw [← h.assembly]; exact hframe,
        fun k hk => ?_, fun m hm => (hsealed.patrons m).trans ((hpatrons m).trans (if_neg hm)),
        (hsealed.patrons n).trans ((hpatrons n).trans (if_pos rfl))⟩
      rw [hsealed.others k (by simpa using hk), h.assembly]
  · have hflush : inService s0 (flushPacks n s0) = ⟨(assemblingPacks s0).foldl (fun s k => sealPack k s) s0, .ok, []⟩ := by
      rw [hact, h0, flushPacks_all]
    have hdone := fun k c => flushAll_assembling (s := s0) (k := k) (x := c)
    obtain ⟨hall, -⟩ := sealPacks_sealing (assemblingPacks s0) s0
    have hframe := hall.kept.frame
    have hexec := h.answered he hflush
    generalize (assemblingPacks s0).foldl (fun s k => sealPack k s) s0 = u at hdone hframe hexec
    have hsettle := (BayWork.settle u).frame
    have hasm : (settle u).assembly = u.assembly := by rw [hsettle]
    refine ⟨_, hexec, rfl, ?_, ?_, ?_, ?_, ?_, fun k c hc ha => ?_⟩
    · show (settle u).dispatch = _
      rw [hsettle, hframe, h.line_only]
    · show (settle u).returns = _
      rw [hsettle, hframe, h.line_only]
    · show (settle u).days = _
      rw [hsettle, hframe, h.line_only]
    · show (settle u).requests = _
      rw [hsettle, hframe, h.line_only]
    · show (settle u).records.titles = _
      rw [hsettle, hframe, h.line_only]
    · rw [← h.records]
      have hget : Table.get (settle u).assembly.cons k = some c := hc
      rw [hasm] at hget
      exact hdone k c hget ha
  · have hflush : inService s0 (flushPacks n s0) = ⟨(assemblingPacks s0).foldl (fun s k => sealPack k s) s0, .ok, []⟩ := by
      rw [hact, h0, flushPacks_all]
    obtain ⟨-, -, -, -, hcons, hjobs⟩ := hcanon
    intro ks free js priority
    have hcons0 : Table.wf s0.assembly.cons := by rwa [h.assembly]
    have hkeys : ((s0.assembly.cons.filter fun e => decide (e.2.state = .assembling)).map Prod.fst).Nodup :=
      (hcons0.sublist (List.filter_sublist.map _)).imp Nat.ne_of_lt
    have hsealed := sealPacks_sealed (s := s0) (by rwa [h.scheduler]) _ hkeys fun e hmem =>
      ⟨Table.get_of_mem_wf hcons0 (List.mem_of_mem_filter hmem), of_decide_eq_true (List.mem_filter.mp hmem).2⟩
    have hks : ((s0.assembly.cons.filter fun e => decide (e.2.state = .assembling)).filter (patronPresent s0)).map Prod.fst =
        ks := by
      rw [List.filter_filter, h.assembly]
      refine congrArg (List.map Prod.fst) (List.filter_congr fun e _ => ?_)
      rw [patronPresent, h.records, Bool.and_comm]
    have hjs : recordsFor s0 ks.length = js := by
      rw [recordsFor, h.assembly, h.scheduler, h.management]
      rfl
    have hprio : ∀ k, priorityAt s0 k = priority k := fun k => by
      rw [priorityAt, h.assembly, h.records]
      rfl
    have hfor : ∀ m, sealedFor s0 ks m = ks.any fun k => (Table.get s.assembly.cons k).any fun c => c.patron == m :=
        fun m => by
      rw [sealedFor, h.assembly]
    rw [hks, hjs] at hsealed
    have hexec := h.answered he hflush
    unfold assemblingPacks at hexec
    generalize List.foldl (fun s k => sealPack k s) s0 _ = t at hsealed hexec
    obtain ⟨hframe, -, hothers, hwaiting, htaken, hother, -, -, hqueues, hpatrons⟩ := hsealed
    simp only [hprio, hfor, hqueue, h.assembly, h.scheduler, h.records] at hothers hwaiting htaken hother hqueues hpatrons
    refine ⟨_, hexec, ?_, hothers, fun a k c hk hc => ⟨hwaiting a k c hk hc, fun j => htaken a k c j hk hc⟩, hother,
      hqueues, hpatrons⟩
    rw [hdue, Bool.false_or] at hframe
    rw [← h.assembly]
    exact hframe
end

