-- ==== Sys2Proof/Proofs/FaultNotice.lean ====
section
/-! PROOFS. The BAY_FAULT notice and the FAULTED bay stand while jobs fail, lines are restored, requests are allocated and
jobs are placed: only a bay fault latches it (R94, R206). -/

namespace Sys2Proof.Machine

/-! ## The notice -/

section Notice

variable {s t u : State}

/-- The BAY_FAULT notice is the same in both states. -/
def FaultNoticeKept (s t : State) : Prop := bankGet t.management.notices 2 {} = bankGet s.management.notices 2 {}

theorem FaultNoticeKept.of_management (h : t.management = s.management) : FaultNoticeKept s t := by
  rw [FaultNoticeKept, h]

theorem FaultNoticeKept.refl (s : State) : FaultNoticeKept s s := rfl

theorem FaultNoticeKept.trans (h : FaultNoticeKept s t) (g : FaultNoticeKept t u) : FaultNoticeKept s u := Eq.trans g h

theorem FaultNoticeKept.foldl {β : Type} {step : State → β → State}
    (h : ∀ s b, FaultNoticeKept s (step s b)) (l : List β)
    (s : State) : FaultNoticeKept s (l.foldl step s) := by
  induction l generalizing s with
  | nil => rfl
  | cons b l ih => exact (h s b).trans (ih _)

theorem noticeNumber_eq_two {n : NoticeId} (h : noticeNumber n = 2) : n = .bayFault := by
  cases n with
  | bayFault => rfl
  | _ => exact absurd h (by decide)

theorem FaultNoticeKept.latch {n : NoticeId} (hn : n ≠ .bayFault) (x : Nat) (s : State) : FaultNoticeKept s (latch n x s) :=
  bankGet_modify_other _ _ _ fun h => hn (noticeNumber_eq_two h.symm)

theorem latch_bayFault (b : Nat) (s : State) : bankGet (latch .bayFault b s).management.notices 2 {} =
    { latch := true, count := min 255 ((bankGet s.management.notices 2 {}).count + 1), subject := b } :=
  bankGet_modify_same _ _ _ _ (by decide)

/-! ## Allocation (R37 to R42) -/

theorem createParts_management (n i k : Nat) (plan : BraillePlan) (v w : Nat) (base : Consignment) (s : State) :
    (createParts n i k plan v w base s).management = s.management := by
  induction n generalizing i s with
  | zero => rfl
  | succ n ih =>
    unfold createParts
    split
    · rfl
    · exact ih _ _

theorem openPackAt_management (k r b : Nat) (q : Request) (p : Patron) (s : State) :
    (openPackAt k r b q p s).management = s.management := by
  unfold openPackAt
  rw [(examineClose_kept _ _).frame]
  rfl

theorem addToPack_management (k r b : Nat) (q : Request) (s : State) : (addToPack k r b q s).management = s.management := by
  unfold addToPack
  rw [(examineClose_kept _ _).frame]
  rfl

theorem allocateOnDemand_management (r : Nat) (q : Request) (p : Patron) (t : Title) (s : State) :
    (allocateOnDemand r q p t s).2.management = s.management := by
  unfold allocateOnDemand
  split
  · split_ifs
    · exact addToPack_management _ _ _ _ s
    · split
      · rfl
      · exact (openPackAt_management _ _ _ _ _ _).trans (by rw [(sealPack_kept _ s).frame])
  · split
    · rfl
    · exact openPackAt_management _ _ _ _ _ s

theorem allocateShelf_management (r : Nat) (q : Request) (p : Patron) (t : Title) (s : State) :
    (allocateShelf r q p t s).2.management = s.management := by
  unfold allocateShelf
  split
  · rfl
  · simp only
    rw [(examineClose_kept _ _).frame]
    rfl

theorem allocateBraille_management (r : Nat) (q : Request) (p : Patron) (t : Title) (s : State) :
    (allocateBraille r q p t s).2.management = s.management := by
  unfold allocateBraille
  simp only
  split
  · rfl
  · split_ifs
    · rfl
    · rw [(examineClose_kept _ _).frame]
      exact createParts_management _ _ _ _ _ _ _ _

theorem allocateKind_management (r : Nat) (q : Request) (p : Patron) (t : Title) (s : State) :
    (allocateKind r q p t s).2.management = s.management := by
  unfold allocateKind
  split
  · exact allocateOnDemand_management r q p t s
  · split_ifs
    · rfl
    · split
      · exact allocateShelf_management r q p t s
      · exact allocateBraille_management r q p t s

/-- An attempt latches POOL_EXHAUSTED at most (R42). -/
theorem attempt_faultNotice (r : Nat) (s : State) : FaultNoticeKept s (attempt r s).2 := by
  unfold attempt
  split
  · exact .refl s
  split
  · split_ifs
    · have h := fun q p t => FaultNoticeKept.of_management (allocateKind_management r q p t s)
      unfold noteExhausted
      split
      · exact (h _ _ _).trans (.latch (by decide) _ _)
      · exact h _ _ _
      · exact h _ _ _
    · exact .refl s
  · exact .refl s

theorem headroom_faultNotice (n : Nat) (s : State) : FaultNoticeKept s (headroom n s) := by
  unfold headroom
  split
  · exact .refl s
  · exact .foldl (fun s r => attempt_faultNotice r s) _ s

/-! ## Restoration and failed jobs (R47, R48, R63, R91) -/

theorem restoreLines_faultNotice (n prev : Nat) (ls : List Line) (s : State) :
    FaultNoticeKept s (restoreLines n prev ls s) := by
  induction ls generalizing prev s with
  | nil => exact .refl s
  | cons l ls ih =>
    unfold restoreLines
    split
    · have hdropped : FaultNoticeKept s (latch .restoreDropped n (ungrant n l.title s)) :=
        .trans (.of_management rfl) (.latch (by decide) n _)
      exact hdropped.trans (ih _ _)
    · exact .trans (.of_management rfl) (ih _ _)

theorem handOver_faultNotice (n : Nat) (ls : List Line) (s : State) : FaultNoticeKept s (handOver n ls s) :=
  (restoreLines_faultNotice n 0 ls s).trans (headroom_faultNotice n _)

theorem createPackJob_management (j k : Nat) (s : State) : (createPackJob j k s).management = s.management := by
  cases hc : Table.get s.assembly.cons k with
  | none => simp only [createPackJob, hc]
  | some c => rw [createPackJob_frame hc]

theorem freeJob_management (j : Nat) (s : State) : (freeJob j s).management = s.management := by
  cases hl : s.assembly.sealedList with
  | nil => rw [freeJob_unwaited hl]
  | cons k rest => rw [freeJob_waited hl, createPackJob_management]

theorem jobFailed_faultNotice (k : Nat) (s : State) : FaultNoticeKept s (jobFailed k s) := by
  unfold jobFailed
  split
  · exact .refl s
  · exact .trans (.of_management (by rw [freeConsignment_frame])) (handOver_faultNotice _ _ _)

theorem failJob_faultNotice (j : Nat) (s : State) : FaultNoticeKept s (failJob j s) := by
  have hlatch : FaultNoticeKept s (latch .jobFailed j s) := .latch (by decide) j s
  unfold failJob
  split
  · exact .refl s
  · refine .trans (t := ite _ _ _) ?_ (.of_management (freeJob_management j _))
    split_ifs
    · exact hlatch.trans (jobFailed_faultNotice _ _)
    · exact hlatch

theorem queueHead_management (j : Nat) (s : State) : (queueHead j s).management = s.management := by
  unfold queueHead
  split <;> rfl

theorem retryJob_faultNotice (j : Nat) (s : State) : FaultNoticeKept s (retryJob j s) := by
  unfold retryJob
  split
  · exact .refl s
  · split_ifs
    · exact failJob_faultNotice j s
    · exact .of_management (queueHead_management j _)

end Notice

/-! ## Placement leaves a FAULTED bay alone (R80 to R82, R94) -/

section Faulted

variable {s t : State} {b : Nat}

/-- From `s` to `t` bay `b`, the BAY_FAULT notice and the poll set stand. -/
structure FaultStands (b : Nat) (s t : State) : Prop where
  bay : bayAt t b = bayAt s b
  notice : FaultNoticeKept s t
  pollSet : t.line.pollSet = s.line.pollSet

theorem FaultStands.refl (b : Nat) (s : State) : FaultStands b s s := ⟨rfl, .refl s, rfl⟩

theorem FaultStands.trans {u : State} (h : FaultStands b s t) (g : FaultStands b t u) : FaultStands b s u :=
  ⟨g.bay.trans h.bay, h.notice.trans g.notice, g.pollSet.trans h.pollSet⟩

theorem FaultStands.foldl {β : Type} {step : State → β → State} {P : State → Prop}
    (h : ∀ s x, P s → FaultStands b s (step s x)) (hP : ∀ s t, P s → FaultStands b s t → P t) (l : List β) (s : State)
    (hs : P s) : FaultStands b s (l.foldl step s) := by
  induction l generalizing s with
  | nil => exact .refl b s
  | cons x l ih => exact (h s x hs).trans (ih _ (hP s _ hs (h s x hs)))

/-- A command made at another bay. -/
theorem SendsTo.faultStands {o : Nat} {f : Frame} {x : Bay} (h : SendsTo s o f x t) (ho : b ≠ o)
    (hm : t.management = s.management) : FaultStands b s t := by
  obtain ⟨hroom, howed, hothers⟩ := h
  refine ⟨hothers b ho, .of_management hm, ?_⟩
  by_cases hr : floorRoom (waitingForwards s + waitingCommands s) s = true
  · rw [(hroom hr).1]
    rfl
  · rw [(howed hr).1]

theorem idleBayFor_idle {cls o : Nat} (h : idleBayFor s cls = some o) : o ∈ bayNumbers ∧ (bayAt s o).state = .idle := by
  have hp := List.find?_some h
  simp only [Bool.and_eq_true, decide_eq_true_eq] at hp
  exact ⟨List.mem_of_find?_eq_some h, hp.1⟩

/-- The bay the fold finds is one of the list, or what it began with. -/
theorem foldl_lower_mem {v : Nat → Nat} {a : Nat} (l : List Nat) (best : Option Nat)
    (h : l.foldl (lower v) best = some a) : a ∈ l ∨ best = some a := by
  induction l generalizing best with
  | nil => exact .inr h
  | cons o l ih =>
    obtain hin | hl := ih _ h
    · exact .inl (List.mem_cons_of_mem o hin)
    · cases best with
      | none =>
        cases hl
        exact .inl List.mem_cons_self
      | some c =>
        simp only [lower] at hl
        split_ifs at hl
        · cases hl
          exact .inl List.mem_cons_self
        · exact .inr hl

theorem preemptionBay_writing {cls priority o : Nat} (h : preemptionBay s cls priority = some o) :
    o ∈ bayNumbers ∧ (bayAt s o).state = .writing := by
  obtain hin | hn := foldl_lower_mem _ none (preemptionBay_eq.symm.trans h)
  · obtain ⟨hmem, hc⟩ := List.mem_filter.mp hin
    obtain ⟨-, hw, -⟩ := isCandidate_iff.mp hc
    exact ⟨hmem, hw⟩
  · cases hn

theorem tryPlace_faultStands (hf : (bayAt s b).state = .faulted) (j : Nat) : FaultStands b s (tryPlace s j) := by
  have hne : ∀ {o : Nat} {st : BayState}, (bayAt s o).state = st → st ≠ .faulted → b ≠ o := fun ho hst e => by
    rw [e, ho] at hf
    exact hst hf
  cases hj : Table.get s.scheduler.jobs j with
  | none =>
    have hsame : tryPlace s j = s := by simp only [tryPlace, hj]
    rw [hsame]
    exact .refl b s
  | some job =>
    by_cases hb : (accountAt s job.cartridgeClass).blank = 0
    · rw [tryPlace_short hj hb]
      exact ⟨rfl, .latch (by decide) _ s, rfl⟩
    have hb := Nat.one_le_iff_ne_zero.mpr hb
    cases hi : idleBayFor s job.cartridgeClass with
    | some o =>
      obtain ⟨hmem, hidle⟩ := idleBayFor_idle hi
      obtain ⟨h1, h24⟩ := mem_bayNumbers.mp hmem
      rw [tryPlace_idle hj hb hi]
      exact (placeOn_sends h1 h24 hj).faultStands (hne hidle (by decide)) (by rw [placeOn_frame hj])
    | none =>
      cases hp : preemptionBay s job.cartridgeClass job.priority with
      | some o =>
        obtain ⟨hmem, hwriting⟩ := preemptionBay_writing hp
        obtain ⟨h1, h24⟩ := mem_bayNumbers.mp hmem
        rw [tryPlace_preempt hj hb hi hp]
        exact (preemptOn_sends h1 h24 hj).faultStands (hne hwriting (by decide)) (by rw [preemptOn_frame hj])
      | none =>
        rw [tryPlace_none hj hb hi hp]
        exact .refl b s

/-- The placement pass that ends the step leaves the FAULTED bay as it is. -/
theorem settle_faultStands (hf : (bayAt s b).state = .faulted) : FaultStands b s (settle s) := by
  have hpass : FaultStands b s (placementPass s) :=
    .foldl (P := fun s => (bayAt s b).state = .faulted) (fun s j h => tryPlace_faultStands h j)
      (fun s t h g => by rw [g.bay, h]) _ s hf
  unfold settle
  split_ifs
  · exact ⟨hpass.bay, hpass.notice, hpass.pollSet⟩
  · exact .refl b s

end Faulted

end Sys2Proof.Machine
end

