-- ==== Sys2Proof/Proofs/BayFaults.lean ====
section
/-! PROOFS. A bay fault empties the bay (R94, R95), and the stall timer that expires next (R79). -/

namespace Sys2Proof.Machine

/-! ## One failed attempt (R90, R95) -/

section Attempt

variable {s t u v : State} {j : Nat} {x y : Job}

/-- A held job's cartridge is forgotten and the retry rule decides (R95). -/
def faultAttempt (s : State) (j : Nat) : State := retryJob j (forgetCartridge j s)

theorem forgetCartridge_job (hx : Table.get s.scheduler.jobs j = some x) :
    Table.get (forgetCartridge j s).scheduler.jobs j = some { x with offset := 0, serial := none } := by
  rw [forgetCartridge, modJob_jobs, Table.get_modify_same, hx]
  rfl

theorem faultAttempt_absent (hx : Table.get s.scheduler.jobs j = none) : faultAttempt s j = s := by
  have hsame : forgetCartridge j s = s := by rw [forgetCartridge, modJob, Table.modify_absent hx]
  rw [faultAttempt, hsame]
  simp only [retryJob, hx]

/-- A job that has not failed before, marked and without its cartridge. -/
def markedRetry (j : Nat) (s : State) : State :=
  modJob j (fun x => { x with offset := 0, serial := none, retry := true }) s

theorem faultAttempt_first (hx : Table.get s.scheduler.jobs j = some x) (hr : x.retry = false) :
    faultAttempt s j = queueHead j (markedRetry j s) := by
  have htwice : modJob j (fun x => { x with retry := true }) (forgetCartridge j s) = markedRetry j s := by
    rw [forgetCartridge, modJob, modJob, Table.modify_modify]
    rfl
  simp only [faultAttempt, retryJob, forgetCartridge_job hx, hr]
  rw [← htwice]
  rfl

theorem faultAttempt_second (hx : Table.get s.scheduler.jobs j = some x) (hr : x.retry = true) :
    faultAttempt s j = failJob j (forgetCartridge j s) := by
  simp only [faultAttempt, retryJob, forgetCartridge_job hx, hr, if_true]

theorem faultAttempt_change (s : State) (j : Nat) : OrderChange s (faultAttempt s j) :=
  (forgetCartridge_change j s).trans (retryJob_change j _)

theorem faultAttempt_faultNotice (s : State) (j : Nat) : FaultNoticeKept s (faultAttempt s j) :=
  .trans (.of_management rfl) (retryJob_faultNotice j _)

/-- Job `j` of the record `x` joins the head of its level with the record `y`. -/
def PutAtHead (j : Nat) (x y : Job) (v v' : State) : Prop :=
  v' = { v with scheduler.jobs := v'.scheduler.jobs, scheduler.queues := v'.scheduler.queues, passDue := true } ∧
    Table.get v'.scheduler.jobs j = some y ∧
    (∀ o, o ≠ j → Table.get v'.scheduler.jobs o = Table.get v.scheduler.jobs o) ∧
    ∀ l, l ≤ 3 → queueAt v' l = if l = x.priority then j :: queueAt v l else queueAt v l

theorem queueHead_putAtHead (hframe : t = { v with scheduler.jobs := t.scheduler.jobs })
    (ht : Table.get t.scheduler.jobs j = some y) (hprio : y.priority = x.priority)
    (hothers : ∀ o, o ≠ j → Table.get t.scheduler.jobs o = Table.get v.scheduler.jobs o) :
    PutAtHead j x { y with state := .queued, bay := 0 } v (queueHead j t) := by
  refine ⟨?_, queueHead_job ht, fun o ho => ?_, fun l hl => ?_⟩
  · rw [queueHead_frame ht, hframe]
  · rw [queueHead_eq ht, owePass_scheduler, modQueue_jobs, modJob_jobs, Table.get_modify_other _ _ ho, hothers o ho]
  · have hqueue : queueAt t l = queueAt v l := by rw [hframe]; rfl
    rw [queueAt_queueHead ht hl, hprio, hqueue]

theorem faultAttempt_putAtHead (hx : Table.get s.scheduler.jobs j = some x) (hr : x.retry = false) :
    PutAtHead j x { x with state := .queued, bay := 0, offset := 0, serial := none, retry := true } s (faultAttempt s j) := by
  rw [faultAttempt_first hx hr]
  refine queueHead_putAtHead (y := { x with offset := 0, serial := none, retry := true }) rfl ?_ rfl fun o ho => by
    rw [markedRetry, modJob_jobs, Table.get_modify_other _ _ ho]
  rw [markedRetry, modJob_jobs, Table.get_modify_same, hx]
  rfl

/-- A job that fails for the second time, its record still standing (R91). -/
def failedOnce (j : Nat) (s : State) : State := latch .jobFailed j (forgetCartridge j s)

theorem failedOnce_spec (hx : Table.get s.scheduler.jobs j = some x) :
    failedOnce j s = { s with
      scheduler.jobs := (failedOnce j s).scheduler.jobs, management := (latch .jobFailed j s).management } ∧
    Table.get (failedOnce j s).scheduler.jobs j = some { x with offset := 0, serial := none } ∧
    ∀ o, o ≠ j → Table.get (failedOnce j s).scheduler.jobs o = Table.get s.scheduler.jobs o :=
  ⟨rfl, forgetCartridge_job hx,
    fun _ ho => Table.get_modify_other s.scheduler.jobs (fun x => { x with offset := 0, serial := none }) ho⟩

theorem faultAttempt_failed (hx : Table.get s.scheduler.jobs j = some x) (hr : x.retry = true) :
    faultAttempt s j = freeJob j (if x.kind = .pack then jobFailed x.consignment (failedOnce j s) else failedOnce j s) := by
  rw [faultAttempt_second hx hr]
  simp only [failJob, forgetCartridge_job hx]
  rfl

theorem jobFailed_absent {k : Nat} (hc : Table.get s.assembly.cons k = none) : jobFailed k s = s := by
  simp only [jobFailed, hc]

theorem jobFailed_present {k : Nat} {c : Consignment} (hc : Table.get s.assembly.cons k = some c) :
    jobFailed k s = handOver c.patron (openLines c) (freeConsignment k s) := by
  simp only [jobFailed, hc]

end Attempt

/-! ## The jobs of a faulted bay, none of which has failed before (R95) -/

section FirstFailures

variable {s : State} {j p b : Nat} {js : List Nat}

/-- What a bay fault makes of a job that has not failed before: the pre-emptor `p` unmarked, the others marked. -/
def faultJob (p i : Nat) (x : Job) : Job :=
  if i = p then { x with state := .queued, bay := 0 }
  else { x with state := .queued, bay := 0, offset := 0, serial := none, retry := true }

theorem faultJob_resettles (p : Nat) : Resettles (faultJob p) := fun j x => by
  unfold faultJob
  split_ifs <;> exact ⟨rfl, rfl, rfl⟩

theorem faultAttempt_sent (hj : ((Table.get s.scheduler.jobs j).any fun x => !x.retry) = true) (hp : j ≠ p) :
    JobsSent (faultJob p) [] [j] s (faultAttempt s j) := by
  obtain ⟨x, hx, hr⟩ := (Option.any_eq_true _ _).mp hj
  rw [faultAttempt_first hx (by simpa using hr)]
  have h := queueHead_sent (t := markedRetry j s) (s := s) (j := j)
    (r := fun x => { x with offset := 0, serial := none, retry := true }) rfl
    (fun i => Table.get_modify s.scheduler.jobs j i fun x => { x with offset := 0, serial := none, retry := true }) fun _ => rfl
  refine h.congr fun i hi => ?_
  rw [List.mem_singleton] at hi
  funext x
  rw [faultJob, if_neg (hi ▸ hp)]

theorem faultAttempts_sent (hn : js.Nodup) (hp : p ∉ js)
    (h : ∀ j ∈ js, ((Table.get s.scheduler.jobs j).any fun x => !x.retry) = true) :
    JobsSent (faultJob p) [] js s (js.foldl faultAttempt s) := by
  induction js generalizing s with
  | nil => exact .refl s
  | cons j js ih =>
    rw [List.nodup_cons] at hn
    rw [List.mem_cons, not_or] at hp
    have hone := faultAttempt_sent (h j List.mem_cons_self) (Ne.symm hp.1)
    refine hone.trans (faultJob_resettles p) (ih hn.2 hp.2 fun i hi => ?_)
    have hne : i ∉ [j] := fun e => hn.1 (List.mem_singleton.mp e ▸ hi)
    rw [hone.jobs, if_neg hne]
    exact h i (List.mem_cons_of_mem j hi)

end FirstFailures

/-! ## The bay emptied (R94, R95) -/

section Empty

variable {s : State} {b o k : Nat} {cause : BayCause}

/-- The cartridges of the held jobs at the repair bench. -/
def faultMoved (b : Nat) (s : State) : State := (heldJobs (bayAt s b)).foldl (fun s j => moveReserved j .repair s) s

/-- The held jobs through the retry rule, one after another (log 40). -/
def faultTried (b : Nat) (s : State) : State := (heldJobs (bayAt s b)).foldl faultAttempt (faultMoved b s)

/-- The pending pre-emptor back at its level. -/
def faultQueued (b : Nat) (s : State) : State :=
  if (bayAt s b).preemptor = 0 then faultTried b s else queueHead (bayAt s b).preemptor (faultTried b s)

/-- A bay after its fault. -/
def faultedBay (cause : BayCause) (x : Bay) : Bay :=
  { x with
    state := .faulted, cause := cause, active := 0, stack := [], preemptor := 0, running := false
    owed := x.owed.filter fun f => !waitsForAnswer f }

theorem faultBay_eq (b : Nat) (cause : BayCause) (s : State) : faultBay b cause s =
    owePass (latch .bayFault b (leavePoll (bayAt s b).address (modBay b (faultedBay cause) (faultQueued b s)))) := by
  have hbay : dropOwed b (modBay b (fun x => { x with state := .faulted, running := false, cause := cause })
      (emptyBay b (faultQueued b s))) = modBay b (faultedBay cause) (faultQueued b s) := by
    rw [dropOwed, emptyBay, modBay_modBay, modBay_modBay]
    rfl
  rw [← hbay]
  rfl

theorem faultQueued_change (b : Nat) (s : State) : OrderChange s (faultQueued b s) := by
  have hmoved : OrderChange s (faultMoved b s) := .foldl _ (fun s j => moveReserved_change j .repair s) _ s
  have htried : OrderChange s (faultTried b s) := hmoved.trans (.foldl _ faultAttempt_change _ _)
  unfold faultQueued
  split_ifs
  · exact htried
  · exact htried.trans (queueHead_change _ _)

theorem faultQueued_faultNotice (b : Nat) (s : State) : FaultNoticeKept s (faultQueued b s) := by
  have hmoved : FaultNoticeKept s (faultMoved b s) := .foldl (fun s j => .of_management (by
    unfold moveReserved
    split <;> rfl)) _ s
  have htried : FaultNoticeKept s (faultTried b s) := hmoved.trans (.foldl faultAttempt_faultNotice _ _)
  unfold faultQueued
  split_ifs
  · exact htried
  · exact htried.trans (.of_management (queueHead_management _ _))

theorem faultQueued_bayAt (b o : Nat) (s : State) : bayAt (faultQueued b s) o = bayAt s o := by
  rw [bayAt, (faultQueued_change b s).bays, bayAt]

theorem faultBay_frame (b : Nat) (cause : BayCause) (s : State) : faultBay b cause s = { faultQueued b s with
    scheduler.bays := (faultBay b cause s).scheduler.bays, line := (faultBay b cause s).line
    management := (latch .bayFault b (faultQueued b s)).management, passDue := true } := by
  have h := leavePoll_frame (bayAt s b).address (modBay b (faultedBay cause) (faultQueued b s))
  rw [faultBay_eq]
  generalize leavePoll (bayAt s b).address (modBay b (faultedBay cause) (faultQueued b s)) = t at h ⊢
  rw [h]
  rfl

theorem faultBay_bays (b : Nat) (cause : BayCause) (s : State) :
    (faultBay b cause s).scheduler.bays = (modBay b (faultedBay cause) (faultQueued b s)).scheduler.bays := by
  rw [faultBay_eq, leavePoll_frame]
  rfl

theorem faultBay_bayAt (h1 : 1 ≤ b) (h24 : b ≤ 24) (cause : BayCause) (s : State) (o : Nat) :
    bayAt (faultBay b cause s) o = if o = b then faultedBay cause (bayAt s b) else bayAt s o := by
  rw [bayAt, faultBay_bays]
  split_ifs with ho
  · rw [ho]
    exact (bayAt_modBay_same h1 h24 _ _).trans (by rw [faultQueued_bayAt])
  · exact (bayAt_modBay_other ho _ _).trans (faultQueued_bayAt b o s)

theorem faultBay_line (b : Nat) (cause : BayCause) (s : State) :
    (faultBay b cause s).line = { s.line with pollSet := (faultBay b cause s).line.pollSet } := by
  have h := leavePoll_frame (bayAt s b).address (modBay b (faultedBay cause) (faultQueued b s))
  have hline := (faultQueued_change b s).line
  rw [faultBay_eq]
  generalize leavePoll (bayAt s b).address (modBay b (faultedBay cause) (faultQueued b s)) = t at h ⊢
  rw [h, ← hline]
  rfl

theorem mem_faultBay_pollSet (hk : k < 64) (cause : BayCause) (s : State) :
    (faultBay b cause s).line.pollSet.getLsbD k = true ↔
      s.line.pollSet.getLsbD k = true ∧ ¬(k ≠ 0 ∧ k = (bayAt s b).address) := by
  have h := mem_leavePoll (b := (bayAt s b).address) (s := modBay b (faultedBay cause) (faultQueued b s)) hk
  have hset : (modBay b (faultedBay cause) (faultQueued b s)).line.pollSet = s.line.pollSet :=
    congrArg LineUnit.pollSet (faultQueued_change b s).line
  have hstation : (bayAt s b).address = 0 ∨ k ≠ (bayAt s b).address ↔ ¬(k ≠ 0 ∧ k = (bayAt s b).address) := by omega
  rw [hset, hstation] at h
  rw [faultBay_eq]
  exact h

/-- The bay's jobs when none of them has failed before (R95). -/
theorem faultQueued_sent (hn : (heldJobs (bayAt s b)).Nodup) (hp : (bayAt s b).preemptor ∉ heldJobs (bayAt s b))
    (h : ∀ j ∈ heldJobs (bayAt s b), ((Table.get s.scheduler.jobs j).any fun x => !x.retry) = true) :
    JobsSent (faultJob (bayAt s b).preemptor) (heldJobs (bayAt s b))
      (heldJobs (bayAt s b) ++ pendingOf (bayAt s b)) s (faultQueued b s) := by
  have hf := faultJob_resettles (bayAt s b).preemptor
  have hmoved := moveReserved_foldl_sent hf (heldJobs (bayAt s b)) s
  have hunmarked : ∀ j ∈ heldJobs (bayAt s b),
      ((Table.get (faultMoved b s).scheduler.jobs j).any fun x => !x.retry) = true := fun j hj => by
    have hsame : Table.get (faultMoved b s).scheduler.jobs j = Table.get s.scheduler.jobs j :=
      (hmoved.jobs j).trans (if_neg List.not_mem_nil)
    rw [hsame]
    exact h j hj
  have htried := hmoved.trans hf (faultAttempts_sent hn hp hunmarked)
  rw [List.append_nil, List.nil_append] at htried
  unfold faultQueued pendingOf
  split_ifs
  · rwa [List.append_nil]
  · have hqueued := (queueHead_same_sent (bayAt s b).preemptor (faultTried b s)).congr
      (g := faultJob (bayAt s b).preemptor) fun i hi => by
        funext x
        rw [faultJob, if_pos (List.mem_singleton.mp hi)]
    have hall := htried.trans hf hqueued
    rwa [List.append_nil] at hall

theorem faultMoved_frame (b : Nat) (s : State) : faultMoved b s = { s with accounts := (faultMoved b s).accounts } := by
  have hstep : ∀ (s : State) j, moveReserved j .repair s = { s with accounts := (moveReserved j .repair s).accounts } :=
    fun s j => by
      unfold moveReserved
      split <;> rfl
  have hfold : ∀ (js : List Nat) (s : State), js.foldl (fun s j => moveReserved j .repair s) s =
      { s with accounts := (js.foldl (fun s j => moveReserved j .repair s) s).accounts } := fun js => by
    induction js with
    | nil => exact fun s => rfl
    | cons j js ih =>
      intro s
      have h := ih (moveReserved j .repair s)
      rw [List.foldl_cons]
      generalize js.foldl (fun s j => moveReserved j .repair s) (moveReserved j .repair s) = t at h ⊢
      rw [h, hstep s j]
  exact hfold _ s

/-- The pre-emptor, when its record stands (R95). -/
theorem mem_pendingOf {bay : Bay} {j : Nat} : j ∈ pendingOf bay ↔ j = bay.preemptor ∧ bay.preemptor ≠ 0 := by
  unfold pendingOf
  split_ifs with h <;> simp [h]

theorem faultQueued_absent (h : ∀ j ∈ pendingOf (bayAt s b), Table.get (faultTried b s).scheduler.jobs j = none) :
    faultQueued b s = faultTried b s := by
  unfold faultQueued
  split_ifs with h0
  · rfl
  · exact queueHead_absent (h _ (mem_pendingOf.mpr ⟨rfl, h0⟩))

theorem faultQueued_putAtHead {j : Nat} {x : Job} (hj : j ∈ pendingOf (bayAt s b))
    (hx : Table.get (faultTried b s).scheduler.jobs j = some x) :
    PutAtHead j x { x with state := .queued, bay := 0 } (faultTried b s) (faultQueued b s) := by
  obtain ⟨rfl, h0⟩ := mem_pendingOf.mp hj
  rw [faultQueued, if_neg h0]
  exact queueHead_putAtHead rfl hx rfl fun _ _ => rfl

end Empty

/-! ## The stall timer (R79) -/

section Stall

variable {s : State} {b : Nat}

theorem bankGet_map {α : Type} {n : Nat} (v : Vector α n) (f : α → α) (k : Nat) (d : α) (hd : f d = d) :
    bankGet (v.map f) k d = f (bankGet v k d) := by
  unfold bankGet
  split_ifs
  · exact hd.symm
  · rw [Vector.getElem?_map]
    cases v[k - 1]? with
    | none => exact hd.symm
    | some a => rfl

theorem passSeconds_bayAt (n : Nat) (s : State) (o : Nat) : bayAt (passSeconds n s) o =
    { bayAt s o with timer := if (bayAt s o).running = true then (bayAt s o).timer - n else (bayAt s o).timer } := by
  refine (bankGet_map s.scheduler.bays (fun bay => if bay.running then { bay with timer := bay.timer - n } else bay) o {}
    rfl).trans ?_
  show (if (bayAt s o).running then { bayAt s o with timer := (bayAt s o).timer - n } else bayAt s o) = _
  split_ifs <;> rfl

theorem nextToExpire_iff : nextToExpire s b = true ↔ (bayAt s b).running = true ∧
    ∀ o ∈ bayNumbers, (bayAt s o).running = true → (bayAt s b).timer ≤ (bayAt s o).timer := by
  simp only [nextToExpire, Bool.and_eq_true, List.all_eq_true, Bool.or_eq_true, Bool.not_eq_true', decide_eq_true_eq]
  refine and_congr_right fun _ => forall_congr' fun o => imp_congr_right fun _ => ?_
  cases (bayAt s o).running <;> simp

theorem execStallExpiry_stopped {bay : Byte} (h : (bayAt s bay.toNat).running = false) :
    execStallExpiry bay s = .next s :=
  if_neg fun hn => by
    have hrun := (nextToExpire_iff.mp hn.2.2).1
    rw [h] at hrun
    cases hrun

end Stall

/-! ## A frame at a bay -/

section AtBays

variable {s s1 : State} {station b : Nat}

theorem AtBay.range (h : AtBay station b s s1) : 1 ≤ b ∧ b ≤ 24 := by
  obtain ⟨-, -, hb⟩ := h
  unfold bayOfAddress at hb
  split_ifs at hb
  exact mem_bayNumbers.mp (List.mem_of_find?_eq_some hb)

theorem InTurn.address (h : InTurn station s s1) (o : Nat) : (bayAt s1 o).address = (bayAt s o).address := by
  obtain ⟨-, -, -, -, rfl⟩ := h
  exact reloadTimer_address station o _

theorem exec_bayFault {src code : Byte} (h : AtBay src.toNat b s s1) :
    exec (.bayFault src code) s = .next (settle (takeBayFault code b s1)) := by
  have he : exec (.bayFault src code) s = bayFrame (.bayFault src code) (takeBayFault code) s := rfl
  rw [he]
  exact bayFrame_atBay _ rfl h

/-- A bay in OFFLINE or FAULTED is not online (R75). -/
theorem bayOnline_iff {bay : Bay} : bayOnline bay = true ↔ bay.state ≠ .offline ∧ bay.state ≠ .faulted := by
  unfold bayOnline
  cases bay.state <;> decide

end AtBays

end Sys2Proof.Machine

open Sys2Proof Sys2Proof.Machine in
/-- Settles O43: the fault of a bay, whoever reports it, and the placement pass that leaves the FAULTED bay alone. -/
theorem bayFaultsEmptyTheBay : Obligations.BayFaultsEmptyTheBay := by
  unfold Obligations.BayFaultsEmptyTheBay
  intro faulted putAtHead attempted emptied
  have hattempted : ∀ j v, attempted j v (faultAttempt v j) := fun j v =>
    ⟨faultAttempt_absent, fun x hx => ⟨faultAttempt_putAtHead hx, fun hr => by
      obtain ⟨hframe, hjob, hothers⟩ := failedOnce_spec hx
      have hfailed := faultAttempt_failed hx hr
      refine ⟨failedOnce j v, hframe, hjob, hothers, fun hk => ?_, fun hk => ⟨fun hc => ?_, fun c hc => ?_⟩⟩
      · rwa [if_neg (by rw [hk]; decide)] at hfailed
      · rwa [if_pos hk, jobFailed_absent (s := failedOnce j v) hc] at hfailed
      · rwa [if_pos hk, jobFailed_present (s := failedOnce j v) hc] at hfailed⟩⟩
  have hemptied : ∀ (s : State) b cause, 1 ≤ b → b ≤ 24 → emptied (faultBay b cause s) s b cause := by
    intro s b cause h1 h24
    have hframe := faultBay_frame b cause s
    have hown := faultBay_bayAt h1 h24 cause s b
    rw [if_pos rfl] at hown
    have hmoved := moveReserved_foldl_sent (f := fun _ x => x) (fun _ _ => ⟨rfl, rfl, rfl⟩) (heldJobs (bayAt s b)) s
    refine ⟨by rw [hframe], fun hret hn hp => ?_, faultMoved b s, faultTried b s, faultQueued b s,
      (heldJobs (bayAt s b)).scanl faultAttempt (faultMoved b s), ?_, hmoved.accounts, List.length_scanl, List.head?_scanl,
      List.getLast?_scanl, fun a j v v' hj hv hv' => ?_, fun hpre => ?_, fun j hj x hx => ?_, hframe,
      faultBay_line b cause s, fun k hk => mem_faultBay_pollSet hk cause s, hown, fun o ho => ?_⟩
    · have hsent := faultQueued_sent hn hp hret
      have hmoved := hsent.frame
      have hcounts : ∀ c, accountAt (faultBay b cause s) c = accountAt (faultQueued b s) c := fun c => by rw [hframe]; rfl
      have hqueues : ∀ l, queueAt (faultBay b cause s) l = queueAt (faultQueued b s) l := fun l => by rw [hframe]; rfl
      have hjobs : (faultBay b cause s).scheduler.jobs = (faultQueued b s).scheduler.jobs := by rw [hframe]
      refine ⟨by rw [hframe, hmoved], by rw [hframe, hmoved], by rw [hframe, hmoved], fun j hj => ?_, fun j hj => ?_,
        fun j hj => ?_, fun l hl => (hqueues l).trans (hsent.queues l hl),
        fun c h1 h4 hr => (hcounts c).trans (hsent.accounts c h1 h4 hr)⟩
      · have hne : j ≠ (bayAt s b).preemptor := ne_of_mem_of_not_mem hj hp
        rw [hjobs, hsent.jobs, if_pos (List.mem_append_left _ hj)]
        exact congrArg (fun g => (Table.get s.scheduler.jobs j).map g) (funext fun x => if_neg hne)
      · obtain ⟨hpre, -⟩ := mem_pendingOf.mp hj
        rw [hjobs, hsent.jobs, if_pos (List.mem_append_right _ (mem_pendingOf.mpr (mem_pendingOf.mp hj)))]
        exact congrArg (fun g => (Table.get s.scheduler.jobs j).map g) (funext fun x => if_pos hpre)
      · rw [hjobs]
        exact (hsent.jobs j).trans (if_neg hj)
    · exact faultMoved_frame b s
    · have hstep : v' = faultAttempt v j := by
        simpa [List.getElem?_succ_scanl, hj, hv] using hv'.symm
      rw [hstep]
      exact hattempted j v
    · exact faultQueued_absent hpre
    · exact faultQueued_putAtHead hj hx
    · rw [faultBay_bayAt h1 h24, if_neg ho]
  have hfaulted : ∀ (s r : State) b cause, 1 ≤ b → b ≤ 24 → (bayAt r b).address = (bayAt s b).address →
      r.management = s.management → r.returns = s.returns → r.days = s.days → r.dispatch = s.dispatch →
      faulted (settle (faultBay b cause r)) s b cause := by
    intro s r b cause h1 h24 haddress hman hret hdays hdis
    have hown := faultBay_bayAt h1 h24 cause r b
    rw [if_pos rfl] at hown
    have hstands := settle_faultStands (b := b) (s := faultBay b cause r) (by rw [hown]; rfl)
    have hframe := faultBay_frame b cause r
    have hchange := faultQueued_change b r
    have hsettle := (BayWork.settle (faultBay b cause r)).frame
    have hbay := hstands.bay.trans hown
    refine ⟨congrArg Bay.state hbay, congrArg Bay.cause hbay, congrArg Bay.active hbay, congrArg Bay.stack hbay,
      congrArg Bay.preemptor hbay, congrArg Bay.running hbay, fun k hk hka hk0 => ?_, ?_, ?_, ?_, ?_⟩
    · rw [hstands.pollSet, ← Bool.not_eq_true, mem_faultBay_pollSet hk, haddress]
      exact fun h => h.2 ⟨hk0, hka⟩
    · have hnotice := hstands.notice
      unfold FaultNoticeKept at hnotice
      rw [hnotice, hframe]
      refine (latch_bayFault b _).trans ?_
      rw [faultQueued_faultNotice b r, hman]
    · rw [hsettle, hframe]
      exact hchange.returns.trans hret
    · rw [hsettle, hframe]
      exact hchange.days.trans hdays
    · rw [hsettle, hframe]
      exact hchange.dispatch.trans hdis
  refine ⟨fun src code s s1 b hat => ?_, fun bay s hp h1 h24 hrun hnext => ?_, fun bay s hrun => ?_⟩
  · obtain ⟨h1, h24⟩ := hat.range
    have hexec := exec_bayFault (code := code) hat
    obtain ⟨hturn, -, -⟩ := hat
    obtain ⟨-, hstate⟩ := hturn.bay b
    refine ⟨fun hoff => ?_, fun hon => ?_⟩
    · have hnot : ¬bayOnline (bayAt s1 b) = true := by
        rw [bayOnline_iff, hstate, not_and_or, not_not, not_not]
        exact hoff
      rw [hexec, takeBayFault, if_neg hnot]
      exact congrArg Host.Outcome.next (settle_of_noPass hturn.passDue)
    · have hyes : bayOnline (bayAt s1 b) = true := by
        rw [bayOnline_iff, hstate]
        obtain h | h | h | h := hon <;> rw [h] <;> decide
      rw [takeBayFault, if_pos hyes] at hexec
      exact ⟨⟨_, hexec, hfaulted s s1 b _ h1 h24 (hturn.address b) hturn.management hturn.returns hturn.days
          hturn.dispatch⟩,
        _, hexec, hemptied s1 b _ h1 h24⟩
  · have hexec : exec (.stallExpiry bay) s =
        .next (settle (faultBay bay.toNat .stall (passSeconds (bayAt s bay.toNat).timer s))) :=
      if_pos ⟨h1, h24, nextToExpire_iff.mpr ⟨hrun, hnext⟩⟩
    refine ⟨⟨_, hexec, hfaulted s _ _ _ h1 h24 (by rw [passSeconds_bayAt]) rfl rfl rfl rfl, ?_⟩, _, _, rfl,
      passSeconds_bayAt _ s, hexec, hemptied _ _ _ h1 h24⟩
    rw [(settle_work _).seconds, faultBay_frame]
    exact (faultQueued_change _ _).seconds
  · exact execStallExpiry_stopped hrun
end

