-- ==== Sys2Proof/Proofs/JobsPlaced.lean ====
section
/-! PROOFS. R74's and R75's places of the jobs: the step lemma as stated lets a PARKING bay hold two parked jobs already. -/

namespace Sys2Proof.Machine

/-- A PACK job of class 1 at bay 1. -/
def jobAtBay1 (state : JobState) (priority : Nat) : Job :=
  { state := state, kind := .pack, priority := priority, cartridgeClass := 1, bay := 1 }

/-- Bay 1 parks its active job 3 with jobs 2 and 1 parked already. -/
def parkingOverTwo : Bay :=
  { address := 16, classes := 1, state := .parking, active := 3, stack := [2, 1], preemptor := 4 }

/-- Bay 1 has the reply turn, and the PARKED of its active job is coming. Every clause of `JobsPlaced` holds, since it bounds
the stack of every bay by 2; R82 starts a park only at a bay with fewer than two parked jobs. -/
def fullStackParks : State :=
  { State.reset with
    management.mode := .service
    scheduler.jobs :=
      [(1, jobAtBay1 .parked 0), (2, jobAtBay1 .parked 1), (3, jobAtBay1 .active 2), (4, jobAtBay1 .pending 3)]
    scheduler.bays := bankModify State.reset.scheduler.bays 1 fun _ => parkingOverTwo
    accounts := bankModify State.reset.accounts 1 fun _ => { stock := 4, blank := 1, reserved := 3 }
    line.turn := some ⟨16, false⟩
    pending := [.parked 16 3 0] }

/-- The state after that PARKED. -/
def fullStackParked : State :=
  match step fullStackParks with
  | .next t => t
  | .fault _ | .refused _ => fullStackParks

theorem fullStackParks_step : step fullStackParks = .next fullStackParked := rfl

theorem fullStackParks_canonical : TablesCanonical fullStackParks := by unfold TablesCanonical; decide

theorem fullStackParks_jobsPlaced : JobsPlaced fullStackParks := by
  refine ⟨?_, by decide, ?_, by decide, by decide⟩
  · intro e he
    have hjobs : e = (1, jobAtBay1 .parked 0) ∨ e = (2, jobAtBay1 .parked 1) ∨ e = (3, jobAtBay1 .active 2) ∨
        e = (4, jobAtBay1 .pending 3) := by simpa [fullStackParks] using he
    have hbay : bayAt fullStackParks 1 = parkingOverTwo := by decide
    rcases hjobs with rfl | rfl | rfl | rfl <;> simp [JobStands, jobAtBay1, hbay, parkingOverTwo]
  · unfold BayHoldsItsJobs Working isJobOf; decide

/-- The bay's third parked job. -/
theorem fullStackParked_stack : (bayAt fullStackParked 1).stack = [3, 2, 1] := by decide

end Sys2Proof.Machine

open Sys2Proof Sys2Proof.Machine in
/-- Refutes O10: `JobsPlaced` allows a PARKING bay that holds two parked jobs, and its PARKED makes them three. -/
theorem not_everyStepKeepsJobsPlaced : ¬ Obligations.EveryStepKeepsJobsPlaced := by
  intro h
  obtain ⟨-, -, hbays, -⟩ := h _ _ fullStackParks_canonical fullStackParks_jobsPlaced fullStackParks_step
  obtain ⟨-, -, -, -, hlength, -⟩ := hbays 1 (by decide)
  rw [fullStackParked_stack] at hlength
  exact absurd hlength (by decide)

end

