-- ==== Sys2Proof/Proofs/IdleSecond.lean ====
section
/-! PROOFS. A second with no command waiting: the stall timers that reach 0 in it expire one after another (R79, R94). -/

namespace Sys2Proof.Machine

section IdleSecond

variable {s : State} {b o : Nat}

/-- The bay's stall timer reaches 0 in the next second. -/
def timerDue (s : State) (b : Nat) : Prop := (bayAt s b).running = true ∧ (bayAt s b).timer ≤ 1

theorem step_idle (h : s.pending = []) : step s = .next (tick s) := by
  unfold step
  rw [h]

theorem mem_expiredBays : b ∈ expiredBays (passSeconds 1 s) ↔ b ∈ bayNumbers ∧ timerDue s b := by
  unfold expiredBays timerDue
  rw [List.mem_filter, passSeconds_bayAt]
  cases hrun : (bayAt s b).running
  · simp
  · simp [Nat.sub_eq_zero_iff_le]

theorem expiredBays_sorted (s : State) : (expiredBays s).Pairwise (· < ·) :=
  (List.pairwise_lt_range' (s := 1) (n := 24)).filter _

/-- The bays whose timers expire, when they are the members of an ascending list. -/
theorem tick_of_due {bs : List Nat} (hsorted : bs.Pairwise (· < ·)) (h : ∀ b, b ∈ bs ↔ b ∈ bayNumbers ∧ timerDue s b) :
    tick s = bs.foldl expire (passSeconds 1 s) := by
  have hbs : expiredBays (passSeconds 1 s) = bs :=
    (expiredBays_sorted _).eq_of_mem_iff hsorted fun b => mem_expiredBays.trans (h b).symm
  rw [tick, hbs]

/-- A bay that has faulted on its timer. -/
def StallFaulted (bay : Bay) : Prop :=
  bay.state = .faulted ∧ bay.cause = .stall ∧ bay.running = false ∧ bay.active = 0 ∧ bay.stack = [] ∧ bay.preemptor = 0

theorem expire_stallFaulted (h1 : 1 ≤ o) (h24 : o ≤ 24) (h : b = o ∨ StallFaulted (bayAt s b)) :
    StallFaulted (bayAt (expire s o) b) := by
  have hfault : StallFaulted (bayAt (faultBay o .stall s) b) := by
    rw [faultBay_bayAt h1 h24]
    split_ifs with hb
    · exact ⟨rfl, rfl, rfl, rfl, rfl, rfl⟩
    · exact h.resolve_left hb
  have hstands := settle_faultStands hfault.1
  rw [expire, hstands.bay]
  exact hfault

/-- Of the bays whose timers expire each ends up faulted. -/
theorem foldl_expire_stallFaulted {bs : List Nat} (hbs : ∀ o ∈ bs, 1 ≤ o ∧ o ≤ 24)
    (h : b ∈ bs ∨ StallFaulted (bayAt s b)) : StallFaulted (bayAt (bs.foldl expire s) b) := by
  induction bs generalizing s with
  | nil => exact h.resolve_left List.not_mem_nil
  | cons o bs ih =>
    obtain ⟨h1, h24⟩ := hbs o List.mem_cons_self
    refine ih (fun i hi => hbs i (List.mem_cons_of_mem o hi)) ?_
    rw [List.mem_cons, or_assoc, or_left_comm] at h
    exact h.imp_right (expire_stallFaulted h1 h24)

/-- What an expiry leaves of the other units. -/
structure ExpiryKept (s t : State) : Prop where
  seconds : t.scheduler.seconds = s.scheduler.seconds
  pending : t.pending = s.pending
  days : t.days = s.days
  returns : t.returns = s.returns
  dispatch : t.dispatch = s.dispatch

theorem expire_kept (s : State) (b : Nat) : ExpiryKept s (expire s b) := by
  have hwork : WorkChange s (expire s b) := (faultBay_work b .stall s).trans (settle_work _)
  have hchange := faultQueued_change b s
  have hsettle := BayWork.settle (faultBay b .stall s)
  have hframe := faultBay_frame b .stall s
  refine ⟨hwork.seconds, hwork.pending, hsettle.days.trans ?_, hsettle.returns.trans ?_, hsettle.dispatch.trans ?_⟩ <;>
    rw [hframe]
  · exact hchange.days
  · exact hchange.returns
  · exact hchange.dispatch

theorem foldl_expire_kept (bs : List Nat) (s : State) : ExpiryKept s (bs.foldl expire s) := by
  induction bs generalizing s with
  | nil => exact ⟨rfl, rfl, rfl, rfl, rfl⟩
  | cons b bs ih =>
    have h := expire_kept s b
    have g := ih (expire s b)
    exact ⟨g.seconds.trans h.seconds, g.pending.trans h.pending, g.days.trans h.days, g.returns.trans h.returns,
      g.dispatch.trans h.dispatch⟩

end IdleSecond

end Sys2Proof.Machine

open Sys2Proof Sys2Proof.Machine in
/-- Settles O2: the timers that expire are a sorted list of bays, and a bay stays faulted through the expiries after its own. -/
theorem emptyQueueCountsOneSecond : Obligations.EmptyQueueCountsOneSecond := by
  intro s hidle _ counted due
  rw [step_idle hidle]
  refine ⟨fun hnone => ?_, fun b hb hdue hother => ?_, fun b hb c hc hbc hdueb hduec hother => ?_, fun b hb hrun htimer => ?_⟩
  · rw [tick_of_due (bs := []) .nil fun b => iff_of_false List.not_mem_nil fun h => hnone b h.1 h.2]
    rfl
  · rw [tick_of_due (bs := [b]) (List.pairwise_singleton _ b) fun o => ?_]
    · rfl
    · rw [List.mem_singleton]
      exact ⟨fun h => h ▸ ⟨hb, hdue⟩, fun h => by_contra fun hne => hother o h.1 hne h.2⟩
  · rw [tick_of_due (bs := [b, c]) (List.pairwise_pair.mpr hbc) fun o => ?_]
    · rfl
    · rw [List.mem_pair]
      refine ⟨?_, fun h => by_contra fun hne => ?_⟩
      · rintro (rfl | rfl)
        · exact ⟨hb, hdueb⟩
        · exact ⟨hc, hduec⟩
      · rw [not_or] at hne
        exact hother o h.1 hne.1 hne.2 h.2
  · have hexpired : b ∈ expiredBays (passSeconds 1 s) := mem_expiredBays.mpr ⟨hb, hrun, htimer.le⟩
    obtain ⟨hstate, hcause, hstopped, hactive, hstack, hpre⟩ := foldl_expire_stallFaulted (s := passSeconds 1 s)
      (fun o ho => mem_bayNumbers.mp (mem_expiredBays.mp ho).1) (.inl hexpired)
    have hkept := foldl_expire_kept (expiredBays (passSeconds 1 s)) (passSeconds 1 s)
    exact ⟨tick s, rfl, hkept.seconds, hstate, hcause, hstopped, hactive, hstack, hpre, hkept.pending.trans hidle, hkept.days,
      hkept.returns, hkept.dispatch⟩
end

