-- ==== Sys2Proof/Proofs/BayReports.lean ====
section
/-! PROOFS. STARTED, PROGRESS and PARKED from a bay in its reply turn (R83 to R85, R87). -/

namespace Sys2Proof.Machine

section Reports

variable {src : Byte} {job : U16} {s s1 : State} {b j : Nat}

/-! ## The bay whose frame is taken -/

/-- Only the reporting bay's timer is reloaded (R79). -/
theorem AtBay.bayAt_other {station o : Nat} (h : AtBay station b s s1) (ho : o ≠ b) : bayAt s1 o = bayAt s o := by
  obtain ⟨⟨-, -, -, -, rfl⟩, -, hb⟩ := h
  have hbay : bayOfAddress (setMissed station 0 (endTurn (endReception s))) station = some b := hb
  simp only [reloadTimer, hbay]
  split_ifs
  · rw [loadTimer_bayAt, if_neg fun h => ho h.1]
    rfl
  · rfl

theorem InTurn.bay_holds {station : Nat} (h : InTurn station s s1) (o : Nat) :
    (bayAt s1 o).stack = (bayAt s o).stack ∧ (bayAt s1 o).owed = (bayAt s o).owed := by
  obtain ⟨-, -, -, -, rfl⟩ := h
  unfold reloadTimer
  split
  · exact ⟨rfl, rfl⟩
  · split_ifs
    · rw [loadTimer_bayAt]
      split_ifs <;> exact ⟨rfl, rfl⟩
    · exact ⟨rfl, rfl⟩

theorem exec_started {serial : U32} (h : AtBay src.toNat b s s1) :
    exec (.started src job serial) s = .next (settle (takeStarted job.toNat serial b s1)) := by
  have he : exec (.started src job serial) s = bayFrame (.started src job serial) (takeStarted job.toNat serial) s := rfl
  rw [he]
  exact bayFrame_atBay _ rfl h

theorem exec_progress {blocks : U24} (h : AtBay src.toNat b s s1) :
    exec (.progress src job blocks) s = .next (settle (takeProgress job.toNat blocks.toNat b s1)) := by
  have he : exec (.progress src job blocks) s =
      bayFrame (.progress src job blocks) (takeProgress job.toNat blocks.toNat) s := rfl
  rw [he]
  exact bayFrame_atBay _ rfl h

theorem exec_parked {offset : U24} (h : AtBay src.toNat b s s1) :
    exec (.parked src job offset) s = .next (settle (takeParked job.toNat offset.toNat b s1)) := by
  have he : exec (.parked src job offset) s = bayFrame (.parked src job offset) (takeParked job.toNat offset.toNat) s := rfl
  rw [he]
  exact bayFrame_atBay _ rfl h

/-! ## What each report writes -/

theorem takeStarted_loading (serial : U32) (ha : j ≠ 0 ∧ (bayAt s b).active = j) (hs : (bayAt s b).state = .loading) :
    takeStarted j serial b s =
      modBay b (fun x => { x with state := .writing, owed := x.owed.filter fun f => !waitsForAnswer f })
        (modJob j (fun x => { x with serial := some serial }) s) := by
  simp only [takeStarted, isActive_iff.mpr ha, if_true, hs, dropOwed, modBay_modBay]

theorem takeStarted_writing (serial : U32) (ha : j ≠ 0 ∧ (bayAt s b).active = j) (hs : (bayAt s b).state = .writing) :
    takeStarted j serial b s = modJob j (fun x => { x with serial := some serial }) s := by
  simp only [takeStarted, isActive_iff.mpr ha, if_true, hs]

theorem takeStarted_discarded (serial : U32)
    (h : ¬((j ≠ 0 ∧ (bayAt s b).active = j) ∧ ((bayAt s b).state = .loading ∨ (bayAt s b).state = .writing))) :
    takeStarted j serial b s = s := by
  unfold takeStarted
  simp only [isActive_iff]
  split_ifs with ha
  · cases hs : (bayAt s b).state with
    | loading => exact absurd ⟨ha, .inl hs⟩ h
    | writing => exact absurd ⟨ha, .inr hs⟩ h
    | offline => rfl
    | idle => rfl
    | parking => rfl
    | faulted => rfl
  · rfl

theorem takeProgress_taken {blocks : Nat} (h : Reports s b j) :
    takeProgress j blocks b s = modJob j (fun x => { x with offset := min Config.maxBlocks blocks }) s := by
  obtain ⟨ha, hw⟩ := h
  simp only [takeProgress, isActive_iff.mpr ha, bayWorking_iff.mpr hw, Bool.and_self, if_true]

theorem takeProgress_discarded {blocks : Nat} (h : ¬Reports s b j) : takeProgress j blocks b s = s := by
  unfold takeProgress
  refine if_neg ?_
  rw [Bool.and_eq_true, isActive_iff, bayWorking_iff]
  exact h

/-- The active job is on the stack, and the bay waits for its pre-emptor to be loaded (R85). -/
def parkDone (j offset b : Nat) (s : State) : State :=
  modBay b (fun x => { x with active := 0, stack := j :: x.stack, owed := x.owed.filter fun f => !waitsForAnswer f })
    (modJob j (fun x => { x with state := .parked, offset := offset }) s)

theorem parkDone_jobs (j offset b : Nat) (s : State) : (parkDone j offset b s).scheduler.jobs =
    Table.modify s.scheduler.jobs j fun x => { x with state := .parked, offset := offset } := rfl

theorem takeParked_parking {offset : Nat} (ha : j ≠ 0 ∧ (bayAt s b).active = j) (hs : (bayAt s b).state = .parking) :
    takeParked j offset b s = loadPreemptor b (parkDone j offset b s) := by
  simp only [takeParked, isActive_iff.mpr ha, hs, decide_true, Bool.and_self, if_true, dropOwed, modBay_modBay, parkDone]

theorem takeParked_discarded {offset : Nat} (h : ¬((j ≠ 0 ∧ (bayAt s b).active = j) ∧ (bayAt s b).state = .parking)) :
    takeParked j offset b s = s := by
  unfold takeParked
  refine if_neg ?_
  rw [Bool.and_eq_true, isActive_iff, decide_eq_true_eq]
  exact h

end Reports

end Sys2Proof.Machine

open Sys2Proof Sys2Proof.Machine in
/-- Settles O41: the report of the bay's active job in a state that takes it, and the state without a pass owed otherwise. -/
theorem bayReportsAreTaken : Obligations.BayReportsAreTaken := by
  intro src job s s1 b hat j active working
  obtain ⟨h1, h24⟩ := hat.range
  have hturn := hat.1
  obtain ⟨hactive, hstate⟩ := hturn.bay b
  obtain ⟨hstack, howed⟩ := hturn.bay_holds b
  have hstill : ∀ u : State, u.passDue = s1.passDue → Host.Outcome.next (settle u) = (.next u : Result) := fun u h =>
    congrArg Host.Outcome.next (settle_of_noPass (h.trans hturn.passDue))
  refine ⟨fun serial => ?_, fun blocks => ?_, fun offset => ?_⟩
  · rw [exec_started hat]
    refine ⟨fun ha hs => ?_, fun ha hs => ?_, fun hno => ?_⟩
    · rw [takeStarted_loading serial (by rwa [hactive]) (hstate.trans hs)]
      exact hstill _ rfl
    · rw [takeStarted_writing serial (by rwa [hactive]) (hstate.trans hs)]
      exact hstill _ rfl
    · rw [takeStarted_discarded serial (by rwa [hactive, hstate])]
      exact hstill _ rfl
  · rw [exec_progress hat]
    refine ⟨fun ha hw => ?_, fun hno => ?_⟩
    · rw [takeProgress_taken ((hturn.reports b j).mpr ⟨ha, hw⟩)]
      exact hstill _ rfl
    · rw [takeProgress_discarded (mt (hturn.reports b j).mp hno)]
      exact hstill _ rfl
  · rw [exec_parked hat]
    refine ⟨fun ha hs => ?_, fun hno => ?_⟩
    · rw [takeParked_parking (by rwa [hactive]) (hstate.trans hs)]
      refine ⟨_, rfl, ?_, ?_, fun o ho => ?_, fun i hi => ?_, rfl⟩
      · rw [← hstack, ← howed]
        exact bayAt_modBay_same h1 h24 _ _
      · rw [parkDone_jobs, Table.get_modify_same, hturn.jobs]
      · exact (bayAt_modBay_other ho _ _).trans (hat.bayAt_other ho)
      · rw [parkDone_jobs, Table.get_modify_other _ _ hi, hturn.jobs]
    · rw [takeParked_discarded (by rwa [hactive, hstate])]
      exact hstill _ rfl
end

