-- ==== Sys2Proof/Proofs/StockRuns.lean ====
section
/-! PROOFS. BUILD_STOCK and RAISE_JOB in SERVICE (R97, R99). -/

namespace Sys2Proof.Machine

/-! ## BUILD_STOCK (R97) -/

section Build

variable {s : State} {m n j : Nat} {x : Title}

theorem buildRun_range (h : m = 0 ∨ s.management.geometry.t < m) : buildRun m n s = refuse .titleRange s := if_pos h

theorem buildRun_absent (hr : ¬(m = 0 ∨ s.management.geometry.t < m)) (hx : Table.get s.records.titles m = none) :
    buildRun m n s = refuse .titleAbsent s := by
  simp only [buildRun, if_neg hr, hx]

theorem buildRun_format (hr : ¬(m = 0 ∨ s.management.geometry.t < m)) (hx : Table.get s.records.titles m = some x)
    (h : x.format ≠ .audio ∨ x.policy ≠ .shelf) : buildRun m n s = refuse .format s := by
  simp only [buildRun, if_neg hr, hx, if_pos h]

/-- The title is one a stock run can copy (R97's first checks). -/
def Copied (s : State) (m : Nat) (x : Title) : Prop :=
  ¬(m = 0 ∨ s.management.geometry.t < m) ∧ Table.get s.records.titles m = some x ∧ x.format = .audio ∧ x.policy = .shelf

theorem buildRun_extent (h : Copied s m x) (hc : capacityOf s x.shelfClass < titleBlocks x + 80) :
    buildRun m n s = refuse .extent s := by
  obtain ⟨hr, hx, hf, hp⟩ := h
  simp [buildRun, hr, hx, hf, hp, hc]

theorem buildRun_poolFull (h : Copied s m x) (hc : titleBlocks x + 80 ≤ capacityOf s x.shelfClass)
    (hj : Table.lowestFree s.scheduler.jobs s.management.geometry.j = none) : buildRun m n s = refuse .poolFull s := by
  obtain ⟨hr, hx, hf, hp⟩ := h
  simp [buildRun, hr, hx, hf, hp, hc.not_gt, hj]

/-- The job of a new stock run (R97). -/
def stockJob (m n : Nat) (x : Title) : Job :=
  { state := .queued, kind := .stock, priority := 0, title := m, cartridgeClass := x.shelfClass, remaining := copiesAsked n }

/-- The job record `j` taken by a stock run, at the tail of level 0. -/
def stockQueued (j m n : Nat) (x : Title) (s : State) : State :=
  queueTail j { s with scheduler.jobs := Table.put s.scheduler.jobs j (stockJob m n x) }

theorem buildRun_queued (h : Copied s m x) (hc : titleBlocks x + 80 ≤ capacityOf s x.shelfClass)
    (hj : Table.lowestFree s.scheduler.jobs s.management.geometry.j = some j) :
    buildRun m n s = ⟨stockQueued j m n x s, .ok, bytesLE 2 j⟩ := by
  obtain ⟨hr, hx, hf, hp⟩ := h
  simp [buildRun, hr, hx, hf, hp, hc.not_gt, hj, stockQueued, stockJob]

theorem stockQueued_eq (j m n : Nat) (x : Title) (s : State) : stockQueued j m n x s =
    owePass (modQueue 0 (fun q => q ++ [j]) (modJob j (fun x => { x with state := .queued, bay := 0 })
      { s with scheduler.jobs := Table.put s.scheduler.jobs j (stockJob m n x) })) :=
  queueTail_eq (job := stockJob m n x) (Table.get_put_same _ _ _)

theorem stockQueued_frame (j m n : Nat) (x : Title) (s : State) : stockQueued j m n x s = { s with
    scheduler.jobs := (stockQueued j m n x s).scheduler.jobs, scheduler.queues := (stockQueued j m n x s).scheduler.queues
    passDue := true } := by
  rw [stockQueued_eq]
  rfl

theorem stockQueued_job (j m n : Nat) (x : Title) (s : State) (i : Nat) :
    Table.get (stockQueued j m n x s).scheduler.jobs i =
      if i = j then some (stockJob m n x) else Table.get s.scheduler.jobs i := by
  rw [stockQueued_eq]
  simp only [owePass_scheduler, modQueue_jobs, modJob_jobs, Table.get_modify, Table.get_put]
  split_ifs <;> rfl

theorem stockQueued_queue (j m n : Nat) (x : Title) (s : State) (l : Nat) :
    queueAt (stockQueued j m n x s) l = if l = 0 then queueAt s 0 ++ [j] else queueAt s l := by
  rw [stockQueued_eq]
  split_ifs with hl
  · rw [hl]
    exact queueAt_modQueue_same (by omega) _ _
  · exact queueAt_modQueue_other hl _ _

theorem copiesAsked_byte (copies : Byte) : copiesAsked copies.toNat = if copies = 0 then 256 else copies.toNat := by
  unfold copiesAsked
  refine if_congr ?_ rfl rfl
  rw [BitVec.toNat_eq]
  rfl

end Build

/-! ## RAISE_JOB (R99) -/

section Raise

variable {s : State} {j : Nat} {x : Job}

theorem raiseJobTo3_range (h : j = 0 ∨ s.management.geometry.j < j) : raiseJobTo3 j s = refuse .badField s := if_pos h

theorem raiseJobTo3_absent (hr : ¬(j = 0 ∨ s.management.geometry.j < j)) (hx : Table.get s.scheduler.jobs j = none) :
    raiseJobTo3 j s = refuse .notFound s := by
  simp only [raiseJobTo3, if_neg hr, hx]

/-- A job that stands on a stack, or is about to: it is not raised (R99). -/
def Parks (s : State) (x : Job) : Prop := x.state = .parked ∨ (x.state = .active ∧ (bayAt s x.bay).state = .parking)

theorem raiseJobTo3_parks (hr : ¬(j = 0 ∨ s.management.geometry.j < j)) (hx : Table.get s.scheduler.jobs j = some x)
    (hp : Parks s x) : raiseJobTo3 j s = refuse .inUse s := by
  have hp' : x.state = .parked ∨ (x.state = .active ∧ (bayAt s x.bay).state = .parking) := hp
  simp only [raiseJobTo3, if_neg hr, hx, if_pos hp']

theorem raiseJobTo3_top (hr : ¬(j = 0 ∨ s.management.geometry.j < j)) (hx : Table.get s.scheduler.jobs j = some x)
    (hp : ¬Parks s x) (h3 : x.priority = 3) : raiseJobTo3 j s = ⟨s, .ok, []⟩ := by
  have hp' : ¬(x.state = .parked ∨ (x.state = .active ∧ (bayAt s x.bay).state = .parking)) := hp
  simp only [raiseJobTo3, if_neg hr, hx, if_neg hp', if_pos h3]

theorem raiseJobTo3_raised (hr : ¬(j = 0 ∨ s.management.geometry.j < j)) (hx : Table.get s.scheduler.jobs j = some x)
    (hp : ¬Parks s x) (h3 : x.priority ≠ 3) : raiseJobTo3 j s = ⟨raiseTo3 j x s, .ok, []⟩ := by
  have hp' : ¬(x.state = .parked ∨ (x.state = .active ∧ (bayAt s x.bay).state = .parking)) := hp
  simp only [raiseJobTo3, if_neg hr, hx, if_neg hp', if_neg h3]

/-- A job raised where it stands, a placement pass owed. -/
theorem raiseTo3_standing (h : x.state ≠ .queued) (s : State) :
    raiseTo3 j x s = owePass (modJob j (fun x => { x with priority := 3 }) s) := by
  unfold raiseTo3
  cases hs : x.state with
  | queued => exact absurd hs h
  | active => rfl
  | parked => rfl
  | pending => rfl

/-- A queued job leaves its level for the tail of level 3. -/
theorem raiseTo3_queued (hx : Table.get s.scheduler.jobs j = some x) (hq : x.state = .queued) : raiseTo3 j x s =
    owePass (modQueue 3 (fun q => q ++ [j]) (modJob j (fun x => { x with state := .queued, bay := 0, priority := 3 })
      (dequeue j s))) := by
  have hjobs : (dequeue j s).scheduler.jobs = s.scheduler.jobs := by
    rw [dequeue_eq hx]
    rfl
  have hjob : Table.get (modJob j (fun x => { x with priority := 3 }) (dequeue j s)).scheduler.jobs j =
      some { x with priority := 3 } := by
    rw [modJob_jobs, Table.get_modify_same, hjobs, hx]
    rfl
  have htwice : ∀ u : State, modJob j (fun x => { x with state := .queued, bay := 0 })
      (modJob j (fun x => { x with priority := 3 }) u) =
        modJob j (fun x => { x with state := .queued, bay := 0, priority := 3 }) u := fun u => by
    rw [modJob, modJob, Table.modify_modify]
    rfl
  simp only [raiseTo3, hq]
  rw [queueTail_eq hjob, htwice]

theorem raiseTo3_queued_frame (hx : Table.get s.scheduler.jobs j = some x) (hq : x.state = .queued) :
    raiseTo3 j x s = { s with
      scheduler.jobs := (raiseTo3 j x s).scheduler.jobs, scheduler.queues := (raiseTo3 j x s).scheduler.queues
      passDue := true } := by
  rw [raiseTo3_queued hx hq, dequeue_eq hx]
  rfl

theorem raiseTo3_queued_job (hx : Table.get s.scheduler.jobs j = some x) (hq : x.state = .queued) (i : Nat) :
    Table.get (raiseTo3 j x s).scheduler.jobs i =
      if i = j then some { x with priority := 3, bay := 0 } else Table.get s.scheduler.jobs i := by
  rw [raiseTo3_queued hx hq, dequeue_eq hx, owePass_scheduler, modQueue_jobs, modJob_jobs, modQueue_jobs, Table.get_modify]
  split_ifs with hi
  · rw [hi, hx, ← hq]
    rfl
  · rfl

theorem raiseTo3_queued_queue (hx : Table.get s.scheduler.jobs j = some x) (hq : x.state = .queued) (l : Nat) :
    queueAt (raiseTo3 j x s) l =
      if l = 3 then queueAt (dequeue j s) 3 ++ [j] else queueAt (dequeue j s) l := by
  rw [raiseTo3_queued hx hq]
  split_ifs with hl
  · rw [hl]
    exact queueAt_modQueue_same (by omega) _ _
  · exact queueAt_modQueue_other hl _ _

end Raise

end Sys2Proof.Machine

open Sys2Proof Sys2Proof.Machine in
/-- Settles O44: the checks of each request in their order, and the record and the queue that an accepted one writes. -/
theorem stockRunsAndRaises : Obligations.StockRunsAndRaises := by
  intro s s0 hm
  refine ⟨fun title copies ht => ?_, fun job ht => ?_⟩
  · intro m i refused
    have hmode : s0.management.mode = .service := by rw [ht.management, hm]
    have hact : ∀ a : Answer, inService s0 a = a := fun a => inService_service a hmode
    have hrefused : ∀ {c : Code}, buildRun m copies.toNat s0 = refuse c s0 → refused c := fun h =>
      ht.refused rfl ((hact _).trans h)
    have hqueue : ∀ l, queueAt s0 l = queueAt s l := fun l => by rw [queueAt, ht.scheduler, queueAt]
    have hcapacity : ∀ c, capacityOf s0 c = capacityOf s c := fun c => by rw [capacityOf, ht.management, capacityOf]
    refine ⟨fun hr => hrefused (buildRun_range (by rwa [ht.management])), fun h0 hT => ?_⟩
    have hr : ¬(m = 0 ∨ s0.management.geometry.t < m) := by
      rw [ht.management]
      omega
    refine ⟨fun hx => hrefused (buildRun_absent hr (by rwa [ht.records])), fun x hx => ⟨fun hf => ?_, fun hf hp => ?_⟩⟩
    · refine hrefused (buildRun_format hr (by rwa [ht.records]) ?_)
      exact hf.imp (fun h => by rw [h]; decide) fun h => by rw [h]; decide
    have hcopied : Copied s0 m x := ⟨hr, by rwa [ht.records], hf, hp⟩
    refine ⟨fun hc => hrefused (buildRun_extent hcopied (by rwa [hcapacity])), fun hc => ?_⟩
    rw [← hcapacity] at hc
    refine ⟨fun hj => hrefused (buildRun_poolFull hcopied hc (by rwa [ht.scheduler, ht.management])), fun j hj => ?_⟩
    have hdone := ht.answered rfl ((hact _).trans
      (buildRun_queued (n := copies.toNat) hcopied hc (by rwa [ht.scheduler, ht.management])))
    have hjob := stockQueued_job j m copies.toNat x s0
    have hlevel := stockQueued_queue j m copies.toNat x s0
    refine ⟨_, hdone, stockQueued_frame j m copies.toNat x s0, ?_, fun o ho => ?_, ?_, fun l hl => ?_⟩
    · rw [hjob, if_pos rfl, ← copiesAsked_byte]
      rfl
    · rw [hjob, if_neg ho, ht.scheduler]
    · rw [hlevel, if_pos rfl, hqueue]
    · rw [hlevel, if_neg hl, hqueue]
  · intro j i refused
    have hmode : s0.management.mode = .service := by rw [ht.management, hm]
    have hact : ∀ a : Answer, inService s0 a = a := fun a => inService_service a hmode
    have hrefused : ∀ {c : Code}, raiseJobTo3 j s0 = refuse c s0 → refused c := fun h =>
      ht.refused rfl ((hact _).trans h)
    refine ⟨fun hr => hrefused (raiseJobTo3_range (by rwa [ht.management])), fun h0 hJ => ?_⟩
    have hr : ¬(j = 0 ∨ s0.management.geometry.j < j) := by
      rw [ht.management]
      omega
    refine ⟨fun hx => hrefused (raiseJobTo3_absent hr (by rwa [ht.scheduler])), fun x hx => ?_⟩
    have hx0 : Table.get s0.scheduler.jobs j = some x := by rwa [ht.scheduler]
    have hparks : Parks s0 x ↔ x.state = .parked ∨ (x.state = .active ∧ (bayAt s x.bay).state = .parking) := by
      rw [Parks, bayAt, ht.scheduler, bayAt]
    refine ⟨fun hp => hrefused (raiseJobTo3_parks hr hx0 (hparks.mpr hp)), fun hp hact' h3 => ?_, fun hq h3 => ?_,
      fun hs h3 => ?_⟩
    · have hnot : ¬Parks s0 x := by
        rw [hparks]
        exact not_or.mpr ⟨hp, hact'⟩
      exact ht.quiet rfl ((hact _).trans (raiseJobTo3_top hr hx0 hnot h3)) rfl
    · have hnot : ¬Parks s0 x := by
        rw [hparks, hq]
        simp
      have hdone := ht.answered rfl ((hact _).trans (raiseJobTo3_raised hr hx0 hnot h3.ne))
      have hjob := raiseTo3_queued_job hx0 hq
      have hlevel : ∀ l, queueAt (raiseTo3 j x s0) l = if l = 3 then queueAt s 3 ++ [j]
          else if l = x.priority then (queueAt s l).erase j else queueAt s l := fun l => by
        rw [raiseTo3_queued_queue hx0 hq, queueAt_dequeue hx0, queueAt_dequeue hx0, if_neg h3.ne', queueAt, queueAt,
          ht.scheduler, queueAt, queueAt]
      refine ⟨_, hdone, raiseTo3_queued_frame hx0 hq, ?_, fun o ho => ?_, ?_, ?_, fun l hl h3l => ?_⟩
      · rw [hjob, if_pos rfl]
      · rw [hjob, if_neg ho, ht.scheduler]
      · rw [hlevel, if_neg h3.ne, if_pos rfl]
      · rw [hlevel, if_pos rfl]
      · rw [hlevel, if_neg h3l, if_neg hl]
    · have hnot : ¬Parks s0 x := by
        rw [hparks]
        rintro (h | ⟨h, hbay⟩)
        · obtain hs | ⟨hs, -⟩ := hs <;> rw [h] at hs <;> cases hs
        · obtain hs | ⟨-, hs⟩ := hs
          · rw [h] at hs
            cases hs
          · exact hs hbay
      have hstanding : x.state ≠ .queued := by
        obtain hs | ⟨hs, -⟩ := hs <;> rw [hs] <;> decide
      have hdone := ht.answered rfl ((hact _).trans (raiseJobTo3_raised hr hx0 hnot h3))
      rw [raiseTo3_standing hstanding] at hdone
      refine ⟨_, hdone, rfl, ?_, fun o ho => ?_⟩
      · rw [owePass_scheduler, modJob_jobs, Table.get_modify_same, hx0]
        rfl
      · rw [owePass_scheduler, modJob_jobs, Table.get_modify_other _ _ ho, ht.scheduler]
end

