-- ==== Sys2Proof/Proofs/PassEffects.lean ====
section
/-! PROOFS. What a placement pass leaves alone: the bays that are neither IDLE nor WRITING, and the frames on the floor transmit
queue (R80 to R82, R197). -/

namespace Sys2Proof.Machine

section Pass

variable {s t u : State} {b o j : Nat}

/-! ## What one try can do -/

/-- A try does nothing, latches BLANK_SHORT, or makes a command for a bay that is IDLE or WRITING (R80 to R82). -/
theorem tryPlace_cases (s : State) (j : Nat) :
    tryPlace s j = s ∨ (∃ c, tryPlace s j = latch .blankShort c s) ∨
      ∃ o f x, ((bayAt s o).state = .idle ∨ (bayAt s o).state = .writing) ∧ SendsTo s o f x (tryPlace s j) := by
  cases hj : Table.get s.scheduler.jobs j with
  | none => exact .inl (by simp only [tryPlace, hj])
  | some job =>
    by_cases hb : (accountAt s job.cartridgeClass).blank = 0
    · exact .inr (.inl ⟨_, tryPlace_short hj hb⟩)
    have hb := Nat.one_le_iff_ne_zero.mpr hb
    cases hi : idleBayFor s job.cartridgeClass with
    | some o =>
      obtain ⟨hmem, hidle⟩ := idleBayFor_idle hi
      obtain ⟨h1, h24⟩ := mem_bayNumbers.mp hmem
      rw [tryPlace_idle hj hb hi]
      exact .inr (.inr ⟨o, _, _, .inl hidle, placeOn_sends h1 h24 hj⟩)
    | none =>
      cases hp : preemptionBay s job.cartridgeClass job.priority with
      | some o =>
        obtain ⟨hmem, hwriting⟩ := preemptionBay_writing hp
        obtain ⟨h1, h24⟩ := mem_bayNumbers.mp hmem
        rw [tryPlace_preempt hj hb hi hp]
        exact .inr (.inr ⟨o, _, _, .inr hwriting, preemptOn_sends h1 h24 hj⟩)
      | none => exact .inl (tryPlace_none hj hb hi hp)

theorem SendsTo.line_or {f : Frame} {x : Bay} (h : SendsTo s o f x t) : t.line = (toFloor f s).line ∨ t.line = s.line := by
  obtain ⟨hroom, howed, -⟩ := h
  by_cases hr : floorRoom (waitingForwards s + waitingCommands s) s = true
  · exact .inl (hroom hr).1
  · exact .inr (howed hr).1

/-! ## The floor transmit queue only grows -/

theorem SendsTo.floorTx {f : Frame} {x : Bay} (h : SendsTo s o f x t) : s.line.floorTx <+: t.line.floorTx := by
  obtain h | h := h.line_or <;> rw [h]
  · exact List.prefix_append _ _

theorem tryPlace_floorTx (s : State) (j : Nat) : s.line.floorTx <+: (tryPlace s j).line.floorTx := by
  obtain h | ⟨c, h⟩ | ⟨o, f, x, -, h⟩ := tryPlace_cases s j
  · rw [h]
  · rw [h]
    exact List.prefix_rfl
  · exact h.floorTx

theorem foldl_floorTx {β : Type} {f : State → β → State} (hf : ∀ s x, s.line.floorTx <+: (f s x).line.floorTx) (l : List β)
    (s : State) : s.line.floorTx <+: (l.foldl f s).line.floorTx := by
  induction l generalizing s with
  | nil => exact List.prefix_rfl
  | cons x l ih => exact (hf s x).trans (ih (f s x))

theorem settle_floorTx (s : State) : s.line.floorTx <+: (settle s).line.floorTx := by
  unfold settle
  split_ifs
  · exact foldl_floorTx tryPlace_floorTx _ s
  · exact List.prefix_rfl

/-! ## A bay with no place for a job -/

/-- The bay is neither IDLE nor WRITING: placement leaves it alone. -/
def Unplaced (bay : Bay) : Prop := bay.state ≠ .idle ∧ bay.state ≠ .writing

/-- From `s` to `t` bay `b` and the poll set stand. -/
structure BayStands (b : Nat) (s t : State) : Prop where
  bay : bayAt t b = bayAt s b
  pollSet : t.line.pollSet = s.line.pollSet

theorem tryPlace_stands (h : Unplaced (bayAt s b)) (j : Nat) : BayStands b s (tryPlace s j) := by
  obtain ⟨hidle, hwriting⟩ := h
  obtain h | ⟨c, h⟩ | ⟨o, f, x, hstate, h⟩ := tryPlace_cases s j
  · rw [h]
    exact ⟨rfl, rfl⟩
  · rw [h]
    exact ⟨rfl, rfl⟩
  · have hne : b ≠ o := by
      rintro rfl
      exact hstate.elim hidle hwriting
    refine ⟨h.2.2 b hne, ?_⟩
    obtain hl | hl := h.line_or <;> rw [hl]
    rfl

theorem foldl_tryPlace_stands (js : List Nat) (h : Unplaced (bayAt s b)) : BayStands b s (js.foldl tryPlace s) := by
  induction js generalizing s with
  | nil => exact ⟨rfl, rfl⟩
  | cons j js ih =>
    have hone := tryPlace_stands h j
    have hrest := ih (s := tryPlace s j) (by rwa [hone.bay])
    exact ⟨hrest.bay.trans hone.bay, hrest.pollSet.trans hone.pollSet⟩

theorem settle_stands (h : Unplaced (bayAt s b)) : BayStands b s (settle s) := by
  have hpass := foldl_tryPlace_stands (placementOrder s) h
  unfold settle
  split_ifs
  · exact ⟨hpass.bay, hpass.pollSet⟩
  · exact ⟨rfl, rfl⟩

end Pass

end Sys2Proof.Machine
end

