-- ==== Sys2Proof/Proofs/BaySetup.lean ====
section
/-! PROOFS. SET_BAY, BAY_ONLINE and BAY_OFFLINE (R76, R77, R96). -/

namespace Sys2Proof.Machine

/-! ## SET_BAY (R76) -/

section SetBay

variable {s : State} {b a : Nat} {classes preempt : Byte}

/-- A SET_BAY with a field out of its range (R76 check 1). -/
def BadBay (b a : Nat) (classes preempt : Byte) : Prop :=
  b = 0 ∨ 24 < b ∨ (a ≠ 0 ∧ (a < 16 ∨ 62 < a)) ∨ 1 < preempt.toNat ∨ 15 < classes.toNat ∨ (a ≠ 0 ∧ classes = 0)

theorem addressTaken_iff : addressTaken s b a = true ↔
    (∃ o ∈ bayNumbers, o ≠ b ∧ (bayAt s o).address = a) ∨ a = s.management.settings.pickRole ∨
      a = s.management.settings.sorterRole ∨ a = s.management.settings.scannerRole := by
  simp only [addressTaken, Bool.or_eq_true, List.any_eq_true, Bool.and_eq_true, decide_eq_true_eq]

theorem flagOf_le (h : ¬1 < preempt.toNat) : flagOf preempt = some (decide (preempt = 1)) := by
  have hcases : preempt = 0 ∨ preempt = 1 := by
    rw [BitVec.toNat_eq, BitVec.toNat_eq]
    show preempt.toNat = 0 ∨ preempt.toNat = 1
    omega
  obtain rfl | rfl := hcases <;> rfl

theorem configureBay_bad (h : BadBay b a classes preempt) : configureBay b a classes preempt s = refuse .badField s := by
  unfold configureBay
  by_cases hp : 1 < preempt.toNat
  · rw [flagOf_of_gt hp]
  · rw [flagOf_le hp]
    refine if_pos ?_
    unfold BadBay at h
    tauto

/-- The fields of a SET_BAY that are in their ranges, and the bay as it then stands (R76). -/
def bayConfigured (a : Nat) (classes preempt : Byte) (x : Bay) : Bay :=
  { x with address := a, classes := if a = 0 then 0 else classes, preempt := decide (a ≠ 0) && decide (preempt = 1) }

theorem configureBay_good (h : ¬BadBay b a classes preempt) : configureBay b a classes preempt s =
    if (bayAt s b).state ≠ .offline then refuse .inUse s
    else if a ≠ 0 ∧ addressTaken s b a = true then refuse .conflict s
    else ⟨modBay b (bayConfigured a classes preempt) s, .ok, []⟩ := by
  unfold BadBay at h
  unfold configureBay
  rw [flagOf_le (by tauto)]
  simp only
  rw [if_neg (by tauto)]
  by_cases ha : a = 0
  · subst ha
    rfl
  · have hf : bayConfigured a classes preempt =
        fun x => { x with address := a, classes := classes, preempt := decide (preempt = 1) } := by
      funext x
      simp [bayConfigured, ha]
    rw [if_neg ha, hf]

end SetBay

/-! ## BAY_ONLINE (R77) -/

section Online

variable {s : State} {b k : Nat}

/-- A bay brought online. -/
def onlineBay (x : Bay) : Bay :=
  { x with state := .idle, active := 0, stack := [], preemptor := 0, owed := [], running := false, cause := .none }

theorem bringOnline_eq (b : Nat) (s : State) :
    bringOnline b s = owePass (joinPoll (bayAt s b).address (modBay b onlineBay s)) := rfl

theorem bringOnline_frame (b : Nat) (s : State) : bringOnline b s = { s with
    scheduler.bays := (bringOnline b s).scheduler.bays, line.pollSet := (bringOnline b s).line.pollSet, passDue := true } := by
  have h := joinPoll_frame (bayAt s b).address (modBay b onlineBay s)
  rw [bringOnline_eq]
  generalize joinPoll (bayAt s b).address (modBay b onlineBay s) = t at h ⊢
  rw [h]
  rfl

theorem bringOnline_bays (b : Nat) (s : State) :
    (bringOnline b s).scheduler.bays = (modBay b onlineBay s).scheduler.bays := by
  rw [bringOnline_eq, joinPoll_frame]
  rfl

theorem mem_bringOnline_pollSet (ha : (bayAt s b).address ≠ 0) (hk : k < 64) :
    (bringOnline b s).line.pollSet.getLsbD k = true ↔ k = (bayAt s b).address ∨ s.line.pollSet.getLsbD k = true := by
  have h := mem_joinPoll (b := (bayAt s b).address) (s := modBay b onlineBay s) hk
  simp only [ha, ne_eq, not_false_eq_true, true_and] at h
  exact h

end Online

/-! ## BAY_OFFLINE (R96) -/

section Offline

variable {s t u : State} {b a o : Nat} {fs gs : List Frame}

/-- From `s` to `t` bay `b` has been made the commands `fs`, none of which waits for an answer: each is handed to the floor or
owed, and nothing else differs. -/
structure CommandsMade (b : Nat) (fs : List Frame) (s t : State) : Prop where
  frame : t = { s with
    line.floorTx := t.line.floorTx, line.contended := t.line.contended, scheduler.bays := t.scheduler.bays }
  bay : bayAt t b = { bayAt s b with owed := (bayAt t b).owed }
  others : ∀ o, o ≠ b → bayAt t o = bayAt s o
  floorTx : s.line.floorTx ⊆ t.line.floorTx
  owed : (bayAt s b).owed ⊆ (bayAt t b).owed
  made : ∀ f ∈ fs, f ∈ t.line.floorTx ∨ f ∈ (bayAt t b).owed

theorem CommandsMade.refl (b : Nat) (s : State) : CommandsMade b [] s s :=
  ⟨rfl, rfl, fun _ _ => rfl, List.Subset.refl _, List.Subset.refl _, fun _ h => absurd h List.not_mem_nil⟩

theorem CommandsMade.trans (h : CommandsMade b fs s t) (g : CommandsMade b gs t u) : CommandsMade b (fs ++ gs) s u where
  frame := by rw [g.frame, h.frame]
  bay := by rw [g.bay, h.bay]
  others o ho := (g.others o ho).trans (h.others o ho)
  floorTx _ hf := g.floorTx (h.floorTx hf)
  owed _ hf := g.owed (h.owed hf)
  made f hf := by
    obtain hf | hf := List.mem_append.mp hf
    · exact (h.made f hf).imp (fun hx => g.floorTx hx) fun hx => g.owed hx
    · exact g.made f hf

theorem makeCommand_made (h1 : 1 ≤ b) (h24 : b ≤ 24) {f : Frame} (hf : waitsForAnswer f = false) (s : State) :
    CommandsMade b [f] s (makeCommand b f s) := by
  by_cases hr : floorRoom (aheadOfNewCommand s) s = true
  · have heq : makeCommand b f s = toFloor f s := by
      rw [makeCommand, if_pos hr, hf]
      rfl
    rw [heq]
    refine ⟨rfl, rfl, fun _ _ => rfl, List.subset_append_left _ _, List.Subset.refl _, fun g hg => .inl ?_⟩
    rw [List.mem_singleton.mp hg]
    exact List.mem_append_right _ List.mem_cons_self
  · have hown := bayAt_modBay_same h1 h24 (fun bay => { bay with owed := bay.owed ++ [f] }) s
    rw [makeCommand_owed hr]
    refine ⟨rfl, by rw [hown], fun o ho => bayAt_modBay_other ho _ s, List.Subset.refl _, ?_, fun g hg => .inr ?_⟩
    · rw [hown]
      exact List.subset_append_left _ _
    · rw [hown, List.mem_singleton.mp hg]
      exact List.mem_append_right _ List.mem_cons_self

/-- An ABANDON for each of a list of jobs (R96 step 1). -/
def abandonAll (b a : Nat) (js : List Nat) (s : State) : State :=
  js.foldl (fun s j => makeCommand b (abandonFrame a j) s) s

theorem abandonAll_made (h1 : 1 ≤ b) (h24 : b ≤ 24) (a : Nat) (js : List Nat) (s : State) :
    CommandsMade b (js.map (abandonFrame a)) s (abandonAll b a js s) := by
  induction js generalizing s with
  | nil => exact .refl b s
  | cons j js ih => exact (makeCommand_made h1 h24 rfl s).trans (ih _)

/-- A bay taken offline. -/
def offlineBay (x : Bay) : Bay := { x with state := .offline, active := 0, stack := [], preemptor := 0, running := false }

theorem offlineBay_unplaced (x : Bay) (owed : List Frame) : Unplaced { offlineBay x with owed := owed } :=
  ⟨by simp [offlineBay], by simp [offlineBay]⟩

/-- The bay's jobs abandoned (R96 step 1). -/
def offlineAbandoned (b : Nat) (s : State) : State :=
  abandonAll b (bayAt s b).address (heldJobs (bayAt s b)) (dropOwed b s)

theorem takeOffline_eq (b : Nat) (s : State) : takeOffline b s =
    owePass (leavePoll (bayAt s b).address (modBay b offlineBay (jobsPutBack b (offlineAbandoned b s)))) := by
  have hbay : modBay b (fun x => { x with state := .offline, running := false })
      (putBackJobs b (offlineAbandoned b s)) = modBay b offlineBay (jobsPutBack b (offlineAbandoned b s)) :=
    modBay_modBay b _ _ _
  rw [← hbay]
  rfl

theorem takeOffline_frame (b : Nat) (s : State) : takeOffline b s = { jobsPutBack b (offlineAbandoned b s) with
    scheduler.bays := (modBay b offlineBay (jobsPutBack b (offlineAbandoned b s))).scheduler.bays
    line.pollSet := (takeOffline b s).line.pollSet, passDue := true } := by
  have h := leavePoll_frame (bayAt s b).address (modBay b offlineBay (jobsPutBack b (offlineAbandoned b s)))
  rw [takeOffline_eq]
  generalize leavePoll (bayAt s b).address (modBay b offlineBay (jobsPutBack b (offlineAbandoned b s))) = t at h ⊢
  rw [h]
  rfl

theorem offlineAbandoned_made (h1 : 1 ≤ b) (h24 : b ≤ 24) (s : State) :
    CommandsMade b ((heldJobs (bayAt s b)).map (abandonFrame (bayAt s b).address)) (dropOwed b s) (offlineAbandoned b s) :=
  abandonAll_made h1 h24 _ _ _

theorem offlineAbandoned_frame (h1 : 1 ≤ b) (h24 : b ≤ 24) (s : State) : offlineAbandoned b s = { s with
    line := (offlineAbandoned b s).line, scheduler.bays := (offlineAbandoned b s).scheduler.bays } := by
  rw [(offlineAbandoned_made h1 h24 s).frame]
  rfl

theorem offlineAbandoned_bay (h1 : 1 ≤ b) (h24 : b ≤ 24) (s : State) :
    bayAt (offlineAbandoned b s) b = { bayAt s b with owed := (bayAt (offlineAbandoned b s) b).owed } := by
  have hdropped := bayAt_modBay_same h1 h24 (fun bay => { bay with owed := bay.owed.filter fun f => !waitsForAnswer f }) s
  have hbay := (offlineAbandoned_made h1 h24 s).bay
  rw [hbay]
  unfold dropOwed
  rw [hdropped]

theorem takeOffline_bayAt (b o : Nat) (s : State) :
    bayAt (takeOffline b s) o = bayAt (modBay b offlineBay (offlineAbandoned b s)) o := by
  rw [bayAt, takeOffline_frame]
  show bankGet (bankModify (jobsPutBack b (offlineAbandoned b s)).scheduler.bays b offlineBay) o {} = _
  rw [jobsPutBack_bays]
  rfl

theorem takeOffline_bay (h1 : 1 ≤ b) (h24 : b ≤ 24) (s : State) :
    bayAt (takeOffline b s) b = { offlineBay (bayAt s b) with owed := (bayAt (offlineAbandoned b s) b).owed } := by
  rw [takeOffline_bayAt, bayAt_modBay_same h1 h24, offlineAbandoned_bay h1 h24]
  rfl

theorem takeOffline_other (h1 : 1 ≤ b) (h24 : b ≤ 24) (ho : o ≠ b) (s : State) :
    bayAt (takeOffline b s) o = bayAt s o := by
  rw [takeOffline_bayAt, bayAt_modBay_other ho, (offlineAbandoned_made h1 h24 s).others o ho]
  exact bayAt_modBay_other ho _ s

theorem takeOffline_line (b : Nat) (s : State) : (takeOffline b s).line =
    { (offlineAbandoned b s).line with pollSet := (takeOffline b s).line.pollSet } := by
  have hjobs := (jobsPutBack_sent b (offlineAbandoned b s)).frame
  have hline : (jobsPutBack b (offlineAbandoned b s)).line = (offlineAbandoned b s).line := by rw [hjobs]
  rw [← hline]
  conv_lhs => rw [takeOffline_frame]

theorem not_mem_takeOffline_pollSet {k : Nat} (hk : k < 64) (ha : k = (bayAt s b).address) (h0 : k ≠ 0) :
    (takeOffline b s).line.pollSet.getLsbD k = false := by
  rw [← Bool.not_eq_true, takeOffline_eq]
  intro h
  obtain ⟨-, h | h⟩ := (mem_leavePoll hk).mp h
  · exact h0 (ha.trans h)
  · exact h ha

/-- What the put-back reads of the state before it: the jobs, queues and accounts, and the places of the bays. -/
theorem PutBack.congr {r : State} {bs : List Nat} (h : PutBack t u bs)
    (hr : t = { r with line := t.line, scheduler.bays := t.scheduler.bays })
    (hheld : ∀ o, heldJobs (bayAt t o) = heldJobs (bayAt r o) ∧ (bayAt t o).preemptor = (bayAt r o).preemptor) :
    PutBack r u bs := by
  have hjobs : t.scheduler.jobs = r.scheduler.jobs := by rw [hr]
  have hqueue : queueAt t = queueAt r := by rw [hr]; rfl
  have haccount : accountAt t = accountAt r := by rw [hr]; rfl
  have hmoved : (fun o => heldJobs (bayAt t o) ++ if (bayAt t o).preemptor = 0 then [] else [(bayAt t o).preemptor]) =
      fun o => heldJobs (bayAt r o) ++ if (bayAt r o).preemptor = 0 then [] else [(bayAt r o).preemptor] := by
    funext o
    rw [(hheld o).1, (hheld o).2]
  have hall : (fun o => heldJobs (bayAt t o)) = fun o => heldJobs (bayAt r o) := funext fun o => (hheld o).1
  unfold PutBack at h ⊢
  rwa [hmoved, hall, hjobs, hqueue, haccount] at h

theorem takeOffline_putBack (h1 : 1 ≤ b) (h24 : b ≤ 24) (s : State) : PutBack s (takeOffline b s) [b] := by
  have hsent := jobsPutBack_sent b (offlineAbandoned b s)
  have hlist : ∀ f : Nat → List Nat, [b].flatMap f = f b := fun f => by rw [List.flatMap_singleton]
  have hput : PutBack (offlineAbandoned b s) (takeOffline b s) [b] := by
    refine JobsSent.putBack (t := jobsPutBack b (offlineAbandoned b s)) ?_ ?_ ?_ ?_
    · rwa [hlist, hlist]
    · rw [takeOffline_frame]
    · rw [takeOffline_frame]
    · rw [takeOffline_frame]
  refine hput.congr (offlineAbandoned_frame h1 h24 s) fun o => ?_
  by_cases ho : o = b
  · rw [ho, offlineAbandoned_bay h1 h24]
    exact ⟨rfl, rfl⟩
  · have hother : bayAt (offlineAbandoned b s) o = bayAt s o :=
      ((offlineAbandoned_made h1 h24 s).others o ho).trans (bayAt_modBay_other ho _ s)
    rw [hother]
    exact ⟨rfl, rfl⟩

/-- The other units do not see a bay go offline. -/
theorem takeOffline_units (h1 : 1 ≤ b) (h24 : b ≤ 24) (s : State) : takeOffline b s = { s with
    line := (takeOffline b s).line, scheduler := (takeOffline b s).scheduler, accounts := (takeOffline b s).accounts
    passDue := true } := by
  have hframe := takeOffline_frame b s
  have hjobs := (jobsPutBack_sent b (offlineAbandoned b s)).frame
  have habandoned := offlineAbandoned_frame h1 h24 s
  generalize takeOffline b s = u at hframe ⊢
  generalize jobsPutBack b (offlineAbandoned b s) = v at hframe hjobs
  generalize offlineAbandoned b s = w at hjobs habandoned
  rw [hframe, hjobs, habandoned]

theorem mem_heldJobs {bay : Bay} {j : Nat} : j ∈ heldJobs bay ↔ j ∈ bay.stack ∨ (bay.active ≠ 0 ∧ j = bay.active) := by
  unfold heldJobs
  split_ifs with h <;> simp [h, or_comm]

/-- Each job the bay held has its ABANDON on the floor or owed, after the step's placement pass. -/
theorem settle_takeOffline_abandons (h1 : 1 ≤ b) (h24 : b ≤ 24) (s : State) {j : Nat} (hj : j ∈ heldJobs (bayAt s b)) :
    abandonFrame (bayAt s b).address j ∈ (settle (takeOffline b s)).line.floorTx ∨
      abandonFrame (bayAt s b).address j ∈ (bayAt (takeOffline b s) b).owed := by
  have hfloor : (takeOffline b s).line.floorTx = (offlineAbandoned b s).line.floorTx := by rw [takeOffline_line]
  have howed : (bayAt (takeOffline b s) b).owed = (bayAt (offlineAbandoned b s) b).owed := by rw [takeOffline_bay h1 h24]
  rw [howed]
  refine ((offlineAbandoned_made h1 h24 s).made _ (List.mem_map_of_mem hj)).imp_left fun h => ?_
  rw [← hfloor] at h
  exact (settle_floorTx _).subset h

end Offline

end Sys2Proof.Machine

open Sys2Proof Sys2Proof.Machine in
/-- Settles O39: the checks in their order, and for a bay taken offline the put-back, which the ABANDONs before it and the
placement pass after it leave alone. -/
theorem baysAreSetUp : Obligations.BaysAreSetUp := by
  refine ⟨fun bay address classes preempt s s0 ht => ?_, fun bay s s0 hm => ?_⟩
  · intro i b a x bad taken
    have hbay : ∀ o, bayAt s0 o = bayAt s o := fun o => by rw [bayAt, ht.scheduler, bayAt]
    have htaken : a ≠ 0 ∧ addressTaken s0 b a = true ↔ taken := by
      rw [addressTaken_iff]
      simp only [hbay, ht.management]
      exact Iff.rfl
    refine ⟨fun hbad => ht.refused rfl (configureBay_bad hbad), fun hgood hs => ?_, fun hgood hs hc => ?_,
      fun hgood hs hc => ?_⟩
    · refine ht.refused rfl ((configureBay_good hgood).trans (if_pos ?_))
      rwa [hbay]
    · refine ht.refused rfl ((configureBay_good hgood).trans ((if_neg ?_).trans (if_pos (htaken.mpr hc))))
      rwa [hbay, not_not]
    · obtain ⟨h1, h24⟩ : 1 ≤ b ∧ b ≤ 24 := by
        unfold bad at hgood
        omega
      refine ⟨_, ht.quiet rfl ((configureBay_good hgood).trans ((if_neg ?_).trans (if_neg (mt htaken.mp hc)))) rfl, rfl, ?_,
        fun o ho => ?_⟩
      · rwa [hbay, not_not]
      · rw [bayAt_modBay_same h1 h24, hbay]
        rfl
      · rw [bayAt_modBay_other ho, hbay]
  · intro b
    refine ⟨fun ht => ?_, fun ht => ?_⟩
    · intro i
      have hbay : ∀ o, bayAt s0 o = bayAt s o := fun o => by rw [bayAt, ht.scheduler, bayAt]
      have hact : ∀ a : Answer, inService s0 a = a := fun a => inService_service a (by rw [ht.management, hm])
      refine ⟨fun hbad => ?_, fun h1 h24 ha => ⟨fun hon => ?_, fun hoff => ?_⟩⟩
      · refine ht.refused rfl ((hact _).trans (if_pos ?_))
        rwa [hbay]
      all_goals
        have hgood : ¬(b = 0 ∨ 24 < b ∨ (bayAt s0 b).address = 0) := by
          rw [hbay]
          omega
      · have hyes : bayOnline (bayAt s0 b) = true := by
          rw [hbay, bayOnline_iff]
          obtain h | h | h | h := hon <;> rw [h] <;> decide
        exact ht.quiet rfl ((hact _).trans ((if_neg hgood).trans (if_pos hyes))) rfl
      · have hno : ¬bayOnline (bayAt s0 b) = true := by
          rw [hbay, bayOnline_iff]
          obtain h | h := hoff <;> rw [h] <;> decide
        have hown := bayAt_modBay_same h1 h24 onlineBay s0
        refine ⟨_, ht.answered rfl ((hact _).trans ((if_neg hgood).trans (if_neg hno))), rfl, bringOnline_frame b s0, ?_,
          fun o ho => ?_, fun k hk => ?_⟩
        · rw [bayAt, bringOnline_bays, ← hbay]
          exact hown
        · rw [bayAt, bringOnline_bays, ← hbay]
          exact bayAt_modBay_other ho onlineBay s0
        · have hset : s0.line.pollSet = s.line.pollSet := by
            obtain ⟨-, f, -, hf⟩ := ht
            rw [(takeOffice_work hf).1]
          rw [← hset, ← hbay]
          exact mem_bringOnline_pollSet (by rwa [hbay]) hk
    · intro i
      have hbay : ∀ o, bayAt s0 o = bayAt s o := fun o => by rw [bayAt, ht.scheduler, bayAt]
      have hact : ∀ a : Answer, inService s0 a = a := fun a => inService_service a (by rw [ht.management, hm])
      refine ⟨fun hbad => ht.refused rfl ((hact _).trans (if_pos hbad)), fun h1 h24 => ?_⟩
      have hgood : ¬(b = 0 ∨ 24 < b) := by omega
      refine ⟨fun hs => ?_, fun hs => ?_, fun hon => ?_⟩
      · refine ht.quiet rfl ((hact _).trans ((if_neg hgood).trans ?_)) rfl
        rw [hbay, hs]
      · refine ht.quiet rfl ((hact _).trans ((if_neg hgood).trans ?_)) rfl
        rw [hbay, hs]
      · have hdone : exec i s = .next (replied i .ok [] (settle (takeOffline b s0))) := by
          refine ht.answered rfl ((hact _).trans ((if_neg hgood).trans ?_))
          rw [hbay]
          obtain h | h | h | h := hon <;> rw [h]
        have hput := takeOffline_putBack h1 h24 s0
        have hown := takeOffline_bay h1 h24 s0
        have hother := fun {o} (ho : o ≠ b) => takeOffline_other h1 h24 ho s0
        have hunits := takeOffline_units h1 h24 s0
        have habandons := fun {j} => settle_takeOffline_abandons (j := j) h1 h24 s0
        have hpoll := fun {k} => not_mem_takeOffline_pollSet (s := s0) (b := b) (k := k)
        have hsame : s0 = { s with line := s0.line, scheduler.bays := s0.scheduler.bays } := by
          rw [ht.scheduler]
          exact ht.line_only
        have hput' := hput.congr hsame fun o => by rw [hbay]; exact ⟨rfl, rfl⟩
        rw [hbay] at hown habandons hpoll
        simp only [hbay] at hother
        have hstands := settle_stands (b := b) (s := takeOffline b s0) (by rw [hown]; exact offlineBay_unplaced _ _)
        have hbayt := hstands.bay.trans hown
        have hpollt : ∀ {k}, k < 64 → k = (bayAt s b).address → k ≠ 0 →
            (settle (takeOffline b s0)).line.pollSet.getLsbD k = false := fun hk ha h0 => by
          rw [hstands.pollSet]
          exact hpoll hk ha h0
        rw [← hstands.bay] at habandons
        have hframe := (BayWork.settle (takeOffline b s0)).frame
        refine ⟨⟨_, hdone, hput', by rw [hunits], by rw [hown]; rfl, by rw [hown]; rfl, by rw [hown]; rfl, by rw [hown]; rfl,
          by rw [hunits]; exact ht.management, fun o => hother⟩, _, hdone, ?_⟩
        generalize takeOffline b s0 = u at hunits hframe hbayt hpollt habandons ⊢
        generalize settle u = v at hframe hbayt hpollt habandons ⊢
        have hkept : v.records = s.records ∧ v.requests = s.requests ∧ v.assembly = s.assembly ∧ v.dispatch = s.dispatch ∧
            v.returns = s.returns ∧ v.days = s.days := by
          rw [hframe, hunits, ht.line_only]
          exact ⟨rfl, rfl, rfl, rfl, rfl, rfl⟩
        obtain ⟨hrecords, hrequests, hassembly, hdispatch, hreturns, hdays⟩ := hkept
        exact ⟨rfl, congrArg Bay.state hbayt, congrArg Bay.active hbayt, congrArg Bay.stack hbayt,
          congrArg Bay.preemptor hbayt, congrArg Bay.running hbayt, (congrArg Bay.address hbayt :), fun k hk => hpollt hk,
          hrecords, hrequests, hassembly, hdispatch, hreturns, hdays, fun j hj => habandons (mem_heldJobs.mpr hj)⟩
end

