-- ==== Sys2Proof/Proofs/Characters.lean ====
section
/-! PROOFS. The characters that a reception leaves (R190, R191). -/

namespace Sys2Proof.Machine

/-! ## What follows the end of a frame is the end of the run -/

section Rest

variable {α : Type}

/-- The characters that a step of reception has not used. -/
def unread (r : Except Received (α × List Chr)) : List Chr :=
  match r with
  | .error e => e.2
  | .ok p => p.2

theorem nextByte_unread (cs : List Chr) : unread (nextByte cs) <:+ cs := by
  cases cs with
  | nil => exact List.suffix_rfl
  | cons c rest =>
    simp only [nextByte]
    split_ifs
    · exact List.suffix_cons c rest
    · exact List.suffix_rfl
    · exact List.suffix_cons c rest

theorem nextByte_error {cs : List Chr} {r : Received} (h : nextByte cs = .error r) : r.2 <:+ cs := by
  have hs := nextByte_unread cs
  rwa [h] at hs

theorem nextByte_ok {cs : List Chr} {p : Byte × List Chr} (h : nextByte cs = .ok p) : p.2 <:+ cs := by
  have hs := nextByte_unread cs
  rwa [h] at hs

theorem nextBytes_unread (n : Nat) (cs : List Chr) : unread (nextBytes n cs) <:+ cs := by
  induction n generalizing cs with
  | zero => exact List.suffix_rfl
  | succ n ih =>
    cases h1 : nextByte cs with
    | error r =>
      simp only [nextBytes, h1]
      exact nextByte_error h1
    | ok p =>
      have hmore := (ih p.2).trans (nextByte_ok h1)
      cases h2 : nextBytes n p.2 with
      | error r =>
        rw [h2] at hmore
        simp only [nextBytes, h1, h2]
        exact hmore
      | ok q =>
        rw [h2] at hmore
        simp only [nextBytes, h1, h2]
        exact hmore

theorem receivePayload_suffix (dst src kind : Byte) (n : Nat) (cs : List Chr) :
    (receivePayload dst src kind n cs).2 <:+ cs := by
  have hpayload := nextBytes_unread n cs
  cases h1 : nextBytes n cs with
  | error r =>
    rw [h1] at hpayload
    simp only [receivePayload, h1]
    exact hpayload
  | ok p =>
    rw [h1] at hpayload
    cases h2 : nextByte p.2 with
    | error r =>
      simp only [receivePayload, h1, h2]
      exact (nextByte_error h2).trans hpayload
    | ok q =>
      simp only [receivePayload, h1, h2]
      split_ifs <;> exact (nextByte_ok h2).trans hpayload

theorem receiveBody_suffix (dst : Byte) (cs : List Chr) : (receiveBody dst cs).2 <:+ cs := by
  unfold receiveBody
  split_ifs
  · exact List.suffix_rfl
  cases h1 : nextByte cs with
  | error r => exact nextByte_error h1
  | ok p =>
    have hkind := nextByte_ok h1
    cases h2 : nextByte p.2 with
    | error r =>
      simp only [h2]
      exact (nextByte_error h2).trans hkind
    | ok q =>
      have hlength := (nextByte_ok h2).trans hkind
      cases h3 : nextByte q.2 with
      | error r =>
        simp only [h2, h3]
        exact (nextByte_error h3).trans hlength
      | ok t =>
        have hpayload := (nextByte_ok h3).trans hlength
        simp only [h2, h3]
        split_ifs
        · exact hpayload
        · exact (receivePayload_suffix ..).trans hpayload

end Rest

/-! ## A run without a mark character after its first -/

section Unmarked

variable {cs : List Chr}

theorem inFrame_unmarked (h : ∀ c ∈ cs, c.mark = false) : inFrame cs = [] := by
  unfold inFrame
  rw [List.dropWhile_eq_nil_iff]
  intro c hc
  simp [beginsFrame, h c hc]

theorem receiveAll_unmarked (h : ∀ c ∈ cs, c.mark = false) : receiveAll cs = (.incomplete, []) := by
  induction cs with
  | nil => rfl
  | cons c cs ih =>
    have hc : beginsFrame c = false := by simp [beginsFrame, h c List.mem_cons_self]
    rw [receiveAll, hc]
    exact ih fun x hx => h x (List.mem_cons_of_mem c hx)

/-- Only a mark character begins a frame, so that none begins behind the end of such a run's frame. -/
theorem afterFrame_unmarked (c : Chr) (h : ∀ x ∈ cs, x.mark = false) : afterFrame (c :: cs) = [] := by
  unfold afterFrame
  rw [receiveAll]
  split_ifs
  · exact inFrame_unmarked fun x hx => h x ((receiveBody_suffix c.data cs).subset hx)
  · rw [receiveAll_unmarked h]
    rfl

/-- The characters of a frame behind its mark character. -/
theorem frameChars_eq (f : Frame) : Frame.chars f = charOf true f.dst ::
    (f.src :: f.kind :: byteOf f.payload.length :: f.payload ++ [Frame.check f]).map (charOf false) := rfl

/-- Of a frame's characters, whole or cut off, none begins another frame. -/
theorem afterFrame_prefix {f : Frame} (hne : cs ≠ []) (h : cs <+: Frame.chars f) : afterFrame cs = [] := by
  obtain ⟨c, rest, rfl⟩ := List.exists_cons_of_ne_nil hne
  rw [frameChars_eq, List.cons_prefix_cons] at h
  refine afterFrame_unmarked c fun x hx => ?_
  obtain ⟨b, -, rfl⟩ := List.mem_map.mp (h.2.subset hx)
  rfl

end Unmarked

/-! ## The frame that its characters make -/

section Whole

variable {cs : List Chr}

/-- A character the part sends has no fault (R190). -/
theorem charOf_faults (mark : Bool) (b : Byte) : Chr.faults (charOf mark b) = 0 := by
  have hodd : Chr.parityOk (charOf mark b) = true := by
    simp only [Chr.parityOk, charOf, beq_iff_eq]
    rcases Nat.mod_two_eq_zero_or_one (onesIn b + mark.toNat) with h | h <;> simp [h, Nat.add_mod]
  rw [Chr.faults, if_pos hodd, if_pos (show (charOf mark b).stop = true from rfl)]
  rfl

theorem nextByte_char (b : Byte) (cs : List Chr) : nextByte (charOf false b :: cs) = .ok (b, cs) := by
  rw [nextByte, charOf_faults]
  rfl

theorem nextBytes_chars (bs : List Byte) (cs : List Chr) :
    nextBytes bs.length (bs.map (charOf false) ++ cs) = .ok (bs, cs) := by
  induction bs with
  | nil => rfl
  | cons b bs ih =>
    rw [List.length_cons, List.map_cons, List.cons_append, nextBytes, nextByte_char]
    simp only [ih]

theorem receivePayload_chars (dst src kind : Byte) (payload : List Byte) (cs : List Chr) :
    receivePayload dst src kind payload.length
      ((payload ++ [Frame.check ⟨dst, src, kind, payload⟩]).map (charOf false) ++ cs) =
        (.frame ⟨dst, src, kind, payload⟩, cs) := by
  have hsum : byteSum (Frame.body ⟨dst, src, kind, payload⟩) + Frame.check ⟨dst, src, kind, payload⟩ = 0 := by
    simp [Frame.check]
  rw [List.map_append, List.append_assoc, receivePayload, nextBytes_chars]
  simp only [List.map_cons, List.cons_append, nextByte_char, if_pos hsum, List.map_nil, List.nil_append]

/-- The characters of a frame within R191's bounds are received as that frame, and leave those behind them. -/
theorem receiveAll_chars {f : Frame} (hd : f.dst.toNat ≤ 63) (hl : f.payload.length ≤ 240) (cs : List Chr) :
    receiveAll (Frame.chars f ++ cs) = (.frame f, cs) := by
  have hbegins : beginsFrame (charOf true f.dst) = true := by
    rw [beginsFrame, charOf_faults]
    rfl
  have hlength : (byteOf f.payload.length).toNat = f.payload.length := by
    simp only [byteOf, BitVec.toNat_ofNat]
    omega
  rw [frameChars_eq, List.cons_append, receiveAll, if_pos hbegins]
  show receiveBody f.dst _ = _
  rw [receiveBody, if_neg (by omega)]
  simp only [List.map_cons, List.cons_append, nextByte_char, hlength, if_neg (Nat.not_lt.mpr hl)]
  exact receivePayload_chars f.dst f.src f.kind f.payload cs

theorem afterFrame_chars {f : Frame} (hd : f.dst.toNat ≤ 63) (hl : f.payload.length ≤ 240) (cs : List Chr) :
    afterFrame (Frame.chars f ++ cs) = inFrame cs := by
  rw [afterFrame, receiveAll_chars hd hl]

end Whole

end Sys2Proof.Machine
end

