-- ==== Sys2Proof/Proofs/ReplyTurns.lean ====
section
/-! PROOFS. How a reply turn ends, and what the Line Interface does itself with a floor frame (R196, R198, R199). -/

namespace Sys2Proof.Machine

section Misses

variable {s : State} {station : Nat}

/-! ## A miss (R198) -/

/-- The state after a miss of `station` counted in `s`, but for the line, which was `line` before it. -/
def MissCounted (s : State) (station : Nat) (line : LineUnit) (u : State) : Prop :=
  u.line = { line with missed := u.line.missed } ∧
  (missedAt s station + 1 ≠ 3 → missedAt u station = missedAt s station + 1 ∧ u.management = s.management) ∧
  (missedAt s station + 1 = 3 → missedAt u station = 0 ∧ u.management = (latch .lineFault station s).management) ∧
  (∀ k, 16 ≤ k → k ≠ station → missedAt u k = missedAt s k) ∧
  u = { s with line := u.line, management.notices := u.management.notices }

theorem missedAt_setMissed_same (h1 : 16 ≤ station) (h62 : station ≤ 62) (n : Nat) (s : State) :
    missedAt (setMissed station n s) station = n :=
  bankGet_modify_same _ _ _ _ ⟨by omega, by omega⟩

theorem missedAt_setMissed_other {k : Nat} (hk : 16 ≤ k) (h1 : 16 ≤ station) (hne : k ≠ station) (n : Nat) (s : State) :
    missedAt (setMissed station n s) k = missedAt s k :=
  bankGet_modify_other _ _ _ (by omega)

theorem countMiss_counted (h1 : 16 ≤ station) (h62 : station ≤ 62) {line : LineUnit} (hl : line.missed = s.line.missed) :
    MissCounted s station line (countMiss station { s with line := line }) := by
  have hsame : ∀ k, missedAt { s with line := line } k = missedAt s k := fun k => by rw [missedAt, hl, missedAt]
  unfold countMiss
  rw [hsame]
  split_ifs with h3
  · refine ⟨rfl, fun h => absurd h3 h, fun _ => ⟨?_, rfl⟩, fun k hk hne => ?_, rfl⟩
    · exact missedAt_setMissed_same h1 h62 0 { s with line := line }
    · exact (missedAt_setMissed_other hk h1 hne 0 { s with line := line }).trans (hsame k)
  · refine ⟨rfl, fun _ => ⟨?_, rfl⟩, fun h => absurd h h3, fun k hk hne => ?_, rfl⟩
    · exact missedAt_setMissed_same h1 h62 _ { s with line := line }
    · exact (missedAt_setMissed_other hk h1 hne _ { s with line := line }).trans (hsame k)

/-! ## Silence (R198 steps 2 and 4) -/

theorem replyBegun_eq_false (h : s.line.floorIn = [] ∨ s.line.early = true) : replyBegun s = false := by
  obtain h | h := h <;> simp [replyBegun, h]

theorem replyWindow_missed (ht : s.line.turn = some ⟨station, false⟩) (h : s.line.floorIn = [] ∨ s.line.early = true) :
    execReplyWindowExpiry s = .next (countMiss station (endTurn s)) := by
  simp only [execReplyWindowExpiry, ht, replyBegun_eq_false h, Bool.or_self, Bool.false_eq_true, if_false]

theorem replyWindow_kept {silence : Bool} (ht : s.line.turn = some ⟨station, silence⟩)
    (h : silence = true ∨ (s.line.floorIn ≠ [] ∧ s.line.early = false)) : execReplyWindowExpiry s = .next s := by
  have hkept : (silence || replyBegun s) = true := by
    obtain rfl | ⟨hin, hearly⟩ := h
    · rfl
    · simp [replyBegun, hin, hearly]
  simp only [execReplyWindowExpiry, ht, if_pos hkept]

/-! ## Frames outside their station's turn (R198 step 3) -/

theorem endReception_idle (h : s.line.floorIn = []) :
    endReception s = { s with line.carried := none, line.early := false } := by
  have hafter : afterFrame s.line.floorIn = s.line.floorIn := by
    rw [h]
    rfl
  have hearly : (s.line.early && decide (s.line.floorIn ≠ [])) = false := by simp [h]
  rw [endReception, hafter, hearly]

theorem endReception_whole {f : Frame} (hne : s.line.floorIn ≠ []) (h : s.line.floorIn <+: Frame.chars f) :
    endReception s = { s with line.floorIn := [], line.carried := none, line.early := false } := by
  rw [endReception, afterFrame_prefix hne h]
  simp

theorem sourceOk_floor {src : Nat} (h : 16 ≤ src ∧ src ≤ 62) : sourceOk .floor src = true := decide_eq_true h

theorem takeStray_outside {f : Frame} (hsrc : 16 ≤ f.src.toNat ∧ f.src.toNat ≤ 62) (ht : turnOfFrame s = .outside) :
    takeStray f s = endReception s := by
  have hn : answered f.src.toNat s = none := by simp only [answered, ht]
  rw [takeStray, if_pos ⟨sourceOk_floor hsrc, hn⟩, strayFrame, ht]

theorem takeStray_current {f : Frame} {t : Turn} (hsrc : 16 ≤ f.src.toNat ∧ f.src.toNat ≤ 62)
    (ht : turnOfFrame s = .current t) (hne : f.src.toNat ≠ t.station) :
    takeStray f s = countMiss t.station (endTurn (endReception s)) := by
  have hn : answered f.src.toNat s = none := by simp only [answered, ht, if_neg (Ne.symm hne)]
  rw [takeStray, if_pos ⟨sourceOk_floor hsrc, hn⟩, strayFrame, ht]

theorem turnOfFrame_outside (hc : s.line.carried = none) (h : s.line.turn = none ∨ s.line.early = true)
    (hne : s.line.floorIn ≠ []) : turnOfFrame s = .outside := by
  unfold turnOfFrame
  rw [if_neg hne, hc]
  obtain h | h := h <;> simp [h]

theorem turnOfFrame_cleared {k : Nat} (hc : s.line.carried = some k) (hne : s.line.floorIn ≠ []) :
    turnOfFrame s = .cleared k := by
  unfold turnOfFrame
  rw [if_neg hne, hc]

/-! ## A frame command at the floor port -/

theorem floorEvent_arrives {i : Instr} {f : Frame} (act : Frame → State → State) (hi : floorFrame i = some f)
    (h : floorArrival f s = true) : floorEvent i act s = .next (settle (act f s)) := by
  simp only [floorEvent, hi, h, if_true, event]

theorem floorEvent_elsewhere {i : Instr} {f : Frame} (act : Frame → State → State) (hi : floorFrame i = some f)
    (h : floorArrival f s = false) : floorEvent i act s = .next s := by
  simp [floorEvent, hi, h]

theorem bayFrame_elsewhere {i : Instr} {f : Frame} (act : Nat → State → State) (hi : floorFrame i = some f)
    (h : floorArrival f s = false) : bayFrame i act s = .next s := floorEvent_elsewhere _ hi h

theorem unitFrame_elsewhere {i : Instr} {f : Frame} (owner : Owner) (act : State → State) (hi : floorFrame i = some f)
    (h : floorArrival f s = false) : unitFrame i owner act s = .next s := floorEvent_elsewhere _ hi h

theorem exec_stray {f : Frame} (h : floorArrival f s = true) (hp : NoPassOwed (takeStray f s)) :
    exec (.strayFloorFrame f) s = .next (takeStray f s) := by
  have he : exec (.strayFloorFrame f) s = floorEvent (.strayFloorFrame f) takeStray s := rfl
  rw [he, floorEvent_arrives (f := f) _ rfl h, settle_of_noPass hp]

theorem floorArrival_iff {f : Frame} : floorArrival f s = true ↔
    s.line.floorIn <+: Frame.chars f ∨ Frame.chars f <+: s.line.floorIn := by
  simp [floorArrival, List.isPrefixOf_iff_prefix]

/-- A floor frame that is not the one in reception does not arrive (log 2). -/
theorem exec_elsewhere {i : Instr} {f : Frame} (hi : floorFrame i = some f) (h : floorArrival f s = false) :
    exec i s = .next s := by
  unfold exec
  cases i with
  | quiet => exact floorEvent_elsewhere _ hi h
  | started => exact bayFrame_elsewhere _ hi h
  | progress => exact bayFrame_elsewhere _ hi h
  | parked => exact bayFrame_elsewhere _ hi h
  | copyDone => exact bayFrame_elsewhere _ hi h
  | bayFault => exact bayFrame_elsewhere _ hi h
  | picked => exact unitFrame_elsewhere _ _ hi h
  | notFound => exact unitFrame_elsewhere _ _ hi h
  | chuted => exact unitFrame_elsewhere _ _ hi h
  | chuteFull => exact unitFrame_elsewhere _ _ hi h
  | chuteClear => exact unitFrame_elsewhere _ _ hi h
  | returnItem => exact unitFrame_elsewhere _ _ hi h
  | floorForward => exact floorEvent_elsewhere _ hi h
  | strayFloorFrame => exact floorEvent_elsewhere _ hi h
  | floorFrameNotTaken => exact floorEvent_elsewhere _ hi h
  | _ => cases hi

end Misses

/-! ## A frame that no unit takes (R178, R199) -/

section NotTaken

variable {s s1 : State} {station : Nat} {i : Instr} {f : Frame}

theorem InTurn.ownerOf (h : InTurn station s s1) (a : Nat) : ownerOf s1 a = Machine.ownerOf s a := by
  obtain ⟨-, -, -, -, rfl⟩ := h
  exact ownerOf_turn station a s

theorem InTurn.settled (h : InTurn station s s1) : settle s1 = s1 := settle_of_noPass h.passDue

theorem exec_inTurn {act : State → State} (hi : floorFrame i = some f) (h : InTurn f.src.toNat s s1)
    (hact : act s1 = s1) : floorEvent i (fun f => receiveFloor f.src.toNat act) s = .next s1 := by
  obtain ⟨-, hidle, -⟩ := id h
  rw [floorEvent_idle _ hi hidle, receiveFloor_inTurn act h, hact, h.settled]

theorem bayFrame_notTaken (act : Nat → State → State) (hi : floorFrame i = some f) (h : InTurn f.src.toNat s s1)
    (hn : s.management.mode = .setup ∨ ∀ b, ownerOf s f.src.toNat ≠ .bay b) : bayFrame i act s = .next s1 := by
  have htaken : takenByBay f.src.toNat act s1 = s1 := by
    unfold takenByBay
    rw [h.management, h.ownerOf]
    obtain hm | ho := hn
    · simp [hm]
    · split
      next hm hb => exact absurd hb (ho _)
      next => rfl
  obtain ⟨-, hidle, -⟩ := id h
  rw [bayFrame, floorEvent_idle _ hi hidle, receiveFloor_inTurn _ h, htaken, h.settled]

theorem unitFrame_notTaken {owner : Owner} (act : State → State) (hi : floorFrame i = some f) (h : InTurn f.src.toNat s s1)
    (hn : s.management.mode = .setup ∨ ownerOf s f.src.toNat ≠ owner) : unitFrame i owner act s = .next s1 := by
  have htaken : takenBy owner f.src.toNat act s1 = s1 := by
    refine if_neg ?_
    rw [h.management, h.ownerOf]
    rintro ⟨hm, ho⟩
    obtain hn | hn := hn
    · rw [hn] at hm
      cases hm
    · exact hn ho
  obtain ⟨-, hidle, -⟩ := id h
  rw [unitFrame, floorEvent_idle _ hi hidle, receiveFloor_inTurn _ h, htaken, h.settled]

/-- A frame the Line Interface drops ends the turn and does nothing else. -/
theorem notTaken_dropped (h : InTurn f.src.toNat s s1) (hd : floorFrameDropped s f = true) :
    exec (.floorFrameNotTaken f) s = .next s1 := by
  obtain ⟨-, hidle, -⟩ := id h
  have he : exec (.floorFrameNotTaken f) s = floorEvent (.floorFrameNotTaken f) takeDropped s := rfl
  rw [he, floorEvent_idle (f := f) _ rfl hidle, takeDropped, if_pos hd, receiveFloor_inTurn _ h, h.settled]

/-- The kinds that the owner of a source takes (R199). -/
def kindsTaken (owner : Owner) : List Byte :=
  match owner with
  | .bay _ => [97, 120, 121, 122, 123, 124]
  | .pickStation => [97, 136, 137]
  | .sorter => [97, 152, 153, 154]
  | .scanner => [97, 168]
  | .nobody => [97]

/-- A kind with a payload of its length (R202). -/
def WellFramed (f : Frame) : Prop :=
  (f.kind, f.payload.length) ∈
      [((97 : Byte), 0), (120, 6), (121, 5), (122, 5), (123, 7), (124, 1), (136, 6), (137, 2), (152, 2), (153, 3), (154, 1)] ∨
    (f.kind = 168 ∧
      f.payload.length = 11 + 2 * (presentChannels (BitVec.ofNat 16 (fieldAt f.payload 9 2))).length)

theorem kind_eq {n : Nat} (h : f.kind.toNat = n) : f.kind = byteOf n := by
  rw [← h]
  simp [byteOf]

theorem wellFramed_of_lengthOk (h : floorLengthOk f.kind.toNat f.payload = true) : WellFramed f := by
  unfold floorLengthOk at h
  split at h
  case h_13 => cases h
  case h_12 hk =>
    exact .inr ⟨kind_eq hk, by simpa [fieldAt] using h⟩
  all_goals
    next hk =>
    rw [beq_iff_eq] at h
    refine .inl ?_
    rw [kind_eq hk, h]
    decide

theorem kind_mem_of_ownerTakes {owner : Owner} (h : ownerTakes owner f.kind.toNat f.payload = true) :
    f.kind ∈ kindsTaken owner ∧ WellFramed f := by
  obtain ⟨hlength, hkind⟩ := (Bool.and_eq_true _ _).mp h
  have hin : ∀ {n}, f.kind.toNat = n → byteOf n ∈ kindsTaken owner → f.kind ∈ kindsTaken owner := fun hn hm => by
    rwa [kind_eq hn]
  refine ⟨?_, wellFramed_of_lengthOk hlength⟩
  cases owner with
  | bay b =>
    have hcases : f.kind.toNat = 97 ∨ f.kind.toNat = 120 ∨ f.kind.toNat = 121 ∨ f.kind.toNat = 122 ∨ f.kind.toNat = 123 ∨
        f.kind.toNat = 124 := by
      have := of_decide_eq_true hkind
      omega
    obtain h | h | h | h | h | h := hcases <;> exact hin h (by simp [kindsTaken, byteOf])
  | pickStation => obtain h | h | h := of_decide_eq_true hkind <;> exact hin h (by decide)
  | sorter =>
    have hcases : f.kind.toNat = 97 ∨ f.kind.toNat = 152 ∨ f.kind.toNat = 153 ∨ f.kind.toNat = 154 := by
      have := of_decide_eq_true hkind
      omega
    obtain h | h | h | h := hcases <;> exact hin h (by decide)
  | scanner => obtain h | h := of_decide_eq_true hkind <;> exact hin h (by decide)
  | nobody => exact hin (of_decide_eq_true hkind) (by decide)

theorem floorFrameDropped_floor (h : 16 ≤ f.dst.toNat) : floorFrameDropped s f = true := if_pos h

theorem floorFrameDropped_central (h : f.dst = 0)
    (hd : s.management.mode = .setup ∨ ownerOf s f.src.toNat = .nobody ∨
      ownerTakes (ownerOf s f.src.toNat) f.kind.toNat f.payload = false) : floorFrameDropped s f = true := by
  have h0 : f.dst.toNat = 0 := by
    rw [h]
    rfl
  rw [floorFrameDropped, h0, if_neg (by decide), if_pos rfl]
  obtain hd | hd | hd := hd <;> simp [hd]

/-! ## A frame to the office (R196) -/

theorem forward_taken {r : State} (hi : floorArrival f s = true) (hdst : 1 ≤ f.dst.toNat ∧ f.dst.toNat ≤ 15)
    (hsrc : 16 ≤ f.src.toNat ∧ f.src.toNat ≤ 62) (ha : answered f.src.toNat s = some r) :
    exec (.floorForward f) s = .next (settle (forwardToOffice f r)) := by
  have he : exec (.floorForward f) s = floorEvent (.floorForward f) takeForward s := rfl
  rw [he, floorEvent_arrives (f := f) _ rfl hi, takeForward, if_pos ⟨hdst.1, hdst.2, sourceOk_floor hsrc⟩, ha]

theorem forwardToOffice_free (h : s.line.forward = none) (f : Frame) :
    forwardToOffice f s = { reloadTimer f.src.toNat s with line.forward := some f } := by
  simp only [forwardToOffice, h]

theorem forwardToOffice_full (h : s.line.forward ≠ none) (f : Frame) :
    forwardToOffice f s = recordFault .floor (causeBit .overrun) s := by
  unfold forwardToOffice
  split
  next hn => exact absurd hn h
  next => rfl

theorem InTurn.answered (h : InTurn station s s1) :
    Machine.answered station s = some (setMissed station 0 (endTurn (endReception s))) := by
  obtain ⟨-, hidle, -, ⟨silence, ht⟩, -⟩ := h
  simp only [Machine.answered, turnOfFrame_idle hidle, ht, if_true]

end NotTaken

end Sys2Proof.Machine

open Sys2Proof Sys2Proof.Machine in
/-- Settles O60: a turn's end by silence, by a frame of another station and by its own, and the characters of a frame that
completes with none of its own turn. -/
theorem replyTurnsEnd : Obligations.ReplyTurnsEnd := by
  refine ⟨fun s station h1 h62 => ?_, fun s s1 => ?_, fun s f hne hprefix h1 h62 hp => ?_,
    fun s f rest hin hd hl h1 h62 hp hc hturn => ?_, fun s i f hi hno hno' => ?_⟩
  · intro missed
    refine ⟨fun ht => ⟨fun hin => ?_, fun hin hearly => replyWindow_kept ht (.inr ⟨hin, hearly⟩), ?_⟩,
      fun ht => ⟨?_, replyWindow_kept ht (.inl rfl)⟩, fun f hp ⟨silence, ht⟩ hin hs1 hs62 hne => ?_,
      fun f hp ht hin hs1 hs62 => ?_⟩
    · exact ⟨_, replyWindow_missed ht hin, countMiss_counted (line := { s.line with turn := none }) h1 h62 rfl⟩
    · show execTurnSilenceExpiry s = _
      simp only [execTurnSilenceExpiry, ht, Bool.false_eq_true, if_false]
    · show execTurnSilenceExpiry s = _
      simp only [execTurnSilenceExpiry, ht, if_true]
      rfl
    · have hcurrent : turnOfFrame s = .current ⟨station, silence⟩ := by
        rw [turnOfFrame_idle hin, ht]
      have hcounted := countMiss_counted (s := s) (line := { s.line with turn := none, carried := none, early := false })
        h1 h62 rfl
      have htaken := takeStray_current ⟨hs1, hs62⟩ hcurrent hne
      rw [endReception_idle hin] at htaken
      refine ⟨_, (exec_stray (floorArrival_idle f hin) ?_).trans (congrArg Host.Outcome.next htaken), hcounted⟩
      obtain ⟨-, -, -, -, hframe⟩ := hcounted
      rw [htaken]
      exact (congrArg State.passDue hframe).trans hp
    · have houtside : turnOfFrame s = .outside := by
        rw [turnOfFrame_idle hin, ht]
      have htaken := takeStray_outside ⟨hs1, hs62⟩ houtside
      rw [endReception_idle hin] at htaken
      refine (exec_stray (floorArrival_idle f hin) ?_).trans (congrArg Host.Outcome.next htaken)
      rw [htaken]
      exact hp
  · intro kindsOf formed
    refine ⟨fun src h => ?_, fun src h => ⟨fun hn => ?_, fun hn consignment serial => ?_, fun hn consignment chute => ?_,
      fun hn consignment postDay part serial presence readings => ?_⟩, fun f h => ⟨fun hd => ?_, fun hdst hn => ?_,
      fun hlow hhigh => ⟨fun hfree => ?_, fun hfull => ?_⟩⟩⟩
    · show execQuiet src s = _
      exact exec_inTurn rfl h rfl
    · refine ⟨fun job serial => ?_, fun job blocks => ⟨?_, ?_⟩, fun job serial result => ?_, fun code => ?_⟩
      · show execStarted src job serial s = _
        exact bayFrame_notTaken _ rfl h hn
      · show execProgress src job blocks s = _
        exact bayFrame_notTaken _ rfl h hn
      · show execParked src job blocks s = _
        exact bayFrame_notTaken _ rfl h hn
      · show execCopyDone src job serial result s = _
        exact bayFrame_notTaken _ rfl h hn
      · show execBayFault src code s = _
        exact bayFrame_notTaken _ rfl h hn
    · refine ⟨?_, ?_⟩
      · show execPicked src consignment serial s = _
        exact unitFrame_notTaken _ rfl h hn
      · show execNotFound src consignment s = _
        exact unitFrame_notTaken _ rfl h hn
    · refine ⟨?_, ?_, ?_⟩
      · show execChuted src consignment s = _
        exact unitFrame_notTaken _ rfl h hn
      · show execChuteFull src consignment chute s = _
        exact unitFrame_notTaken _ rfl h hn
      · show execChuteClear src chute s = _
        exact unitFrame_notTaken _ rfl h hn
    · show execReturnItem src consignment postDay part serial presence readings s = _
      exact unitFrame_notTaken _ rfl h hn
    · refine notTaken_dropped h ?_
      obtain hd | ⟨hdst, hm⟩ | ⟨hdst, ho⟩ := hd
      · exact floorFrameDropped_floor hd
      · exact floorFrameDropped_central hdst (.inl hm)
      · exact floorFrameDropped_central hdst (.inr (.inl ho))
    · refine notTaken_dropped h (floorFrameDropped_central hdst (.inr (.inr ?_)))
      rw [← Bool.not_eq_true]
      intro htakes
      obtain ⟨hkind, hformed⟩ := kind_mem_of_ownerTakes htakes
      exact hn.elim (fun hnot => hnot hkind) fun hnot => hnot hformed
    all_goals
      obtain ⟨-, hidle, hsrc, -, hs1⟩ := id h
      have hexec := forward_taken (floorArrival_idle f hidle) ⟨hlow, hhigh⟩ hsrc h.answered
    · rw [forwardToOffice_free (s := setMissed f.src.toNat 0 (endTurn (endReception s))) hfree, ← hs1] at hexec
      exact hexec.trans (congrArg Host.Outcome.next (settle_of_noPass h.passDue))
    · rw [forwardToOffice_full (s := setMissed f.src.toNat 0 (endTurn (endReception s))) hfull] at hexec
      exact hexec.trans (congrArg Host.Outcome.next (settle_of_noPass h.1))
  · intro done
    have harrival : floorArrival f s = true := floorArrival_iff.mpr (.inl hprefix)
    have hended := endReception_whole hne hprefix
    refine ⟨fun hc hlow hhigh hfree => ?_, fun hc hturn => ?_⟩
    · have hanswered : answered f.src.toNat s = some done := by
        simp only [answered, turnOfFrame_cleared hc hne, if_true, hended]
        rfl
      have hexec := forward_taken harrival ⟨hlow, hhigh⟩ ⟨h1, h62⟩ hanswered
      rw [forwardToOffice_free (s := done) hfree] at hexec
      refine hexec.trans (congrArg Host.Outcome.next (settle_of_noPass ?_))
      exact (congrArg State.passDue (reloadTimer_frame f.src.toNat done)).trans hp
    · have htaken := (takeStray_outside ⟨h1, h62⟩ (turnOfFrame_outside hc hturn hne)).trans hended
      refine (exec_stray harrival ?_).trans (congrArg Host.Outcome.next htaken)
      rw [htaken]
      exact hp
  · have hne : s.line.floorIn ≠ [] := by
      rw [hin]
      exact List.cons_ne_nil _ _
    have harrival : floorArrival f s = true := by
      rw [floorArrival_iff, hin]
      exact .inr (List.prefix_append _ _)
    have htaken := takeStray_outside ⟨h1, h62⟩ (turnOfFrame_outside hc hturn hne)
    rw [endReception, hin, afterFrame_chars hd hl, ← hc] at htaken
    refine (exec_stray harrival ?_).trans (congrArg Host.Outcome.next htaken)
    rw [htaken]
    exact hp
  · refine exec_elsewhere hi ?_
    rw [← Bool.not_eq_true, floorArrival_iff]
    exact not_or.mpr ⟨hno, hno'⟩
end

