-- ==== Sys2Proof/Proofs/NextState.lean ====
section
/-! PROOFS. Every step answers a next state, owes no placement pass and leaves no request unanswered (R80, R194). -/

namespace Sys2Proof.Machine

/-! ## What owes no pass and begins no request -/

section Due

variable {s t u : State}

/-- The pass owed and the REPLY due are those of `s`. -/
structure SameDue (s t : State) : Prop where
  pass : t.passDue = s.passDue
  reply : t.line.answering = s.line.answering

theorem SameDue.refl (s : State) : SameDue s s := ⟨rfl, rfl⟩

theorem SameDue.trans (h : SameDue s t) (g : SameDue t u) : SameDue s u :=
  ⟨g.pass.trans h.pass, g.reply.trans h.reply⟩

theorem WorkChange.reply (h : WorkChange s t) : t.line.answering = s.line.answering := by rw [h.line]

/-! ## The Line Interface's operations on frames -/

theorem recordFault_due (p : Port) (c : Byte) (s : State) : SameDue s (recordFault p c s) := by
  cases p <;> exact ⟨rfl, rfl⟩

theorem countMiss_due (k : Nat) (s : State) : SameDue s (countMiss k s) := by
  unfold countMiss
  split_ifs <;> exact ⟨rfl, rfl⟩

theorem reloadTimer_due (k : Nat) (s : State) : SameDue s (reloadTimer k s) := by
  rw [reloadTimer_frame]
  exact ⟨rfl, rfl⟩

theorem strayFrame_due (s : State) : SameDue s (strayFrame s) := by
  unfold strayFrame
  split
  · exact (⟨rfl, rfl⟩ : SameDue s (endTurn (endReception s))).trans (countMiss_due _ _)
  · exact ⟨rfl, rfl⟩
  · exact ⟨rfl, rfl⟩

theorem badSourceFrame_due (s : State) : SameDue s (badSourceFrame s) :=
  (recordFault_due .floor _ s).trans (strayFrame_due _)

theorem answered_due {k : Nat} (h : answered k s = some t) : SameDue s t := by
  unfold answered at h
  split at h
  · split_ifs at h
    cases h
    exact ⟨rfl, rfl⟩
  · split_ifs at h
    cases h
    exact ⟨rfl, rfl⟩
  · cases h

theorem faultInTurn_due (c : Byte) (s : State) : SameDue s (faultInTurn c s) := by
  unfold faultInTurn
  split
  · split_ifs <;> exact ⟨rfl, rfl⟩
  · exact ⟨rfl, rfl⟩
  · exact ⟨rfl, rfl⟩

theorem joinOffice_due (f : Frame) (s : State) : SameDue s (joinOffice f s) := by
  unfold joinOffice
  split_ifs
  · exact ⟨rfl, rfl⟩
  · exact ⟨rfl, rfl⟩
  · exact recordFault_due .office _ s

theorem receiveFrames_due (n : Nat) (run : List Chr) (s : State) : SameDue s (receiveFrames n run s) := by
  induction n generalizing run s with
  | zero =>
    unfold receiveFrames
    exact ⟨rfl, rfl⟩
  | succ n ih =>
    unfold receiveFrames
    cases receiveAt .office run with
    | incomplete => exact ⟨rfl, rfl⟩
    | frame f => exact (joinOffice_due f s).trans (ih _ _)
    | fault c =>
      have hlost : SameDue s { s with line.officeLost := false } := ⟨rfl, rfl⟩
      exact (hlost.trans (recordFault_due .office c _)).trans (ih _ _)

theorem cutOfficeFrame_due (s : State) : SameDue s (cutOfficeFrame s) := by
  unfold cutOfficeFrame
  split_ifs <;> exact ⟨rfl, rfl⟩

theorem discardOffice_due (run : List Chr) (s : State) : SameDue s (discardOffice run s) := by
  unfold discardOffice
  split
  · exact receiveFrames_due _ run s
  · exact receiveFrames_due _ run s
  · exact .refl s

theorem floorFault_due (run : List Chr) (c : Byte) (s : State) : SameDue s (floorFault run c s) := by
  have hfault := (recordFault_due .floor c s).trans (faultInTurn_due c _)
  unfold floorFault
  split
  · exact badSourceFrame_due s
  · exact hfault
  · exact hfault

theorem discardFloor_due (run : List Chr) (s : State) : SameDue s (discardFloor run s) := by
  unfold discardFloor
  split
  next c _ =>
    have hfault := floorFault_due run c s
    exact ⟨hfault.pass, hfault.reply⟩
  next => exact ⟨rfl, rfl⟩
  next => exact .refl s

theorem discardAt_due (p : Port) (cs : List Chr) (s : State) : SameDue s (discardAt p cs s) := by
  cases p with
  | office => exact discardOffice_due _ s
  | floor => exact discardFloor_due _ s

/-! ## Frames taken on the floor -/

theorem receiveFloor_reply (k : Nat) {act : State → State}
    (ha : ∀ v, (act v).line.answering = v.line.answering) (s : State) :
    (receiveFloor k act s).line.answering = s.line.answering := by
  unfold receiveFloor
  split_ifs
  · exact (badSourceFrame_due s).reply
  split
  next v hv => exact (ha _).trans ((answered_due hv).trans (reloadTimer_due k v)).reply
  next => exact (strayFrame_due s).reply

theorem takeForward_reply (f : Frame) (s : State) : (takeForward f s).line.answering = s.line.answering := by
  unfold takeForward
  split_ifs
  · split
    next v hv =>
      have htaken := answered_due hv
      unfold forwardToOffice
      split
      · exact (htaken.trans (reloadTimer_due f.src.toNat v)).reply
      · exact (htaken.trans (recordFault_due .floor _ v)).reply
    next => exact (strayFrame_due s).reply
  · rfl

theorem takeStray_reply (f : Frame) (s : State) : (takeStray f s).line.answering = s.line.answering := by
  unfold takeStray
  split_ifs
  · exact (strayFrame_due s).reply
  · rfl

theorem takeDropped_reply (f : Frame) (s : State) : (takeDropped f s).line.answering = s.line.answering := by
  unfold takeDropped
  split_ifs
  · exact receiveFloor_reply _ (fun _ => rfl) s
  · rfl

/-! ## The item in inspection -/

theorem sendVerdict_reply (i : ReturnItem) (v : ItemVerdict) (d : Divert) (e : ExceptionCause) (s : State) :
    (sendVerdict i v d e s).line.answering = s.line.answering := rfl

theorem judgeItem_reply (i : ReturnItem) (c : Consignment) (s : State) :
    (judgeItem i c s).line.answering = s.line.answering := by
  have hd := (dispose_work i.consignment c (verdictOf s.returns i c.weight)
    { s with returns := recordChannels i c.weight s.returns }).reply
  unfold judgeItem
  simp only
  split_ifs
  · exact (sendVerdict_reply i _ _ _ _).trans hd
  · exact (sendVerdict_reply i _ _ _ _).trans hd

theorem completeItem_reply (i : ReturnItem) (s : State) : (completeItem i s).line.answering = s.line.answering := by
  unfold completeItem
  refine (finishInspection_work _).reply.trans ?_
  cases matchItem s i with
  | ok c => exact judgeItem_reply i c s
  | error e => rfl

end Due

/-! ## Commands that answer a next state -/

section Rests

variable {s t : State} {i : Instr}

/-- A command's outcome is a next state, with no pass owed and no request unanswered. -/
def Rests (s : State) (r : Result) : Prop :=
  ∃ t, r = .next t ∧ NoPassOwed t ∧ (s.line.answering = false → t.line.answering = false)

theorem SameDue.rests (hp : NoPassOwed s) (h : SameDue s t) : Rests s (.next t) :=
  ⟨t, rfl, h.pass.trans hp, h.reply.trans⟩

theorem rests_self (hp : NoPassOwed s) : Rests s (.next s) := (SameDue.refl s).rests hp

theorem request_rests (act : State → Answer) (hp : NoPassOwed s) : Rests s (request i s act) := by
  unfold request
  split
  · exact rests_self hp
  · split
    · exact rests_self hp
    · exact ⟨_, rfl, settle_noPass _, fun _ => rfl⟩

/-- The pass that an event owes is taken at its end. -/
theorem settle_rests (h : t.line.answering = s.line.answering) : Rests s (.next (settle t)) :=
  ⟨_, rfl, settle_noPass t, fun hs => ((settle_work t).reply.trans h).trans hs⟩

theorem WorkChange.rests (h : WorkChange s t) : Rests s (.next (settle t)) := settle_rests h.reply

theorem floorEvent_rests {act : Frame → State → State} (hp : NoPassOwed s)
    (ha : ∀ f v, (act f v).line.answering = v.line.answering) : Rests s (floorEvent i act s) := by
  unfold floorEvent
  split
  · exact rests_self hp
  · split_ifs
    · exact settle_rests (ha _ s)
    · exact rests_self hp

theorem bayFrame_rests {act : Nat → State → State} (hp : NoPassOwed s) (ha : ∀ b v, WorkChange v (act b v)) :
    Rests s (bayFrame i act s) :=
  floorEvent_rests hp fun f => receiveFloor_reply _ fun v => by
    unfold takenByBay
    split
    · exact (ha _ v).reply
    · rfl

theorem unitFrame_rests {owner : Owner} {act : State → State} (hp : NoPassOwed s) (ha : ∀ v, WorkChange v (act v)) :
    Rests s (unitFrame i owner act s) :=
  floorEvent_rests hp fun f => receiveFloor_reply _ fun v => by
    unfold takenBy
    split_ifs
    · exact (ha v).reply
    · rfl

/-! ## The part's own steps -/

theorem fullReset_rests (s : State) : Rests s (.next (fullReset s)) := ⟨_, rfl, rfl, fun _ => rfl⟩

theorem execResetAfterReply_rests (hp : NoPassOwed s) : Rests s (execResetAfterReply s) := by
  unfold execResetAfterReply
  split_ifs
  · exact fullReset_rests s
  · exact rests_self hp

theorem execOfficeRateChange_rests (hp : NoPassOwed s) : Rests s (execOfficeRateChange s) := by
  unfold execOfficeRateChange
  split
  · exact rests_self hp
  · split_ifs
    · refine SameDue.rests hp (.trans ?_ (cutOfficeFrame_due _))
      exact ⟨rfl, rfl⟩
    · exact rests_self hp

theorem execFloorRateChange_rests (hp : NoPassOwed s) : Rests s (execFloorRateChange s) := by
  unfold execFloorRateChange
  split
  · exact rests_self hp
  · split_ifs
    · exact SameDue.rests hp ⟨rfl, rfl⟩
    · exact rests_self hp

theorem execUnlistedManagementKind_rests {src kind : Byte} {payload : List Byte} (hp : NoPassOwed s) :
    Rests s (execUnlistedManagementKind src kind payload s) := by
  unfold execUnlistedManagementKind
  split
  · exact rests_self hp
  · exact request_rests _ hp

theorem expire_rests (b : Nat) (s : State) : Rests s (.next (expire s b)) := (faultBay_work b .stall s).rests

theorem execStallExpiry_rests {bay : Byte} (hp : NoPassOwed s) : Rests s (execStallExpiry bay s) := by
  unfold execStallExpiry
  split_ifs
  · exact expire_rests bay.toNat (passSeconds _ s)
  · exact rests_self hp

theorem execOwedReturnAnswer_rests (hp : NoPassOwed s) : Rests s (execOwedReturnAnswer s) := by
  unfold execOwedReturnAnswer
  split
  · exact rests_self hp
  · split_ifs
    · exact SameDue.rests hp ⟨rfl, rfl⟩
    · exact rests_self hp

theorem execInspectionCompletion_rests (hp : NoPassOwed s) : Rests s (execInspectionCompletion s) := by
  unfold execInspectionCompletion
  split
  · exact rests_self hp
  · split_ifs
    · exact settle_rests (completeItem_reply _ s)
    · exact rests_self hp

theorem execSweepStep_rests (hp : NoPassOwed s) : Rests s (execSweepStep s) := by
  unfold execSweepStep
  split_ifs
  · exact ((examineRecord_work _ s).trans (advanceSweep_work _)).rests
  · exact rests_self hp

theorem execOwedCommandHandOn_rests (hp : NoPassOwed s) : Rests s (execOwedCommandHandOn s) := by
  unfold execOwedCommandHandOn
  split
  · exact rests_self hp
  · split
    · exact rests_self hp
    · split_ifs
      · exact SameDue.rests hp ⟨rfl, rfl⟩
      · exact SameDue.rests hp ⟨rfl, rfl⟩
      · exact rests_self hp

/-! ## The ports -/

theorem execOfficeFrameReceive_rests {chars : List Chr} (hp : NoPassOwed s) : Rests s (execOfficeFrameReceive chars s) := by
  unfold execOfficeFrameReceive
  simp only
  split
  · exact (receiveFrames_due _ _ s).rests hp
  · exact (receiveFrames_due _ _ s).rests hp
  · exact rests_self hp

theorem execOfficePeerFrame_rests (hp : NoPassOwed s) : Rests s (execOfficePeerFrame s) := by
  unfold execOfficePeerFrame
  split
  · exact rests_self hp
  · split_ifs
    · exact SameDue.rests hp ⟨rfl, rfl⟩
    · exact rests_self hp

theorem execForwardToFloor_rests (hp : NoPassOwed s) : Rests s (execForwardToFloor s) := by
  unfold execForwardToFloor
  split
  · exact rests_self hp
  · split_ifs
    · exact rests_self hp
    · exact SameDue.rests hp ⟨rfl, rfl⟩
    · exact rests_self hp
    · exact SameDue.rests hp ⟨rfl, rfl⟩
    · exact rests_self hp

theorem execSendReply_rests (hp : NoPassOwed s) : Rests s (execSendReply s) := by
  unfold execSendReply
  split
  · exact rests_self hp
  · split_ifs
    · exact SameDue.rests hp ⟨rfl, rfl⟩
    · exact rests_self hp

theorem execSendForwardedFrame_rests (hp : NoPassOwed s) : Rests s (execSendForwardedFrame s) := by
  unfold execSendForwardedFrame
  split
  · split_ifs
    · exact SameDue.rests hp ⟨rfl, rfl⟩
    · exact rests_self hp
  · exact rests_self hp

theorem execNotice_rests (hp : NoPassOwed s) : Rests s (execNotice s) := by
  unfold execNotice
  split
  · split_ifs
    · exact SameDue.rests hp ⟨rfl, rfl⟩
    · exact rests_self hp
  · exact rests_self hp

theorem execFloorSend_rests (hp : NoPassOwed s) : Rests s (execFloorSend s) := by
  unfold execFloorSend
  split
  · exact rests_self hp
  · split_ifs
    · exact SameDue.rests hp ⟨rfl, rfl⟩
    · exact rests_self hp

theorem execPoll_rests (hp : NoPassOwed s) : Rests s (execPoll s) := by
  unfold execPoll
  split
  · exact rests_self hp
  · split_ifs
    · exact SameDue.rests hp ⟨rfl, rfl⟩
    · exact rests_self hp

theorem execReplyTurnGrant_rests (hp : NoPassOwed s) : Rests s (execReplyTurnGrant s) := by
  unfold execReplyTurnGrant
  split
  · exact rests_self hp
  · split_ifs
    · exact SameDue.rests hp ⟨rfl, rfl⟩
    · exact SameDue.rests hp ⟨rfl, rfl⟩
    · exact rests_self hp

theorem execReplyWindowExpiry_rests (hp : NoPassOwed s) : Rests s (execReplyWindowExpiry s) := by
  unfold execReplyWindowExpiry
  split
  · exact rests_self hp
  · split_ifs
    · exact rests_self hp
    · exact ((⟨rfl, rfl⟩ : SameDue s (endTurn s)).trans (countMiss_due _ _)).rests hp

theorem execTurnSilenceExpiry_rests (hp : NoPassOwed s) : Rests s (execTurnSilenceExpiry s) := by
  unfold execTurnSilenceExpiry
  split
  · exact rests_self hp
  · split_ifs
    · exact SameDue.rests hp ⟨rfl, rfl⟩
    · exact rests_self hp

/-! ## Every command -/

/-- A request ends with its REPLY, an event with its pass; the steps of the lines owe neither. -/
theorem exec_rests (i : Instr) (hp : NoPassOwed s) : Rests s (exec i s) := by
  unfold exec
  cases i with
  | resetPin | powerOn => exact fullReset_rests s
  | resetAfterReply => exact execResetAfterReply_rests hp
  | reset | restart | setGeometry | setClass | setLines | setDay | openService | setSetting | loadPatron | loadAgency
  | loadTitle | readRecord | setBay | bayOnline | bayOffline | buildStock | raiseJob | flushPack | day | setWindow
  | releaseManifest | readManifest | readDispatch | setChannel | setThreshold | inspectSuspend | inspectResume | clearHits
  | readInspection | readChannel | stockAdd | stockAddTitle | repaired | retireRepair | declareLost | readStock | readDay
  | readSetup | clearLineFaults | readLines | setMask | readNotices | order | probe | cancel => exact request_rests _ hp
  | unlistedManagementKind => exact execUnlistedManagementKind_rests hp
  | officeRateChange => exact execOfficeRateChange_rests hp
  | floorRateChange => exact execFloorRateChange_rests hp
  | stallExpiry => exact execStallExpiry_rests hp
  | started => exact bayFrame_rests hp fun b v => takeStarted_work _ _ b v
  | progress => exact bayFrame_rests hp fun b v => takeProgress_work _ _ b v
  | parked => exact bayFrame_rests hp fun b v => takeParked_work _ _ b v
  | copyDone => exact bayFrame_rests hp fun b v => takeCopyDone_work _ _ _ b v
  | bayFault => exact bayFrame_rests hp fun b v => takeBayFault_work _ b v
  | pick => exact (handPick_work _ s).rests
  | picked => exact unitFrame_rests hp fun v => takePicked_work _ _ v
  | notFound => exact unitFrame_rests hp fun v => (takeNotFound_change _ v).work
  | releasePass => exact (passReleases_work s).rests
  | chuted => exact unitFrame_rests hp fun v => takeChuted_work _ v
  | chuteFull => exact unitFrame_rests hp fun v => takeChuteFull_work _ _ v
  | chuteClear => exact unitFrame_rests hp fun v => takeChuteClear_work _ v
  | returnItem => exact unitFrame_rests hp fun v => takeReturnItem_if_work _ _ v
  | owedReturnAnswer => exact execOwedReturnAnswer_rests hp
  | inspectionCompletion => exact execInspectionCompletion_rests hp
  | sweepStep => exact execSweepStep_rests hp
  | owedCommandHandOn => exact execOwedCommandHandOn_rests hp
  | officeFrameReceive => exact execOfficeFrameReceive_rests hp
  | officePeerFrame => exact execOfficePeerFrame_rests hp
  | forwardToFloor => exact execForwardToFloor_rests hp
  | frameDiscard port chars => exact (discardAt_due port chars s).rests hp
  | floorForward => exact floorEvent_rests hp takeForward_reply
  | strayFloorFrame => exact floorEvent_rests hp takeStray_reply
  | floorFrameNotTaken => exact floorEvent_rests hp takeDropped_reply
  | quiet => exact floorEvent_rests hp fun f => receiveFloor_reply _ fun _ => rfl
  | sendReply => exact execSendReply_rests hp
  | sendForwardedFrame => exact execSendForwardedFrame_rests hp
  | notice => exact execNotice_rests hp
  | floorSend => exact execFloorSend_rests hp
  | poll => exact execPoll_rests hp
  | replyTurnGrant => exact execReplyTurnGrant_rests hp
  | replyWindowExpiry => exact execReplyWindowExpiry_rests hp
  | turnSilenceExpiry => exact execTurnSilenceExpiry_rests hp

/-- A second on an empty queue ends with the pass of its last expiry, if any. -/
theorem foldl_expire_rests (bs : List Nat) (hp : NoPassOwed s) : Rests s (.next (bs.foldl expire s)) := by
  induction bs generalizing s with
  | nil => exact rests_self hp
  | cons b bs ih =>
    obtain ⟨t, ht, hpass, hreply⟩ := expire_rests b s
    cases ht
    obtain ⟨u, hu, hupass, hureply⟩ := ih hpass
    exact ⟨u, hu, hupass, hureply ∘ hreply⟩

end Rests

end Sys2Proof.Machine

open Sys2Proof Sys2Proof.Machine in
/-- Settles O14: command by command, and over the expiries of a second on an empty queue. -/
theorem everyStepAnswersANextState : Obligations.EveryStepAnswersANextState := by
  intro s hp
  show Rests s (step s)
  unfold step
  split
  · exact foldl_expire_rests _ (s := passSeconds 1 s) hp
  next c rest _ => exact exec_rests (s := s.withPending rest) c hp
end

