-- ==== Sys2Proof/Proofs/ClassStock.lean ====
section
/-! PROOFS. The stock of a class stands while requests are allocated, holds are evaluated and jobs are placed: a movement takes
cartridges from one count of the class to another (R148, R151). -/

namespace Sys2Proof.Machine

section Stock

variable {s t u : State}

theorem ClassAccount.move_stock (src dst : Place) (n : Nat) (a : ClassAccount) :
    (ClassAccount.move src dst n a).stock = a.stock := by
  have hset : ∀ (a : ClassAccount) p m, (a.setCount p m).stock = a.stock := fun a p m => by cases p <;> rfl
  unfold ClassAccount.move
  split_ifs
  · rw [hset, hset]
  · rfl

/-- The stock of every class is that of `s`. -/
def StockKept (s t : State) : Prop := ∀ d, (accountAt t d).stock = (accountAt s d).stock

theorem StockKept.refl (s : State) : StockKept s s := fun _ => rfl

theorem StockKept.trans (h : StockKept s t) (g : StockKept t u) : StockKept s u := fun d => (g d).trans (h d)

theorem StockKept.of_accounts (h : t.accounts = s.accounts) : StockKept s t := fun d => by
  rw [accountAt, h, accountAt]

theorem StockKept.foldl {β : Type} {step : State → β → State} (h : ∀ s b, StockKept s (step s b)) (l : List β) (s : State) :
    StockKept s (l.foldl step s) := by
  induction l generalizing s with
  | nil => exact .refl s
  | cons b l ih => exact (h s b).trans (ih _)

theorem StockKept.move (c : Nat) (src dst : Place) (n : Nat) (s : State) :
    StockKept s (modAccount c (ClassAccount.move src dst n) s) := fun d => by
  rw [accountAt_modAccount]
  split_ifs
  · exact ClassAccount.move_stock src dst n _
  · rfl

/-! ## Allocation (R37 to R42) -/

theorem createParts_accounts (n i k : Nat) (plan : BraillePlan) (v w : Nat) (base : Consignment) (s : State) :
    (createParts n i k plan v w base s).accounts = s.accounts := by
  induction n generalizing i s with
  | zero => rfl
  | succ n ih =>
    unfold createParts
    split
    · rfl
    · exact ih _ _

theorem sealPack_accounts (k : Nat) (s : State) : (sealPack k s).accounts = s.accounts := by rw [(sealPack_kept k s).frame]

theorem examineClose_accounts (n : Nat) (s : State) : (examineClose n s).accounts = s.accounts := by
  rw [(examineClose_kept n s).frame]

theorem allocateOnDemand_accounts (r : Nat) (q : Request) (p : Patron) (x : Title) (s : State) :
    (allocateOnDemand r q p x s).2.accounts = s.accounts := by
  have hopened : ∀ k b u, (openPackAt k r b q p u).accounts = u.accounts := fun k b u => examineClose_accounts _ _
  unfold allocateOnDemand
  split
  · split_ifs
    · exact examineClose_accounts _ _
    · split
      · rfl
      · exact (hopened _ _ _).trans (sealPack_accounts _ s)
  · split
    · rfl
    · exact hopened _ _ s

theorem allocateShelf_stock (r : Nat) (q : Request) (p : Patron) (x : Title) (s : State) :
    StockKept s (allocateShelf r q p x s).2 := by
  unfold allocateShelf
  split
  · exact .refl s
  · refine .trans ?_ (.of_accounts (examineClose_accounts _ _))
    exact StockKept.trans (t := takeCopy q.title (createOnChain _ _ (freeRequest r q s))) (.of_accounts rfl)
      (.move x.shelfClass .shelf .consigned 1 _)

theorem allocateBraille_accounts (r : Nat) (q : Request) (p : Patron) (x : Title) (s : State) :
    (allocateBraille r q p x s).2.accounts = s.accounts := by
  unfold allocateBraille
  simp only
  split
  · rfl
  · split_ifs
    · rfl
    · exact (examineClose_accounts _ _).trans (createParts_accounts _ _ _ _ _ _ _ _)

theorem allocateKind_stock (r : Nat) (q : Request) (p : Patron) (x : Title) (s : State) :
    StockKept s (allocateKind r q p x s).2 := by
  unfold allocateKind
  split
  · exact .of_accounts (allocateOnDemand_accounts r q p x s)
  · split_ifs
    · exact .refl s
    · split
      · exact allocateShelf_stock r q p x s
      · exact .of_accounts (allocateBraille_accounts r q p x s)

theorem noteExhausted_accounts (n : Nat) (a : Attempt × State) : (noteExhausted n a).2.accounts = a.2.accounts := by
  unfold noteExhausted
  split <;> rfl

theorem attempt_stock (r : Nat) (s : State) : StockKept s (attempt r s).2 := by
  unfold attempt
  split
  · exact .refl s
  split
  · split_ifs
    · exact (allocateKind_stock _ _ _ _ s).trans (.of_accounts (noteExhausted_accounts _ _))
    · exact .refl s
  · exact .refl s

theorem headroom_stock (n : Nat) (s : State) : StockKept s (headroom n s) := by
  unfold headroom
  split
  · exact .refl s
  · exact .foldl (fun s r => attempt_stock r s) _ s

/-! ## Placement (R80 to R82) -/

theorem tryPlace_stock (s : State) (j : Nat) : StockKept s (tryPlace s j) := by
  cases hj : Table.get s.scheduler.jobs j with
  | none => simpa only [tryPlace, hj] using StockKept.refl s
  | some job =>
    have hplaced : ∀ b, StockKept s (placeOn b j s) := fun b d => by
      rw [accountAt, placeOn_accounts hj]
      exact StockKept.move job.cartridgeClass .blank .reserved 1 s d
    simp only [tryPlace, hj]
    split_ifs
    · exact .refl s
    split
    · exact hplaced _
    split
    · exact .of_accounts (by rw [preemptOn_frame hj])
    · exact .refl s

theorem settle_stock (s : State) : StockKept s (settle s) := by
  unfold settle
  split_ifs
  · exact StockKept.foldl tryPlace_stock _ s
  · exact .refl s

end Stock

/-! ## What the end of a loan leaves of the other units -/

section Kept

variable {s t u : State} {c : Consignment}

/-- The return unit, the dispatch unit, the days and the stock of every class are those of `s`. -/
structure ReturnKept (s t : State) : Prop where
  returns : t.returns = s.returns
  dispatch : t.dispatch = s.dispatch
  days : t.days = s.days
  stock : StockKept s t

theorem ReturnKept.trans (h : ReturnKept s t) (g : ReturnKept t u) : ReturnKept s u :=
  ⟨g.returns.trans h.returns, g.dispatch.trans h.dispatch, g.days.trans h.days, h.stock.trans g.stock⟩

theorem headroom_kept (n : Nat) (s : State) : ReturnKept s (headroom n s) :=
  ⟨(headroom_change n s).returns, (headroom_change n s).dispatch, (headroom_change n s).days, headroom_stock n s⟩

theorem freeConsignment_kept (k : Nat) (s : State) : ReturnKept s (freeConsignment k s) := by
  rw [freeConsignment_frame]
  exact ⟨rfl, rfl, rfl, .refl s⟩

theorem modPatron_kept (n : Nat) (f : Patron → Patron) (s : State) : ReturnKept s (modPatron n f s) :=
  ⟨rfl, rfl, rfl, .refl s⟩

theorem evaluateHeld_kept (n : Nat) (s : State) : ReturnKept s (evaluateHeld n s) := by
  unfold evaluateHeld
  split
  · exact ⟨rfl, rfl, rfl, .refl s⟩
  · simp only
    split_ifs
    · exact (modPatron_kept n _ s).trans (headroom_kept n _)
    · exact modPatron_kept n _ s

theorem closeMark_kept (c : Consignment) (s : State) : ReturnKept s (closeMark c s) := by
  unfold closeMark
  split_ifs
  · exact (modPatron_kept c.patron _ s).trans (evaluateHeld_kept c.patron _)
  · exact ⟨rfl, rfl, rfl, .refl s⟩

end Kept

end Sys2Proof.Machine
end

