-- ==== Sys2Proof/Proofs/LoansClosed.lean ====
section
/-! PROOFS. A loan that closes under a verdict, before its overdue mark is looked at (R36, R139 to R141, R143, R152). -/

namespace Sys2Proof.Machine

section Moves

variable {s : State} {k : Nat} {c : Consignment} {v : Verdict}

/-! ## Where a verdict sends the copy and its cartridge -/

/-- PASS and NOTE return a copy to its place. -/
abbrev GoesBack (v : Verdict) : Prop := v = .pass ∨ v = .note

theorem keeps_iff : v.keeps = true ↔ GoesBack v := by
  cases v <;> simp [Verdict.keeps, GoesBack]

/-- A title whose copy has come back under a verdict. -/
def copyBack (v : Verdict) (x : Title) : Title :=
  if GoesBack v then { x with shelf := x.shelf + 1 }
  else if v = .repair then { x with repair := x.repair + 1 }
  else { x with copies := x.copies - 1 }

/-- A class whose consigned cartridge has come back under a verdict from a loan of a kind. -/
def cartridgeBack (kind : ConsKind) (v : Verdict) (a : ClassAccount) : ClassAccount :=
  if GoesBack v then
    if kind = .pack then { a with consigned := a.consigned - 1, blank := a.blank + 1 }
    else { a with consigned := a.consigned - 1, shelf := a.shelf + 1 }
  else if v = .repair then
    { a with consigned := a.consigned - 1, repair := a.repair + 1
             bound := if kind = .pack then a.bound else a.bound + 1 }
  else { a with consigned := a.consigned - 1, stock := a.stock - 1 }

theorem moveCopy_eq (m : Nat) (v : Verdict) (s : State) : moveCopy m v s = modTitle m (copyBack v) s := by
  cases v <;> rfl

/-- What `movePack` does to the class's counts. -/
def packMoved (v : Verdict) (a : ClassAccount) : ClassAccount :=
  match v with
  | .pass | .note => ClassAccount.move .consigned .blank 1 a
  | .repair => ClassAccount.move .consigned .repair 1 a
  | .retire => ClassAccount.writeOff .consigned 1 a

/-- What `moveShelfCartridge` does to the class's counts. -/
def shelfMoved (v : Verdict) (a : ClassAccount) : ClassAccount :=
  match v with
  | .pass | .note => ClassAccount.move .consigned .shelf 1 a
  | .repair => ClassAccount.toBoundRepair 1 a
  | .retire => ClassAccount.writeOff .consigned 1 a

theorem movePack_eq (cls : Nat) (v : Verdict) (s : State) : movePack cls v s =
    if GoesBack v then owePass (modAccount cls (packMoved v) s) else modAccount cls (packMoved v) s := by
  cases v <;> rfl

theorem moveShelfCartridge_eq (cls : Nat) (v : Verdict) (s : State) :
    moveShelfCartridge cls v s = modAccount cls (shelfMoved v) s := by
  cases v <;> rfl

theorem packMoved_eq {a : ClassAccount} (h : 1 ≤ a.consigned) (v : Verdict) : packMoved v a = cartridgeBack .pack v a := by
  have hmove : ∀ dst, ClassAccount.move .consigned dst 1 a = ((a.setCount .consigned (a.consigned - 1)).setCount dst
      ((a.setCount .consigned (a.consigned - 1)).count dst + 1)) := fun dst => if_pos h
  cases v with
  | pass => exact hmove .blank
  | note => exact hmove .blank
  | repair => exact hmove .repair
  | retire => exact if_pos h

theorem shelfMoved_eq {a : ClassAccount} (h : 1 ≤ a.consigned) (v : Verdict) :
    shelfMoved v a = cartridgeBack .shelfAudio v a := by
  have hmove : ∀ dst, ClassAccount.move .consigned dst 1 a = ((a.setCount .consigned (a.consigned - 1)).setCount dst
      ((a.setCount .consigned (a.consigned - 1)).count dst + 1)) := fun dst => if_pos h
  cases v with
  | pass => exact hmove .shelf
  | note => exact hmove .shelf
  | repair =>
    refine (if_pos h).trans ?_
    rw [hmove]
    rfl
  | retire => exact if_pos h

/-! ## The movement of a loan's kind -/

/-- The movement that Stock Accounts records for a returned loan (R140, R141, R143). -/
def returnMove (c : Consignment) (v : Verdict) (s : State) : State :=
  match c.kind with
  | .pack => movePack c.cartridgeClass v s
  | .shelfAudio => moveShelfCartridge c.cartridgeClass v (moveCopy (lineTitle c) v s)
  | .braillePart => moveCopy (lineTitle c) v s

theorem returnMove_frame (c : Consignment) (v : Verdict) (s : State) : returnMove c v s = { s with
    records.titles := (returnMove c v s).records.titles, accounts := (returnMove c v s).accounts
    passDue := (returnMove c v s).passDue } := by
  unfold returnMove
  split
  · rw [movePack_eq]
    split_ifs <;> rfl
  · rw [moveShelfCartridge_eq, moveCopy_eq]
    rfl
  · rw [moveCopy_eq]
    rfl

theorem returnMove_titles (c : Consignment) (v : Verdict) (s : State) (m : Nat) :
    Table.get (returnMove c v s).records.titles m =
      if c.kind = .pack ∨ m ≠ lineTitle c then Table.get s.records.titles m
      else (Table.get s.records.titles m).map (copyBack v) := by
  have hcopy : c.kind ≠ .pack → (returnMove c v s).records.titles = Table.modify s.records.titles (lineTitle c) (copyBack v) :=
    fun hk => by
      unfold returnMove
      split
      next hp => exact absurd hp hk
      next =>
        rw [moveShelfCartridge_eq, moveCopy_eq]
        rfl
      next =>
        rw [moveCopy_eq]
        rfl
  by_cases hk : c.kind = .pack
  · rw [if_pos (.inl hk), returnMove, hk]
    simp only [movePack_eq]
    split_ifs <;> rfl
  · rw [hcopy hk, Table.get_modify]
    by_cases hm : m = lineTitle c <;> simp [hk, hm]

theorem returnMove_braille (h : c.kind = .braillePart) (v : Verdict) (s : State) :
    (returnMove c v s).accounts = s.accounts := by
  simp only [returnMove, h, moveCopy_eq]
  rfl

theorem returnMove_other {d : Nat} (hd : d ≠ c.cartridgeClass) (v : Verdict) (s : State) :
    accountAt (returnMove c v s) d = accountAt s d := by
  have hmod : ∀ f u, accountAt (modAccount c.cartridgeClass f u) d = accountAt u d := fun f u =>
    bankGet_modify_other _ _ _ hd
  unfold returnMove
  split
  · rw [movePack_eq]
    split_ifs <;> exact hmod _ s
  · rw [moveShelfCartridge_eq, hmod, moveCopy_eq]
    rfl
  · rw [moveCopy_eq]
    rfl

theorem returnMove_own (hk : c.kind ≠ .braillePart) (h1 : 1 ≤ c.cartridgeClass) (h4 : c.cartridgeClass ≤ 4)
    (hc : 1 ≤ (accountAt s c.cartridgeClass).consigned) (v : Verdict) :
    accountAt (returnMove c v s) c.cartridgeClass = cartridgeBack c.kind v (accountAt s c.cartridgeClass) := by
  have hmod : ∀ f u, accountAt (modAccount c.cartridgeClass f u) c.cartridgeClass = f (accountAt u c.cartridgeClass) :=
    fun f u => bankGet_modify_same _ _ _ _ ⟨h1, h4⟩
  unfold returnMove
  split
  next hp =>
    rw [hp, ← packMoved_eq hc, movePack_eq]
    split_ifs <;> exact hmod _ s
  next hs =>
    rw [hs, ← shelfMoved_eq hc, moveShelfCartridge_eq, hmod, moveCopy_eq]
    rfl
  next hb => exact absurd hb hk

theorem returnMove_passDue (c : Consignment) (v : Verdict) (s : State) :
    (returnMove c v s).passDue = true ↔ s.passDue = true ∨ (c.kind = .pack ∧ GoesBack v) := by
  unfold returnMove
  split
  next hp =>
    rw [movePack_eq]
    split_ifs with hv
    · exact iff_of_true rfl (.inr ⟨hp, hv⟩)
    · simp [hv]
  next hs =>
    rw [moveShelfCartridge_eq, moveCopy_eq]
    simp [hs]
  next hb =>
    rw [moveCopy_eq]
    simp [hb]

/-! ## The loan closed -/

/-- A loan closed under a verdict, before its overdue mark is looked at (R139 steps 1 and 2). -/
def loanReturned (k : Nat) (c : Consignment) (v : Verdict) (s : State) : State :=
  returnMove c v (linesClosed c.patron (openLines c).length (closeLines k c s))

theorem loanReturned_frame (k : Nat) (c : Consignment) (v : Verdict) (s : State) : loanReturned k c v s = { s with
    records.patrons := Table.modify s.records.patrons c.patron fun p => { p with charge := p.charge - (openLines c).length }
    records.titles := (loanReturned k c v s).records.titles
    assembly.cons := Table.modify s.assembly.cons k fun x => { x with lines := x.lines.map fun l => { l with state := .closed } }
    accounts := (loanReturned k c v s).accounts, passDue := (loanReturned k c v s).passDue } := by
  have h := returnMove_frame c v (linesClosed c.patron (openLines c).length (closeLines k c s))
  have hlines := closeLines_eq k c s
  unfold loanReturned
  generalize returnMove c v (linesClosed c.patron (openLines c).length (closeLines k c s)) = t at h ⊢
  generalize closeLines k c s = u at h hlines
  rw [h, hlines]
  rfl

theorem loanReturned_titles (k : Nat) (c : Consignment) (v : Verdict) (s : State) (m : Nat) :
    Table.get (loanReturned k c v s).records.titles m = (Table.get s.records.titles m).map fun x =>
      let y := { x with out := x.out - (openLines c).countP fun l => decide (l.title = m) }
      if c.kind = .pack ∨ m ≠ lineTitle c then y else copyBack v y := by
  have hlines : Table.get (linesClosed c.patron (openLines c).length (closeLines k c s)).records.titles m = _ :=
    closeLines_titles k c s m
  rw [loanReturned, returnMove_titles, hlines]
  split_ifs
  · rfl
  · rw [Option.map_map]
    rfl

theorem linesClosed_accountAt (k : Nat) (c : Consignment) (s : State) (d : Nat) :
    accountAt (linesClosed c.patron (openLines c).length (closeLines k c s)) d = accountAt s d := by
  rw [closeLines_eq]
  rfl

/-- R139 steps 1 and 2, under every verdict. -/
theorem loanReturned_closed (k : Nat) (c : Consignment) (v : Verdict) (s : State) :
    LoanClosed k c v s (loanReturned k c v s) := by
  have hframe := loanReturned_frame k c v s
  have haccount := linesClosed_accountAt k c s
  have hlines := closeLines_eq k c s
  refine ⟨by rw [hframe], fun j => ?_, fun j => ?_, loanReturned_titles k c v s, fun hb => ?_, fun d hd => ?_,
    fun hk h1 h4 hc => ?_, ?_⟩
  · rw [hframe, Table.get_modify]
  · rw [hframe, Table.get_modify]
    split_ifs
    · rfl
    · exact Option.map_id_apply.symm
  · rw [loanReturned, returnMove_braille hb, hlines]
    rfl
  · rw [loanReturned, returnMove_other hd, haccount]
  · rw [loanReturned, returnMove_own hk h1 h4 (by rwa [haccount]), haccount]
    rfl
  · rw [loanReturned, returnMove_passDue, hlines]
    rfl

theorem closeLoan_eq (k : Nat) (c : Consignment) (v : Verdict) (freed : Option Nat) (s : State) :
    closeLoan k c (returnMove c v) freed s = headroom c.patron
      (match freed with
      | none => closeMark c (loanReturned k c v s)
      | some m => copyFreed m (closeMark c (loanReturned k c v s))) := rfl

/-- The copy goes back to the shelf, and its title's competition is held (R44, R139 step 4). -/
theorem closeLoan_back (h : GoesBack v) (k : Nat) (c : Consignment) (s : State) :
    closeLoan k c (returnMove c v) (freedTitle c v) s =
      headroom c.patron (copyFreed (lineTitle c) (closeMark c (loanReturned k c v s))) := by
  rw [freedTitle, if_pos (keeps_iff.mpr h)]
  rfl

theorem closeLoan_gone (h : ¬GoesBack v) (k : Nat) (c : Consignment) (s : State) :
    closeLoan k c (returnMove c v) (freedTitle c v) s = headroom c.patron (closeMark c (loanReturned k c v s)) := by
  rw [freedTitle, if_neg (mt keeps_iff.mp h)]
  rfl

end Moves

end Sys2Proof.Machine
end

