-- ==== Sys2Proof/Proofs/Inspections.lean ====
section
/-! PROOFS. INSPECTION_COMPLETION: the match (R128), the verdict and the end of the inspection (R127, R129, R138), and the
disposition by kind (R139 to R143). -/

namespace Sys2Proof.Machine

/-! ## The match (R128) -/

section Match

variable {s : State} {x : ReturnItem} {c : Consignment}

/-- The label of an item names the consignment as it was posted (R128's first checks). -/
def LabelFits (x : ReturnItem) (c : Consignment) : Prop :=
  c.state = .posted ∧ c.postDay = x.postDay ∧ x.part = if c.kind = .braillePart then c.part else 1

theorem labelPart_eq (c : Consignment) : labelPart c = if c.kind = .braillePart then c.part else 1 := by
  unfold labelPart partOf
  split_ifs <;> rfl

theorem labelFits_iff : LabelFits x c ↔ ¬(c.state ≠ .posted ∨ c.postDay ≠ x.postDay ∨ labelPart c ≠ x.part) := by
  rw [LabelFits, labelPart_eq, not_or, not_or, not_not, not_not, not_not, eq_comm (a := x.part)]

theorem matchItem_unmatched (h : x.consignment = 0 ∨ s.management.geometry.c < x.consignment ∨
    ∀ c, Table.get s.assembly.cons x.consignment = some c → ¬LabelFits x c) : matchItem s x = .error .unmatched := by
  unfold matchItem
  split_ifs with hr
  · rfl
  · split
    next => rfl
    next c hc =>
      refine if_pos ?_
      have hfit := (h.resolve_left fun h0 => hr (.inl h0)).resolve_left (fun hg => hr (.inr hg)) c hc
      rwa [labelFits_iff, not_not] at hfit

theorem matchItem_fits (h0 : x.consignment ≠ 0) (hk : x.consignment ≤ s.management.geometry.c)
    (hc : Table.get s.assembly.cons x.consignment = some c) (hf : LabelFits x c) : matchItem s x =
      if c.kind = .braillePart ∧ c.head = x.consignment ∧ c.headReturned = true then .error .duplicate
      else if c.kind ≠ .braillePart ∧ serialOf c ≠ x.serial then .error .serialMismatch
      else .ok c := by
  rw [matchItem, if_neg (by omega), hc]
  exact if_neg (labelFits_iff.mp hf)

theorem matchItem_present (h : matchItem s x = .ok c) : Table.get s.assembly.cons x.consignment = some c := by
  unfold matchItem at h
  split_ifs at h
  split at h
  next => cases h
  next c' hc =>
    split_ifs at h
    cases h
    exact hc

end Match

/-! ## The VERDICT and the end of an inspection (R127 steps 5 to 7, R138) -/

section Verdicts

variable {s : State} {x : ReturnItem}

/-- The VERDICT frame, byte for byte (R202). -/
def verdictBytes (s : State) (x : ReturnItem) (v d e : Nat) : Frame :=
  ⟨byteOf s.management.settings.scannerRole, 0, 162,
    bytesLE 2 x.consignment ++ [byteOf x.part, byteOf v, byteOf d, byteOf e]⟩

theorem sendVerdict_eq (x : ReturnItem) (v : ItemVerdict) (d : Divert) (e : ExceptionCause) (s : State) :
    sendVerdict x v d e s =
      toFloor (verdictBytes s x (itemVerdictValue v) (divertValue d) (exceptionCauseValue e))
        { s with returns.item := none } := rfl

theorem finishInspection_pending (h : s.returns.suspendPending = true) : finishInspection s =
    { s with returns.item := none, returns.suspended := true, returns.suspendPending := false } := if_pos h

theorem finishInspection_still (h : s.returns.suspendPending = false)
    (hq : s.returns.suspended = true ∨ s.management.settings.scannerRole = 0 ∨ s.returns.queue = []) :
    finishInspection s = { s with returns.item := none } := by
  rw [finishInspection, h, if_neg Bool.false_ne_true]
  unfold startInspection
  split
  next => rfl
  next y rest hqueue =>
    refine if_neg ?_
    rintro ⟨hs, -, -, hrole⟩
    obtain hq | hq | hq := hq
    · exact absurd (hs.symm.trans hq) (by decide)
    · exact hrole hq
    · rw [hq] at hqueue
      cases hqueue

theorem finishInspection_next {y : ReturnItem} {rest : List ReturnItem} (h : s.returns.suspendPending = false)
    (hs : s.returns.suspended = false) (hrole : s.management.settings.scannerRole ≠ 0) (hq : s.returns.queue = y :: rest) :
    finishInspection s = { s with returns.item := some y, returns.queue := rest } := by
  rw [finishInspection, h, if_neg Bool.false_ne_true]
  simp only [startInspection, hq, hs, h, ne_eq, hrole, not_false_eq_true, and_self, if_true]

/-- After an inspection only the item, the queue and the suspension can differ (R127 step 7). -/
theorem finishInspection_frame (s : State) : finishInspection s = { s with
    returns.item := (finishInspection s).returns.item, returns.queue := (finishInspection s).returns.queue
    returns.suspended := (finishInspection s).returns.suspended
    returns.suspendPending := (finishInspection s).returns.suspendPending } := by
  unfold finishInspection
  split_ifs
  · rfl
  · unfold startInspection
    split
    · rfl
    · split_ifs <;> rfl

theorem finishInspection_start (h : s.returns.suspendPending = false) (hs : s.returns.suspended = false)
    (hrole : s.management.settings.scannerRole ≠ 0) :
    (finishInspection s).returns.item = s.returns.queue.head? ∧
      (finishInspection s).returns.queue = s.returns.queue.tail := by
  cases hq : s.returns.queue with
  | nil =>
    rw [finishInspection_still h (.inr (.inr hq))]
    exact ⟨rfl, hq⟩
  | cons y rest =>
    rw [finishInspection_next h hs hrole hq]
    exact ⟨rfl, rfl⟩

theorem finishInspection_suspended (h : s.returns.suspendPending = true) :
    (finishInspection s).returns.item = none ∧ (finishInspection s).returns.suspended = true ∧
      (finishInspection s).returns.suspendPending = false := by
  rw [finishInspection_pending h]
  exact ⟨rfl, rfl, rfl⟩

theorem noticeCalled_iff {mode : NoticeMode} {v : Verdict} :
    noticeCalled mode v = true ↔ (mode = .onHit ∧ v ≠ .pass) ∨ (mode = .onRetire ∧ v = .retire) := by
  cases mode <;> simp [noticeCalled]

/-! ## The completion -/

theorem exec_inspection_waits
    (h : s.returns.item = none ∨ s.returns.owedAnswer ≠ none ∨ floorRoom (aheadOfVerdicts s) s = false) :
    exec .inspectionCompletion s = .next s := by
  show execInspectionCompletion s = _
  unfold execInspectionCompletion
  split
  next => rfl
  next y hy =>
    refine if_neg ?_
    rintro ⟨ho, hr⟩
    obtain h | h | h := h
    · rw [h] at hy
      cases hy
    · exact h ho
    · exact absurd (h.symm.trans hr) (by decide)

theorem exec_inspection (hx : s.returns.item = some x) (ho : s.returns.owedAnswer = none)
    (hr : floorRoom (aheadOfVerdicts s) s = true) :
    exec .inspectionCompletion s = .next (settle (completeItem x s)) := by
  show execInspectionCompletion s = _
  simp only [execInspectionCompletion, hx, if_pos (And.intro ho hr)]
  rfl

theorem completeItem_error {e : ExceptionCause} (h : matchItem s x = .error e) : completeItem x s =
    finishInspection (toFloor (verdictBytes s x 4 5 (exceptionCauseValue e))
      { latch .returnException x.consignment s with returns.item := none }) := by
  rw [completeItem, h]
  rfl

/-- The state with the item's hits and readings recorded (R127 step 2). -/
def itemRecorded (x : ReturnItem) (c : Consignment) (s : State) : State :=
  { s with returns := recordChannels x c.weight s.returns }

/-- The disposition of the item in inspection under its verdict (R127 steps 3 and 4). -/
def itemDisposed (x : ReturnItem) (c : Consignment) (s : State) : State × Divert :=
  dispose x.consignment c (verdictOf s.returns x c.weight) (itemRecorded x c s)

/-- INSPECTION, as the notice mode asks (R138). -/
def inspectionNoticed (mode : NoticeMode) (v : Verdict) (k : Nat) (w : State) : State :=
  if (mode = .onHit ∧ v ≠ .pass) ∨ (mode = .onRetire ∧ v = .retire) then latch .inspection k w else w

theorem inspectionNoticed_management (mode : NoticeMode) (v : Verdict) (k : Nat) (w : State) :
    inspectionNoticed mode v k w = { w with management := (inspectionNoticed mode v k w).management } := by
  unfold inspectionNoticed
  split_ifs <;> rfl

theorem inspectionNoticed_settings (mode : NoticeMode) (v : Verdict) (k : Nat) (w : State) :
    (inspectionNoticed mode v k w).management.settings = w.management.settings := by
  unfold inspectionNoticed
  split_ifs <;> rfl

theorem itemDisposed_settings (x : ReturnItem) (c : Consignment) (s : State) :
    (itemDisposed x c s).1.management.settings = s.management.settings :=
  (dispose_work x.consignment c (verdictOf s.returns x c.weight) (itemRecorded x c s)).settings

theorem completeItem_ok {c : Consignment} (h : matchItem s x = .ok c) :
    let v := verdictOf s.returns x c.weight
    completeItem x s = finishInspection
      (toFloor (verdictBytes s x (verdictValue v) (divertValue (itemDisposed x c s).2) 0)
        { inspectionNoticed s.management.settings.noticeMode v x.consignment (itemDisposed x c s).1 with
          returns.item := none }) := by
  intro v
  have hnoticed : (if noticeCalled s.management.settings.noticeMode v = true
      then latch .inspection x.consignment (itemDisposed x c s).1 else (itemDisposed x c s).1) =
        inspectionNoticed s.management.settings.noticeMode v x.consignment (itemDisposed x c s).1 :=
    if_congr noticeCalled_iff rfl rfl
  have hjudged : judgeItem x c s = sendVerdict x (.judged v) (itemDisposed x c s).2 .none
      (inspectionNoticed s.management.settings.noticeMode v x.consignment (itemDisposed x c s).1) :=
    congrArg (sendVerdict x (.judged v) (itemDisposed x c s).2 .none) hnoticed
  have hsettings := (inspectionNoticed_settings s.management.settings.noticeMode v x.consignment _).trans
    (itemDisposed_settings x c s)
  rw [completeItem, h]
  show finishInspection (judgeItem x c s) = _
  rw [hjudged, sendVerdict_eq, verdictBytes, hsettings]
  rfl

end Verdicts

/-! ## The disposition by kind (R139 to R143) -/

section Dispose

variable {s : State} {k : Nat} {c head : Consignment} {v : Verdict}

/-- The divert of a verdict: `home` for a copy that goes back, else the repair bench or the retirement bin. -/
def Diverted (home d : Nat) (v : Verdict) : Prop :=
  (GoesBack v → d = home) ∧ (v = .repair → d = 2) ∧ (v = .retire → d = 3)

theorem divertFor_diverted (home : Divert) (v : Verdict) : Diverted (divertValue home) (divertValue (divertFor home v)) v := by
  cases v <;> simp [Diverted, GoesBack, divertFor, divertValue]

theorem dispose_pack (hk : c.kind = .pack) (k : Nat) (v : Verdict) (s : State) : dispose k c v s =
    (freeConsignment k (headroom c.patron (closeMark c (loanReturned k c v s))), divertFor .blank v) := by
  have hmove : returnMove c v = movePack c.cartridgeClass v := by
    funext u
    simp only [returnMove, hk]
  have hclose := closeLoan_eq k c v none s
  simp only [hmove] at hclose
  simp only [dispose, hk, disposePack, hclose]

theorem dispose_shelf (hk : c.kind = .shelfAudio) (k : Nat) (v : Verdict) (s : State) : dispose k c v s =
    (freeConsignment k (closeLoan k c (returnMove c v) (freedTitle c v) s), divertFor .shelf v) := by
  have hmove : returnMove c v = fun s => moveShelfCartridge c.cartridgeClass v (moveCopy (lineTitle c) v s) := by
    funext u
    simp only [returnMove, hk]
  simp only [dispose, hk, disposeShelf, hmove]

theorem completeSet_eq (hk : head.kind = .braillePart) (h : Nat) (v : Verdict) (s : State) :
    completeSet h head v s = closeLoan h head (returnMove head v) (freedTitle head v) s := by
  have hmove : returnMove head v = moveCopy (lineTitle head) v := by
    funext u
    simp only [returnMove, hk]
  rw [completeSet, hmove]

/-- A part of a set that is not complete waits in the set hold (R142). -/
theorem dispose_held (hk : c.kind = .braillePart) (hh : Table.get s.assembly.cons c.head = some head)
    (hm : head.returned + 1 < head.parts) (k : Nat) (v : Verdict) : dispose k c v s =
      (if k = c.head then modCons k (fun x => { x with headReturned := true }) (countPart c.head v s)
       else freeConsignment k (countPart c.head v s), .setHold) := by
  simp only [dispose, hk, disposeBraille, hh, if_pos hm]

/-- The last part closes its set under the worst verdict (R143). -/
theorem dispose_last (hk : c.kind = .braillePart) (hh : Table.get s.assembly.cons c.head = some head)
    (hm : head.parts ≤ head.returned + 1) (hb : head.kind = .braillePart) (k : Nat) (v : Verdict) : dispose k c v s =
      (freeAll (if k = c.head then [k] else [c.head, k])
        (closeLoan c.head head (returnMove head (worse head.worst v)) (freedTitle head (worse head.worst v))
          (countPart c.head v s)), divertFor .shelf (worse head.worst v)) := by
  simp only [dispose, hk, disposeBraille, hh, if_neg (Nat.not_lt.mpr hm), completeSet_eq hb]

theorem countPart_cons {h : Nat} (hh : Table.get s.assembly.cons h = some head) (v : Verdict) (j : Nat) :
    Table.get (countPart h v s).assembly.cons j =
      if j = h then some { head with returned := head.returned + 1, worst := worse head.worst v }
      else Table.get s.assembly.cons j := by
  rw [countPart, modCons_cons, Table.get_modify]
  split_ifs with hj
  · rw [hj, hh]
    rfl
  · rfl

/-- A part held for its set: the head record marks it, any other record is freed (R142). -/
def partHeld (k : Nat) (c : Consignment) (v : Verdict) (s : State) : State :=
  if k = c.head then modCons k (fun x => { x with headReturned := true }) (countPart c.head v s)
  else freeConsignment k (countPart c.head v s)

theorem partHeld_frame (k : Nat) (c : Consignment) (v : Verdict) (s : State) : partHeld k c v s = { s with
    assembly.cons := (partHeld k c v s).assembly.cons, records.patrons := (partHeld k c v s).records.patrons } := by
  unfold partHeld
  split_ifs
  · rfl
  · have h := freeConsignment_frame k (countPart c.head v s)
    rw [h]
    rfl

theorem partHeld_other {j : Nat} (hk : j ≠ k) (hh : j ≠ c.head) (v : Verdict) (s : State) :
    Table.get (partHeld k c v s).assembly.cons j = Table.get s.assembly.cons j := by
  have hcount : Table.get (countPart c.head v s).assembly.cons j = Table.get s.assembly.cons j := by
    rw [countPart, modCons_cons, Table.get_modify_other _ _ hh]
  unfold partHeld
  split_ifs
  · rw [modCons_cons, Table.get_modify_other _ _ hk, hcount]
  · rw [freeConsignment_cons, if_neg hk, hcount]

theorem partHeld_head (hh : Table.get s.assembly.cons c.head = some head) (hk : k = c.head) (v : Verdict) :
    Table.get (partHeld k c v s).assembly.cons k =
        some { head with returned := head.returned + 1, worst := worse head.worst v, headReturned := true } ∧
      (partHeld k c v s).records = s.records := by
  rw [partHeld, if_pos hk]
  refine ⟨?_, rfl⟩
  rw [modCons_cons, Table.get_modify_same, countPart_cons hh, if_pos hk]
  rfl

theorem partHeld_part (hh : Table.get s.assembly.cons c.head = some head) (hc : Table.get s.assembly.cons k = some c)
    (hk : k ≠ c.head) (v : Verdict) :
    Table.get (partHeld k c v s).assembly.cons k = none ∧
      Table.get (partHeld k c v s).assembly.cons c.head =
        some { head with returned := head.returned + 1, worst := worse head.worst v } ∧
      (partHeld k c v s).records.agencies = s.records.agencies ∧ (partHeld k c v s).records.titles = s.records.titles ∧
      ∀ n, Table.get (partHeld k c v s).records.patrons n = (Table.get s.records.patrons n).map fun p =>
        if n = c.patron then { p with chain := p.chain.erase k, openPack := if p.openPack = k then 0 else p.openPack }
        else p := by
  have hpart : Table.get (countPart c.head v s).assembly.cons k = some c := by
    rw [countPart_cons hh, if_neg hk, hc]
  rw [partHeld, if_neg hk]
  refine ⟨?_, ?_, ?_, ?_, fun n => ?_⟩
  · rw [freeConsignment_cons, if_pos rfl]
  · rw [freeConsignment_cons, if_neg hk.symm, countPart_cons hh, if_pos rfl]
  · rw [freeConsignment_eq hpart]
    rfl
  · rw [freeConsignment_eq hpart]
    rfl
  · have hpatrons : (countPart c.head v s).records.patrons = s.records.patrons := rfl
    rw [freeConsignment_patron hpart, hpatrons]
    split_ifs
    · rfl
    · exact Option.map_id_apply.symm

/-- What a returned pack leaves (R139, R140). -/
theorem dispose_pack_effect (hk : c.kind = .pack) (k : Nat) (v : Verdict) (s : State) :
    Diverted 0 (divertValue (dispose k c v s).2) v ∧
      ∃ u, LoanClosed k c v s u ∧ (dispose k c v s).1 = freeConsignment k (headroom c.patron (closeMark c u)) := by
  rw [dispose_pack hk]
  exact ⟨divertFor_diverted .blank v, _, loanReturned_closed k c v s, rfl⟩

/-- What a returned shelf cartridge leaves (R139, R141). -/
theorem dispose_shelf_effect (hk : c.kind = .shelfAudio) (k : Nat) (v : Verdict) (s : State) :
    Diverted 1 (divertValue (dispose k c v s).2) v ∧
      ∃ u, LoanClosed k c v s u ∧
        (GoesBack v → (dispose k c v s).1 =
          freeConsignment k (headroom c.patron (copyFreed (lineTitle c) (closeMark c u)))) ∧
        (¬GoesBack v → (dispose k c v s).1 = freeConsignment k (headroom c.patron (closeMark c u))) := by
  rw [dispose_shelf hk]
  exact ⟨divertFor_diverted .shelf v, _, loanReturned_closed k c v s, fun hv => by rw [closeLoan_back hv],
    fun hv => by rw [closeLoan_gone hv]⟩

/-- What a part held for its set leaves (R142). -/
theorem dispose_held_effect (hk : c.kind = .braillePart) (hh : Table.get s.assembly.cons c.head = some head)
    (hm : head.returned + 1 < head.parts) (hc : Table.get s.assembly.cons k = some c) (v : Verdict) :
    let w := (dispose k c v s).1
    let counted : Consignment := { head with returned := head.returned + 1, worst := worse head.worst v }
    divertValue (dispose k c v s).2 = 4 ∧
      w = { s with assembly.cons := w.assembly.cons, records.patrons := w.records.patrons } ∧
      (∀ j, j ≠ k → j ≠ c.head → Table.get w.assembly.cons j = Table.get s.assembly.cons j) ∧
      (k = c.head → Table.get w.assembly.cons k = some { counted with headReturned := true } ∧ w.records = s.records) ∧
      (k ≠ c.head → Table.get w.assembly.cons k = none ∧ Table.get w.assembly.cons c.head = some counted ∧
        w.records.agencies = s.records.agencies ∧ w.records.titles = s.records.titles ∧
        ∀ n, Table.get w.records.patrons n = (Table.get s.records.patrons n).map fun p =>
          if n = c.patron then { p with chain := p.chain.erase k, openPack := if p.openPack = k then 0 else p.openPack }
          else p) := by
  have hd : dispose k c v s = (partHeld k c v s, .setHold) := dispose_held hk hh hm k v
  rw [hd]
  exact ⟨rfl, partHeld_frame k c v s, fun j hj hjh => partHeld_other hj hjh v s, fun hkh => partHeld_head hh hkh v,
    fun hkh => partHeld_part hh hc hkh v⟩

/-- What the last part of a set leaves: its set's loan closed under the worst verdict, and its records freed (R143). -/
theorem dispose_last_effect (hk : c.kind = .braillePart) (hh : Table.get s.assembly.cons c.head = some head)
    (hm : head.parts ≤ head.returned + 1) (hb : head.kind = .braillePart) (k : Nat) (v : Verdict) :
    let w := (dispose k c v s).1
    let worst := worse head.worst v
    let ks := if k = c.head then [k] else [c.head, k]
    Diverted 1 (divertValue (dispose k c v s).2) worst ∧
      ∃ s' u, s' = { s with assembly.cons := s'.assembly.cons } ∧
        (∀ j, Table.get s'.assembly.cons j =
          if j = c.head then some { head with returned := head.returned + 1, worst := worst }
          else Table.get s.assembly.cons j) ∧
        LoanClosed c.head head worst s' u ∧
        (GoesBack worst → w = freeAll ks (headroom head.patron (copyFreed (lineTitle head) (closeMark head u)))) ∧
        (¬GoesBack worst → w = freeAll ks (headroom head.patron (closeMark head u))) := by
  have hd := dispose_last hk hh hm hb k v
  rw [hd]
  exact ⟨divertFor_diverted .shelf _, countPart c.head v s, _, rfl, countPart_cons hh v,
    loanReturned_closed c.head head _ _, fun hv => by rw [closeLoan_back hv], fun hv => by rw [closeLoan_gone hv]⟩

end Dispose

/-! ## A completion answered DESK, and the completion of a pack -/

section Completion

variable {s : State} {x : ReturnItem} {c : Consignment}

/-- An item that fails the match changes nothing but the frame, the notice and the item in inspection (R128, R129). -/
theorem inspection_refused (hn : NoPassOwed s) (hx : s.returns.item = some x) (ho : s.returns.owedAnswer = none)
    (hr : floorRoom (aheadOfVerdicts s) s = true) {e : ExceptionCause} (h : matchItem s x = .error e) :
    exec .inspectionCompletion s = .next (finishInspection (toFloor (verdictBytes s x 4 5 (exceptionCauseValue e))
      { latch .returnException x.consignment s with returns.item := none })) := by
  rw [exec_inspection hx ho hr, completeItem_error h, settle_of_noPass]
  rw [NoPassOwed, finishInspection_frame]
  exact hn

theorem inspection_judged (hx : s.returns.item = some x) (ho : s.returns.owedAnswer = none)
    (hr : floorRoom (aheadOfVerdicts s) s = true) (h : matchItem s x = .ok c) :
    let v := verdictOf s.returns x c.weight
    exec .inspectionCompletion s = .next (settle (finishInspection
      (toFloor (verdictBytes s x (verdictValue v) (divertValue (itemDisposed x c s).2) 0)
        { inspectionNoticed s.management.settings.noticeMode v x.consignment (itemDisposed x c s).1 with
          returns.item := none }))) := by
  intro v
  rw [exec_inspection hx ho hr, completeItem_ok h]

/-- The end of an inspection and the pass after it leave the records and the return unit's settings alone. -/
structure InspectionEnded (f : Frame) (w t : State) : Prop where
  sent : f ∈ t.line.floorTx
  assembly : t.assembly = w.assembly
  dispatch : t.dispatch = w.dispatch
  days : t.days = w.days
  channels : t.returns.channels = w.returns.channels
  thresholds : t.returns.thresholds = w.returns.thresholds
  hits : t.returns.hits = w.returns.hits
  stored : t.returns.stored = w.returns.stored
  stock : StockKept w t

theorem finishInspection_ended (f : Frame) (mode : NoticeMode) (v : Verdict) (k : Nat) (w : State) :
    InspectionEnded f w (settle (finishInspection (toFloor f { inspectionNoticed mode v k w with returns.item := none }))) := by
  have hnotice := inspectionNoticed_management mode v k w
  generalize inspectionNoticed mode v k w = w' at hnotice
  have hend := finishInspection_frame (toFloor f { w' with returns.item := none })
  generalize finishInspection (toFloor f { w' with returns.item := none }) = u at hend
  have hsettle := BayWork.settle u
  have hpre := settle_floorTx u
  have hstock := settle_stock u
  generalize settle u = t at hsettle hpre hstock
  have haccounts : u.accounts = w.accounts := by
    rw [hend, hnotice]
    rfl
  refine ⟨hpre.subset ?_, ?_, ?_, ?_, ?_, ?_, ?_, ?_, (StockKept.of_accounts haccounts).trans hstock⟩
  · rw [hend]
    exact List.mem_append_right _ (List.mem_singleton_self f)
  all_goals
    rw [hsettle.frame, hend, hnotice]
    rfl

/-- A returned pack is off the shelves: its record is freed, and the other units stand as its loan's close leaves them
(R139, R140). -/
theorem packReturned_kept (k : Nat) (c : Consignment) (v : Verdict) (s : State) :
    ReturnKept (loanReturned k c v s) (freeConsignment k (headroom c.patron (closeMark c (loanReturned k c v s)))) :=
  ((closeMark_kept c _).trans (headroom_kept c.patron _)).trans (freeConsignment_kept k _)

theorem loanReturned_units (k : Nat) (c : Consignment) (v : Verdict) (s : State) :
    (loanReturned k c v s).returns = s.returns ∧ (loanReturned k c v s).dispatch = s.dispatch ∧
      (loanReturned k c v s).days = s.days := by
  rw [loanReturned_frame]
  exact ⟨rfl, rfl, rfl⟩

/-- After a pack's inspection its record is free, the return unit's settings, the dispatch unit and the days stand, and the
stock is that of the closed loan (R139, R140). -/
theorem packReturned_ended (f : Frame) (mode : NoticeMode) (k : Nat) (c : Consignment) (v : Verdict) (s : State) {w t : State}
    (hw : w = freeConsignment k (headroom c.patron (closeMark c (loanReturned k c v s))))
    (ht : t = settle (finishInspection (toFloor f { inspectionNoticed mode v k w with returns.item := none }))) :
    f ∈ t.line.floorTx ∧ Table.get t.assembly.cons k = none ∧ t.dispatch = s.dispatch ∧ t.days = s.days ∧
      t.returns.channels = s.returns.channels ∧ t.returns.thresholds = s.returns.thresholds ∧
      t.returns.hits = s.returns.hits ∧ t.returns.stored = s.returns.stored ∧ StockKept (loanReturned k c v s) t := by
  have hended := finishInspection_ended f mode v k w
  rw [← ht] at hended
  have hkept := packReturned_kept k c v s
  rw [← hw] at hkept
  obtain ⟨hreturns, hdispatch, hdays⟩ := loanReturned_units k c v s
  replace hreturns := hkept.returns.trans hreturns
  refine ⟨hended.sent, ?_, hended.dispatch.trans (hkept.dispatch.trans hdispatch), hended.days.trans (hkept.days.trans hdays),
    ?_, ?_, ?_, ?_, hkept.stock.trans hended.stock⟩
  · rw [hended.assembly, hw, freeConsignment_cons, if_pos rfl]
  · rw [hended.channels, hreturns]
  · rw [hended.thresholds, hreturns]
  · rw [hended.hits, hreturns]
  · rw [hended.stored, hreturns]

theorem cartridgeBack_stock (kind : ConsKind) (v : Verdict) (a : ClassAccount) :
    (cartridgeBack kind v a).stock = if v = .retire then a.stock - 1 else a.stock := by
  unfold cartridgeBack
  cases v <;> cases kind <;> rfl

theorem loanReturned_stock_other {d : Nat} (hd : d ≠ c.cartridgeClass) (k : Nat) (v : Verdict) (s : State) :
    (accountAt (loanReturned k c v s) d).stock = (accountAt s d).stock := by
  rw [loanReturned, returnMove_other hd, linesClosed_accountAt]

theorem loanReturned_stock_own (hk : c.kind ≠ .braillePart) (h1 : 1 ≤ c.cartridgeClass) (h4 : c.cartridgeClass ≤ 4)
    (hc : 1 ≤ (accountAt s c.cartridgeClass).consigned) (k : Nat) (v : Verdict) :
    (accountAt (loanReturned k c v s) c.cartridgeClass).stock =
      if v = .retire then (accountAt s c.cartridgeClass).stock - 1 else (accountAt s c.cartridgeClass).stock := by
  have hlines := linesClosed_accountAt k c s c.cartridgeClass
  rw [loanReturned, returnMove_own hk h1 h4 (by rwa [hlines]), hlines, cartridgeBack_stock]

/-- The divert value of a returned pack. -/
theorem divertFor_blank (v : Verdict) :
    divertValue (divertFor .blank v) = match v with | .pass => 0 | .note => 0 | .repair => 2 | .retire => 3 := by
  cases v <;> rfl

end Completion

end Sys2Proof.Machine

open Sys2Proof Sys2Proof.Machine in
/-- Settles O52: the frame and the pass are those of the completion; the disposition is that of each kind. -/
theorem inspectionsAreCompleted : Obligations.InspectionsAreCompleted := by
  intro s hn role frame
  refine ⟨exec_inspection_waits, ?_, ?_, ?_⟩
  · intro x k fits
    refine ⟨matchItem_unmatched, fun c h0 hk hc hf => ?_⟩
    have hmatch := matchItem_fits h0 hk hc hf
    refine ⟨fun hb hh hd => ?_, fun hb hh => ?_, fun hb hs => ?_, fun hb hs => ?_⟩
    · rw [hmatch, if_pos ⟨hb, hh, hd⟩]
    · rw [hmatch, if_neg, if_neg fun h => h.1 hb]
      rintro ⟨-, h1, h2⟩
      exact hh.elim (fun h => h h1) fun h => absurd (h.symm.trans h2) (by decide)
    · rw [hmatch, if_neg fun h => hb h.1]
      exact if_pos ⟨hb, hs⟩
    · rw [hmatch, if_neg fun h => hb h.1]
      exact if_neg fun h => h.2 hs
  · exact fun u => ⟨finishInspection_pending, fun h =>
      ⟨finishInspection_still h, fun y rest => finishInspection_next h⟩⟩
  intro x hx ho hr
  refine ⟨fun e he => ?_, fun c hm => ?_, fun c hm hk => ?_⟩
  · refine ⟨_, inspection_refused hn hx ho hr he, ?_⟩
    have hend := finishInspection_frame (toFloor (verdictBytes s x 4 5 (exceptionCauseValue e))
      { latch .returnException x.consignment s with returns.item := none })
    refine ⟨by rw [hend]; rfl, by rw [hend]; rfl, by rw [hend]; rfl, by rw [hend]; rfl, by rw [hend]; rfl,
      by rw [hend]; rfl, by rw [hend]; rfl, by rw [hend]; rfl, by rw [hend]; rfl, by rw [hend]; rfl, rfl,
      fun hp => finishInspection_suspended hp, fun hp hs hrole => finishInspection_start hp hs hrole⟩
  · have hexec := inspection_judged hx ho hr hm
    have hc := matchItem_present hm
    simp only [itemDisposed, itemRecorded] at hexec
    generalize verdictOf s.returns x c.weight = v at hexec ⊢
    generalize recordChannels x c.weight s.returns = unit at hexec ⊢
    intro k _ judged mode noticed back diverted
    exact ⟨_, _, hexec, fun hk => dispose_pack_effect hk x.consignment v { s with returns := unit },
      fun hk => dispose_shelf_effect hk x.consignment v { s with returns := unit }, fun head hk hh =>
        ⟨fun hmore => dispose_held_effect (s := { s with returns := unit }) hk hh hmore hc v,
          fun hlast hb => dispose_last_effect (s := { s with returns := unit }) hk hh hlast hb x.consignment v⟩⟩
  · obtain ⟨hchannels, hthresholds, -⟩ := recordChannels_keeps x c.weight s.returns
    have hexec := inspection_judged hx ho hr hm
    simp only [itemDisposed, itemRecorded, dispose_pack hk, divertFor_blank] at hexec
    generalize verdictOf s.returns x c.weight = v at hexec ⊢
    generalize recordChannels x c.weight s.returns = unit at hexec hchannels hthresholds ⊢
    have hother := fun d hd => loanReturned_stock_other (c := c) (d := d) hd x.consignment v { s with returns := unit }
    have hown := fun h1 h4 h => loanReturned_stock_own (c := c) (s := { s with returns := unit }) (by rw [hk]; decide)
      h1 h4 h x.consignment v
    obtain ⟨hsent, hfree, hdispatch, hdays, hch, hth, hhits, hstored, hstock⟩ :=
      packReturned_ended _ s.management.settings.noticeMode x.consignment c v { s with returns := unit } rfl rfl
    exact ⟨_, hexec, hsent, hfree, hdispatch, hdays, hch.trans hchannels, hth.trans hthresholds, hhits, hstored,
      fun d hd => (hstock d).trans (hother d hd), fun h1 h4 h => (hstock _).trans (hown h1 h4 h)⟩
end

