-- ==== Sys2Proof/Proofs/SteadyChanges.lean ====
section
/-! PROOFS. Runs of work in circulation (`WorkChange`) and of changes beside it (`SideChange`): said once for each operation of the
Line Interface, for RESTART and for the ways in which commands are taken. -/

namespace Sys2Proof.Machine

/-! ## Changes beside the circulation -/

/-- The tables, the lists over them, the dispatch state, the class accounts and the settings are those of `s`: a change of the
line, the bay timers, the inspection set-up, the days or the notices. -/
structure SideChange (s t : State) : Prop where
  records : t.records = s.records
  requests : t.requests = s.requests
  assembly : t.assembly = s.assembly
  jobs : t.scheduler.jobs = s.scheduler.jobs
  queues : t.scheduler.queues = s.scheduler.queues
  dispatch : t.dispatch = s.dispatch
  accounts : t.accounts = s.accounts
  settings : t.management.settings = s.management.settings

/-- A run of work in circulation and changes beside it. -/
def Steady : State → State → Prop := Relation.ReflTransGen fun s t => WorkChange s t ∨ SideChange s t

section Steady

variable {s t u : State}

theorem Steady.refl (s : State) : Steady s s := Relation.ReflTransGen.refl

theorem Steady.trans (h : Steady s t) (g : Steady t u) : Steady s u := Relation.ReflTransGen.trans h g

theorem WorkChange.steady (h : WorkChange s t) : Steady s t := .single (.inl h)

theorem OrderChange.steady (h : OrderChange s t) : Steady s t := h.work.steady

theorem SideChange.steady (h : SideChange s t) : Steady s t := .single (.inr h)

theorem Steady.foldl {β : Type} (f : State → β → State) (hf : ∀ s b, Steady s (f s b)) (l : List β) (s : State) :
    Steady s (l.foldl f s) := by
  induction l generalizing s with
  | nil => exact .refl s
  | cons b l ih => exact (hf s b).trans (ih (f s b))

/-- A law that work in circulation and changes beside it keep. -/
theorem Steady.keeps {P : State → Prop} (hw : ∀ {s t}, WorkChange s t → P s → P t)
    (hs : ∀ {s t}, SideChange s t → P s → P t) (h : Steady s t) (hp : P s) : P t := by
  unfold Steady at h
  induction h with
  | refl => exact hp
  | tail _ hlast ih => exact hlast.elim (hw · ih) (hs · ih)

theorem Steady.line (l : LineUnit) (s : State) : Steady s { s with line := l } :=
  SideChange.steady ⟨rfl, rfl, rfl, rfl, rfl, rfl, rfl, rfl⟩

theorem Steady.returns (r : ReturnUnit) (s : State) : Steady s { s with returns := r } :=
  SideChange.steady ⟨rfl, rfl, rfl, rfl, rfl, rfl, rfl, rfl⟩

theorem Steady.days (d : DayUnit) (s : State) : Steady s { s with days := d } :=
  SideChange.steady ⟨rfl, rfl, rfl, rfl, rfl, rfl, rfl, rfl⟩

theorem Steady.management (m : ManagementUnit) (s : State) (h : m.settings = s.management.settings) :
    Steady s { s with management := m } :=
  SideChange.steady ⟨rfl, rfl, rfl, rfl, rfl, rfl, rfl, h⟩

theorem Steady.freeIx (n : Nat) (s : State) : Steady s { s with freeIx := n } :=
  SideChange.steady ⟨rfl, rfl, rfl, rfl, rfl, rfl, rfl, rfl⟩

theorem Steady.toFloor (f : Frame) (s : State) : Steady s (toFloor f s) := .line _ s

theorem Steady.latch (n : NoticeId) (x : Nat) (s : State) : Steady s (latch n x s) := (OrderChange.latch n x s).steady

theorem passSeconds_steady (n : Nat) (s : State) : Steady s (passSeconds n s) :=
  SideChange.steady ⟨rfl, rfl, rfl, rfl, rfl, rfl, rfl, rfl⟩

theorem withPending_steady (cs : List Instr) (s : State) : Steady s (s.withPending cs) :=
  SideChange.steady ⟨rfl, rfl, rfl, rfl, rfl, rfl, rfl, rfl⟩

/-! ## The ports -/

theorem recordFault_steady (p : Port) (c : Byte) (s : State) : Steady s (recordFault p c s) := by
  cases p with
  | office => exact (Steady.line { s.line with officeFaults := s.line.officeFaults ||| c } s).trans (.latch _ _ _)
  | floor => exact (Steady.line { s.line with floorFaults := s.line.floorFaults ||| c } s).trans (.latch _ _ _)

theorem setMissed_steady (k n : Nat) (s : State) : Steady s (setMissed k n s) := .line _ s

theorem countMiss_steady (k : Nat) (s : State) : Steady s (countMiss k s) := by
  unfold countMiss
  split_ifs
  · exact (setMissed_steady k 0 s).trans (.latch _ _ _)
  · exact setMissed_steady k _ s

theorem endTurn_steady (s : State) : Steady s (endTurn s) := .line _ s

theorem endReception_steady (s : State) : Steady s (endReception s) := .line _ s

theorem strayFrame_steady (s : State) : Steady s (strayFrame s) := by
  unfold strayFrame
  split
  · exact ((endReception_steady s).trans (endTurn_steady _)).trans (countMiss_steady _ _)
  · exact endReception_steady s
  · exact endReception_steady s

theorem badSourceFrame_steady (s : State) : Steady s (badSourceFrame s) :=
  (recordFault_steady .floor _ s).trans (strayFrame_steady _)

theorem answered_steady {k : Nat} (h : answered k s = some t) : Steady s t := by
  unfold answered at h
  split at h
  · split_ifs at h
    cases h
    exact ((endReception_steady s).trans (endTurn_steady _)).trans (setMissed_steady _ _ _)
  · split_ifs at h
    cases h
    exact endReception_steady s
  · cases h

theorem faultInTurn_steady (c : Byte) (s : State) : Steady s (faultInTurn c s) := by
  unfold faultInTurn
  split
  · split_ifs
    · exact ((endReception_steady s).trans (endTurn_steady _)).trans (setMissed_steady _ _ _)
    · exact ((endReception_steady s).trans (.line _ _)).trans (setMissed_steady _ _ _)
  · exact endReception_steady s
  · exact endReception_steady s

theorem joinOffice_steady (f : Frame) (s : State) : Steady s (joinOffice f s) := by
  unfold joinOffice
  split_ifs
  · exact .line _ s
  · exact .line _ s
  · exact recordFault_steady .office _ s

theorem receiveFrames_steady (n : Nat) (run : List Chr) (s : State) : Steady s (receiveFrames n run s) := by
  induction n generalizing run s with
  | zero => unfold receiveFrames; exact .line _ s
  | succ n ih =>
    unfold receiveFrames
    cases receiveAt .office run with
    | incomplete => exact .line _ s
    | frame f => exact (joinOffice_steady f s).trans (ih _ _)
    | fault c =>
      exact ((Steady.line { s.line with officeLost := false } s).trans (recordFault_steady .office c _)).trans (ih _ _)

theorem cutOfficeFrame_steady (s : State) : Steady s (cutOfficeFrame s) := by
  unfold cutOfficeFrame
  split_ifs
  · exact .refl s
  · exact (Steady.line { s.line with officeIn := [], officeLost := false } s).trans (recordFault_steady .office _ _)

theorem discardOffice_steady (run : List Chr) (s : State) : Steady s (discardOffice run s) := by
  unfold discardOffice
  split
  · exact receiveFrames_steady _ run s
  · exact receiveFrames_steady _ run s
  · exact .refl s

theorem floorFault_steady (run : List Chr) (c : Byte) (s : State) : Steady s (floorFault run c s) := by
  have hfault := (recordFault_steady .floor c s).trans (faultInTurn_steady c _)
  unfold floorFault
  split
  · exact badSourceFrame_steady s
  · exact hfault
  · exact hfault

theorem discardFloor_steady (run : List Chr) (s : State) : Steady s (discardFloor run s) := by
  unfold discardFloor
  split
  · exact (floorFault_steady run _ s).trans (.line _ _)
  · exact .line _ s
  · exact .refl s

theorem discardAt_steady (p : Port) (cs : List Chr) (s : State) : Steady s (discardAt p cs s) := by
  cases p with
  | office => exact discardOffice_steady _ s
  | floor => exact discardFloor_steady _ s

/-! ## Frames of the floor -/

theorem receiveFloor_steady (k : Nat) {act : State → State} (ha : ∀ v, Steady v (act v)) (s : State) :
    Steady s (receiveFloor k act s) := by
  unfold receiveFloor
  split_ifs
  · exact badSourceFrame_steady s
  split
  next v hv => exact ((answered_steady hv).trans (reloadTimer_work k v).steady).trans (ha _)
  next => exact strayFrame_steady s

theorem takeForward_steady (f : Frame) (s : State) : Steady s (takeForward f s) := by
  unfold takeForward
  split_ifs
  · split
    next v hv =>
      refine (answered_steady hv).trans ?_
      unfold forwardToOffice
      split
      · exact (reloadTimer_work f.src.toNat v).steady.trans (.line _ _)
      · exact recordFault_steady .floor _ v
    next => exact strayFrame_steady s
  · exact .refl s

theorem takeStray_steady (f : Frame) (s : State) : Steady s (takeStray f s) := by
  unfold takeStray
  split_ifs
  · exact strayFrame_steady s
  · exact .refl s

theorem takeDropped_steady (f : Frame) (s : State) : Steady s (takeDropped f s) := by
  unfold takeDropped
  split_ifs
  · exact receiveFloor_steady _ .refl s
  · exact .refl s

/-! ## RESTART, the mode and the item in inspection -/

theorem pollRoles_steady (s : State) : Steady s (pollRoles s) := by
  rw [pollRoles_frame]
  exact .line _ s

theorem restart_steady (s : State) : Steady s (resumeAfterRestart (restartBlocks s)) := by
  have hblocks := ((((rebuildPicks_change s).work.trans (.foldl _ restartBay_work bayNumbers _)).trans
    (cancelReleases_work _)).trans (abandonReturns_work _)).steady
  have hline : Steady s (restartBlocks s) :=
    (hblocks.trans ((Steady.line _ _).trans (pollRoles_steady _))).trans (WorkChange.passDue false _).steady
  unfold resumeAfterRestart
  exact ((hline.trans (.toFloor restartedFrame _)).trans (handPicks_work _ _).steady).trans (passReleases_work _).steady

theorem openPart_steady (s : State) : Steady s (openPart s).state := by
  unfold openPart
  simp only
  split
  · exact .refl s
  split
  · exact .refl s
  split
  · exact .refl s
  · exact (Steady.management { s.management with mode := .service } s rfl).trans (pollRoles_steady _)

theorem sendVerdict_steady (i : ReturnItem) (v : ItemVerdict) (d : Divert) (e : ExceptionCause) (s : State) :
    Steady s (sendVerdict i v d e s) := (Steady.returns { s.returns with item := none } s).trans (.toFloor _ _)

theorem judgeItem_steady (i : ReturnItem) (c : Consignment) (s : State) : Steady s (judgeItem i c s) := by
  have hd : Steady s (dispose i.consignment c (verdictOf s.returns i c.weight)
      { s with returns := recordChannels i c.weight s.returns }).1 :=
    (Steady.returns _ s).trans (dispose_work _ _ _ _).steady
  unfold judgeItem
  simp only
  split_ifs
  · exact (hd.trans (.latch _ _ _)).trans (sendVerdict_steady _ _ _ _ _)
  · exact hd.trans (sendVerdict_steady _ _ _ _ _)

theorem completeItem_steady (i : ReturnItem) (s : State) : Steady s (completeItem i s) := by
  unfold completeItem
  refine Steady.trans ?_ (finishInspection_work _).steady
  cases matchItem s i with
  | ok c => exact judgeItem_steady i c s
  | error e => exact (Steady.latch _ _ s).trans (sendVerdict_steady _ _ _ _ _)

theorem expire_steady (s : State) (b : Nat) : Steady s (expire s b) :=
  ((faultBay_work b .stall s).trans (settle_work _)).steady

/-- One second on an empty queue (R79). -/
theorem tick_steady (s : State) : Steady s (tick s) := (passSeconds_steady 1 s).trans (.foldl expire expire_steady _ _)

/-! ## How commands are taken -/

theorem takeOffice_steady {f : Frame} (h : takeOffice f s = some t) : Steady s t := by
  rw [(takeOffice_work h).1]
  exact .line _ s

theorem replyTo_steady (f : Frame) (c : Code) (fs : List Byte) (s : State) : Steady s (replyTo f c fs s) := .line _ s

theorem request_steady {i : Instr} {act : State → Answer} (h : request i s act = .next t)
    (ha : ∀ v, Steady v (act v).state) : Steady s t := by
  obtain rfl | ⟨f, s0, -, ht, rfl⟩ := request_cases h
  · exact .refl _
  · exact (((takeOffice_steady ht).trans (ha s0)).trans (settle_work _).steady).trans (replyTo_steady _ _ _ _)

theorem inService_steady {v : State} {a : Answer} (h : Steady v a.state) : Steady v (inService v a).state := by
  unfold inService
  split
  · exact h
  · exact .refl v

theorem inSetup_steady {v : State} {a : Answer} (h : Steady v a.state) : Steady v (inSetup v a).state := by
  unfold inSetup
  split
  · exact h
  · exact .refl v

theorem event_steady (h : event t = .next u) (g : Steady s t) : Steady s u := by
  cases h
  exact g.trans (settle_work t).steady

theorem floorEvent_steady {i : Instr} {act : Frame → State → State} (h : floorEvent i act s = .next t)
    (ha : ∀ f v, Steady v (act f v)) : Steady s t := by
  unfold floorEvent at h
  split at h
  · cases h; exact .refl s
  · split_ifs at h
    · exact event_steady h (ha _ s)
    · cases h; exact .refl s

theorem bayFrame_steady {i : Instr} {act : Nat → State → State} (h : bayFrame i act s = .next t)
    (ha : ∀ b v, WorkChange v (act b v)) : Steady s t :=
  floorEvent_steady h fun f v => receiveFloor_steady _ (fun w => by
    unfold takenByBay
    split
    · exact (ha _ w).steady
    · exact .refl w) v

theorem unitFrame_steady {i : Instr} {owner : Owner} {act : State → State} (h : unitFrame i owner act s = .next t)
    (ha : ∀ v, WorkChange v (act v)) : Steady s t :=
  floorEvent_steady h fun f v => receiveFloor_steady _ (fun w => by
    unfold takenBy
    split_ifs
    · exact (ha w).steady
    · exact .refl w) v

end Steady

end Sys2Proof.Machine
end

