-- ==== Sys2Proof/Proofs/CommandChanges.lean ====
section
/-! PROOFS. What any command can do to the circulation: work in circulation and changes beside it, unless it is a full reset or
one of the requests that write the circulation outright (`WritesCirculation`). -/

namespace Sys2Proof.Machine

/-! ## The part's own steps -/

section Exec

variable {s t : State}

/-- A command that answers with a state that it reaches by work in circulation and changes beside it. -/
def Steadies (s : State) (r : Result) : Prop := ∀ t, r = .next t → Steady s t

theorem Steady.steadies (h : Steady s t) : Steadies s (.next t) := by
  rintro u hu
  cases hu
  exact h

theorem steadies_self (s : State) : Steadies s (.next s) := (Steady.refl s).steadies

theorem execOfficeRateChange_steadies (s : State) : Steadies s (execOfficeRateChange s) := by
  unfold execOfficeRateChange
  split
  · exact steadies_self s
  · split_ifs
    · exact ((Steady.line _ s).trans (cutOfficeFrame_steady _)).steadies
    · exact steadies_self s

theorem execFloorRateChange_steadies (s : State) : Steadies s (execFloorRateChange s) := by
  unfold execFloorRateChange
  split
  · exact steadies_self s
  · split_ifs
    · exact (Steady.line _ s).steadies
    · exact steadies_self s

theorem execUnlistedManagementKind_steadies (src kind : Byte) (payload : List Byte) (s : State) :
    Steadies s (execUnlistedManagementKind src kind payload s) := by
  unfold execUnlistedManagementKind
  split
  · exact steadies_self s
  · exact fun _ h => request_steady h .refl

theorem execStallExpiry_steadies (bay : Byte) (s : State) : Steadies s (execStallExpiry bay s) := by
  unfold execStallExpiry
  split_ifs
  · exact ((passSeconds_steady _ s).trans (expire_steady _ _)).steadies
  · exact steadies_self s

theorem execOwedReturnAnswer_steadies (s : State) : Steadies s (execOwedReturnAnswer s) := by
  unfold execOwedReturnAnswer
  split
  · exact steadies_self s
  · split_ifs
    · exact ((Steady.returns _ s).trans (.toFloor _ _)).steadies
    · exact steadies_self s

theorem execInspectionCompletion_steadies (s : State) : Steadies s (execInspectionCompletion s) := by
  unfold execInspectionCompletion
  split
  · exact steadies_self s
  · split_ifs
    · exact fun _ h => event_steady h (completeItem_steady _ s)
    · exact steadies_self s

theorem execSweepStep_steadies (s : State) : Steadies s (execSweepStep s) := by
  unfold execSweepStep
  split_ifs
  · exact fun _ h => event_steady h ((examineRecord_work _ s).trans (advanceSweep_work _)).steady
  · exact steadies_self s

theorem execOwedCommandHandOn_steadies (s : State) : Steadies s (execOwedCommandHandOn s) := by
  unfold execOwedCommandHandOn
  split
  · exact steadies_self s
  next b _ =>
    split
    · exact steadies_self s
    next f rest _ =>
      have hand := (WorkChange.modBay b (fun bay => { bay with owed := rest }) s).steady.trans (.toFloor f _)
      simp only
      split_ifs
      · exact (hand.trans (loadTimer_work b _).steady).steadies
      · exact hand.steadies
      · exact steadies_self s

theorem execOfficeFrameReceive_steadies (chars : List Chr) (s : State) : Steadies s (execOfficeFrameReceive chars s) := by
  unfold execOfficeFrameReceive
  simp only
  split
  · exact (receiveFrames_steady _ _ s).steadies
  · exact (receiveFrames_steady _ _ s).steadies
  · exact steadies_self s

theorem execOfficePeerFrame_steadies (s : State) : Steadies s (execOfficePeerFrame s) := by
  unfold execOfficePeerFrame
  split
  · exact steadies_self s
  · split_ifs
    · exact (Steady.line _ s).steadies
    · exact steadies_self s

theorem execForwardToFloor_steadies (s : State) : Steadies s (execForwardToFloor s) := by
  unfold execForwardToFloor
  split
  · exact steadies_self s
  · split_ifs
    · exact steadies_self s
    · exact ((Steady.line _ s).trans (.toFloor _ _)).steadies
    · exact steadies_self s
    · exact (Steady.line _ s).steadies
    · exact steadies_self s

theorem execSendReply_steadies (s : State) : Steadies s (execSendReply s) := by
  unfold execSendReply
  split
  · exact steadies_self s
  · split_ifs
    · exact (Steady.line _ s).steadies
    · exact steadies_self s

theorem execSendForwardedFrame_steadies (s : State) : Steadies s (execSendForwardedFrame s) := by
  unfold execSendForwardedFrame
  split
  · split_ifs
    · exact (Steady.line _ s).steadies
    · exact steadies_self s
  · exact steadies_self s

theorem execNotice_steadies (s : State) : Steadies s (execNotice s) := by
  unfold execNotice
  split
  next n _ _ _ =>
    split_ifs
    · exact ((Steady.line { s.line with officeSending := some (noticeFrame n (bankGet s.management.notices n {})) } s).trans
        (.management { s.management with notices := bankModify s.management.notices n NoticeCell.sent } _ rfl)).steadies
    · exact steadies_self s
  · exact steadies_self s

theorem execFloorSend_steadies (s : State) : Steadies s (execFloorSend s) := by
  unfold execFloorSend
  split
  · exact steadies_self s
  · split_ifs
    · exact (Steady.line _ s).steadies
    · exact steadies_self s

theorem execPoll_steadies (s : State) : Steadies s (execPoll s) := by
  unfold execPoll
  split
  · exact steadies_self s
  · split_ifs
    · exact (Steady.line _ s).steadies
    · exact steadies_self s

theorem execReplyTurnGrant_steadies (s : State) : Steadies s (execReplyTurnGrant s) := by
  unfold execReplyTurnGrant
  split
  · exact steadies_self s
  · split_ifs
    · exact (Steady.line _ s).steadies
    · exact (Steady.line _ s).steadies
    · exact steadies_self s

theorem execReplyWindowExpiry_steadies (s : State) : Steadies s (execReplyWindowExpiry s) := by
  unfold execReplyWindowExpiry
  split
  · exact steadies_self s
  · split_ifs
    · exact steadies_self s
    · exact ((endTurn_steady s).trans (countMiss_steady _ _)).steadies

theorem execTurnSilenceExpiry_steadies (s : State) : Steadies s (execTurnSilenceExpiry s) := by
  unfold execTurnSilenceExpiry
  split
  · exact steadies_self s
  · split_ifs
    · exact (endTurn_steady s).steadies
    · exact steadies_self s

/-! ## Requests -/

theorem placeOrder_steady (patron title : Nat) (s : State) : Steady s (placeOrder patron title s).state := by
  unfold placeOrder
  split
  · exact .freeIx _ s
  split
  · exact .freeIx _ s
  split
  · exact .freeIx _ s
  · exact (acceptOrder_change _ patron title s).steady

theorem writeChannel_steady (c : Nat) (cfg : Channel) (s : State) : Steady s (writeChannel c cfg s).state := by
  unfold writeChannel
  split_ifs
  · exact .refl s
  · exact .refl s
  · exact .refl s
  · exact .returns _ s

theorem suspendInspection_steady (s : State) : Steady s (suspendInspection s) := by
  unfold suspendInspection
  split_ifs
  · exact .refl s
  · exact .returns _ s
  · exact .returns _ s

theorem restartAnswer_steady (s : State) :
    Steady s (inService s ⟨resumeAfterRestart (restartBlocks s), .ok, []⟩).state := by
  have hr := restart_steady s
  generalize resumeAfterRestart (restartBlocks s) = t at hr ⊢
  exact inService_steady hr

theorem advanceDay_steady (d : Day) (s : State) : Steady s (advanceDay d s).state := by
  unfold advanceDay
  split_ifs
  · exact .refl s
  · exact .refl s
  · exact .days _ s
  · exact .refl s

/-! ## Every command -/

/-- The requests that write the tables, the class accounts, the settings, the zone windows or a manifest half outright, and not
by work in circulation. -/
inductive WritesCirculation : Instr → Prop
  | setGeometry (p t q c j : U16) : WritesCirculation (.setGeometry p t q c j)
  | setSetting (setting value : Byte) : WritesCirculation (.setSetting setting value)
  | loadPatron (patron : U16) (present status patronClass level formats cartridgeClass quota agency : Byte) (code : U24) :
    WritesCirculation (.loadPatron patron present status patronClass level formats cartridgeClass quota agency code)
  | loadAgency (agency : U16) (present : Byte) (code : U24) : WritesCirculation (.loadAgency agency present code)
  | loadTitle (title : U16) (present format policy level availability : Byte) (extent : U16)
    (granularity shelfClass volumes : Byte) (weight : U16) :
    WritesCirculation
      (.loadTitle title present format policy level availability extent granularity shelfClass volumes weight)
  | setWindow (window enabled : Byte) (low high : U24) (chute mailClass transit : Byte) (limit : U16) (hold : Byte) :
    WritesCirculation (.setWindow window enabled low high chute mailClass transit limit hold)
  | releaseManifest (half : Byte) : WritesCirculation (.releaseManifest half)
  | repaired (cls : Byte) (n title : U16) : WritesCirculation (.repaired cls n title)
  | retireRepair (cls : Byte) (n title : U16) : WritesCirculation (.retireRepair cls n title)

/-- What command `i` can do to the circulation. -/
inductive CommandChange (i : Instr) (s t : State) : Prop
  /-- It writes the circulation outright. -/
  | writes (h : WritesCirculation i)
  /-- It is a full reset. -/
  | reset (h : t = fullReset s)
  /-- It is work in circulation and changes beside it. -/
  | steady (h : Steady s t)


theorem exec_change (i : Instr) (h : exec i s = .next t) : CommandChange i s t := by
  unfold exec at h
  cases i with
  | setGeometry | setSetting | loadPatron | loadAgency | loadTitle | setWindow | releaseManifest | repaired
  | retireRepair => exact .writes (by constructor)
  | resetPin | powerOn =>
    cases h
    exact .reset rfl
  | resetAfterReply =>
    unfold execResetAfterReply at h
    split_ifs at h <;> cases h
    · exact .reset rfl
    · exact .steady (.refl s)
  | restart => exact .steady (request_steady h fun v => restartAnswer_steady v)
  | setClass cls capacity =>
    refine .steady (request_steady h fun v => inSetup_steady ?_)
    split_ifs
    · exact .refl v
    · exact .management _ v rfl
  | setLines o f =>
    refine .steady (request_steady h fun v => inSetup_steady ?_)
    split
    · exact .line _ v
    · exact .refl v
  | setDay d => exact .steady (request_steady h fun v => inSetup_steady (.days _ v))
  | openService => exact .steady (request_steady h fun v => inSetup_steady (openPart_steady v))
  | setBay => exact .steady (request_steady h fun v => (configureBay_work _ _ _ _ v).steady)
  | bayOnline bay =>
    refine .steady (request_steady h fun v => inService_steady ?_)
    split_ifs
    · exact .refl v
    · exact .refl v
    · exact (bringOnline_work _ v).steady
  | bayOffline bay =>
    refine .steady (request_steady h fun v => inService_steady ?_)
    split_ifs
    · exact .refl v
    split
    · exact .refl v
    · exact (WorkChange.modBay _ _ v).steady
    all_goals exact (takeOffline_work _ v).steady
  | buildStock => exact .steady (request_steady h fun v => inService_steady (buildRun_change _ _ v).steady)
  | raiseJob => exact .steady (request_steady h fun v => inService_steady (raiseJobTo3_change _ v).steady)
  | flushPack => exact .steady (request_steady h fun v => inService_steady (flushPacks_change _ v).steady)
  | day d => exact .steady (request_steady h fun v => inService_steady (advanceDay_steady d v))
  | setChannel channel mode action store reference =>
    refine .steady (request_steady h fun v => ?_)
    split
    · split_ifs
      · exact .refl v
      · exact writeChannel_steady _ _ v
    · exact .refl v
  | setThreshold entry value =>
    refine .steady (request_steady h fun v => ?_)
    split_ifs
    · exact .refl v
    · exact .refl v
    · exact .returns _ v
  | inspectSuspend => exact .steady (request_steady h suspendInspection_steady)
  | inspectResume => exact .steady (request_steady h fun v => (resumeInspection_work v).steady)
  | clearHits => exact .steady (request_steady h fun v => .returns _ v)
  | stockAdd => exact .steady (request_steady h fun v => (addStock_work _ _ v).steady)
  | stockAddTitle => exact .steady (request_steady h fun v => (addTitleStock_change _ _ v).steady)
  | declareLost => exact .steady (request_steady h fun v => inService_steady (declareLoss_work _ v).steady)
  | order => exact .steady (request_steady h fun v => inService_steady (placeOrder_steady _ _ v))
  | probe =>
    refine .steady (request_steady h fun v => inService_steady ?_)
    rw [probeOrder_state]
    exact .refl v
  | cancel => exact .steady (request_steady h fun v => inService_steady (cancelOrder_change _ _ v).steady)
  | clearLineFaults => exact .steady (request_steady h fun v => .line _ v)
  | setMask =>
    refine .steady (request_steady h fun v => ?_)
    split_ifs
    · exact .refl v
    · exact .management _ v rfl
  | readRecord | readStock =>
    refine .steady (request_steady h fun v => ?_)
    split <;> exact .refl v
  | readChannel channel =>
    refine .steady (request_steady h fun v => ?_)
    split_ifs <;> exact .refl v
  | readManifest half index =>
    refine .steady (request_steady h fun v => ?_)
    split
    · exact .refl v
    · split_ifs
      · exact .refl v
      · rw [manifestAnswer_state]
        exact .refl v
  | reset | readDispatch | readInspection | readDay | readSetup | readLines | readNotices =>
    exact .steady (request_steady h .refl)
  | unlistedManagementKind => exact .steady (execUnlistedManagementKind_steadies _ _ _ s t h)
  | officeRateChange => exact .steady (execOfficeRateChange_steadies s t h)
  | floorRateChange => exact .steady (execFloorRateChange_steadies s t h)
  | stallExpiry => exact .steady (execStallExpiry_steadies _ s t h)
  | started => exact .steady (bayFrame_steady h fun b v => takeStarted_work _ _ b v)
  | progress => exact .steady (bayFrame_steady h fun b v => takeProgress_work _ _ b v)
  | parked => exact .steady (bayFrame_steady h fun b v => takeParked_work _ _ b v)
  | copyDone => exact .steady (bayFrame_steady h fun b v => takeCopyDone_work _ _ _ b v)
  | bayFault => exact .steady (bayFrame_steady h fun b v => takeBayFault_work _ b v)
  | pick => exact .steady (event_steady h (handPick_work _ s).steady)
  | picked => exact .steady (unitFrame_steady h fun v => takePicked_work _ _ v)
  | notFound => exact .steady (unitFrame_steady h fun v => (takeNotFound_change _ v).work)
  | releasePass => exact .steady (event_steady h (passReleases_work s).steady)
  | chuted => exact .steady (unitFrame_steady h fun v => takeChuted_work _ v)
  | chuteFull => exact .steady (unitFrame_steady h fun v => takeChuteFull_work _ _ v)
  | chuteClear => exact .steady (unitFrame_steady h fun v => takeChuteClear_work _ v)
  | returnItem => exact .steady (unitFrame_steady h fun v => takeReturnItem_if_work _ _ v)
  | owedReturnAnswer => exact .steady (execOwedReturnAnswer_steadies s t h)
  | inspectionCompletion => exact .steady (execInspectionCompletion_steadies s t h)
  | sweepStep => exact .steady (execSweepStep_steadies s t h)
  | owedCommandHandOn => exact .steady (execOwedCommandHandOn_steadies s t h)
  | officeFrameReceive => exact .steady (execOfficeFrameReceive_steadies _ s t h)
  | officePeerFrame => exact .steady (execOfficePeerFrame_steadies s t h)
  | forwardToFloor => exact .steady (execForwardToFloor_steadies s t h)
  | floorForward => exact .steady (floorEvent_steady h takeForward_steady)
  | frameDiscard port chars => exact .steady ((discardAt_steady port chars s).steadies t h)
  | strayFloorFrame => exact .steady (floorEvent_steady h takeStray_steady)
  | quiet => exact .steady (floorEvent_steady h fun f v => receiveFloor_steady _ .refl v)
  | sendReply => exact .steady (execSendReply_steadies s t h)
  | sendForwardedFrame => exact .steady (execSendForwardedFrame_steadies s t h)
  | notice => exact .steady (execNotice_steadies s t h)
  | floorSend => exact .steady (execFloorSend_steadies s t h)
  | poll => exact .steady (execPoll_steadies s t h)
  | replyTurnGrant => exact .steady (execReplyTurnGrant_steadies s t h)
  | replyWindowExpiry => exact .steady (execReplyWindowExpiry_steadies s t h)
  | turnSilenceExpiry => exact .steady (execTurnSilenceExpiry_steadies s t h)
  | floorFrameNotTaken => exact .steady (floorEvent_steady h takeDropped_steady)

end Exec

end Sys2Proof.Machine
end

