-- ==== Sys2Proof/Proofs/Halves.lean ====
section
/-! PROOFS. The manifest halves: reading one after a write of one (R114). -/

namespace Sys2Proof.Machine

section Halves

variable {s t : State}

theorem halfAt_congr (h : t.dispatch = s.dispatch) (j : Bool) : halfAt t j = halfAt s j := by
  rw [halfAt, h, halfAt]

@[simp] theorem halfAt_setHalf_same (h : Bool) (rs : List ManifestRecord) (s : State) : halfAt (setHalf h rs s) h = rs := by
  cases h <;> rfl

theorem halfAt_setHalf_other {h j : Bool} (hj : j ≠ h) (rs : List ManifestRecord) (s : State) :
    halfAt (setHalf h rs s) j = halfAt s j := by
  obtain rfl := Bool.eq_not_of_ne hj
  cases h <;> rfl

@[simp] theorem setHalf_filling (h : Bool) (rs : List ManifestRecord) (s : State) :
    (setHalf h rs s).dispatch.filling = s.dispatch.filling := by
  cases h <;> rfl

@[simp] theorem setHalf_outstanding (h : Bool) (rs : List ManifestRecord) (s : State) :
    (setHalf h rs s).dispatch.outstanding = s.dispatch.outstanding := by
  cases h <;> rfl

/-- A write of a half writes nothing else. -/
theorem setHalf_frame (h : Bool) (rs : List ManifestRecord) (s : State) :
    setHalf h rs s = { s with dispatch := (setHalf h rs s).dispatch } := by
  cases h <;> rfl

theorem setHalf_dispatch (h : Bool) (rs : List ManifestRecord) (s : State) :
    (setHalf h rs s).dispatch = { s.dispatch with
      half0 := (setHalf h rs s).dispatch.half0, half1 := (setHalf h rs s).dispatch.half1 } := by
  cases h <;> rfl

theorem setHalf_management (h : Bool) (rs : List ManifestRecord) (s : State) :
    (setHalf h rs s).management = s.management := by
  rw [setHalf_frame]

theorem setHalf_passDue (h : Bool) (rs : List ManifestRecord) (s : State) : (setHalf h rs s).passDue = s.passDue := by
  rw [setHalf_frame]

end Halves

end Sys2Proof.Machine
end

