-- ==== Sys2Proof/Proofs/ManifestBound.lean ====
section
/-! PROOFS. R106: releases outstanding keep their places in the filling half, and neither half outgrows its 64 records. -/

namespace Sys2Proof.Machine

section ManifestBound

variable {s t u : State}

/-! ## Writes outside the Dispatch Unit -/

/-- R106's bound carries over from `s` to `t`. -/
def BoundKept (s t : State) : Prop := ManifestBounded s → ManifestBounded t

theorem BoundKept.of_dispatch (h : t.dispatch = s.dispatch) : BoundKept s t := by
  intro hs
  rw [manifestBounded_iff] at hs ⊢
  rwa [h]

theorem BoundKept.trans (h : BoundKept s t) (g : BoundKept t u) : BoundKept s u := g ∘ h

theorem OrderChange.bound (h : OrderChange s t) : BoundKept s t := .of_dispatch h.dispatch

theorem Steady.bound (h : Steady s t) : BoundKept s t :=
  h.keeps (P := ManifestBounded) (fun hw => hw.manifest) fun hs => BoundKept.of_dispatch hs.dispatch

theorem manifestBounded_empty (h : t.dispatch = {}) : ManifestBounded t := by
  rw [manifestBounded_iff, h]
  exact ⟨by decide, by decide, by decide⟩

theorem request_bound {i : Instr} {act : State → Answer} (h : request i s act = .next t)
    (ha : ∀ v, BoundKept v (act v).state) : BoundKept s t := by
  obtain rfl | ⟨f, s0, -, ht, rfl⟩ := request_cases h
  · exact id
  · exact (((takeOffice_steady ht).bound.trans (ha s0)).trans (settle_work _).manifest).trans (replyTo_steady _ _ _ _).bound

@[simp] theorem changeMembers_dispatch (a b : Nat) (s : State) : (changeMembers a b s).dispatch = s.dispatch := by
  unfold changeMembers
  split_ifs <;> rfl

theorem deletePatron_bound (k : Nat) (s : State) : BoundKept s (deletePatron k s).state := by
  unfold deletePatron
  split
  · exact id
  · split_ifs
    · exact id
    · exact .of_dispatch (changeMembers_dispatch _ _ s)

theorem writePatron_bound (k : Nat) (p : Patron) (s : State) : BoundKept s (writePatron k p s).state := by
  have hput (a b : Nat) (ps : Table Patron) : BoundKept s { changeMembers a b s with records.patrons := ps } :=
    .of_dispatch (changeMembers_dispatch a b s)
  unfold writePatron
  split_ifs
  · exact id
  split
  · exact hput _ _ _
  · split_ifs
    · exact id
    · exact (hput _ _ _).trans (headroom_change k _).bound
    · exact hput _ _ _

theorem writeAgency_bound (k code : Nat) (s : State) : BoundKept s (writeAgency k code s) := by
  unfold writeAgency
  split <;> exact .of_dispatch rfl

theorem deleteAgency_bound (k : Nat) (s : State) : BoundKept s (deleteAgency k s).state := by
  unfold deleteAgency
  split
  · exact id
  · split_ifs
    · exact id
    · exact .of_dispatch rfl

theorem deleteTitle_bound (k : Nat) (s : State) : BoundKept s (deleteTitle k s).state := by
  unfold deleteTitle
  split
  · exact id
  · split_ifs
    · exact id
    · refine .of_dispatch ?_
      unfold shelfToBlank
      split_ifs <;> rfl

theorem writeTitle_bound (k : Nat) (x : Title) (s : State) : BoundKept s (writeTitle k x s).state := by
  unfold writeTitle
  split
  · exact .of_dispatch rfl
  · split_ifs
    · exact id
    · exact .of_dispatch (copiesFreed_change _ k _).dispatch

theorem repairItems_bound (cls n title : Nat) (s : State) : BoundKept s (repairItems cls n title s).state := by
  unfold repairItems
  split
  · exact id
  · exact .of_dispatch rfl
  · exact ((mendCopies_change title n _ s).trans (copiesFreed_change n title _)).bound

theorem retireItems_bound (cls n title : Nat) (s : State) : BoundKept s (retireItems cls n title s).state := by
  unfold retireItems
  split
  · exact id
  · exact .of_dispatch rfl
  · exact (retireCopies_change title n _ s).bound

/-! ## Settings (R185, R186) -/

theorem evaluateHeld_dispatch (k : Nat) (s : State) : (evaluateHeld k s).dispatch = s.dispatch := by
  unfold evaluateHeld
  split
  · rfl
  · simp only
    split_ifs
    · exact (headroom_change k _).dispatch
    · rfl

theorem writeHoldLimit_bound (v : Nat) (s : State) : BoundKept s (writeHoldLimit v s) := by
  unfold writeHoldLimit
  split_ifs
  · exact id
  · refine .of_dispatch (List.foldlRecOn (motive := fun u : State => u.dispatch = s.dispatch) _ _ rfl ?_)
    exact fun u hu k _ => (evaluateHeld_dispatch k u).trans hu

theorem changeRole_bound (old new : Nat) (f : Settings → Settings) {act : State → State} (ha : ∀ v, WorkChange v (act v))
    (s : State) : BoundKept s (changeRole old new (modSettings f) act s) := by
  have hwrite : BoundKept s (modSettings f s) := .of_dispatch rfl
  unfold changeRole
  split_ifs
  · exact id
  split
  · exact hwrite
  · exact hwrite.trans (((leavePoll_work old _).trans (joinPoll_work new _)).trans (ha _)).manifest

theorem writeSetting_bound (w : SettingWrite) (v : Nat) (s : State) : BoundKept s (writeSetting w v s).state := by
  cases w with
  | plain f => exact .of_dispatch rfl
  | holdLimit n => exact writeHoldLimit_bound n s
  | pickRole n =>
    unfold writeSetting
    simp only
    split_ifs
    · exact id
    · exact changeRole_bound _ _ _ (fun v => (rebuildPicks_change v).work.trans (handPicks_work _ _)) s
  | sorterRole n =>
    unfold writeSetting
    simp only
    split_ifs
    · exact id
    · exact changeRole_bound _ _ _ (fun v => (cancelReleases_work v).trans (passReleases_work _)) s
  | scannerRole n =>
    unfold writeSetting
    simp only
    split_ifs
    · exact id
    · exact changeRole_bound _ _ _ (fun v => (abandonReturns_work v).trans (startInspection_work _)) s

/-! ## The Dispatch Unit's own requests -/

theorem windows_bound (w : Vector Window 16) (s : State) : BoundKept s { s with dispatch.windows := w } := id

/-- RELEASE_MANIFEST empties the half that is not filling, and fills it next when the other is full (R116). -/
theorem releaseHalf_bound (h : Bool) (s : State) : BoundKept s (releaseHalf h s).state := by
  unfold releaseHalf
  split_ifs with hfill
  · exact id
  · exact id
  · refine BoundKept.trans ?_ (passReleases_work _).manifest
    rintro ⟨hout, hplace, -⟩
    obtain rfl : h = !s.dispatch.filling := Bool.eq_not_of_ne hfill
    refine ⟨?_, ?_, ?_⟩
    · rwa [setHalf_outstanding]
    · rwa [setHalf_outstanding, setHalf_filling, halfAt_setHalf_other (by simp)]
    · rw [setHalf_filling, halfAt_setHalf_same]
      exact Nat.zero_le _
  · refine BoundKept.trans ?_ (passReleases_work _).manifest
    rintro ⟨hout, hplace, -⟩
    have hempty : halfAt (setHalf h [] s) h = [] := halfAt_setHalf_same h [] s
    have hfull : halfAt (setHalf h [] s) (!h) = halfAt s s.dispatch.filling := by
      rw [halfAt_setHalf_other (by simp), Bool.eq_not_of_ne hfill, Bool.not_not]
    have hold := setHalf_outstanding h [] s
    refine BoundKept.of_dispatch (latch_dispatch _ _ _) ⟨?_, ?_, ?_⟩
    · exact hold ▸ hout
    · show (halfAt (setHalf h [] s) h).length + (setHalf h [] s).dispatch.outstanding.length ≤ _
      rw [hempty, hold]
      simp only [Config.maxReleases, Config.manifestHalfPlaces, List.length_nil] at hout ⊢
      omega
    · show (halfAt (setHalf h [] s) (!h)).length ≤ _
      rw [hfull]
      exact le_trans (Nat.le_add_right _ _) hplace

/-- A request that writes the circulation outright keeps the bound. -/
theorem writesCirculation_bound {i : Instr} (hi : WritesCirculation i) (h : exec i s = .next t) : BoundKept s t := by
  unfold exec at h
  cases hi with
  | setGeometry p t q c j =>
    refine request_bound h fun v => ?_
    unfold inSetup
    split
    · simp only
      split_ifs
      · exact fun _ => manifestBounded_empty rfl
      · exact id
    · exact id
  | setSetting setting value =>
    refine request_bound h fun v => ?_
    split
    · exact id
    · exact writeSetting_bound _ _ v
  | loadPatron =>
    refine request_bound h fun v => ?_
    split_ifs
    · exact id
    · exact id
    split
    · exact deletePatron_bound _ v
    · exact writePatron_bound _ _ v
    · exact id
  | loadAgency =>
    refine request_bound h fun v => ?_
    split_ifs
    · exact id
    split
    · exact id
    · exact writeAgency_bound _ _ v
    · exact deleteAgency_bound _ v
  | loadTitle =>
    refine request_bound h fun v => ?_
    split_ifs
    · exact id
    split
    · exact deleteTitle_bound _ v
    · exact writeTitle_bound _ _ v
    · exact id
  | setWindow =>
    refine request_bound h fun v => ?_
    split
    · exact id
    · exact (windows_bound _ v).trans (passReleases_work _).manifest
  | releaseManifest half =>
    refine request_bound h fun v => ?_
    split
    · exact id
    · exact releaseHalf_bound _ v
  | repaired => exact request_bound h (repairItems_bound _ _ _)
  | retireRepair => exact request_bound h (retireItems_bound _ _ _)

theorem exec_bound (i : Instr) (h : exec i s = .next t) : BoundKept s t := by
  obtain hi | rfl | hs := exec_change i h
  · exact writesCirculation_bound hi h
  · exact fun _ => manifestBounded_empty rfl
  · exact hs.bound

theorem step_bound (h : step s = .next t) : BoundKept s t := by
  unfold step at h
  split at h
  · cases h
    exact (tick_steady s).bound
  next c rest _ => exact (withPending_steady rest s).bound.trans (exec_bound c h)

/-- The two halves and the outstanding releases together (R106). -/
theorem ManifestBounded.total (h : ManifestBounded s) :
    s.dispatch.half0.length + s.dispatch.half1.length + s.dispatch.outstanding.length ≤ 128 := by
  rw [manifestBounded_iff] at h
  obtain ⟨-, hplace, hother⟩ := h
  split_ifs at hplace hother <;> omega

end ManifestBound

end Sys2Proof.Machine

open Sys2Proof.Machine in
/-- Settles O6: a command works in circulation, or beside it, or writes outright, and each keeps the bound. -/
theorem everyStepKeepsManifestBounded : Obligations.EveryStepKeepsManifestBounded := by
  intro s t hs h
  have ht : ManifestBounded t := step_bound h hs
  exact ⟨ht, ht.total⟩
end

