-- ==== Sys2Proof/Proofs/ReadOuts.lean ====
section
/-! PROOFS. The read-outs of the units (R117, R118, R144, R162, R175): their layouts, and that they answer with nothing changed. -/

namespace Sys2Proof.Machine

/-! ## The layouts -/

@[simp] theorem channelModeValue_mod (x : ChannelMode) : channelModeValue x % 256 = channelModeValue x := by cases x <;> rfl
@[simp] theorem channelActionValue_mod (x : ChannelAction) : channelActionValue x % 256 = channelActionValue x := by
  cases x <;> rfl
@[simp] theorem channelStoreValue_mod (x : ChannelStore) : channelStoreValue x % 256 = channelStoreValue x := by
  cases x <;> rfl
@[simp] theorem channelReferenceValue_mod (x : ChannelReference) : channelReferenceValue x % 256 = channelReferenceValue x := by
  cases x <;> rfl
@[simp] theorem mailClassValue_mod (x : MailClass) : mailClassValue x % 256 = mailClassValue x := by cases x <;> rfl

theorem stockBytes_fields (s : State) (cls : Nat) :
    let fs := stockBytes s cls
    let a := accountAt s cls
    fs.length = 17 ∧ fieldAt fs 0 2 = a.stock % 65536 ∧ fieldAt fs 2 2 = a.blank % 65536 ∧
    fieldAt fs 4 2 = a.reserved % 65536 ∧ fieldAt fs 6 2 = a.consigned % 65536 ∧ fieldAt fs 8 2 = a.shelf % 65536 ∧
    fieldAt fs 10 2 = a.repair % 65536 ∧ fieldAt fs 12 2 = a.bound % 65536 ∧
    fieldAt fs 14 3 = capacityOf s cls % 16777216 := by
  have hlast (v : Nat) : fieldAt (bytesLE 3 v) 0 3 = v % 16777216 := fieldAt_bytesLE 3 v
  simp [stockBytes, hlast]

/-- The fields of READ_DAY (R175). -/
def dayBytes (s : State) : List Byte :=
  todayBytes s ++ [flagByte s.days.sweeping] ++ bytesLE 2 s.days.position ++ bytesLE 2 s.days.marked ++
    bytesLE 2 s.days.sealedCount ++ [byteOf s.management.settings.holdLimit, byteOf s.management.settings.packHold]

theorem dayBytes_fields (s : State) :
    let fs := dayBytes s
    fs.length = 11 ∧ fieldAt fs 0 2 = s.days.today.toNat ∧ fieldAt fs 2 1 = s.days.sweeping.toNat ∧
    fieldAt fs 3 2 = s.days.position % 65536 ∧ fieldAt fs 5 2 = s.days.marked % 65536 ∧
    fieldAt fs 7 2 = s.days.sealedCount % 65536 ∧ fieldAt fs 9 1 = s.management.settings.holdLimit % 256 ∧
    fieldAt fs 10 1 = s.management.settings.packHold % 256 := by
  simp [dayBytes, todayBytes]

/-- The fields of READ_INSPECTION (R144). -/
def inspectionStateBytes (s : State) : List Byte :=
  inspectionBytes s ++ [byteOf s.returns.queue.length] ++ itemBytes s.returns.item ++
    [flagByte s.returns.owedAnswer.isSome] ++ bytesLE 2 s.returns.hits.toNat ++ bytesLE 2 s.returns.high.toNat

theorem inspectionStateBytes_fields (s : State) :
    let fs := inspectionStateBytes s
    fs.length = 12 ∧ fieldAt fs 0 1 = s.returns.suspended.toNat ∧ fieldAt fs 1 1 = s.returns.suspendPending.toNat ∧
    fieldAt fs 2 1 = s.returns.queue.length % 256 ∧ fieldAt fs 3 1 = s.returns.item.isSome.toNat ∧
    (∀ i, s.returns.item = some i → fieldAt fs 4 2 = i.consignment % 65536 ∧ fieldAt fs 6 1 = i.part % 256) ∧
    fieldAt fs 7 1 = s.returns.owedAnswer.isSome.toNat ∧ fieldAt fs 8 2 = s.returns.hits.toNat ∧
    fieldAt fs 10 2 = s.returns.high.toNat := by
  cases h : s.returns.item <;> simp [inspectionStateBytes, inspectionBytes, itemBytes, h]

theorem channelBytes_fields (u : ReturnUnit) (c : Nat) :
    let fs := channelBytes u c
    let cfg := channelAt u c
    let st := storedAt u c
    fs.length = 11 ∧ fieldAt fs 0 1 = channelModeValue cfg.mode ∧ fieldAt fs 1 1 = channelActionValue cfg.action ∧
    fieldAt fs 2 1 = channelStoreValue cfg.store ∧ fieldAt fs 3 1 = channelReferenceValue cfg.reference ∧
    fieldAt fs 4 2 = (BitVec.ofInt 16 (thresholdAt u c)).toNat ∧ fieldAt fs 6 1 = st.valid.toNat ∧
    fieldAt fs 7 2 = (BitVec.ofInt 16 st.value).toNat ∧ fieldAt fs 9 2 = st.consignment % 65536 := by
  simp [channelBytes, signedLE, -BitVec.toNat_ofInt]

theorem manifestBytes_fields (r : ManifestRecord) :
    let fs := manifestBytes r
    fs.length = 22 ∧ fieldAt fs 0 2 = r.consignment % 65536 ∧ fieldAt fs 2 2 = r.patron % 65536 ∧
    fieldAt fs 4 1 = consKindValue r.kind ∧ fieldAt fs 5 1 = r.part % 256 ∧ fieldAt fs 6 1 = r.parts % 256 ∧
    fieldAt fs 7 1 = r.window % 256 ∧ fieldAt fs 8 1 = r.chute % 256 ∧ fieldAt fs 9 1 = mailClassValue r.mailClass ∧
    fieldAt fs 10 4 = r.serial.toNat ∧ fieldAt fs 14 3 = r.weight % 16777216 ∧ fieldAt fs 17 1 = r.overweight.toNat ∧
    fieldAt fs 18 2 = r.postDay.toNat ∧ fieldAt fs 20 2 = r.dueDay.toNat := by
  simp [manifestBytes]

/-! ## READ_DISPATCH: one entry for each outstanding release (R118) -/

section Dispatch

variable (s : State)

theorem releaseBytes_length (r : Release) : (releaseBytes r).length = 4 := by simp [releaseBytes]

/-- The fields before the outstanding releases, and those behind them. -/
def dispatchHead : List Byte :=
  bytesLE 2 s.dispatch.ready.length ++ bytesLE 2 (s.dispatch.ready.headD 0) ++ [byteOf s.dispatch.outstanding.length]

def dispatchTail : List Byte :=
  bytesLE 4 s.dispatch.blocked.toNat ++
    [byteOf s.dispatch.half0.length, byteOf s.dispatch.half1.length, flagByte s.dispatch.filling,
      flagByte (decide ((halfAt s s.dispatch.filling).length = Config.manifestHalfPlaces))]

theorem dispatchBytes_eq :
    dispatchBytes s = dispatchHead s ++ (s.dispatch.outstanding.flatMap releaseBytes ++ dispatchTail s) := by
  simp [dispatchBytes, dispatchHead, dispatchTail]

theorem releases_length : (s.dispatch.outstanding.flatMap releaseBytes).length = 4 * s.dispatch.outstanding.length :=
  flatMap_length releaseBytes_length _

theorem dispatchBytes_length : (dispatchBytes s).length = 5 + 4 * s.dispatch.outstanding.length + 8 := by
  rw [dispatchBytes_eq, List.length_append, List.length_append, releases_length]
  simp [dispatchHead, dispatchTail]
  omega

theorem dispatchBytes_release {n : Nat} {r : Release} (h : s.dispatch.outstanding[n]? = some r) :
    fieldAt (dispatchBytes s) (5 + 4 * n) 2 = r.consignment % 65536 ∧
      fieldAt (dispatchBytes s) (7 + 4 * n) 1 = r.chute % 256 ∧
      fieldAt (dispatchBytes s) (8 + 4 * n) 1 = mailClassValue r.mailClass := by
  have hentry (j m : Nat) (hjm : j + m ≤ 4) : fieldAt (dispatchBytes s) (j + 4 * n + 5) m = fieldAt (releaseBytes r) j m := by
    rw [dispatchBytes_eq, fieldAt_skip (by simp [dispatchHead]), fieldAt_flatMap releaseBytes_length h hjm]
  rw [show 5 + 4 * n = 0 + 4 * n + 5 by omega, show 7 + 4 * n = 2 + 4 * n + 5 by omega,
    show 8 + 4 * n = 3 + 4 * n + 5 by omega, hentry 0 2 (by omega), hentry 2 1 (by omega), hentry 3 1 (by omega)]
  simp [releaseBytes]

theorem dispatchBytes_tail (o n : Nat) :
    fieldAt (dispatchBytes s) (5 + 4 * s.dispatch.outstanding.length + o) n = fieldAt (dispatchTail s) o n := by
  rw [dispatchBytes_eq, show 5 + 4 * s.dispatch.outstanding.length + o = o + 4 * s.dispatch.outstanding.length + 5 by omega,
    fieldAt_skip (by simp [dispatchHead]), fieldAt_skip (releases_length s)]

theorem dispatchBytes_fields :
    let fs := dispatchBytes s
    let d := s.dispatch
    let o := 5 + 4 * d.outstanding.length
    fs.length = o + 8 ∧ fieldAt fs 0 2 = d.ready.length % 65536 ∧ fieldAt fs 2 2 = d.ready.headD 0 % 65536 ∧
    fieldAt fs 4 1 = d.outstanding.length % 256 ∧
    (∀ n r, d.outstanding[n]? = some r → fieldAt fs (5 + 4 * n) 2 = r.consignment % 65536 ∧
      fieldAt fs (7 + 4 * n) 1 = r.chute % 256 ∧ fieldAt fs (8 + 4 * n) 1 = mailClassValue r.mailClass) ∧
    fieldAt fs o 4 = d.blocked.toNat ∧
    fieldAt fs (o + 4) 1 = d.half0.length % 256 ∧ fieldAt fs (o + 5) 1 = d.half1.length % 256 ∧
    fieldAt fs (o + 6) 1 = d.filling.toNat ∧
    (fieldAt fs (o + 7) 1 = 1 ↔ (if d.filling then d.half1 else d.half0).length = 64) := by
  intro fs d o
  refine ⟨dispatchBytes_length s, by simp [fs, d, dispatchBytes], by simp [fs, d, dispatchBytes],
    by simp [fs, d, dispatchBytes], fun n r h => dispatchBytes_release s h, ?_, ?_, ?_, ?_, ?_⟩
  · rw [← Nat.add_zero o, dispatchBytes_tail]
    simp [dispatchTail, d]
  · rw [dispatchBytes_tail]
    simp [dispatchTail, d]
  · rw [dispatchBytes_tail]
    simp [dispatchTail, d]
  · rw [dispatchBytes_tail]
    simp [dispatchTail, d]
  · rw [dispatchBytes_tail]
    show fieldAt (dispatchTail s) 7 1 = 1 ↔ (halfAt s s.dispatch.filling).length = 64
    simp [dispatchTail]

end Dispatch

/-! ## The requests -/

section Taken

variable {i : Instr} {s s0 : State}

/-- A read-out whose bytes the taking of its request leaves as they were. -/
theorem Takes.reads {bytes : State → List Byte} {act : State → Answer} (h : Takes i s s0)
    (he : exec i s = request i s act) (ha : act s0 = ⟨s0, .ok, bytes s0⟩)
    (hb : ∀ l, bytes { s with line := l } = bytes s) : exec i s = .next (replied i .ok (bytes s) s0) := by
  have hs : bytes s0 = bytes s := by rw [h.line_only, hb]
  rw [h.quiet he ha rfl, hs]

theorem readStock_outside {cls : Byte} (h : Takes (.readStock cls) s s0) (hc : cls = 0 ∨ 4 < cls.toNat) :
    exec (.readStock cls) s = .next (replied (.readStock cls) .badField [] s0) :=
  h.refused rfl (if_pos (hc.imp_left fun h0 => congrArg BitVec.toNat h0))

theorem readStock_reads {cls : Byte} (h : Takes (.readStock cls) s s0) (h1 : 1 ≤ cls.toNat) (h4 : cls.toNat ≤ 4) :
    exec (.readStock cls) s = .next (replied (.readStock cls) .ok (stockBytes s cls.toNat) s0) :=
  h.reads (bytes := fun s => stockBytes s cls.toNat) rfl (if_neg (by omega)) fun _ => rfl

theorem readChannel_outside {c : Byte} (h : Takes (.readChannel c) s s0) (hc : 15 < c.toNat) :
    exec (.readChannel c) s = .next (replied (.readChannel c) .badField [] s0) := h.refused rfl (if_pos hc)

theorem readChannel_reads {c : Byte} (h : Takes (.readChannel c) s s0) (hc : c.toNat ≤ 15) :
    exec (.readChannel c) s = .next (replied (.readChannel c) .ok (channelBytes s.returns c.toNat) s0) :=
  h.reads (bytes := fun s => channelBytes s.returns c.toNat) rfl (if_neg (by omega)) fun _ => rfl

/-! READ_MANIFEST (R117). -/

variable {half index : Byte}

/-- The action of READ_MANIFEST at its owner. -/
def readManifestAnswer (half index : Byte) (s : State) : Answer :=
  match flagOf half with
  | none => refuse .badField s
  | some h => if index.toNat = 0 ∨ 64 < index.toNat then refuse .badField s else manifestAnswer h index.toNat s

theorem exec_readManifest :
    exec (.readManifest half index) s = request (.readManifest half index) s (readManifestAnswer half index) := rfl

theorem readManifestAnswer_outside (h : 1 < half.toNat ∨ index = 0 ∨ 64 < index.toNat) :
    readManifestAnswer half index s = refuse .badField s := by
  unfold readManifestAnswer
  by_cases hh : 1 < half.toNat
  · rw [flagOf_of_gt hh]
  · rw [flagOf_le hh]
    exact if_pos ((h.resolve_left hh).imp_left fun h0 => congrArg BitVec.toNat h0)

theorem readManifestAnswer_within (hh : half.toNat ≤ 1) (h1 : 1 ≤ index.toNat) (h64 : index.toNat ≤ 64) :
    readManifestAnswer half index s = manifestAnswer (decide (half = 1)) index.toNat s := by
  unfold readManifestAnswer
  rw [flagOf_le (by omega)]
  exact if_neg (by omega)

end Taken

end Sys2Proof.Machine

open Sys2Proof Sys2Proof.Machine in
/-- Settles O29: each read-out is its layout, read from the state as it stood. -/
theorem unitsAreRead : Obligations.UnitsAreRead := by
  refine ⟨fun s s0 => ⟨fun cls h => ⟨readStock_outside h, fun h1 h4 => ?_⟩, fun h => ?_, fun h => ?_,
    fun c h => ⟨readChannel_outside h, fun hc => ?_⟩⟩, fun s s0 => ⟨fun h => ?_, fun half index h => ?_⟩⟩
  · exact ⟨_, readStock_reads h h1 h4, stockBytes_fields s cls.toNat⟩
  · exact ⟨_, h.reads (bytes := dayBytes) rfl rfl fun _ => rfl, dayBytes_fields s⟩
  · exact ⟨_, h.reads (bytes := inspectionStateBytes) rfl rfl fun _ => rfl, inspectionStateBytes_fields s⟩
  · exact ⟨_, readChannel_reads h hc, channelBytes_fields s.returns c.toNat⟩
  · exact ⟨_, h.reads (bytes := dispatchBytes) rfl rfl fun _ => rfl, dispatchBytes_fields s⟩
  · refine ⟨fun ho => h.refused exec_readManifest (readManifestAnswer_outside ho), fun hh h1 h64 => ?_⟩
    intro rs counts
    have hw := readManifestAnswer_within (s := s0) hh h1 h64
    have hdispatch : s0.dispatch = s.dispatch := by rw [h.line_only]
    have hrs : halfAt s0 (decide (half = 1)) = rs := by
      rw [halfAt_congr hdispatch]
      simp [halfAt, rs]
    have hcounts : [byteOf (halfAt s0 (decide (half = 1))).length, flagByte s0.dispatch.filling] = counts := by
      rw [hrs, hdispatch]
      rfl
    unfold manifestAnswer at hw
    rw [hcounts, hrs] at hw
    refine ⟨fun hlen => ?_, fun r hr => ?_⟩
    · rw [List.getElem?_eq_none (by omega)] at hw
      exact h.quiet exec_readManifest hw rfl
    · rw [hr] at hw
      exact ⟨_, h.quiet exec_readManifest hw rfl, manifestBytes_fields r⟩
end

