-- ==== Sys2Proof/Proofs/ReleasePass.lean ====
section
/-! PROOFS. A release pass makes every release it can, from the head of the ready queue (R106, R108). -/

namespace Sys2Proof.Machine

section ReleasePass

variable {s : State} {k : Nat} {c : Consignment} {ks : List Nat}

/-! ## Several releases at once -/

/-- The outstanding release of consignment `k` (R106). -/
def releaseEntry (s : State) (k : Nat) (c : Consignment) : Release :=
  { consignment := k, chute := (windowAt s c.window).chute, mailClass := (windowAt s c.window).mailClass }

/-- The RELEASE of consignment `k` (R108). -/
def releaseTo (s : State) (k : Nat) (c : Consignment) : Frame :=
  releaseFrame s.management.settings.sorterRole k (consKindValue c.kind) (partOf c).1 (partOf c).2
    (windowAt s c.window).chute (mailClassValue (windowAt s c.window).mailClass) (serialOf c).toNat c.weight c.overweight

def toReleasing (c : Consignment) : Consignment := { c with state := .releasing }

/-- The state with the consignments of `ks` released, the first of them first. -/
def releasedAll (ks : List Nat) (s : State) : State :=
  { s with
    line.contended := if ks = [] then s.line.contended else false
    line.floorTx := s.line.floorTx ++ ks.filterMap fun k => (Table.get s.assembly.cons k).map (releaseTo s k)
    dispatch.outstanding :=
      s.dispatch.outstanding ++ ks.filterMap fun k => (Table.get s.assembly.cons k).map (releaseEntry s k)
    assembly.cons := s.assembly.cons.map fun e => if e.1 ∈ ks then (e.1, toReleasing e.2) else e }

theorem releasedAll_nil (s : State) : releasedAll [] s = s := by
  simp [releasedAll]

theorem releaseOne_eq (k : Nat) (c : Consignment) (s : State) : releaseOne k c s = { s with
    line.contended := stillContended s
    line.floorTx := s.line.floorTx ++ [releaseTo s k c]
    dispatch.outstanding := s.dispatch.outstanding ++ [releaseEntry s k c]
    assembly.cons := Table.modify s.assembly.cons k toReleasing } := rfl

theorem releaseOne_get (k : Nat) (c : Consignment) (s : State) (j : Nat) :
    Table.get (releaseOne k c s).assembly.cons j =
      if j = k then (Table.get s.assembly.cons j).map toReleasing else Table.get s.assembly.cons j :=
  Table.get_modify s.assembly.cons k j toReleasing

/-- With room for a release, no frame that comes before it waits for a contended place (R197, log 10). -/
theorem stillContended_of_room (h : floorRoom (aheadOfReleases s) s = true) : stillContended s = false := by
  simp only [floorRoom, decide_eq_true_eq] at h
  obtain ⟨-, hc | ha⟩ := h
  · simp [stillContended, hc]
  · simp [stillContended, ha]

/-- The first release and then the others. -/
theorem releasedAll_cons (hk : k ∉ ks) (hc : Table.get s.assembly.cons k = some c)
    (hroom : floorRoom (aheadOfReleases s) s = true) : releasedAll ks (releaseOne k c s) = releasedAll (k :: ks) s := by
  have hget (j : Nat) (hj : j ∈ ks) : Table.get (releaseOne k c s).assembly.cons j = Table.get s.assembly.cons j := by
    rw [releaseOne_get, if_neg (fun h : j = k => hk (h ▸ hj))]
  have hothers {α : Type} (f : Nat → Consignment → α) :
      (ks.filterMap fun j => (Table.get (releaseOne k c s).assembly.cons j).map (f j)) =
        ks.filterMap fun j => (Table.get s.assembly.cons j).map (f j) :=
    List.filterMap_congr fun j hj => by rw [hget j hj]
  have hcons : ((Table.modify s.assembly.cons k toReleasing).map fun e =>
        if e.1 ∈ ks then (e.1, toReleasing e.2) else e) =
      s.assembly.cons.map fun e => if e.1 ∈ k :: ks then (e.1, toReleasing e.2) else e := by
    rw [Table.modify, List.map_map]
    refine List.map_congr_left fun e _ => ?_
    by_cases he : e.1 = k <;> simp [he, hk]
  have hcontended : (if ks = [] then stillContended s else false) = false := by
    rw [stillContended_of_room hroom, ite_self]
  have hall : releasedAll ks (releaseOne k c s) = { s with
      line.contended := if ks = [] then stillContended s else false
      line.floorTx := s.line.floorTx ++ [releaseTo s k c] ++
        ks.filterMap fun j => (Table.get (releaseOne k c s).assembly.cons j).map (releaseTo s j)
      dispatch.outstanding := s.dispatch.outstanding ++ [releaseEntry s k c] ++
        ks.filterMap fun j => (Table.get (releaseOne k c s).assembly.cons j).map (releaseEntry s j)
      assembly.cons := (Table.modify s.assembly.cons k toReleasing).map fun e =>
        if e.1 ∈ ks then (e.1, toReleasing e.2) else e } := rfl
  rw [hall, hcontended, hothers, hothers, hcons]
  simp [releasedAll, hc]

/-! ## Which consignments a pass releases -/

/-- The consignments that can be released, in the order of the ready queue (R108). -/
def candidates (s : State) : List Nat := (s.dispatch.ready.filter fun k => releasable s k).eraseDups

theorem releasable_releaseOne (hc : Table.get s.assembly.cons k = some c) (j : Nat) :
    releasable (releaseOne k c s) j = (releasable s j && !(j == k)) := by
  by_cases hj : j = k
  · simp [releasable, releaseOne_get, hj, hc, toReleasing]
  · have hget : Table.get (releaseOne k c s).assembly.cons j = Table.get s.assembly.cons j := by
      rw [releaseOne_get, if_neg hj]
    simp only [releasable, hget, beq_eq_false_iff_ne.mpr hj, Bool.not_false, Bool.and_true]
    rfl

theorem candidates_eq_nil (h : s.dispatch.ready.find? (fun k => releasable s k) = none) : candidates s = [] := by
  have hnone : s.dispatch.ready.filter (fun k => releasable s k) = [] := by
    rw [← List.head?_eq_none_iff, List.head?_filter, h]
  rw [candidates, hnone, List.eraseDups_nil]

theorem candidates_cons (h : s.dispatch.ready.find? (fun k => releasable s k) = some k)
    (hc : Table.get s.assembly.cons k = some c) : candidates s = k :: candidates (releaseOne k c s) := by
  have hrest : s.dispatch.ready.filter (fun j => releasable (releaseOne k c s) j) =
      (s.dispatch.ready.filter fun j => releasable s j).filter fun j => !(j == k) := by
    simp only [releasable_releaseOne hc, List.filter_filter, Bool.and_comm]
  have hhead : (s.dispatch.ready.filter fun j => releasable s j).head? = some k := by rw [List.head?_filter, h]
  obtain ⟨rest, hfilter⟩ := List.head?_eq_some_iff.mp hhead
  have hnext : candidates (releaseOne k c s) =
      (s.dispatch.ready.filter fun j => releasable (releaseOne k c s) j).eraseDups := rfl
  rw [hnext, hrest, candidates, hfilter, List.eraseDups_cons]
  simp

theorem not_mem_candidates (hc : Table.get s.assembly.cons k = some c) : k ∉ candidates (releaseOne k c s) := by
  simp [candidates, releasable_releaseOne hc]

/-- The places a pass of at most `n` releases has: outstanding releases, manifest slots and floor places (R106, R108). -/
def releasePlaces (n ahead : Nat) (s : State) : Nat :=
  if s.management.settings.sorterRole = 0 ∨ floorRoom ahead s = false then 0
  else
    min n (min (4 - s.dispatch.outstanding.length)
      (min (64 - ((halfAt s s.dispatch.filling).length + s.dispatch.outstanding.length)) (32 - s.line.floorTx.length)))

theorem releaseOpen_iff (ahead : Nat) (s : State) : releaseOpen ahead s = true ↔
    s.dispatch.outstanding.length < 4 ∧ (halfAt s s.dispatch.filling).length + s.dispatch.outstanding.length < 64 ∧
      s.management.settings.sorterRole ≠ 0 ∧ floorRoom ahead s = true := by
  simp only [releaseOpen, slotFree, Config.maxReleases, Config.manifestHalfPlaces, Bool.and_eq_true, decide_eq_true_eq,
    and_assoc]

theorem floorRoom_length {ahead : Nat} (h : floorRoom ahead s = true) : s.line.floorTx.length < 32 := by
  simp only [floorRoom, decide_eq_true_eq] at h
  exact h.1

theorem releasePlaces_closed {n ahead : Nat} (h : releaseOpen ahead s = false) : releasePlaces n ahead s = 0 := by
  unfold releasePlaces
  split_ifs with hshut
  · rfl
  · rw [not_or, Bool.not_eq_false] at hshut
    rw [← Bool.not_eq_true, releaseOpen_iff] at h
    obtain ⟨hrole, hroom⟩ := hshut
    simp only [hrole, hroom, ne_eq, not_false_eq_true, and_true] at h
    omega

/-- A release takes one of the places. -/
theorem releasePlaces_open {n : Nat} (h : releaseOpen (aheadOfReleases s) s = true) :
    releasePlaces (n + 1) (aheadOfReleases s) s = releasePlaces n (aheadOfReleases s) (releaseOne k c s) + 1 := by
  obtain ⟨hout, hslot, hrole, hroom⟩ := (releaseOpen_iff _ s).mp h
  have hlen := floorRoom_length hroom
  have hrole' : (releaseOne k c s).management.settings.sorterRole ≠ 0 := hrole
  have hhalf : halfAt (releaseOne k c s) (releaseOne k c s).dispatch.filling = halfAt s s.dispatch.filling := rfl
  have hfloor : (releaseOne k c s).line.floorTx.length = s.line.floorTx.length + 1 := by simp [releaseOne_eq]
  have hnext : (releaseOne k c s).dispatch.outstanding.length = s.dispatch.outstanding.length + 1 := by
    simp [releaseOne_eq]
  have hroom' : floorRoom (aheadOfReleases s) (releaseOne k c s) = decide (s.line.floorTx.length + 1 < 32) := by
    have hcontended : (releaseOne k c s).line.contended = false := stillContended_of_room hroom
    simp [floorRoom, hfloor, hcontended]
  unfold releasePlaces
  rw [if_neg (by simp [hrole, hroom]), hroom', hhalf, hfloor, hnext]
  split_ifs with hshut
  · simp only [hrole', false_or, decide_eq_false_iff_not] at hshut
    omega
  · omega

/-! ## The pass -/

theorem releaseUpTo_eq (n : Nat) (s : State) : releaseUpTo n (aheadOfReleases s) s =
    releasedAll ((candidates s).take (releasePlaces n (aheadOfReleases s) s)) s := by
  induction n generalizing s with
  | zero =>
    have hnone : releasePlaces 0 (aheadOfReleases s) s = 0 := by simp [releasePlaces]
    rw [hnone, List.take_zero, releasedAll_nil, releaseUpTo]
  | succ n ih =>
    unfold releaseUpTo
    split_ifs with hopen
    · cases hfind : s.dispatch.ready.find? fun k => releasable s k with
      | none => simp only [candidates_eq_nil hfind, List.take_nil, releasedAll_nil]
      | some k =>
        obtain ⟨c, hc⟩ : ∃ c, Table.get s.assembly.cons k = some c := by
          have hk := List.find?_some hfind
          cases hget : Table.get s.assembly.cons k with
          | none => simp [releasable, hget] at hk
          | some c => exact ⟨c, rfl⟩
        obtain ⟨-, -, -, hroom⟩ := (releaseOpen_iff _ s).mp hopen
        have hnot : k ∉ (candidates (releaseOne k c s)).take (releasePlaces n (aheadOfReleases s) (releaseOne k c s)) :=
          fun hmem => not_mem_candidates hc (List.mem_of_mem_take hmem)
        have hrest : releaseUpTo n (aheadOfReleases s) (releaseOne k c s) = _ := ih (releaseOne k c s)
        simp only [hc]
        rw [hrest, candidates_cons hfind hc, releasePlaces_open hopen, List.take_succ_cons]
        exact releasedAll_cons hnot hc hroom
    · rw [releasePlaces_closed (Bool.eq_false_iff.mpr hopen), List.take_zero, releasedAll_nil]

end ReleasePass

end Sys2Proof.Machine

open Sys2Proof Sys2Proof.Machine in
/-- Settles O45: the pass is the release, one after another, of as many candidates as have places. -/
theorem releasePassTakesAllItCan : Obligations.ReleasePassTakesAllItCan := by
  intro s hp role window can outstanding n ks frame
  have hpass : exec .releasePass s = .next (releasedAll ((candidates s).take (releasePlaces 4 (aheadOfReleases s) s)) s) := by
    have hq : NoPassOwed (passReleases s) := by
      rw [NoPassOwed, (passReleases_released s).frame]
      exact hp
    show Host.Outcome.next (settle (passReleases s)) = _
    rw [settle_of_noPass hq]
    exact congrArg _ (releaseUpTo_eq 4 s)
  have hcan : (fun k => releasable s k) = can := by
    funext k
    show releasable s k = (Table.get s.assembly.cons k).any _
    unfold releasable
    cases Table.get s.assembly.cons k with
    | none => rfl
    | some c => simp [window, Bool.and_assoc]
  have hn : releasePlaces 4 (aheadOfReleases s) s = n := by
    show (if role = 0 ∨ floorRoom (aheadOfReleases s) s = false then 0 else _) = if _ then 0 else _
    split_ifs
    · rfl
    · exact min_eq_right ((min_le_left _ _).trans (Nat.sub_le _ _))
  have hks : (candidates s).take (releasePlaces 4 (aheadOfReleases s) s) = ks := by
    rw [hn, candidates, hcan]
  have hframe (k : Nat) : releaseTo s k = frame k := by
    funext c
    cases ho : c.overweight <;>
      simp [releaseTo, releaseFrame, outFrame, frame, partOf, serialOf, flagByte, window, role, ho] <;> rfl
  rw [hpass, hks]
  simp only [releasedAll, hframe]
  rfl
end

