-- ==== Sys2Proof/Proofs/SorterAnswers.lean ====
section
/-! PROOFS. The sorter's answers: CHUTED (R109, R110, R114, R115), CHUTE_FULL and CHUTE_CLEAR (R111 to R113). -/

namespace Sys2Proof.Machine

section Answers

variable {s s1 t : State} {k : Nat} {c : Consignment} {r : Release} {src : Byte}

/-! ## At the Dispatch Unit -/

theorem exec_chuted {consignment : U16} (h : AtUnit .sorter src.toNat s s1) :
    exec (.chuted src consignment) s = .next (settle (takeChuted consignment.toNat s1)) :=
  unitFrame_atUnit (i := .chuted src consignment) _ rfl h

theorem exec_chuteFull {consignment : U16} {chute : Byte} (h : AtUnit .sorter src.toNat s s1) :
    exec (.chuteFull src consignment chute) s = .next (settle (takeChuteFull consignment.toNat chute.toNat s1)) :=
  unitFrame_atUnit (i := .chuteFull src consignment chute) _ rfl h

theorem exec_chuteClear {chute : Byte} (h : AtUnit .sorter src.toNat s s1) :
    exec (.chuteClear src chute) s = .next (settle (takeChuteClear chute.toNat s1)) :=
  unitFrame_atUnit (i := .chuteClear src chute) _ rfl h

/-- A release pass owes no placement pass. -/
theorem settle_passReleases (h : t.passDue = false) : settle (passReleases t) = passReleases t := by
  refine settle_of_noPass ?_
  rw [NoPassOwed, (passReleases_released t).frame]
  exact h

theorem releaseOf_some (hc : Table.get s.assembly.cons k = some c) (hs : c.state = .releasing)
    (hr : s.dispatch.outstanding.find? (fun r => decide (r.consignment = k)) = some r) : releaseOf s k = some (c, r) := by
  simp only [releaseOf, hc, hr, hs, if_true]

theorem releaseOf_none (h : ∀ c, Table.get s.assembly.cons k = some c → c.state = .releasing →
    s.dispatch.outstanding.find? (fun r => decide (r.consignment = k)) = none) : releaseOf s k = none := by
  unfold releaseOf
  split
  next c r hc hr =>
    refine if_neg fun hs => ?_
    rw [h c hc hs] at hr
    cases hr
  · rfl

/-! ## CHUTED: the record is written (R109, R110, R114) -/

def postedOn (day due : Day) (c : Consignment) : Consignment :=
  { c with state := .posted, postDay := day, dueDay := due, overdue := false }

/-- The state with the consignment POSTED and its manifest record in the filling half, before the halves may switch. -/
def recorded (k : Nat) (c : Consignment) (r : Release) (s : State) : State :=
  let w := setHalf s.dispatch.filling (halfAt s s.dispatch.filling ++ [manifestRecordOf s k c r]) s
  { w with
    assembly.cons := Table.modify s.assembly.cons k (postedOn s.days.today (dueDayOf s c))
    dispatch.outstanding := s.dispatch.outstanding.filter fun r => decide (r.consignment ≠ k)
    dispatch.ready := s.dispatch.ready.erase k }

theorem postConsignment_eq (k : Nat) (c : Consignment) (r : Release) (s : State) :
    postConsignment k c r s = switchHalf (recorded k c r s) := by
  unfold postConsignment recorded
  cases s.dispatch.filling <;> rfl

theorem takeChuted_eq (h : releaseOf s k = some (c, r)) :
    takeChuted k s = passReleases (switchHalf (recorded k c r s)) := by
  rw [takeChuted, h, ← postConsignment_eq]

theorem recorded_frame (k : Nat) (c : Consignment) (r : Release) (s : State) : recorded k c r s = { s with
    assembly.cons := Table.modify s.assembly.cons k (postedOn s.days.today (dueDayOf s c))
    dispatch := { s.dispatch with
      half0 := (recorded k c r s).dispatch.half0, half1 := (recorded k c r s).dispatch.half1
      outstanding := s.dispatch.outstanding.filter fun r => decide (r.consignment ≠ k)
      ready := s.dispatch.ready.erase k } } := by
  unfold recorded
  cases s.dispatch.filling <;> rfl

theorem recorded_filling (k : Nat) (c : Consignment) (r : Release) (s : State) :
    (recorded k c r s).dispatch.filling = s.dispatch.filling := by rw [recorded_frame]

theorem recorded_half (k : Nat) (c : Consignment) (r : Release) (s : State) :
    halfAt (recorded k c r s) s.dispatch.filling = halfAt s s.dispatch.filling ++ [manifestRecordOf s k c r] :=
  halfAt_setHalf_same s.dispatch.filling _ s

theorem recorded_otherHalf (k : Nat) (c : Consignment) (r : Release) (s : State) :
    halfAt (recorded k c r s) (!s.dispatch.filling) = halfAt s (!s.dispatch.filling) :=
  halfAt_setHalf_other (Bool.not_ne_self _) _ s

theorem recorded_cons (k : Nat) (c : Consignment) (r : Release) (s : State) (j : Nat) :
    Table.get (recorded k c r s).assembly.cons j =
      if j = k then (Table.get s.assembly.cons j).map (postedOn s.days.today (dueDayOf s c))
      else Table.get s.assembly.cons j := Table.get_modify s.assembly.cons k j _

theorem dueDayOf_eq (s : State) (c : Consignment) : dueDayOf s c =
    s.days.today + BitVec.ofNat 16 ((if c.kind = .braillePart then s.management.settings.brailleLoan
      else s.management.settings.audioLoan) + 2 * (windowAt s c.window).transit) := by
  unfold dueDayOf
  cases c.kind <;> rfl

theorem partOf_fst (c : Consignment) : (partOf c).1 = if c.kind = .braillePart then c.part else 1 := by
  unfold partOf
  split_ifs <;> rfl

theorem partOf_snd (c : Consignment) : (partOf c).2 = if c.kind = .braillePart then c.parts else 1 := by
  unfold partOf
  split_ifs <;> rfl

/-! ## The halves switch, or MANIFEST_FULL is latched (R115) -/

theorem switchHalf_room (h : (halfAt s s.dispatch.filling).length ≠ 64) : switchHalf s = s := if_neg h

theorem switchHalf_switches (h : (halfAt s s.dispatch.filling).length = 64) (he : halfAt s (!s.dispatch.filling) = []) :
    switchHalf s = latch .manifestHalf (halfNumber s.dispatch.filling)
      { s with dispatch.filling := !s.dispatch.filling } := (if_pos h).trans (if_pos he)

theorem switchHalf_full (h : (halfAt s s.dispatch.filling).length = 64) (he : halfAt s (!s.dispatch.filling) ≠ []) :
    switchHalf s = latch .manifestFull (halfNumber s.dispatch.filling) s := (if_pos h).trans (if_neg he)

/-- Only the half that fills and the notices can change. -/
theorem switchHalf_frame (s : State) : switchHalf s = { s with
    dispatch.filling := (switchHalf s).dispatch.filling
    management.notices := (switchHalf s).management.notices } := by
  unfold switchHalf
  simp only
  split_ifs <;> rfl

theorem latch_management (n : NoticeId) (x : Nat) (h : t.management = s.management) :
    (latch n x t).management = (latch n x s).management := by
  unfold latch
  rw [h]

theorem halfAt_switchHalf (s : State) (j : Bool) : halfAt (switchHalf s) j = halfAt s j := by
  rw [switchHalf_frame]
  rfl

theorem posted_frame (k : Nat) (c : Consignment) (r : Release) (s : State) :
    switchHalf (recorded k c r s) = { s with
      assembly.cons := (recorded k c r s).assembly.cons
      dispatch := (switchHalf (recorded k c r s)).dispatch
      management.notices := (switchHalf (recorded k c r s)).management.notices } := by
  have hu := recorded_frame k c r s
  have ht := switchHalf_frame (recorded k c r s)
  generalize switchHalf (recorded k c r s) = t at ht ⊢
  generalize recorded k c r s = u at hu ht ⊢
  rw [ht, hu]

theorem posted_dispatch (k : Nat) (c : Consignment) (r : Release) (s : State) :
    (switchHalf (recorded k c r s)).dispatch = { s.dispatch with
      half0 := (recorded k c r s).dispatch.half0, half1 := (recorded k c r s).dispatch.half1
      outstanding := s.dispatch.outstanding.filter fun r => decide (r.consignment ≠ k)
      ready := s.dispatch.ready.erase k
      filling := (switchHalf (recorded k c r s)).dispatch.filling } := by
  have hu := recorded_frame k c r s
  have ht := switchHalf_frame (recorded k c r s)
  generalize switchHalf (recorded k c r s) = t at ht ⊢
  generalize recorded k c r s = u at hu ht ⊢
  rw [ht, hu]

end Answers

end Sys2Proof.Machine

open Sys2Proof Sys2Proof.Machine in
/-- Settles O46: the record written, then the switch of the halves by its three cases. -/
theorem chutedPostsTheConsignment : Obligations.ChutedPostsTheConsignment := by
  intro src consignment s s1 hat k
  have hturn := hat.1
  have hexec := exec_chuted (consignment := consignment) hat
  have hquiet : s1.passDue = false := hturn.passDue
  have hcons : s1.assembly.cons = s.assembly.cons := by rw [hturn.assembly]
  have hdispatch := hturn.dispatch
  have hmanagement := hturn.management
  have hdays := hturn.days
  refine ⟨?_, fun hnone => ?_⟩
  · intro c r hc hs hr h loan due record
    have hfill : s1.dispatch.filling = h := by rw [hdispatch]
    have hhalf := halfAt_congr hdispatch
    have hdue : dueDayOf s1 c = due := by
      rw [dueDayOf_eq, hdays, hmanagement, windowAt, hdispatch]
      rfl
    have hrecord : manifestRecordOf s1 k c r = record := by
      rw [manifestRecordOf, hdue, hdays, partOf_fst, partOf_snd]
      rfl
    have hown := recorded_half k c r s1
    have hother := recorded_otherHalf k c r s1
    have hrecorded := recorded_filling k c r s1
    have hget := recorded_cons k c r s1
    have hmgmt : (recorded k c r s1).management = s.management := by rw [recorded_frame, hmanagement]
    rw [hfill, hhalf, hrecord] at hown
    rw [hfill, hhalf] at hother
    rw [hfill] at hrecorded
    rw [hcons, hdays, hdue] at hget
    have hlen : (halfAt (recorded k c r s1) (recorded k c r s1).dispatch.filling).length = (halfAt s h).length + 1 := by
      rw [hrecorded, hown, List.length_append, List.length_singleton]
    have hframe := posted_frame k c r s1
    have hunit := posted_dispatch k c r s1
    rw [hdispatch] at hunit
    have htcons : (switchHalf (recorded k c r s1)).assembly.cons = (recorded k c r s1).assembly.cons := by rw [hframe]
    refine ⟨switchHalf (recorded k c r s1), ?_, ?_, ?_, ?_, fun j hj => ?_, ?_, ?_, ?_, ?_, ?_, fun hroom => ?_,
      fun hfull hempty => ?_, fun hfull hkept => ?_⟩
    · have htaken : releaseOf s1 k = some (c, r) :=
        releaseOf_some (by rw [hcons, hc]) hs (by rw [hdispatch, hr])
      rw [hexec, takeChuted_eq htaken]
      refine congrArg _ (settle_passReleases ?_)
      rw [hframe]
      exact hquiet
    · rw [halfAt_switchHalf, hown]
    · rw [halfAt_switchHalf, hother]
    · rw [htcons, hget, if_pos rfl, hc]
      rfl
    · rw [htcons, hget, if_neg hj]
    · rw [hunit]
    · rw [htcons]
      exact hframe
    · rw [hunit]
    · rw [hunit]
    · rw [hunit]
    · rw [switchHalf_room (by rwa [hlen])]
      exact ⟨hrecorded, hmgmt⟩
    · rw [switchHalf_switches (by rw [hlen, hfull]) (by rw [hrecorded, hother, hempty]), hrecorded]
      exact ⟨rfl, latch_management _ _ hmgmt⟩
    · rw [switchHalf_full (by rw [hlen, hfull]) (by rwa [hrecorded, hother]), hrecorded]
      exact ⟨hrecorded, latch_management _ _ hmgmt⟩
  · have hkept : releaseOf s1 k = none := releaseOf_none (by rwa [hcons, hdispatch])
    rw [hexec, takeChuted, hkept]
    exact congrArg _ (settle_of_noPass hquiet)
end

