-- ==== Sys2Proof/Proofs/Chutes.lean ====
section
/-! PROOFS. CHUTE_FULL and CHUTE_CLEAR (R111 to R113). -/

namespace Sys2Proof.Machine

section Chutes

variable {s t : State} {k n chute : Nat} {c : Consignment} {r : Release}

/-! ## The set of blocked chutes (R112) -/

theorem blockChute_blocked (hn : 1 ≤ n) (hc : 1 ≤ chute) (h32 : chute ≤ 32) :
    chuteBlocked (blockChute chute s) n = true ↔ n = chute ∨ chuteBlocked s n = true := by
  have hbit : (chute - 1 < 32 ∧ chute - 1 = n - 1) ↔ n = chute := by omega
  simp only [chuteBlocked, blockChute, BitVec.getLsbD_or, BitVec.getLsbD_twoPow, Bool.or_eq_true, Bool.and_eq_true,
    decide_eq_true_eq, hbit]
  exact or_comm

theorem unblockChute_blocked (hn : 1 ≤ n) (h32 : n ≤ 32) (hc : 1 ≤ chute) :
    chuteBlocked (unblockChute chute s) n = true ↔ n ≠ chute ∧ chuteBlocked s n = true := by
  have hbit : ¬(chute - 1 < 32 ∧ chute - 1 = n - 1) ↔ n ≠ chute := by omega
  have hin : n - 1 < 32 := by omega
  simp only [chuteBlocked, unblockChute, BitVec.getLsbD_and, BitVec.getLsbD_not, BitVec.getLsbD_twoPow, Bool.and_eq_true,
    decide_eq_true_eq, Bool.not_eq_true', ← Bool.not_eq_true, hin, true_and, hbit]
  exact and_comm

theorem chuteBlocked_congr (h : t.dispatch = s.dispatch) (n : Nat) : chuteBlocked t n = chuteBlocked s n := by
  rw [chuteBlocked, h, chuteBlocked]

/-! ## CHUTE_FULL (R111) -/

def toReady (c : Consignment) : Consignment := { c with state := .ready }

/-- Consignment `k` READY again at the head of the ready queue, its release taken back. -/
def returnedReady (k : Nat) (s : State) : State :=
  { s with
    assembly.cons := Table.modify s.assembly.cons k toReady
    dispatch.outstanding := s.dispatch.outstanding.filter fun r => decide (r.consignment ≠ k)
    dispatch.ready := k :: s.dispatch.ready.erase k }

theorem takeChuteFull_eq (h : releaseOf s k = some (c, r)) :
    takeChuteFull k chute s = passReleases (blockChute (fullChute chute r) (returnedReady k s)) := by
  rw [takeChuteFull, h]
  rfl

theorem returnedReady_cons (k : Nat) (s : State) (j : Nat) :
    Table.get (returnedReady k s).assembly.cons j =
      if j = k then (Table.get s.assembly.cons j).map toReady else Table.get s.assembly.cons j :=
  Table.get_modify s.assembly.cons k j toReady

end Chutes

end Sys2Proof.Machine

open Sys2Proof Sys2Proof.Machine in
/-- Settles O47: CHUTE_FULL takes its release back and blocks a chute, CHUTE_CLEAR clears one; each as the sorter's frame. -/
theorem chutesBlockAndClear : Obligations.ChutesBlockAndClear := by
  intro src s s1 hat
  have hturn := hat.1
  have hquiet : s1.passDue = false := hturn.passDue
  have hcons : s1.assembly.cons = s.assembly.cons := by rw [hturn.assembly]
  have hdispatch := hturn.dispatch
  have hblocked := chuteBlocked_congr hdispatch
  refine ⟨fun consignment chute => ⟨fun c r hc hs hr => ?_, fun hnone => ?_⟩, fun chute =>
    ⟨fun h1 h32 hset => ?_, fun hkept => ?_⟩⟩
  · have htaken : releaseOf s1 consignment.toNat = some (c, r) :=
      releaseOf_some (by rw [hcons, hc]) hs (by rw [hdispatch, hr])
    have hget := returnedReady_cons consignment.toNat s1
    rw [hcons] at hget
    refine ⟨blockChute (fullChute chute.toNat r) (returnedReady consignment.toNat s1), ?_, rfl, ?_, fun j hj => ?_, ?_,
      fun n hn _ hf hf32 => ?_⟩
    · rw [exec_chuteFull hat, takeChuteFull_eq htaken]
      exact congrArg _ (settle_passReleases hquiet)
    · refine (hget _).trans ?_
      rw [if_pos rfl, hc]
      rfl
    · exact (hget j).trans (if_neg hj)
    · rw [← hdispatch]
      rfl
    · rw [← hblocked n]
      exact blockChute_blocked (s := returnedReady consignment.toNat s1) hn hf hf32
  · have hkept : releaseOf s1 consignment.toNat = none := releaseOf_none (by rwa [hcons, hdispatch])
    rw [exec_chuteFull hat, takeChuteFull, hkept]
    exact congrArg _ (settle_of_noPass hquiet)
  · have hset1 : chuteBlocked s1 chute.toNat = true := by rw [hblocked, hset]
    refine ⟨unblockChute chute.toNat s1, ?_, rfl, fun n hn hn32 => ?_⟩
    · rw [exec_chuteClear hat, takeChuteClear, if_pos ⟨⟨h1, h32⟩, hset1⟩]
      exact congrArg _ (settle_passReleases hquiet)
    · rw [unblockChute_blocked hn hn32 h1, hblocked]
  · have hshut : ¬((1 ≤ chute.toNat ∧ chute.toNat ≤ 32) ∧ chuteBlocked s1 chute.toNat = true) := by
      rw [hblocked]
      rintro ⟨⟨h1, h32⟩, hset⟩
      obtain rfl | h | h := hkept
      · exact absurd h1 (by decide)
      · omega
      · exact Bool.false_ne_true (h.symm.trans hset)
    rw [exec_chuteClear hat, takeChuteClear, if_neg hshut]
    exact congrArg _ (settle_of_noPass hquiet)
end

