-- ==== Sys2Proof/Proofs/DispatchRequests.lean ====
section
/-! PROOFS. SET_WINDOW (R102) and RELEASE_MANIFEST (R116). -/

namespace Sys2Proof.Machine

/-! ## Named values read back (R201) -/

theorem byte_toNat_eq_zero {b : Byte} : b.toNat = 0 ↔ b = 0 := ⟨fun h => BitVec.eq_of_toNat_eq h, congrArg BitVec.toNat⟩

theorem flagOf_of_toNat {b : Byte} {h : Bool} (hb : b.toNat = h.toNat) : flagOf b = some h := by
  unfold flagOf
  rw [hb]
  cases h <;> rfl

theorem flagOf_some_le {b : Byte} {h : Bool} (hb : flagOf b = some h) : b.toNat ≤ 1 := by
  by_contra hgt
  rw [flagOf_of_gt (by omega)] at hb
  cases hb

theorem mailClassOf_value {m : MailClass} {b : Byte} (h : mailClassValue m = b.toNat) : mailClassOf b = some m := by
  unfold mailClassOf
  rw [← h]
  cases m <;> rfl

theorem mailClassOf_le {m : MailClass} {b : Byte} (h : mailClassOf b = some m) : b.toNat ≤ 1 := by
  unfold mailClassOf at h
  split at h
  · omega
  · omega
  · cases h

/-! ## The entry of a window (R101, R102) -/

section Window

variable {window enabled chute mailClass transit hold : Byte} {low high : U24} {limit : U16} {m : MailClass}

/-- The fields that every window's entry consults are in their ranges (R101). -/
def WindowFit (window chute mailClass transit : Byte) (limit : U16) (hold : Byte) : Prop :=
  window.toNat ≤ 15 ∧ 1 ≤ chute.toNat ∧ chute.toNat ≤ 32 ∧ mailClass.toNat ≤ 1 ∧ transit.toNat ≤ 15 ∧
    500 ≤ limit.toNat ∧ limit.toNat ≤ 30000 ∧ hold.toNat ≤ 1

/-- The enabled field and the codes of a window other than 0 are in their ranges (R101, R102). -/
def CodesFit (window enabled : Byte) (low high : U24) : Prop :=
  window ≠ 0 → enabled.toNat ≤ 1 ∧ (enabled = 1 → low.toNat ≤ high.toNat)

/-- The codes as they are stored (R102, log 26). -/
def storedCodes (low high : U24) : Nat × Nat := if low.toNat ≤ high.toNat then (low.toNat, high.toNat) else (0, 0)

/-- The entry of a window other than 0. -/
def namedWindow (enabled : Byte) (low high : U24) (chute : Byte) (m : MailClass) (transit : Byte) (limit : U16)
    (hold : Byte) : Window :=
  ⟨decide (enabled = 1), (storedCodes low high).1, (storedCodes low high).2, chute.toNat, m, transit.toNat, limit.toNat,
    decide (hold = 1)⟩

/-- The entry of window 0, whose enabled field and codes are not consulted (log 26). -/
def lastWindow (chute : Byte) (m : MailClass) (transit : Byte) (limit : U16) (hold : Byte) : Window :=
  { chute := chute.toNat, mailClass := m, transit := transit.toNat, limit := limit.toNat, hold := decide (hold = 1) }

theorem windowEntry_fit (hfit : WindowFit window chute mailClass transit limit hold)
    (hcodes : CodesFit window enabled low high) (hm : mailClassValue m = mailClass.toNat) :
    windowEntry window enabled low high chute mailClass transit limit hold =
      some (if window = 0 then lastWindow chute m transit limit hold
        else namedWindow enabled low high chute m transit limit hold) := by
  obtain ⟨hwindow, hc1, hc32, -, htransit, hlow, hhigh, hhold⟩ := hfit
  unfold windowEntry
  simp only [mailClassOf_value hm, flagOf_le (preempt := hold) (by omega)]
  rw [if_neg (by omega)]
  by_cases hw : window = 0
  · rw [if_pos (byte_toNat_eq_zero.mpr hw), if_pos hw]
    rfl
  · obtain ⟨hen, hle⟩ := hcodes hw
    rw [if_neg (hw ∘ byte_toNat_eq_zero.mp), if_neg hw]
    simp only [flagOf_le (preempt := enabled) (by omega)]
    by_cases hlh : low.toNat ≤ high.toNat
    · simp only [namedWindow, storedCodes, if_pos hlh]
    · have hoff : decide (enabled = 1) = false := decide_eq_false (hlh ∘ hle)
      simp only [namedWindow, storedCodes, if_neg hlh, hoff]
      rfl

theorem windowEntry_some {w : Window}
    (h : windowEntry window enabled low high chute mailClass transit limit hold = some w) :
    WindowFit window chute mailClass transit limit hold ∧ CodesFit window enabled low high := by
  unfold windowEntry at h
  split at h
  next m b hm hb =>
    have hmail := mailClassOf_le hm
    have hhold := flagOf_some_le hb
    simp only at h
    split at h
    · cases h
    next hbad =>
      refine ⟨by unfold WindowFit; omega, fun hw => ?_⟩
      rw [if_neg (hw ∘ byte_toNat_eq_zero.mp)] at h
      split at h
      · cases h
      next e he =>
        refine ⟨flagOf_some_le he, fun hon => ?_⟩
        subst hon
        cases he
        by_contra hlh
        rw [if_neg hlh] at h
        cases h
  · cases h

theorem windowEntry_none
    (h : ¬(WindowFit window chute mailClass transit limit hold ∧ CodesFit window enabled low high)) :
    windowEntry window enabled low high chute mailClass transit limit hold = none :=
  Option.eq_none_iff_forall_ne_some.mpr fun _ hw => h (windowEntry_some hw)

/-! ## SET_WINDOW -/

/-- One entry of the zone window table is written (R102). -/
def windowWritten (k : Nat) (w : Window) (s : State) : State :=
  { s with dispatch.windows := bankModify s.dispatch.windows (k + 1) fun _ => w }

theorem windowWritten_same {k : Nat} (hk : k ≤ 15) (w : Window) (s : State) : windowAt (windowWritten k w s) k = w :=
  bankGet_modify_same s.dispatch.windows (k + 1) _ _ (by omega)

theorem windowWritten_other {k j : Nat} (hj : j ≠ k) (w : Window) (s : State) :
    windowAt (windowWritten k w s) j = windowAt s j :=
  bankGet_modify_other s.dispatch.windows _ _ (by omega)

/-- The action of SET_WINDOW at its owner. -/
def windowAnswer (k : Nat) (entry : Option Window) (s : State) : Answer :=
  match entry with
  | none => refuse .badField s
  | some w => ⟨passReleases (windowWritten k w s), .ok, []⟩

theorem exec_setWindow {s : State} : exec (.setWindow window enabled low high chute mailClass transit limit hold) s =
    request (.setWindow window enabled low high chute mailClass transit limit hold) s
      (windowAnswer window.toNat (windowEntry window enabled low high chute mailClass transit limit hold)) := rfl

end Window

/-! ## RELEASE_MANIFEST -/

section ReleaseManifest

variable {s : State} {h : Bool}

/-- The action of RELEASE_MANIFEST at its owner. -/
def manifestReleased (half : Byte) (s : State) : Answer :=
  match flagOf half with
  | none => refuse .badField s
  | some h => releaseHalf h s

theorem exec_releaseManifest {half : Byte} :
    exec (.releaseManifest half) s = request (.releaseManifest half) s (manifestReleased half) := rfl

theorem manifestReleased_outside {half : Byte} (hh : 1 < half.toNat) : manifestReleased half s = refuse .badField s := by
  rw [manifestReleased, flagOf_of_gt hh]

theorem manifestReleased_half {half : Byte} (hh : half.toNat = h.toNat) : manifestReleased half s = releaseHalf h s := by
  rw [manifestReleased, flagOf_of_toNat hh]

theorem releaseHalf_filling (hf : h = s.dispatch.filling) : releaseHalf h s = refuse .inUse s := if_pos hf

theorem releaseHalf_empty (hf : h ≠ s.dispatch.filling) (he : halfAt s h = []) : releaseHalf h s = ⟨s, .ok, []⟩ :=
  (if_neg hf).trans (if_pos he)

theorem releaseHalf_room (hf : h ≠ s.dispatch.filling) (he : halfAt s h ≠ []) (hr : (halfAt s (!h)).length < 64) :
    releaseHalf h s = ⟨passReleases (setHalf h [] s), .ok, []⟩ := by
  rw [Bool.eq_not_of_ne hf, Bool.not_not] at hr
  exact (if_neg hf).trans ((if_neg he).trans (if_pos hr))

/-- The half released fills next, the other being full (R116). -/
def halfSwitched (h : Bool) (s : State) : State :=
  latch .manifestHalf (halfNumber (!h)) { setHalf h [] s with dispatch.filling := h }

theorem releaseHalf_switches (hf : h ≠ s.dispatch.filling) (he : halfAt s h ≠ []) (hr : 64 ≤ (halfAt s (!h)).length) :
    releaseHalf h s = ⟨passReleases (halfSwitched h s), .ok, []⟩ := by
  have hother : s.dispatch.filling = !h := by rw [Bool.eq_not_of_ne hf, Bool.not_not]
  have hfull : ¬(halfAt s s.dispatch.filling).length < Config.manifestHalfPlaces := by
    rw [hother]
    exact Nat.not_lt.mpr hr
  refine (if_neg hf).trans ((if_neg he).trans ((if_neg hfull).trans ?_))
  rw [hother]
  rfl

end ReleaseManifest

/-- A request whose owner ends with a release pass. -/
theorem Takes.released {i : Instr} {s s0 t : State} {act : State → Answer} (h : Takes i s s0)
    (he : exec i s = request i s act) (ha : act s0 = ⟨passReleases t, .ok, []⟩) (hp : t.passDue = s0.passDue) :
    exec i s = .next (replied i .ok [] (passReleases t)) := by
  rw [h.answered he ha, settle_passReleases (hp.trans h.noPass)]

end Sys2Proof.Machine

open Sys2Proof Sys2Proof.Machine in
/-- Settles O48: the entry of SET_WINDOW and the half of RELEASE_MANIFEST, case by case, each before its release pass. -/
theorem windowsAndHalvesAreWritten : Obligations.WindowsAndHalvesAreWritten := by
  intro s s0
  refine ⟨fun window enabled low high chute mailClass transit limit hold m => ?_, fun half h => ?_⟩
  · intro i ht common codes stored
    have hwindows : ∀ w, windowAt s0 w = windowAt s w := fun w => by rw [ht.line_only]; rfl
    refine ⟨fun hbad => ?_, fun hfit hcodes hm => ?_⟩
    · exact ht.refused exec_setWindow (by rw [windowEntry_none hbad]; rfl)
    · have hentry := windowEntry_fit hfit hcodes hm
      have hfit15 : window.toNat ≤ 15 := hfit.1
      have hact : windowAnswer window.toNat (windowEntry window enabled low high chute mailClass transit limit hold) s0 =
          ⟨passReleases (windowWritten window.toNat (if window = 0 then lastWindow chute m transit limit hold
            else namedWindow enabled low high chute m transit limit hold) s0), .ok, []⟩ := by
        rw [hentry, windowAnswer]
      refine ⟨_, ht.released exec_setWindow hact rfl, rfl, fun w _ hne => ?_, fun hne => ?_, fun h0 => ?_⟩
      · rw [windowWritten_other hne, hwindows]
      · rw [windowWritten_same hfit15, if_neg hne]
        rfl
      · subst h0
        have hzero := windowWritten_same (k := 0) (by omega) (lastWindow chute m transit limit hold) s0
        exact ⟨congrArg Window.chute hzero, congrArg Window.mailClass hzero, congrArg Window.transit hzero,
          congrArg Window.limit hzero, congrArg Window.hold hzero⟩
  · intro i ht
    have hdispatch : s0.dispatch = s.dispatch := by rw [ht.line_only]
    have hhalf := halfAt_congr hdispatch
    refine ⟨fun hout => ht.refused exec_releaseManifest (manifestReleased_outside hout), fun hh => ?_⟩
    have hreleased := manifestReleased_half (s := s0) hh
    refine ⟨fun hf => ?_, fun hf => ?_⟩
    · exact ht.refused exec_releaseManifest (hreleased.trans (releaseHalf_filling (by rwa [hdispatch])))
    have hf0 : h ≠ s0.dispatch.filling := by rwa [hdispatch]
    refine ⟨fun he => ?_, fun he => ?_⟩
    · exact ht.quiet exec_releaseManifest (hreleased.trans (releaseHalf_empty hf0 (by rwa [hhalf]))) rfl
    have he0 : halfAt s0 h ≠ [] := by rwa [hhalf]
    have hother : halfAt (setHalf h [] s0) (!h) = halfAt s (!h) := by
      rw [halfAt_setHalf_other (Bool.not_ne_self h), hhalf]
    have hframe := setHalf_frame h [] s0
    have hunit := setHalf_dispatch h [] s0
    rw [hdispatch] at hunit
    have hquiet := setHalf_passDue h [] s0
    have hmgmt : (setHalf h [] s0).management = s.management := by rw [setHalf_management, ht.management]
    by_cases hr : (halfAt s (!h)).length < 64
    · have hact := hreleased.trans (releaseHalf_room hf0 he0 (by rwa [hhalf]))
      refine ⟨_, ht.released exec_releaseManifest hact hquiet, halfAt_setHalf_same h [] s0, hother, ?_, ?_,
        fun _ => ⟨?_, hmgmt⟩, fun h64 => absurd hr (by omega)⟩
      · generalize setHalf h [] s0 = t at hframe ⊢
        rw [hframe]
      · generalize (setHalf h [] s0).dispatch = d at hunit ⊢
        rw [hunit]
      · rw [setHalf_filling, hdispatch]
    · have hact := hreleased.trans (releaseHalf_switches hf0 he0 (by rw [hhalf]; omega))
      have hsubject : halfNumber (!h) = if h then 0 else 1 := by cases h <;> rfl
      refine ⟨_, ht.released exec_releaseManifest hact hquiet, halfAt_setHalf_same h [] s0, hother, ?_, ?_,
        fun h64 => absurd h64 hr, fun _ => ⟨rfl, ?_⟩⟩
      · unfold halfSwitched
        generalize setHalf h [] s0 = t at hframe ⊢
        rw [hframe]
        rfl
      · show { (setHalf h [] s0).dispatch with filling := h } = _
        rw [hunit]
        rfl
      · rw [← hsubject]
        exact latch_management _ _ hmgmt
end

