-- ==== Sys2Proof/Proofs/StepForm.lean ====
section
/-! PROOFS. The form that every command keeps: canonical tables (log 6), the line queues and the return queue within their
places (R122, R194, R197), and the channel configurations and thresholds outside suspension (R131, R132). -/

namespace Sys2Proof.Machine

section Form

variable {s t u : State}

/-! ## What keeps the form -/

/-- The canonical form of the tables and the bounds of the queues carry over from `s` to `t`. -/
structure BoundsKept (s t : State) : Prop where
  tables : TablesCanonical s → TablesCanonical t
  queues : QueuesBounded s → QueuesBounded t

/-- Form and bounds carry over, and no channel or threshold entry is loaded. -/
structure FormKept (s t : State) : Prop extends BoundsKept s t where
  channels : t.returns.channels = s.returns.channels
  thresholds : t.returns.thresholds = s.returns.thresholds

theorem BoundsKept.trans (h : BoundsKept s t) (g : BoundsKept t u) : BoundsKept s u :=
  ⟨g.tables ∘ h.tables, g.queues ∘ h.queues⟩

theorem FormKept.refl (s : State) : FormKept s s := ⟨⟨id, id⟩, rfl, rfl⟩

theorem FormKept.trans (h : FormKept s t) (g : FormKept t u) : FormKept s u :=
  ⟨h.toBoundsKept.trans g.toBoundsKept, g.channels.trans h.channels, g.thresholds.trans h.thresholds⟩

theorem FormKept.foldl {β : Type} (f : State → β → State) (hf : ∀ s b, FormKept s (f s b)) (l : List β) (s : State) :
    FormKept s (l.foldl f s) := by
  induction l generalizing s with
  | nil => exact .refl s
  | cons b l ih => exact (hf s b).trans (ih (f s b))

theorem WorkChange.tables (h : WorkChange s t) (hs : TablesCanonical s) : TablesCanonical t := by
  obtain ⟨hpatrons, hagencies, htitles, hrequests, hcons, hjobs⟩ := hs
  refine ⟨h.same.wf hpatrons, ?_, ?_, h.requests hrequests, h.cons hcons, h.jobs hjobs⟩
  · rwa [h.agencies]
  · rwa [Table.wf, h.titles]

theorem WorkChange.queues (h : WorkChange s t) (hs : QueuesBounded s) : QueuesBounded t := by
  obtain ⟨hoffice, hfloor, hreturn⟩ := hs
  refine ⟨?_, h.floor hfloor, h.returnQueue hreturn⟩
  rwa [h.line]

theorem WorkChange.form (h : WorkChange s t) : FormKept s t := ⟨⟨h.tables, h.queues⟩, h.channels, h.thresholds⟩

theorem OrderChange.form (h : OrderChange s t) : FormKept s t := h.work.form

/-- A change that writes neither a table nor the line nor the Return Inspection Unit. -/
theorem FormKept.of_same (hr : t.records = s.records) (hq : t.requests = s.requests)
    (hc : t.assembly.cons = s.assembly.cons) (hj : t.scheduler.jobs = s.scheduler.jobs) (hl : t.line = s.line)
    (hu : t.returns = s.returns) : FormKept s t := by
  refine ⟨⟨fun h => ?_, fun h => ?_⟩, by rw [hu], by rw [hu]⟩
  · unfold TablesCanonical
    rwa [hr, hq, hc, hj]
  · unfold QueuesBounded
    rwa [hl, hu]

theorem FormKept.line (l : LineUnit) (s : State)
    (ho : s.line.officeRx.length ≤ Config.officeQueuePlaces → l.officeRx.length ≤ Config.officeQueuePlaces)
    (hf : s.line.floorTx.length ≤ Config.floorQueuePlaces → l.floorTx.length ≤ Config.floorQueuePlaces) :
    FormKept s { s with line := l } :=
  ⟨⟨id, fun ⟨hoffice, hfloor, hreturn⟩ => ⟨ho hoffice, hf hfloor, hreturn⟩⟩, rfl, rfl⟩

theorem BoundsKept.returns (r : ReturnUnit) (s : State) (hq : r.queue = s.returns.queue) :
    BoundsKept s { s with returns := r } := by
  refine ⟨id, fun ⟨hoffice, hfloor, hreturn⟩ => ⟨hoffice, hfloor, ?_⟩⟩
  rwa [← hq] at hreturn

theorem FormKept.returns (r : ReturnUnit) (s : State) (hq : r.queue = s.returns.queue)
    (hc : r.channels = s.returns.channels) (ht : r.thresholds = s.returns.thresholds) :
    FormKept s { s with returns := r } := ⟨.returns r s hq, hc, ht⟩

theorem FormKept.toFloor (f : Frame) (h : s.line.floorTx.length < Config.floorQueuePlaces) : FormKept s (toFloor f s) := by
  refine .line _ s id fun _ => ?_
  rw [List.length_append]
  exact h

theorem FormKept.latch (n : NoticeId) (x : Nat) (s : State) : FormKept s (latch n x s) := (OrderChange.latch n x s).form

theorem FormKept.patrons (ps : Table Patron) (s : State) (h : Table.wf s.records.patrons → Table.wf ps) :
    FormKept s { s with records.patrons := ps } :=
  ⟨⟨fun ⟨hpatrons, hrest⟩ => ⟨h hpatrons, hrest⟩, id⟩, rfl, rfl⟩

theorem FormKept.agencies (as : Table Agency) (s : State) (h : Table.wf s.records.agencies → Table.wf as) :
    FormKept s { s with records.agencies := as } :=
  ⟨⟨fun ⟨hpatrons, hagencies, hrest⟩ => ⟨hpatrons, h hagencies, hrest⟩, id⟩, rfl, rfl⟩

theorem FormKept.titles (ts : Table Title) (s : State) (h : Table.wf s.records.titles → Table.wf ts) :
    FormKept s { s with records.titles := ts } :=
  ⟨⟨fun ⟨hpatrons, hagencies, htitles, hrest⟩ => ⟨hpatrons, hagencies, h htitles, hrest⟩, id⟩, rfl, rfl⟩

theorem passSeconds_form (n : Nat) (s : State) : FormKept s (passSeconds n s) := .of_same rfl rfl rfl rfl rfl rfl

theorem withPending_form (cs : List Instr) (s : State) : FormKept s (s.withPending cs) := .of_same rfl rfl rfl rfl rfl rfl

theorem fullReset_bounds (s : State) : BoundsKept s (fullReset s) :=
  ⟨fun _ => reset_tablesCanonical, fun _ => ⟨Nat.zero_le _, Nat.zero_le _, Nat.zero_le _⟩⟩

/-! ## The ports -/

theorem recordFault_form (p : Port) (c : Byte) (s : State) : FormKept s (recordFault p c s) := by
  cases p with
  | office => exact (FormKept.line { s.line with officeFaults := s.line.officeFaults ||| c } s id id).trans (.latch _ _ _)
  | floor => exact (FormKept.line { s.line with floorFaults := s.line.floorFaults ||| c } s id id).trans (.latch _ _ _)

theorem setMissed_form (k n : Nat) (s : State) : FormKept s (setMissed k n s) := .line _ s id id

theorem countMiss_form (k : Nat) (s : State) : FormKept s (countMiss k s) := by
  unfold countMiss
  split_ifs
  · exact (setMissed_form k 0 s).trans (.latch _ _ _)
  · exact setMissed_form k _ s

/-- The frame on the floor port ends, and the turn with it. -/
theorem endTurn_form (s : State) : FormKept s (endTurn (endReception s)) := .line _ s id id

theorem endReception_form (s : State) : FormKept s (endReception s) := .line _ s id id

theorem strayFrame_form (s : State) : FormKept s (strayFrame s) := by
  unfold strayFrame
  split
  · exact (endTurn_form s).trans (countMiss_form _ _)
  · exact endReception_form s
  · exact endReception_form s

theorem badSourceFrame_form (s : State) : FormKept s (badSourceFrame s) :=
  (recordFault_form .floor _ s).trans (strayFrame_form _)

theorem answered_form {k : Nat} (h : answered k s = some t) : FormKept s t := by
  unfold answered at h
  split at h
  · split_ifs at h
    cases h
    exact (endTurn_form s).trans (setMissed_form _ _ _)
  · split_ifs at h
    cases h
    exact endReception_form s
  · cases h

theorem faultInTurn_form (c : Byte) (s : State) : FormKept s (faultInTurn c s) := by
  unfold faultInTurn
  split
  next turn _ =>
    split_ifs
    · exact (endTurn_form s).trans (setMissed_form _ _ _)
    · exact ((endReception_form s).trans (.line { (endReception s).line with turn := some { turn with silence := true } } _ id id)).trans
        (setMissed_form _ _ _)
  · exact endReception_form s
  · exact endReception_form s

/-- A frame joins the office receive queue only where it finds a place (R194). -/
theorem joinOffice_form (f : Frame) (s : State) : FormKept s (joinOffice f s) := by
  unfold joinOffice
  split_ifs with _ hroom
  · exact .line _ s id id
  · refine .line _ s (fun _ => ?_) id
    rw [List.length_append]
    exact hroom
  · exact recordFault_form .office _ s

theorem receiveFrames_form (n : Nat) (run : List Chr) (s : State) : FormKept s (receiveFrames n run s) := by
  induction n generalizing run s with
  | zero => unfold receiveFrames; exact .line _ s id id
  | succ n ih =>
    unfold receiveFrames
    cases receiveAt .office run with
    | incomplete => exact .line _ s id id
    | frame f => exact (joinOffice_form f s).trans (ih _ _)
    | fault c =>
      exact ((FormKept.line { s.line with officeLost := false } s id id).trans (recordFault_form .office c _)).trans (ih _ _)

theorem cutOfficeFrame_form (s : State) : FormKept s (cutOfficeFrame s) := by
  unfold cutOfficeFrame
  split_ifs
  · exact .refl s
  · exact (FormKept.line { s.line with officeIn := [], officeLost := false } s id id).trans (recordFault_form .office _ _)

theorem discardOffice_form (run : List Chr) (s : State) : FormKept s (discardOffice run s) := by
  unfold discardOffice
  split
  · exact receiveFrames_form _ run s
  · exact receiveFrames_form _ run s
  · exact .refl s

theorem floorFault_form (run : List Chr) (c : Byte) (s : State) : FormKept s (floorFault run c s) := by
  have hfault := (recordFault_form .floor c s).trans (faultInTurn_form c _)
  unfold floorFault
  split
  · exact badSourceFrame_form s
  · exact hfault
  · exact hfault

theorem discardFloor_form (run : List Chr) (s : State) : FormKept s (discardFloor run s) := by
  unfold discardFloor
  split
  · exact (floorFault_form run _ s).trans (.line _ _ id id)
  · exact .line _ s id id
  · exact .refl s

theorem discardAt_form (p : Port) (cs : List Chr) (s : State) : FormKept s (discardAt p cs s) := by
  cases p with
  | office => exact discardOffice_form _ s
  | floor => exact discardFloor_form _ s

/-! ## Frames of the floor -/

theorem receiveFloor_form (k : Nat) {act : State → State} (ha : ∀ v, FormKept v (act v)) (s : State) :
    FormKept s (receiveFloor k act s) := by
  unfold receiveFloor
  split_ifs
  · exact badSourceFrame_form s
  split
  next v hv => exact ((answered_form hv).trans (reloadTimer_work k v).form).trans (ha _)
  next => exact strayFrame_form s

theorem takeForward_form (f : Frame) (s : State) : FormKept s (takeForward f s) := by
  unfold takeForward
  split_ifs
  · split
    next v hv =>
      refine (answered_form hv).trans ?_
      unfold forwardToOffice
      split
      · exact (reloadTimer_work f.src.toNat v).form.trans (.line _ _ id id)
      · exact recordFault_form .floor _ v
    next => exact strayFrame_form s
  · exact .refl s

theorem takeStray_form (f : Frame) (s : State) : FormKept s (takeStray f s) := by
  unfold takeStray
  split_ifs
  · exact strayFrame_form s
  · exact .refl s

theorem takeDropped_form (f : Frame) (s : State) : FormKept s (takeDropped f s) := by
  unfold takeDropped
  split_ifs
  · exact receiveFloor_form _ .refl s
  · exact .refl s

/-! ## RESTART, the mode and the item in inspection -/

theorem pollRoles_form (s : State) : FormKept s (pollRoles s) := by
  rw [pollRoles_frame]
  exact .line _ s id id

/-- RESTART empties both line queues (R189). -/
theorem restartLine_form (s : State) : FormKept s (restartLine s) :=
  (FormKept.line _ s (fun _ => Nat.zero_le _) (fun _ => Nat.zero_le _)).trans (pollRoles_form _)

theorem restartBlocks_floorTx (s : State) : (restartBlocks s).line.floorTx = [] := by
  unfold restartBlocks restartLine
  rw [pollRoles_frame]

theorem restart_form (s : State) : FormKept s (resumeAfterRestart (restartBlocks s)) := by
  have hblocks := ((((rebuildPicks_change s).work.trans (.foldl _ restartBay_work bayNumbers _)).trans
    (cancelReleases_work _)).trans (abandonReturns_work _)).form
  have hline : FormKept s (restartBlocks s) := (hblocks.trans (restartLine_form _)).trans (WorkChange.passDue false _).form
  have hroom : (restartBlocks s).line.floorTx.length < Config.floorQueuePlaces := by
    rw [restartBlocks_floorTx]
    decide
  unfold resumeAfterRestart
  exact ((hline.trans (.toFloor restartedFrame hroom)).trans (handPicks_work _ _).form).trans (passReleases_work _).form

theorem openPart_form (s : State) : FormKept s (openPart s).state := by
  have hmode : FormKept s { s with management.mode := .service } := .of_same rfl rfl rfl rfl rfl rfl
  unfold openPart
  simp only
  split
  · exact .refl s
  split
  · exact .refl s
  split
  · exact .refl s
  · exact hmode.trans (pollRoles_form _)

theorem sendVerdict_form (i : ReturnItem) (v : ItemVerdict) (d : Divert) (e : ExceptionCause)
    (h : s.line.floorTx.length < Config.floorQueuePlaces) : FormKept s (sendVerdict i v d e s) :=
  (FormKept.returns { s.returns with item := none } s rfl rfl rfl).trans (.toFloor _ h)

/-- The disposition hands nothing to the floor, so the VERDICT still finds the place it was given (R127, R197). -/
theorem judgeItem_form (i : ReturnItem) (c : Consignment) (h : s.line.floorTx.length < Config.floorQueuePlaces) :
    FormKept s (judgeItem i c s) := by
  obtain ⟨hchannels, hthresholds, hqueue⟩ := recordChannels_keeps i c.weight s.returns
  have hrecorded := FormKept.returns (recordChannels i c.weight s.returns) s hqueue hchannels hthresholds
  have hd := hrecorded.trans (dispose_work i.consignment c (verdictOf s.returns i c.weight) _).form
  have hroom : (dispose i.consignment c (verdictOf s.returns i c.weight)
      { s with returns := recordChannels i c.weight s.returns }).1.line.floorTx.length < Config.floorQueuePlaces := by
    rwa [dispose_line]
  unfold judgeItem
  simp only
  split_ifs
  · exact (hd.trans (.latch _ _ _)).trans (sendVerdict_form _ _ _ _ hroom)
  · exact hd.trans (sendVerdict_form _ _ _ _ hroom)

theorem completeItem_form (i : ReturnItem) (h : s.line.floorTx.length < Config.floorQueuePlaces) :
    FormKept s (completeItem i s) := by
  unfold completeItem
  refine FormKept.trans ?_ (finishInspection_work _).form
  cases matchItem s i with
  | ok c => exact judgeItem_form i c h
  | error e => exact (FormKept.latch _ _ s).trans (sendVerdict_form _ _ _ _ h)

theorem expire_form (s : State) (b : Nat) : FormKept s (expire s b) :=
  ((faultBay_work b .stall s).trans (settle_work _)).form

/-- One second on an empty queue (R79). -/
theorem tick_form (s : State) : FormKept s (tick s) := (passSeconds_form 1 s).trans (.foldl expire expire_form _ _)

/-! ## How commands are taken -/

theorem takeOffice_form {f : Frame} (h : takeOffice f s = some t) : FormKept s t := by
  obtain ⟨hframe, hshorter⟩ := takeOffice_work h
  rw [hframe]
  exact .line _ s hshorter.trans id

theorem replyTo_form (f : Frame) (c : Code) (fs : List Byte) (s : State) : FormKept s (replyTo f c fs s) := .line _ s id id

/-- A request, by what its owner does to the state in which it is taken. -/
theorem request_form_at {i : Instr} {act : State → Answer} (h : request i s act = .next t)
    (ha : ∀ f s0, takeOffice f s = some s0 → FormKept s0 (act s0).state) : FormKept s t := by
  obtain rfl | ⟨f, s0, -, ht, rfl⟩ := request_cases h
  · exact .refl _
  · exact (((takeOffice_form ht).trans (ha f s0 ht)).trans (settle_work _).form).trans (replyTo_form _ _ _ _)

theorem request_form {i : Instr} {act : State → Answer} (h : request i s act = .next t)
    (ha : ∀ v, FormKept v (act v).state) : FormKept s t := request_form_at h fun _ s0 _ => ha s0

theorem request_bounds {i : Instr} {act : State → Answer} (h : request i s act = .next t)
    (ha : ∀ v, BoundsKept v (act v).state) : BoundsKept s t := by
  obtain rfl | ⟨f, s0, -, ht, rfl⟩ := request_cases h
  · exact (FormKept.refl _).toBoundsKept
  · exact ((takeOffice_form ht).toBoundsKept.trans (ha s0)).trans
      ((settle_work _).form.trans (replyTo_form _ _ _ _)).toBoundsKept

theorem inService_form {v : State} {a : Answer} (h : FormKept v a.state) : FormKept v (inService v a).state := by
  unfold inService
  split
  · exact h
  · exact .refl v

theorem inSetup_form {v : State} {a : Answer} (h : FormKept v a.state) : FormKept v (inSetup v a).state := by
  unfold inSetup
  split
  · exact h
  · exact .refl v

theorem event_form (h : event t = .next u) (g : FormKept s t) : FormKept s u := by
  cases h
  exact g.trans (settle_work t).form

theorem floorEvent_form {i : Instr} {act : Frame → State → State} (h : floorEvent i act s = .next t)
    (ha : ∀ f v, FormKept v (act f v)) : FormKept s t := by
  unfold floorEvent at h
  split at h
  · cases h; exact .refl s
  · split_ifs at h
    · exact event_form h (ha _ s)
    · cases h; exact .refl s

theorem bayFrame_form {i : Instr} {act : Nat → State → State} (h : bayFrame i act s = .next t)
    (ha : ∀ b v, WorkChange v (act b v)) : FormKept s t :=
  floorEvent_form h fun f v => receiveFloor_form _ (fun w => by
    unfold takenByBay
    split
    · exact (ha _ w).form
    · exact .refl w) v

theorem unitFrame_form {i : Instr} {owner : Owner} {act : State → State} (h : unitFrame i owner act s = .next t)
    (ha : ∀ v, WorkChange v (act v)) : FormKept s t :=
  floorEvent_form h fun f v => receiveFloor_form _ (fun w => by
    unfold takenBy
    split_ifs
    · exact (ha w).form
    · exact .refl w) v

/-! ## The part's own steps -/

/-- A command that answers with a state of the form of `s`. -/
def KeepsForm (s : State) (r : Result) : Prop := ∀ t, r = .next t → FormKept s t

theorem FormKept.keeps (h : FormKept s t) : KeepsForm s (.next t) := by
  rintro u hu
  cases hu
  exact h

theorem keepsForm_self (s : State) : KeepsForm s (.next s) := (FormKept.refl s).keeps

theorem FormKept.keeps_if {p : Prop} [Decidable p] (h : p → FormKept s t) :
    KeepsForm s (if p then .next t else .next s) := by
  split_ifs with hp
  · exact (h hp).keeps
  · exact keepsForm_self s

theorem execOfficeRateChange_form (s : State) : KeepsForm s (execOfficeRateChange s) := by
  unfold execOfficeRateChange
  split
  · exact keepsForm_self s
  next o f rest _ =>
    exact .keeps_if fun _ => (FormKept.line
      { s.line with officeRate := o, floorNext := some f, ratesNext := rest, officeSending := none } s id id).trans
        (cutOfficeFrame_form _)

theorem execFloorRateChange_form (s : State) : KeepsForm s (execFloorRateChange s) := by
  unfold execFloorRateChange
  split
  · exact keepsForm_self s
  · exact .keeps_if fun _ => .line _ s id id

theorem execUnlistedManagementKind_form (src kind : Byte) (payload : List Byte) (s : State) :
    KeepsForm s (execUnlistedManagementKind src kind payload s) := by
  unfold execUnlistedManagementKind
  split
  · exact keepsForm_self s
  · exact fun _ h => request_form h .refl

theorem execStallExpiry_form (bay : Byte) (s : State) : KeepsForm s (execStallExpiry bay s) :=
  .keeps_if fun _ => (passSeconds_form _ s).trans (expire_form _ _)

theorem execOwedReturnAnswer_form (s : State) : KeepsForm s (execOwedReturnAnswer s) := by
  unfold execOwedReturnAnswer
  split
  · exact keepsForm_self s
  · exact .keeps_if fun hroom => (FormKept.returns { s.returns with owedAnswer := none } s rfl rfl rfl).trans
      (.toFloor _ (floorRoom_length hroom))

theorem execInspectionCompletion_form (s : State) : KeepsForm s (execInspectionCompletion s) := by
  unfold execInspectionCompletion
  split
  · exact keepsForm_self s
  · split_ifs with hroom
    · exact fun _ h => event_form h (completeItem_form _ (floorRoom_length hroom.2))
    · exact keepsForm_self s

theorem execSweepStep_form (s : State) : KeepsForm s (execSweepStep s) := by
  unfold execSweepStep
  split_ifs
  · exact fun _ h => event_form h ((examineRecord_work _ s).trans (advanceSweep_work _)).form
  · exact keepsForm_self s

theorem execOwedCommandHandOn_form (s : State) : KeepsForm s (execOwedCommandHandOn s) := by
  unfold execOwedCommandHandOn
  split
  · exact keepsForm_self s
  next b _ =>
    split
    · exact keepsForm_self s
    next f rest _ =>
      refine .keeps_if fun hroom => ?_
      have hand := (WorkChange.modBay b (fun bay => { bay with owed := rest }) s).form.trans
        (.toFloor f (floorRoom_length hroom))
      split_ifs
      · exact hand.trans (loadTimer_work b _).form
      · exact hand

theorem execOfficeFrameReceive_form (chars : List Chr) (s : State) : KeepsForm s (execOfficeFrameReceive chars s) := by
  unfold execOfficeFrameReceive
  simp only
  split
  · exact (receiveFrames_form _ _ s).keeps
  · exact (receiveFrames_form _ _ s).keeps
  · exact keepsForm_self s

/-- A frame that leaves the head of the office receive queue. -/
theorem leaveOffice_form {f : Frame} {rest : List Frame} (h : s.line.officeRx = f :: rest) :
    FormKept s { s with line.officeRx := rest } := by
  refine .line _ s (fun hs => ?_) id
  rw [h] at hs
  exact (Nat.le_succ _).trans hs

theorem execOfficePeerFrame_form (s : State) : KeepsForm s (execOfficePeerFrame s) := by
  unfold execOfficePeerFrame
  split
  · exact keepsForm_self s
  next hq => exact .keeps_if fun _ => leaveOffice_form hq

theorem placeReply_form (f : Frame) (c : Code) (fs : List Byte) (s : State) : FormKept s (placeReply f c fs s) :=
  .line _ s id id

theorem execForwardToFloor_form (s : State) : KeepsForm s (execForwardToFloor s) := by
  unfold execForwardToFloor
  split
  · exact keepsForm_self s
  next hq =>
    split_ifs with _ _ hroom
    · exact keepsForm_self s
    · exact ((leaveOffice_form hq).trans (.toFloor _ (floorRoom_length hroom))).keeps
    · exact keepsForm_self s
    · exact ((leaveOffice_form hq).trans (placeReply_form _ _ _ _)).keeps
    · exact keepsForm_self s

theorem execSendReply_form (s : State) : KeepsForm s (execSendReply s) := by
  unfold execSendReply
  split
  · exact keepsForm_self s
  · exact .keeps_if fun _ => .line _ s id id

theorem execSendForwardedFrame_form (s : State) : KeepsForm s (execSendForwardedFrame s) := by
  unfold execSendForwardedFrame
  split
  · exact .keeps_if fun _ => .line _ s id id
  · exact keepsForm_self s

theorem execNotice_form (s : State) : KeepsForm s (execNotice s) := by
  unfold execNotice
  split
  next n _ _ _ =>
    exact .keeps_if fun _ =>
      (FormKept.line { s.line with officeSending := some (noticeFrame n (bankGet s.management.notices n {})) } s id id).trans
        (.of_same rfl rfl rfl rfl rfl rfl)
  · exact keepsForm_self s

theorem execFloorSend_form (s : State) : KeepsForm s (execFloorSend s) := by
  unfold execFloorSend
  split
  · exact keepsForm_self s
  next hq =>
    refine .keeps_if fun _ => .line _ s id fun hs => ?_
    rw [hq] at hs
    exact (Nat.le_succ _).trans hs

theorem execPoll_form (s : State) : KeepsForm s (execPoll s) := by
  unfold execPoll
  split
  · exact keepsForm_self s
  · exact .keeps_if fun _ => .line _ s id id

theorem execReplyTurnGrant_form (s : State) : KeepsForm s (execReplyTurnGrant s) := by
  unfold execReplyTurnGrant
  split
  · exact keepsForm_self s
  · split_ifs
    · exact FormKept.keeps (.line _ s id id)
    · exact FormKept.keeps (.line _ s id id)
    · exact keepsForm_self s

theorem execReplyWindowExpiry_form (s : State) : KeepsForm s (execReplyWindowExpiry s) := by
  unfold execReplyWindowExpiry
  split
  · exact keepsForm_self s
  next k _ =>
    have hend : FormKept s (endTurn s) := .line _ s id id
    split_ifs
    · exact keepsForm_self s
    · exact (hend.trans (countMiss_form _ _)).keeps

theorem execTurnSilenceExpiry_form (s : State) : KeepsForm s (execTurnSilenceExpiry s) := by
  unfold execTurnSilenceExpiry
  split
  · exact keepsForm_self s
  · exact .keeps_if fun _ => .line _ s id id

end Form

end Sys2Proof.Machine
end

