-- ==== Sys2Proof/Proofs/TablesAndQueues.lean ====
section
/-! PROOFS. Every step keeps the tables canonical and the queues within their places (log 6, R122, R194, R197); channel
configurations and thresholds change only while inspection is SUSPENDED (R131, R132). -/

namespace Sys2Proof.Machine

section Commands

variable {s t : State}

/-! ## The loads of the Record Store -/

theorem modAgency_form (k : Nat) (f : Agency → Agency) (s : State) : FormKept s (modAgency k f s) :=
  .agencies _ s (Table.wf_modify _ k f)

theorem changeMembers_form (a b : Nat) (s : State) : FormKept s (changeMembers a b s) := by
  unfold changeMembers
  split_ifs
  · exact .refl s
  · exact (modAgency_form a _ s).trans (modAgency_form b _ _)

theorem windows_form (w : Vector Window 16) (s : State) : FormKept s { s with dispatch.windows := w } :=
  .of_same rfl rfl rfl rfl rfl rfl

theorem deletePatron_form (k : Nat) (s : State) : FormKept s (deletePatron k s).state := by
  unfold deletePatron
  split
  · exact .refl s
  · split_ifs
    · exact .refl s
    · exact (changeMembers_form _ 0 s).trans (.patrons _ _ (Table.wf_delete _ k))

theorem writePatron_form (k : Nat) (new : Patron) (s : State) : FormKept s (writePatron k new s).state := by
  have hput (a b : Nat) (p : Patron) : FormKept s { changeMembers a b s with
      records.patrons := Table.put (changeMembers a b s).records.patrons k p } :=
    (changeMembers_form a b s).trans (.patrons _ _ (Table.wf_put _ k p))
  unfold writePatron
  split_ifs
  · exact .refl s
  split
  · exact hput _ _ _
  · split_ifs
    · exact .refl s
    · exact (hput _ _ _).trans (headroom_change k _).form
    · exact hput _ _ _

theorem writeAgency_form (k code : Nat) (s : State) : FormKept s (writeAgency k code s) := by
  unfold writeAgency
  split <;> exact .agencies _ s (Table.wf_put _ k _)

theorem deleteAgency_form (k : Nat) (s : State) : FormKept s (deleteAgency k s).state := by
  unfold deleteAgency
  split
  · exact .refl s
  · split_ifs
    · exact .refl s
    · exact .agencies _ s (Table.wf_delete _ k)

theorem shelfToBlank_form (x : Title) (s : State) : FormKept s (shelfToBlank x s) := by
  unfold shelfToBlank
  split_ifs
  · exact .of_same rfl rfl rfl rfl rfl rfl
  · exact .refl s

theorem deleteTitle_form (k : Nat) (s : State) : FormKept s (deleteTitle k s).state := by
  unfold deleteTitle
  split
  · exact .refl s
  · split_ifs
    · exact .refl s
    · exact (shelfToBlank_form _ s).trans (.titles _ _ (Table.wf_delete _ k))

theorem writeTitle_form (k : Nat) (new : Title) (s : State) : FormKept s (writeTitle k new s).state := by
  unfold writeTitle
  split
  · exact .titles _ s (Table.wf_put _ k new)
  next old _ =>
    split_ifs
    · exact .refl s
    · exact (FormKept.titles (Table.put s.records.titles k (Title.reloaded old new)) s (Table.wf_put _ k _)).trans
        (copiesFreed_change _ k _).form

/-! ## Geometry, settings, the repair bench and the manifest -/

/-- SET_GEOMETRY empties every table and leaves the lines and the returns alone (R179). -/
theorem takeGeometry_form (g : Geometry) (s : State) : FormKept s (takeGeometry g s) :=
  ⟨⟨fun _ => reset_tablesCanonical, id⟩, rfl, rfl⟩

theorem evaluateHeld_work (k : Nat) (s : State) : WorkChange s (evaluateHeld k s) := by
  have h := evaluateHeld_after k id (fun _ => rfl) s
  have hsame : modPatron k id s = s := by simp [modPatron, Table.modify]
  rwa [hsame] at h

theorem modSettings_form (f : Settings → Settings) (s : State) : FormKept s (modSettings f s) :=
  .of_same rfl rfl rfl rfl rfl rfl

theorem writeHoldLimit_form (v : Nat) (s : State) : FormKept s (writeHoldLimit v s) := by
  unfold writeHoldLimit
  split_ifs
  · exact .refl s
  · exact (modSettings_form _ s).trans (.foldl _ (fun s k => (evaluateHeld_work k s).form) _ _)

theorem changeRole_form (old new : Nat) (f : Settings → Settings) {act : State → State} (ha : ∀ v, WorkChange v (act v))
    (s : State) : FormKept s (changeRole old new (modSettings f) act s) := by
  unfold changeRole
  split_ifs
  · exact .refl s
  split
  · exact modSettings_form f s
  · exact (modSettings_form f s).trans (((leavePoll_work old _).trans (joinPoll_work new _)).trans (ha _)).form

theorem writeSetting_form (w : SettingWrite) (v : Nat) (s : State) : FormKept s (writeSetting w v s).state := by
  cases w with
  | plain f => exact modSettings_form f s
  | holdLimit n => exact writeHoldLimit_form n s
  | pickRole n =>
    unfold writeSetting
    simp only
    split_ifs
    · exact .refl s
    · exact changeRole_form _ _ _ (fun v => (rebuildPicks_change v).work.trans (handPicks_work _ _)) s
  | sorterRole n =>
    unfold writeSetting
    simp only
    split_ifs
    · exact .refl s
    · exact changeRole_form _ _ _ (fun v => (cancelReleases_work v).trans (passReleases_work _)) s
  | scannerRole n =>
    unfold writeSetting
    simp only
    split_ifs
    · exact .refl s
    · exact changeRole_form _ _ _ (fun v => (abandonReturns_work v).trans (startInspection_work _)) s

theorem repairItems_form (cls n title : Nat) (s : State) : FormKept s (repairItems cls n title s).state := by
  unfold repairItems
  split
  · exact .refl s
  · exact .of_same rfl rfl rfl rfl rfl rfl
  · exact ((mendCopies_change title n _ s).trans (copiesFreed_change n title _)).form

theorem retireItems_form (cls n title : Nat) (s : State) : FormKept s (retireItems cls n title s).state := by
  unfold retireItems
  split
  · exact .refl s
  · exact .of_same rfl rfl rfl rfl rfl rfl
  · exact (retireCopies_change title n _ s).form

theorem setHalf_form (h : Bool) (rs : List ManifestRecord) (s : State) : FormKept s (setHalf h rs s) := by
  rw [setHalf_frame]
  exact .of_same rfl rfl rfl rfl rfl rfl

theorem releaseHalf_form (h : Bool) (s : State) : FormKept s (releaseHalf h s).state := by
  have hswitch : FormKept (setHalf h [] s) { setHalf h [] s with dispatch.filling := h } := .of_same rfl rfl rfl rfl rfl rfl
  unfold releaseHalf
  split_ifs
  · exact .refl s
  · exact .refl s
  · exact (setHalf_form h [] s).trans (passReleases_work _).form
  · exact (((setHalf_form h [] s).trans hswitch).trans (.latch _ _ _)).trans (passReleases_work _).form

/-- A request that writes the circulation outright. -/
theorem writesCirculation_form {i : Instr} (hi : WritesCirculation i) (h : exec i s = .next t) : FormKept s t := by
  unfold exec at h
  cases hi with
  | setGeometry =>
    refine request_form h fun v => inSetup_form ?_
    simp only
    split_ifs
    · exact takeGeometry_form _ v
    · exact .refl v
  | setSetting =>
    refine request_form h fun v => ?_
    split
    · exact .refl v
    · exact writeSetting_form _ _ v
  | loadPatron =>
    refine request_form h fun v => ?_
    split_ifs
    · exact .refl v
    · exact .refl v
    split
    · exact deletePatron_form _ v
    · exact writePatron_form _ _ v
    · exact .refl v
  | loadAgency =>
    refine request_form h fun v => ?_
    split_ifs
    · exact .refl v
    split
    · exact .refl v
    · exact writeAgency_form _ _ v
    · exact deleteAgency_form _ v
  | loadTitle =>
    refine request_form h fun v => ?_
    split_ifs
    · exact .refl v
    split
    · exact deleteTitle_form _ v
    · exact writeTitle_form _ _ v
    · exact .refl v
  | setWindow =>
    refine request_form h fun v => ?_
    split
    · exact .refl v
    · exact (windows_form _ v).trans (passReleases_work _).form
  | releaseManifest =>
    refine request_form h fun v => ?_
    split
    · exact .refl v
    · exact releaseHalf_form _ v
  | repaired => exact request_form h (repairItems_form _ _ _)
  | retireRepair => exact request_form h (retireItems_form _ _ _)

/-! ## The loads of the Return Inspection Unit (R131, R132) -/

/-- The two requests that load channel configurations and threshold entries. -/
inductive LoadsChannel : Instr → Prop
  | setChannel (channel mode action store reference : Byte) :
    LoadsChannel (.setChannel channel mode action store reference)
  | setThreshold (entry : Byte) (value : U16) : LoadsChannel (.setThreshold entry value)

theorem loadsBusy_eq_false : loadsBusy s = false ↔ s.returns.suspended = true ∧ s.returns.suspendPending = false := by
  rw [loadsBusy, Bool.or_eq_false_iff, Bool.not_eq_false']

theorem loadsBusy_taken {f : Frame} (h : takeOffice f s = some t) : loadsBusy t = loadsBusy s := by
  rw [(takeOffice_work h).1]
  rfl

theorem writeChannel_busy (c : Nat) (cfg : Channel) (h : loadsBusy s = true) : (writeChannel c cfg s).state = s := by
  unfold writeChannel
  rw [if_pos h]
  split_ifs <;> rfl

/-- While loads are busy a load changes nothing: it is answered BUSY, if it passes the checks before (R131 check 3, R132
check 2). -/
theorem loadsChannel_form {i : Instr} (hi : LoadsChannel i) (hb : loadsBusy s = true) (h : exec i s = .next t) :
    FormKept s t := by
  unfold exec at h
  cases hi with
  | setChannel =>
    refine request_form_at h fun f v hv => ?_
    have hbusy := (loadsBusy_taken hv).trans hb
    split
    · split_ifs
      · exact .refl v
      · rw [writeChannel_busy _ _ hbusy]
        exact .refl v
    · exact .refl v
  | setThreshold =>
    refine request_form_at h fun f v hv => ?_
    have hbusy := (loadsBusy_taken hv).trans hb
    split_ifs <;> exact .refl v

theorem writeChannel_bounds (c : Nat) (cfg : Channel) (s : State) : BoundsKept s (writeChannel c cfg s).state := by
  unfold writeChannel
  split_ifs
  · exact (FormKept.refl s).toBoundsKept
  · exact (FormKept.refl s).toBoundsKept
  · exact (FormKept.refl s).toBoundsKept
  · exact .returns _ s rfl

/-- A load writes no table and no queue. -/
theorem loadsChannel_bounds {i : Instr} (hi : LoadsChannel i) (h : exec i s = .next t) : BoundsKept s t := by
  unfold exec at h
  cases hi with
  | setChannel =>
    refine request_bounds h fun v => ?_
    split
    · split_ifs
      · exact (FormKept.refl v).toBoundsKept
      · exact writeChannel_bounds _ _ v
    · exact (FormKept.refl v).toBoundsKept
  | setThreshold =>
    refine request_bounds h fun v => ?_
    split_ifs
    · exact (FormKept.refl v).toBoundsKept
    · exact (FormKept.refl v).toBoundsKept
    · exact .returns _ v rfl

theorem suspendInspection_form (s : State) : FormKept s (suspendInspection s) := by
  unfold suspendInspection
  split_ifs
  · exact .refl s
  · exact .returns _ s rfl rfl rfl
  · exact .returns _ s rfl rfl rfl

/-! ## Every command -/

theorem placeOrder_form (patron title : Nat) (s : State) : FormKept s (placeOrder patron title s).state := by
  have hrefused : FormKept s { s with freeIx := s.freeIx + 1 } := .of_same rfl rfl rfl rfl rfl rfl
  unfold placeOrder
  split
  · exact hrefused
  split
  · exact hrefused
  split
  · exact hrefused
  · exact (acceptOrder_change _ patron title s).form

theorem advanceDay_form (d : Day) (s : State) : FormKept s (advanceDay d s).state := by
  unfold advanceDay
  split_ifs
  · exact .refl s
  · exact .refl s
  · exact .of_same rfl rfl rfl rfl rfl rfl
  · exact .refl s

theorem restartAnswer_form (s : State) :
    FormKept s (inService s ⟨resumeAfterRestart (restartBlocks s), .ok, []⟩).state := by
  have hr := restart_form s
  generalize resumeAfterRestart (restartBlocks s) = t at hr ⊢
  exact inService_form hr

/-- A command that is no full reset keeps the form of the state, a load of a channel or a threshold entry while loads are
busy. -/
theorem exec_form (i : Instr) (hp : keepsPower i) (hl : LoadsChannel i → loadsBusy s = true) (h : exec i s = .next t) :
    FormKept s t := by
  have hexec := h
  unfold exec at h
  cases i with
  | setGeometry | setSetting | loadPatron | loadAgency | loadTitle | setWindow | releaseManifest | repaired
  | retireRepair => exact writesCirculation_form (by constructor) hexec
  | setChannel => exact loadsChannel_form (.setChannel ..) (hl (.setChannel ..)) hexec
  | setThreshold => exact loadsChannel_form (.setThreshold ..) (hl (.setThreshold ..)) hexec
  | resetPin => exact absurd rfl hp.1
  | powerOn => exact absurd rfl hp.2.1
  | resetAfterReply => exact absurd rfl hp.2.2
  | restart => exact request_form h restartAnswer_form
  | setClass =>
    refine request_form h fun v => inSetup_form ?_
    split_ifs
    · exact .refl v
    · exact .of_same rfl rfl rfl rfl rfl rfl
  | setLines =>
    refine request_form h fun v => inSetup_form ?_
    split
    · exact .line _ v id id
    · exact .refl v
  | setDay => exact request_form h fun v => inSetup_form (.of_same rfl rfl rfl rfl rfl rfl)
  | openService => exact request_form h fun v => inSetup_form (openPart_form v)
  | setBay => exact request_form h fun v => (configureBay_work _ _ _ _ v).form
  | bayOnline =>
    refine request_form h fun v => inService_form ?_
    split_ifs
    · exact .refl v
    · exact .refl v
    · exact (bringOnline_work _ v).form
  | bayOffline =>
    refine request_form h fun v => inService_form ?_
    split_ifs
    · exact .refl v
    split
    · exact .refl v
    · exact (WorkChange.modBay _ _ v).form
    all_goals exact (takeOffline_work _ v).form
  | buildStock => exact request_form h fun v => inService_form (buildRun_change _ _ v).form
  | raiseJob => exact request_form h fun v => inService_form (raiseJobTo3_change _ v).form
  | flushPack => exact request_form h fun v => inService_form (flushPacks_change _ v).form
  | day => exact request_form h fun v => inService_form (advanceDay_form _ v)
  | inspectSuspend => exact request_form h suspendInspection_form
  | inspectResume => exact request_form h fun v => (resumeInspection_work v).form
  | clearHits => exact request_form h fun v => .returns _ v rfl rfl rfl
  | stockAdd => exact request_form h fun v => (addStock_work _ _ v).form
  | stockAddTitle => exact request_form h fun v => (addTitleStock_change _ _ v).form
  | declareLost => exact request_form h fun v => inService_form (declareLoss_work _ v).form
  | order => exact request_form h fun v => inService_form (placeOrder_form _ _ v)
  | probe =>
    refine request_form h fun v => inService_form ?_
    rw [probeOrder_state]
    exact .refl v
  | cancel => exact request_form h fun v => inService_form (cancelOrder_change _ _ v).form
  | clearLineFaults => exact request_form h fun v => .line _ v id id
  | setMask =>
    refine request_form h fun v => ?_
    split_ifs
    · exact .refl v
    · exact .of_same rfl rfl rfl rfl rfl rfl
  | readRecord | readStock =>
    refine request_form h fun v => ?_
    split <;> exact .refl v
  | readChannel =>
    refine request_form h fun v => ?_
    split_ifs <;> exact .refl v
  | readManifest =>
    refine request_form h fun v => ?_
    split
    · exact .refl v
    · split_ifs
      · exact .refl v
      · rw [manifestAnswer_state]
        exact .refl v
  | reset | readDispatch | readInspection | readDay | readSetup | readLines | readNotices => exact request_form h .refl
  | unlistedManagementKind => exact execUnlistedManagementKind_form _ _ _ s t h
  | officeRateChange => exact execOfficeRateChange_form s t h
  | floorRateChange => exact execFloorRateChange_form s t h
  | stallExpiry => exact execStallExpiry_form _ s t h
  | started => exact bayFrame_form h fun b v => takeStarted_work _ _ b v
  | progress => exact bayFrame_form h fun b v => takeProgress_work _ _ b v
  | parked => exact bayFrame_form h fun b v => takeParked_work _ _ b v
  | copyDone => exact bayFrame_form h fun b v => takeCopyDone_work _ _ _ b v
  | bayFault => exact bayFrame_form h fun b v => takeBayFault_work _ b v
  | pick => exact event_form h (handPick_work _ s).form
  | picked => exact unitFrame_form h fun v => takePicked_work _ _ v
  | notFound => exact unitFrame_form h fun v => (takeNotFound_change _ v).work
  | releasePass => exact event_form h (passReleases_work s).form
  | chuted => exact unitFrame_form h fun v => takeChuted_work _ v
  | chuteFull => exact unitFrame_form h fun v => takeChuteFull_work _ _ v
  | chuteClear => exact unitFrame_form h fun v => takeChuteClear_work _ v
  | returnItem => exact unitFrame_form h fun v => takeReturnItem_if_work _ _ v
  | owedReturnAnswer => exact execOwedReturnAnswer_form s t h
  | inspectionCompletion => exact execInspectionCompletion_form s t h
  | sweepStep => exact execSweepStep_form s t h
  | owedCommandHandOn => exact execOwedCommandHandOn_form s t h
  | officeFrameReceive => exact execOfficeFrameReceive_form _ s t h
  | officePeerFrame => exact execOfficePeerFrame_form s t h
  | forwardToFloor => exact execForwardToFloor_form s t h
  | floorForward => exact floorEvent_form h takeForward_form
  | frameDiscard => exact (discardAt_form _ _ s).keeps t h
  | strayFloorFrame => exact floorEvent_form h takeStray_form
  | quiet => exact floorEvent_form h fun f v => receiveFloor_form _ .refl v
  | sendReply => exact execSendReply_form s t h
  | sendForwardedFrame => exact execSendForwardedFrame_form s t h
  | notice => exact execNotice_form s t h
  | floorSend => exact execFloorSend_form s t h
  | poll => exact execPoll_form s t h
  | replyTurnGrant => exact execReplyTurnGrant_form s t h
  | replyWindowExpiry => exact execReplyWindowExpiry_form s t h
  | turnSilenceExpiry => exact execTurnSilenceExpiry_form s t h
  | floorFrameNotTaken => exact floorEvent_form h takeDropped_form

theorem execResetAfterReply_bounds (h : execResetAfterReply s = .next t) : BoundsKept s t := by
  unfold execResetAfterReply at h
  split_ifs at h <;> cases h
  · exact fullReset_bounds s
  · exact (FormKept.refl s).toBoundsKept

/-- Every command keeps the tables canonical and the queues within their places. -/
theorem exec_bounds (i : Instr) (h : exec i s = .next t) : BoundsKept s t := by
  by_cases hl : LoadsChannel i
  · exact loadsChannel_bounds hl h
  by_cases hpin : i = .resetPin
  · subst hpin
    cases h
    exact fullReset_bounds s
  by_cases hpower : i = .powerOn
  · subst hpower
    cases h
    exact fullReset_bounds s
  by_cases hreply : i = .resetAfterReply
  · subst hreply
    exact execResetAfterReply_bounds h
  · exact (exec_form i ⟨hpin, hpower, hreply⟩ (absurd · hl) h).toBoundsKept

theorem step_bounds (h : step s = .next t) : BoundsKept s t := by
  unfold step at h
  split at h
  · cases h
    exact (tick_form s).toBoundsKept
  next c rest _ => exact (withPending_form rest s).toBoundsKept.trans (exec_bounds c h)

end Commands

end Sys2Proof.Machine

open Sys2Proof.Machine in
/-- Settles O9: a command works in circulation, writes a table by its own operations, or adds to a queue that has room. -/
theorem everyStepKeepsTablesAndQueues : Obligations.EveryStepKeepsTablesAndQueues :=
  ⟨fun _ _ hs h => (step_bounds h).tables hs, fun _ _ hs h => (step_bounds h).queues hs⟩

open Sys2Proof Sys2Proof.Machine in
/-- Settles O13: only SET_CHANNEL and SET_THRESHOLD load, and while loads are busy they change nothing. -/
theorem channelLoadsOnlyWhileSuspended : Obligations.ChannelLoadsOnlyWhileSuspended := by
  intro c s t hp h hchanged
  rw [← loadsBusy_eq_false, ← Bool.not_eq_true]
  intro hbusy
  have hform := exec_form c hp (fun _ => hbusy) h
  exact hchanged.elim (absurd hform.channels) (absurd hform.thresholds)
end

