-- ==== Sys2Proof/Proofs/InspectionRequests.lean ====
section
/-! PROOFS. INSPECT_SUSPEND, INSPECT_RESUME and CLEAR_HITS (R125, R126, R135), SET_CHANNEL and SET_THRESHOLD (R131, R132,
R136). -/

namespace Sys2Proof.Machine

theorem Takes.returns {i : Instr} {s s0 : State} (h : Takes i s s0) : s0.returns = s.returns := by rw [h.line_only]

/-! ## The inspection state (R125, R126, R135) -/

section Inspection

variable {s s0 : State}

/-- R126: the front of the queue goes into inspection when nothing stands in its way. -/
theorem startInspection_starts {x : ReturnItem} {rest : List ReturnItem} (hq : s.returns.queue = x :: rest)
    (hs : s.returns.suspended = false) (hp : s.returns.suspendPending = false) (hi : s.returns.item = none)
    (hr : s.management.settings.scannerRole ≠ 0) :
    startInspection s = { s with returns.queue := rest, returns.item := some x } := by
  rw [startInspection, hq]
  exact if_pos ⟨hs, hp, hi, hr⟩

/-- R126: no inspection starts from an empty queue, without a scanner role, or unless inspection is running with no item
and no pending suspension. -/
theorem startInspection_idle (h : ¬(s.returns.queue ≠ [] ∧ s.returns.suspended = false ∧ s.returns.suspendPending = false ∧
    s.returns.item = none ∧ s.management.settings.scannerRole ≠ 0)) : startInspection s = s := by
  unfold startInspection
  split
  · rfl
  next hq => exact if_neg fun hc => h ⟨by simp [hq], hc⟩

theorem startInspection_passDue (s : State) : (startInspection s).passDue = s.passDue := by
  unfold startInspection
  split
  · rfl
  · split_ifs <;> rfl

theorem inspectionBytes_of {a b : Bool} (ha : s.returns.suspended = a) (hb : s.returns.suspendPending = b) :
    inspectionBytes s = [flagByte a, flagByte b] := by
  rw [inspectionBytes, ha, hb]

/-- INSPECT_SUSPEND (R125): the reply carries the state and the indication as they stand after it. -/
theorem Takes.suspends {t : State} {a b : Bool} (h : Takes .inspectSuspend s s0) (ht : suspendInspection s0 = t)
    (hp : t.passDue = s0.passDue) (ha : t.returns.suspended = a) (hb : t.returns.suspendPending = b) :
    exec .inspectSuspend s = .next (replied .inspectSuspend .ok [flagByte a, flagByte b] t) :=
  h.quiet (act := fun s => ⟨suspendInspection s, .ok, inspectionBytes (suspendInspection s)⟩) rfl
    (by rw [ht, inspectionBytes_of ha hb]) hp

/-- INSPECT_RESUME (R125). -/
theorem Takes.resumes {t : State} {a b : Bool} (h : Takes .inspectResume s s0) (ht : resumeInspection s0 = t)
    (hp : t.passDue = s0.passDue) (ha : t.returns.suspended = a) (hb : t.returns.suspendPending = b) :
    exec .inspectResume s = .next (replied .inspectResume .ok [flagByte a, flagByte b] t) :=
  h.quiet (act := fun s => ⟨resumeInspection s, .ok, inspectionBytes (resumeInspection s)⟩) rfl
    (by rw [ht, inspectionBytes_of ha hb]) hp

theorem resumeInspection_suspended (h : s.returns.suspended = true) :
    resumeInspection s = startInspection { s with returns.suspended := false } := if_pos h

theorem resumeInspection_running (h : s.returns.suspended = false) :
    resumeInspection s = { s with returns.suspendPending := false } := if_neg (by simp [h])

end Inspection

/-! ## The configuration a SET_CHANNEL carries (R131, R201) -/

section Loads

variable {s s0 : State} {b mode action store reference : Byte}

theorem channelModeOf_eq_some {m : ChannelMode} : channelModeOf b = some m ↔ channelModeValue m = b.toNat := by
  constructor
  · intro h
    unfold channelModeOf at h
    split at h <;> cases h <;> exact Eq.symm ‹_›
  · intro h
    rw [channelModeOf, ← h]
    cases m <;> rfl

theorem channelActionOf_eq_some {a : ChannelAction} : channelActionOf b = some a ↔ channelActionValue a = b.toNat := by
  constructor
  · intro h
    unfold channelActionOf at h
    split at h <;> cases h <;> exact Eq.symm ‹_›
  · intro h
    rw [channelActionOf, ← h]
    cases a <;> rfl

theorem channelStoreOf_eq_some {st : ChannelStore} : channelStoreOf b = some st ↔ channelStoreValue st = b.toNat := by
  constructor
  · intro h
    unfold channelStoreOf at h
    split at h <;> cases h <;> exact Eq.symm ‹_›
  · intro h
    rw [channelStoreOf, ← h]
    cases st <;> rfl

theorem channelReferenceOf_eq_some {r : ChannelReference} :
    channelReferenceOf b = some r ↔ channelReferenceValue r = b.toNat := by
  constructor
  · intro h
    unfold channelReferenceOf at h
    split at h <;> cases h <;> exact Eq.symm ‹_›
  · intro h
    rw [channelReferenceOf, ← h]
    cases r <;> rfl

theorem channelModeValue_le (m : ChannelMode) : channelModeValue m ≤ 4 := by cases m <;> decide
theorem channelActionValue_le (a : ChannelAction) : channelActionValue a ≤ 2 := by cases a <;> decide
theorem channelStoreValue_le (st : ChannelStore) : channelStoreValue st ≤ 2 := by cases st <;> decide
theorem channelReferenceValue_le (r : ChannelReference) : channelReferenceValue r ≤ 1 := by cases r <;> decide

theorem exists_channelMode {n : Nat} (h : n ≤ 4) : ∃ m, channelModeValue m = n := by
  interval_cases n
  exacts [⟨.off, rfl⟩, ⟨.above, rfl⟩, ⟨.below, rfl⟩, ⟨.inside, rfl⟩, ⟨.outside, rfl⟩]

theorem exists_channelAction {n : Nat} (h : n ≤ 2) : ∃ a, channelActionValue a = n := by
  interval_cases n
  exacts [⟨.note, rfl⟩, ⟨.repair, rfl⟩, ⟨.retire, rfl⟩]

theorem exists_channelStore {n : Nat} (h : n ≤ 2) : ∃ st, channelStoreValue st = n := by
  interval_cases n
  exacts [⟨.none, rfl⟩, ⟨.onHit, rfl⟩, ⟨.always, rfl⟩]

theorem exists_channelReference {n : Nat} (h : n ≤ 1) : ∃ r, channelReferenceValue r = n := by
  interval_cases n
  exacts [⟨.absolute, rfl⟩, ⟨.partWeight, rfl⟩]

/-- The four bytes of a SET_CHANNEL stand for this configuration. -/
structure ReadsChannel (mode action store reference : Byte) (cfg : Channel) : Prop where
  mode : channelModeValue cfg.mode = mode.toNat
  action : channelActionValue cfg.action = action.toNat
  store : channelStoreValue cfg.store = store.toNat
  reference : channelReferenceValue cfg.reference = reference.toNat

theorem exists_readsChannel : (∃ cfg, ReadsChannel mode action store reference cfg) ↔
    mode.toNat ≤ 4 ∧ action.toNat ≤ 2 ∧ store.toNat ≤ 2 ∧ reference.toNat ≤ 1 := by
  constructor
  · rintro ⟨cfg, hm, ha, hst, hr⟩
    exact ⟨hm ▸ channelModeValue_le _, ha ▸ channelActionValue_le _, hst ▸ channelStoreValue_le _,
      hr ▸ channelReferenceValue_le _⟩
  · rintro ⟨hm, ha, hst, hr⟩
    obtain ⟨m, hm⟩ := exists_channelMode hm
    obtain ⟨a, ha⟩ := exists_channelAction ha
    obtain ⟨st, hst⟩ := exists_channelStore hst
    obtain ⟨r, hr⟩ := exists_channelReference hr
    exact ⟨⟨m, a, st, r⟩, hm, ha, hst, hr⟩

/-- SET_CHANNEL's action (R131). -/
def loadChannel (channel mode action store reference : Byte) (s : State) : Answer :=
  match channelModeOf mode, channelActionOf action, channelStoreOf store, channelReferenceOf reference with
  | some m, some a, some st, some r =>
    if 15 < channel.toNat then refuse .badField s
    else writeChannel channel.toNat { mode := m, action := a, store := st, reference := r } s
  | _, _, _, _ => refuse .badField s

theorem exec_setChannel (channel mode action store reference : Byte) (s : State) :
    exec (.setChannel channel mode action store reference) s =
      request (.setChannel channel mode action store reference) s (loadChannel channel mode action store reference) := rfl

theorem loadChannel_reads {cfg : Channel} (channel : Byte) (h : ReadsChannel mode action store reference cfg) :
    loadChannel channel mode action store reference s =
      if 15 < channel.toNat then refuse .badField s else writeChannel channel.toNat cfg s := by
  rw [loadChannel, channelModeOf_eq_some.mpr h.mode, channelActionOf_eq_some.mpr h.action,
    channelStoreOf_eq_some.mpr h.store, channelReferenceOf_eq_some.mpr h.reference]

theorem loadChannel_unread (channel : Byte) (h : ¬∃ cfg, ReadsChannel mode action store reference cfg) :
    loadChannel channel mode action store reference s = refuse .badField s := by
  unfold loadChannel
  split
  next hm ha hst hr =>
    exact (h ⟨⟨_, _, _, _⟩, channelModeOf_eq_some.mp hm, channelActionOf_eq_some.mp ha, channelStoreOf_eq_some.mp hst,
      channelReferenceOf_eq_some.mp hr⟩).elim
  · rfl

/-! ## The checks and the write (R131, R136) -/

theorem isWindow_iff {m : ChannelMode} : m.isWindow = true ↔ m = .inside ∨ m = .outside := by cases m <;> decide

theorem isWindow_iff_byte {m : ChannelMode} (h : channelModeValue m = b.toNat) : m.isWindow = true ↔ b = 3 ∨ b = 4 := by
  rw [← BitVec.toNat_inj, ← BitVec.toNat_inj, ← h]
  cases m <;> decide

theorem ne_off_iff_byte {m : ChannelMode} (h : channelModeValue m = b.toNat) : m ≠ .off ↔ b ≠ 0 := by
  rw [Ne, Ne, ← BitVec.toNat_inj, ← h]
  cases m <;> decide

theorem channelConflict_iff {m : ChannelMode} (c : Nat) (h : channelModeValue m = b.toNat) :
    channelConflict s c m = true ↔
      (c < 8 ∧ (b = 3 ∨ b = 4) ∧ (channelAt s.returns (c + 8)).mode ≠ .off) ∨
        (8 ≤ c ∧ b ≠ 0 ∧ ((channelAt s.returns (c - 8)).mode = .inside ∨ (channelAt s.returns (c - 8)).mode = .outside)) := by
  rw [← isWindow_iff_byte h, ← ne_off_iff_byte h, ← isWindow_iff]
  unfold channelConflict
  split_ifs with hc
  · have h8 : ¬8 ≤ c := by omega
    simp [hc, h8]
  · have h8 : 8 ≤ c := by omega
    simp [hc, h8]

/-- An accepted SET_CHANNEL writes the channel's configuration and empties its stored reading. -/
def channelWritten (c : Nat) (cfg : Channel) (s : State) : State :=
  { s with
    returns.channels := bankModify s.returns.channels (c + 1) fun _ => cfg
    returns.stored := bankModify s.returns.stored (c + 1) fun _ => {} }

theorem writeChannel_badField {c : Nat} {cfg : Channel} (h : 8 ≤ c ∧ cfg.mode.isWindow = true) :
    writeChannel c cfg s = refuse .badField s := if_pos h

theorem writeChannel_refusesBusy {c : Nat} {cfg : Channel} (hw : ¬(8 ≤ c ∧ cfg.mode.isWindow = true))
    (hb : loadsBusy s = true) : writeChannel c cfg s = refuse .busy s := by
  rw [writeChannel, if_neg hw, if_pos hb]

theorem writeChannel_conflict {c : Nat} {cfg : Channel} (hw : ¬(8 ≤ c ∧ cfg.mode.isWindow = true))
    (hb : loadsBusy s = false) (hc : channelConflict s c cfg.mode = true) : writeChannel c cfg s = refuse .conflict s := by
  rw [writeChannel, if_neg hw, hb, if_pos hc]
  rfl

theorem writeChannel_accepted {c : Nat} {cfg : Channel} (hw : ¬(8 ≤ c ∧ cfg.mode.isWindow = true))
    (hb : loadsBusy s = false) (hc : ¬channelConflict s c cfg.mode = true) :
    writeChannel c cfg s = ⟨channelWritten c cfg s, .ok, []⟩ := by
  rw [writeChannel, if_neg hw, hb, if_neg hc]
  rfl

theorem channelWritten_same {c : Nat} (cfg : Channel) (hc : c ≤ 15) :
    channelAt (channelWritten c cfg s).returns c = cfg ∧ storedAt (channelWritten c cfg s).returns c = ⟨false, 0, 0⟩ :=
  ⟨bankGet_modify_same _ _ _ _ (by omega), bankGet_modify_same _ _ _ _ (by omega)⟩

theorem channelWritten_other {c d : Nat} (cfg : Channel) (hd : d ≠ c) :
    channelAt (channelWritten c cfg s).returns d = channelAt s.returns d ∧
      storedAt (channelWritten c cfg s).returns d = storedAt s.returns d :=
  ⟨bankGet_modify_other _ _ _ (by omega), bankGet_modify_other _ _ _ (by omega)⟩

theorem loadsBusy_eq_true :
    loadsBusy s = true ↔ ¬(s.returns.suspended = true ∧ s.returns.suspendPending = false) := by
  rw [← loadsBusy_eq_false, Bool.not_eq_false]

/-! ## The threshold entries (R132) -/

/-- SET_THRESHOLD's action (R132). -/
def loadThreshold (entry : Byte) (value : U16) (s : State) : Answer :=
  if 15 < entry.toNat then refuse .badField s
  else if loadsBusy s then refuse .busy s
  else ⟨{ s with returns.thresholds := bankModify s.returns.thresholds (entry.toNat + 1) fun _ => value.toInt }, .ok, []⟩

theorem exec_setThreshold (entry : Byte) (value : U16) (s : State) :
    exec (.setThreshold entry value) s = request (.setThreshold entry value) s (loadThreshold entry value) := rfl

end Loads

end Sys2Proof.Machine

open Sys2Proof Sys2Proof.Machine in
/-- Settles O49: each request is one answer of its owner, read off the state it finds (R125, R126, R131, R132, R135,
R136). -/
theorem inspectionAndChannelsAreSet : Obligations.InspectionAndChannelsAreSet := by
  refine ⟨fun s s0 => ⟨fun h => ?_, fun h => ?_, fun h => h.quiet
    (act := fun s => ⟨{ s with returns.hits := 0, returns.high := 0 }, .ok, []⟩) rfl rfl rfl⟩, fun s s0 => ⟨?_, ?_⟩⟩
  · -- INSPECT_SUSPEND
    have hu : s0.returns = s.returns := h.returns
    have hpend : s0.returns.suspendPending = s.returns.suspendPending := by rw [hu]
    refine ⟨fun hs => ?_, fun hs hi => ?_, fun hs hi => ?_⟩
    · exact h.suspends (if_pos (hu ▸ hs)) rfl (hu ▸ hs) hpend
    · have ht : suspendInspection s0 = { s0 with returns.suspended := true } := by
        simp [suspendInspection, hu, hs, hi]
      exact h.suspends ht rfl rfl hpend
    · have ht : suspendInspection s0 = { s0 with returns.suspendPending := true } := by
        simp [suspendInspection, hu, hs, Option.isSome_iff_ne_none.mpr hi]
      exact h.suspends ht rfl (hu ▸ hs) rfl
  · -- INSPECT_RESUME
    have hu : s0.returns = s.returns := h.returns
    refine ⟨fun hs => ?_, fun hs hp => ⟨fun hidle => ?_, fun x rest hi hq hr => ?_⟩⟩
    · exact h.resumes (resumeInspection_running (hu ▸ hs)) rfl (hu ▸ hs) rfl
    · have ht : startInspection { s0 with returns.suspended := false } = { s0 with returns.suspended := false } := by
        refine startInspection_idle fun ⟨hq, _, _, hi, hr⟩ => ?_
        rcases hidle with hitem | hempty | hrole
        · exact hitem (hu ▸ hi)
        · exact hq (hu ▸ hempty)
        · exact hr (h.management ▸ hrole)
      exact h.resumes ((resumeInspection_suspended (hu ▸ hs)).trans ht) rfl rfl (hu ▸ hp)
    · have ht := startInspection_starts (s := { s0 with returns.suspended := false }) (x := x) (rest := rest)
        (hu ▸ hq) rfl (hu ▸ hp) (hu ▸ hi) (h.management ▸ hr)
      exact h.resumes ((resumeInspection_suspended (hu ▸ hs)).trans ht) rfl rfl (hu ▸ hp)
  · -- SET_CHANNEL
    intro channel mode action store reference cfg i h c window bad clash
    have hu : s0.returns = s.returns := h.returns
    have he := exec_setChannel channel mode action store reference s
    refine ⟨fun hbad => ?_, ?_⟩
    · by_cases hread : ∃ cfg, ReadsChannel mode action store reference cfg
      · obtain ⟨cfg, hcfg⟩ := hread
        obtain ⟨hm, ha, hst, hr⟩ := exists_readsChannel.mp ⟨cfg, hcfg⟩
        refine h.refused he ((loadChannel_reads channel hcfg).trans ?_)
        split_ifs with hc
        · rfl
        · have hwin : 8 ≤ c ∧ window := by
            refine ((((hbad.resolve_left hc).resolve_left ?_).resolve_left ?_).resolve_left ?_).resolve_left ?_ <;> omega
          exact writeChannel_badField (hwin.imp_right (isWindow_iff_byte hcfg.mode).mpr)
      · exact h.refused he (loadChannel_unread channel hread)
    -- what an accepted set of bytes comes to
    have hwrites (hbad : ¬bad) (cfg : Channel) (hcfg : ReadsChannel mode action store reference cfg) :
        ¬(8 ≤ c ∧ cfg.mode.isWindow = true) ∧ loadChannel channel mode action store reference s0 = writeChannel c cfg s0 := by
      rw [isWindow_iff_byte hcfg.mode]
      exact ⟨by tauto, (loadChannel_reads channel hcfg).trans (if_neg (by tauto))⟩
    have hreads (hbad : ¬bad) : ∃ cfg, ReadsChannel mode action store reference cfg :=
      exists_readsChannel.mpr (by omega)
    refine ⟨fun hbad hbusy => ?_, fun hbad hsus hclash => ?_, fun hbad hsus hclash hm ha hst hr => ?_⟩
    · obtain ⟨cfg, hcfg⟩ := hreads hbad
      obtain ⟨hwin, hact⟩ := hwrites hbad cfg hcfg
      exact h.refused he (hact.trans (writeChannel_refusesBusy hwin (loadsBusy_eq_true.mpr (hu ▸ hbusy))))
    · obtain ⟨cfg, hcfg⟩ := hreads hbad
      obtain ⟨hwin, hact⟩ := hwrites hbad cfg hcfg
      exact h.refused he (hact.trans (writeChannel_conflict hwin (loadsBusy_eq_false.mpr (hu ▸ hsus))
        ((channelConflict_iff c hcfg.mode).mpr (hu ▸ hclash))))
    · obtain ⟨hwin, hact⟩ := hwrites hbad cfg ⟨hm, ha, hst, hr⟩
      have hacc := writeChannel_accepted hwin (loadsBusy_eq_false.mpr (hu ▸ hsus))
        (mt (channelConflict_iff c hm).mp (hu ▸ hclash))
      obtain ⟨hcfg, hstored⟩ := channelWritten_same (s := s0) cfg (c := c) (by omega)
      refine ⟨channelWritten c cfg s0, h.quiet he (hact.trans hacc) rfl, rfl, hcfg, hstored, fun d hd => ?_⟩
      exact hu ▸ channelWritten_other cfg hd
  · -- SET_THRESHOLD
    intro entry value i h
    have hu : s0.returns = s.returns := h.returns
    have he := exec_setThreshold entry value s
    refine ⟨fun hbad => h.refused he (if_pos hbad), fun hle => ⟨fun hbusy => ?_, fun hsus => ?_⟩⟩
    · exact h.refused he ((if_neg (by omega)).trans (if_pos (loadsBusy_eq_true.mpr (hu ▸ hbusy))))
    · have hfree : ¬loadsBusy s0 = true := by rw [loadsBusy_eq_false.mpr (hu ▸ hsus)]; decide
      refine ⟨_, h.quiet he ((if_neg (by omega)).trans (if_neg hfree)) rfl, rfl, ?_, fun d hd => ?_⟩
      · exact bankGet_modify_same _ _ _ _ (by omega)
      · exact (bankGet_modify_other _ _ _ (by omega)).trans (hu ▸ rfl)
end

