-- ==== Sys2Proof/Proofs/Comparisons.lean ====
section
/-! PROOFS. The comparisons, the verdict they form, the hit sets and the stored readings (R130, R133 to R137). -/

namespace Sys2Proof.Machine

/-! ## One comparison (R134) -/

section Modes

variable {r lower upper : Int}

theorem compareMode_above : compareMode .above r lower upper = .centre ↔ lower < r := by
  rw [compareMode]
  split_ifs with h <;> simp [h]

theorem compareMode_below : compareMode .below r lower upper = .centre ↔ r < lower := by
  rw [compareMode]
  split_ifs with h <;> simp [h]

theorem compareMode_inside : compareMode .inside r lower upper = .centre ↔ lower < r ∧ r < upper := by
  rw [compareMode]
  split_ifs with h <;> simp [h]

theorem compareMode_outside_high : compareMode .outside r lower upper = .high ↔ upper < r := by
  rw [compareMode]
  split_ifs with hu hl <;> simp [hu]

theorem compareMode_outside_hits : compareMode .outside r lower upper ≠ .none ↔ r < lower ∨ upper < r := by
  rw [compareMode]
  split_ifs with hu hl
  · simp [hu]
  · simp [hl]
  · simp [hu, hl]

theorem compareMode_inside_empty (h : upper ≤ lower) : compareMode .inside r lower upper = .none :=
  if_neg (by omega)

theorem outside_of_high {m : ChannelMode} (h : compareMode m r lower upper = .high) : m = .outside := by
  cases m with
  | outside => rfl
  | off => cases h
  | above | below | inside =>
    rw [compareMode] at h
    split_ifs at h

end Modes

/-! ## A channel's comparison and what it asks for (R133, R134, R137) -/

section Channels

variable {u v : ReturnUnit} {i : ReturnItem} {weight c d : Nat} {r : Int} {h : Hit}

theorem compareChannel_skipped (hs : (channelAt u c).mode = .off ∨ i.readings.lookup c = none) :
    compareChannel u i weight c = none := by
  unfold compareChannel
  split
  · rfl
  · rfl
  next hread hoff =>
    rcases hs with hs | hs
    · exact (hoff hs).elim
    · cases hs.symm.trans hread

theorem compareChannel_read {reading : Int} (hm : (channelAt u c).mode ≠ .off)
    (hr : i.readings.lookup c = some reading) : compareChannel u i weight c =
      some (comparedReading (channelAt u c).reference weight reading, compareMode (channelAt u c).mode
        (comparedReading (channelAt u c).reference weight reading) (thresholdAt u c) (thresholdAt u (c + 8))) := by
  unfold compareChannel
  split
  next hoff => exact (hm hoff).elim
  next hnone _ => cases hr.symm.trans hnone
  next hread _ =>
    cases hr.symm.trans hread
    rfl

theorem comparedReading_eq (reference : ChannelReference) (weight : Nat) (reading : Int) :
    comparedReading reference weight reading =
      if reference = .absolute then reading else max (-32768) (min 32767 (reading - weight)) := by
  cases reference <;> rfl

theorem channelVerdict_pass (hn : ∀ r h, compareChannel u i weight c = some (r, h) → h = .none) :
    channelVerdict u i weight c = .pass := by
  unfold channelVerdict
  split
  · rfl
  · rfl
  next hc => cases hn _ _ hc
  next hc => cases hn _ _ hc

theorem channelVerdict_hit (hc : compareChannel u i weight c = some (r, h)) (hh : h ≠ .none) :
    channelVerdict u i weight c = actionVerdict (channelAt u c).action := by
  rw [channelVerdict, hc]
  cases h with
  | none => exact (hh rfl).elim
  | centre => rfl
  | high => rfl

/-! ## The verdict: the most severe of what the channels ask for (R137) -/

theorem verdictValue_worse (a b : Verdict) : verdictValue (worse a b) = max (verdictValue a) (verdictValue b) := by
  unfold worse
  split_ifs with hab <;> omega

theorem worse_eq_or (a b : Verdict) : worse a b = a ∨ worse a b = b := by
  unfold worse
  split_ifs
  · exact .inl rfl
  · exact .inr rfl

theorem le_foldl_worse (f : Nat → Verdict) (l : List Nat) (v : Verdict) :
    verdictValue v ≤ verdictValue (l.foldl (fun v c => worse v (f c)) v) ∧
      ∀ c ∈ l, verdictValue (f c) ≤ verdictValue (l.foldl (fun v c => worse v (f c)) v) := by
  induction l generalizing v with
  | nil => exact ⟨le_rfl, by simp⟩
  | cons c l ih =>
    obtain ⟨hstart, hrest⟩ := ih (worse v (f c))
    rw [verdictValue_worse] at hstart
    exact ⟨(le_max_left _ _).trans hstart, List.forall_mem_cons.mpr ⟨(le_max_right _ _).trans hstart, hrest⟩⟩

theorem foldl_worse_eq_or (f : Nat → Verdict) (l : List Nat) (v : Verdict) :
    l.foldl (fun v c => worse v (f c)) v = v ∨ ∃ c ∈ l, f c = l.foldl (fun v c => worse v (f c)) v := by
  induction l generalizing v with
  | nil => exact .inl rfl
  | cons c l ih =>
    rw [List.foldl_cons]
    rcases ih (worse v (f c)) with hkeep | ⟨d, hd, hfd⟩
    · rw [hkeep]
      exact (worse_eq_or v (f c)).imp id fun hc => ⟨c, List.mem_cons_self, hc.symm⟩
    · exact .inr ⟨d, List.mem_cons_of_mem _ hd, hfd⟩

theorem channelVerdict_le_verdictOf (hc : c < 16) :
    verdictValue (channelVerdict u i weight c) ≤ verdictValue (verdictOf u i weight) :=
  (le_foldl_worse _ _ _).2 c (List.mem_range.mpr hc)

theorem verdictOf_eq_or : verdictOf u i weight = .pass ∨ ∃ c < 16, channelVerdict u i weight c = verdictOf u i weight :=
  (foldl_worse_eq_or _ _ _).imp id fun ⟨c, hc, hv⟩ => ⟨c, List.mem_range.mp hc, hv⟩

/-- R137: the verdict is PASS, or a channel that hits asks for it. -/
theorem verdictOf_asked : verdictOf u i weight = .pass ∨ ∃ c r h, c < 16 ∧ compareChannel u i weight c = some (r, h) ∧
    h ≠ .none ∧ actionVerdict (channelAt u c).action = verdictOf u i weight := by
  rcases verdictOf_eq_or (u := u) (i := i) (weight := weight) with hpass | ⟨c, hc, hv⟩
  · exact .inl hpass
  by_cases hn : ∀ r h, compareChannel u i weight c = some (r, h) → h = .none
  · exact .inl (hv.symm.trans (channelVerdict_pass hn))
  · push Not at hn
    obtain ⟨r, h, hcmp, hhit⟩ := hn
    exact .inr ⟨c, r, h, hc, hcmp, hhit, (channelVerdict_hit hcmp hhit).symm.trans hv⟩

theorem verdictOf_pass (hn : ∀ c < 16, ∀ r h, compareChannel u i weight c = some (r, h) → h = .none) :
    verdictOf u i weight = .pass := by
  rcases verdictOf_asked (u := u) (i := i) (weight := weight) with hpass | ⟨c, r, h, hc, hcmp, hhit, -⟩
  · exact hpass
  · exact (hhit (hn c hc r h hcmp)).elim

/-! ## What one channel records (R135, R136) -/

/-- Step 2 of a completion writes the hit sets and the stored readings only. -/
def RecordsOnly (u v : ReturnUnit) : Prop := v = { u with hits := v.hits, high := v.high, stored := v.stored }

theorem RecordsOnly.trans {w : ReturnUnit} (huv : RecordsOnly u v) (hvw : RecordsOnly v w) : RecordsOnly u w := by
  unfold RecordsOnly at *
  rw [hvw, huv]

theorem RecordsOnly.channelAt (huv : RecordsOnly u v) (c : Nat) : channelAt v c = channelAt u c := by rw [huv]; rfl

/-- A comparison does not look at what is recorded. -/
theorem RecordsOnly.compareChannel (huv : RecordsOnly u v) (i : ReturnItem) (weight c : Nat) :
    compareChannel v i weight c = compareChannel u i weight c := by rw [huv]; rfl

theorem recordHit_only (c : Nat) (h : Hit) (u : ReturnUnit) : RecordsOnly u (recordHit c h u) := by
  cases h <;> exact rfl

/-- The channel sets this bit of the hit set: its own when it hits, that of channel c + 8 when it hits on the high side. -/
def SetsHit (c : Nat) (outcome : Option (Int × Hit)) (d : Nat) : Prop :=
  (d = c ∧ ∃ r h, outcome = some (r, h) ∧ h ≠ .none) ∨ (d = c + 8 ∧ ∃ r, outcome = some (r, .high))

/-- The channel sets this bit of the high set. -/
def SetsHigh (c : Nat) (outcome : Option (Int × Hit)) (d : Nat) : Prop := d = c ∧ ∃ r, outcome = some (r, .high)

/-- The stored reading of a channel after a comparison (R136). -/
def keptReading (store : ChannelStore) (consignment : Nat) (outcome : Option (Int × Hit)) (old : StoredReading) :
    StoredReading :=
  match outcome with
  | none => old
  | some (r, h) => if stores store h then ⟨true, r, consignment⟩ else old

theorem recordChannel_skipped (hc : compareChannel u i weight c = none) : recordChannel i weight u c = u := by
  rw [recordChannel, hc]

/-- The two ways a comparison can be recorded: with its reading kept or without. -/
theorem recordChannel_compared (hc : compareChannel u i weight c = some (r, h)) : recordChannel i weight u c =
    if stores (channelAt u c).store h then storeReading c r i.consignment (recordHit c h u) else recordHit c h u := by
  rw [recordChannel, hc]

theorem recordChannel_only (i : ReturnItem) (weight : Nat) (u : ReturnUnit) (c : Nat) :
    RecordsOnly u (recordChannel i weight u c) := by
  unfold recordChannel
  split
  · exact rfl
  next h _ =>
    have hhit := recordHit_only c h u
    split_ifs
    · exact hhit.trans rfl
    · exact hhit

/-- Keeping the reading does not touch the hit sets. -/
theorem recordChannel_sets (hc : compareChannel u i weight c = some (r, h)) :
    (recordChannel i weight u c).hits = (recordHit c h u).hits ∧
      (recordChannel i weight u c).high = (recordHit c h u).high := by
  rw [recordChannel_compared hc]
  split_ifs <;> exact ⟨rfl, rfl⟩

theorem recordHit_stored (c : Nat) (h : Hit) (u : ReturnUnit) : (recordHit c h u).stored = u.stored := by
  cases h <;> rfl

theorem getLsbD_twoPow_sixteen (hd : d < 16) : (BitVec.twoPow 16 c).getLsbD d = true ↔ d = c := by
  rw [BitVec.getLsbD_twoPow, Bool.and_eq_true, decide_eq_true_iff, decide_eq_true_iff, and_iff_right_of_imp, eq_comm]
  rintro rfl
  exact hd

theorem recordChannel_hits (hd : d < 16) : (recordChannel i weight u c).hits.getLsbD d = true ↔
    u.hits.getLsbD d = true ∨ SetsHit c (compareChannel u i weight c) d := by
  rcases hcmp : compareChannel u i weight c with _ | ⟨r, h⟩
  · rw [recordChannel_skipped hcmp]
    simp [SetsHit]
  · rw [(recordChannel_sets hcmp).1]
    cases h with
    | none => simp [recordHit, SetsHit]
    | centre => simp [recordHit, SetsHit, BitVec.getLsbD_or, -BitVec.getLsbD_twoPow, getLsbD_twoPow_sixteen hd]
    | high => simp [recordHit, SetsHit, BitVec.getLsbD_or, -BitVec.getLsbD_twoPow, getLsbD_twoPow_sixteen hd, or_assoc]

theorem recordChannel_high (hd : d < 16) : (recordChannel i weight u c).high.getLsbD d = true ↔
    u.high.getLsbD d = true ∨ SetsHigh c (compareChannel u i weight c) d := by
  rcases hcmp : compareChannel u i weight c with _ | ⟨r, h⟩
  · rw [recordChannel_skipped hcmp]
    simp [SetsHigh]
  · rw [(recordChannel_sets hcmp).2]
    cases h with
    | none => simp [recordHit, SetsHigh]
    | centre => simp [recordHit, SetsHigh]
    | high => simp [recordHit, SetsHigh, BitVec.getLsbD_or, -BitVec.getLsbD_twoPow, getLsbD_twoPow_sixteen hd]

theorem recordChannel_stored_other (hd : d ≠ c) : storedAt (recordChannel i weight u c) d = storedAt u d := by
  rcases hcmp : compareChannel u i weight c with _ | ⟨r, h⟩
  · rw [recordChannel_skipped hcmp]
  · have hhit : storedAt (recordHit c h u) d = storedAt u d := by rw [storedAt, recordHit_stored]; rfl
    rw [recordChannel_compared hcmp]
    split_ifs
    · exact (bankGet_modify_other _ _ _ (by omega)).trans hhit
    · exact hhit

theorem recordChannel_stored_same (hc : c < 16) : storedAt (recordChannel i weight u c) c =
    keptReading (channelAt u c).store i.consignment (compareChannel u i weight c) (storedAt u c) := by
  rcases hcmp : compareChannel u i weight c with _ | ⟨r, h⟩
  · rw [recordChannel_skipped hcmp]
    rfl
  · rw [recordChannel_compared hcmp, keptReading]
    split_ifs
    · exact bankGet_modify_same _ _ _ _ (by omega)
    · rw [storedAt, recordHit_stored]
      rfl

theorem stores_iff {store : ChannelStore} : stores store h = true ↔ store = .always ∨ (store = .onHit ∧ h ≠ .none) := by
  cases store <;> simp [stores]

/-! ## What a run of channels records -/

theorem recordRun_only (i : ReturnItem) (weight : Nat) (l : List Nat) (u : ReturnUnit) :
    RecordsOnly u (l.foldl (recordChannel i weight) u) := by
  induction l generalizing u with
  | nil => exact rfl
  | cons c l ih => exact (recordChannel_only i weight u c).trans (ih _)

theorem recordRun_hits (hd : d < 16) (l : List Nat) (u : ReturnUnit) :
    (l.foldl (recordChannel i weight) u).hits.getLsbD d = true ↔
      u.hits.getLsbD d = true ∨ ∃ c ∈ l, SetsHit c (compareChannel u i weight c) d := by
  induction l generalizing u with
  | nil => simp
  | cons c l ih =>
    rw [List.foldl_cons, ih, recordChannel_hits hd]
    simp only [(recordChannel_only i weight u c).compareChannel, List.exists_mem_cons_iff, or_assoc]

theorem recordRun_high (hd : d < 16) (l : List Nat) (u : ReturnUnit) :
    (l.foldl (recordChannel i weight) u).high.getLsbD d = true ↔
      u.high.getLsbD d = true ∨ ∃ c ∈ l, SetsHigh c (compareChannel u i weight c) d := by
  induction l generalizing u with
  | nil => simp
  | cons c l ih =>
    rw [List.foldl_cons, ih, recordChannel_high hd]
    simp only [(recordChannel_only i weight u c).compareChannel, List.exists_mem_cons_iff, or_assoc]

theorem recordRun_stored_of_notMem {l : List Nat} (hd : d ∉ l) (u : ReturnUnit) :
    storedAt (l.foldl (recordChannel i weight) u) d = storedAt u d := by
  induction l generalizing u with
  | nil => rfl
  | cons c l ih =>
    obtain ⟨hne, hl⟩ := List.ne_and_not_mem_of_not_mem_cons hd
    exact (ih hl _).trans (recordChannel_stored_other hne)

theorem recordRun_stored {l : List Nat} (hd : d < 16) (hmem : d ∈ l) (hl : l.Nodup) (u : ReturnUnit) :
    storedAt (l.foldl (recordChannel i weight) u) d =
      keptReading (channelAt u d).store i.consignment (compareChannel u i weight d) (storedAt u d) := by
  induction l generalizing u with
  | nil => cases hmem
  | cons c l ih =>
    obtain ⟨hc, hl⟩ := List.nodup_cons.mp hl
    rw [List.foldl_cons]
    rcases List.mem_cons.mp hmem with rfl | hmem
    · exact (recordRun_stored_of_notMem hc _).trans (recordChannel_stored_same hd)
    · have hne : d ≠ c := fun h => hc (h ▸ hmem)
      have honly := recordChannel_only i weight u c
      rw [ih hmem hl, honly.channelAt, honly.compareChannel, recordChannel_stored_other hne]

/-! ## Step 2 of a completion -/

theorem exists_setsHit (hd : d < 16) :
    (∃ c ∈ List.range 16, SetsHit c (compareChannel u i weight c) d) ↔
      (∃ r h, compareChannel u i weight d = some (r, h) ∧ h ≠ .none) ∨
        (8 ≤ d ∧ ∃ r, compareChannel u i weight (d - 8) = some (r, .high)) := by
  constructor
  · rintro ⟨c, -, ⟨rfl, hits⟩ | ⟨rfl, high⟩⟩
    · exact .inl hits
    · exact .inr ⟨by omega, by rwa [Nat.add_sub_cancel]⟩
  · rintro (hits | ⟨h8, high⟩)
    · exact ⟨d, List.mem_range.mpr hd, .inl ⟨rfl, hits⟩⟩
    · exact ⟨d - 8, List.mem_range.mpr (by omega), .inr ⟨by omega, high⟩⟩

theorem exists_setsHigh (hd : d < 16) :
    (∃ c ∈ List.range 16, SetsHigh c (compareChannel u i weight c) d) ↔
      ∃ r, compareChannel u i weight d = some (r, .high) := by
  constructor
  · rintro ⟨c, -, rfl, high⟩
    exact high
  · exact fun high => ⟨d, List.mem_range.mpr hd, rfl, high⟩

theorem recordChannels_only (i : ReturnItem) (weight : Nat) (u : ReturnUnit) :
    RecordsOnly u (recordChannels i weight u) := recordRun_only i weight _ u

theorem recordChannels_hits (hd : d < 16) : (recordChannels i weight u).hits.getLsbD d = true ↔
    u.hits.getLsbD d = true ∨ (∃ r h, compareChannel u i weight d = some (r, h) ∧ h ≠ .none) ∨
      (8 ≤ d ∧ ∃ r, compareChannel u i weight (d - 8) = some (r, .high)) :=
  (recordRun_hits hd _ u).trans (or_congr_right (exists_setsHit hd))

theorem recordChannels_high (hd : d < 16) : (recordChannels i weight u).high.getLsbD d = true ↔
    u.high.getLsbD d = true ∨ ∃ r, compareChannel u i weight d = some (r, .high) :=
  (recordRun_high hd _ u).trans (or_congr_right (exists_setsHigh hd))

theorem recordChannels_stored (hd : d < 16) : storedAt (recordChannels i weight u) d =
    keptReading (channelAt u d).store i.consignment (compareChannel u i weight d) (storedAt u d) :=
  recordRun_stored hd (List.mem_range.mpr hd) List.nodup_range u

end Channels

end Sys2Proof.Machine

open Sys2Proof Sys2Proof.Machine in
/-- Settles O51: the comparisons mode by mode, the verdict as the most severe of what the channels ask for, and what a run of
the sixteen channels records (R130, R133 to R137). -/
theorem comparisonsFormTheVerdict : Obligations.ComparisonsFormTheVerdict := by
  refine ⟨fun r lower upper => ?_, fun u i weight c => ?_, fun u i weight => ?_, fun u i weight => ?_⟩
  · exact ⟨rfl, compareMode_above, compareMode_below, compareMode_inside, compareMode_outside_high,
      compareMode_outside_hits, compareMode_inside_empty, fun h => compareMode_outside_hits.mpr (by omega),
      fun m => outside_of_high⟩
  · refine ⟨compareChannel_skipped, fun reading hm hr => ?_, channelVerdict_pass, fun r h hc hh => ?_⟩
    · rw [compareChannel_read hm hr, comparedReading_eq]
    · rw [channelVerdict_hit hc hh]
      rfl
  · exact ⟨fun c hc => channelVerdict_le_verdictOf hc, verdictOf_asked, verdictOf_pass⟩
  · refine ⟨recordChannels_only i weight u, fun c hc => ⟨recordChannels_hits hc, recordChannels_high hc, fun hn => ?_,
      fun r h hcmp => ?_⟩⟩
    · rw [recordChannels_stored hc, hn]
      rfl
    · rw [recordChannels_stored hc, hcmp]
      simp only [keptReading, stores_iff]
end

