-- ==== Sys2Proof/Proofs/ReturnItems.lean ====
section
/-! PROOFS. RETURN_ITEM joins the return queue, is answered, or is discarded (R122, R123, R126, R197). -/

namespace Sys2Proof.Machine

/-! ## Room for a return answer (R197, log 10) -/

section Room

variable {s u v : State}

/-- Two states in which a return answer finds the same places and the same frames ahead of it. -/
structure SameRoom (s u : State) : Prop where
  floorTx : u.line.floorTx = s.line.floorTx
  contended : u.line.contended = s.line.contended
  answering : u.line.answering = s.line.answering
  officeRx : u.line.officeRx = s.line.officeRx
  owed : ∀ o, (bayAt u o).owed = (bayAt s o).owed

theorem SameRoom.trans (h : SameRoom s u) (g : SameRoom u v) : SameRoom s v where
  floorTx := g.floorTx.trans h.floorTx
  contended := g.contended.trans h.contended
  answering := g.answering.trans h.answering
  officeRx := g.officeRx.trans h.officeRx
  owed o := (g.owed o).trans (h.owed o)

theorem SameRoom.forAnswer (h : SameRoom s u) :
    floorRoom (aheadOfAnswers u) u = floorRoom (waitingForwards s + waitingCommands s) s := by
  have hahead : aheadOfAnswers u = waitingForwards s + waitingCommands s := by
    simp only [aheadOfAnswers, aheadOfCommands, waitingForwards, waitingCommands, h.answering, h.officeRx, h.owed]
  rw [hahead, floorRoom, h.floorTx, h.contended, floorRoom]

theorem reloadTimer_sameRoom (station : Nat) (s : State) : SameRoom s (reloadTimer station s) := by
  unfold reloadTimer
  split
  · exact ⟨rfl, rfl, rfl, rfl, fun _ => rfl⟩
  · split_ifs
    · exact ⟨rfl, rfl, rfl, rfl, fun o => bayAt_modBay_owed (f := timerLoaded s) (fun _ => rfl) _ o s⟩
    · exact ⟨rfl, rfl, rfl, rfl, fun _ => rfl⟩

/-- Taking a frame in its turn takes no place and adds no frame that waits. -/
theorem InTurn.sameRoom {station : Nat} (h : InTurn station s u) : SameRoom s u := by
  obtain ⟨-, -, -, -, rfl⟩ := h
  have hended : SameRoom s (setMissed station 0 (endTurn (endReception s))) := ⟨rfl, rfl, rfl, rfl, fun _ => rfl⟩
  exact hended.trans (reloadTimer_sameRoom station _)

theorem queue_sameRoom (q : List ReturnItem) (s : State) : SameRoom s { s with returns.queue := q } :=
  ⟨rfl, rfl, rfl, rfl, fun _ => rfl⟩

end Room

/-! ## The answer and the queue (R123) -/

section Taking

variable {s : State} {f : Frame} {x : ReturnItem}

theorem makeAnswer_room (h : floorRoom (aheadOfAnswers s) s = true) : makeAnswer f s = toFloor f s := if_pos h

theorem makeAnswer_owed (h : ¬floorRoom (aheadOfAnswers s) s = true) :
    makeAnswer f s = { s with returns.owedAnswer := some f } := if_neg h

/-- An answer does not touch the queue, the item in inspection, the suspension or the scanner role. -/
theorem makeAnswer_keeps (f : Frame) (s : State) :
    (makeAnswer f s).returns.queue = s.returns.queue ∧ (makeAnswer f s).returns.item = s.returns.item ∧
      (makeAnswer f s).returns.suspended = s.returns.suspended ∧
      (makeAnswer f s).returns.suspendPending = s.returns.suspendPending ∧
      (makeAnswer f s).management = s.management := by
  unfold makeAnswer
  split_ifs <;> exact ⟨rfl, rfl, rfl, rfl, rfl⟩

theorem makeAnswer_passDue (f : Frame) (s : State) : (makeAnswer f s).passDue = s.passDue := by
  unfold makeAnswer
  split_ifs <;> rfl

/-- Inspection is running, with no item and no pending suspension (R126). -/
def InspectionFree (s : State) : Prop :=
  s.returns.suspended = false ∧ s.returns.suspendPending = false ∧ s.returns.item = none

theorem startInspection_afterAnswer_idle (h : ¬InspectionFree s) :
    startInspection (makeAnswer f s) = makeAnswer f s := by
  obtain ⟨-, hitem, hsus, hpend, -⟩ := makeAnswer_keeps f s
  refine startInspection_idle fun ⟨_, hs, hp, hi, _⟩ => h ⟨?_, ?_, ?_⟩
  · exact hsus.symm.trans hs
  · exact hpend.symm.trans hp
  · exact hitem.symm.trans hi

theorem startInspection_afterAnswer_starts {rest : List ReturnItem} (h : InspectionFree s)
    (hq : s.returns.queue = x :: rest) (hr : s.management.settings.scannerRole ≠ 0) :
    startInspection (makeAnswer f s) = { makeAnswer f s with returns.queue := rest, returns.item := some x } := by
  obtain ⟨hs, hp, hi⟩ := h
  obtain ⟨hqueue, hitem, hsus, hpend, hman⟩ := makeAnswer_keeps f s
  exact startInspection_starts (hqueue.trans hq) (hsus.trans hs) (hpend.trans hp) (hitem.trans hi) (hman.symm ▸ hr)

theorem takeReturnItem_discarded (h : s.returns.owedAnswer ≠ none) : takeReturnItem x s = s :=
  if_pos (Option.isSome_iff_ne_none.mpr h)

theorem takeReturnItem_acknowledged (h : s.returns.owedAnswer = none) (hq : s.returns.queue.length < 64) :
    takeReturnItem x s = startInspection (makeAnswer
      (returnAckFrame s.management.settings.scannerRole x.consignment x.part)
      { s with returns.queue := s.returns.queue ++ [x] }) := by
  rw [takeReturnItem, h]
  exact if_pos hq

theorem takeReturnItem_toWait (h : s.returns.owedAnswer = none) (hq : 64 ≤ s.returns.queue.length) :
    takeReturnItem x s = startInspection (makeAnswer
      (returnWaitFrame s.management.settings.scannerRole x.consignment x.part) s) := by
  rw [takeReturnItem, h]
  exact if_neg (Nat.not_lt.mpr hq)

theorem takeReturnItem_passDue (x : ReturnItem) (s : State) : (takeReturnItem x s).passDue = s.passDue := by
  have hanswered (f : Frame) (w : State) : (startInspection (makeAnswer f w)).passDue = w.passDue :=
    (startInspection_passDue _).trans (makeAnswer_passDue f w)
  unfold takeReturnItem
  split_ifs
  · rfl
  · exact hanswered _ _
  · exact hanswered _ _

end Taking

/-! ## At the Return Inspection Unit (R199) -/

section Arrival

variable {s s1 : State} {src part : Byte} {consignment postDay presence : U16} {serial : U32} {readings : List U16}

theorem exec_returnItem (h : AtUnit .scanner src.toNat s s1)
    (hl : readings.length = (presentChannels presence).length) :
    exec (.returnItem src consignment postDay part serial presence readings) s =
      .next (takeReturnItem (itemOf consignment postDay part serial presence readings) s1) := by
  have he := unitFrame_atUnit (i := .returnItem src consignment postDay part serial presence readings) (fun s =>
    if readings.length = (presentChannels presence).length then
      takeReturnItem (itemOf consignment postDay part serial presence readings) s else s) rfl h
  have hq : NoPassOwed (takeReturnItem (itemOf consignment postDay part serial presence readings) s1) :=
    (takeReturnItem_passDue _ _).trans h.1.passDue
  rw [if_pos hl, settle_of_noPass hq] at he
  exact he

/-- The answers carry the consignment number and the part number as the item did (R123, R202). -/
theorem answerPayload (consignment : U16) (part : Byte) :
    bytesLE 2 consignment.toNat ++ [byteOf part.toNat] = bytesLE 2 consignment.toNat ++ [part] := by
  rw [byteOf, BitVec.ofNat_toNat, BitVec.setWidth_eq]

end Arrival

end Sys2Proof.Machine

open Sys2Proof Sys2Proof.Machine in
/-- Settles O50: the item discarded behind an owed answer, acknowledged while the queue has room, told to wait when it is
full; each answer handed on or owed (R122, R123, R126, R197). -/
theorem returnItemsAreQueued : Obligations.ReturnItemsAreQueued := by
  intro src consignment postDay part serial presence readings s s1 h hl i x frame starts room
  have hu : s1.returns = s.returns := h.1.returns
  have hman : s1.management = s.management := h.1.management
  have hexec : exec i s = .next (takeReturnItem x s1) := exec_returnItem h hl
  have hroom (u : State) (hsame : SameRoom s1 u) : floorRoom (aheadOfAnswers u) u = true ↔ room :=
    iff_of_eq (congrArg (· = true) (h.1.sameRoom.trans hsame).forAnswer)
  have hfree : InspectionFree s1 ↔ starts := by rw [InspectionFree, hu]
  -- the state the item is answered in when the queue takes it
  let queued : State := { s1 with returns.queue := s1.returns.queue ++ [x] }
  have hqueued := hroom queued (queue_sameRoom _ s1)
  have hhere := hroom s1 ⟨rfl, rfl, rfl, rfl, fun _ => rfl⟩
  have hack : returnAckFrame s1.management.settings.scannerRole x.consignment x.part = frame 160 := by
    rw [hman]
    exact congrArg (Frame.mk _ 0 160) (answerPayload consignment part)
  have hwait : returnWaitFrame s1.management.settings.scannerRole x.consignment x.part = frame 161 := by
    rw [hman]
    exact congrArg (Frame.mk _ 0 161) (answerPayload consignment part)
  rw [hexec]
  refine ⟨fun howed => ?_, fun hnone => ⟨fun hlen hidle => ?_, fun hempty hstart hrole => ?_, fun hfull hidle => ?_⟩⟩
  · rw [takeReturnItem_discarded (hu ▸ howed)]
  · have htake : takeReturnItem x s1 = makeAnswer (frame 160) queued := by
      rw [takeReturnItem_acknowledged (hu ▸ hnone) (hu ▸ hlen), hack]
      exact startInspection_afterAnswer_idle (s := queued) (mt hfree.mp hidle)
    rw [htake, ← hu]
    exact ⟨fun hr => congrArg _ (makeAnswer_room (hqueued.mpr hr)),
      fun hr => congrArg _ (makeAnswer_owed (mt hqueued.mp hr))⟩
  · have hnil : s1.returns.queue = [] := hu ▸ hempty
    have hone : queued.returns.queue = x :: s1.returns.queue := by simp [queued, hnil]
    have htake : takeReturnItem x s1 =
        { makeAnswer (frame 160) queued with returns.queue := s1.returns.queue, returns.item := some x } := by
      rw [takeReturnItem_acknowledged (hu ▸ hnone) (by simp [hnil]), hack]
      exact startInspection_afterAnswer_starts (s := queued) (hfree.mpr hstart) hone (hman ▸ hrole)
    rw [htake]
    refine ⟨fun hr => ?_, fun hr => ?_⟩
    · rw [makeAnswer_room (hqueued.mpr hr)]
      rfl
    · rw [makeAnswer_owed (mt hqueued.mp hr)]
  · have htake : takeReturnItem x s1 = makeAnswer (frame 161) s1 := by
      rw [takeReturnItem_toWait (hu ▸ hnone) (hu ▸ hfull), hwait]
      exact startInspection_afterAnswer_idle (mt hfree.mp hidle)
    rw [htake]
    exact ⟨fun hr => congrArg _ (makeAnswer_room (hhere.mpr hr)),
      fun hr => congrArg _ (makeAnswer_owed (mt hhere.mp hr))⟩
end

