-- ==== Sys2Proof/Proofs/Balance.lean ====
section
/-! PROOFS. R148's law: every movement of cartridges keeps each class account adding up to its stock. -/

namespace Sys2Proof.Machine

section Balance

variable {s t u : State}

/-- R148's law carries over from `s` to `t`. -/
def BalanceKept (s t : State) : Prop := AccountsBalanced s → AccountsBalanced t

theorem BalanceKept.trans (h : BalanceKept s t) (g : BalanceKept t u) : BalanceKept s u := g ∘ h

theorem BalanceKept.of_accounts (h : t.accounts = s.accounts) : BalanceKept s t := fun hs c hc => by
  rw [accountAt, h]
  exact hs c hc

theorem BalanceKept.foldl {β : Type} {f : State → β → State} (hf : ∀ s b, BalanceKept s (f s b)) (l : List β) (s : State) :
    BalanceKept s (l.foldl f s) := by
  induction l generalizing s with
  | nil => exact id
  | cons b l ih => exact (hf s b).trans (ih _)

theorem OrderChange.balance (h : OrderChange s t) : BalanceKept s t := h.accounts

theorem WorkChange.balance (h : WorkChange s t) : BalanceKept s t := h.accounts

theorem Steady.balance (h : Steady s t) : BalanceKept s t :=
  h.keeps (P := AccountsBalanced) (fun hw => hw.accounts) fun hs => BalanceKept.of_accounts hs.accounts

theorem request_balance {i : Instr} {act : State → Answer} (h : request i s act = .next t)
    (ha : ∀ v, BalanceKept v (act v).state) : BalanceKept s t := by
  obtain rfl | ⟨f, s0, -, ht, rfl⟩ := request_cases h
  · exact id
  · exact (((takeOffice_steady ht).balance.trans (ha s0)).trans (settle_work _).balance).trans
      (replyTo_steady _ _ _ _).balance

/-! ## The writes outside work in circulation -/

/-- SET_GEOMETRY returns every shelf cartridge to blank stock (R148, R179). -/
theorem takeGeometry_balance (g : Geometry) (s : State) : BalanceKept s (takeGeometry g s) := by
  intro hs c hc
  have hmap : accountAt (takeGeometry g s) (c + 1) = ClassAccount.shelfToBlank (accountAt s (c + 1)) := by
    simp [accountAt, takeGeometry, bankGet, hc]
  rw [hmap]
  exact ClassAccount.shelfToBlank_balanced (hs c hc)

theorem changeMembers_accounts (a b : Nat) (s : State) : (changeMembers a b s).accounts = s.accounts := by
  unfold changeMembers
  split_ifs <;> rfl

theorem deletePatron_balance (k : Nat) (s : State) : BalanceKept s (deletePatron k s).state := by
  unfold deletePatron
  split
  · exact id
  · split_ifs
    · exact id
    · exact .of_accounts (changeMembers_accounts _ _ s)

theorem writePatron_balance (k : Nat) (p : Patron) (s : State) : BalanceKept s (writePatron k p s).state := by
  have hput (a b : Nat) (ps : Table Patron) : BalanceKept s { changeMembers a b s with records.patrons := ps } :=
    .of_accounts (changeMembers_accounts a b s)
  unfold writePatron
  split_ifs
  · exact id
  split
  · exact hput _ _ _
  · split_ifs
    · exact id
    · exact (hput _ _ _).trans (headroom_change k _).balance
    · exact hput _ _ _

theorem writeAgency_balance (k code : Nat) (s : State) : BalanceKept s (writeAgency k code s) := by
  unfold writeAgency
  split <;> exact .of_accounts rfl

theorem deleteAgency_balance (k : Nat) (s : State) : BalanceKept s (deleteAgency k s).state := by
  unfold deleteAgency
  split
  · exact id
  · split_ifs
    · exact id
    · exact .of_accounts rfl

theorem shelfToBlank_balance (x : Title) (s : State) : BalanceKept s (shelfToBlank x s) := by
  unfold shelfToBlank
  split_ifs
  · exact fun hs => modAccount_balanced _ hs fun _ ha _ => ClassAccount.move_balanced ha (by simp)
  · exact id

theorem deleteTitle_balance (k : Nat) (s : State) : BalanceKept s (deleteTitle k s).state := by
  unfold deleteTitle
  split
  · exact id
  · split_ifs
    · exact id
    · exact (shelfToBlank_balance _ s).trans (.of_accounts rfl)

theorem writeTitle_balance (k : Nat) (x : Title) (s : State) : BalanceKept s (writeTitle k x s).state := by
  have hput (y : Title) : BalanceKept s { s with records.titles := Table.put s.records.titles k y } := .of_accounts rfl
  unfold writeTitle
  split
  · exact hput x
  · split_ifs
    · exact id
    · exact (hput _).trans (copiesFreed_change _ k _).balance

/-- The checks of R156 leave the cartridges of titles on the repair bench. -/
theorem benchChecks_unbound {cls n title : Nat} (h : benchChecks s cls n title = .ok .unbound) :
    n ≤ (accountAt s cls).repair - (accountAt s cls).bound := by
  unfold benchChecks at h
  split_ifs at h with _ _ hunbound
  · exact Nat.le_of_not_lt fun hlt => hunbound (.inr (.inr hlt))
  · split at h
    · cases h
    · split_ifs at h
      cases h

theorem repairItems_balance (cls n title : Nat) (s : State) : BalanceKept s (repairItems cls n title s).state := by
  unfold repairItems
  split
  · exact id
  next hchecks =>
    refine BalanceKept.trans (fun hs => modAccount_balanced cls hs fun a ha he => ?_) (.of_accounts rfl)
    exact ClassAccount.move_balanced ha fun _ => he ▸ benchChecks_unbound hchecks
  · exact ((mendCopies_change title n _ s).trans (copiesFreed_change n title _)).balance

theorem retireItems_balance (cls n title : Nat) (s : State) : BalanceKept s (retireItems cls n title s).state := by
  unfold retireItems
  split
  · exact id
  next hchecks =>
    exact fun hs => modAccount_balanced cls hs fun a ha he =>
      ClassAccount.writeOff_balanced ha fun _ => he ▸ benchChecks_unbound hchecks
  · exact (retireCopies_change title n _ s).balance

/-! ## Settings and the manifest -/

theorem writeHoldLimit_balance (v : Nat) (s : State) : BalanceKept s (writeHoldLimit v s) := by
  have hwrite : BalanceKept s (modSettings (fun x => { x with holdLimit := v }) s) := .of_accounts rfl
  unfold writeHoldLimit
  split_ifs
  · exact id
  · exact hwrite.trans (.foldl (fun s k => (evaluateHeld_work k s).balance) _ _)

theorem changeRole_balance (old new : Nat) (f : Settings → Settings) {act : State → State}
    (ha : ∀ v, WorkChange v (act v)) (s : State) : BalanceKept s (changeRole old new (modSettings f) act s) := by
  have hwrite : BalanceKept s (modSettings f s) := .of_accounts rfl
  unfold changeRole
  split_ifs
  · exact id
  split
  · exact hwrite
  · exact hwrite.trans (((leavePoll_work old _).trans (joinPoll_work new _)).trans (ha _)).balance

theorem writeSetting_balance (w : SettingWrite) (v : Nat) (s : State) : BalanceKept s (writeSetting w v s).state := by
  cases w with
  | plain f => exact .of_accounts rfl
  | holdLimit n => exact writeHoldLimit_balance n s
  | pickRole n =>
    unfold writeSetting
    simp only
    split_ifs
    · exact id
    · exact changeRole_balance _ _ _ (fun v => (rebuildPicks_change v).work.trans (handPicks_work _ _)) s
  | sorterRole n =>
    unfold writeSetting
    simp only
    split_ifs
    · exact id
    · exact changeRole_balance _ _ _ (fun v => (cancelReleases_work v).trans (passReleases_work _)) s
  | scannerRole n =>
    unfold writeSetting
    simp only
    split_ifs
    · exact id
    · exact changeRole_balance _ _ _ (fun v => (abandonReturns_work v).trans (startInspection_work _)) s

theorem windows_balance (w : Vector Window 16) (s : State) : BalanceKept s { s with dispatch.windows := w } := id

theorem releaseHalf_balance (h : Bool) (s : State) : BalanceKept s (releaseHalf h s).state := by
  have hset : BalanceKept s (setHalf h [] s) := .of_accounts (by rw [setHalf_frame])
  have hswitch : BalanceKept (setHalf h [] s) { setHalf h [] s with dispatch.filling := h } := .of_accounts rfl
  unfold releaseHalf
  split_ifs
  · exact id
  · exact id
  · exact hset.trans (passReleases_work _).balance
  · exact ((hset.trans hswitch).trans (OrderChange.latch _ _ _).balance).trans (passReleases_work _).balance

/-- A request that writes the circulation outright keeps the accounts balanced. -/
theorem writesCirculation_balance {i : Instr} (hi : WritesCirculation i) (h : exec i s = .next t) : BalanceKept s t := by
  unfold exec at h
  cases hi with
  | setGeometry =>
    refine request_balance h fun v => ?_
    unfold inSetup
    split
    · simp only
      split_ifs
      · exact takeGeometry_balance _ v
      · exact id
    · exact id
  | setSetting =>
    refine request_balance h fun v => ?_
    split
    · exact id
    · exact writeSetting_balance _ _ v
  | loadPatron =>
    refine request_balance h fun v => ?_
    split_ifs
    · exact id
    · exact id
    split
    · exact deletePatron_balance _ v
    · exact writePatron_balance _ _ v
    · exact id
  | loadAgency =>
    refine request_balance h fun v => ?_
    split_ifs
    · exact id
    split
    · exact id
    · exact writeAgency_balance _ _ v
    · exact deleteAgency_balance _ v
  | loadTitle =>
    refine request_balance h fun v => ?_
    split_ifs
    · exact id
    split
    · exact deleteTitle_balance _ v
    · exact writeTitle_balance _ _ v
    · exact id
  | setWindow =>
    refine request_balance h fun v => ?_
    split
    · exact id
    · exact (windows_balance _ v).trans (passReleases_work _).balance
  | releaseManifest =>
    refine request_balance h fun v => ?_
    split
    · exact id
    · exact releaseHalf_balance _ v
  | repaired => exact request_balance h (repairItems_balance _ _ _)
  | retireRepair => exact request_balance h (retireItems_balance _ _ _)

theorem exec_balance (i : Instr) (h : exec i s = .next t) : BalanceKept s t := by
  obtain hi | rfl | hs := exec_change i h
  · exact writesCirculation_balance hi h
  · exact fun _ => reset_accountsBalanced
  · exact hs.balance

theorem step_balance (h : step s = .next t) : BalanceKept s t := by
  unfold step at h
  split at h
  · cases h
    exact (tick_steady s).balance
  next c rest _ => exact (withPending_steady rest s).balance.trans (exec_balance c h)

end Balance

end Sys2Proof.Machine

open Sys2Proof Sys2Proof.Machine in
/-- Settles O5: a command works in circulation, or beside it, or writes outright, and each moves cartridges between the
counts of a class. -/
theorem everyStepKeepsAccountsBalanced : Obligations.EveryStepKeepsAccountsBalanced :=
  fun _ _ hs h => step_balance h hs
end

