-- ==== Sys2Proof/Proofs/StockRequests.lean ====
section
/-! PROOFS. The supervisor's adjustments of the stock: STOCK_ADD, STOCK_ADD_TITLE, REPAIRED and RETIRE_REPAIR (R153 to R157). -/

namespace Sys2Proof.Machine

/-! ## The counts of a class after an adjustment -/

section Counts

variable {a : ClassAccount} {n : Nat}

theorem ClassAccount.mended_eq (h : n ≤ a.repair) :
    ClassAccount.move .repair .blank n a = { a with repair := a.repair - n, blank := a.blank + n } := if_pos h

theorem ClassAccount.writtenOff_eq (h : n ≤ a.repair) :
    ClassAccount.writeOff .repair n a = { a with repair := a.repair - n, stock := a.stock - n } := if_pos h

theorem ClassAccount.boundToShelf_eq (h : n ≤ a.bound) (hb : a.bound ≤ a.repair) : ClassAccount.boundToShelf n a =
    { a with repair := a.repair - n, bound := a.bound - n, shelf := a.shelf + n } := by
  have hr : n ≤ a.repair := h.trans hb
  have hmove : ClassAccount.move .repair .shelf n a = { a with repair := a.repair - n, shelf := a.shelf + n } := if_pos hr
  rw [ClassAccount.boundToShelf, if_pos ⟨hr, h⟩, hmove]

theorem ClassAccount.retireBound_eq (h : n ≤ a.bound) (hb : a.bound ≤ a.repair) : ClassAccount.retireBound n a =
    { a with repair := a.repair - n, bound := a.bound - n, stock := a.stock - n } := by
  have hr : n ≤ a.repair := h.trans hb
  rw [ClassAccount.retireBound, if_pos ⟨hr, h⟩, ClassAccount.writtenOff_eq hr]

end Counts

/-! ## A title and its class -/

section TitleAndClass

variable {s : State} {m : Nat} {x : Title} {f : Title → Title} {g : ClassAccount → ClassAccount}

/-- The copies of title `m`, whose record is `x`, change and, for an audio title, the cartridges of its class with them. -/
def titleAndClass (m : Nat) (x : Title) (f : Title → Title) (g : ClassAccount → ClassAccount) (s : State) : State :=
  if x.format = .audio then modAccount x.shelfClass g (modTitle m f s) else modTitle m f s

theorem addCopies_eq (m n : Nat) (x : Title) (s : State) : addCopies m n x s =
    titleAndClass m x (fun y => { y with copies := y.copies + n, shelf := y.shelf + n }) (ClassAccount.add .shelf n) s :=
  rfl

theorem mendCopies_eq (m n : Nat) (x : Title) (s : State) : mendCopies m n x s =
    titleAndClass m x (fun y => { y with repair := y.repair - n, shelf := y.shelf + n }) (ClassAccount.boundToShelf n) s :=
  rfl

theorem retireCopies_eq (m n : Nat) (x : Title) (s : State) : retireCopies m n x s =
    titleAndClass m x (fun y => { y with repair := y.repair - n, copies := y.copies - n }) (ClassAccount.retireBound n) s :=
  rfl

theorem titleAndClass_titles :
    (titleAndClass m x f g s).records.titles = Table.modify s.records.titles m f := by
  unfold titleAndClass
  split_ifs <;> rfl

theorem titleAndClass_frame : titleAndClass m x f g s = { s with
    accounts := (titleAndClass m x f g s).accounts, records.titles := (titleAndClass m x f g s).records.titles } := by
  unfold titleAndClass
  split_ifs <;> rfl

theorem titleAndClass_accountAt (d : Nat) : accountAt (titleAndClass m x f g s) d =
    if x.format = .audio ∧ d = x.shelfClass ∧ 1 ≤ d ∧ d ≤ 4 then g (accountAt s d) else accountAt s d := by
  unfold titleAndClass
  by_cases hf : x.format = .audio
  · rw [if_pos hf, accountAt_modAccount]
    simp only [hf, true_and]
    rfl
  · rw [if_neg hf, if_neg fun h => hf h.1]
    rfl

theorem titleAndClass_braille (h : x.format = .braille) : (titleAndClass m x f g s).accounts = s.accounts := by
  unfold titleAndClass
  rw [if_neg (by simp [h])]
  rfl

end TitleAndClass

/-! ## The checks of R154 to R157 -/

section Checks

variable {s : State} {m n c : Nat} {x : Title}

theorem shelfTitle_outside (h : m = 0 ∨ s.management.geometry.t < m) : shelfTitle s m = .error .titleRange := if_pos h

theorem shelfTitle_inside (h0 : m ≠ 0) (ht : m ≤ s.management.geometry.t) : shelfTitle s m =
    match Table.get s.records.titles m with
    | none => .error .titleAbsent
    | some x => if x.policy = .onDemand then .error .format else .ok x :=
  if_neg (not_or.mpr ⟨h0, Nat.not_lt.mpr ht⟩)

theorem shelfTitle_absent (h0 : m ≠ 0) (ht : m ≤ s.management.geometry.t) (h : Table.get s.records.titles m = none) :
    shelfTitle s m = .error .titleAbsent := by
  rw [shelfTitle_inside h0 ht, h]

theorem shelfTitle_onDemand (h0 : m ≠ 0) (ht : m ≤ s.management.geometry.t) (h : Table.get s.records.titles m = some x)
    (hp : x.policy = .onDemand) : shelfTitle s m = .error .format := by
  rw [shelfTitle_inside h0 ht, h]
  exact if_pos hp

theorem shelfTitle_shelf (h0 : m ≠ 0) (ht : m ≤ s.management.geometry.t) (h : Table.get s.records.titles m = some x)
    (hp : x.policy = .shelf) : shelfTitle s m = .ok x := by
  rw [shelfTitle_inside h0 ht, h]
  exact if_neg (by simp [hp])

theorem benchChecks_unnamed (hn : n ≠ 0) : benchChecks s c n 0 =
    if c = 0 ∨ 4 < c ∨ unboundRepair s c < n then .error .badField else .ok .unbound := by
  rw [benchChecks, if_neg hn, if_pos rfl]

theorem benchChecks_refused {k : Code} (hn : n ≠ 0) (h0 : m ≠ 0) (h : shelfTitle s m = .error k) :
    benchChecks s c n m = .error k := by
  rw [benchChecks, if_neg hn, if_neg h0, h]

theorem benchChecks_title (hn : n ≠ 0) (h0 : m ≠ 0) (h : shelfTitle s m = .ok x) : benchChecks s c n m =
    if x.format = .audio ∧ x.shelfClass ≠ c then .error .format
    else if x.repair < n then .error .badField
    else .ok (.title x) := by
  rw [benchChecks, if_neg hn, if_neg h0, h]

end Checks

/-! ## STOCK_ADD and STOCK_ADD_TITLE at their owner -/

section Owner

variable {s : State} {c m n : Nat} {x : Title}

/-- The class after STOCK_ADD's movement, before the placement pass it owes (R154). -/
def stockAdded (c n : Nat) (s : State) : State := owePass (modAccount c (ClassAccount.add .blank n) s)

theorem addStock_accepted (h : ¬(c = 0 ∨ 4 < c ∨ n = 0 ∨ 65535 < (accountAt s c).stock + n)) : addStock c n s =
    ⟨settle (stockAdded c n s), .ok, bytesLE 2 (accountAt (settle (stockAdded c n s)) c).blank ++
      bytesLE 2 (accountAt (settle (stockAdded c n s)) c).stock⟩ := if_neg h

theorem stockAdded_accountAt (h1 : 1 ≤ c) (h4 : c ≤ 4) (d : Nat) : accountAt (stockAdded c n s) d =
    if d = c then { accountAt s c with blank := (accountAt s c).blank + n, stock := (accountAt s c).stock + n }
    else accountAt s d := by
  refine (accountAt_modAccount c (ClassAccount.add .blank n) s d).trans ?_
  by_cases hd : d = c
  · subst hd
    rw [if_pos ⟨rfl, h1, h4⟩, if_pos rfl]
    rfl
  · rw [if_neg fun h => hd h.1, if_neg hd]

theorem addTitleStock_refused {k : Code} (hn : n ≠ 0) (h : shelfTitle s m = .error k) :
    addTitleStock m n s = refuse k s := by
  rw [addTitleStock, if_neg hn, h]

theorem addTitleStock_shelf (hn : n ≠ 0) (h : shelfTitle s m = .ok x) : addTitleStock m n s =
    if 65535 < x.copies + n ∨ (x.format = .audio ∧ 65535 < (accountAt s x.shelfClass).stock + n) then refuse .badField s
    else ⟨copiesFreed n m (addCopies m n x s), .ok, []⟩ := by
  rw [addTitleStock, if_neg hn, h]

/-! ## REPAIRED and RETIRE_REPAIR at their owner -/

theorem repairItems_refused {k : Code} (h : benchChecks s c n m = .error k) : repairItems c n m s = refuse k s := by
  rw [repairItems, h]

theorem repairItems_unbound (h : benchChecks s c n m = .ok .unbound) :
    repairItems c n m s = ⟨owePass (modAccount c (ClassAccount.move .repair .blank n) s), .ok, []⟩ := by
  rw [repairItems, h]

theorem repairItems_title (h : benchChecks s c n m = .ok (.title x)) :
    repairItems c n m s = ⟨copiesFreed n m (mendCopies m n x s), .ok, []⟩ := by
  rw [repairItems, h]

theorem retireItems_refused {k : Code} (h : benchChecks s c n m = .error k) : retireItems c n m s = refuse k s := by
  rw [retireItems, h]

theorem retireItems_unbound (h : benchChecks s c n m = .ok .unbound) :
    retireItems c n m s = ⟨modAccount c (ClassAccount.writeOff .repair n) s, .ok, []⟩ := by
  rw [retireItems, h]

theorem retireItems_title (h : benchChecks s c n m = .ok (.title x)) :
    retireItems c n m s = ⟨retireCopies m n x s, .ok, []⟩ := by
  rw [retireItems, h]

/-- A class that R156 lets take `n` unbound items from its bench, after the movement `g`. -/
theorem modAccount_unbound {g : ClassAccount → ClassAccount} (h1 : 1 ≤ c) (h4 : c ≤ 4) (s : State) :
    accountAt (modAccount c g s) c = g (accountAt s c) ∧ ∀ d, d ≠ c → accountAt (modAccount c g s) d = accountAt s d :=
  ⟨bankGet_modify_same _ _ _ _ ⟨h1, h4⟩, fun _ hd => bankGet_modify_other _ _ _ hd⟩

end Owner

/-! ## What taking an adjustment leaves for its owner to read -/

section Taken

variable {i : Instr} {s s0 : State}

theorem Takes.accounts (h : Takes i s s0) : s0.accounts = s.accounts := by rw [h.line_only]

theorem Takes.accountAt (h : Takes i s s0) (c : Nat) : accountAt s0 c = Machine.accountAt s c := by
  rw [Machine.accountAt, h.accounts, Machine.accountAt]

/-- A request whose checks are those of R156: each code it is refused with. -/
theorem bench_refusals {c n m : Nat} {act : State → Answer} (h : Takes i s s0) (he : exec i s = request i s act)
    (hrefuse : ∀ k, benchChecks s0 c n m = .error k → act s0 = refuse k s0) :
    let refused (k : Code) : Prop := exec i s = .next (replied i k [] s0)
    (n = 0 → refused .badField) ∧
    (n ≠ 0 → m = 0 → (c = 0 ∨ 4 < c ∨ (Machine.accountAt s c).repair - (Machine.accountAt s c).bound < n) → refused .badField) ∧
    (n ≠ 0 → m ≠ 0 → s.management.geometry.t < m → refused .titleRange) ∧
    (n ≠ 0 → m ≠ 0 → m ≤ s.management.geometry.t →
      (Table.get s.records.titles m = none → refused .titleAbsent) ∧
      (∀ x, Table.get s.records.titles m = some x →
        (x.policy = .onDemand → refused .format) ∧
        (x.policy = .shelf → x.format = .audio → x.shelfClass ≠ c → refused .format) ∧
        (x.policy = .shelf → (x.format = .audio → x.shelfClass = c) → x.repair < n → refused .badField))) := by
  have hrefused : ∀ k, benchChecks s0 c n m = .error k → exec i s = .next (replied i k [] s0) :=
    fun k hk => h.refused he (hrefuse k hk)
  have hbench : unboundRepair s0 c = (Machine.accountAt s c).repair - (Machine.accountAt s c).bound := by
    rw [unboundRepair, h.accountAt]
  rw [← h.management, ← h.records]
  refine ⟨fun hn => hrefused _ (if_pos hn), fun hn h0 hbad => hrefused _ ?_, fun hn h0 hout => hrefused _ ?_,
    fun hn h0 ht => ⟨fun hx => hrefused _ ?_, fun x hx => ⟨fun hp => hrefused _ ?_, fun hp ha hc => hrefused _ ?_,
      fun hp hc hr => hrefused _ ?_⟩⟩⟩
  · subst h0
    rw [benchChecks_unnamed hn, hbench, if_pos hbad]
  · exact benchChecks_refused hn h0 (shelfTitle_outside (.inr hout))
  · exact benchChecks_refused hn h0 (shelfTitle_absent h0 ht hx)
  · exact benchChecks_refused hn h0 (shelfTitle_onDemand h0 ht hx hp)
  · rw [benchChecks_title hn h0 (shelfTitle_shelf h0 ht hx hp), if_pos ⟨ha, hc⟩]
  · rw [benchChecks_title hn h0 (shelfTitle_shelf h0 ht hx hp), if_neg fun hbad => hbad.2 (hc hbad.1), if_pos hr]

/-- The checks of R156 pass for unbound items. -/
theorem bench_unbound {c n m : Nat} (h : Takes i s s0) (hn : n ≠ 0) (h0 : m = 0) (h1 : 1 ≤ c) (h4 : c ≤ 4)
    (hr : n ≤ (Machine.accountAt s c).repair - (Machine.accountAt s c).bound) : benchChecks s0 c n m = .ok .unbound := by
  subst h0
  rw [benchChecks_unnamed hn, unboundRepair, h.accountAt, if_neg (by omega)]

/-- The checks of R156 pass for a SHELF title with enough items on the bench. -/
theorem bench_title {c n m : Nat} {x : Title} (h : Takes i s s0) (hn : n ≠ 0) (h0 : m ≠ 0)
    (ht : m ≤ s.management.geometry.t) (hx : Table.get s.records.titles m = some x) (hp : x.policy = .shelf)
    (hr : n ≤ x.repair) (hc : x.format = .audio → x.shelfClass = c) : benchChecks s0 c n m = .ok (.title x) := by
  rw [← h.management] at ht
  rw [← h.records] at hx
  rw [benchChecks_title hn h0 (shelfTitle_shelf h0 ht hx hp), if_neg fun hbad => hbad.2 (hc hbad.1),
    if_neg (Nat.not_lt.mpr hr)]

/-- The movement of a SHELF title's items off the bench, and of their cartridges (R156, R157). -/
theorem bench_moves {c m : Nat} {x : Title} {f : Title → Title} {g : ClassAccount → ClassAccount} (h : Takes i s s0)
    (hx : Table.get s.records.titles m = some x) (hc : x.format = .audio → x.shelfClass = c ∧ 1 ≤ c ∧ c ≤ 4) :
    let t := titleAndClass m x f g s0
    t = { s0 with accounts := t.accounts, records.titles := t.records.titles } ∧
      Table.get t.records.titles m = some (f x) ∧
      (∀ o, o ≠ m → Table.get t.records.titles o = Table.get s.records.titles o) ∧
      (∀ d, d ≠ c → Machine.accountAt t d = Machine.accountAt s d) ∧
      (x.format = .braille → t.accounts = s.accounts) ∧
      (x.format = .audio → Machine.accountAt t c = g (Machine.accountAt s c)) := by
  refine ⟨titleAndClass_frame, ?_, fun o ho => ?_, fun d hd => ?_, fun hb => ?_, fun ha => ?_⟩
  · rw [titleAndClass_titles, Table.get_modify_same, h.records, hx]
    rfl
  · rw [titleAndClass_titles, Table.get_modify_other _ _ ho, h.records]
  · rw [titleAndClass_accountAt, if_neg fun hbad => hd (hbad.2.1.trans (hc hbad.1).1), h.accountAt]
  · rw [titleAndClass_braille hb, h.accounts]
  · obtain ⟨hcls, h1, h4⟩ := hc ha
    rw [titleAndClass_accountAt, if_pos ⟨ha, hcls.symm, h1, h4⟩, h.accountAt]

end Taken

end Sys2Proof.Machine

open Sys2Proof Sys2Proof.Machine in
/-- Settles O53: the checks of R154 and R155 in their order, the movement, and the competitions or the pass after it. -/
theorem stockIsAdded : Obligations.StockIsAdded := by
  refine ⟨fun n m u => ⟨rfl, rfl⟩, fun s s0 => ⟨?_, ?_⟩⟩
  · intro cls n h i c a bad
    have he : exec i s = request i s fun s => addStock c n.toNat s := rfl
    refine ⟨fun hbad => ?_, fun hok => ?_⟩
    · refine h.refused he (if_pos ?_)
      rw [h.accountAt]
      obtain h0 | h4 | rfl | hmany := hbad
      exacts [.inl h0, .inr (.inl h4), .inr (.inr (.inl rfl)), .inr (.inr (.inr hmany))]
    · have hok0 : ¬(c = 0 ∨ 4 < c ∨ n.toNat = 0 ∨ 65535 < (accountAt s0 c).stock + n.toNat) := by
        rw [h.accountAt]
        exact fun hbad => hok (hbad.imp_right (.imp_right (.imp_left BitVec.eq_of_toNat_eq)))
      obtain ⟨h1, h4⟩ : 1 ≤ c ∧ c ≤ 4 := by omega
      have hadded : ∀ d, accountAt (stockAdded c n.toNat s0) d = _ := stockAdded_accountAt h1 h4
      refine ⟨stockAdded c n.toNat s0, settle (stockAdded c n.toNat s0), ?_, rfl, rfl, ?_, fun d hd => ?_, ?_⟩
      · have hexec := h.answered he (addStock_accepted hok0)
        rwa [settle_of_noPass (settle_noPass _)] at hexec
      · rw [hadded, if_pos rfl, h.accountAt]
      · rw [hadded, if_neg hd, h.accountAt]
      · rw [settle_stock, hadded, if_pos rfl, h.accountAt]
  · intro title n h i m refused
    have he : exec i s = request i s fun s => addTitleStock m n.toNat s := rfl
    have hn0 : n ≠ 0 → n.toNat ≠ 0 := mt fun hz => BitVec.eq_of_toNat_eq hz
    have hrefused : ∀ k, n ≠ 0 → shelfTitle s0 m = .error k → refused k :=
      fun k hn hk => h.refused he (addTitleStock_refused (hn0 hn) hk)
    rw [← h.management, ← h.records]
    refine ⟨fun hn => h.refused he (if_pos (by rw [hn]; rfl)), fun hn hout => hrefused _ hn (shelfTitle_outside hout),
      fun hn hm ht => ⟨fun hx => hrefused _ hn (shelfTitle_absent hm ht hx), fun x hx =>
        ⟨fun hp => hrefused _ hn (shelfTitle_onDemand hm ht hx hp), fun hp => ?_⟩⟩⟩
    have hshelf := addTitleStock_shelf (hn0 hn) (shelfTitle_shelf hm ht hx hp)
    rw [h.accountAt] at hshelf
    refine ⟨fun hmany => h.refused he (hshelf.trans (if_pos hmany)), fun hroom => ?_⟩
    have hexec := h.answered he (hshelf.trans (if_neg hroom))
    rw [addCopies_eq] at hexec
    refine ⟨_, hexec, titleAndClass_frame, ?_, ?_, fun o ho => ?_, fun hb => ?_, fun ha h1 h4 => ⟨?_, fun d hd => ?_⟩⟩
    · rw [titleAndClass_frame]
    · rw [titleAndClass_titles, Table.get_modify_same, hx]
      rfl
    · rw [titleAndClass_titles, Table.get_modify_other _ _ ho]
    · rw [titleAndClass_braille hb, h.accounts]
    · rw [titleAndClass_accountAt, if_pos ⟨ha, rfl, h1, h4⟩, h.accountAt]
      rfl
    · rw [titleAndClass_accountAt, if_neg fun hbad => hd hbad.2.1, h.accountAt]

open Sys2Proof Sys2Proof.Machine in
/-- Settles O54: the shared checks, and the items of a class or of a title that leave the bench for stock or for good. -/
theorem repairBenchIsEmptied : Obligations.RepairBenchIsEmptied := by
  intro cls count title s s0 c n m a refused checks
  refine ⟨?_, ?_⟩
  · intro h i
    have he : exec i s = request i s (repairItems c n m) := rfl
    refine ⟨bench_refusals h he fun k => repairItems_refused, fun hn h0 h1 h4 hr => ?_,
      fun x hn h0 ht hx hp hr haudio => ?_⟩
    · have hexec := h.answered he (repairItems_unbound (bench_unbound h hn h0 h1 h4 hr))
      obtain ⟨hown, hother⟩ := modAccount_unbound (g := ClassAccount.move .repair .blank n) h1 h4 s0
      refine ⟨_, hexec, rfl, hown.trans ?_, fun d hd => (hother d hd).trans (h.accountAt d)⟩
      rw [h.accountAt]
      exact ClassAccount.mended_eq (hr.trans (Nat.sub_le _ _))
    · have hchecks := bench_title h hn h0 ht hx hp hr fun ha => (haudio ha).1
      have hexec := h.answered he (repairItems_title hchecks)
      rw [mendCopies_eq] at hexec
      obtain ⟨hframe, hown, hother, hclasses, hbraille, hcls⟩ := bench_moves (c := c)
        (f := fun y => { y with repair := y.repair - n, shelf := y.shelf + n }) (g := ClassAccount.boundToShelf n) h hx
        fun ha => ⟨(haudio ha).1, (haudio ha).2.1, (haudio ha).2.2.1⟩
      refine ⟨_, hexec, hframe, hown, hother, hclasses, hbraille, fun ha => (hcls ha).trans ?_⟩
      obtain ⟨-, -, -, hbound, hrepair⟩ := haudio ha
      exact ClassAccount.boundToShelf_eq hbound hrepair
  · intro h i
    have he : exec i s = request i s (retireItems c n m) := rfl
    refine ⟨bench_refusals h he fun k => retireItems_refused, fun hn h0 h1 h4 hr => ?_,
      fun x hn h0 ht hx hp hr haudio => ?_⟩
    · have hexec := h.quiet he (retireItems_unbound (bench_unbound h hn h0 h1 h4 hr)) rfl
      obtain ⟨hown, hother⟩ := modAccount_unbound (g := ClassAccount.writeOff .repair n) h1 h4 s0
      refine ⟨_, hexec, rfl, hown.trans ?_, fun d hd => (hother d hd).trans (h.accountAt d)⟩
      rw [h.accountAt]
      exact ClassAccount.writtenOff_eq (hr.trans (Nat.sub_le _ _))
    · have hchecks := bench_title h hn h0 ht hx hp hr fun ha => (haudio ha).1
      obtain ⟨hframe, hown, hother, hclasses, hbraille, hcls⟩ := bench_moves (c := c)
        (f := fun y => { y with repair := y.repair - n, copies := y.copies - n }) (g := ClassAccount.retireBound n) h hx
        fun ha => ⟨(haudio ha).1, (haudio ha).2.1, (haudio ha).2.2.1⟩
      have hexec := h.quiet he (retireItems_title hchecks) (by rw [retireCopies_eq, titleAndClass_frame])
      rw [retireCopies_eq] at hexec
      refine ⟨_, hexec, hframe, hown, hother, hclasses, hbraille, fun ha => (hcls ha).trans ?_⟩
      obtain ⟨-, -, -, hbound, hrepair⟩ := haudio ha
      exact ClassAccount.retireBound_eq hbound hrepair
end

