-- ==== Sys2Proof/Proofs/Circulation.lean ====
section
/-! PROOFS. The circulation as functions of record numbers, and the laws of circulation (R4, R8, R24, R36, R60, R61, R74, R105,
R106, R142, R148, R171) over them. An absent record reads as a default in every field, so that most laws hold of every
number. -/

namespace Sys2Proof.Machine

/-! ## Sums over a pool -/

/-- The sum of `f` over the record numbers up to `N`. -/
def tally (N : Nat) (f : Nat → Nat) : Nat := ∑ k ∈ Finset.range (N + 1), f k

section Tally

variable {N k : Nat} {f g : Nat → Nat}

theorem tally_congr (h : ∀ i, g i = f i) : tally N g = tally N f := Finset.sum_congr rfl fun i _ => h i

/-- Two sums that differ at one number. -/
theorem tally_change (hk : k ≤ N) (h : ∀ i, i ≠ k → g i = f i) : tally N g + f k = tally N f + g k := by
  have hmem : k ∈ Finset.range (N + 1) := Finset.mem_range.mpr (Nat.lt_succ_of_le hk)
  have hrest : ∑ i ∈ (Finset.range (N + 1)).erase k, g i = ∑ i ∈ (Finset.range (N + 1)).erase k, f i :=
    Finset.sum_congr rfl fun i hi => h i (Finset.ne_of_mem_erase hi)
  have hf := Finset.sum_erase_add _ f hmem
  have hg := Finset.sum_erase_add _ g hmem
  unfold tally
  omega

/-- Two sums that differ at one number, the two terms there named. -/
theorem tally_change_at {a b : Nat} (hb : f k = b) (ha : g k = a) (hk : k ≤ N) (h : ∀ i, i ≠ k → g i = f i) :
    tally N g + b = tally N f + a := hb ▸ ha ▸ tally_change hk h

theorem tally_zero (h : ∀ i, f i = 0) : tally N f = 0 := Finset.sum_eq_zero fun i _ => h i

theorem le_tally (hk : k ≤ N) : f k ≤ tally N f :=
  Finset.single_le_sum (f := f) (fun _ _ => Nat.zero_le _) (Finset.mem_range.mpr (Nat.lt_succ_of_le hk))

theorem exists_of_tally_ne_zero (h : tally N f ≠ 0) : ∃ k, k ≤ N ∧ f k ≠ 0 := by
  obtain ⟨k, hk, hne⟩ := Finset.exists_ne_zero_of_sum_ne_zero h
  exact ⟨k, Nat.le_of_lt_succ (Finset.mem_range.mp hk), hne⟩

/-- A list of distinct numbers of the pool, counted. -/
theorem tally_mem {ks : List Nat} (hnodup : ks.Nodup) (hpool : ∀ i ∈ ks, i ≤ N) :
    tally N (fun i => if i ∈ ks then 1 else 0) = ks.length := by
  have hfilter : (Finset.range (N + 1)).filter (· ∈ ks) = ks.toFinset := by
    ext i
    simp only [Finset.mem_filter, Finset.mem_range, List.mem_toFinset, and_iff_right_iff_imp]
    exact fun hi => Nat.lt_succ_of_le (hpool i hi)
  unfold tally
  rw [← Finset.card_filter, hfilter, List.toFinset_card_of_nodup hnodup]

end Tally

/-! ## Lists of records -/

/-- The list of each owner holds the records that are its own, once each. -/
def Lists (l : Nat → List Nat) (owner : Nat → Option Nat) : Prop := ∀ n, (l n).Nodup ∧ ∀ r, r ∈ l n ↔ owner r = some n

section Lists

open Function (update)

variable {l : Nat → List Nat} {owner : Nat → Option Nat} {r n : Nat}

/-- A record leaves its owner's list. -/
theorem Lists.erase (h : Lists l owner) (hr : owner r = some n) :
    Lists (update l n ((l n).erase r)) (update owner r none) := by
  intro i
  obtain ⟨hnodup, hmem⟩ := h i
  by_cases hin : i = n
  · subst hin
    refine ⟨by simpa using hnodup.erase r, fun a => ?_⟩
    by_cases har : a = r <;> simp [har, hnodup.mem_erase_iff, hmem]
  · refine ⟨by simpa [hin] using hnodup, fun a => ?_⟩
    by_cases har : a = r
    · subst har; simp [hin, hmem, hr, Ne.symm hin]
    · simp [hin, har, hmem]

/-- A record joins a list, anywhere in it. -/
theorem Lists.insert (h : Lists l owner) (hr : owner r = none) {l' : List Nat} (hperm : l'.Perm (r :: l n)) :
    Lists (update l n l') (update owner r (some n)) := by
  intro i
  obtain ⟨hnodup, hmem⟩ := h i
  by_cases hin : i = n
  · subst hin
    have hnew : r ∉ l i := by simp [hmem, hr]
    refine ⟨by simpa using hperm.nodup_iff.mpr (List.nodup_cons.mpr ⟨hnew, hnodup⟩), fun a => ?_⟩
    by_cases har : a = r <;> simp [har, hperm.mem_iff, hmem]
  · refine ⟨by simpa [hin] using hnodup, fun a => ?_⟩
    by_cases har : a = r
    · subst har; simp [hin, hmem, hr, Ne.symm hin]
    · simp [hin, har, hmem]

end Lists

/-! ## The circulation -/

/-- What of a title its loans depend on (R7, R9). -/
structure TitleShape where
  format : TitleFormat
  policy : Policy
  shelfClass : Nat
  volumes : Nat

/-- What a consignment keeps from its creation on (R50). -/
structure ConsShape where
  kind : ConsKind
  patron : Nat
  cls : Nat
  head : Nat
  parts : Nat

/-- The shape that a FREE record reads as. -/
def ConsShape.free : ConsShape := ⟨.pack, 0, 0, 0, 0⟩

/-- The circulation at one moment. `turning` is the head of the set whose parts become READY one after another, 0 for none;
`carrier` names the patron on whose chain a consignment stands; `pack` the consignment of each PACK job; `holds` says that a
job has a cartridge reserved. -/
structure Circ where
  geo : Geometry
  setup : Bool
  turning : Nat
  member : Nat → Bool
  patronCls : Nat → Nat
  wish : Nat → List Nat
  chain : Nat → List Nat
  openPack : Nat → Nat
  charge : Nat → Nat
  overdue : Nat → Nat
  title : Nat → Option TitleShape
  waiting : Nat → List Nat
  copies : Nat → Nat
  shelf : Nat → Nat
  out : Nat → Nat
  repair : Nat → Nat
  claim : Nat → Option (Nat × Nat)
  present : Nat → Bool
  stage : Nat → Option ConsState
  shape : Nat → ConsShape
  lines : Nat → List Nat
  opened : Nat → Bool
  marked : Nat → Bool
  back : Nat → Nat
  headBack : Nat → Bool
  jobOf : Nat → Nat
  carrier : Nat → Option Nat
  sealed : List Nat
  ready : List Nat
  released : List Nat
  jobCls : Nat → Option Nat
  pack : Nat → Option Nat
  holds : Nat → Bool

namespace Circ

variable (v : Circ)

/-- The live requests of patron `n` for title `m` (R24). -/
def live (n m : Nat) : Nat := tally v.geo.q fun r => if v.claim r = some (n, m) then 1 else 0

/-- The open lines of patron `n` that name title `m` (R24). -/
def openOf (n m : Nat) : Nat := tally v.geo.c fun k => if (v.shape k).patron = n then (v.lines k).count m else 0

/-- The open lines of patron `n` (R36). -/
def linesOf (n : Nat) : Nat := tally v.geo.c fun k => if (v.shape k).patron = n then (v.lines k).length else 0

/-- The overdue marks of patron `n` (R171). -/
def marksOf (n : Nat) : Nat := tally v.geo.c fun k => if (v.shape k).patron = n ∧ v.marked k = true then 1 else 0

/-- The open lines that name title `m` (R8). -/
def naming (m : Nat) : Nat := tally v.geo.c fun k => (v.lines k).count m

/-- Record `k` is a part of the set headed by `h` (R66). -/
abbrev IsPart (h k : Nat) : Prop := v.present k = true ∧ (v.shape k).kind = .braillePart ∧ (v.shape k).head = h

/-- The parts of a set that stand (R142). -/
def partsOf (h : Nat) : Nat := tally v.geo.c fun k => if v.IsPart h k then 1 else 0

/-- The patron neither waits for the title nor has it on an open line. -/
def Claimless (n m : Nat) : Prop := v.live n m + v.openOf n m = 0

end Circ

/-- A title of this shape can be named by a line of a kind (R38 to R40). -/
def TitleShape.fits (x : TitleShape) (kind : ConsKind) : Prop :=
  match kind with
  | .pack => x.policy = .onDemand
  | .shelfAudio => x.policy = .shelf ∧ x.format = .audio
  | .braillePart => x.policy = .shelf ∧ x.format = .braille

/-- The copies of a title are where its policy keeps them (R8); a BRAILLE title is SHELF with at least one volume (R7). -/
def CopiesKept (x : TitleShape) (copies shelf out repair : Nat) : Prop :=
  (x.policy = .shelf → shelf + out + repair = copies) ∧
    (x.policy = .onDemand → copies = 0 ∧ shelf = 0 ∧ repair = 0) ∧
    (x.format = .braille → x.policy = .shelf ∧ 1 ≤ x.volumes)

/-- The laws of circulation. -/
structure Lawful (v : Circ) : Prop where
  memberPool : ∀ n, v.member n = true → 1 ≤ n ∧ n ≤ v.geo.p
  titlePool : ∀ m x, v.title m = some x → 1 ≤ m ∧ m ≤ v.geo.t
  claimPool : ∀ r q, v.claim r = some q → 1 ≤ r ∧ r ≤ v.geo.q
  consPool : ∀ k, v.present k = true → 1 ≤ k ∧ k ≤ v.geo.c
  jobPool : ∀ j c, v.jobCls j = some c → 1 ≤ j ∧ j ≤ v.geo.j
  present : ∀ k, v.present k = (v.stage k).isSome
  /-- A request stands on its patron's wish list and on no other (R24). -/
  wished : Lists v.wish fun r => (v.claim r).map Prod.fst
  /-- A request stands on its title's waiting list and on no other (R24). -/
  waited : Lists v.waiting fun r => (v.claim r).map Prod.snd
  /-- A patron claims a title once: by a live request or by an open line (R24). -/
  once : ∀ n m, v.live n m + v.openOf n m ≤ 1
  charged : ∀ n, v.charge n = v.linesOf n
  marks : ∀ n, v.overdue n = v.marksOf n
  chained : Lists v.chain v.carrier
  lent : ∀ m, v.out m = v.naming m
  copied : ∀ m x, v.title m = some x → CopiesKept x (v.copies m) (v.shelf m) (v.out m) (v.repair m)
  blank : ∀ k, v.present k = false → v.lines k = [] ∧ v.marked k = false ∧ v.back k = 0 ∧ v.headBack k = false
  opened : ∀ k, v.opened k = true
  owned : ∀ k, v.present k = true → v.member (v.shape k).patron = true
  staged : ∀ k st, v.stage k = some st → stateFitsKind (v.shape k).kind st = true
  fitting : ∀ k, ∀ m ∈ v.lines k, ∃ x, v.title m = some x ∧ x.fits (v.shape k).kind
  carrying : ∀ k, v.present k = true → (v.lines k = [] ↔ (v.shape k).kind = .braillePart ∧ (v.shape k).head ≠ k)
  single : ∀ k, v.present k = true → (v.shape k).kind ≠ .pack → (v.lines k).length ≤ 1
  markedPosted : ∀ k, v.marked k = true → v.stage k = some .posted ∧ v.lines k ≠ []
  openPacks : ∀ n, v.openPack n ≠ 0 → v.stage (v.openPack n) = some .assembling ∧ (v.shape (v.openPack n)).patron = n
  assembling : ∀ k, v.stage k = some .assembling → v.openPack (v.shape k).patron = k
  sealedList : v.sealed.Nodup ∧ ∀ k, k ∈ v.sealed ↔ v.stage k = some .sealed
  full : v.sealed ≠ [] → ∀ j, 1 ≤ j → j ≤ v.geo.j → v.jobCls j ≠ none
  duplicating : ∀ k, v.stage k = some .duplicating → v.pack (v.jobOf k) = some k
  packing : ∀ j k, v.pack j = some k → v.jobCls j ≠ none ∧ v.stage k = some .duplicating ∧ v.jobOf k = j
  holding : ∀ j, v.holds j = true → v.jobCls j ≠ none
  heads : ∀ k, v.present k = true → (v.shape k).kind = .braillePart →
    v.IsPart (v.shape k).head (v.shape k).head ∧ (v.shape (v.shape k).head).patron = (v.shape k).patron
  /-- The parts of a set are PICKING together (R66, R69), but while they turn. -/
  together : ∀ k, v.present k = true → (v.shape k).kind = .braillePart → v.turning ≠ (v.shape k).head →
    (v.stage (v.shape k).head = some .picking ↔ v.stage k = some .picking)
  whole : ∀ k, v.IsPart k k → v.partsOf k + v.back k = (v.shape k).parts + (v.headBack k).toNat ∧ v.back k < (v.shape k).parts
  headPosted : ∀ k, v.IsPart k k → v.headBack k = true → v.stage k = some .posted
  readyQueue : v.ready.Nodup ∧ ∀ k, k ∈ v.ready ↔ v.stage k = some .ready ∨ v.stage k = some .releasing
  releases : v.released.Nodup ∧ ∀ k, k ∈ v.released ↔ v.stage k = some .releasing
  emptySetup : v.setup = true → (∀ r, v.claim r = none) ∧ (∀ k, v.present k = false) ∧ ∀ j, v.jobCls j = none

/-- Whether title `m` is SHELF audio of class `c` (R148). -/
def shelfAudioOf (x : Option TitleShape) (c : Nat) : Bool :=
  x.any fun y => decide (y.format = .audio ∧ y.policy = .shelf ∧ y.shelfClass = c)

/-- The cartridge of a consignment of this kind in this state is consigned (R148). -/
def consigns (kind : ConsKind) (st : Option ConsState) : Bool :=
  match kind, st with
  | .pack, some .ready | .pack, some .releasing | .pack, some .posted => true
  | .shelfAudio, some .picking | .shelfAudio, some .ready | .shelfAudio, some .releasing | .shelfAudio, some .posted => true
  | _, _ => false

namespace Circ

variable (v : Circ)

/-- The jobs of class `c` with a cartridge (R148). -/
def heldOf (c : Nat) : Nat := tally v.geo.j fun j => if v.holds j = true ∧ v.jobCls j = some c then 1 else 0

/-- The consigned cartridges of class `c` (R148). -/
def consignedOf (c : Nat) : Nat :=
  tally v.geo.c fun k => if consigns (v.shape k).kind (v.stage k) = true ∧ (v.shape k).cls = c then 1 else 0

/-- The cartridges of class `c` on the shelf (R148). -/
def shelvedOf (c : Nat) : Nat := tally v.geo.t fun m => if shelfAudioOf (v.title m) c then v.shelf m else 0

/-- The cartridges of class `c` on the repair bench for a title (R148). -/
def benchOf (c : Nat) : Nat := tally v.geo.t fun m => if shelfAudioOf (v.title m) c then v.repair m else 0

end Circ

/-- A class the records can name: one of the four (R148). -/
abbrev IsClass (c : Nat) : Prop := 1 ≤ c ∧ c ≤ 4

/-- The account of a class says what the records say (R148). -/
structure AccountAgrees (v : Circ) (c : Nat) (a : ClassAccount) : Prop where
  reserved : a.reserved = v.heldOf c
  consigned : a.consigned = v.consignedOf c
  shelf : a.shelf = v.shelvedOf c
  bench : a.bound = v.benchOf c

/-- Each cartridge keeps its class (R53, R60, R67, R97); in SETUP no title has items on the bench (R148). -/
structure Classed (v : Circ) : Prop where
  patron : ∀ n, v.member n = true → IsClass (v.patronCls n)
  title : ∀ m x, v.title m = some x → x.format = .audio → x.policy = .shelf → IsClass x.shelfClass
  job : ∀ j c, v.jobCls j = some c → IsClass c
  pack : ∀ j k, v.pack j = some k → v.jobCls j = some (v.shape k).cls
  cons : ∀ k, v.present k = true → (v.shape k).kind ≠ .braillePart → IsClass (v.shape k).cls
  copy : ∀ k, (v.shape k).kind = .shelfAudio → ∀ m ∈ v.lines k, ∀ x, v.title m = some x → x.shelfClass = (v.shape k).cls
  bench : v.setup = true → ∀ m, v.repair m = 0

/-- The classes and their accounts agree with the records. -/
structure Counted (v : Circ) (a : Nat → ClassAccount) : Prop where
  agrees : ∀ c, IsClass c → AccountAgrees v c (a c)
  classed : Classed v

end Sys2Proof.Machine
end

