-- ==== Sys2Proof/Proofs/CirculationSums.lean ====
section
/-! PROOFS. How the sums of the circulation change with one record, whose new fields are named. -/

namespace Sys2Proof.Machine
namespace Circ

variable {v w : Circ} {k : Nat}

theorem live_change {q : Option (Nat × Nat)} (hgeo : w.geo = v.geo) (hk : k ≤ v.geo.q)
    (h : ∀ i, i ≠ k → w.claim i = v.claim i) (hq : w.claim k = q) (n m : Nat) :
    w.live n m + (if v.claim k = some (n, m) then 1 else 0) = v.live n m + (if q = some (n, m) then 1 else 0) := by
  unfold live
  rw [hgeo, ← hq]
  refine tally_change_at rfl rfl hk fun i hi => ?_
  rw [h i hi]

/-- Outside record `k`, `w` has the lines of `v`, each under its shape. -/
def SameLines (k : Nat) (v w : Circ) : Prop :=
  ∀ i, i ≠ k → w.lines i = v.lines i ∧ (v.lines i ≠ [] → w.shape i = v.shape i)

theorem openOf_change {p : Nat} {l : List Nat} (h : SameLines k v w) (hgeo : w.geo = v.geo) (hk : k ≤ v.geo.c)
    (hp : l ≠ [] → (w.shape k).patron = p) (hl : w.lines k = l) (n m : Nat) :
    w.openOf n m + (if (v.shape k).patron = n then (v.lines k).count m else 0) =
      v.openOf n m + (if p = n then l.count m else 0) := by
  unfold openOf
  rw [hgeo]
  refine tally_change_at rfl ?_ hk fun i hi => ?_
  · by_cases hnil : l = []
    · simp [hl, hnil]
    · rw [hl, hp hnil]
  · obtain ⟨hlines, hshape⟩ := h i hi
    by_cases hnil : v.lines i = []
    · simp [hlines, hnil]
    · rw [hlines, hshape hnil]

theorem linesOf_change {p : Nat} {l : List Nat} (h : SameLines k v w) (hgeo : w.geo = v.geo) (hk : k ≤ v.geo.c)
    (hp : l ≠ [] → (w.shape k).patron = p) (hl : w.lines k = l) (n : Nat) :
    w.linesOf n + (if (v.shape k).patron = n then (v.lines k).length else 0) =
      v.linesOf n + (if p = n then l.length else 0) := by
  unfold linesOf
  rw [hgeo]
  refine tally_change_at rfl ?_ hk fun i hi => ?_
  · by_cases hnil : l = []
    · simp [hl, hnil]
    · rw [hl, hp hnil]
  · obtain ⟨hlines, hshape⟩ := h i hi
    by_cases hnil : v.lines i = []
    · simp [hlines, hnil]
    · rw [hlines, hshape hnil]

theorem naming_change {l : List Nat} (h : SameLines k v w) (hgeo : w.geo = v.geo) (hk : k ≤ v.geo.c)
    (hl : w.lines k = l) (m : Nat) : w.naming m + (v.lines k).count m = v.naming m + l.count m := by
  unfold naming
  rw [hgeo, ← hl]
  refine tally_change_at rfl rfl hk fun i hi => ?_
  rw [(h i hi).1]

theorem marksOf_change {p : Nat} {mark : Bool} (hgeo : w.geo = v.geo) (hk : k ≤ v.geo.c)
    (h : ∀ i, i ≠ k → w.marked i = v.marked i ∧ (v.marked i = true → w.shape i = v.shape i))
    (hp : mark = true → (w.shape k).patron = p) (hmark : w.marked k = mark) (n : Nat) :
    w.marksOf n + (if (v.shape k).patron = n ∧ v.marked k = true then 1 else 0) =
      v.marksOf n + (if p = n ∧ mark = true then 1 else 0) := by
  unfold marksOf
  rw [hgeo]
  refine tally_change_at rfl ?_ hk fun i hi => ?_
  · cases mark with
    | false => simp [hmark]
    | true => rw [hmark, hp rfl]
  · obtain ⟨hmark, hshape⟩ := h i hi
    by_cases hm : v.marked i = true
    · rw [hmark, hshape hm]
    · simp [hmark, hm]

theorem marksOf_congr (h : ∀ i, w.marked i = v.marked i ∧ (v.marked i = true → w.shape i = v.shape i))
    (hgeo : w.geo = v.geo) (n : Nat) : w.marksOf n = v.marksOf n := by
  unfold marksOf
  rw [hgeo]
  refine tally_congr fun i => ?_
  obtain ⟨hmark, hshape⟩ := h i
  by_cases hm : v.marked i = true
  · rw [hmark, hshape hm]
  · simp [hmark, hm]

theorem partsOf_change (hgeo : w.geo = v.geo) (hk : k ≤ v.geo.c) {h : Nat}
    (hpart : ∀ i, i ≠ k → (w.IsPart h i ↔ v.IsPart h i)) :
    w.partsOf h + (if v.IsPart h k then 1 else 0) = v.partsOf h + (if w.IsPart h k then 1 else 0) := by
  unfold partsOf
  rw [hgeo]
  exact tally_change_at rfl rfl hk fun i hi => if_congr (hpart i hi) rfl rfl

theorem partsOf_congr {h : Nat} (hpart : ∀ i, w.IsPart h i ↔ v.IsPart h i) (hgeo : w.geo = v.geo) :
    w.partsOf h = v.partsOf h := by
  unfold partsOf
  rw [hgeo]
  exact tally_congr fun i => if_congr (hpart i) rfl rfl

/-- Whether job `j` counts as holding a cartridge of class `c`. -/
abbrev Holds (v : Circ) (c j : Nat) : Prop := v.holds j = true ∧ v.jobCls j = some c

theorem heldOf_change {c : Nat} (hgeo : w.geo = v.geo) (hk : k ≤ v.geo.j) (h : ∀ i, i ≠ k → (w.Holds c i ↔ v.Holds c i)) :
    w.heldOf c + (if v.Holds c k then 1 else 0) = v.heldOf c + (if w.Holds c k then 1 else 0) := by
  unfold heldOf
  rw [hgeo]
  exact tally_change_at rfl rfl hk fun i hi => if_congr (h i hi) rfl rfl

theorem heldOf_congr {c : Nat} (h : ∀ i, w.Holds c i ↔ v.Holds c i) (hgeo : w.geo = v.geo) : w.heldOf c = v.heldOf c := by
  unfold heldOf
  rw [hgeo]
  exact tally_congr fun i => if_congr (h i) rfl rfl

/-- Whether record `k` counts as a consigned cartridge of class `c`. -/
abbrev Consigned (v : Circ) (c k : Nat) : Prop := consigns (v.shape k).kind (v.stage k) = true ∧ (v.shape k).cls = c

theorem consignedOf_change {c : Nat} (hgeo : w.geo = v.geo) (hk : k ≤ v.geo.c)
    (h : ∀ i, i ≠ k → (w.Consigned c i ↔ v.Consigned c i)) :
    w.consignedOf c + (if v.Consigned c k then 1 else 0) = v.consignedOf c + (if w.Consigned c k then 1 else 0) := by
  unfold consignedOf
  rw [hgeo]
  exact tally_change_at rfl rfl hk fun i hi => if_congr (h i hi) rfl rfl

theorem consignedOf_congr {c : Nat} (h : ∀ i, w.Consigned c i ↔ v.Consigned c i) (hgeo : w.geo = v.geo) :
    w.consignedOf c = v.consignedOf c := by
  unfold consignedOf
  rw [hgeo]
  exact tally_congr fun i => if_congr (h i) rfl rfl

theorem shelvedOf_change {x : Option TitleShape} {n : Nat} (hgeo : w.geo = v.geo) (hk : k ≤ v.geo.t)
    (h : ∀ i, i ≠ k → w.title i = v.title i ∧ w.shelf i = v.shelf i) (hx : w.title k = x) (hn : w.shelf k = n) (c : Nat) :
    w.shelvedOf c + (if shelfAudioOf (v.title k) c then v.shelf k else 0) =
      v.shelvedOf c + (if shelfAudioOf x c then n else 0) := by
  unfold shelvedOf
  rw [hgeo, ← hx, ← hn]
  refine tally_change_at rfl rfl hk fun i hi => ?_
  obtain ⟨htitle, hshelf⟩ := h i hi
  rw [htitle, hshelf]

theorem benchOf_change {x : Option TitleShape} {n : Nat} (hgeo : w.geo = v.geo) (hk : k ≤ v.geo.t)
    (h : ∀ i, i ≠ k → w.title i = v.title i ∧ w.repair i = v.repair i) (hx : w.title k = x) (hn : w.repair k = n) (c : Nat) :
    w.benchOf c + (if shelfAudioOf (v.title k) c then v.repair k else 0) =
      v.benchOf c + (if shelfAudioOf x c then n else 0) := by
  unfold benchOf
  rw [hgeo, ← hx, ← hn]
  refine tally_change_at rfl rfl hk fun i hi => ?_
  obtain ⟨htitle, hrepair⟩ := h i hi
  rw [htitle, hrepair]

end Circ
end Sys2Proof.Machine
end

