-- ==== Sys2Proof/Proofs/CirculationMoves.lean ====
section
/-! PROOFS. The moves of the circulation, each of which keeps the laws. -/

namespace Sys2Proof.Machine
open Function (update)
open Circ (SameLines live_change openOf_change linesOf_change naming_change marksOf_change marksOf_congr partsOf_change partsOf_congr)

variable {v : Circ}

/-! ## Claims (R24, R25) -/

/-- Request `r` of patron `n` for title `m` ends. -/
def Circ.endClaim (r n m : Nat) (v : Circ) : Circ :=
  { v with
    claim := update v.claim r none
    wish := update v.wish n ((v.wish n).erase r)
    waiting := update v.waiting m ((v.waiting m).erase r) }

/-- Request `r` of patron `n` for title `m` begins, its lists becoming `wish` and `waiting`. -/
def Circ.addClaim (r n m : Nat) (wish waiting : List Nat) (v : Circ) : Circ :=
  { v with
    claim := update v.claim r (some (n, m))
    wish := update v.wish n wish
    waiting := update v.waiting m waiting }

theorem map_update_option {α β : Type} (f : α → β) (c : Nat → Option α) (r : Nat) (q : Option α) :
    (fun i => (update c r q i).map f) = update (fun i => (c i).map f) r (q.map f) := by
  funext i
  by_cases hi : i = r <;> simp [hi]

theorem live_endClaim (h : Lawful v) {r n m : Nat} (hr : v.claim r = some (n, m)) (n' m' : Nat) :
    (v.endClaim r n m).live n' m' + (if (n, m) = (n', m') then 1 else 0) = v.live n' m' := by
  simpa [hr] using live_change (v := v) (w := v.endClaim r n m) rfl (h.claimPool r _ hr).2
    (fun i hi => by simp [Circ.endClaim, hi]) (q := none) (by simp [Circ.endClaim]) n' m'

theorem Lawful.endClaim (h : Lawful v) {r n m : Nat} (hr : v.claim r = some (n, m)) : Lawful (v.endClaim r n m) :=
  { h with
    claimPool := fun i q hi => by
      by_cases hir : i = r
      · simp [Circ.endClaim, hir] at hi
      · exact h.claimPool i q (by simpa [Circ.endClaim, hir] using hi)
    wished := by simpa only [Circ.endClaim, map_update_option, Option.map_none] using h.wished.erase (by simp [hr])
    waited := by simpa only [Circ.endClaim, map_update_option, Option.map_none] using h.waited.erase (by simp [hr])
    once := fun n' m' => by
      have hlive := live_endClaim h hr n' m'
      have honce := h.once n' m'
      change (v.endClaim r n m).live n' m' + v.openOf n' m' ≤ 1
      omega
    emptySetup := fun hs => by simp [(h.emptySetup hs).1 r] at hr }

/-- An ended request leaves its patron without a claim on its title. -/
theorem claimless_endClaim (h : Lawful v) {r n m : Nat} (hr : v.claim r = some (n, m)) : (v.endClaim r n m).Claimless n m := by
  have hlive := live_endClaim h hr n m
  have honce := h.once n m
  simp only [if_true] at hlive
  change (v.endClaim r n m).live n m + v.openOf n m = 0
  omega

theorem Lawful.addClaim (h : Lawful v) {r n m : Nat} {wish waiting : List Nat} (hfree : v.claim r = none)
    (hpool : 1 ≤ r ∧ r ≤ v.geo.q) (hwish : wish.Perm (r :: v.wish n)) (hwaiting : waiting.Perm (r :: v.waiting m))
    (hclaim : v.Claimless n m) (hsetup : v.setup = false) : Lawful (v.addClaim r n m wish waiting) :=
  { h with
    claimPool := fun i q hi => by
      by_cases hir : i = r
      · exact hir ▸ hpool
      · exact h.claimPool i q (by simpa [Circ.addClaim, hir] using hi)
    wished := by simpa only [Circ.addClaim, map_update_option, Option.map_some] using h.wished.insert (by simp [hfree]) hwish
    waited := by simpa only [Circ.addClaim, map_update_option, Option.map_some] using h.waited.insert (by simp [hfree]) hwaiting
    once := fun n' m' => by
      have key := live_change (v := v) (w := v.addClaim r n m wish waiting) rfl hpool.2
        (fun i hi => by simp [Circ.addClaim, hi]) (q := some (n, m)) (by simp [Circ.addClaim]) n' m'
      have honce := h.once n' m'
      change (v.addClaim r n m wish waiting).live n' m' + v.openOf n' m' ≤ 1
      by_cases hp : n = n' ∧ m = m'
      · obtain ⟨rfl, rfl⟩ := hp
        unfold Circ.Claimless at hclaim
        rw [hfree] at key
        simp only [reduceCtorEq, if_true, if_false] at key
        omega
      · rw [hfree] at key
        simp only [reduceCtorEq, Option.some.injEq, Prod.mk.injEq, hp, if_false] at key
        omega
    emptySetup := fun hs => by simp [Circ.addClaim, hsetup] at hs }

/-! ## What the laws say of one record -/

theorem Lawful.present_of_stage (h : Lawful v) {k : Nat} {st : ConsState} (hk : v.stage k = some st) : v.present k = true := by
  simp [h.present, hk]

theorem Lawful.stage_of_absent (h : Lawful v) {k : Nat} (hk : v.present k = false) : v.stage k = none := by
  have := h.present k
  rw [hk] at this
  exact Option.isNone_iff_eq_none.mp (by simpa using this.symm)

theorem Lawful.present_of_lines (h : Lawful v) {k : Nat} (hk : v.lines k ≠ []) : v.present k = true := by
  by_contra hp
  exact hk (h.blank k (by simpa using hp)).1

theorem Lawful.lines_of_marked (h : Lawful v) {k : Nat} (hk : v.marked k = true) : v.lines k ≠ [] := (h.markedPosted k hk).2

theorem Lawful.pack_of_assembling (h : Lawful v) {k : Nat} (hk : v.stage k = some .assembling) :
    (v.shape k).kind = .pack := by
  have := h.staged k _ hk
  cases hkind : (v.shape k).kind <;> simp_all [stateFitsKind]

/-- A pack carries a line. -/
theorem Lawful.lines_of_pack (h : Lawful v) {k : Nat} (hp : v.present k = true) (hk : (v.shape k).kind = .pack) :
    v.lines k ≠ [] := by
  simp [h.carrying k hp, hk]

theorem Lawful.not_setup (h : Lawful v) {k : Nat} (hp : v.present k = true) : v.setup = false := by
  by_contra hs
  simp [(h.emptySetup (by simpa using hs)).2.1 k] at hp

/-! ## Lines of an open pack (R38, R64) -/

/-- The lines of pack `k` of patron `n` become `l`. -/
def Circ.reline (k n : Nat) (l : List Nat) (charge : Nat) (out : Nat → Nat) (v : Circ) : Circ :=
  { v with lines := update v.lines k l, charge := update v.charge n charge, out := out }

theorem Lawful.reline (h : Lawful v) {k n : Nat} {l : List Nat} {charge : Nat} {out : Nat → Nat}
    (hk : v.stage k = some .assembling) (hn : (v.shape k).patron = n) (hl : l ≠ [])
    (hfit : ∀ m ∈ l, ∃ x, v.title m = some x ∧ x.policy = .onDemand)
    (hcharge : charge + (v.lines k).length = v.charge n + l.length)
    (hout : ∀ m, out m + (v.lines k).count m = v.out m + l.count m)
    (honce : ∀ m, v.live n m + v.openOf n m + l.count m ≤ 1 + (v.lines k).count m) :
    Lawful (v.reline k n l charge out) := by
  have hp := h.present_of_stage hk
  have hpack := h.pack_of_assembling hk
  have hpool := (h.consPool k hp).2
  have hsame : SameLines k v (v.reline k n l charge out) := fun i hi => by simp [Circ.reline, hi]
  have hlines : (v.reline k n l charge out).lines k = l := by simp [Circ.reline]
  exact { h with
    once := fun n' m => by
      have key := openOf_change hsame rfl hpool (fun _ => hn) hlines n' m
      have hold := h.once n' m
      change v.live n' m + (v.reline k n l charge out).openOf n' m ≤ 1
      by_cases hn' : n = n'
      · subst hn'
        have := honce m
        simp only [hn, if_true] at key
        omega
      · simp only [hn, hn', if_false] at key
        omega
    charged := fun n' => by
      have key := linesOf_change hsame rfl hpool (fun _ => hn) hlines n'
      have hold := h.charged n'
      change update v.charge n charge n' = _
      by_cases hn' : n = n'
      · subst hn'
        simp only [hn, if_true, Function.update_self] at key ⊢
        omega
      · simp only [hn, hn', if_false, Function.update_of_ne (Ne.symm hn')] at key ⊢
        omega
    lent := fun m => by
      have key := naming_change hsame rfl hpool hlines m
      have hold := h.lent m
      have := hout m
      change out m = _
      omega
    copied := fun m x hx => by
      obtain ⟨hshelf, hdemand, hbraille⟩ := h.copied m x hx
      refine ⟨fun hs => ?_, hdemand, hbraille⟩
      have hnot : ∀ y, v.title m = some y → y.policy ≠ .onDemand := fun y hy => by
        rw [show v.title m = some x from hx, Option.some.injEq] at hy
        simp [← hy, hs]
      have hold : (v.lines k).count m = 0 := List.count_eq_zero.mpr fun hm => by
        obtain ⟨y, hy, hfits⟩ := h.fitting k m hm
        rw [hpack] at hfits
        exact hnot y hy hfits
      have hnew : l.count m = 0 := List.count_eq_zero.mpr fun hm => by
        obtain ⟨y, hy, hfits⟩ := hfit m hm
        exact hnot y hy hfits
      have := hout m
      have := hshelf hs
      change v.shelf m + out m + v.repair m = v.copies m
      omega
    blank := fun i hi => by
      have hik : i ≠ k := fun hik => by simp [Circ.reline, hik, hp] at hi
      simpa [Circ.reline, hik] using h.blank i hi
    fitting := fun i => by
      by_cases hik : i = k
      · subst hik; simpa [Circ.reline, hpack, TitleShape.fits] using hfit
      · simpa [Circ.reline, hik] using h.fitting i
    carrying := fun i hi => by
      by_cases hik : i = k
      · subst hik; simp [Circ.reline, hpack, hl]
      · simpa [Circ.reline, hik] using h.carrying i hi
    single := fun i hi hkind => by
      by_cases hik : i = k
      · subst hik; exact absurd hpack hkind
      · simpa [Circ.reline, hik] using h.single i hi hkind
    markedPosted := fun i hi => by
      by_cases hik : i = k
      · subst hik; exact ⟨(h.markedPosted i hi).1, by simpa [Circ.reline] using hl⟩
      · simpa [Circ.reline, hik] using h.markedPosted i hi }

/-! ## A consignment ends (R53, R63, R64, R70, R139, R159) -/

/-- The consignment of patron `n` in records `ks`, its lines in record `k`, ends: the copies of its lines leave with it. -/
def Circ.leave (ks : List Nat) (k n : Nat) (v : Circ) : Circ :=
  { v with
    present := fun i => if i ∈ ks then false else v.present i
    stage := fun i => if i ∈ ks then none else v.stage i
    shape := fun i => if i ∈ ks then .free else v.shape i
    lines := update v.lines k []
    marked := update v.marked k false
    back := fun i => if i ∈ ks then 0 else v.back i
    headBack := fun i => if i ∈ ks then false else v.headBack i
    jobOf := fun i => if i ∈ ks then 0 else v.jobOf i
    openPack := update v.openPack n (if v.openPack n ∈ ks then 0 else v.openPack n)
    pack := fun j => (v.pack j).filter fun i => decide (i ∉ ks)
    charge := update v.charge n (v.charge n - (v.lines k).length)
    overdue := update v.overdue n (v.overdue n - (v.marked k).toNat)
    out := fun m => v.out m - (v.lines k).count m
    copies := fun m => if (v.shape k).kind = .pack then v.copies m else v.copies m - (v.lines k).count m }

/-- The records `ks` are a whole consignment of patron `n`, its lines in record `k`, in none of the queues. -/
structure Leaves (ks : List Nat) (k n : Nat) (v : Circ) : Prop where
  mem : k ∈ ks
  present : v.present k = true
  patron : (v.shape k).patron = n
  stages : ∀ i ∈ ks, v.stage i ≠ some .sealed ∧ v.stage i ≠ some .ready ∧ v.stage i ≠ some .releasing
  alone : (v.shape k).kind ≠ .braillePart → ks = [k]
  set : (v.shape k).kind = .braillePart → ∀ i, i ∈ ks ↔ v.IsPart k i

section Leave

variable {ks : List Nat} {k n : Nat}

theorem Leaves.eq_of_lines (h : Lawful v) (hl : Leaves ks k n v) {i : Nat} (hi : i ∈ ks) (hlines : v.lines i ≠ []) : i = k := by
  by_cases hkind : (v.shape k).kind = .braillePart
  · obtain ⟨hp, hk, hh⟩ := (hl.set hkind i).mp hi
    by_contra hne
    exact hlines ((h.carrying i hp).mpr ⟨hk, hh ▸ Ne.symm hne⟩)
  · simpa [hl.alone hkind] using hi

theorem leave_sameLines (h : Lawful v) (hl : Leaves ks k n v) : SameLines k v (v.leave ks k n) := by
  intro i hi
  refine ⟨by simp [Circ.leave, hi], fun hlines => ?_⟩
  have hks : i ∉ ks := fun hmem => hi (hl.eq_of_lines h hmem hlines)
  simp [Circ.leave, hks]

theorem leave_lines : (v.leave ks k n).lines k = [] := by simp [Circ.leave]

theorem leave_stage_iff {st : ConsState} {i : Nat} : (v.leave ks k n).stage i = some st ↔ i ∉ ks ∧ v.stage i = some st := by
  by_cases hi : i ∈ ks <;> simp [Circ.leave, hi]

theorem leave_present_iff {i : Nat} : (v.leave ks k n).present i = true ↔ i ∉ ks ∧ v.present i = true := by
  by_cases hi : i ∈ ks <;> simp [Circ.leave, hi]

theorem leave_shape {i : Nat} (hi : i ∉ ks) : (v.leave ks k n).shape i = v.shape i := by simp [Circ.leave, hi]

/-- Another set keeps its parts. -/
theorem leave_isPart_iff (hl : Leaves ks k n v) {a : Nat} (ha : a ∉ ks) (i : Nat) :
    (v.leave ks k n).IsPart a i ↔ v.IsPart a i := by
  by_cases hi : i ∈ ks
  · simp only [Circ.IsPart, Circ.leave, hi, if_true, Bool.false_eq_true, false_and, false_iff]
    rintro ⟨hp, hk, hh⟩
    by_cases hkind : (v.shape k).kind = .braillePart
    · have := ((hl.set hkind i).mp hi).2.2
      exact ha (hh ▸ this ▸ hl.mem)
    · obtain rfl : i = k := by simpa [hl.alone hkind] using hi
      exact hkind hk
  · simp [Circ.IsPart, Circ.leave, hi]

/-- The head of a part that stays stays. -/
theorem Leaves.head_notMem (h : Lawful v) (hl : Leaves ks k n v) {i : Nat} (hi : i ∉ ks) (hp : v.present i = true)
    (hk : (v.shape i).kind = .braillePart) : (v.shape i).head ∉ ks := by
  intro hmem
  obtain ⟨⟨hph, hkh, hhh⟩, -⟩ := h.heads i hp hk
  by_cases hkind : (v.shape k).kind = .braillePart
  · have hhk := ((hl.set hkind _).mp hmem).2.2
    rw [hhh] at hhk
    exact hi ((hl.set hkind i).mpr ⟨hp, hk, hhk⟩)
  · rw [hl.alone hkind, List.mem_singleton] at hmem
    rw [hmem] at hkh
    exact hkind hkh

theorem Leaves.patron_of_assembling (hl : Leaves ks k n v) (h : Lawful v) {i : Nat} (hi : i ∈ ks)
    (hst : v.stage i = some .assembling) : (v.shape i).patron = n := by
  have hpack := h.pack_of_assembling hst
  by_cases hkind : (v.shape k).kind = .braillePart
  · simp [((hl.set hkind i).mp hi).2.1] at hpack
  · obtain rfl : i = k := by simpa [hl.alone hkind] using hi
    exact hl.patron

theorem Lawful.leave (h : Lawful v) (hl : Leaves ks k n v) : Lawful (v.leave ks k n) := by
  have hpool := (h.consPool k hl.present).2
  have hsame := leave_sameLines h hl
  have hlines := leave_lines (v := v) (ks := ks) (k := k) (n := n)
  have hnot : ∀ i, i ∉ ks → i ≠ k := fun i hi e => hi (e ▸ hl.mem)
  have hkeeps : ∀ i st, v.stage i = some st → (st = .sealed ∨ st = .ready ∨ st = .releasing) → i ∉ ks :=
    fun i st hst hor hi => by
      obtain ⟨h1, h2, h3⟩ := hl.stages i hi
      rw [hst] at h1 h2 h3
      rcases hor with rfl | rfl | rfl <;> simp at h1 h2 h3
  exact { h with
    consPool := fun i hi => h.consPool i (leave_present_iff.mp hi).2
    present := fun i => by
      by_cases hks : i ∈ ks
      · simp [Circ.leave, hks]
      · simpa [Circ.leave, hks] using h.present i
    once := fun n' m => by
      have key := openOf_change hsame rfl hpool (fun _ => rfl) hlines n' m
      have hold := h.once n' m
      change v.live n' m + (v.leave ks k n).openOf n' m ≤ 1
      simp only [List.count_nil, ite_self] at key
      omega
    charged := fun n' => by
      have key := linesOf_change hsame rfl hpool (fun _ => rfl) hlines n'
      have hold := h.charged n'
      change update v.charge n _ n' = _
      simp only [hl.patron, List.length_nil, ite_self] at key
      by_cases hn' : n = n'
      · subst hn'
        simp only [if_true, Function.update_self] at key ⊢
        omega
      · simp only [hn', if_false, Function.update_of_ne (Ne.symm hn')] at key ⊢
        omega
    marks := fun n' => by
      have key := marksOf_change (v := v) (w := v.leave ks k n) (k := k) (p := 0) (mark := false) rfl hpool
        (fun i hi => ⟨by simp [Circ.leave, hi], fun hm => (hsame i hi).2 (h.lines_of_marked hm)⟩) (by simp)
        (by simp [Circ.leave]) n'
      have hold := h.marks n'
      change update v.overdue n _ n' = _
      simp only [hl.patron, Bool.false_eq_true, and_false, if_false] at key
      by_cases hn' : n = n'
      · subst hn'
        rw [Function.update_self]
        cases hm : v.marked k <;> simp only [hm, true_and, Bool.false_eq_true, if_true, if_false] at key <;>
          simp only [Bool.toNat_true, Bool.toNat_false] <;> omega
      · simp only [hn', false_and, if_false, Function.update_of_ne (Ne.symm hn')] at key ⊢
        omega
    lent := fun m => by
      have key := naming_change hsame rfl hpool hlines m
      have hold := h.lent m
      change v.out m - (v.lines k).count m = _
      simp only [List.count_nil] at key
      omega
    copied := fun m x hx => by
      obtain ⟨hshelf, hdemand, hbraille⟩ := h.copied m x hx
      have key := naming_change hsame rfl hpool hlines m
      have hold := h.lent m
      have hpolicy : m ∈ v.lines k → (x.policy = .onDemand ↔ (v.shape k).kind = .pack) := fun hm => by
        obtain ⟨y, hy, hfits⟩ := h.fitting k m hm
        obtain rfl : y = x := by simpa [show v.title m = some x from hx] using hy.symm
        cases hkind : (v.shape k).kind <;> simp_all [TitleShape.fits]
      refine ⟨fun hs => ?_, fun hd => ?_, hbraille⟩
      · have := hshelf hs
        by_cases hm : m ∈ v.lines k
        · have hkind : (v.shape k).kind ≠ .pack := fun hkind => by simp [(hpolicy hm).mpr hkind] at hs
          simp only [List.count_nil] at key
          simp only [Circ.leave, hkind, if_false]
          omega
        · simpa [Circ.leave, List.count_eq_zero.mpr hm] using this
      · by_cases hm : m ∈ v.lines k
        · simpa [Circ.leave, (hpolicy hm).mp hd] using hdemand hd
        · simpa [Circ.leave, List.count_eq_zero.mpr hm] using hdemand hd
    blank := fun i hi => by
      by_cases hks : i ∈ ks
      · by_cases hik : i = k
        · simp [Circ.leave, hik, hl.mem]
        · have hnil : v.lines i = [] := by
            by_contra hne
            exact hik (hl.eq_of_lines h hks hne)
          have hmark : v.marked i = false := by
            by_contra hm
            exact h.lines_of_marked (by simpa using hm) hnil
          simp [Circ.leave, hks, hik, hnil, hmark]
      · simpa [Circ.leave, hks, hnot i hks] using h.blank i (by simpa [Circ.leave, hks] using hi)
    owned := fun i hi => by
      obtain ⟨hks, hp⟩ := leave_present_iff.mp hi
      rw [leave_shape hks]
      exact h.owned i hp
    staged := fun i st hi => by
      obtain ⟨hks, hst⟩ := leave_stage_iff.mp hi
      rw [leave_shape hks]
      exact h.staged i st hst
    fitting := fun i m hm => by
      have hik : i ≠ k := fun e => by simp [e, hlines] at hm
      obtain ⟨hli, hsh⟩ := hsame i hik
      rw [hli] at hm
      rw [hsh (List.ne_nil_of_mem hm)]
      exact h.fitting i m hm
    carrying := fun i hi => by
      obtain ⟨hks, hp⟩ := leave_present_iff.mp hi
      rw [leave_shape hks, (hsame i (hnot i hks)).1]
      exact h.carrying i hp
    single := fun i hi hkind => by
      obtain ⟨hks, hp⟩ := leave_present_iff.mp hi
      rw [leave_shape hks] at hkind
      rw [(hsame i (hnot i hks)).1]
      exact h.single i hp hkind
    markedPosted := fun i hi => by
      have hik : i ≠ k := fun e => by simp [Circ.leave, e] at hi
      obtain ⟨hst, hne⟩ := h.markedPosted i (by simpa [Circ.leave, hik] using hi)
      exact ⟨leave_stage_iff.mpr ⟨fun hmem => hik (hl.eq_of_lines h hmem hne), hst⟩, (hsame i hik).1 ▸ hne⟩
    openPacks := fun n' hn' => by
      have hopen : (v.leave ks k n).openPack n' = v.openPack n' ∧ v.openPack n' ∉ ks := by
        by_cases hnn : n' = n
        · subst hnn
          by_cases hmem : v.openPack n' ∈ ks
          · simp [Circ.leave, hmem] at hn'
          · simp [Circ.leave, hmem]
        · have heq : (v.leave ks k n).openPack n' = v.openPack n' := by simp [Circ.leave, hnn]
          rw [heq] at hn'
          obtain ⟨hst, hp⟩ := h.openPacks n' hn'
          exact ⟨heq, fun hmem => hnn (hp.symm.trans (hl.patron_of_assembling h hmem hst))⟩
      obtain ⟨hopen, hks⟩ := hopen
      rw [hopen] at hn' ⊢
      obtain ⟨hst, hp⟩ := h.openPacks n' hn'
      exact ⟨leave_stage_iff.mpr ⟨hks, hst⟩, by rw [leave_shape hks]; exact hp⟩
    assembling := fun i hi => by
      obtain ⟨hks, hst⟩ := leave_stage_iff.mp hi
      have hold := h.assembling i hst
      rw [leave_shape hks]
      by_cases hp : (v.shape i).patron = n
      · simp [Circ.leave, hp, hp ▸ hold, hks]
      · simpa [Circ.leave, hp] using hold
    sealedList := ⟨h.sealedList.1, fun i => (h.sealedList.2 i).trans
      ⟨fun hst => leave_stage_iff.mpr ⟨hkeeps i _ hst (by simp), hst⟩, fun hst => (leave_stage_iff.mp hst).2⟩⟩
    duplicating := fun i hi => by
      obtain ⟨hks, hst⟩ := leave_stage_iff.mp hi
      simp [Circ.leave, hks, h.duplicating i hst]
    packing := fun j i hj => by
      obtain ⟨hpack, hks⟩ : v.pack j = some i ∧ i ∉ ks := by simpa [Circ.leave, Option.filter_eq_some_iff] using hj
      obtain ⟨hcls, hst, hjob⟩ := h.packing j i hpack
      exact ⟨hcls, leave_stage_iff.mpr ⟨hks, hst⟩, by simpa [Circ.leave, hks] using hjob⟩
    heads := fun i hi hkind => by
      obtain ⟨hks, hp⟩ := leave_present_iff.mp hi
      rw [leave_shape hks] at hkind ⊢
      have hhead := hl.head_notMem h hks hp hkind
      rw [leave_shape hhead, leave_isPart_iff hl hhead]
      exact h.heads i hp hkind
    together := fun i hi hkind hturn => by
      obtain ⟨hks, hp⟩ := leave_present_iff.mp hi
      rw [leave_shape hks] at hkind hturn ⊢
      have hhead := hl.head_notMem h hks hp hkind
      rw [leave_stage_iff, leave_stage_iff]
      simpa [hks, hhead] using h.together i hp hkind hturn
    whole := fun i hi => by
      have hks := (leave_present_iff.mp hi.1).1
      rw [partsOf_congr (leave_isPart_iff hl hks) rfl, leave_shape hks]
      simpa [Circ.leave, hks] using h.whole i ((leave_isPart_iff hl hks i).mp hi)
    headPosted := fun i hpart hi => by
      have hks : i ∉ ks := fun hmem => by simp [Circ.leave, hmem] at hi
      exact leave_stage_iff.mpr
        ⟨hks, h.headPosted i ((leave_isPart_iff hl hks i).mp hpart) (by simpa [Circ.leave, hks] using hi)⟩
    readyQueue := ⟨h.readyQueue.1, fun i => (h.readyQueue.2 i).trans
      ⟨Or.imp (fun hst => leave_stage_iff.mpr ⟨hkeeps i _ hst (by simp), hst⟩)
          (fun hst => leave_stage_iff.mpr ⟨hkeeps i _ hst (by simp), hst⟩),
        Or.imp (fun hst => (leave_stage_iff.mp hst).2) (fun hst => (leave_stage_iff.mp hst).2)⟩⟩
    releases := ⟨h.releases.1, fun i => (h.releases.2 i).trans
      ⟨fun hst => leave_stage_iff.mpr ⟨hkeeps i _ hst (by simp), hst⟩, fun hst => (leave_stage_iff.mp hst).2⟩⟩
    emptySetup := fun hs => absurd (show v.setup = true from hs) (by simp [h.not_setup hl.present]) }

end Leave

/-! ## A consignment is created (R52, R54, R65 to R67) -/

/-- Records `ks` become one consignment of patron `n` with a line of title `m` in record `k`: a pack in assembly, or a copy or set
to pick. -/
def Circ.enter (ks : List Nat) (k n m : Nat) (kind : ConsKind) (cls parts : Nat) (v : Circ) : Circ :=
  { v with
    present := fun i => if i ∈ ks then true else v.present i
    stage := fun i => if i ∈ ks then some (if kind = .pack then .assembling else .picking) else v.stage i
    shape := fun i => if i ∈ ks then ⟨kind, n, cls, if kind = .braillePart then k else 0, parts⟩ else v.shape i
    lines := update v.lines k [m]
    carrier := update v.carrier k (some n)
    chain := update v.chain n (k :: v.chain n)
    openPack := if kind = .pack then update v.openPack n k else v.openPack
    charge := update v.charge n (v.charge n + 1)
    out := update v.out m (v.out m + 1)
    copies := if kind = .pack then v.copies else update v.copies m (v.copies m + 1) }

/-- The records `ks` are free to become a consignment of patron `n` for title `m`. -/
structure Enters (ks : List Nat) (k n m : Nat) (kind : ConsKind) (parts : Nat) (v : Circ) : Prop where
  mem : k ∈ ks
  free : ∀ i ∈ ks, v.present i = false ∧ 1 ≤ i ∧ i ≤ v.geo.c
  carrier : v.carrier k = none
  member : v.member n = true
  title : ∃ x, v.title m = some x ∧ x.fits kind
  claimless : v.Claimless n m
  service : v.setup = false
  openPack : kind = .pack → v.openPack n = 0
  alone : kind ≠ .braillePart → ks = [k]
  set : kind = .braillePart → ks.Nodup ∧ ks.length = parts

section Enter

variable {ks : List Nat} {k n m : Nat} {kind : ConsKind} {cls parts : Nat}

theorem enter_sameLines (h : Lawful v) (he : Enters ks k n m kind parts v) :
    SameLines k v (v.enter ks k n m kind cls parts) := by
  intro i hi
  refine ⟨by simp [Circ.enter, hi], fun hl => ?_⟩
  have hks : i ∉ ks := fun hmem => hl (h.blank i (he.free i hmem).1).1
  simp [Circ.enter, hks]

theorem enter_patron (he : Enters ks k n m kind parts v) : ((v.enter ks k n m kind cls parts).shape k).patron = n := by
  simp [Circ.enter, he.mem]

theorem enter_lines : (v.enter ks k n m kind cls parts).lines k = [m] := by simp [Circ.enter]

/-- The created records are in assembly or to pick; every other state stands where it stood. -/
theorem enter_stage_iff (h : Lawful v) (he : Enters ks k n m kind parts v) {st : ConsState} (hst : st ≠ .assembling)
    (hst' : st ≠ .picking) (i : Nat) : (v.enter ks k n m kind cls parts).stage i = some st ↔ v.stage i = some st := by
  by_cases hi : i ∈ ks
  · have := h.stage_of_absent (he.free i hi).1
    by_cases hkind : kind = .pack <;> simp [Circ.enter, hi, this, hkind, hst.symm, hst'.symm]
  · simp [Circ.enter, hi]

theorem enter_isPart_iff (he : Enters ks k n m kind parts v) {a : Nat} (ha : a ∉ ks) (i : Nat) :
    (v.enter ks k n m kind cls parts).IsPart a i ↔ v.IsPart a i := by
  by_cases hi : i ∈ ks
  · have hak : k ≠ a := fun e => ha (e ▸ he.mem)
    simp only [Circ.IsPart, (he.free i hi).1, Circ.enter, hi, if_true]
    by_cases hkind : kind = .braillePart <;> simp [hkind, hak]
  · simp [Circ.IsPart, Circ.enter, hi]

theorem Lawful.enter (h : Lawful v) (he : Enters ks k n m kind parts v) : Lawful (v.enter ks k n m kind cls parts) := by
  obtain ⟨habsent, hpool⟩ := he.free k he.mem
  obtain ⟨hnil, hunmarked, -, -⟩ := h.blank k habsent
  obtain ⟨x, hx, hfits⟩ := he.title
  have hsame := enter_sameLines (cls := cls) h he
  have hpatron := enter_patron (cls := cls) he
  have hlines := enter_lines (v := v) (ks := ks) (k := k) (n := n) (m := m) (kind := kind) (cls := cls) (parts := parts)
  have hother : ∀ i, v.present i = true → i ∉ ks := fun i hi hmem => by simp [(he.free i hmem).1] at hi
  have hne : ∀ i, v.present i = true → i ≠ k := fun i hi e => hother i hi (e ▸ he.mem)
  have hstage := fun st hst hst' => enter_stage_iff (cls := cls) (st := st) h he hst hst'
  exact { h with
    consPool := fun i hi => by
      by_cases hks : i ∈ ks
      · exact (he.free i hks).2
      · exact h.consPool i (by simpa [Circ.enter, hks] using hi)
    present := fun i => by
      by_cases hks : i ∈ ks
      · simp [Circ.enter, hks]
      · simpa [Circ.enter, hks] using h.present i
    once := fun n' m' => by
      have key := openOf_change hsame rfl hpool.2 (fun _ => hpatron) hlines n' m'
      have hold := h.once n' m'
      change v.live n' m' + (v.enter ks k n m kind cls parts).openOf n' m' ≤ 1
      rw [hnil] at key
      by_cases hn' : n = n'
      · by_cases hm' : m = m'
        · subst hn' hm'
          have := he.claimless
          unfold Circ.Claimless at this
          simp only [if_true, List.count_nil, List.count_singleton_self, ite_self] at key
          omega
        · simp only [List.count_nil, List.count_singleton, beq_iff_eq, hm', if_false, ite_self] at key
          omega
      · simp only [List.count_nil, hn', if_false, ite_self] at key
        omega
    charged := fun n' => by
      have key := linesOf_change hsame rfl hpool.2 (fun _ => hpatron) hlines n'
      have hold := h.charged n'
      change update v.charge n (v.charge n + 1) n' = _
      rw [hnil] at key
      by_cases hn' : n = n'
      · subst hn'
        simp only [if_true, List.length_nil, List.length_singleton, ite_self, Function.update_self] at key ⊢
        omega
      · simp only [List.length_nil, hn', if_false, ite_self, Function.update_of_ne (Ne.symm hn')] at key ⊢
        omega
    marks := fun n' => by
      refine (h.marks n').trans (marksOf_congr (v := v) (w := v.enter ks k n m kind cls parts)
        (fun i => ⟨rfl, fun hi => ?_⟩) rfl n').symm
      simp [Circ.enter, hother i (h.present_of_lines (h.lines_of_marked hi))]
    chained := h.chained.insert he.carrier (List.Perm.refl _)
    lent := fun m' => by
      have key := naming_change hsame rfl hpool.2 hlines m'
      have hold := h.lent m'
      change update v.out m (v.out m + 1) m' = _
      rw [hnil] at key
      by_cases hm' : m = m'
      · subst hm'
        simp only [List.count_nil, List.count_singleton_self, Function.update_self] at key ⊢
        omega
      · simp only [List.count_nil, List.count_singleton, beq_iff_eq, hm', if_false, Function.update_of_ne (Ne.symm hm')] at key ⊢
        omega
    copied := fun m' y hy => by
      have hold := h.copied m' y hy
      by_cases hm' : m' = m
      · subst hm'
        obtain ⟨hshelf, hdemand, hbraille⟩ := hold
        obtain rfl : x = y := by simpa [Circ.enter, hx] using hy
        cases kind with
        | pack =>
          have hpolicy : x.policy = .onDemand := hfits
          refine ⟨fun hs => by simp [hpolicy] at hs, fun _ => by simpa [Circ.enter] using hdemand hpolicy, hbraille⟩
        | shelfAudio | braillePart =>
          have hpolicy : x.policy = .shelf := hfits.1
          refine ⟨fun hs => ?_, fun hs => by simp [hpolicy] at hs, hbraille⟩
          have := hshelf hs
          simp only [Circ.enter, reduceCtorEq, if_false, Function.update_self]
          omega
      · cases kind <;> simpa [Circ.enter, hm'] using hold
    blank := fun i hi => by
      have hks : i ∉ ks := fun hmem => by simp [Circ.enter, hmem] at hi
      have hik : i ≠ k := fun e => hks (e ▸ he.mem)
      simpa [Circ.enter, hik] using h.blank i (by simpa [Circ.enter, hks] using hi)
    owned := fun i hi => by
      by_cases hks : i ∈ ks
      · simpa [Circ.enter, hks] using he.member
      · simpa [Circ.enter, hks] using h.owned i (by simpa [Circ.enter, hks] using hi)
    staged := fun i st hi => by
      by_cases hks : i ∈ ks
      · cases kind <;> simp [Circ.enter, hks] at hi ⊢ <;> simp [← hi, stateFitsKind]
      · simpa [Circ.enter, hks] using h.staged i st (by simpa [Circ.enter, hks] using hi)
    fitting := fun i m' hm' => by
      by_cases hik : i = k
      · subst hik
        obtain rfl : m' = m := by simpa [Circ.enter] using hm'
        exact ⟨x, hx, by simpa [Circ.enter, he.mem] using hfits⟩
      · have hm'' : m' ∈ v.lines i := by simpa [Circ.enter, hik] using hm'
        have hks := hother i (h.present_of_lines (List.ne_nil_of_mem hm''))
        simpa [Circ.enter, hks] using h.fitting i m' hm''
    carrying := fun i hi => by
      by_cases hks : i ∈ ks
      · by_cases hik : i = k
        · subst hik
          by_cases hkind : kind = .braillePart <;> simp [Circ.enter, hks, hkind]
        · have hkind : kind = .braillePart := by
            by_contra hkind
            simp [he.alone hkind, hik] at hks
          simp [Circ.enter, hks, hkind, hik, Ne.symm hik, (h.blank i (he.free i hks).1).1]
      · have hpi : v.present i = true := by simpa [Circ.enter, hks] using hi
        simpa [Circ.enter, hks, hne i hpi] using h.carrying i hpi
    single := fun i hi hkind => by
      by_cases hik : i = k
      · subst hik; simp [Circ.enter]
      · by_cases hks : i ∈ ks
        · simp [Circ.enter, hik, (h.blank i (he.free i hks).1).1]
        · have hpi : v.present i = true := by simpa [Circ.enter, hks] using hi
          simpa [Circ.enter, hik] using h.single i hpi (by simpa [Circ.enter, hks] using hkind)
    markedPosted := fun i hi => by
      obtain ⟨hst, hl⟩ := h.markedPosted i hi
      have hpi := h.present_of_stage hst
      simpa [Circ.enter, hother i hpi, hne i hpi] using And.intro hst hl
    openPacks := fun n' hn' => by
      by_cases hpack : kind = .pack ∧ n' = n
      · obtain ⟨rfl, rfl⟩ := hpack
        simp [Circ.enter, he.mem]
      · have hopen : (v.enter ks k n m kind cls parts).openPack n' = v.openPack n' := by
          by_cases hkind : kind = .pack
          · have hn'' : n' ≠ n := fun e => hpack ⟨hkind, e⟩
            simp [Circ.enter, hkind, hn'']
          · simp [Circ.enter, hkind]
        rw [hopen] at hn' ⊢
        obtain ⟨hst, hp⟩ := h.openPacks n' hn'
        simp [Circ.enter, hother _ (h.present_of_stage hst), hst, hp]
    assembling := fun i hi => by
      by_cases hks : i ∈ ks
      · have hkind : kind = .pack := by
          by_contra hkind
          simp [Circ.enter, hks, hkind] at hi
        obtain rfl : i = k := by simpa [he.alone (by simp [hkind])] using hks
        simp [Circ.enter, hks, hkind]
      · have hst : v.stage i = some .assembling := by simpa [Circ.enter, hks] using hi
        have hold := h.assembling i hst
        by_cases hkind : kind = .pack
        · have hn' : (v.shape i).patron ≠ n := fun e => by
            rw [e, he.openPack hkind] at hold
            have := (h.consPool i (h.present_of_stage hst)).1
            omega
          simpa [Circ.enter, hks, hkind, hn'] using hold
        · simpa [Circ.enter, hks, hkind] using hold
    sealedList := ⟨h.sealedList.1, fun i => by rw [hstage _ (by simp) (by simp)]; exact h.sealedList.2 i⟩
    duplicating := fun i hi => h.duplicating i ((hstage _ (by simp) (by simp) i).mp hi)
    packing := fun j i hj => by
      obtain ⟨hcls, hst, hjob⟩ := h.packing j i hj
      exact ⟨hcls, (hstage _ (by simp) (by simp) i).mpr hst, hjob⟩
    heads := fun i hi hkind => by
      by_cases hks : i ∈ ks
      · have hkind' : kind = .braillePart := by simpa [Circ.enter, hks] using hkind
        simp [Circ.IsPart, Circ.enter, hks, hkind', he.mem]
      · obtain ⟨⟨hp, hk, hh⟩, hpat⟩ := h.heads i (by simpa [Circ.enter, hks] using hi) (by simpa [Circ.enter, hks] using hkind)
        simp [Circ.IsPart, Circ.enter, hks, hother _ hp, hp, hk, hh, hpat]
    together := fun i hi hkind hturn => by
      by_cases hks : i ∈ ks
      · have hkind' : kind = .braillePart := by simpa [Circ.enter, hks] using hkind
        simp [Circ.enter, hks, hkind', he.mem]
      · have hp : v.present i = true := by simpa [Circ.enter, hks] using hi
        have hk : (v.shape i).kind = .braillePart := by simpa [Circ.enter, hks] using hkind
        obtain ⟨⟨hph, -, -⟩, -⟩ := h.heads i hp hk
        simpa [Circ.enter, hks, hother _ hph] using h.together i hp hk (by simpa [Circ.enter, hks] using hturn)
    whole := fun i hi => by
      by_cases hks : i ∈ ks
      · obtain ⟨-, hk, hh⟩ := hi
        have hkind : kind = .braillePart := by simpa [Circ.enter, hks] using hk
        obtain rfl : i = k := by simpa [Circ.enter, hks, hkind] using hh.symm
        obtain ⟨hnodup, hlen⟩ := he.set hkind
        have hcount : (v.enter ks i n m kind cls parts).partsOf i = parts := by
          rw [← hlen, ← tally_mem hnodup fun a ha => (he.free a ha).2.2]
          refine tally_congr fun a => if_congr ?_ rfl rfl
          by_cases ha : a ∈ ks
          · simp [Circ.IsPart, Circ.enter, ha, hkind]
          · simp only [ha, iff_false]
            intro hpart
            have hp : v.IsPart i a := by simpa [Circ.IsPart, Circ.enter, ha] using hpart
            have hhead := (h.heads a hp.1 hp.2.1).1.1
            rw [hp.2.2, habsent] at hhead
            exact absurd hhead (by simp)
        obtain ⟨-, -, hback, hheadBack⟩ := h.blank i habsent
        have hpos := List.length_pos_of_mem hks
        rw [hcount]
        simp only [Circ.enter, hks, if_true, hback, hheadBack, Bool.toNat_false, Nat.add_zero, true_and]
        omega
      · have hold := h.whole i ((enter_isPart_iff he hks i).mp hi)
        rw [partsOf_congr (enter_isPart_iff he hks) rfl]
        simpa [Circ.enter, hks] using hold
    headPosted := fun i hpart hi => by
      have hks : i ∉ ks := fun hmem => by
        have hfalse := (h.blank i (he.free i hmem).1).2.2.2
        exact absurd (hfalse.symm.trans hi) (by simp)
      exact (hstage _ (by simp) (by simp) i).mpr (h.headPosted i ((enter_isPart_iff he hks i).mp hpart) hi)
    readyQueue := ⟨h.readyQueue.1, fun i => by
      rw [hstage _ (by simp) (by simp), hstage _ (by simp) (by simp)]; exact h.readyQueue.2 i⟩
    releases := ⟨h.releases.1, fun i => by rw [hstage _ (by simp) (by simp)]; exact h.releases.2 i⟩
    emptySetup := fun hs => by simp [Circ.enter, he.service] at hs }

end Enter

end Sys2Proof.Machine
end

