-- ==== Sys2Proof/Proofs/CirculationStages.lean ====
section
/-! PROOFS. The moves of a consignment through its states, of jobs, and of the records of patrons and titles. -/

namespace Sys2Proof.Machine

open Function (update)
open Circ (SameLines live_change openOf_change linesOf_change naming_change marksOf_change marksOf_congr partsOf_change partsOf_congr)

variable {v : Circ}

/-! ## Chains, marks and parts (R53, R142, R167) -/

/-- Record `k` leaves the chain of patron `n`. -/
def Circ.unchain (k n : Nat) (v : Circ) : Circ :=
  { v with carrier := update v.carrier k none, chain := update v.chain n ((v.chain n).erase k) }

theorem Lawful.unchain (h : Lawful v) {k n : Nat} (hk : v.carrier k = some n) : Lawful (v.unchain k n) :=
  { h with chained := h.chained.erase hk }

/-- Record `k` of patron `n` is marked overdue. -/
def Circ.mark (k n : Nat) (v : Circ) : Circ :=
  { v with marked := update v.marked k true, overdue := update v.overdue n (v.overdue n + 1) }

theorem Lawful.mark (h : Lawful v) {k n : Nat} (hst : v.stage k = some .posted) (hn : (v.shape k).patron = n)
    (hlines : v.lines k ≠ []) (hmark : v.marked k = false) : Lawful (v.mark k n) :=
  { h with
    marks := fun n' => by
      have key := marksOf_change (v := v) (w := v.mark k n) (k := k) (p := n) (mark := true) rfl
        (h.consPool k (h.present_of_stage hst)).2 (fun i hi => ⟨by simp [Circ.mark, hi], fun _ => rfl⟩) (fun _ => hn)
        (by simp [Circ.mark]) n'
      have hold := h.marks n'
      change update v.overdue n _ n' = _
      simp only [hmark, Bool.false_eq_true, and_false, if_false, and_true] at key
      by_cases hn' : n = n'
      · subst hn'
        simp only [if_true, Function.update_self] at key ⊢
        omega
      · simp only [hn', if_false, Function.update_of_ne (Ne.symm hn')] at key ⊢
        omega
    blank := fun i hi => by
      have hik : i ≠ k := fun e => by
        have : v.present i = false := hi
        simp [e, h.present_of_stage hst] at this
      simpa [Circ.mark, hik] using h.blank i hi
    markedPosted := fun i hi => by
      by_cases hik : i = k
      · subst hik
        exact ⟨hst, hlines⟩
      · exact h.markedPosted i (by simpa [Circ.mark, hik] using hi) }

/-- Part `k` of the set headed by `a` comes back. -/
def Circ.partBack (k a : Nat) (v : Circ) : Circ :=
  { v with
    present := update v.present k false
    stage := update v.stage k none
    shape := update v.shape k .free
    back := update (update v.back a (v.back a + 1)) k 0
    headBack := update v.headBack k false
    jobOf := update v.jobOf k 0 }

theorem Lawful.partBack (h : Lawful v) {k a : Nat} (hst : v.stage k = some .posted) (hpart : v.IsPart a k) (hne : k ≠ a)
    (hback : v.back a + 1 < (v.shape a).parts) : Lawful (v.partBack k a) := by
  obtain ⟨hp, hkind, hhead⟩ := hpart
  obtain ⟨⟨hpa, hka, hha⟩, -⟩ := hhead ▸ h.heads k hp hkind
  have hnil : v.lines k = [] := (h.carrying k hp).mpr ⟨hkind, hhead ▸ Ne.symm hne⟩
  have hunmarked : v.marked k = false := by
    by_contra hm
    exact h.lines_of_marked (by simpa using hm) hnil
  have hstage : ∀ i st, (v.partBack k a).stage i = some st ↔ i ≠ k ∧ v.stage i = some st := fun i st => by
    by_cases hi : i = k <;> simp [Circ.partBack, hi]
  have hstage' : ∀ i st, st ≠ .posted → ((v.partBack k a).stage i = some st ↔ v.stage i = some st) := fun i st hne => by
    rw [hstage]
    refine and_iff_right_of_imp fun hi e => ?_
    rw [e, hst] at hi
    exact hne (Option.some.inj hi).symm
  have hpres : ∀ i, (v.partBack k a).present i = true ↔ i ≠ k ∧ v.present i = true := fun i => by
    by_cases hi : i = k <;> simp [Circ.partBack, hi]
  have hshape : ∀ i, i ≠ k → (v.partBack k a).shape i = v.shape i := fun i hi => by simp [Circ.partBack, hi]
  have hpartIff : ∀ b i, (v.partBack k a).IsPart b i ↔ i ≠ k ∧ v.IsPart b i := fun b i => by
    by_cases hi : i = k
    · simp [Circ.IsPart, Circ.partBack, hi]
    · simp [Circ.IsPart, Circ.partBack, hi]
  have hsame : ∀ i, v.lines i ≠ [] → (v.partBack k a).shape i = v.shape i := fun i hi =>
    hshape i fun e => hi (e ▸ hnil)
  have hheadOf : ∀ i, v.present i = true → (v.shape i).kind = .braillePart → (v.shape i).head ≠ k := fun i hi hki e => by
    have := (h.heads i hi hki).1.2.2
    rw [e, hhead] at this
    exact hne this.symm
  have hslines : SameLines k v (v.partBack k a) := fun i _ => ⟨rfl, hsame i⟩
  exact { h with
    consPool := fun i hi => h.consPool i ((hpres i).mp hi).2
    present := fun i => by
      by_cases hi : i = k
      · simp [Circ.partBack, hi]
      · simpa [Circ.partBack, hi] using h.present i
    once := fun n m => by
      have key := openOf_change (p := 0) (l := []) hslines rfl (h.consPool k hp).2 (fun e => absurd rfl e) hnil n m
      have hold := h.once n m
      change v.live n m + (v.partBack k a).openOf n m ≤ 1
      simp only [hnil, List.count_nil, ite_self] at key
      omega
    charged := fun n => by
      have key := linesOf_change (p := 0) (l := []) hslines rfl (h.consPool k hp).2 (fun e => absurd rfl e) hnil n
      have hold := h.charged n
      change v.charge n = _
      simp only [hnil, List.length_nil, ite_self] at key
      omega
    marks := fun n => (h.marks n).trans (marksOf_congr (v := v) (w := v.partBack k a)
      (fun i => ⟨rfl, fun hm => hsame i (h.lines_of_marked hm)⟩) rfl n).symm
    blank := fun i hi => by
      by_cases hik : i = k
      · simp [Circ.partBack, hik, hnil, hunmarked]
      · have hai : i ≠ a := fun e => by simp [Circ.partBack, e, Ne.symm hne, hpa] at hi
        simpa [Circ.partBack, hik, hai] using h.blank i (by simpa [Circ.partBack, hik] using hi)
    owned := fun i hi => by
      obtain ⟨hik, hpi⟩ := (hpres i).mp hi
      rw [hshape i hik]
      exact h.owned i hpi
    staged := fun i st hi => by
      obtain ⟨hik, hsti⟩ := (hstage i st).mp hi
      rw [hshape i hik]
      exact h.staged i st hsti
    fitting := fun i m hm => by
      rw [hsame i (List.ne_nil_of_mem hm)]
      exact h.fitting i m hm
    carrying := fun i hi => by
      obtain ⟨hik, hpi⟩ := (hpres i).mp hi
      rw [hshape i hik]
      exact h.carrying i hpi
    single := fun i hi hki => by
      obtain ⟨hik, hpi⟩ := (hpres i).mp hi
      rw [hshape i hik] at hki
      exact h.single i hpi hki
    markedPosted := fun i hi => by
      obtain ⟨hsti, hli⟩ := h.markedPosted i hi
      exact ⟨(hstage i _).mpr ⟨fun e => hli (e ▸ hnil), hsti⟩, hli⟩
    openPacks := fun n hn => by
      obtain ⟨hsti, hpat⟩ := h.openPacks n hn
      have hik := ((hstage _ _).mp ((hstage' _ _ (by simp)).mpr hsti)).1
      exact ⟨(hstage' _ _ (by simp)).mpr hsti, (congrArg ConsShape.patron (hshape _ hik)).trans hpat⟩
    assembling := fun i hi => by
      obtain ⟨hik, hsti⟩ := (hstage i _).mp hi
      rw [hshape i hik]
      exact h.assembling i hsti
    sealedList := ⟨h.sealedList.1, fun i => by rw [hstage' _ _ (by simp)]; exact h.sealedList.2 i⟩
    duplicating := fun i hi => by
      obtain ⟨hik, hsti⟩ := (hstage i _).mp hi
      simpa [Circ.partBack, hik] using h.duplicating i hsti
    packing := fun j i hj => by
      obtain ⟨hcls, hsti, hjob⟩ := h.packing j i hj
      have hsti' := (hstage' i _ (by simp)).mpr hsti
      have hik := ((hstage i _).mp hsti').1
      exact ⟨hcls, hsti', by simpa [Circ.partBack, hik] using hjob⟩
    heads := fun i hi hki => by
      obtain ⟨hik, hpi⟩ := (hpres i).mp hi
      rw [hshape i hik] at hki ⊢
      have hh := hheadOf i hpi hki
      rw [hpartIff, hshape _ hh]
      exact ⟨⟨hh, (h.heads i hpi hki).1⟩, (h.heads i hpi hki).2⟩
    together := fun i hi hki hturn => by
      obtain ⟨hik, hpi⟩ := (hpres i).mp hi
      rw [hshape i hik] at hki hturn ⊢
      rw [hstage' _ _ (by simp), hstage' _ _ (by simp)]
      exact h.together i hpi hki hturn
    whole := fun i hi => by
      obtain ⟨hik, hpi⟩ := (hpartIff i i).mp hi
      obtain ⟨hsum, hlt⟩ := h.whole i hpi
      have key := partsOf_change (v := v) (w := v.partBack k a) (h := i) rfl (h.consPool k hp).2
        (fun b hb => by rw [hpartIff]; exact and_iff_right hb)
      have hgone : ¬ (v.partBack k a).IsPart i k := fun hb => ((hpartIff i k).mp hb).1 rfl
      rw [hshape i hik]
      by_cases hia : i = a
      · subst hia
        have hpk : v.IsPart i k := ⟨hp, hkind, hhead⟩
        rw [if_pos hpk, if_neg hgone] at key
        have hb : (v.partBack k i).back i = v.back i + 1 := by simp [Circ.partBack, hik]
        have hhb : (v.partBack k i).headBack i = v.headBack i := by simp [Circ.partBack, hik]
        rw [hb, hhb]
        omega
      · have hpk : ¬ v.IsPart i k := fun hb => hia (hb.2.2.symm.trans hhead)
        rw [if_neg hpk, if_neg hgone] at key
        have hb : (v.partBack k a).back i = v.back i := by simp [Circ.partBack, hik, hia]
        have hhb : (v.partBack k a).headBack i = v.headBack i := by simp [Circ.partBack, hik]
        rw [hb, hhb]
        omega
    headPosted := fun i hpart hi => by
      obtain ⟨hik, hold⟩ := (hpartIff i i).mp hpart
      exact (hstage i _).mpr ⟨hik, h.headPosted i hold (by simpa [Circ.partBack, hik] using hi)⟩
    readyQueue := ⟨h.readyQueue.1, fun i => by
      rw [hstage' _ _ (by simp), hstage' _ _ (by simp)]; exact h.readyQueue.2 i⟩
    releases := ⟨h.releases.1, fun i => by rw [hstage' _ _ (by simp)]; exact h.releases.2 i⟩
    emptySetup := fun hs => absurd (show v.setup = true from hs) (by simp [h.not_setup hp]) }

/-- The head of a set comes back before the set is complete: its record stands, with its line. -/
def Circ.headReturns (a : Nat) (v : Circ) : Circ :=
  { v with back := update v.back a (v.back a + 1), headBack := update v.headBack a true }

theorem Lawful.headReturns (h : Lawful v) {a : Nat} (hst : v.stage a = some .posted) (hfirst : v.headBack a = false)
    (hback : v.back a + 1 < (v.shape a).parts) : Lawful (v.headReturns a) :=
  { h with
    blank := fun i hi => by
      have hia : i ≠ a := fun e => by
        have : v.present i = false := hi
        simp [e, h.present_of_stage hst] at this
      simpa [Circ.headReturns, hia] using h.blank i hi
    whole := fun i hi => by
      obtain ⟨hsum, hlt⟩ := h.whole i hi
      change v.partsOf i + _ = _ ∧ _
      by_cases hia : i = a
      · subst hia
        simp only [Circ.headReturns, Function.update_self, Bool.toNat_true, hfirst, Bool.toNat_false] at hsum ⊢
        omega
      · simpa [Circ.headReturns, hia] using And.intro hsum hlt
    headPosted := fun i hpart hi => by
      by_cases hia : i = a
      · exact hia ▸ hst
      · exact h.headPosted i hpart (by simpa [Circ.headReturns, hia] using hi) }

/-! ## The ready queue and the releases (R62, R69, R105, R106, R109, R111, R119) -/

/-- Consignments move between the ready queue, the sorter and the post. -/
def Circ.restage (stage : Nat → Option ConsState) (ready released : List Nat) (v : Circ) : Circ :=
  { v with stage := stage, ready := ready, released := released }

/-- States that every kind of consignment can be in (R51). -/
def Dispatched (st : Option ConsState) : Prop := st = some .ready ∨ st = some .releasing ∨ st = some .posted

theorem Lawful.restage (h : Lawful v) {stage : Nat → Option ConsState} {ready released : List Nat}
    (hstage : ∀ k, stage k = v.stage k ∨ ((v.stage k = some .ready ∨ v.stage k = some .releasing) ∧ Dispatched (stage k)))
    (hready : ready.Nodup ∧ ∀ k, k ∈ ready ↔ stage k = some .ready ∨ stage k = some .releasing)
    (hreleased : released.Nodup ∧ ∀ k, k ∈ released ↔ stage k = some .releasing) : Lawful (v.restage stage ready released) := by
  have hiff : ∀ k st, st ≠ .ready → st ≠ .releasing → st ≠ .posted → (stage k = some st ↔ v.stage k = some st) :=
    fun k st h1 h2 h3 => by
      rcases hstage k with heq | ⟨hold | hold, hnew | hnew | hnew⟩
      · rw [heq]
      all_goals simp [hold, hnew, h1.symm, h2.symm, h3.symm]
  have hposted : ∀ k, v.stage k = some .posted → stage k = some .posted := fun k hk => by
    rcases hstage k with heq | ⟨hold | hold, -⟩
    · rw [heq, hk]
    all_goals simp [hk] at hold
  have hsome : ∀ k, (stage k).isSome = (v.stage k).isSome := fun k => by
    rcases hstage k with heq | ⟨hold | hold, hnew | hnew | hnew⟩
    · rw [heq]
    all_goals simp [hold, hnew]
  exact { h with
    present := fun k => (h.present k).trans (hsome k).symm
    staged := fun k st hk => by
      rcases hstage k with heq | ⟨-, hnew⟩
      · exact h.staged k st (heq ▸ hk)
      · change stage k = some st at hk
        rw [hk] at hnew
        change stateFitsKind (v.shape k).kind st = true
        rcases hnew with hnew | hnew | hnew <;> rw [Option.some.inj hnew] <;> cases (v.shape k).kind <;> rfl
    markedPosted := fun k hk => ⟨hposted k (h.markedPosted k hk).1, (h.markedPosted k hk).2⟩
    openPacks := fun n hn => ⟨(hiff _ _ (by simp) (by simp) (by simp)).mpr (h.openPacks n hn).1, (h.openPacks n hn).2⟩
    assembling := fun k hk => h.assembling k ((hiff _ _ (by simp) (by simp) (by simp)).mp hk)
    sealedList := ⟨h.sealedList.1, fun k =>
      (h.sealedList.2 k).trans (hiff _ _ (by simp) (by simp) (by simp)).symm⟩
    duplicating := fun k hk => h.duplicating k ((hiff _ _ (by simp) (by simp) (by simp)).mp hk)
    packing := fun j k hj => by
      obtain ⟨hcls, hst, hjob⟩ := h.packing j k hj
      exact ⟨hcls, (hiff _ _ (by simp) (by simp) (by simp)).mpr hst, hjob⟩
    together := fun k hk hkind hturn =>
      ((hiff _ _ (by simp) (by simp) (by simp)).trans (h.together k hk hkind hturn)).trans
        (hiff _ _ (by simp) (by simp) (by simp)).symm
    headPosted := fun k hpart hk => hposted k (h.headPosted k hpart hk)
    readyQueue := hready
    releases := hreleased }

/-- *Consignment ready*: record `k` joins the tail of the ready queue; a job that named it names it no more. -/
def Circ.arrive (k : Nat) (v : Circ) : Circ :=
  { v with
    stage := update v.stage k (some .ready)
    ready := v.ready ++ [k]
    jobOf := update v.jobOf k 0
    pack := fun j => (v.pack j).filter fun i => decide (i ≠ k) }

theorem Lawful.arrive (h : Lawful v) {k : Nat}
    (hst : v.stage k = some .duplicating ∨
      (v.stage k = some .picking ∧ ((v.shape k).kind = .braillePart → v.turning = (v.shape k).head))) :
    Lawful (v.arrive k) := by
  have hne : v.stage k ≠ some .ready ∧ v.stage k ≠ some .releasing ∧ v.stage k ≠ some .posted ∧ v.stage k ≠ some .sealed ∧
      v.stage k ≠ some .assembling := by
    rcases hst with hst | ⟨hst, -⟩ <;> simp [hst]
  obtain ⟨hready, hreleasing, hposted, hsealed, hassembling⟩ := hne
  have hstage : ∀ i st, st ≠ .ready → ((v.arrive k).stage i = some st ↔ i ≠ k ∧ v.stage i = some st) := fun i st hne => by
    by_cases hi : i = k
    · simp [Circ.arrive, hi, hne.symm]
    · simp [Circ.arrive, hi]
  have hkeep : ∀ i st, st ≠ .ready → v.stage k ≠ some st → ((v.arrive k).stage i = some st ↔ v.stage i = some st) :=
    fun i st hne hk => by
      rw [hstage i st hne]
      exact and_iff_right_of_imp fun hi e => hk (e ▸ hi)
  have hpresent : v.present k = true := by rcases hst with hst | ⟨hst, -⟩ <;> exact h.present_of_stage hst
  exact { h with
    present := fun i => by
      by_cases hi : i = k
      · simp [Circ.arrive, hi, hpresent]
      · simpa [Circ.arrive, hi] using h.present i
    staged := fun i st hi => by
      by_cases hik : i = k
      · obtain rfl : st = .ready := by simpa [Circ.arrive, hik] using hi.symm
        change stateFitsKind (v.shape i).kind _ = true
        cases (v.shape i).kind <;> rfl
      · exact h.staged i st (by simpa [Circ.arrive, hik] using hi)
    markedPosted := fun i hi => ⟨(hkeep i _ (by simp) hposted).mpr (h.markedPosted i hi).1, (h.markedPosted i hi).2⟩
    openPacks := fun n hn => ⟨(hkeep _ _ (by simp) hassembling).mpr (h.openPacks n hn).1, (h.openPacks n hn).2⟩
    assembling := fun i hi => h.assembling i ((hkeep i _ (by simp) hassembling).mp hi)
    sealedList := ⟨h.sealedList.1, fun i => (h.sealedList.2 i).trans (hkeep i _ (by simp) hsealed).symm⟩
    duplicating := fun i hi => by
      obtain ⟨hik, hsti⟩ := (hstage i _ (by simp)).mp hi
      simp [Circ.arrive, hik, h.duplicating i hsti]
    packing := fun j i hj => by
      obtain ⟨hpack, hik⟩ : v.pack j = some i ∧ i ≠ k := by simpa [Circ.arrive, Option.filter_eq_some_iff] using hj
      obtain ⟨hcls, hsti, hjob⟩ := h.packing j i hpack
      exact ⟨hcls, (hstage i _ (by simp)).mpr ⟨hik, hsti⟩, by simpa [Circ.arrive, hik] using hjob⟩
    together := fun i hi hkind hturn => by
      have hold := h.together i hi hkind hturn
      rcases hst with hst | ⟨hst, hset⟩
      · have hk : v.stage k ≠ some .picking := by simp [hst]
        exact ((hkeep _ _ (by simp) hk).trans hold).trans (hkeep _ _ (by simp) hk).symm
      · have hik : i ≠ k := fun e => hturn (by subst e; exact hset hkind)
        have hhead : (v.shape i).head ≠ k := fun e => by
          obtain ⟨⟨-, hkh, hhh⟩, -⟩ := h.heads i hi hkind
          rw [e] at hkh hhh
          exact hturn ((hset hkh).trans (hhh.trans e.symm))
        change (v.arrive k).stage (v.shape i).head = some .picking ↔ _
        rw [hstage _ _ (by simp), hstage _ _ (by simp)]
        simpa [hik, hhead] using hold
    headPosted := fun i hpart hi => (hkeep i _ (by simp) hposted).mpr (h.headPosted i hpart hi)
    readyQueue := by
      obtain ⟨hnodup, hmem⟩ := h.readyQueue
      have hnew : k ∉ v.ready := by simp [hmem, hready, hreleasing]
      refine ⟨(List.perm_append_singleton k v.ready).nodup_iff.mpr (List.nodup_cons.mpr ⟨hnew, hnodup⟩), fun i => ?_⟩
      by_cases hik : i = k
      · simp [Circ.arrive, hik]
      · simp [Circ.arrive, hik, hmem]
    releases := ⟨h.releases.1, fun i => (h.releases.2 i).trans (hkeep i _ (by simp) hreleasing).symm⟩ }

/-- The parts of the set headed by `a` begin to turn READY, or, under 0, have all turned. -/
def Circ.turn (a : Nat) (v : Circ) : Circ := { v with turning := a }

theorem Lawful.turn (h : Lawful v) (h0 : v.turning = 0) (a : Nat) : Lawful (v.turn a) :=
  { h with
    together := fun i hi hkind _ => h.together i hi hkind (by
      have := (h.consPool _ (h.heads i hi hkind).1.1).1
      omega) }

theorem Lawful.turned (h : Lawful v) (hall : ∀ i, v.IsPart v.turning i → v.stage i ≠ some .picking) : Lawful (v.turn 0) :=
  { h with
    together := fun i hi hkind _ => by
      by_cases hturn : v.turning = (v.shape i).head
      · have hhead := (h.heads i hi hkind).1
        rw [← hturn] at hhead
        exact iff_of_false (hturn ▸ hall _ hhead) (hall i ⟨hi, hkind, hturn.symm⟩)
      · exact h.together i hi hkind hturn }

end Sys2Proof.Machine
end

