-- ==== Sys2Proof/Proofs/CirculationRecords.lean ====
section
/-! PROOFS. The moves of packs to their jobs, of jobs, and of the records of patrons and titles. -/

namespace Sys2Proof.Machine

open Function (update)

variable {v : Circ}

/-! ## Sealing and jobs (R58, R60, R61, R91, R97) -/

/-- The open pack `k` of patron `n` is sealed and waits for a job record. -/
def Circ.sealWait (k n : Nat) (v : Circ) : Circ :=
  { v with
    stage := update v.stage k (some .sealed)
    openPack := update v.openPack n 0
    sealed := v.sealed ++ [k] }

/-- Pack `k` takes job record `j`; `openPack` and `sealed` are the open packs and the sealed list without it. -/
def Circ.takeJob (k j cls : Nat) (openPack : Nat → Nat) (sealed : List Nat) (v : Circ) : Circ :=
  { v with
    stage := update v.stage k (some .duplicating)
    jobOf := update v.jobOf k j
    pack := update v.pack j (some k)
    jobCls := update v.jobCls j (some cls)
    openPack := openPack
    sealed := sealed }

theorem Lawful.sealWait (h : Lawful v) {k n : Nat} (hst : v.stage k = some .assembling) (hn : (v.shape k).patron = n)
    (hfull : ∀ j, 1 ≤ j → j ≤ v.geo.j → v.jobCls j ≠ none) : Lawful (v.sealWait k n) := by
  have hpack := h.pack_of_assembling hst
  have hpresent := h.present_of_stage hst
  have hstage : ∀ i st, st ≠ .sealed → ((v.sealWait k n).stage i = some st ↔ i ≠ k ∧ v.stage i = some st) :=
    fun i st hne => by by_cases hi : i = k <;> simp [Circ.sealWait, hi, hne.symm]
  have hkeep : ∀ i st, st ≠ .sealed → st ≠ .assembling → ((v.sealWait k n).stage i = some st ↔ v.stage i = some st) :=
    fun i st h1 h2 => by
      rw [hstage i st h1]
      refine and_iff_right_of_imp fun hi e => h2 ?_
      rw [e, hst] at hi
      exact (Option.some.inj hi).symm
  exact { h with
    present := fun i => by
      by_cases hi : i = k
      · simp [Circ.sealWait, hi, hpresent]
      · simpa [Circ.sealWait, hi] using h.present i
    staged := fun i st hi => by
      by_cases hik : i = k
      · subst hik
        obtain rfl : st = .sealed := by simpa [Circ.sealWait] using hi.symm
        change stateFitsKind (v.shape i).kind _ = true
        rw [hpack]; rfl
      · exact h.staged i st (by simpa [Circ.sealWait, hik] using hi)
    markedPosted := fun i hi => ⟨(hkeep i _ (by simp) (by simp)).mpr (h.markedPosted i hi).1, (h.markedPosted i hi).2⟩
    openPacks := fun n' hn' => by
      have hne : n' ≠ n := fun e => by simp [Circ.sealWait, e] at hn'
      have hsame : (v.sealWait k n).openPack n' = v.openPack n' := by simp [Circ.sealWait, hne]
      rw [hsame] at hn' ⊢
      obtain ⟨hold, hp⟩ := h.openPacks n' hn'
      exact ⟨(hstage _ _ (by simp)).mpr ⟨fun e => hne (hp.symm.trans (e ▸ hn)), hold⟩, hp⟩
    assembling := fun i hi => by
      obtain ⟨hik, hold⟩ := (hstage i _ (by simp)).mp hi
      have hopen := h.assembling i hold
      have hne : (v.shape i).patron ≠ n := fun e => hik (by rw [← hopen, e, ← hn, h.assembling k hst])
      simpa [Circ.sealWait, hne] using hopen
    sealedList := by
      obtain ⟨hnodup, hmem⟩ := h.sealedList
      have hnew : k ∉ v.sealed := by simp [hmem, hst]
      refine ⟨(List.perm_append_singleton k v.sealed).nodup_iff.mpr (List.nodup_cons.mpr ⟨hnew, hnodup⟩), fun i => ?_⟩
      by_cases hik : i = k
      · simp [Circ.sealWait, hik]
      · simp [Circ.sealWait, hik, hmem]
    full := fun _ => hfull
    duplicating := fun i hi => h.duplicating i ((hkeep i _ (by simp) (by simp)).mp hi)
    packing := fun j i hj => by
      obtain ⟨hcls, hsti, hjob⟩ := h.packing j i hj
      exact ⟨hcls, (hkeep i _ (by simp) (by simp)).mpr hsti, hjob⟩
    together := fun i hi hkind hturn => by
      rw [hkeep _ _ (by simp) (by simp), hkeep _ _ (by simp) (by simp)]
      exact h.together i hi hkind hturn
    headPosted := fun i hpart hi => (hkeep i _ (by simp) (by simp)).mpr (h.headPosted i hpart hi)
    readyQueue := ⟨h.readyQueue.1, fun i => by
      rw [hkeep _ _ (by simp) (by simp), hkeep _ _ (by simp) (by simp)]; exact h.readyQueue.2 i⟩
    releases := ⟨h.releases.1, fun i => by rw [hkeep _ _ (by simp) (by simp)]; exact h.releases.2 i⟩ }

/-- Pack `k` is on its way to a job: in assembly, no pack waiting, or the first that waits. -/
def Circ.Takes (k : Nat) (openPack : Nat → Nat) (sealed : List Nat) (v : Circ) : Prop :=
  (v.stage k = some .assembling ∧ openPack = update v.openPack (v.shape k).patron 0 ∧ v.sealed = [] ∧ sealed = []) ∨
    (v.stage k = some .sealed ∧ openPack = v.openPack ∧ v.sealed = k :: sealed)

theorem Lawful.pack_of_sealed (h : Lawful v) {k : Nat} (hk : v.stage k = some .sealed) : (v.shape k).kind = .pack := by
  have := h.staged k _ hk
  cases hkind : (v.shape k).kind <;> simp_all [stateFitsKind]

theorem Lawful.takeJob (h : Lawful v) {k j cls : Nat} {openPack : Nat → Nat} {sealed : List Nat}
    (htake : v.Takes k openPack sealed) (hpool : 1 ≤ j ∧ j ≤ v.geo.j) (hfree : v.pack j = none) :
    Lawful (v.takeJob k j cls openPack sealed) := by
  have hold : (v.stage k = some .assembling ∨ v.stage k = some .sealed) :=
    htake.imp (fun ht => ht.1) (fun ht => ht.1)
  have hpack : (v.shape k).kind = .pack := hold.elim h.pack_of_assembling h.pack_of_sealed
  have hpresent : v.present k = true := hold.elim h.present_of_stage h.present_of_stage
  have hstage : ∀ i st, st ≠ .duplicating → ((v.takeJob k j cls openPack sealed).stage i = some st ↔ i ≠ k ∧ v.stage i = some st) :=
    fun i st hne => by by_cases hi : i = k <;> simp [Circ.takeJob, hi, hne.symm]
  have hkeep : ∀ i st, st ≠ .duplicating → st ≠ .assembling → st ≠ .sealed →
      ((v.takeJob k j cls openPack sealed).stage i = some st ↔ v.stage i = some st) := fun i st h1 h2 h3 => by
    rw [hstage i st h1]
    refine and_iff_right_of_imp fun hi e => ?_
    rw [e] at hi
    rcases hold with hold | hold <;> rw [hold, Option.some.injEq] at hi
    · exact h2 hi.symm
    · exact h3 hi.symm
  exact { h with
    jobPool := fun i c hi => by
      by_cases hij : i = j
      · exact hij ▸ hpool
      · exact h.jobPool i c (by simpa [Circ.takeJob, hij] using hi)
    present := fun i => by
      by_cases hi : i = k
      · simp [Circ.takeJob, hi, hpresent]
      · simpa [Circ.takeJob, hi] using h.present i
    staged := fun i st hi => by
      by_cases hik : i = k
      · subst hik
        obtain rfl : st = .duplicating := by simpa [Circ.takeJob] using hi.symm
        change stateFitsKind (v.shape i).kind _ = true
        rw [hpack]; rfl
      · exact h.staged i st (by simpa [Circ.takeJob, hik] using hi)
    markedPosted := fun i hi =>
      ⟨(hkeep i _ (by simp) (by simp) (by simp)).mpr (h.markedPosted i hi).1, (h.markedPosted i hi).2⟩
    openPacks := fun n hn => by
      change openPack n ≠ 0 at hn
      change (v.takeJob k j cls openPack sealed).stage (openPack n) = _ ∧ (v.shape (openPack n)).patron = n
      rw [hstage _ _ (by simp)]
      rcases htake with ⟨hst, hopen, -, -⟩ | ⟨hst, hopen, -⟩
      · have hne : n ≠ (v.shape k).patron := fun e => by simp [hopen, e] at hn
        have hsame : openPack n = v.openPack n := by simp [hopen, hne]
        rw [hsame] at hn ⊢
        obtain ⟨hold, hp⟩ := h.openPacks n hn
        exact ⟨⟨fun e => hne (e ▸ hp.symm), hold⟩, hp⟩
      · subst hopen
        obtain ⟨hold, hp⟩ := h.openPacks n hn
        exact ⟨⟨fun e => by rw [e, hst] at hold; simp at hold, hold⟩, hp⟩
    assembling := fun i hi => by
      obtain ⟨hik, hsti⟩ := (hstage i _ (by simp)).mp hi
      have hopeni := h.assembling i hsti
      change openPack (v.shape i).patron = i
      rcases htake with ⟨hst, hopen, -, -⟩ | ⟨hst, hopen, -⟩
      · have hne : (v.shape i).patron ≠ (v.shape k).patron := fun e => hik (by rw [← hopeni, e, h.assembling k hst])
        simpa [hopen, hne] using hopeni
      · rw [hopen, hopeni]
    sealedList := by
      obtain ⟨hnodup, hmem⟩ := h.sealedList
      rcases htake with ⟨hst, -, hnone, hnone'⟩ | ⟨hst, -, hcons⟩
      · refine ⟨by simp [Circ.takeJob, hnone'], fun i => ?_⟩
        rw [hstage i _ (by simp)]
        have : v.stage i ≠ some .sealed := fun hi => by simpa [hnone] using (hmem i).mpr hi
        simp [Circ.takeJob, hnone', this]
      · rw [hcons] at hnodup
        obtain ⟨hk, hrest⟩ := List.nodup_cons.mp hnodup
        refine ⟨hrest, fun i => ?_⟩
        rw [hstage i _ (by simp), ← hmem i, hcons, List.mem_cons]
        change i ∈ sealed ↔ _
        by_cases hik : i = k
        · simp [hik, hk]
        · simp [hik]
    full := fun hne i h1 h2 => by
      by_cases hij : i = j
      · simp [Circ.takeJob, hij]
      · have hsealed : v.sealed ≠ [] := by
          rcases htake with ⟨-, -, -, hnone⟩ | ⟨-, -, hcons⟩
          · exact absurd hnone hne
          · simp [hcons]
        simpa [Circ.takeJob, hij] using h.full hsealed i h1 h2
    duplicating := fun i hi => by
      by_cases hik : i = k
      · simp [Circ.takeJob, hik]
      · have hpi := h.duplicating i (by simpa [Circ.takeJob, hik] using hi)
        have hne : v.jobOf i ≠ j := fun e => by simp [e, hfree] at hpi
        simpa [Circ.takeJob, hik, hne] using hpi
    packing := fun i a hi => by
      by_cases hij : i = j
      · subst hij
        obtain rfl : a = k := by simpa [Circ.takeJob] using hi.symm
        simp [Circ.takeJob]
      · obtain ⟨hcls, hst, hjob⟩ := h.packing i a (by simpa [Circ.takeJob, hij] using hi)
        have hak : a ≠ k := fun e => by rw [e] at hst; rcases hold with hold | hold <;> simp [hold] at hst
        simp [Circ.takeJob, hij, hak, hcls, hst, hjob]
    holding := fun i hi => by
      by_cases hij : i = j
      · simp [Circ.takeJob, hij]
      · simpa [Circ.takeJob, hij] using h.holding i hi
    together := fun i hi hkind hturn => by
      rw [hkeep _ _ (by simp) (by simp) (by simp), hkeep _ _ (by simp) (by simp) (by simp)]
      exact h.together i hi hkind hturn
    headPosted := fun i hpart hi => (hkeep i _ (by simp) (by simp) (by simp)).mpr (h.headPosted i hpart hi)
    readyQueue := ⟨h.readyQueue.1, fun i => by
      rw [hkeep _ _ (by simp) (by simp) (by simp), hkeep _ _ (by simp) (by simp) (by simp)]; exact h.readyQueue.2 i⟩
    releases := ⟨h.releases.1, fun i => by rw [hkeep _ _ (by simp) (by simp) (by simp)]; exact h.releases.2 i⟩
    emptySetup := fun hs => absurd (show v.setup = true from hs) (by simp [h.not_setup hpresent]) }

/-- Job record `j` becomes a STOCK run of a class. -/
def Circ.newRun (j cls : Nat) (v : Circ) : Circ := { v with jobCls := update v.jobCls j (some cls) }

theorem Lawful.newRun (h : Lawful v) {j cls : Nat} (hpool : 1 ≤ j ∧ j ≤ v.geo.j) (hservice : v.setup = false) :
    Lawful (v.newRun j cls) := by
  have hsome : ∀ i, v.jobCls i ≠ none → (v.newRun j cls).jobCls i ≠ none := fun i hi => by
    by_cases hij : i = j <;> simp [Circ.newRun, hij, hi]
  exact { h with
    jobPool := fun i c hi => by
      by_cases hij : i = j
      · exact hij ▸ hpool
      · exact h.jobPool i c (by simpa [Circ.newRun, hij] using hi)
    full := fun hne i h1 h2 => hsome i (h.full hne i h1 h2)
    packing := fun i k hi => ⟨hsome i (h.packing i k hi).1, (h.packing i k hi).2⟩
    holding := fun i hi => hsome i (h.holding i hi)
    emptySetup := fun hs => absurd (show v.setup = true from hs) (by simp [hservice]) }

/-- Job record `j` is freed. -/
def Circ.dropJob (j : Nat) (v : Circ) : Circ := { v with jobCls := update v.jobCls j none }

theorem Lawful.dropJob (h : Lawful v) {j : Nat} (hpack : v.pack j = none) (hholds : v.holds j = false) (hsealed : v.sealed = []) :
    Lawful (v.dropJob j) :=
  { h with
    jobPool := fun i c hi => by
      have hij : i ≠ j := fun e => by simp [Circ.dropJob, e] at hi
      exact h.jobPool i c (by simpa [Circ.dropJob, hij] using hi)
    full := fun hne => absurd hsealed hne
    packing := fun i k hi => by
      have hij : i ≠ j := fun e => by
        have : v.pack i = some k := hi
        simp [e, hpack] at this
      simpa [Circ.dropJob, hij] using h.packing i k hi
    holding := fun i hi => by
      have hij : i ≠ j := fun e => by
        have : v.holds i = true := hi
        simp [e, hholds] at this
      simpa [Circ.dropJob, hij] using h.holding i hi
    emptySetup := fun hs => by
      obtain ⟨hclaim, hpresent, hjobs⟩ := h.emptySetup hs
      refine ⟨hclaim, hpresent, fun i => ?_⟩
      by_cases hij : i = j <;> simp [Circ.dropJob, hij, hjobs] }

/-- Job `j` takes or gives up a cartridge. -/
def Circ.setHolds (j : Nat) (b : Bool) (v : Circ) : Circ := { v with holds := update v.holds j b }

theorem Lawful.setHolds (h : Lawful v) {j : Nat} {b : Bool} (hj : b = true → v.jobCls j ≠ none) : Lawful (v.setHolds j b) :=
  { h with
    holding := fun i hi => by
      by_cases hij : i = j
      · subst hij; exact hj (by simpa [Circ.setHolds] using hi)
      · exact h.holding i (by simpa [Circ.setHolds, hij] using hi) }

/-! ## Patrons and titles (R10 to R19, R154 to R157) -/

/-- Patron `n` is present, of a cartridge class. -/
def Circ.setPatron (n cls : Nat) (v : Circ) : Circ :=
  { v with member := update v.member n true, patronCls := update v.patronCls n cls }

theorem Lawful.setPatron (h : Lawful v) {n cls : Nat} (hpool : 1 ≤ n ∧ n ≤ v.geo.p) : Lawful (v.setPatron n cls) :=
  { h with
    memberPool := fun i hi => by
      by_cases hin : i = n
      · exact hin ▸ hpool
      · exact h.memberPool i (by simpa [Circ.setPatron, hin] using hi)
    owned := fun k hk => by
      by_cases hn : (v.shape k).patron = n
      · simp [Circ.setPatron, hn]
      · simpa [Circ.setPatron, hn] using h.owned k hk }

/-- Patron `n` is absent. -/
def Circ.dropPatron (n : Nat) (v : Circ) : Circ :=
  { v with member := update v.member n false, patronCls := update v.patronCls n 0 }

theorem Lawful.dropPatron (h : Lawful v) {n : Nat} (hnone : ∀ k, v.present k = true → (v.shape k).patron ≠ n) :
    Lawful (v.dropPatron n) :=
  { h with
    memberPool := fun i hi => by
      have hin : i ≠ n := fun e => by simp [Circ.dropPatron, e] at hi
      exact h.memberPool i (by simpa [Circ.dropPatron, hin] using hi)
    owned := fun k hk => by simpa [Circ.dropPatron, hnone k hk] using h.owned k hk }

/-- A patron without open lines has no consignment: a part without a line has a head with one. -/
theorem Lawful.no_consignment (h : Lawful v) {n : Nat} (hcharge : v.charge n = 0) {k : Nat} (hk : v.present k = true) :
    (v.shape k).patron ≠ n := by
  have hlines : ∀ i, v.present i = true → (v.shape i).patron = n → v.lines i = [] := fun i hi hn => by
    have hle := le_tally (f := fun i => if (v.shape i).patron = n then (v.lines i).length else 0) (h.consPool i hi).2
    have hsum := h.charged n
    unfold Circ.linesOf at hsum
    rw [hcharge] at hsum
    rw [← hsum] at hle
    exact List.length_eq_zero_iff.mp (by simpa [hn] using hle)
  intro hn
  obtain ⟨hkind, hne⟩ := (h.carrying k hk).mp (hlines k hk hn)
  obtain ⟨⟨hp, -, hself⟩, hpat⟩ := h.heads k hk hkind
  exact ((h.carrying _ hp).mp (hlines _ hp (hpat.trans hn))).2 hself

/-- Title `m` is present, in a shape. -/
def Circ.setTitle (m : Nat) (x : TitleShape) (v : Circ) : Circ := { v with title := update v.title m (some x) }

theorem Lawful.setTitle (h : Lawful v) {m : Nat} {x : TitleShape} (hpool : 1 ≤ m ∧ m ≤ v.geo.t)
    (hkept : CopiesKept x (v.copies m) (v.shelf m) (v.out m) (v.repair m))
    (hfits : ∀ k, m ∈ v.lines k → x.fits (v.shape k).kind) : Lawful (v.setTitle m x) :=
  { h with
    titlePool := fun i y hi => by
      by_cases him : i = m
      · exact him ▸ hpool
      · exact h.titlePool i y (by simpa [Circ.setTitle, him] using hi)
    copied := fun i y hi => by
      by_cases him : i = m
      · subst him
        obtain rfl : x = y := by simpa [Circ.setTitle] using hi
        exact hkept
      · exact h.copied i y (by simpa [Circ.setTitle, him] using hi)
    fitting := fun k i hi => by
      by_cases him : i = m
      · subst him; exact ⟨x, by simp [Circ.setTitle], hfits k hi⟩
      · simpa [Circ.setTitle, him] using h.fitting k i hi }

/-- No line names a title without copies out. -/
theorem Lawful.not_named (h : Lawful v) {m : Nat} (hout : v.out m = 0) (k : Nat) : m ∉ v.lines k := by
  intro hm
  have hk := h.consPool k (h.present_of_lines (List.ne_nil_of_mem hm))
  have hle := le_tally (f := fun k => (v.lines k).count m) hk.2
  have hsum := h.lent m
  unfold Circ.naming at hsum
  rw [hout] at hsum
  rw [← hsum] at hle
  exact absurd (List.count_pos_iff.mpr hm) (by omega)

/-- The copies of title `m` are counted anew. -/
def Circ.restock (m copies shelf repair : Nat) (v : Circ) : Circ :=
  { v with
    copies := update v.copies m copies, shelf := update v.shelf m shelf, repair := update v.repair m repair }

theorem Lawful.restock (h : Lawful v) {m copies shelf repair : Nat}
    (hkept : ∀ x, v.title m = some x → CopiesKept x copies shelf (v.out m) repair) : Lawful (v.restock m copies shelf repair) :=
  { h with
    copied := fun i x hx => by
      by_cases him : i = m
      · subst him; simpa [Circ.restock] using hkept x hx
      · simpa [Circ.restock, him] using h.copied i x hx }

/-- Title `m` is absent. -/
def Circ.dropTitle (m : Nat) (v : Circ) : Circ :=
  { v with title := update v.title m none, copies := update v.copies m 0, shelf := update v.shelf m 0 }

theorem Lawful.dropTitle (h : Lawful v) {m : Nat} (hout : v.out m = 0) : Lawful (v.dropTitle m) :=
  { h with
    titlePool := fun i x hi => by
      have him : i ≠ m := fun e => by simp [Circ.dropTitle, e] at hi
      exact h.titlePool i x (by simpa [Circ.dropTitle, him] using hi)
    copied := fun i x hi => by
      have him : i ≠ m := fun e => by simp [Circ.dropTitle, e] at hi
      simpa [Circ.dropTitle, him] using h.copied i x (by simpa [Circ.dropTitle, him] using hi)
    fitting := fun k i hi => by
      have him : i ≠ m := fun e => h.not_named hout k (e ▸ hi)
      simpa [Circ.dropTitle, him] using h.fitting k i hi }

/-- The part is open for service. -/
def Circ.serve (v : Circ) : Circ := { v with setup := false }

theorem Lawful.serve (h : Lawful v) : Lawful v.serve := { h with emptySetup := fun hs => by simp [Circ.serve] at hs }

end Sys2Proof.Machine
end

