-- ==== Sys2Proof/Proofs/CirculationCounts.lean ====
section
/-! PROOFS. The classes and the counts of R148 under each move of the circulation. -/

namespace Sys2Proof.Machine

open Function (update)
open Circ (heldOf_change heldOf_congr consignedOf_change consignedOf_congr shelvedOf_change benchOf_change)

variable {v w : Circ} {a a' : Nat → ClassAccount}

/-! ## Records that count as before -/

/-- The four sums of a class are the same in `w` as in `v`. -/
def SameCounts (v w : Circ) : Prop :=
  ∀ c, w.heldOf c = v.heldOf c ∧ w.consignedOf c = v.consignedOf c ∧ w.shelvedOf c = v.shelvedOf c ∧ w.benchOf c = v.benchOf c

theorem Counted.same (h : Counted v a) (hsame : SameCounts v w) (hclassed : Classed w) : Counted w a where
  agrees := fun c hc => by
    obtain ⟨h1, h2, h3, h4⟩ := h.agrees c hc
    obtain ⟨e1, e2, e3, e4⟩ := hsame c
    exact ⟨e1 ▸ h1, e2 ▸ h2, e3 ▸ h3, e4 ▸ h4⟩
  classed := hclassed

/-- Moves of requests, charges, chains, marks and sets touch nothing that a class counts. -/
theorem SameCounts.of_fields (hgeo : w.geo = v.geo) (hholds : w.holds = v.holds) (hcls : w.jobCls = v.jobCls)
    (hshape : w.shape = v.shape) (hstage : w.stage = v.stage) (htitle : w.title = v.title) (hshelf : w.shelf = v.shelf)
    (hrepair : w.repair = v.repair) : SameCounts v w := fun c => by
  simp [Circ.heldOf, Circ.consignedOf, Circ.shelvedOf, Circ.benchOf, *]

theorem Counted.endClaim (h : Counted v a) (r n m : Nat) : Counted (v.endClaim r n m) a :=
  h.same (.of_fields rfl rfl rfl rfl rfl rfl rfl rfl) { h.classed with }

theorem Counted.addClaim (h : Counted v a) (r n m : Nat) (wish waiting : List Nat) :
    Counted (v.addClaim r n m wish waiting) a :=
  h.same (.of_fields rfl rfl rfl rfl rfl rfl rfl rfl) { h.classed with }

theorem Counted.reline (h : Counted v a) {k : Nat} (hk : (v.shape k).kind = .pack) (n : Nat) (l : List Nat) (charge : Nat)
    (out : Nat → Nat) : Counted (v.reline k n l charge out) a :=
  h.same (.of_fields rfl rfl rfl rfl rfl rfl rfl rfl)
    { h.classed with
      copy := fun i hi => by
        have hik : i ≠ k := fun e => by
          have : (v.shape i).kind = .shelfAudio := hi
          simp [e, hk] at this
        simpa [Circ.reline, hik] using h.classed.copy i hi }

theorem Counted.unchain (h : Counted v a) (k n : Nat) : Counted (v.unchain k n) a :=
  h.same (.of_fields rfl rfl rfl rfl rfl rfl rfl rfl) { h.classed with }

theorem Counted.mark (h : Counted v a) (k n : Nat) : Counted (v.mark k n) a :=
  h.same (.of_fields rfl rfl rfl rfl rfl rfl rfl rfl) { h.classed with }

theorem Counted.headReturns (h : Counted v a) (k : Nat) : Counted (v.headReturns k) a :=
  h.same (.of_fields rfl rfl rfl rfl rfl rfl rfl rfl) { h.classed with }

theorem Counted.turn (h : Counted v a) (k : Nat) : Counted (v.turn k) a :=
  h.same (.of_fields rfl rfl rfl rfl rfl rfl rfl rfl) { h.classed with }

theorem Counted.setPatron (h : Counted v a) {n cls : Nat} (hcls : IsClass cls) : Counted (v.setPatron n cls) a :=
  h.same (.of_fields rfl rfl rfl rfl rfl rfl rfl rfl)
    { h.classed with
      patron := fun i hi => by
        by_cases hin : i = n
        · simpa [Circ.setPatron, hin] using hcls
        · simpa [Circ.setPatron, hin] using h.classed.patron i (by simpa [Circ.setPatron, hin] using hi) }

theorem Counted.dropPatron (h : Counted v a) (n : Nat) : Counted (v.dropPatron n) a :=
  h.same (.of_fields rfl rfl rfl rfl rfl rfl rfl rfl)
    { h.classed with
      patron := fun i hi => by
        have hin : i ≠ n := fun e => by simp [Circ.dropPatron, e] at hi
        simpa [Circ.dropPatron, hin] using h.classed.patron i (by simpa [Circ.dropPatron, hin] using hi) }

theorem Counted.serve (h : Counted v a) : Counted v.serve a :=
  h.same (.of_fields rfl rfl rfl rfl rfl rfl rfl rfl)
    { h.classed with bench := fun hs => by simp [Circ.serve] at hs }

/-! ## Packs and jobs -/

theorem Counted.sealWait (h : Counted v a) {k : Nat} (hst : v.stage k = some .assembling) (n : Nat) :
    Counted (v.sealWait k n) a := by
  refine h.same (fun c => ⟨rfl, consignedOf_congr (v := v) (w := v.sealWait k n) (fun i => ?_) rfl, rfl, rfl⟩) { h.classed with }
  by_cases hik : i = k
  · subst hik
    cases hkind : (v.shape i).kind <;> simp [Circ.Consigned, Circ.sealWait, hst, hkind, consigns]
  · simp [Circ.Consigned, Circ.sealWait, hik]

theorem Counted.takeJob (h : Counted v a) (hl : Lawful v) {k j : Nat} {openPack : Nat → Nat} {sealed : List Nat}
    (htake : v.Takes k openPack sealed) (hholds : v.holds j = false) :
    Counted (v.takeJob k j (v.shape k).cls openPack sealed) a := by
  have hold : v.stage k = some .assembling ∨ v.stage k = some .sealed := htake.imp (fun ht => ht.1) (fun ht => ht.1)
  have hpack : (v.shape k).kind = .pack := hold.elim hl.pack_of_assembling hl.pack_of_sealed
  have hpresent : v.present k = true := hold.elim hl.present_of_stage hl.present_of_stage
  refine h.same (fun c => ⟨?_, ?_, rfl, rfl⟩) { h.classed with job := fun i c hi => ?_, pack := fun i b hi => ?_ }
  · refine heldOf_congr (v := v) (w := v.takeJob k j (v.shape k).cls openPack sealed) (fun i => ?_) rfl
    by_cases hij : i = j <;> simp [Circ.Holds, Circ.takeJob, hij, hholds]
  · refine consignedOf_congr (v := v) (w := v.takeJob k j (v.shape k).cls openPack sealed) (fun i => ?_) rfl
    by_cases hik : i = k
    · subst hik
      rcases hold with hold | hold <;> simp [Circ.Consigned, Circ.takeJob, hold, hpack, consigns]
    · simp [Circ.Consigned, Circ.takeJob, hik]
  · by_cases hij : i = j
    · obtain rfl : (v.shape k).cls = c := by simpa [Circ.takeJob, hij] using hi
      exact h.classed.cons k hpresent (by simp [hpack])
    · exact h.classed.job i c (by simpa [Circ.takeJob, hij] using hi)
  · by_cases hij : i = j
    · obtain rfl : b = k := by simpa [Circ.takeJob, hij] using hi.symm
      simp [Circ.takeJob, hij]
    · simpa [Circ.takeJob, hij] using h.classed.pack i b (by simpa [Circ.takeJob, hij] using hi)

theorem Counted.newRun (h : Counted v a) {j cls : Nat} (hholds : v.holds j = false) (hpack : v.pack j = none)
    (hcls : IsClass cls) : Counted (v.newRun j cls) a := by
  refine h.same (fun c => ⟨?_, rfl, rfl, rfl⟩) { h.classed with job := fun i c hi => ?_, pack := fun i b hi => ?_ }
  · refine heldOf_congr (v := v) (w := v.newRun j cls) (fun i => ?_) rfl
    by_cases hij : i = j <;> simp [Circ.Holds, Circ.newRun, hij, hholds]
  · by_cases hij : i = j
    · obtain rfl : cls = c := by simpa [Circ.newRun, hij] using hi
      exact hcls
    · exact h.classed.job i c (by simpa [Circ.newRun, hij] using hi)
  · have hij : i ≠ j := fun e => by
      have : v.pack i = some b := hi
      simp [e, hpack] at this
    simpa [Circ.newRun, hij] using h.classed.pack i b hi

theorem Counted.dropJob (h : Counted v a) {j : Nat} (hholds : v.holds j = false) (hpack : v.pack j = none) :
    Counted (v.dropJob j) a := by
  refine h.same (fun c => ⟨?_, rfl, rfl, rfl⟩) { h.classed with job := fun i c hi => ?_, pack := fun i b hi => ?_ }
  · refine heldOf_congr (v := v) (w := v.dropJob j) (fun i => ?_) rfl
    by_cases hij : i = j <;> simp [Circ.Holds, Circ.dropJob, hij, hholds]
  · have hij : i ≠ j := fun e => by simp [Circ.dropJob, e] at hi
    exact h.classed.job i c (by simpa [Circ.dropJob, hij] using hi)
  · have hij : i ≠ j := fun e => by
      have : v.pack i = some b := hi
      simp [e, hpack] at this
    simpa [Circ.dropJob, hij] using h.classed.pack i b hi

/-- A job that takes a cartridge counts as holding one. -/
theorem heldOf_take {j cls : Nat} (hl : Lawful v) (hj : v.jobCls j = some cls) (hholds : v.holds j = false) (c : Nat) :
    (v.setHolds j true).heldOf c = v.heldOf c + if c = cls then 1 else 0 := by
  have key := heldOf_change (v := v) (w := v.setHolds j true) (k := j) (c := c) rfl (hl.jobPool j cls hj).2
    (fun i hi => by simp [Circ.Holds, Circ.setHolds, hi])
  have hnew : (v.setHolds j true).Holds c j ↔ c = cls := by simp [Circ.Holds, Circ.setHolds, hj, eq_comm]
  have hold : ¬ v.Holds c j := by simp [Circ.Holds, hholds]
  rw [if_neg hold, Nat.add_zero] at key
  rw [key]
  exact congrArg _ (if_congr hnew rfl rfl)

/-- A job that gives up its cartridge counts no more. -/
theorem heldOf_give {j cls : Nat} (hl : Lawful v) (hj : v.jobCls j = some cls) (hholds : v.holds j = true) (c : Nat) :
    (v.setHolds j false).heldOf c + (if c = cls then 1 else 0) = v.heldOf c := by
  have key := heldOf_change (v := v) (w := v.setHolds j false) (k := j) (c := c) rfl (hl.jobPool j cls hj).2
    (fun i hi => by simp [Circ.Holds, Circ.setHolds, hi])
  have hold : v.Holds c j ↔ c = cls := by simp [Circ.Holds, hholds, hj, eq_comm]
  have hnew : ¬ (v.setHolds j false).Holds c j := by simp [Circ.Holds, Circ.setHolds]
  rw [if_neg hnew] at key
  rw [← Nat.add_zero (v.heldOf c), ← key]
  exact congrArg _ (if_congr hold.symm rfl rfl)

theorem Classed.setHolds (h : Classed v) (j : Nat) (b : Bool) : Classed (v.setHolds j b) := { h with }

/-! ## Consignments -/

theorem Classed.enter (h : Classed v) (hl : Lawful v) {ks : List Nat} {k n m : Nat} {kind : ConsKind} {cls parts : Nat}
    (he : Enters ks k n m kind parts v) (hcls : kind ≠ .braillePart → IsClass cls)
    (hcopy : kind = .shelfAudio → ∀ x, v.title m = some x → x.shelfClass = cls) : Classed (v.enter ks k n m kind cls parts) :=
  { h with
    pack := fun j i hj => by
      have hi : i ∉ ks := fun hmem => by
        have := (hl.packing j i hj).2.1
        simp [hl.stage_of_absent (he.free i hmem).1] at this
      simpa [Circ.enter, hi] using h.pack j i hj
    cons := fun i hi hkind => by
      by_cases hks : i ∈ ks
      · simpa [Circ.enter, hks] using hcls (by simpa [Circ.enter, hks] using hkind)
      · simpa [Circ.enter, hks] using
          h.cons i (by simpa [Circ.enter, hks] using hi) (by simpa [Circ.enter, hks] using hkind)
    copy := fun i hi m' hm' x hx => by
      by_cases hik : i = k
      · subst hik
        obtain rfl : m' = m := by simpa [Circ.enter] using hm'
        simpa [Circ.enter, he.mem] using hcopy (by simpa [Circ.enter, he.mem] using hi) x hx
      · have hm'' : m' ∈ v.lines i := by simpa [Circ.enter, hik] using hm'
        have hks : i ∉ ks := fun hmem => by simp [(hl.blank i (he.free i hmem).1).1] at hm''
        simpa [Circ.enter, hks] using h.copy i (by simpa [Circ.enter, hks] using hi) m' hm'' x hx
    bench := fun hs => by simp [Circ.enter, he.service] at hs }

/-- A SHELF audio copy to pick takes a consigned cartridge; a pack in assembly and a set take none. -/
theorem consignedOf_enter (hl : Lawful v) {ks : List Nat} {k n m : Nat} {kind : ConsKind} {cls parts : Nat}
    (he : Enters ks k n m kind parts v) (c : Nat) :
    (v.enter ks k n m kind cls parts).consignedOf c = v.consignedOf c + if kind = .shelfAudio ∧ c = cls then 1 else 0 := by
  have hpool := (he.free k he.mem).2.2
  have hnone : ∀ i ∈ ks, ¬ v.Consigned c i := fun i hi => by
    have := hl.stage_of_absent (he.free i hi).1
    cases hkind : (v.shape i).kind <;> simp [Circ.Consigned, this, hkind, consigns]
  have key := consignedOf_change (v := v) (w := v.enter ks k n m kind cls parts) (c := c) rfl hpool fun i hik => by
    by_cases hi : i ∈ ks
    · refine iff_of_false (fun hcons => ?_) (hnone i hi)
      have hkind : kind = .braillePart := by
        by_contra hkind
        simp [he.alone hkind, hik] at hi
      simp [Circ.Consigned, Circ.enter, hi, hkind, consigns] at hcons
    · simp [Circ.Consigned, Circ.enter, hi]
  rw [if_neg (hnone k he.mem)] at key
  rw [← Nat.add_zero (Circ.consignedOf _ c), key]
  refine congrArg _ (if_congr ?_ rfl rfl)
  cases kind <;> simp [Circ.Consigned, Circ.enter, he.mem, consigns, eq_comm]

theorem Classed.leave (h : Classed v) (hl : Lawful v) {ks : List Nat} {k n : Nat} (hleave : Leaves ks k n v) :
    Classed (v.leave ks k n) :=
  { h with
    pack := fun j i hj => by
      obtain ⟨hpack, hks⟩ : v.pack j = some i ∧ i ∉ ks := by simpa [Circ.leave, Option.filter_eq_some_iff] using hj
      simpa [Circ.leave, hks] using h.pack j i hpack
    cons := fun i hi hkind => by
      obtain ⟨hks, hp⟩ := leave_present_iff.mp hi
      rw [leave_shape hks] at hkind ⊢
      exact h.cons i hp hkind
    copy := fun i hi m hm x hx => by
      have hik : i ≠ k := fun e => by simp [Circ.leave, e] at hm
      obtain ⟨hlines, hshape⟩ := leave_sameLines hl hleave i hik
      rw [hlines] at hm
      rw [hshape (List.ne_nil_of_mem hm)] at hi ⊢
      exact h.copy i hi m hm x hx }

/-- The cartridge of a consignment that ends is consigned no more. -/
theorem consignedOf_leave (hl : Lawful v) {ks : List Nat} {k n : Nat} (hleave : Leaves ks k n v) (c : Nat) :
    (v.leave ks k n).consignedOf c + (if v.Consigned c k then 1 else 0) = v.consignedOf c := by
  have hgone : ∀ i ∈ ks, ¬ (v.leave ks k n).Consigned c i := fun i hi => by
    simp [Circ.Consigned, Circ.leave, hi, ConsShape.free, consigns]
  have key := consignedOf_change (v := v) (w := v.leave ks k n) (c := c) rfl (hl.consPool k hleave.present).2 fun i hik => by
    by_cases hi : i ∈ ks
    · refine iff_of_false (hgone i hi) fun hcons => ?_
      have hkind : (v.shape k).kind = .braillePart := by
        by_contra hkind
        simp [hleave.alone hkind, hik] at hi
      simp [Circ.Consigned, ((hleave.set hkind i).mp hi).2.1, consigns] at hcons
    · simp [Circ.Consigned, Circ.leave, hi]
  rw [if_neg (hgone k hleave.mem), Nat.add_zero] at key
  exact key

theorem Counted.partBack (h : Counted v a) (hl : Lawful v) {k b : Nat} (hpart : v.IsPart b k)
    (hlines : v.lines k = []) : Counted (v.partBack k b) a := by
  have hne : ∀ i, v.lines i ≠ [] → i ≠ k := fun i hi e => hi (e ▸ hlines)
  refine h.same (fun c => ⟨rfl, consignedOf_congr (v := v) (w := v.partBack k b) (fun i => ?_) rfl, rfl, rfl⟩)
    { h.classed with
      pack := fun j i hj => ?_
      cons := fun i hi hkind => ?_
      copy := fun i hi m hm x hx => ?_ }
  · by_cases hik : i = k
    · subst hik
      simp [Circ.Consigned, Circ.partBack, hpart.2.1, ConsShape.free, consigns]
    · simp [Circ.Consigned, Circ.partBack, hik]
  · have hik : i ≠ k := fun e => by
      have hst := (hl.packing j i hj).2.1
      have := hl.staged i _ hst
      rw [e, hpart.2.1] at this
      simp [stateFitsKind] at this
    simpa [Circ.partBack, hik] using h.classed.pack j i hj
  · have hik : i ≠ k := fun e => by simp [Circ.partBack, e] at hi
    simpa [Circ.partBack, hik] using
      h.classed.cons i (by simpa [Circ.partBack, hik] using hi) (by simpa [Circ.partBack, hik] using hkind)
  · have hik := hne i (List.ne_nil_of_mem hm)
    simpa [Circ.partBack, hik] using h.classed.copy i (by simpa [Circ.partBack, hik] using hi) m hm x hx

/-- From READY on every audio kind has its cartridge consigned. -/
theorem consigns_of_dispatched {kind : ConsKind} {st : Option ConsState} (h : Dispatched st) :
    consigns kind st = decide (kind ≠ .braillePart) := by
  rcases h with rfl | rfl | rfl <;> cases kind <;> rfl

theorem Counted.restage (h : Counted v a) {stage : Nat → Option ConsState} {ready released : List Nat}
    (hstage : ∀ k, stage k = v.stage k ∨ ((v.stage k = some .ready ∨ v.stage k = some .releasing) ∧ Dispatched (stage k))) :
    Counted (v.restage stage ready released) a := by
  refine h.same (fun c => ⟨rfl, consignedOf_congr (v := v) (w := v.restage stage ready released) (fun i => ?_) rfl, rfl, rfl⟩)
    { h.classed with }
  change (consigns (v.shape i).kind (stage i) = true ∧ (v.shape i).cls = c) ↔ _
  rcases hstage i with heq | ⟨hold, hnew⟩
  · rw [heq]
  · rw [consigns_of_dispatched hnew, Circ.Consigned, consigns_of_dispatched (hold.imp_right Or.inl)]

theorem Classed.arrive (h : Classed v) (k : Nat) : Classed (v.arrive k) :=
  { h with
    pack := fun j i hj => h.pack j i (by
      obtain ⟨hpack, -⟩ : v.pack j = some i ∧ i ≠ k := by simpa [Circ.arrive, Option.filter_eq_some_iff] using hj
      exact hpack) }

/-- A pack whose job is done takes a consigned cartridge; a picked copy has one, and a set has none (R62, R69). -/
theorem consignedOf_arrive (hl : Lawful v) {k : Nat} (hst : v.stage k = some .duplicating ∨ v.stage k = some .picking)
    (c : Nat) : (v.arrive k).consignedOf c =
      v.consignedOf c + if v.stage k = some .duplicating ∧ (v.shape k).cls = c then 1 else 0 := by
  have hpresent := hst.elim hl.present_of_stage hl.present_of_stage
  have key := consignedOf_change (v := v) (w := v.arrive k) (c := c) rfl (hl.consPool k hpresent).2
    (fun i hi => by simp [Circ.Consigned, Circ.arrive, hi])
  have hnew : (v.arrive k).Consigned c k ↔ (v.shape k).kind ≠ .braillePart ∧ (v.shape k).cls = c := by
    cases hkind : (v.shape k).kind <;> simp [Circ.Consigned, Circ.arrive, hkind, consigns]
  rcases hst with hst | hst
  · have hpack : (v.shape k).kind = .pack := by
      have := hl.staged k _ hst
      cases hkind : (v.shape k).kind <;> simp_all [stateFitsKind]
    have hold : ¬ v.Consigned c k := by simp [Circ.Consigned, hst, hpack, consigns]
    rw [if_neg hold, Nat.add_zero] at key
    rw [key]
    exact congrArg _ (if_congr (by simp [hnew, hpack, hst]) rfl rfl)
  · have hold : v.Consigned c k ↔ (v.arrive k).Consigned c k := by
      rw [hnew]
      have := hl.staged k _ hst
      cases hkind : (v.shape k).kind <;> simp_all [Circ.Consigned, stateFitsKind, consigns]
    rw [if_congr hold rfl rfl] at key
    simp only [hst, Option.some.injEq, reduceCtorEq, false_and, if_false, Nat.add_zero]
    exact Nat.add_right_cancel key

/-! ## Titles -/

theorem shelfAudioOf_some {x : TitleShape} {c : Nat} :
    shelfAudioOf (some x) c = true ↔ x.format = .audio ∧ x.policy = .shelf ∧ x.shelfClass = c := by
  simp [shelfAudioOf]

theorem Classed.restock (h : Classed v) {m copies shelf repair : Nat} (hbench : v.setup = true → repair = 0) :
    Classed (v.restock m copies shelf repair) :=
  { h with
    bench := fun hs i => by
      by_cases him : i = m
      · simpa [Circ.restock, him] using hbench hs
      · simpa [Circ.restock, him] using h.bench hs i }

theorem shelvedOf_restock (hl : Lawful v) {m copies shelf repair : Nat} {x : TitleShape} (hx : v.title m = some x) (c : Nat) :
    (v.restock m copies shelf repair).shelvedOf c + (if shelfAudioOf (some x) c then v.shelf m else 0) =
      v.shelvedOf c + (if shelfAudioOf (some x) c then shelf else 0) := by
  simpa only [hx] using shelvedOf_change (v := v) (w := v.restock m copies shelf repair) rfl (hl.titlePool m x hx).2
    (fun i hi => by simp [Circ.restock, hi]) hx (n := shelf) (by simp [Circ.restock]) c

theorem benchOf_restock (hl : Lawful v) {m copies shelf repair : Nat} {x : TitleShape} (hx : v.title m = some x) (c : Nat) :
    (v.restock m copies shelf repair).benchOf c + (if shelfAudioOf (some x) c then v.repair m else 0) =
      v.benchOf c + (if shelfAudioOf (some x) c then repair else 0) := by
  simpa only [hx] using benchOf_change (v := v) (w := v.restock m copies shelf repair) rfl (hl.titlePool m x hx).2
    (fun i hi => by simp [Circ.restock, hi]) hx (n := repair) (by simp [Circ.restock]) c

/-- A title takes a shape: one that keeps its class, or while it has no copies on the shelf and none on the bench. -/
theorem Counted.setTitle (h : Counted v a) {m : Nat} {x : TitleShape} (hpool : m ≤ v.geo.t)
    (hcls : x.format = .audio → x.policy = .shelf → IsClass x.shelfClass)
    (hsame : (∀ c, shelfAudioOf (some x) c = shelfAudioOf (v.title m) c) ∨ (v.shelf m = 0 ∧ v.repair m = 0))
    (hcopy : ∀ k, m ∈ v.lines k → (v.shape k).kind = .shelfAudio → x.shelfClass = (v.shape k).cls) :
    Counted (v.setTitle m x) a := by
  refine h.same (fun c => ⟨rfl, rfl, ?_, ?_⟩)
    { h.classed with
      title := fun i y hi => ?_
      copy := fun k hk i hi y hy => ?_ }
  · have key := shelvedOf_change (v := v) (w := v.setTitle m x) (x := some x) (n := v.shelf m) rfl hpool
      (fun i hi => by simp [Circ.setTitle, hi]) (by simp [Circ.setTitle]) rfl c
    rcases hsame with hsame | ⟨hzero, -⟩
    · rw [hsame c] at key
      exact Nat.add_right_cancel key
    · simpa [hzero] using key
  · have key := benchOf_change (v := v) (w := v.setTitle m x) (x := some x) (n := v.repair m) rfl hpool
      (fun i hi => by simp [Circ.setTitle, hi]) (by simp [Circ.setTitle]) rfl c
    rcases hsame with hsame | ⟨-, hzero⟩
    · rw [hsame c] at key
      exact Nat.add_right_cancel key
    · simpa [hzero] using key
  · by_cases him : i = m
    · obtain rfl : x = y := by simpa [Circ.setTitle, him] using hi
      exact hcls
    · exact h.classed.title i y (by simpa [Circ.setTitle, him] using hi)
  · by_cases him : i = m
    · subst him
      obtain rfl : x = y := by simpa [Circ.setTitle] using hy
      exact hcopy k hi hk
    · exact h.classed.copy k hk i hi y (by simpa [Circ.setTitle, him] using hy)

theorem Classed.dropTitle (h : Classed v) (m : Nat) : Classed (v.dropTitle m) :=
  { h with
    title := fun i x hi => by
      have him : i ≠ m := fun e => by simp [Circ.dropTitle, e] at hi
      exact h.title i x (by simpa [Circ.dropTitle, him] using hi)
    copy := fun k hk i hi x hx => by
      have him : i ≠ m := fun e => by simp [Circ.dropTitle, e] at hx
      exact h.copy k hk i hi x (by simpa [Circ.dropTitle, him] using hx) }

theorem shelvedOf_dropTitle (hpool : m ≤ v.geo.t) (c : Nat) :
    (v.dropTitle m).shelvedOf c + (if shelfAudioOf (v.title m) c then v.shelf m else 0) = v.shelvedOf c := by
  simpa [shelfAudioOf] using shelvedOf_change (v := v) (w := v.dropTitle m) (x := none) (n := 0) rfl hpool
    (fun i hi => by simp [Circ.dropTitle, hi]) (by simp [Circ.dropTitle]) (by simp [Circ.dropTitle]) c

theorem benchOf_dropTitle (hpool : m ≤ v.geo.t) (hrepair : v.repair m = 0) (c : Nat) : (v.dropTitle m).benchOf c = v.benchOf c := by
  simpa [shelfAudioOf, hrepair] using benchOf_change (v := v) (w := v.dropTitle m) (x := none) (n := 0) rfl hpool
    (fun i hi => by simp [Circ.dropTitle, hi]) (by simp [Circ.dropTitle]) hrepair c

end Sys2Proof.Machine
end

