-- ==== Sys2Proof/Proofs/CirculationView.lean ====
section
/-! PROOFS. The circulation of a state, and what each operation of the model writes of it. -/

namespace Sys2Proof.Machine

open Function (update)

/-! ## Reading a table as a function of record numbers -/

/-- A field of the record at a number, or what an absent record reads as. -/
def reads {α β : Type} (t : Table α) (d : β) (f : α → β) (k : Nat) : β := ((Table.get t k).map f).getD d

/-- The same with the records of a list read as absent. -/
def readsBut {α β : Type} (hidden : List Nat) (t : Table α) (d : β) (f : α → β) (k : Nat) : β :=
  if k ∈ hidden then d else reads t d f k

section Reads

variable {α β : Type} {t : Table α} {d : β} {f : α → β} {g : α → α} {k : Nat} {a : α} {hidden : List Nat}

theorem reads_some (h : Table.get t k = some a) : reads t d f k = f a := by simp [reads, h]

theorem reads_none (h : Table.get t k = none) : reads t d f k = d := by simp [reads, h]

theorem readsBut_shown (h : k ∉ hidden) : readsBut hidden t d f k = reads t d f k := by simp [readsBut, h]

theorem reads_put : reads (Table.put t k a) d f = update (reads t d f) k (f a) := by
  funext i
  by_cases hi : i = k
  · subst hi; simp [reads, Table.get_put_same]
  · simp [reads, Table.get_put_other t a hi, hi]

theorem reads_delete : reads (Table.delete t k) d f = update (reads t d f) k d := by
  funext i
  by_cases hi : i = k
  · subst hi; simp [reads, Table.get_delete_same]
  · simp [reads, Table.get_delete_other t hi, hi]

@[simp] theorem reads_modify_same (h : ∀ a, f (g a) = f a) : reads (Table.modify t k g) d f = reads t d f := by
  funext i
  by_cases hi : i = k
  · subst hi
    simp only [reads, Table.get_modify_same]
    cases Table.get t i <;> simp [h]
  · simp [reads, Table.get_modify_other t g hi]

/-- A change that keeps the field of the record that stands there. -/
theorem reads_modify_at (ha : Table.get t k = some a) (h : f (g a) = f a) : reads (Table.modify t k g) d f = reads t d f := by
  funext i
  by_cases hi : i = k
  · subst hi; simp [reads, Table.get_modify_same, ha, h]
  · simp [reads, Table.get_modify_other t g hi]

theorem reads_modify (φ : β → β) (h : ∀ a, f (g a) = φ (f a)) (hd : φ d = d ∨ (Table.get t k).isSome) :
    reads (Table.modify t k g) d f = update (reads t d f) k (φ (reads t d f k)) := by
  funext i
  by_cases hi : i = k
  · subst hi
    simp only [reads, Table.get_modify_same, Function.update_self]
    cases ha : Table.get t i with
    | none => simpa [ha, eq_comm] using hd
    | some a => simp [h]
  · simp [reads, Table.get_modify_other t g hi, hi]

/-- A change of the record that stands there. -/
theorem reads_modify_some (ha : Table.get t k = some a) : reads (Table.modify t k g) d f = update (reads t d f) k (f (g a)) := by
  funext i
  by_cases hi : i = k
  · subst hi; simp [reads, Table.get_modify_same, ha]
  · simp [reads, Table.get_modify_other t g hi, hi]

theorem readsBut_modify_some (ha : Table.get t k = some a) (h : k ∉ hidden) :
    readsBut hidden (Table.modify t k g) d f = update (readsBut hidden t d f) k (f (g a)) := by
  funext i
  by_cases hi : i = k
  · subst hi; simp [readsBut, h, reads_modify_some ha]
  · simp [readsBut, reads_modify_some ha, hi]

theorem readsBut_put (h : k ∉ hidden) : readsBut hidden (Table.put t k a) d f = update (readsBut hidden t d f) k (f a) := by
  funext i
  by_cases hi : i = k
  · subst hi; simp [readsBut, h, reads_put]
  · simp [readsBut, reads_put, hi]

theorem readsBut_delete : readsBut hidden (Table.delete t k) d f = update (readsBut hidden t d f) k d := by
  funext i
  by_cases hi : i = k
  · subst hi; simp [readsBut, reads_delete]
  · simp [readsBut, reads_delete, hi]

@[simp] theorem readsBut_modify_same (h : ∀ a, f (g a) = f a) : readsBut hidden (Table.modify t k g) d f = readsBut hidden t d f := by
  funext i
  simp [readsBut, h]

theorem readsBut_modify (φ : β → β) (h : ∀ a, f (g a) = φ (f a)) (hd : φ d = d ∨ (Table.get t k).isSome)
    (hk : k ∉ hidden) : readsBut hidden (Table.modify t k g) d f = update (readsBut hidden t d f) k (φ (readsBut hidden t d f k)) := by
  funext i
  by_cases hi : i = k
  · subst hi; simp [readsBut, hk, reads_modify φ h hd]
  · simp [readsBut, reads_modify φ h hd, hi]

/-- A change to a hidden record does not show. -/
theorem readsBut_modify_hidden (hk : k ∈ hidden) : readsBut hidden (Table.modify t k g) d f = readsBut hidden t d f := by
  funext i
  by_cases hi : i ∈ hidden
  · simp [readsBut, hi]
  · have hne : i ≠ k := fun e => hi (e ▸ hk)
    simp [readsBut, reads, Table.get_modify_other t g hne]

/-- One more hidden record reads as absent. -/
theorem readsBut_cons : readsBut (k :: hidden) t d f = update (readsBut hidden t d f) k d := by
  funext i
  by_cases hi : i = k <;> simp [readsBut, hi]

end Reads

/-! ## The circulation of a state -/

/-- What a state in the middle of a command's effects hides: consignments whose loan or failure is being closed, PACK jobs
whose pack has ended, jobs whose cartridge has been given up; and the set whose parts are turning READY. -/
structure Amid where
  cons : List Nat := []
  ended : List Nat := []
  loose : List Nat := []
  turning : Nat := 0

def titleShape (x : Title) : TitleShape := ⟨x.format, x.policy, x.shelfClass, x.volumes⟩

def Mode.isSetup (m : Mode) : Bool :=
  match m with
  | .setup => true
  | .service => false

/-- The patron on whose chain a consignment stands. -/
def carrierOf (c : Consignment) : Option Nat := if c.lines = [] then none else some c.patron

@[simp] theorem reads_carrier_same {t : Table Consignment} {k : Nat} {g : Consignment → Consignment}
    (hl : ∀ c, (g c).lines = c.lines) (hp : ∀ c, (g c).patron = c.patron) :
    reads (Table.modify t k g) none carrierOf = reads t none carrierOf :=
  reads_modify_same fun c => by simp only [carrierOf, hl, hp]

/-- A job with a cartridge (R148). -/
def Job.holds (x : Job) : Bool := decide (x.state = .active ∨ x.state = .parked)

/-- The circulation of a state. -/
def view (M : Amid) (s : State) : Circ where
  geo := s.management.geometry
  setup := s.management.mode.isSetup
  turning := M.turning
  member := reads s.records.patrons false fun _ => true
  patronCls := reads s.records.patrons 0 Patron.cartridgeClass
  wish := reads s.records.patrons [] Patron.wish
  chain := reads s.records.patrons [] Patron.chain
  openPack := reads s.records.patrons 0 Patron.openPack
  charge := reads s.records.patrons 0 Patron.charge
  overdue := reads s.records.patrons 0 Patron.overdue
  title := reads s.records.titles none fun x => some (titleShape x)
  waiting := reads s.records.titles [] Title.waiting
  copies := reads s.records.titles 0 Title.copies
  shelf := reads s.records.titles 0 Title.shelf
  out := reads s.records.titles 0 Title.out
  repair := reads s.records.titles 0 Title.repair
  claim := reads s.requests none fun q => some (q.patron, q.title)
  present := readsBut M.cons s.assembly.cons false fun _ => true
  stage := readsBut M.cons s.assembly.cons none fun c => some c.state
  shape := readsBut M.cons s.assembly.cons .free fun c => ⟨c.kind, c.patron, c.cartridgeClass, c.head, c.parts⟩
  lines := readsBut M.cons s.assembly.cons [] fun c => c.lines.map Line.title
  opened := readsBut M.cons s.assembly.cons true fun c => c.lines.all fun l => decide (l.state = .isOpen)
  marked := readsBut M.cons s.assembly.cons false Consignment.overdue
  back := readsBut M.cons s.assembly.cons 0 Consignment.returned
  headBack := readsBut M.cons s.assembly.cons false Consignment.headReturned
  jobOf := readsBut M.cons s.assembly.cons 0 Consignment.job
  carrier := reads s.assembly.cons none carrierOf
  sealed := s.assembly.sealedList
  ready := s.dispatch.ready
  released := s.dispatch.outstanding.map Release.consignment
  jobCls := reads s.scheduler.jobs none fun x => some x.cartridgeClass
  pack := readsBut M.ended s.scheduler.jobs none fun x => if x.kind = .pack then some x.consignment else none
  holds := readsBut M.loose s.scheduler.jobs false Job.holds

theorem view_freeRequest (M : Amid) (r : Nat) (q : Request) (s : State) :
    view M (freeRequest r q s) = (view M s).endClaim r q.patron q.title := by
  simp [view, freeRequest, Circ.endClaim, reads_delete, titleShape]
  exact ⟨reads_modify (fun l : List Nat => l.erase r) (fun _ => rfl) (.inl rfl),
    reads_modify (fun l : List Nat => l.erase r) (fun _ => rfl) (.inl rfl)⟩

section View

variable {M : Amid} {s : State} {n m k : Nat} {c : Consignment}

theorem view_grantLine {l : Line} {used : Consignment → Nat} (hc : Table.get s.assembly.cons k = some c) (hk : k ∉ M.cons)
    (hlines : c.lines ≠ []) (hl : l.state = .isOpen) (hp : (Table.get s.records.patrons n).isSome)
    (hx : (Table.get s.records.titles l.title).isSome) :
    view M (grant n l.title (modCons k (fun c => { c with lines := c.lines ++ [l], used := used c }) s)) =
      (view M s).reline k n ((view M s).lines k ++ [l.title]) ((view M s).charge n + 1)
        (update (view M s).out l.title ((view M s).out l.title + 1)) := by
  have hcarrier : reads (Table.modify s.assembly.cons k fun c => { c with lines := c.lines ++ [l], used := used c }) none
      carrierOf = reads s.assembly.cons none carrierOf := by
    rw [reads_modify_at hc (by simp [carrierOf, hlines])]
  simp [view, grant, Circ.reline, titleShape, hl, hcarrier]
  exact ⟨reads_modify (· + 1) (fun _ => rfl) (.inr hp), reads_modify (· + 1) (fun _ => rfl) (.inr hx),
    readsBut_modify (· ++ [l.title]) (by simp) (.inr (by simp [hc])) hk⟩

end View

end Sys2Proof.Machine
end

