-- ==== Sys2Proof/Proofs/JobPlaces.lean ====
section
/-! PROOFS. Where the jobs stand: what the counts of R148 need of R74 and R75. Each queue holds QUEUED jobs of its level, once
each, and the places of a bay hold jobs of that bay; a `loose` job, whose cartridge has been given up, may stand anywhere. -/

namespace Sys2Proof.Machine

/-- Job `j` is in a state at bay `b`. -/
def JobAt (s : State) (j : Nat) (st : JobState) (b : Nat) : Prop :=
  ∃ x, Table.get s.scheduler.jobs j = some x ∧ x.state = st ∧ x.bay = b

/-- Job `j` is QUEUED at a level. -/
def JobWaits (s : State) (j l : Nat) : Prop :=
  ∃ x, Table.get s.scheduler.jobs j = some x ∧ x.state = .queued ∧ x.priority = l

/-- The jobs in the places of a bay record are jobs of bay `b`. -/
structure BayPlaced (loose : List Nat) (s : State) (b : Nat) (bay : Bay) : Prop where
  active : bay.active ≠ 0 → bay.active ∈ loose ∨ JobAt s bay.active .active b
  nodup : bay.stack.Nodup
  stack : ∀ j ∈ bay.stack, j ∈ loose ∨ JobAt s j .parked b
  preemptor : bay.preemptor ≠ 0 → bay.preemptor ∈ loose ∨ JobAt s bay.preemptor .pending b

/-- Every queue and every bay holds its own jobs. -/
structure Placed (loose : List Nat) (s : State) : Prop where
  queues : ∀ l, (queueAt s l).Nodup ∧ ∀ j ∈ queueAt s l, JobWaits s j l
  bays : ∀ b, BayPlaced loose s b (bayAt s b)

/-- A place of the bay holds job `j`. -/
def HasJob (bay : Bay) (j : Nat) : Prop := j ≠ 0 ∧ bay.active = j ∨ j ∈ bay.stack ∨ j ≠ 0 ∧ bay.preemptor = j

/-- Job `j` stands in no queue and, unless it is loose, in no place of a bay. -/
structure Floats (loose : List Nat) (s : State) (j : Nat) : Prop where
  queues : ∀ l, j ∉ queueAt s l
  bays : ∀ b, HasJob (bayAt s b) j → j ∈ loose

/-- Two bay records with the same jobs in the same places. -/
def SamePlaces (x y : Bay) : Prop := x.active = y.active ∧ x.stack = y.stack ∧ x.preemptor = y.preemptor

/-- What of a job tells its place. -/
def Job.place (x : Job) : JobState × Nat × Nat := (x.state, x.bay, x.priority)

section Places

variable {loose : List Nat} {s t : State} {j : Nat}

theorem bayAt_modBay (b : Nat) (f : Bay → Bay) (s : State) (o : Nat) :
    bayAt (modBay b f s) o = if o = b ∧ 1 ≤ b ∧ b ≤ 24 then f (bayAt s o) else bayAt s o := by
  by_cases ho : o = b
  · subst ho
    by_cases hb : 1 ≤ o ∧ o ≤ 24
    · rw [if_pos ⟨rfl, hb⟩, bayAt_modBay_same hb.1 hb.2]
    · rw [if_neg fun h => hb h.2]
      simp only [bayAt, modBay_bays, bankModify, dif_neg hb]
  · rw [if_neg fun h => ho h.1, bayAt_modBay_other ho]

theorem queueAt_modQueue (l : Nat) (f : List Nat → List Nat) (s : State) (o : Nat) :
    queueAt (modQueue l f s) o = if o = l ∧ l ≤ 3 then f (queueAt s o) else queueAt s o := by
  by_cases ho : o = l
  · subst ho
    by_cases hl : o ≤ 3
    · rw [if_pos ⟨rfl, hl⟩, queueAt_modQueue_same hl]
    · rw [if_neg fun h => hl h.2, queueAt_outside (by omega), queueAt_outside (by omega)]
  · rw [if_neg fun h => ho h.1, queueAt_modQueue_other ho]

theorem JobAt.congr {st : JobState} {b : Nat}
    (h : (Table.get t.scheduler.jobs j).map Job.place = (Table.get s.scheduler.jobs j).map Job.place)
    (hj : JobAt s j st b) : JobAt t j st b := by
  obtain ⟨x, hx, hst, hb⟩ := hj
  rw [hx, Option.map_some, Option.map_eq_some_iff] at h
  obtain ⟨y, hy, hplace⟩ := h
  simp only [Job.place, Prod.mk.injEq] at hplace
  exact ⟨y, hy, hplace.1.trans hst, hplace.2.1.trans hb⟩

theorem JobWaits.congr {l : Nat}
    (h : (Table.get t.scheduler.jobs j).map Job.place = (Table.get s.scheduler.jobs j).map Job.place)
    (hj : JobWaits s j l) : JobWaits t j l := by
  obtain ⟨x, hx, hst, hl⟩ := hj
  rw [hx, Option.map_some, Option.map_eq_some_iff] at h
  obtain ⟨y, hy, hplace⟩ := h
  simp only [Job.place, Prod.mk.injEq] at hplace
  exact ⟨y, hy, hplace.1.trans hst, hplace.2.2.trans hl⟩

theorem BayPlaced.places {b : Nat} {x y : Bay} (h : BayPlaced loose s b x) (hs : SamePlaces y x) : BayPlaced loose s b y := by
  obtain ⟨hactive, hstack, hpre⟩ := hs
  exact ⟨hactive ▸ h.active, hstack ▸ h.nodup, hstack ▸ h.stack, hpre ▸ h.preemptor⟩

/-- What a bay holds stays placed while its jobs keep their places. -/
theorem BayPlaced.congr {b : Nat} {bay : Bay} (h : BayPlaced loose s b bay)
    (hjobs : ∀ i, HasJob bay i → i ∉ loose →
      (Table.get t.scheduler.jobs i).map Job.place = (Table.get s.scheduler.jobs i).map Job.place) :
    BayPlaced loose t b bay where
  active h0 := by
    by_cases hl : bay.active ∈ loose
    · exact .inl hl
    · exact (h.active h0).imp_right (.congr (hjobs _ (.inl ⟨h0, rfl⟩) hl))
  nodup := h.nodup
  stack i hi := by
    by_cases hl : i ∈ loose
    · exact .inl hl
    · exact (h.stack i hi).imp_right (.congr (hjobs _ (.inr (.inl hi)) hl))
  preemptor h0 := by
    by_cases hl : bay.preemptor ∈ loose
    · exact .inl hl
    · exact (h.preemptor h0).imp_right (.congr (hjobs _ (.inr (.inr ⟨h0, rfl⟩)) hl))

/-- A job that floats may change, go, come, or join queues of its level. -/
theorem Placed.change (h : Placed loose s) (hfloat : Floats loose s j)
    (hothers : ∀ i, i ≠ j → (Table.get t.scheduler.jobs i).map Job.place = (Table.get s.scheduler.jobs i).map Job.place)
    (hbays : ∀ b, SamePlaces (bayAt t b) (bayAt s b))
    (hqueues : ∀ l, queueAt t l = queueAt s l ∨ (queueAt t l).Perm (j :: queueAt s l) ∧ JobWaits t j l) : Placed loose t where
  queues l := by
    obtain ⟨hnodup, hmem⟩ := h.queues l
    have hkeep : ∀ i ∈ queueAt s l, JobWaits t i l := fun i hi =>
      (hmem i hi).congr (hothers i fun e => hfloat.queues l (e ▸ hi))
    rcases hqueues l with heq | ⟨hperm, hwaits⟩
    · rw [heq]
      exact ⟨hnodup, hkeep⟩
    · refine ⟨hperm.nodup_iff.mpr (List.nodup_cons.mpr ⟨hfloat.queues l, hnodup⟩), fun i hi => ?_⟩
      rcases List.mem_cons.mp (hperm.mem_iff.mp hi) with rfl | hi
      · exact hwaits
      · exact hkeep i hi
  bays b := ((h.bays b).congr fun i hi hl => hothers i fun e => hl (e ▸ hfloat.bays b (e ▸ hi))).places (hbays b)

/-- Jobs that keep their places. -/
theorem Placed.congr (h : Placed loose s)
    (hjobs : ∀ i, (Table.get t.scheduler.jobs i).map Job.place = (Table.get s.scheduler.jobs i).map Job.place)
    (hbays : ∀ b, SamePlaces (bayAt t b) (bayAt s b)) (hqueues : ∀ l, queueAt t l = queueAt s l) : Placed loose t where
  queues l := by
    rw [hqueues l]
    exact ⟨(h.queues l).1, fun i hi => ((h.queues l).2 i hi).congr (hjobs i)⟩
  bays b := ((h.bays b).congr fun i _ _ => hjobs i).places (hbays b)

theorem floats_absent (h : Placed loose s) (hj : Table.get s.scheduler.jobs j = none) : Floats loose s j where
  queues l hmem := by
    obtain ⟨x, hx, -⟩ := (h.queues l).2 j hmem
    simp [hj] at hx
  bays b hhas := by
    rcases hhas with ⟨h0, rfl⟩ | hmem | ⟨h0, rfl⟩
    · refine ((h.bays b).active h0).resolve_right ?_
      rintro ⟨x, hx, -⟩
      simp [hj] at hx
    · refine ((h.bays b).stack j hmem).resolve_right ?_
      rintro ⟨x, hx, -⟩
      simp [hj] at hx
    · refine ((h.bays b).preemptor h0).resolve_right ?_
      rintro ⟨x, hx, -⟩
      simp [hj] at hx

/-- A loose job that is not QUEUED floats. -/
theorem floats_loose (h : Placed loose s) (hl : j ∈ loose)
    (hj : ∀ x, Table.get s.scheduler.jobs j = some x → x.state ≠ .queued) : Floats loose s j where
  queues l hmem := by
    obtain ⟨x, hx, hst, -⟩ := (h.queues l).2 j hmem
    exact hj x hx hst
  bays _ _ := hl

theorem Placed.modBay (h : Placed loose s) {b : Nat} {f : Bay → Bay} (hb : BayPlaced loose s b (f (bayAt s b))) :
    Placed loose (modBay b f s) where
  queues := h.queues
  bays o := by
    rw [bayAt_modBay]
    split_ifs with ho
    · obtain ⟨rfl, -⟩ := ho
      exact hb.congr fun _ _ _ => rfl
    · exact (h.bays o).congr fun _ _ _ => rfl

/-- More jobs may be loose. -/
theorem Placed.loosen {loose' : List Nat} (h : Placed loose s) (hsub : ∀ j ∈ loose, j ∈ loose') : Placed loose' s where
  queues := h.queues
  bays b := by
    obtain ⟨hactive, hnodup, hstack, hpre⟩ := h.bays b
    exact ⟨fun h0 => (hactive h0).imp_left (hsub _), hnodup, fun j hj => (hstack j hj).imp_left (hsub j),
      fun h0 => (hpre h0).imp_left (hsub _)⟩

/-- Fewer jobs are loose once no bay holds the others. -/
theorem Placed.tighten {loose' : List Nat} (h : Placed loose s) (hnone : ∀ b j, HasJob (bayAt s b) j → j ∈ loose → j ∈ loose') :
    Placed loose' s where
  queues := h.queues
  bays b := by
    obtain ⟨hactive, hnodup, hstack, hpre⟩ := h.bays b
    exact ⟨fun h0 => (hactive h0).imp_left (hnone b _ (.inl ⟨h0, rfl⟩)), hnodup,
      fun j hj => (hstack j hj).imp_left (hnone b j (.inr (.inl hj))),
      fun h0 => (hpre h0).imp_left (hnone b _ (.inr (.inr ⟨h0, rfl⟩)))⟩

theorem JobsPlaced.placed (h : JobsPlaced s) : Placed [] s where
  queues l := by
    by_cases hl : l ≤ 3
    · obtain ⟨hnodup, hmem⟩ := h.2.1 l (by simp only [List.mem_cons, List.not_mem_nil, or_false]; omega)
      refine ⟨hnodup, fun j hj => ?_⟩
      have := hmem j hj
      rw [Option.any_eq_true] at this
      obtain ⟨x, hx, hp⟩ := this
      simp only [decide_eq_true_eq] at hp
      exact ⟨x, hx, hp⟩
    · rw [queueAt_outside (by omega)]
      exact ⟨List.nodup_nil, fun j hj => absurd hj List.not_mem_nil⟩
  bays b := by
    by_cases hb : 1 ≤ b ∧ b ≤ 24
    · have hjob : ∀ st j, isJobOf s b st j → JobAt s j st b := fun st j hj => by
        rw [isJobOf, Option.any_eq_true] at hj
        obtain ⟨x, hx, hp⟩ := hj
        simp only [decide_eq_true_eq] at hp
        exact ⟨x, hx, hp⟩
      obtain ⟨hactive, -, hstack, hnodup, -, -, hpre, -⟩ :=
        h.2.2.1 b (by simp only [bayNumbers, List.mem_range'_1]; omega)
      exact ⟨fun h0 => .inr (hjob _ _ (hactive h0)), hnodup, fun j hj => .inr (hjob _ _ (hstack j hj)),
        fun h0 => .inr (hjob _ _ (hpre h0))⟩
    · have hdefault : bayAt s b = {} := bankGet_outside _ _ _ (by omega)
      rw [hdefault]
      exact ⟨fun h0 => absurd rfl h0, List.nodup_nil, fun j hj => absurd hj List.not_mem_nil, fun h0 => absurd rfl h0⟩

end Places

/-! ## Queueing (R74) -/

section Queueing

variable {loose : List Nat} {s : State} {j : Nat} {x : Job}

/-- QUEUED jobs of a queue leave it. -/
theorem Placed.dequeue (h : Placed loose s) (j : Nat) : Placed loose (dequeue j s) := by
  cases hx : Table.get s.scheduler.jobs j with
  | none => simpa only [Machine.dequeue, hx] using h
  | some x =>
    simp only [Machine.dequeue, hx]
    refine ⟨fun l => ?_, fun b => (h.bays b).congr fun _ _ _ => rfl⟩
    obtain ⟨hnodup, hmem⟩ := h.queues l
    rw [queueAt_modQueue]
    split_ifs
    · exact ⟨hnodup.erase j, fun i hi => hmem i (List.mem_of_mem_erase hi)⟩
    · exact ⟨hnodup, hmem⟩

/-- A QUEUED job that has left its queue floats. -/
theorem floats_dequeue (h : Placed loose s) (hx : Table.get s.scheduler.jobs j = some x) (hst : x.state = .queued) :
    Floats loose (dequeue j s) j := by
  refine ⟨fun l hmem => ?_, fun b hhas => ?_⟩
  · simp only [dequeue, hx] at hmem
    rw [queueAt_modQueue] at hmem
    split_ifs at hmem with hl
    · exact ((h.queues l).1.mem_erase_iff.mp hmem).1 rfl
    · obtain ⟨y, hy, -, hprio⟩ := (h.queues l).2 j hmem
      obtain rfl := Option.some.inj (hx.symm.trans hy)
      refine hl ⟨hprio.symm, ?_⟩
      by_contra hgt
      rw [queueAt_outside (by omega)] at hmem
      cases hmem
  · have hbay : bayAt (dequeue j s) b = bayAt s b := by simp only [dequeue, hx]; rfl
    rw [hbay] at hhas
    have hother : ∀ st, st ≠ .queued → ¬ JobAt s j st b := by
      rintro st hne ⟨y, hy, hsty, -⟩
      obtain rfl := Option.some.inj (hx.symm.trans hy)
      exact hne (hsty.symm.trans hst)
    rcases hhas with ⟨h0, rfl⟩ | hmem | ⟨h0, rfl⟩
    · exact ((h.bays b).active h0).resolve_right (hother _ (by simp))
    · exact ((h.bays b).stack j hmem).resolve_right (hother _ (by simp))
    · exact ((h.bays b).preemptor h0).resolve_right (hother _ (by simp))

theorem queueAt_modJob (j : Nat) (f : Job → Job) (s : State) (l : Nat) : queueAt (modJob j f s) l = queueAt s l := rfl

theorem bayAt_modJob (j : Nat) (f : Job → Job) (s : State) (b : Nat) : bayAt (modJob j f s) b = bayAt s b := rfl

theorem SamePlaces.refl (x : Bay) : SamePlaces x x := ⟨rfl, rfl, rfl⟩

/-- A job that floats may be changed. -/
theorem Placed.modJob (h : Placed loose s) (hfloat : Floats loose s j) (f : Job → Job) : Placed loose (modJob j f s) :=
  h.change hfloat (fun i hi => by rw [modJob_jobs, Table.get_modify_other _ _ hi]) (fun _ => .refl _) fun _ => .inl rfl

/-- A job may be changed in what does not tell its place. -/
theorem Placed.modJob_kept (h : Placed loose s) {f : Job → Job} (hf : ∀ x, (f x).place = x.place) (j : Nat) :
    Placed loose (Machine.modJob j f s) := by
  refine h.congr (fun i => ?_) (fun _ => .refl _) fun _ => rfl
  rw [modJob_jobs, Table.get_modify]
  split_ifs
  · simp [Option.map_map, Function.comp_def, hf]
  · rfl

/-- A job that floats joins a queue of its level. -/
theorem Placed.enqueue (h : Placed loose s) (hfloat : Floats loose s j) (hx : Table.get s.scheduler.jobs j = some x)
    {g : List Nat → List Nat} (hg : ∀ q, (g q).Perm (j :: q)) :
    Placed loose (modQueue x.priority g (Machine.modJob j (fun x => { x with state := .queued, bay := 0 }) s)) := by
  refine h.change hfloat (fun i hi => ?_) (fun _ => .refl _) fun l => ?_
  · rw [modQueue_jobs, modJob_jobs, Table.get_modify_other _ _ hi]
  · rw [queueAt_modQueue, queueAt_modJob]
    split_ifs with hl
    · refine .inr ⟨hg _, { x with state := .queued, bay := 0 }, ?_, rfl, hl.1.symm⟩
      rw [modQueue_jobs, modJob_jobs, Table.get_modify_same, hx, Option.map_some]
    · exact .inl rfl

end Queueing

end Sys2Proof.Machine
end

