-- ==== Sys2Proof/Proofs/Circulating.lean ====
section
/-! PROOFS. The laws of circulation as an invariant of states in the middle of a command's effects, and what keeps it without
touching the circulation. -/

namespace Sys2Proof.Machine

open Function (update)

/-- Every hidden record stands. -/
structure Hides (M : Amid) (s : State) : Prop where
  cons : ∀ k ∈ M.cons, k ≠ 0 ∧ (Table.get s.assembly.cons k).isSome = true
  ended : ∀ j ∈ M.ended, (Table.get s.scheduler.jobs j).isSome = true

/-- The laws of circulation hold of what a state shows and, under `C`, the counts of R148 agree with it. -/
structure Good (C : Prop) (M : Amid) (s : State) : Prop where
  form : TablesCanonical s
  lawful : Lawful (view M s)
  counted : C → Counted (view M s) (accountAt s)
  placed : Placed M.loose s
  hides : Hides M s

/-- What neither the circulation nor the places of the jobs are touched by. -/
structure Calm (s t : State) : Prop where
  patrons : t.records.patrons = s.records.patrons
  agencies : t.records.agencies = s.records.agencies
  titles : t.records.titles = s.records.titles
  requests : t.requests = s.requests
  cons : t.assembly.cons = s.assembly.cons
  sealedList : t.assembly.sealedList = s.assembly.sealedList
  jobs : t.scheduler.jobs = s.scheduler.jobs
  queues : t.scheduler.queues = s.scheduler.queues
  places : ∀ b, SamePlaces (bayAt t b) (bayAt s b)
  ready : t.dispatch.ready = s.dispatch.ready
  outstanding : t.dispatch.outstanding = s.dispatch.outstanding
  accounts : t.accounts = s.accounts
  geometry : t.management.geometry = s.management.geometry
  mode : t.management.mode = s.management.mode

section Calm

variable {C : Prop} {M : Amid} {s t u : State}

theorem Calm.refl (s : State) : Calm s s := ⟨rfl, rfl, rfl, rfl, rfl, rfl, rfl, rfl, fun _ => .refl _, rfl, rfl, rfl, rfl, rfl⟩

theorem Calm.trans (h : Calm s t) (g : Calm t u) : Calm s u where
  patrons := g.patrons.trans h.patrons
  agencies := g.agencies.trans h.agencies
  titles := g.titles.trans h.titles
  requests := g.requests.trans h.requests
  cons := g.cons.trans h.cons
  sealedList := g.sealedList.trans h.sealedList
  jobs := g.jobs.trans h.jobs
  queues := g.queues.trans h.queues
  places b := ⟨(g.places b).1.trans (h.places b).1, (g.places b).2.1.trans (h.places b).2.1,
    (g.places b).2.2.trans (h.places b).2.2⟩
  ready := g.ready.trans h.ready
  outstanding := g.outstanding.trans h.outstanding
  accounts := g.accounts.trans h.accounts
  geometry := g.geometry.trans h.geometry
  mode := g.mode.trans h.mode

theorem Calm.view (h : Calm s t) (M : Amid) : view M t = view M s := by
  simp only [Machine.view, h.patrons, h.titles, h.requests, h.cons, h.sealedList, h.jobs, h.ready, h.outstanding,
    h.geometry, h.mode]

theorem Calm.accountAt (h : Calm s t) : accountAt t = accountAt s := by
  funext c
  simp only [Machine.accountAt, h.accounts]

theorem Calm.placed {loose : List Nat} (h : Calm s t) (hp : Placed loose s) : Placed loose t :=
  hp.congr (fun i => by rw [h.jobs]) h.places fun l => by simp only [queueAt, h.queues]

theorem Calm.good (h : Calm s t) (hs : Good C M s) : Good C M t where
  form := by
    obtain ⟨h1, h2, h3, h4, h5, h6⟩ := hs.form
    exact ⟨h.patrons ▸ h1, h.agencies ▸ h2, h.titles ▸ h3, h.requests ▸ h4, h.cons ▸ h5, h.jobs ▸ h6⟩
  lawful := h.view M ▸ hs.lawful
  counted hC := by rw [h.view, h.accountAt]; exact hs.counted hC
  placed := h.placed hs.placed
  hides := ⟨fun k hk => h.cons ▸ hs.hides.cons k hk, fun j hj => h.jobs ▸ hs.hides.ended j hj⟩

theorem Calm.foldl {β : Type} (f : State → β → State) (hf : ∀ s b, Calm s (f s b)) (l : List β) (s : State) :
    Calm s (l.foldl f s) := by
  induction l generalizing s with
  | nil => exact .refl s
  | cons b l ih => exact (hf s b).trans (ih (f s b))

theorem Calm.latch (n : NoticeId) (x : Nat) (s : State) : Calm s (latch n x s) :=
  ⟨rfl, rfl, rfl, rfl, rfl, rfl, rfl, rfl, fun _ => .refl _, rfl, rfl, rfl, rfl, rfl⟩

theorem Calm.owePass (s : State) : Calm s (owePass s) :=
  ⟨rfl, rfl, rfl, rfl, rfl, rfl, rfl, rfl, fun _ => .refl _, rfl, rfl, rfl, rfl, rfl⟩

theorem Calm.toFloor (f : Frame) (s : State) : Calm s (toFloor f s) :=
  ⟨rfl, rfl, rfl, rfl, rfl, rfl, rfl, rfl, fun _ => .refl _, rfl, rfl, rfl, rfl, rfl⟩

theorem Calm.line (l : LineUnit) (s : State) : Calm s { s with line := l } :=
  ⟨rfl, rfl, rfl, rfl, rfl, rfl, rfl, rfl, fun _ => .refl _, rfl, rfl, rfl, rfl, rfl⟩

theorem Calm.returns (r : ReturnUnit) (s : State) : Calm s { s with returns := r } :=
  ⟨rfl, rfl, rfl, rfl, rfl, rfl, rfl, rfl, fun _ => .refl _, rfl, rfl, rfl, rfl, rfl⟩

theorem Calm.days (d : DayUnit) (s : State) : Calm s { s with days := d } :=
  ⟨rfl, rfl, rfl, rfl, rfl, rfl, rfl, rfl, fun _ => .refl _, rfl, rfl, rfl, rfl, rfl⟩

theorem Calm.pending (p : List Instr) (s : State) : Calm s { s with pending := p } :=
  ⟨rfl, rfl, rfl, rfl, rfl, rfl, rfl, rfl, fun _ => .refl _, rfl, rfl, rfl, rfl, rfl⟩

theorem Calm.freeIx (n : Nat) (s : State) : Calm s { s with freeIx := n } :=
  ⟨rfl, rfl, rfl, rfl, rfl, rfl, rfl, rfl, fun _ => .refl _, rfl, rfl, rfl, rfl, rfl⟩

theorem Calm.passDue (b : Bool) (s : State) : Calm s { s with passDue := b } :=
  ⟨rfl, rfl, rfl, rfl, rfl, rfl, rfl, rfl, fun _ => .refl _, rfl, rfl, rfl, rfl, rfl⟩

/-- The windows, the halves and the settings change beside the circulation. -/
theorem Calm.windows (w : Vector Window 16) (s : State) : Calm s { s with dispatch.windows := w } :=
  ⟨rfl, rfl, rfl, rfl, rfl, rfl, rfl, rfl, fun _ => .refl _, rfl, rfl, rfl, rfl, rfl⟩

theorem Calm.management (m : ManagementUnit) (s : State) (hgeo : m.geometry = s.management.geometry)
    (hmode : m.mode = s.management.mode) : Calm s { s with management := m } :=
  ⟨rfl, rfl, rfl, rfl, rfl, rfl, rfl, rfl, fun _ => .refl _, rfl, rfl, rfl, hgeo, hmode⟩

theorem Calm.endPick (k : Nat) (s : State) : Calm s (endPick k s) := by
  unfold Machine.endPick
  split_ifs <;> exact ⟨rfl, rfl, rfl, rfl, rfl, rfl, rfl, rfl, fun _ => .refl _, rfl, rfl, rfl, rfl, rfl⟩

/-- A bay record changed in anything but its jobs. -/
theorem Calm.modBay {f : Bay → Bay} (hf : ∀ x, SamePlaces (f x) x) (b : Nat) (s : State) : Calm s (modBay b f s) where
  patrons := rfl
  agencies := rfl
  titles := rfl
  requests := rfl
  cons := rfl
  sealedList := rfl
  jobs := rfl
  queues := rfl
  places o := by
    rw [bayAt_modBay]
    split_ifs
    · exact hf _
    · exact .refl _
  ready := rfl
  outstanding := rfl
  accounts := rfl
  geometry := rfl
  mode := rfl

theorem Calm.loadTimer (b : Nat) (s : State) : Calm s (loadTimer b s) := .modBay (by intro; exact ⟨rfl, rfl, rfl⟩) b s

theorem Calm.dropOwed (b : Nat) (s : State) : Calm s (dropOwed b s) := .modBay (by intro; exact ⟨rfl, rfl, rfl⟩) b s

theorem Calm.makeCommand (b : Nat) (f : Frame) (s : State) : Calm s (makeCommand b f s) := by
  unfold Machine.makeCommand
  split_ifs
  · exact (Calm.toFloor f s).trans (.loadTimer b _)
  · exact .toFloor f s
  · exact .modBay (by intro; exact ⟨rfl, rfl, rfl⟩) b s

theorem Calm.pollSet (p : BitVec 64) (s : State) : Calm s { s with line.pollSet := p } :=
  ⟨rfl, rfl, rfl, rfl, rfl, rfl, rfl, rfl, fun _ => .refl _, rfl, rfl, rfl, rfl, rfl⟩

theorem Calm.joinPoll (k : Nat) (s : State) : Calm s (joinPoll k s) := by
  unfold Machine.joinPoll
  split_ifs
  · exact .refl s
  · exact .pollSet _ s

theorem Calm.leavePoll (k : Nat) (s : State) : Calm s (leavePoll k s) := by
  unfold Machine.leavePoll
  split_ifs
  · exact .refl s
  · exact .pollSet _ s

end Calm

/-! ## What a state shows of one record -/

section Shown

variable {M : Amid} {s : State} {k n m r j : Nat}

theorem view_present_iff : (view M s).present k = true ↔ k ∉ M.cons ∧ (Table.get s.assembly.cons k).isSome = true := by
  by_cases hk : k ∈ M.cons
  · simp [view, readsBut, hk]
  · cases hc : Table.get s.assembly.cons k <;> simp [view, readsBut, reads, hk, hc]

theorem view_stage_iff {st : ConsState} : (view M s).stage k = some st ↔
    k ∉ M.cons ∧ ∃ c, Table.get s.assembly.cons k = some c ∧ c.state = st := by
  by_cases hk : k ∈ M.cons
  · simp [view, readsBut, hk]
  · cases hc : Table.get s.assembly.cons k <;> simp [view, readsBut, reads, hk, hc]

theorem view_absent (hk : Table.get s.assembly.cons k = none) : (view M s).present k = false := by
  simp [view, readsBut, reads, hk]

theorem view_carrier_absent (hk : Table.get s.assembly.cons k = none) : (view M s).carrier k = none := by
  simp [view, reads, hk]

section Record

variable {c : Consignment} (hc : Table.get s.assembly.cons k = some c) (hk : k ∉ M.cons)

include hc hk

theorem view_present : (view M s).present k = true := view_present_iff.mpr ⟨hk, by simp [hc]⟩

theorem view_stage : (view M s).stage k = some c.state := view_stage_iff.mpr ⟨hk, c, hc, rfl⟩

theorem view_shape : (view M s).shape k = ⟨c.kind, c.patron, c.cartridgeClass, c.head, c.parts⟩ := by
  simp [view, readsBut, reads, hk, hc]

theorem view_lines : (view M s).lines k = c.lines.map Line.title := by simp [view, readsBut, reads, hk, hc]

theorem view_opened : (view M s).opened k = c.lines.all fun l => decide (l.state = .isOpen) := by
  simp [view, readsBut, reads, hk, hc]

theorem view_marked : (view M s).marked k = c.overdue := by simp [view, readsBut, reads, hk, hc]

theorem view_back : (view M s).back k = c.returned := by simp [view, readsBut, reads, hk, hc]

theorem view_headBack : (view M s).headBack k = c.headReturned := by simp [view, readsBut, reads, hk, hc]

theorem view_jobOf : (view M s).jobOf k = c.job := by simp [view, readsBut, reads, hk, hc]

end Record

section PatronRecord

variable {p : Patron} (hp : Table.get s.records.patrons n = some p)

include hp

theorem view_member : (view M s).member n = true := by simp [view, reads, hp]

theorem view_patronCls : (view M s).patronCls n = p.cartridgeClass := by simp [view, reads, hp]

theorem view_wish : (view M s).wish n = p.wish := by simp [view, reads, hp]

theorem view_chain : (view M s).chain n = p.chain := by simp [view, reads, hp]

theorem view_openPack : (view M s).openPack n = p.openPack := by simp [view, reads, hp]

theorem view_charge : (view M s).charge n = p.charge := by simp [view, reads, hp]

theorem view_overdue : (view M s).overdue n = p.overdue := by simp [view, reads, hp]

end PatronRecord

section TitleRecord

variable {x : Title} (hx : Table.get s.records.titles m = some x)

include hx

theorem view_title : (view M s).title m = some (titleShape x) := by simp [view, reads, hx]

theorem view_waiting : (view M s).waiting m = x.waiting := by simp [view, reads, hx]

theorem view_copies : (view M s).copies m = x.copies := by simp [view, reads, hx]

theorem view_shelf : (view M s).shelf m = x.shelf := by simp [view, reads, hx]

theorem view_out : (view M s).out m = x.out := by simp [view, reads, hx]

theorem view_repair : (view M s).repair m = x.repair := by simp [view, reads, hx]

end TitleRecord

theorem view_claim {q : Request} (hq : Table.get s.requests r = some q) : (view M s).claim r = some (q.patron, q.title) := by
  simp [view, reads, hq]

theorem view_claim_none (hq : Table.get s.requests r = none) : (view M s).claim r = none := by simp [view, reads, hq]

theorem view_jobCls {x : Job} (hx : Table.get s.scheduler.jobs j = some x) : (view M s).jobCls j = some x.cartridgeClass := by
  simp [view, reads, hx]

theorem view_pack_none (hx : Table.get s.scheduler.jobs j = none) : (view M s).pack j = none := by
  simp [view, readsBut, reads, hx]

theorem view_holds_none (hx : Table.get s.scheduler.jobs j = none) : (view M s).holds j = false := by
  simp [view, readsBut, reads, hx]

theorem title_of_view {x : TitleShape} (h : (view M s).title m = some x) :
    ∃ y, Table.get s.records.titles m = some y ∧ titleShape y = x := by
  cases hy : Table.get s.records.titles m <;> simp_all [view, reads]

theorem member_of_view (h : (view M s).member n = true) : ∃ p, Table.get s.records.patrons n = some p := by
  cases hp : Table.get s.records.patrons n <;> simp_all [view, reads]

end Shown

/-! ## What the invariant says of one record -/

section Says

variable {C : Prop} {M : Amid} {s : State} {k n : Nat} {c : Consignment} {p : Patron}

/-- The patron and the title of a request are present. -/
theorem Good.request_present (h : Good C M s) {r : Nat} {q : Request} (hq : Table.get s.requests r = some q) :
    (∃ p, Table.get s.records.patrons q.patron = some p) ∧ ∃ x, Table.get s.records.titles q.title = some x := by
  have hclaim := view_claim (M := M) hq
  have hwish : r ∈ (view M s).wish q.patron := ((h.lawful.wished q.patron).2 r).mpr (by simp [hclaim])
  have hwait : r ∈ (view M s).waiting q.title := ((h.lawful.waited q.title).2 r).mpr (by simp [hclaim])
  constructor
  · cases hp : Table.get s.records.patrons q.patron with
    | none => simp [view, reads, hp] at hwish
    | some p => exact ⟨p, rfl⟩
  · cases hx : Table.get s.records.titles q.title with
    | none => simp [view, reads, hx] at hwait
    | some x => exact ⟨x, rfl⟩

theorem Good.patron_present (h : Good C M s) (hc : Table.get s.assembly.cons k = some c) (hk : k ∉ M.cons) :
    ∃ p, Table.get s.records.patrons c.patron = some p := by
  have := h.lawful.owned k (view_present hc hk)
  rw [view_shape hc hk] at this
  exact member_of_view this

theorem Good.ne_zero (h : Good C M s) (hc : Table.get s.assembly.cons k = some c) : k ≠ 0 := by
  by_cases hk : k ∈ M.cons
  · exact (h.hides.cons k hk).1
  · have := (h.lawful.consPool k (view_present hc hk)).1
    omega

/-- The open pack of a patron is an ASSEMBLING pack of its own. -/
theorem Good.open_pack (h : Good C M s) (hp : Table.get s.records.patrons n = some p)
    (hc : Table.get s.assembly.cons p.openPack = some c) : p.openPack ∉ M.cons ∧ c.state = .assembling ∧ c.patron = n := by
  have hopen := view_openPack (M := M) hp
  obtain ⟨hst, hpat⟩ := h.lawful.openPacks n (by rw [hopen]; exact h.ne_zero hc)
  rw [hopen] at hst hpat
  obtain ⟨hk, c', hc', hstate⟩ := view_stage_iff.mp hst
  obtain rfl := Option.some.inj (hc.symm.trans hc')
  rw [view_shape hc hk] at hpat
  exact ⟨hk, hstate, hpat⟩

theorem Good.no_open_pack (h : Good C M s) (hp : Table.get s.records.patrons n = some p)
    (hc : Table.get s.assembly.cons p.openPack = none) : p.openPack = 0 := by
  by_contra hne
  have hopen := view_openPack (M := M) hp
  obtain ⟨hst, -⟩ := h.lawful.openPacks n (by rw [hopen]; exact hne)
  rw [hopen] at hst
  obtain ⟨-, c', hc', -⟩ := view_stage_iff.mp hst
  simp [hc] at hc'

/-- The lowest FREE record is FREE, and one of the pool. -/
theorem lowestFree_spec {α : Type} {t : Table α} {N i : Nat} (hw : Table.wf t) (hi : Table.lowestFree t N = some i) :
    Table.get t i = none ∧ 1 ≤ i ∧ i ≤ N := by
  rw [lowestFree_eq_head? hw] at hi
  obtain ⟨hpool, hnone⟩ := mem_freeNumbers.mp (List.mem_of_mem_head? hi)
  exact ⟨hnone, hpool⟩

theorem Good.not_hidden (h : Good C M s) (hk : Table.get s.assembly.cons k = none) : k ∉ M.cons := fun hmem => by
  simpa [hk] using (h.hides.cons k hmem).2

theorem Good.not_ended {j : Nat} (h : Good C M s) (hj : Table.get s.scheduler.jobs j = none) : j ∉ M.ended := fun hmem => by
  simpa [hj] using h.hides.ended j hmem

theorem Good.consWf (h : Good C M s) : Table.wf s.assembly.cons := h.form.2.2.2.2.1

theorem Good.jobsWf (h : Good C M s) : Table.wf s.scheduler.jobs := h.form.2.2.2.2.2

theorem Good.requestsWf (h : Good C M s) : Table.wf s.requests := h.form.2.2.2.1

end Says

end Sys2Proof.Machine
end

