-- ==== Sys2Proof/Proofs/CirculatingPacks.lean ====
section
/-! PROOFS. Sealing and freeing job records keep the laws of circulation (R58, R60, R61). -/

namespace Sys2Proof.Machine

open Function (update)

section Packs

variable {C : Prop} {M : Amid} {s : State} {j k n : Nat} {c : Consignment}

theorem readsBut_congr {α β : Type} {hidden : List Nat} {t u : Table α} {d : β} {f : α → β}
    (h : ∀ i, i ∉ hidden → reads t d f i = reads u d f i) : readsBut hidden t d f = readsBut hidden u d f := by
  funext i
  by_cases hi : i ∈ hidden
  · simp [readsBut, hi]
  · simp [readsBut, hi, h i hi]

/-! ## The job of a pack (R60) -/

theorem view_createPackJob (hc : Table.get s.assembly.cons k = some c) (hk : k ∉ M.cons) (hj : j ∉ M.ended)
    (hholds : (view M s).holds j = false) :
    view M (createPackJob j k s) =
      (view M s).takeJob k j c.cartridgeClass (view M s).openPack (view M s).sealed := by
  have hheld : readsBut M.loose (createPackJob j k s).scheduler.jobs false Job.holds =
      (view M s).holds := by
    funext i
    by_cases hi : i = j
    · subst hi
      rw [hholds]
      simp [readsBut, reads, createPackJob_job hc, packJob, Job.holds]
    · simp [view, readsBut, reads, createPackJob_job hc, hi]
  rw [createPackJob_eq hc] at hheld ⊢
  simp [view, Circ.takeJob, reads_put, readsBut_put, packJob, hj]
  exact ⟨readsBut_modify (fun _ => some ConsState.duplicating) (fun _ => rfl) (.inr (by simp [hc])) hk,
    readsBut_modify (fun _ => j) (fun _ => rfl) (.inr (by simp [hc])) hk, hheld⟩

theorem createPackJob_placed {loose : List Nat} (hc : Table.get s.assembly.cons k = some c) (h : Placed loose s)
    (hfloat : Floats loose s j) : Placed loose (createPackJob j k s) := by
  refine h.change hfloat (fun i hi => by rw [createPackJob_job hc, if_neg hi]) (fun b => ?_) fun l => ?_
  · rw [createPackJob_frame hc]
    exact .refl _
  · by_cases hl : l ≤ 3
    · rw [createPackJob_queue hc hl]
      split_ifs with hprio
      · refine .inr ⟨List.perm_append_singleton j _, packJob k c, ?_, rfl, hprio.symm⟩
        rw [createPackJob_job hc, if_pos rfl]
      · exact .inl rfl
    · rw [queueAt_outside (by omega), queueAt_outside (by omega)]
      exact .inl rfl

theorem createPackJob_hides (hc : Table.get s.assembly.cons k = some c) (h : Hides M s) : Hides M (createPackJob j k s) where
  cons i hi := by
    refine ⟨(h.cons i hi).1, ?_⟩
    rw [createPackJob_cons hc]
    split_ifs
    · rfl
    · exact (h.cons i hi).2
  ended i hi := by
    rw [createPackJob_job hc]
    split_ifs
    · rfl
    · exact h.ended i hi

theorem accountAt_createPackJob (hc : Table.get s.assembly.cons k = some c) : accountAt (createPackJob j k s) = accountAt s := by
  rw [createPackJob_frame hc]
  rfl

/-! ## Sealing (R58) -/

/-- A pack in assembly that is marked and takes a job. -/
theorem view_sealTake (hc : Table.get s.assembly.cons k = some c) (hk : k ∉ M.cons) (hj : Table.get s.scheduler.jobs j = none)
    (hended : j ∉ M.ended) (prio : Nat) :
    view M (createPackJob j k (markSealed k c.patron prio s)) =
      (view M s).takeJob k j c.cartridgeClass (update (view M s).openPack c.patron 0) (view M s).sealed := by
  rw [view_createPackJob (markSealed_pack hc prio) hk hended (view_holds_none hj)]
  simp [view, markSealed, Circ.takeJob, titleShape]
  have hmark := readsBut_modify (hidden := M.cons) (t := s.assembly.cons) (k := k) (f := fun c => some c.state)
    (g := fun x : Consignment => { x with state := .sealed, sealPriority := prio })
    (fun _ => some ConsState.sealed) (d := none) (fun _ => rfl) (.inr (by simp [hc])) hk
  exact ⟨reads_modify (fun _ => 0) (fun _ => rfl) (.inl rfl), by rw [hmark, Function.update_idem]⟩

/-- A pack in assembly that is marked and waits. -/
theorem view_sealWait (hc : Table.get s.assembly.cons k = some c) (hk : k ∉ M.cons) (prio : Nat) :
    view M { markSealed k c.patron prio s with assembly.sealedList := s.assembly.sealedList ++ [k] } =
      (view M s).sealWait k c.patron := by
  simp [view, markSealed, Circ.sealWait, titleShape]
  exact ⟨reads_modify (fun _ => 0) (fun _ => rfl) (.inl rfl),
    readsBut_modify (fun _ => some ConsState.sealed) (fun _ => rfl) (.inr (by simp [hc])) hk⟩

theorem Good.no_free_job (h : Good C M s) (hnone : Table.lowestFree s.scheduler.jobs s.management.geometry.j = none) (i : Nat)
    (h1 : 1 ≤ i) (hi : i ≤ s.management.geometry.j) : (view M s).jobCls i ≠ none := by
  rw [lowestFree_eq_head? h.jobsWf, List.head?_eq_none_iff] at hnone
  cases hx : Table.get s.scheduler.jobs i with
  | none => exact absurd (mem_freeNumbers.mpr ⟨⟨h1, hi⟩, hx⟩) (by simp [hnone])
  | some x => simp [view_jobCls hx]

theorem markSealed_hides (h : Hides M s) (prio : Nat) : Hides M (markSealed k n prio s) where
  cons i hi := by
    refine ⟨(h.cons i hi).1, ?_⟩
    simpa [markSealed, Table.get_modify, apply_ite Option.isSome] using (h.cons i hi).2
  ended := h.ended

/-- Sealing a pack (R58). -/
theorem Good.sealPack (h : Good C M s) (hk : k ∉ M.cons) : Good C M (sealPack k s) := by
  cases hc : Table.get s.assembly.cons k with
  | none => simpa only [Machine.sealPack, hc] using h
  | some c =>
    by_cases ha : c.state = .assembling
    · obtain ⟨p, hp⟩ := h.patron_present hc hk
      have hst : (view M s).stage k = some .assembling := ha ▸ view_stage hc hk
      have hpat : ((view M s).shape k).patron = c.patron := by rw [view_shape hc hk]
      have hform := (sealPack_change k s).work.tables h.form
      have hmark := markSealed_pack hc (sealPriorityOf p.patronClass)
      rw [sealPack_eq hc ha hp] at hform ⊢
      by_cases hw : s.assembly.sealedList ≠ [] ∨ Table.lowestFree s.scheduler.jobs s.management.geometry.j = none
      · rw [packSealed_waits (s := markSealed k c.patron _ s) hw] at hform ⊢
        have hview := view_sealWait hc hk (sealPriorityOf p.patronClass)
        exact
          { form := hform
            lawful := hview ▸ h.lawful.sealWait hst hpat (hw.elim h.lawful.full h.no_free_job)
            counted := fun hC => hview ▸ (h.counted hC).sealWait hst c.patron
            placed := h.placed.congr (fun _ => rfl) (fun _ => .refl _) fun _ => rfl
            hides := ⟨(markSealed_hides (n := c.patron) h.hides _).cons, h.hides.ended⟩ }
      · rw [not_or, not_not] at hw
        obtain ⟨hl, hj⟩ := hw
        obtain ⟨j, hj⟩ := Option.ne_none_iff_exists'.mp hj
        rw [packSealed_takes (s := markSealed k c.patron _ s) hl hj] at hform ⊢
        obtain ⟨hnone, hpool⟩ := lowestFree_spec h.jobsWf hj
        have hview := view_sealTake hc hk hnone (h.not_ended hnone) (sealPriorityOf p.patronClass)
        have hcls : ((view M s).shape k).cls = c.cartridgeClass := by rw [view_shape hc hk]
        have htake : (view M s).Takes k (update (view M s).openPack c.patron 0) (view M s).sealed :=
          .inl ⟨hst, by rw [hpat], hl, hl⟩
        have hplaced : Placed M.loose (markSealed k c.patron (sealPriorityOf p.patronClass) s) :=
          h.placed.congr (fun _ => rfl) (fun _ => .refl _) fun _ => rfl
        exact
          { form := hform
            lawful := hview ▸ h.lawful.takeJob htake hpool (view_pack_none hnone)
            counted := fun hC => by
              rw [hview, accountAt_createPackJob hmark, ← hcls]
              exact (h.counted hC).takeJob h.lawful htake (view_holds_none hnone)
            placed := createPackJob_placed hmark hplaced (floats_absent hplaced hnone)
            hides := createPackJob_hides hmark (markSealed_hides h.hides _) }
    · simpa only [Machine.sealPack, hc, if_neg ha] using h

/-- Examining the close conditions of a patron's open pack (R57). -/
theorem Good.examineClose (h : Good C M s) (n : Nat) : Good C M (examineClose n s) := by
  cases hp : Table.get s.records.patrons n with
  | none => simpa only [Machine.examineClose, hp] using h
  | some p =>
    cases hc : Table.get s.assembly.cons p.openPack with
    | none => simpa only [Machine.examineClose, hp, hc] using h
    | some c =>
      rw [examineClose_eq hp hc]
      split_ifs
      · exact h.sealPack (h.open_pack hp hc).1
      · exact h

/-! ## Freeing a job record (R61) -/

/-- Job record `j` is FREE and `rest` waits. -/
def jobDropped (j : Nat) (rest : List Nat) (s : State) : State :=
  { s with scheduler.jobs := Table.delete s.scheduler.jobs j, assembly.sealedList := rest }

/-- The circulation without job `j`, whose pack, if any, has ended and whose cartridge is given up. -/
theorem view_deleteJob (hloose : j ∈ M.loose) (rest : List Nat) :
    view { M with ended := [] } (jobDropped j rest s) =
      { (view { M with ended := [j] } s).dropJob j with sealed := rest } := by
  have hheld : readsBut M.loose (Table.delete s.scheduler.jobs j) false Job.holds =
      readsBut M.loose s.scheduler.jobs false Job.holds :=
    readsBut_congr fun i hi => by
      have hij : i ≠ j := fun e => hi (e ▸ hloose)
      simp [reads_delete, hij]
  simp [view, jobDropped, Circ.dropJob, reads_delete, hheld]
  rw [readsBut_delete, readsBut_cons]

/-- The record of a job that has ended goes to the first pack that waits, if one does. -/
theorem Good.freeJob (h : Good C { M with ended := [j] } s) (hloose : j ∈ M.loose)
    (hnot : ∀ x, Table.get s.scheduler.jobs j = some x → x.state ≠ .queued) : Good C { M with ended := [] } (freeJob j s) := by
  have hfloat := floats_loose h.placed hloose hnot
  have hform := (freeJob_change j s).work.tables h.form
  have hpack : (view { M with ended := [j] } s).pack j = none := by simp [view, readsBut]
  have hholds : (view { M with ended := [j] } s).holds j = false := by simp [view, readsBut, hloose]
  have hplaced : Placed M.loose { s with scheduler.jobs := Table.delete s.scheduler.jobs j } :=
    h.placed.change hfloat (fun i hi => by rw [Table.get_delete_other _ hi]) (fun _ => .refl _) fun _ => .inl rfl
  cases hl : s.assembly.sealedList with
  | nil =>
    rw [freeJob_unwaited hl] at hform ⊢
    have hview : view { M with ended := [] } { s with scheduler.jobs := Table.delete s.scheduler.jobs j } =
        (view { M with ended := [j] } s).dropJob j := by
      have := view_deleteJob (s := s) hloose s.assembly.sealedList
      rwa [show ({ (view { M with ended := [j] } s).dropJob j with sealed := s.assembly.sealedList } : Circ) =
        (view { M with ended := [j] } s).dropJob j from rfl] at this
    exact
      { form := hform
        lawful := hview ▸ h.lawful.dropJob hpack hholds hl
        counted := fun hC => hview ▸ (h.counted hC).dropJob hholds hpack
        placed := hplaced
        hides := ⟨h.hides.cons, fun i hi => absurd hi List.not_mem_nil⟩ }
  | cons k rest =>
    rw [freeJob_waited hl] at hform ⊢
    have hst : (view { M with ended := [j] } s).stage k = some .sealed :=
      (h.lawful.sealedList.2 k).mp (by simp [view, hl])
    obtain ⟨hk, c, hc, -⟩ := view_stage_iff.mp hst
    have hpool : 1 ≤ j ∧ j ≤ s.management.geometry.j := by
      obtain ⟨x, hx⟩ := Option.isSome_iff_exists.mp (h.hides.ended j (by simp))
      exact h.lawful.jobPool j _ (view_jobCls hx)
    have hcls : ((view { M with ended := [j] } s).shape k).cls = c.cartridgeClass := by rw [view_shape hc hk]
    have hview : view { M with ended := [] } (createPackJob j k (jobDropped j rest s)) =
        (view { M with ended := [j] } s).takeJob k j c.cartridgeClass (view { M with ended := [j] } s).openPack rest := by
      rw [view_createPackJob (M := { M with ended := [] }) (s := jobDropped j rest s) hc hk List.not_mem_nil (by simp [view, readsBut, hloose]),
        view_deleteJob hloose]
      simp [Circ.takeJob, Circ.dropJob]
    have htake : (view { M with ended := [j] } s).Takes k (view { M with ended := [j] } s).openPack rest := .inr ⟨hst, rfl, hl⟩
    exact
      { form := hform
        lawful := hview ▸ h.lawful.takeJob htake hpool hpack
        counted := fun hC => by
          have hacct := accountAt_createPackJob (s := jobDropped j rest s) (j := j) hc
          exact hview ▸ hacct ▸ hcls ▸ (h.counted hC).takeJob h.lawful htake hholds
        placed := createPackJob_placed (s := jobDropped j rest s) hc (hplaced.congr (fun _ => rfl) (fun _ => .refl _) fun _ => rfl)
          ⟨hfloat.queues, hfloat.bays⟩
        hides := createPackJob_hides (s := jobDropped j rest s) hc ⟨h.hides.cons, fun i hi => absurd hi List.not_mem_nil⟩ }

end Packs

end Sys2Proof.Machine
end

