-- ==== Sys2Proof/Proofs/CirculatingOrders.lean ====
section
/-! PROOFS. Requests, allocation and the triggers keep the laws of circulation (R24, R37 to R45, R171). -/

namespace Sys2Proof.Machine

open Function (update)

/-! ## A line joins an open pack -/

/-- Pack `k` of patron `n` takes a line of title `m`. -/
def Circ.addLine (k n m : Nat) (v : Circ) : Circ :=
  v.reline k n (v.lines k ++ [m]) (v.charge n + 1) (update v.out m (v.out m + 1))

theorem Lawful.addLine {v : Circ} (h : Lawful v) {k n m : Nat} {x : TitleShape} (hk : v.stage k = some .assembling)
    (hn : (v.shape k).patron = n) (hx : v.title m = some x) (hpol : x.policy = .onDemand) (hclaim : v.Claimless n m) :
    Lawful (v.addLine k n m) := by
  have hpack := h.pack_of_assembling hk
  refine h.reline hk hn (by simp) (fun i hi => ?_) (by simp; omega) (fun i => ?_) (fun i => ?_)
  · rcases List.mem_append.mp hi with hi | hi
    · obtain ⟨y, hy, hfits⟩ := h.fitting k i hi
      rw [hpack] at hfits
      exact ⟨y, hy, hfits⟩
    · obtain rfl := List.mem_singleton.mp hi
      exact ⟨x, hx, hpol⟩
  · by_cases him : m = i
    · subst him
      simp only [Function.update_self, List.count_append, List.count_singleton_self]
      omega
    · simp [Function.update_of_ne (Ne.symm him), List.count_append, him]
  · have honce := h.once n i
    by_cases him : m = i
    · subst him
      unfold Circ.Claimless at hclaim
      simp only [List.count_append, List.count_singleton_self]
      omega
    · simp only [List.count_append, List.count_singleton, beq_iff_eq, him, if_false]
      omega

/-! ## Changes that leave the scheduler alone -/

/-- The invariant after a change that leaves the scheduler alone, by what the state shows of it. -/
theorem Good.record {C : Prop} {M : Amid} {s t : State} {w : Circ} (h : Good C M s) (hform : TablesCanonical s → TablesCanonical t)
    (hview : view M t = w) (hlawful : Lawful w) (hcounted : C → Counted w (accountAt t))
    (hsched : t.scheduler = s.scheduler) (hhides : ∀ k ∈ M.cons, (Table.get t.assembly.cons k).isSome = true) : Good C M t where
  form := hform h.form
  lawful := hview ▸ hlawful
  counted hC := hview ▸ hcounted hC
  placed := h.placed.congr (fun i => by rw [hsched]) (fun b => by rw [bayAt, hsched]; exact .refl _) fun l => by
    rw [queueAt, hsched, queueAt]
  hides := ⟨fun k hk => ⟨(h.hides.cons k hk).1, hhides k hk⟩, fun j hj => hsched ▸ h.hides.ended j hj⟩

section Requests

variable {C : Prop} {M : Amid} {s : State} {r k n m : Nat} {q : Request} {p : Patron} {x : Title}

theorem Good.shown (h : Good C M s) {k : Nat} (hk : k ∈ M.cons) : (Table.get s.assembly.cons k).isSome = true :=
  (h.hides.cons k hk).2

/-- A request ends (R25). -/
theorem Good.freeRequest (h : Good C M s) (hq : Table.get s.requests r = some q) : Good C M (freeRequest r q s) :=
  h.record (freeRequest_change r q s).work.tables (view_freeRequest M r q s) (h.lawful.endClaim (view_claim hq))
    (fun hC => (h.counted hC).endClaim r q.patron q.title) rfl fun _ => h.shown

theorem freeRequest_patron_isSome (hp : Table.get s.records.patrons n = some p) :
    (Table.get (Machine.freeRequest r q s).records.patrons n).isSome = true := by
  rw [freeRequest_patron]
  split_ifs <;> simp [hp]

theorem freeRequest_title_isSome (hx : Table.get s.records.titles m = some x) :
    (Table.get (Machine.freeRequest r q s).records.titles m).isSome = true := by
  rw [freeRequest_title]
  split_ifs <;> simp [hx]

/-! ## A line joins the open pack (R55) -/

theorem view_lineAdded {c : Consignment} {b : Nat} (hp : Table.get s.records.patrons q.patron = some p)
    (hx : Table.get s.records.titles q.title = some x) (hc : Table.get s.assembly.cons k = some c) (hk : k ∉ M.cons)
    (hlines : c.lines ≠ []) :
    view M (lineAdded k r b q s) = ((view M s).endClaim r q.patron q.title).addLine k q.patron q.title := by
  rw [← view_freeRequest]
  exact view_grantLine (l := lineOf q) (used := fun c => c.used + b + 16) hc hk hlines rfl
    (freeRequest_patron_isSome hp) (freeRequest_title_isSome hx)

theorem Good.lineAdded (h : Good C M s) (hq : Table.get s.requests r = some q)
    (hp : Table.get s.records.patrons q.patron = some p) (hx : Table.get s.records.titles q.title = some x)
    (hpol : x.policy = .onDemand) {c : Consignment} (hc : Table.get s.assembly.cons p.openPack = some c) (b : Nat) :
    Good C M (lineAdded p.openPack r b q s) := by
  obtain ⟨hk, hst, hpat⟩ := h.open_pack hp hc
  have hstage : (view M s).stage p.openPack = some .assembling := hst ▸ view_stage hc hk
  have hshape : ((view M s).shape p.openPack).patron = q.patron := by rw [view_shape hc hk, ← hpat]
  have hkind := h.lawful.pack_of_assembling hstage
  have hlines : c.lines ≠ [] := by
    have := h.lawful.lines_of_pack (view_present hc hk) hkind
    rwa [view_lines hc hk, ne_eq, List.map_eq_nil_iff] at this
  refine h.record (((freeRequest_change r q s).trans (.modCons _ _ _)).trans (grant_change _ _ _)).work.tables
    (view_lineAdded hp hx hc hk hlines) ?_ (fun hC => ?_) rfl fun i hi => ?_
  · exact (h.lawful.endClaim (view_claim hq)).addLine hstage hshape (view_title (M := M) hx) hpol
      (claimless_endClaim h.lawful (view_claim hq))
  · exact ((h.counted hC).endClaim r q.patron q.title).reline hkind _ _ _ _
  · rw [lineAdded_cons, apply_ite Option.isSome, Option.isSome_map, ite_self]
    exact h.shown hi

/-! ## Created consignments -/

section Created

variable {α β : Type} {t : Table α} {d : β} {f : α → β} {hidden : List Nat}

/-- An absent record reads as the default. -/
theorem readsBut_none (hfree : Table.get t k = none) : readsBut hidden t d f k = d := by simp [readsBut, reads, hfree]

theorem readsBut_some {a : α} (hk : k ∉ hidden) (ha : Table.get t k = some a) : readsBut hidden t d f k = f a := by
  simp [readsBut, reads, hk, ha]

theorem ite_eq_update (g : Nat → β) (b : β) : (fun i => if i = k then b else g i) = update g k b := by
  funext i
  by_cases hi : i = k <;> simp [hi]

theorem or_eq_update (g : Nat → Bool) : (fun i => decide (i = k) || g i) = update g k true := by
  funext i
  by_cases hi : i = k <;> simp [hi]

end Created

/-- A pack opens (R52, R54). -/
theorem view_packOpened (hp : Table.get s.records.patrons q.patron = some p) (hx : Table.get s.records.titles q.title = some x)
    (hk : Table.get s.assembly.cons k = none) (hhid : k ∉ M.cons) (y : Patron) (b : Nat) :
    view M (packOpened k r b q y s) =
      ((view M s).endClaim r q.patron q.title).enter [k] k q.patron q.title .pack y.cartridgeClass 0 := by
  rw [← view_freeRequest]
  obtain ⟨p', hp'⟩ := Option.isSome_iff_exists.mp (freeRequest_patron_isSome (r := r) (q := q) hp)
  obtain ⟨x', hx'⟩ := Option.isSome_iff_exists.mp (freeRequest_title_isSome (r := r) (q := q) hx)
  have hk' : Table.get (Machine.freeRequest r q s).assembly.cons k = none := hk
  simp only [packOpened]
  generalize Machine.freeRequest r q s = u at *
  simp [view, grant, createOnChain, newPack, newConsignment, Circ.enter, titleShape, ite_eq_update, or_eq_update, reads_put,
    carrierOf, readsBut_put hhid, lineOf, readsBut_none hk', Table.modify_modify]
  simp [reads_modify_some hp', reads_modify_some hx', reads_some hp', reads_some hx']

/-- What an allocation has made sure of. -/
theorem Good.enters (h : Good C M s) (hq : Table.get s.requests r = some q)
    (hp : Table.get s.records.patrons q.patron = some p) (hx : Table.get s.records.titles q.title = some x) {kind : ConsKind}
    (hfits : (titleShape x).fits kind) {ks : List Nat} (hk : k ∈ ks)
    (hfree : ∀ i ∈ ks, Table.get s.assembly.cons i = none ∧ 1 ≤ i ∧ i ≤ s.management.geometry.c) {parts : Nat}
    (hopen : kind = .pack → p.openPack = 0) (halone : kind ≠ .braillePart → ks = [k])
    (hset : kind = .braillePart → ks.Nodup ∧ ks.length = parts) :
    Enters ks k q.patron q.title kind parts ((view M s).endClaim r q.patron q.title) where
  mem := hk
  free i hi := ⟨view_absent (hfree i hi).1, (hfree i hi).2⟩
  carrier := view_carrier_absent (M := M) (hfree k hk).1
  member := view_member (M := M) hp
  title := ⟨titleShape x, view_title (M := M) hx, hfits⟩
  claimless := claimless_endClaim h.lawful (view_claim hq)
  service := by
    by_contra hsetup
    have hclaim := (h.lawful.emptySetup (Bool.eq_true_of_not_eq_false hsetup)).1 r
    rw [view_claim hq] at hclaim
    cases hclaim
  openPack hpack := (view_openPack (M := M) hp).trans (hopen hpack)
  alone := halone
  set := hset

/-- A consignment that takes no cartridge. -/
theorem Counted.enter {v : Circ} {a : Nat → ClassAccount} (h : Counted v a) (hl : Lawful v) {ks : List Nat} {kind : ConsKind}
    {cls parts : Nat} (he : Enters ks k n m kind parts v) (hkind : kind ≠ .shelfAudio)
    (hcls : kind ≠ .braillePart → IsClass cls) : Counted (v.enter ks k n m kind cls parts) a :=
  h.same (fun c => ⟨rfl, by simp [consignedOf_enter hl he, hkind], rfl, rfl⟩)
    (h.classed.enter hl he hcls fun hk => absurd hk hkind)

theorem Good.packOpened (h : Good C M s) (hq : Table.get s.requests r = some q)
    (hp : Table.get s.records.patrons q.patron = some p) (hx : Table.get s.records.titles q.title = some x)
    (hpol : x.policy = .onDemand) (hopen : p.openPack = 0)
    (hfree : Table.get s.assembly.cons k = none ∧ 1 ≤ k ∧ k ≤ s.management.geometry.c) {y : Patron} (hy : y.cartridgeClass = p.cartridgeClass) (b : Nat) : Good C M (packOpened k r b q y s) := by
  have henters := h.enters hq hp hx (kind := .pack) (ks := [k]) (parts := 0) hpol (List.mem_singleton_self k)
    (fun i hi => List.mem_singleton.mp hi ▸ hfree) (fun _ => hopen) (fun _ => rfl) (fun hc => by cases hc)
  have hlawful := h.lawful.endClaim (view_claim (M := M) hq)
  refine h.record ((((freeRequest_change r q s).trans (createOnChain_change _ _ _)).trans (.modPatron _ (by intro; exact ⟨rfl, rfl, rfl⟩) _)).trans
    (grant_change _ _ _)).work.tables (view_packOpened hp hx hfree.1 (h.not_hidden hfree.1) y b) (hlawful.enter henters) (fun hC => ?_) rfl
    fun i hi => ?_
  · refine ((h.counted hC).endClaim r q.patron q.title).enter hlawful henters (by decide) fun _ => ?_
    have hcls := (h.counted hC).classed.patron q.patron (view_member hp)
    rwa [view_patronCls hp, ← hy] at hcls
  · rw [packOpened_cons]
    split_ifs
    · rfl
    · exact h.shown hi

/-! ## A copy leaves its shelf (R39, R67) -/

theorem view_copyTaken (hp : Table.get s.records.patrons q.patron = some p) (hx : Table.get s.records.titles q.title = some x)
    (hk : Table.get s.assembly.cons k = none) (hhid : k ∉ M.cons) :
    view M (copyTaken k r q p x s) =
      (((view M s).endClaim r q.patron q.title).enter [k] k q.patron q.title .shelfAudio x.shelfClass 0).restock q.title
        x.copies (x.shelf - 1) x.repair := by
  have hcopies := view_copies (M := M) hx
  rw [← view_freeRequest]
  obtain ⟨p', hp'⟩ := Option.isSome_iff_exists.mp (freeRequest_patron_isSome (r := r) (q := q) hp)
  have hx' := freeRequest_title (s := s) r q q.title
  rw [if_pos rfl, hx, Option.map_some] at hx'
  have hk' : Table.get (Machine.freeRequest r q s).assembly.cons k = none := hk
  simp only [copyTaken]
  generalize Machine.freeRequest r q s = u at *
  simp [view, grant, takeCopy, pendPick, createOnChain, copyConsignment, newConsignment, Circ.enter, Circ.restock, titleShape, ite_eq_update, or_eq_update, reads_put,
    carrierOf, readsBut_put hhid, lineOf, readsBut_none hk', Table.modify_modify]
  simp [reads_modify_some hp', reads_modify_some hx', reads_some hp', reads_some hx']

theorem accountAt_modAccount_class {c d : Nat} {f : ClassAccount → ClassAccount} (hc : IsClass c) :
    accountAt (modAccount d f s) c = if c = d then f (accountAt s c) else accountAt s c := by
  rw [accountAt_modAccount]
  exact if_congr (and_iff_left hc) rfl rfl

/-- The cartridges on the shelf of a title are among those of its class. -/
theorem shelf_le_shelvedOf {v : Circ} {y : TitleShape} {c : Nat} (hl : Lawful v) (hy : v.title m = some y)
    (hc : shelfAudioOf (some y) c = true) : v.shelf m ≤ v.shelvedOf c := by
  have := le_tally (f := fun m => if shelfAudioOf (v.title m) c then v.shelf m else 0) (hl.titlePool m y hy).2
  simpa only [Circ.shelvedOf, hy, hc, if_true] using this

theorem ClassAccount.move_shelf_consigned {a : ClassAccount} (h : 1 ≤ a.shelf) : ClassAccount.move .shelf .consigned 1 a =
    { a with shelf := a.shelf - 1, consigned := a.consigned + 1 } := if_pos h

/-- A copy leaves the shelf of its title, its cartridge for the patron (R148). -/
theorem Counted.takeCopy {v : Circ} {a a' : Nat → ClassAccount} {parts : Nat} {y : TitleShape} (h : Counted v a) (hl : Lawful v)
    (he : Enters [k] k n m .shelfAudio parts v) (hy : v.title m = some y) (hfits : y.fits .shelfAudio) (hshelf : 1 ≤ v.shelf m)
    (ha : ∀ c, IsClass c → a' c = if c = y.shelfClass then ClassAccount.move .shelf .consigned 1 (a c) else a c) :
    Counted ((v.enter [k] k n m .shelfAudio y.shelfClass parts).restock m (v.copies m) (v.shelf m - 1) (v.repair m)) a' where
  agrees c hc := by
    obtain ⟨hpol, hfmt⟩ := hfits
    obtain ⟨hres, hcon, hsh, hbench⟩ := h.agrees c hc
    have hl' := hl.enter (cls := y.shelfClass) he
    have hclass : shelfAudioOf (some y) c = decide (c = y.shelfClass) := by simp [shelfAudioOf, hpol, hfmt, eq_comm]
    have hcons := consignedOf_enter (cls := y.shelfClass) hl he c
    have hshelved : Circ.shelvedOf _ c + (if shelfAudioOf (some y) c then v.shelf m else 0) = v.shelvedOf c + _ :=
      shelvedOf_restock (copies := v.copies m) (shelf := v.shelf m - 1) (repair := v.repair m) hl' hy c
    have hbenched : Circ.benchOf _ c + (if shelfAudioOf (some y) c then v.repair m else 0) = v.benchOf c + _ :=
      benchOf_restock (copies := v.copies m) (shelf := v.shelf m - 1) (repair := v.repair m) hl' hy c
    have hle : shelfAudioOf (some y) c = true → v.shelf m ≤ v.shelvedOf c := shelf_le_shelvedOf hl hy
    rw [ha c hc]
    rw [hclass] at hshelved hbenched hle
    by_cases hcy : c = y.shelfClass
    · simp only [hcy, decide_true, if_true, true_and, forall_const] at *
      rw [ClassAccount.move_shelf_consigned (by omega)]
      exact ⟨hres, by rw [hcon]; exact hcons.symm, by simp only; omega, by simp only; omega⟩
    · simp only [hcy, decide_false, Bool.false_eq_true, if_false, and_false, add_zero] at *
      exact ⟨hres, hcon.trans hcons.symm, hsh.trans hshelved.symm, hbench.trans hbenched.symm⟩
  classed := by
    obtain ⟨hpol, hfmt⟩ := hfits
    refine (h.classed.enter hl he (fun _ => h.classed.title m y hy hfmt hpol) fun _ z hz => ?_).restock fun hs => h.classed.bench hs m
    rw [hy] at hz
    cases hz
    rfl

theorem Good.copyTaken (h : Good C M s) (hq : Table.get s.requests r = some q)
    (hp : Table.get s.records.patrons q.patron = some p) (hx : Table.get s.records.titles q.title = some x)
    (hpol : x.policy = .shelf) (hfmt : x.format = .audio) (hshelf : 1 ≤ x.shelf)
    (hk : Table.lowestFree s.assembly.cons s.management.geometry.c = some k) : Good C M (copyTaken k r q p x s) := by
  have hfree := lowestFree_spec h.consWf hk
  have hfits : (titleShape x).fits .shelfAudio := ⟨hpol, hfmt⟩
  have henters := h.enters hq hp hx (kind := .shelfAudio) (ks := [k]) (parts := 0) hfits (List.mem_singleton_self k)
    (fun i hi => List.mem_singleton.mp hi ▸ hfree) (fun hc => by cases hc) (fun _ => rfl) (fun hc => by cases hc)
  have hlawful := h.lawful.endClaim (view_claim (M := M) hq)
  have hkept := h.lawful.copied q.title _ (view_title (M := M) hx)
  rw [view_copies hx, view_shelf hx, view_out hx, view_repair hx] at hkept
  refine h.record (((((freeRequest_change r q s).trans (createOnChain_change _ _ _)).trans (takeCopy_change _ _)).trans
    (.modAccount _ (fun _ ha => ClassAccount.move_balanced ha (by simp)) _)).trans (grant_change _ _ _) |>.trans (.pendPick _ _)).work.tables
    (view_copyTaken hp hx hfree.1 (h.not_hidden hfree.1)) ((hlawful.enter henters).restock fun y hy => ?_) (fun hC => ?_) rfl
    fun i hi => ?_
  · obtain rfl := Option.some.inj (hy.symm.trans (view_title (M := M) hx))
    obtain ⟨hkept, -, hbraille⟩ := hkept
    have hsum := hkept hpol
    refine ⟨fun _ => ?_, fun hd => ?_, hbraille⟩
    · simp [Circ.enter, Circ.endClaim, view_out hx]
      omega
    · cases hpol.symm.trans hd
  · have hcounted := ((h.counted hC).endClaim r q.patron q.title).takeCopy (a' := accountAt (Machine.copyTaken k r q p x s)) hlawful
      henters (view_title (M := M) hx) hfits ((view_shelf (M := M) hx).symm ▸ hshelf) fun c hc => ?_
    · exact (view_copies (M := M) hx) ▸ (view_shelf (M := M) hx) ▸ (view_repair (M := M) hx) ▸ hcounted
    · exact accountAt_modAccount_class hc
  · rw [copyTaken_cons]
    split_ifs
    · rfl
    · exact h.shown hi

/-- A title that is not SHELF audio counts in no class. -/
theorem Counted.restock {v : Circ} {a : Nat → ClassAccount} {copies shelf repair : Nat} {y : TitleShape} (h : Counted v a)
    (hl : Lawful v) (hy : v.title m = some y) (hclass : ∀ c, shelfAudioOf (some y) c = false)
    (hbench : v.setup = true → repair = 0) : Counted (v.restock m copies shelf repair) a :=
  h.same (fun c => ⟨rfl, rfl, by simpa [hclass] using shelvedOf_restock (copies := copies) (shelf := shelf) (repair := repair) hl hy c,
    by simpa [hclass] using benchOf_restock (copies := copies) (shelf := shelf) (repair := repair) hl hy c⟩) (h.classed.restock hbench)

/-! ## A set takes a record for each part (R40, R66) -/

/-- The pool has at least the FREE records that its count names. -/
theorem freeCount_le_freeNumbers {α : Type} (t : Table α) (n : Nat) : Table.freeCount t n ≤ (freeNumbers t n).length := by
  have htaken : ((List.range' 1 n).filter fun k => (Table.get t k).isSome).length ≤ (t.map Prod.fst).length :=
    (List.Nodup.subperm (List.Nodup.filter _ List.nodup_range') fun k hk =>
      Table.get_isSome_iff.mp (List.mem_filter.mp hk).2).length_le
  have hsplit := List.length_eq_length_filter_add (l := List.range' 1 n) fun k => (Table.get t k).isSome
  simp only [List.length_range', List.length_map, Option.not_isSome] at hsplit htaken
  unfold Table.freeCount freeNumbers
  omega

/-- The records that a set takes. -/
def setRecords (p : Patron) (x : Title) (s : State) : List Nat :=
  (freeNumbers s.assembly.cons s.management.geometry.c).take (planOf p x s).parts

/-- The records of the set taken: each a part of it, the line on its head. -/
theorem setTaken_records (hw : Table.wf s.assembly.cons) (hk : Table.lowestFree s.assembly.cons s.management.geometry.c = some k)
    (hf : (planOf p x s).parts ≤ freeConsignments s) :
    (∀ i ∈ setRecords p x s, ∃ a, (a = 1 ↔ i = k) ∧ Table.get (setTaken k r q p x s).assembly.cons i =
      some (setPart (planOf p x s) x.volumes x.weight (setBase q p s) k a)) ∧
    ∀ i, i ∉ setRecords p x s → Table.get (setTaken k r q p x s).assembly.cons i = Table.get s.assembly.cons i := by
  have hfree : freeNumbers (freeRequest r q s).assembly.cons (freeRequest r q s).management.geometry.c =
      freeNumbers s.assembly.cons s.management.geometry.c := rfl
  obtain ⟨hparts, hothers⟩ := createParts_parts (s := freeRequest r q s) (i := 1) (h := k) (plan := planOf p x s)
    (v := x.volumes) (w := x.weight) (c := setBase q p s) hw hfree (hf.trans (freeCount_le_freeNumbers _ _))
  refine ⟨fun i hi => ?_, hothers⟩
  obtain ⟨a, ha, rfl⟩ := List.getElem_of_mem hi
  obtain ⟨j, hj, hget⟩ := hparts a (by simp [setRecords] at ha; omega)
  have hij : (setRecords p x s)[a] = j := by
    simp only [setRecords, List.getElem_take]
    exact Option.some.inj ((List.getElem?_eq_getElem _).symm.trans hj)
  refine ⟨1 + a, ?_, hij ▸ hget⟩
  rw [lowestFree_eq_head? hw, List.head?_eq_getElem?, List.getElem?_eq_some_iff] at hk
  obtain ⟨h0, rfl⟩ := hk
  simp only [setRecords, List.getElem_take, (freeNumbers_nodup _ _).getElem_inj_iff]
  omega

/-- A table in which records `ks` have come to read alike. -/
theorem readsBut_created {α β : Type} {t u : Table α} {d b : β} {f : α → β} {hidden ks : List Nat}
    (hhid : ∀ i ∈ ks, i ∉ hidden) (hin : ∀ i ∈ ks, ∃ a, Table.get u i = some a ∧ f a = b)
    (hout : ∀ i, i ∉ ks → Table.get u i = Table.get t i) :
    readsBut hidden u d f = fun i => if i ∈ ks then b else readsBut hidden t d f i := by
  funext i
  by_cases hi : i ∈ ks
  · obtain ⟨a, ha, rfl⟩ := hin i hi
    simp [hi, readsBut_some (hhid i hi) ha]
  · simp [hi, readsBut, reads, hout i hi]

/-- A table in which records `ks`, absent before, read as absent still, but one of them. -/
theorem reads_created {α β : Type} {t u : Table α} {d b : β} {f : α → β} {ks : List Nat} (hk : k ∈ ks)
    (hfree : ∀ i ∈ ks, Table.get t i = none) (hin : ∀ i ∈ ks, ∃ a, Table.get u i = some a ∧ f a = if i = k then b else d)
    (hout : ∀ i, i ∉ ks → Table.get u i = Table.get t i) : reads u d f = update (reads t d f) k b := by
  funext i
  by_cases hi : i ∈ ks
  · obtain ⟨a, ha, hf⟩ := hin i hi
    rw [reads_some ha, hf]
    by_cases hik : i = k
    · simp [hik]
    · simp [hik, reads_none (hfree i hi)]
  · have hik : i ≠ k := fun e => hi (e ▸ hk)
    simp [hik, reads, hout i hi]

theorem readsBut_created_at {α β : Type} {t u : Table α} {d b : β} {f : α → β} {hidden ks : List Nat} (hk : k ∈ ks)
    (hhid : ∀ i ∈ ks, i ∉ hidden) (hfree : ∀ i ∈ ks, Table.get t i = none)
    (hin : ∀ i ∈ ks, ∃ a, Table.get u i = some a ∧ f a = if i = k then b else d)
    (hout : ∀ i, i ∉ ks → Table.get u i = Table.get t i) :
    readsBut hidden u d f = update (readsBut hidden t d f) k b := by
  funext i
  have hi := congrFun (reads_created hk hfree hin hout) i
  by_cases hik : i = k
  · subst hik
    simpa [readsBut, hhid i hk] using hi
  · simpa [readsBut, hik] using ite_congr rfl (fun _ => rfl) fun _ => by simpa [hik] using hi

theorem readsBut_created_same {α β : Type} {t u : Table α} {d : β} {f : α → β} {hidden ks : List Nat}
    (hfree : ∀ i ∈ ks, Table.get t i = none) (hin : ∀ i ∈ ks, ∃ a, Table.get u i = some a ∧ f a = d)
    (hout : ∀ i, i ∉ ks → Table.get u i = Table.get t i) : readsBut hidden u d f = readsBut hidden t d f :=
  readsBut_congr fun i _ => by
    by_cases hi : i ∈ ks
    · obtain ⟨a, ha, hf⟩ := hin i hi
      rw [reads_some ha, hf, reads_none (hfree i hi)]
    · simp [reads, hout i hi]

theorem view_setTaken (hp : Table.get s.records.patrons q.patron = some p) (hx : Table.get s.records.titles q.title = some x)
    (hw : Table.wf s.assembly.cons) (hk : Table.lowestFree s.assembly.cons s.management.geometry.c = some k)
    (hf : (planOf p x s).parts ≤ freeConsignments s) (hhid : ∀ i ∈ setRecords p x s, i ∉ M.cons)
    (hmem : k ∈ setRecords p x s) :
    view M (setTaken k r q p x s) =
      (((view M s).endClaim r q.patron q.title).enter (setRecords p x s) k q.patron q.title .braillePart 0
        (planOf p x s).parts).restock q.title x.copies (x.shelf - 1) x.repair := by
  have hcopies := view_copies (M := M) hx
  obtain ⟨hin, hout⟩ := setTaken_records (r := r) (q := q) hw hk hf
  have hassembly := setTaken_assembly k r q p x s
  rw [← view_freeRequest]
  obtain ⟨p', hp'⟩ := Option.isSome_iff_exists.mp (freeRequest_patron_isSome (r := r) (q := q) hp)
  have hx' := freeRequest_title (s := s) r q q.title
  rw [if_pos rfl, hx, Option.map_some] at hx'
  simp only [hassembly] at hin hout
  simp only [setTaken]
  rw [createParts_frame]
  generalize (createParts _ _ _ _ _ _ _ _).assembly.cons = t at hin hout ⊢
  have hcons : (Machine.freeRequest r q s).assembly.cons = s.assembly.cons := rfl
  rw [← hcons] at hout
  generalize Machine.freeRequest r q s = u at *
  simp [view, grant, takeCopy, pendPick, Circ.enter, Circ.restock, titleShape, Table.modify_modify]
  simp [reads_modify_some hp', reads_modify_some hx', reads_some hp', reads_some hx']
  have hnew : ∀ i ∈ setRecords p x s, Table.get u.assembly.cons i = none := fun i hi =>
    hcons ▸ (mem_freeNumbers.mp (List.mem_of_mem_take hi)).2
  have part : ∀ {β : Type} (f : Consignment → β) (b : Nat → β),
      (∀ a i, (a = 1 ↔ i = k) → f (setPart (planOf p x s) x.volumes x.weight (setBase q p s) k a) = b i) →
      ∀ i ∈ setRecords p x s, ∃ c, Table.get t i = some c ∧ f c = b i := fun f b hb i hi => by
    obtain ⟨a, ha, hget⟩ := hin i hi
    exact ⟨_, hget, hb a i ha⟩
  refine ⟨?_, ?_, ?_, ?_, ?_, ?_, ?_, ?_, ?_, ?_⟩
  · rw [readsBut_created hhid (part _ (fun _ => true) fun _ _ _ => rfl) hout]
    funext i
    by_cases hi : i ∈ setRecords p x s <;> simp [hi]
  · exact readsBut_created hhid (part _ _ fun _ _ _ => rfl) hout
  · exact readsBut_created hhid (part _ _ fun _ _ _ => rfl) hout
  · exact readsBut_created_at hmem hhid hnew (part _ _ fun a i ha => by by_cases hi : i = k <;> simp [setPart, setBase, lineOf, ha, hi]) hout
  · exact readsBut_created_same hnew (part _ (fun _ => true) fun a i ha => by by_cases hi : i = k <;> simp [setPart, setBase, lineOf, ha, hi]) hout
  · exact readsBut_created_same hnew (part _ _ fun _ _ _ => rfl) hout
  · exact readsBut_created_same hnew (part _ _ fun _ _ _ => rfl) hout
  · exact readsBut_created_same hnew (part _ _ fun _ _ _ => rfl) hout
  · exact readsBut_created_same hnew (part _ _ fun _ _ _ => rfl) hout
  · exact reads_created hmem hnew (part _ _ fun a i ha => by by_cases hi : i = k <;> simp [carrierOf, setPart, setBase, newConsignment, ha, hi]) hout

theorem Good.setTaken (h : Good C M s) (hq : Table.get s.requests r = some q)
    (hp : Table.get s.records.patrons q.patron = some p) (hx : Table.get s.records.titles q.title = some x)
    (hpol : x.policy = .shelf) (hfmt : x.format = .braille) (hshelf : 1 ≤ x.shelf)
    (hk : Table.lowestFree s.assembly.cons s.management.geometry.c = some k)
    (hf : (planOf p x s).parts ≤ freeConsignments s) : Good C M (setTaken k r q p x s) := by
  have hkept := h.lawful.copied q.title _ (view_title (M := M) hx)
  rw [view_copies hx, view_shelf hx, view_out hx, view_repair hx] at hkept
  obtain ⟨hcopies, -, hbraille⟩ := hkept
  have hsum := hcopies hpol
  have hlen : (setRecords p x s).length = (planOf p x s).parts :=
    List.length_take.trans (Nat.min_eq_left (hf.trans (freeCount_le_freeNumbers _ _)))
  have hmem : k ∈ setRecords p x s := by
    have hpos := planSet_parts_pos (limit := (windowAt s (resolveWindow s (destination s p))).limit) (v := x.volumes)
      (w := x.weight) (hbraille hfmt).2
    rw [lowestFree_eq_head? h.consWf, List.head?_eq_some_iff] at hk
    obtain ⟨rest, hrest⟩ := hk
    obtain ⟨a, ha⟩ := Nat.exists_eq_add_of_le' hpos
    rw [setRecords, hrest, planOf, ha, List.take_succ_cons]
    exact List.mem_cons_self
  have hfree : ∀ i ∈ setRecords p x s, Table.get s.assembly.cons i = none ∧ 1 ≤ i ∧ i ≤ s.management.geometry.c := fun i hi =>
    (mem_freeNumbers.mp (List.mem_of_mem_take hi)).symm
  have henters := h.enters hq hp hx (kind := .braillePart) (ks := setRecords p x s) ⟨hpol, hfmt⟩ hmem hfree
    (fun hc => by cases hc) (fun hc => absurd rfl hc) fun _ => ⟨(freeNumbers_nodup _ _).sublist (List.take_sublist _ _), hlen⟩
  have hlawful := h.lawful.endClaim (view_claim (M := M) hq)
  refine h.record (((((freeRequest_change r q s).trans (createParts_change _ _ _ _ _ _ _ _)).trans
    (.modPatron _ (by intro; exact ⟨rfl, rfl, rfl⟩) _)).trans (takeCopy_change _ _)).trans (grant_change _ _ _) |>.trans (.pendPick _ _)).work.tables
    (view_setTaken hp hx h.consWf hk hf (fun i hi => h.not_hidden (hfree i hi).1) hmem)
    ((hlawful.enter henters).restock fun y hy => ?_) (fun hC => ?_) ?_ fun i hi => ?_
  · obtain rfl := Option.some.inj (hy.symm.trans (view_title (M := M) hx))
    refine ⟨fun _ => ?_, fun hd => ?_, hbraille⟩
    · simp [Circ.enter, Circ.endClaim, view_out hx]
      omega
    · cases hpol.symm.trans hd
  · have hentered := ((h.counted hC).endClaim r q.patron q.title).enter (cls := 0) hlawful henters (by decide) fun hc => absurd rfl hc
    have hacct : accountAt (Machine.setTaken k r q p x s) = accountAt s := by
      rw [setTaken_frame]
      rfl
    rw [hacct]
    exact hentered.restock (hlawful.enter henters) (view_title (M := M) hx) (fun c => by simp [shelfAudioOf, titleShape, hfmt])
      fun hs => (view_repair (M := M) hx).symm.trans (hentered.classed.bench hs q.title)
  · rw [setTaken_frame]
  · obtain ⟨-, hout⟩ := setTaken_records (r := r) (q := q) h.consWf hk hf
    rw [hout i fun hmem => h.not_hidden (hfree i hmem).1 hi]
    exact h.shown hi

/-! ## The attempt and what it follows (R37 to R45) -/

theorem Good.latch (h : Good C M s) (n : NoticeId) (x : Nat) : Good C M (latch n x s) := (Calm.latch n x s).good h

/-- A request for an ON_DEMAND title (R54 to R56). -/
theorem Good.onDemand (h : Good C M s) (hq : Table.get s.requests r = some q)
    (hp : Table.get s.records.patrons q.patron = some p) (hx : Table.get s.records.titles q.title = some x)
    (hpol : x.policy = .onDemand) : Good C M (noteExhausted q.patron (allocateOnDemand r q p x s)).2 := by
  cases hc : Table.get s.assembly.cons p.openPack with
  | none =>
    cases hk : Table.lowestFree s.assembly.cons s.management.geometry.c with
    | none =>
      rw [allocateOnDemand_lacks (fun ⟨c, hc', _⟩ => by simp [hc] at hc') hk]
      exact h.latch _ _
    | some k =>
      rw [allocateOnDemand_opens hc hk]
      exact (h.packOpened hq hp hx hpol (h.no_open_pack hp hc) (lowestFree_spec h.consWf hk) rfl _).examineClose q.patron
  | some c =>
    by_cases hf : c.used + titleBlocks x + 16 ≤ capacityOf s c.cartridgeClass
    · rw [allocateOnDemand_joins hc hf]
      exact (h.lineAdded hq hp hx hpol hc _).examineClose q.patron
    cases hk : Table.lowestFree s.assembly.cons s.management.geometry.c with
    | none =>
      rw [allocateOnDemand_lacks (fun ⟨c', hc', hf'⟩ => hf (Option.some.inj (hc.symm.trans hc') ▸ hf')) hk]
      exact h.latch _ _
    | some k =>
      rw [allocateOnDemand_reopens hc hf hk]
      obtain ⟨hopen, hst, hpat⟩ := h.open_pack hp hc
      obtain ⟨c', hseals⟩ := sealPack_seals hc hst (hpat ▸ hp)
      have hfree := lowestFree_spec h.consWf hk
      have hsealed := h.sealPack hopen
      have hpatron : Table.get (Machine.sealPack p.openPack s).records.patrons q.patron = some { p with openPack := 0 } := by
        rw [hseals.frame, Table.get_modify, hpat, if_pos rfl, hp, Option.map_some]
      refine (hsealed.packOpened ?_ hpatron ?_ hpol rfl ⟨?_, hfree.2.1, ?_⟩ rfl _).examineClose q.patron
      · rw [hseals.frame]; exact hq
      · rw [hseals.frame]; exact hx
      · have hne : k ≠ p.openPack := fun e => by simp [← e, hfree.1] at hc
        rw [hseals.others k hne]
        exact hfree.1
      · rw [hseals.frame]; exact hfree.2.2

/-- One allocation attempt (R37 to R42). -/
theorem Good.attempt (h : Good C M s) (r : Nat) : Good C M (attempt r s).2 := by
  cases hq : Table.get s.requests r with
  | none => rwa [attempt_absent hq]
  | some q =>
    obtain ⟨⟨p, hp⟩, x, hx⟩ := h.request_present hq
    by_cases he : patronEligible p = true ∧ x.availability = .available ∧ (x.policy = .shelf → 1 ≤ x.shelf)
    swap
    · rwa [attempt_passesOver hq hp hx he]
    obtain ⟨he, ha, hshelf⟩ := he
    rw [attempt_eligible hq hp hx he ha]
    cases hpol : x.policy with
    | onDemand => rw [allocateKind_onDemand hpol]; exact h.onDemand hq hp hx hpol
    | shelf =>
      have hs := hshelf hpol
      cases hk : Table.lowestFree s.assembly.cons s.management.geometry.c with
      | none =>
        have hlacks := attempt_lacks hq hp hx he ha (.inr ⟨hpol, hs, .inl hk⟩)
        rw [attempt_eligible hq hp hx he ha] at hlacks
        rw [hlacks]
        exact h.latch _ _
      | some k =>
        cases hfmt : x.format with
        | audio =>
          rw [allocateKind_copy hpol hs hfmt, allocateShelf_takes hk]
          exact (h.copyTaken hq hp hx hpol hfmt hs hk).examineClose q.patron
        | braille =>
          rw [allocateKind_set hpol hs hfmt]
          by_cases hf : (planOf p x s).parts ≤ freeConsignments s
          · rw [allocateBraille_takes hk hf]
            exact (h.setTaken hq hp hx hpol hfmt hs hk hf).examineClose q.patron
          · rw [allocateBraille_lacks (.inr (Nat.lt_of_not_le hf))]
            exact h.latch _ _

theorem Good.foldl {β : Type} {f : State → β → State} (hf : ∀ s b, Good C M s → Good C M (f s b)) (l : List β) (h : Good C M s) :
    Good C M (l.foldl f s) := by
  induction l generalizing s with
  | nil => exact h
  | cons b l ih => exact ih (hf s b h)

/-- *Copy freed* (R44). -/
theorem Good.copyFreed (h : Good C M s) (m : Nat) : Good C M (copyFreed m s) := by
  unfold Machine.copyFreed
  split
  · exact h
  split_ifs
  · split
    · exact h
    · exact h.attempt _
  · exact h

theorem Good.copiesFreed (h : Good C M s) (n m : Nat) : Good C M (copiesFreed n m s) := by
  induction n generalizing s with
  | zero => exact h
  | succ n ih => exact ih (h.copyFreed m)

/-- *Headroom* (R45). -/
theorem Good.headroom (h : Good C M s) (n : Nat) : Good C M (headroom n s) := by
  unfold Machine.headroom
  split
  · exact h
  · exact Good.foldl (fun _ r hs => hs.attempt r) _ h

end Requests

end Sys2Proof.Machine
end

