-- ==== Sys2Proof/Proofs/CirculatingRequests.lean ====
section
/-! PROOFS. New requests, restored lines and the held state keep the laws of circulation (R24, R30, R47, R48, R171). -/

namespace Sys2Proof.Machine

open Function (update)

section Held

variable {C : Prop} {M : Amid} {s : State} {n : Nat}

/-- A patron record changed in nothing that circulates. -/
theorem view_modPatron_kept {f : Patron → Patron} (hf : ∀ p, (f p).cartridgeClass = p.cartridgeClass ∧ (f p).wish = p.wish ∧
    (f p).chain = p.chain ∧ (f p).openPack = p.openPack ∧ (f p).charge = p.charge ∧ (f p).overdue = p.overdue) :
    view M (modPatron n f s) = view M s := by
  simp [view, hf]

theorem TablesCanonical.modPatron {f : Patron → Patron} (h : TablesCanonical s) : TablesCanonical (modPatron n f s) := by
  obtain ⟨hpatrons, hrest⟩ := h
  exact ⟨Table.wf_modify _ _ _ hpatrons, hrest⟩

/-- The held state is evaluated (R171, R173). -/
theorem Good.evaluateHeld (h : Good C M s) (n : Nat) : Good C M (evaluateHeld n s) := by
  have hheld (held : Bool) : Good C M (modPatron n (fun x => { x with held := held }) s) :=
    h.record .modPatron (view_modPatron_kept fun _ => ⟨rfl, rfl, rfl, rfl, rfl, rfl⟩) h.lawful h.counted rfl fun _ => h.shown
  unfold Machine.evaluateHeld
  split
  · exact h
  · dsimp only
    split_ifs
    · exact (hheld _).headroom n
    · exact hheld _

end Held

section Requests

variable {C : Prop} {M : Amid} {s : State} {r n m : Nat} {p : Patron} {x : Title}

/-! ## A new request (R24, R30) -/

theorem view_addRequest {q : Request} (hp : Table.get s.records.patrons q.patron = some p)
    (hx : Table.get s.records.titles q.title = some x) :
    view M (addRequest r q s) = (view M s).addClaim r q.patron q.title (p.wish ++ [r]) (x.waiting ++ [r]) := by
  simp [view, addRequest, Circ.addClaim, titleShape, reads_put]
  exact ⟨reads_modify_some hp, reads_modify_some hx⟩

theorem Good.addRequest (h : Good C M s) {q : Request} (hp : Table.get s.records.patrons q.patron = some p)
    (hx : Table.get s.records.titles q.title = some x)
    (hr : Table.lowestFree s.requests s.management.geometry.q = some r) (hclaim : (view M s).Claimless q.patron q.title)
    (hservice : s.management.mode = .service) : Good C M (addRequest r q s) := by
  obtain ⟨hnone, hpool⟩ := lowestFree_spec h.requestsWf hr
  refine h.record (addRequest_change r q s).work.tables (view_addRequest hp hx) (h.lawful.addClaim (view_claim_none hnone) hpool ?_ ?_ hclaim ?_)
    (fun hC => (h.counted hC).addClaim _ _ _ _ _) rfl fun _ => h.shown
  · rw [view_wish hp]
    exact List.perm_append_singleton r _
  · rw [view_waiting hx]
    exact List.perm_append_singleton r _
  · simp [view, hservice, Mode.isSetup]

/-! ## Restored lines (R47, R48) -/

/-- The patron no longer owes lines that name titles `l`: they leave its charge, and those of ON_DEMAND titles the out accounts. -/
def Circ.forgive (n : Nat) (l : List Nat) (v : Circ) : Circ :=
  { v with
    charge := update v.charge n (v.charge n - l.length)
    out := fun m => v.out m - if (v.title m).any (fun x => decide (x.policy = .onDemand)) then l.count m else 0 }

theorem insertAfter_perm {l : List Nat} (h : l.Nodup) (k x : Nat) : (insertAfter l k x).Perm (x :: l) := by
  by_cases hk : k ∈ l
  · obtain ⟨pre, post, rfl⟩ := List.append_of_mem hk
    have hpre : k ∉ pre := fun hm => (List.disjoint_of_nodup_append h) hm List.mem_cons_self
    have hpost : k ∉ post := (List.nodup_cons.mp (List.nodup_append.mp h).2.1).1
    rw [insertAfter_split hpre hpost]
    simpa using List.perm_middle (a := x) (l₁ := pre ++ [k]) (l₂ := post)
  · rw [insertAfter_absent hk]

theorem Circ.forgive_nil (n : Nat) (v : Circ) : v.forgive n [] = v := by simp [Circ.forgive]

theorem Circ.forgive_cons (n m : Nat) (rest : List Nat) (v : Circ) :
    (v.forgive n [m]).forgive n rest = v.forgive n (m :: rest) := by
  have hout : ∀ i, v.out i - (if (v.title i).any (fun x => decide (x.policy = .onDemand)) then [m].count i else 0) -
      (if (v.title i).any (fun x => decide (x.policy = .onDemand)) then rest.count i else 0) =
      v.out i - if (v.title i).any (fun x => decide (x.policy = .onDemand)) then (m :: rest).count i else 0 := fun i => by
    split_ifs
    · rw [List.count_cons, List.count_cons, List.count_nil]
      omega
    · rfl
  simp only [Circ.forgive, Function.update_self, Function.update_idem, List.length_cons, List.length_nil]
  congr 2
  · omega
  · exact funext hout

theorem view_ungrant (hp : Table.get s.records.patrons n = some p) (m : Nat) :
    view M (ungrant n m s) = (view M s).forgive n [m] := by
  have hfield {β : Type} (d : β) (f : Title → β) (hf : ∀ (x : Title) (o : Nat), f { x with out := o } = f x) :
      reads (ungrant n m s).records.titles d f = reads s.records.titles d f := by
    funext i
    have h := ungrant_title (s := s) n m i
    cases hx : Table.get s.records.titles i with
    | none => simp [reads, h, hx]
    | some x =>
      simp only [reads, h, hx, Option.map_some, Option.getD_some]
      split_ifs
      · exact hf x _
      · rfl
  have hout : reads (ungrant n m s).records.titles 0 Title.out = fun i => (view M s).out i -
      if ((view M s).title i).any (fun x => decide (x.policy = .onDemand)) then [m].count i else 0 := by
    funext i
    have h := ungrant_title (s := s) n m i
    cases hx : Table.get s.records.titles i with
    | none => simp [view, reads, h, hx]
    | some x =>
      simp only [view, reads, h, hx, Option.map_some, Option.getD_some]
      by_cases hi : i = m
      · by_cases hd : x.policy = .onDemand <;> simp [hi, hd, titleShape]
      · simp [hi, Ne.symm hi]
  simp only [view, hfield _ (fun x => some (titleShape x)) (fun _ _ => rfl), hfield _ Title.waiting (fun _ _ => rfl),
    hfield _ Title.copies (fun _ _ => rfl), hfield _ Title.shelf (fun _ _ => rfl), hfield _ Title.repair (fun _ _ => rfl), hout]
  simp [ungrant, Circ.forgive, reads_modify_some hp, reads_some hp]
  rfl

/-- Line `l` of patron `n` as request `r`, the line still owed. -/
def lineReturned (n prev r : Nat) (l : Line) (s : State) : State :=
  modPatron n (fun p => { p with wish := insertAfter p.wish prev r })
    (modTitle l.title (fun t => { t with waiting := r :: t.waiting })
      { s with requests := Table.put s.requests r { patron := n, title := l.title, day := l.origin } })

theorem view_lineReturned (hp : Table.get s.records.patrons n = some p) {l : Line} (hx : Table.get s.records.titles l.title = some x)
    (prev r : Nat) : view M (lineReturned n prev r l s) =
      (view M s).addClaim r n l.title (insertAfter p.wish prev r) (r :: x.waiting) := by
  simp [view, lineReturned, Circ.addClaim, titleShape, reads_put]
  exact ⟨reads_modify_some hp, reads_modify_some hx⟩

/-- The laws of circulation hold but for lines that patron `n` still owes: `l`, whose titles it does not claim. -/
structure Owing (C : Prop) (M : Amid) (n : Nat) (l : List Line) (s : State) : Prop where
  form : TablesCanonical s
  lawful : Lawful ((view M s).forgive n (l.map Line.title))
  counted : C → Counted ((view M s).forgive n (l.map Line.title)) (accountAt s)
  placed : Placed M.loose s
  hides : Hides M s
  patron : (Table.get s.records.patrons n).isSome = true
  titles : ∀ i ∈ l, (Table.get s.records.titles i.title).isSome = true
  once : (l.map Line.title).Nodup
  claimless : ∀ i ∈ l, ((view M s).forgive n (l.map Line.title)).Claimless n i.title

theorem Owing.good (h : Owing C M n [] s) : Good C M s where
  form := h.form
  lawful := Circ.forgive_nil n (view M s) ▸ h.lawful
  counted hC := Circ.forgive_nil n (view M s) ▸ h.counted hC
  placed := h.placed
  hides := h.hides

theorem Claimless.addClaim {v : Circ} {m' : Nat} {wish waiting : List Nat} (h : v.Claimless n m') (hm : m' ≠ m)
    (hpool : r ≤ v.geo.q) (hfree : v.claim r = none) : (v.addClaim r n m wish waiting).Claimless n m' := by
  have hlive := Circ.live_change (v := v) (w := v.addClaim r n m wish waiting) (q := some (n, m)) rfl hpool
    (fun i hi => by simp [Circ.addClaim, hi]) (by simp [Circ.addClaim]) n m'
  have hne : ¬(some (n, m) = some (n, m')) := by simp [Ne.symm hm]
  rw [hfree, if_neg (by simp), if_neg hne] at hlive
  unfold Circ.Claimless at h ⊢
  have hopen : (v.addClaim r n m wish waiting).openOf n m' = v.openOf n m' := rfl
  omega

/-- A line that finds no request record is dropped (R48). -/
theorem Owing.dropped {l : Line} {rest : List Line} (h : Owing C M n (l :: rest) s) : Owing C M n rest (lineDropped n l s) := by
  obtain ⟨p, hp⟩ := Option.isSome_iff_exists.mp h.patron
  have hview : (view M (lineDropped n l s)).forgive n (rest.map Line.title) =
      (view M s).forgive n ((l :: rest).map Line.title) := by
    rw [lineDropped, (Calm.latch _ _ _).view, view_ungrant hp, Circ.forgive_cons]
    rfl
  refine
    { form := ((ungrant_change _ _ _).trans (.latch _ _ _)).work.tables h.form
      lawful := hview ▸ h.lawful
      counted := fun hC => hview ▸ h.counted hC
      placed := h.placed.congr (fun _ => rfl) (fun _ => .refl _) fun _ => rfl
      hides := ⟨h.hides.cons, h.hides.ended⟩
      patron := by rw [lineDropped_patron, if_pos rfl, hp]; rfl
      titles := fun i hi => by
        rw [lineDropped_title, Option.isSome_map]
        exact h.titles i (List.mem_cons_of_mem l hi)
      once := (List.nodup_cons.mp h.once).2
      claimless := fun i hi => hview ▸ h.claimless i (List.mem_cons_of_mem l hi) }

/-- A line becomes a request (R47). -/
theorem Owing.restored {l : Line} {rest : List Line} (h : Owing C M n (l :: rest) s)
    (hr : Table.lowestFree s.requests s.management.geometry.q = some r) (hservice : s.management.mode = .service) (prev : Nat) :
    Owing C M n rest (lineRestored n prev r l s) := by
  obtain ⟨p, hp⟩ := Option.isSome_iff_exists.mp h.patron
  obtain ⟨x, hx⟩ := Option.isSome_iff_exists.mp (h.titles l List.mem_cons_self)
  have hp' : Table.get (lineReturned n prev r l s).records.patrons n = some { p with wish := insertAfter p.wish prev r } := by
    simp [lineReturned, Table.get_modify, hp]
  have hview : (view M (lineRestored n prev r l s)).forgive n (rest.map Line.title) =
      ((view M s).forgive n ((l :: rest).map Line.title)).addClaim r n l.title (insertAfter p.wish prev r) (r :: x.waiting) := by
    rw [show lineRestored n prev r l s = ungrant n l.title (lineReturned n prev r l s) from rfl, view_ungrant hp',
      Circ.forgive_cons, view_lineReturned hp hx]
    rfl
  obtain ⟨hnone, hpool⟩ := lowestFree_spec h.form.2.2.2.1 hr
  have hclaim : ((view M s).forgive n ((l :: rest).map Line.title)).claim r = none :=
    view_claim_none (M := M) hnone
  have hwish := view_wish (M := M) hp
  have hnodup : p.wish.Nodup := hwish ▸ (h.lawful.wished n).1
  obtain ⟨hnot, honce⟩ := List.nodup_cons.mp h.once
  refine
    { form := ?_
      lawful := hview ▸ h.lawful.addClaim hclaim hpool ?_ ?_ (h.claimless l List.mem_cons_self) ?_
      counted := fun hC => hview ▸ (h.counted hC).addClaim _ _ _ _ _
      placed := h.placed.congr (fun _ => rfl) (fun _ => .refl _) fun _ => rfl
      hides := ⟨h.hides.cons, h.hides.ended⟩
      patron := by rw [lineRestored_patron, if_pos rfl, hp]; rfl
      titles := fun i hi => by
        rw [lineRestored_title, Option.isSome_map]
        exact h.titles i (List.mem_cons_of_mem l hi)
      once := honce
      claimless := fun i hi => hview ▸ Claimless.addClaim (h.claimless i (List.mem_cons_of_mem l hi)) (fun e => hnot ?_) hpool.2 hclaim }
  · exact ((((OrderChange.putRequest _ _ s).trans (.modTitle _ _ _)).trans
      (.modPatron _ (by intro; exact ⟨rfl, rfl, rfl⟩) _)).trans (ungrant_change _ _ _)).work.tables h.form
  · exact hwish ▸ insertAfter_perm hnodup prev r
  · exact (view_waiting (M := M) hx) ▸ List.Perm.refl _
  · simp [view, Circ.forgive, hservice, Mode.isSetup]
  · exact e ▸ List.mem_map_of_mem hi

theorem Owing.restoreLines {l : List Line} (h : Owing C M n l s) (hservice : s.management.mode = .service) (prev : Nat) :
    Good C M (restoreLines n prev l s) := by
  induction l generalizing s prev with
  | nil => exact h.good
  | cons l rest ih =>
    cases hr : Table.lowestFree s.requests s.management.geometry.q with
    | none =>
      rw [restoreLines_dropped rest hr]
      exact ih h.dropped hservice prev
    | some r =>
      rw [restoreLines_restored rest hr]
      exact ih (h.restored hr hservice prev) hservice r

/-- The hand-over of a failed consignment's lines (R47, R48). -/
theorem Owing.handOver {l : List Line} (h : Owing C M n l s) (hservice : s.management.mode = .service) :
    Good C M (handOver n l s) := (h.restoreLines hservice 0).headroom n

end Requests

end Sys2Proof.Machine
end

