-- ==== Sys2Proof/Proofs/CirculatingLoans.lean ====
section
/-! PROOFS. Loans that close keep the laws of circulation (R36, R139 to R143, R152, R159, R172). -/

namespace Sys2Proof.Machine

open Function (update)

section Hidden

variable {α β : Type} {t u : Table α} {d : β} {f : α → β} {ks : List Nat} {k : Nat}

/-- The records of `ks` are hidden by `hs` or gone. -/
structure Removed (ks hs : List Nat) (u : Table α) : Prop where
  sub : ∀ i ∈ hs, i ∈ ks
  shown : ∀ i ∈ hs, (Table.get u i).isSome = true
  gone : ∀ i ∈ ks, i ∉ hs → Table.get u i = none

theorem Removed.all (h : ∀ i ∈ ks, (Table.get u i).isSome = true) : Removed ks ks u := ⟨fun _ hi => hi, h, fun _ hi hh => absurd hi hh⟩

theorem Removed.congr {hs : List Nat} {w : Table α} (hr : Removed ks hs u) (h : ∀ i, (Table.get w i).isSome = (Table.get u i).isSome) :
    Removed ks hs w where
  sub := hr.sub
  shown i hi := (h i).trans (hr.shown i hi)
  gone i hi hh := by
    have := h i
    rw [hr.gone i hi hh] at this
    simpa using this

/-- Records `ks` removed, the others as they stood. -/
theorem readsBut_hidden {hs : List Nat} (hr : Removed ks hs u) (h : ∀ i, i ∉ ks → Table.get u i = Table.get t i) :
    readsBut hs u d f = fun i => if i ∈ ks then d else readsBut [] t d f i := by
  funext i
  by_cases hi : i ∈ ks
  · by_cases hh : i ∈ hs
    · simp [readsBut, hi, hh]
    · simp [readsBut, reads, hi, hh, hr.gone i hi hh]
  · have hh : i ∉ hs := fun hm => hi (hr.sub i hm)
    simp [readsBut, reads, hi, hh, h i hi]

/-- Records `ks` removed, where only record `k` of them shows anything. -/
theorem readsBut_hidden_one {hs : List Nat} (hr : Removed ks hs u) (h : ∀ i, i ∉ ks → Table.get u i = Table.get t i) (hk : k ∈ ks)
    (hothers : ∀ i ∈ ks, i ≠ k → reads t d f i = d) : readsBut hs u d f = update (readsBut [] t d f) k d := by
  rw [readsBut_hidden hr h]
  funext i
  by_cases hik : i = k
  · subst hik
    simp [hk]
  · by_cases hi : i ∈ ks
    · simp [hi, hik, readsBut, hothers i hi hik]
    · simp [hi, hik]

end Hidden

section Loans

variable {C : Prop} {s s' u : State} {ks hs : List Nat} {k : Nat} {c : Consignment} {v : Verdict}

/-- State `s'` differs from `s` in the fields of consignments `ks` that their loan no longer needs. -/
structure Closing (ks hs : List Nat) (s s' : State) : Prop where
  frame : s' = { s with assembly.cons := s'.assembly.cons }
  others : ∀ i, i ∉ ks → Table.get s'.assembly.cons i = Table.get s.assembly.cons i
  carrier : reads s'.assembly.cons none carrierOf = reads s.assembly.cons none carrierOf
  removed : Removed ks hs s'.assembly.cons

/-- The patron's overdue count falls with the overdue mark of the loan (R172). -/
def markLifted (c : Consignment) (s : State) : State :=
  if c.overdue then modPatron c.patron (fun p => { p with overdue := p.overdue - 1 }) s else s

theorem closeMark_eq (c : Consignment) (s : State) :
    closeMark c s = if c.overdue then evaluateHeld c.patron (markLifted c s) else markLifted c s := by
  by_cases hc : c.overdue = true
  · simp [closeMark, markLifted, hc, setClosedOverdue]
  · simp [closeMark, markLifted, hc]

theorem Good.openLines_eq {M : Amid} (h : Good C M s) (hc : Table.get s.assembly.cons k = some c) (hk : k ∉ M.cons) :
    openLines c = c.lines := by
  have hopen := h.lawful.opened k
  rw [view_opened hc hk, List.all_eq_true] at hopen
  exact List.filter_eq_self.mpr hopen

theorem countP_title (l : List Line) (m : Nat) : (l.countP fun i => decide (i.title = m)) = (l.map Line.title).count m := by
  rw [List.count, List.countP_map]
  exact List.countP_congr fun i _ => by simp

/-- Tables related record by record. -/
theorem reads_map {α β : Type} {t u : Table α} {d : β} {f : α → β} {g : Nat → α → α}
    (h : ∀ j, Table.get u j = (Table.get t j).map (g j)) (hf : ∀ j a, f (g j a) = f a) : reads u d f = reads t d f := by
  funext j
  simp only [reads, h, Option.map_map]
  exact congrArg (Option.getD · d) (Option.map_congr fun a _ => hf j a)

theorem reads_map_to {α β : Type} {t u : Table α} {d : β} {f : α → β} {g : Nat → α → α} (φ : Nat → β → β)
    (h : ∀ j, Table.get u j = (Table.get t j).map (g j)) (hf : ∀ j a, f (g j a) = φ j (f a)) (hd : ∀ j, φ j d = d) :
    reads u d f = fun j => φ j (reads t d f j) := by
  funext j
  cases ha : Table.get t j with
  | none => simp [reads, h, ha, hd]
  | some a => simp [reads, h, ha, hf]

/-- What is left of a patron's counts when a loan ends (R36, R172). -/
def Patron.settled (c : Consignment) (p : Patron) : Patron :=
  { p with charge := p.charge - c.lines.length, overdue := p.overdue - c.overdue.toNat }

/-- The records of consignment `k` and its parts `ks` still stand in `t`, but nothing else is left of its loan in `s`. -/
structure LoanEnds (ks hs : List Nat) (k : Nat) (c : Consignment) (s t : State) : Prop where
  frame : t = { s with
    records.patrons := t.records.patrons, records.titles := t.records.titles, assembly.cons := t.assembly.cons
    assembly.picks := t.assembly.picks, assembly.picksSent := t.assembly.picksSent
    accounts := t.accounts, passDue := t.passDue }
  patrons : ∀ j, Table.get t.records.patrons j =
    (Table.get s.records.patrons j).map fun p => if j = c.patron then p.settled c else p
  titles : ∀ m, ∃ copies shelf repair, Table.get t.records.titles m = (Table.get s.records.titles m).map fun x =>
    { x with out := x.out - (c.lines.map Line.title).count m, copies := copies, shelf := shelf, repair := repair }
  others : ∀ i, i ∉ ks → Table.get t.assembly.cons i = Table.get s.assembly.cons i
  carrier : reads t.assembly.cons none carrierOf = reads s.assembly.cons none carrierOf
  removed : Removed ks hs t.assembly.cons

/-- A loan on its way holds neither its patron's open pack nor a job. -/
theorem Leaves.loan_kept {v : Circ} {n : Nat} (hl : Leaves ks k n v) (h : Lawful v)
    (hst : v.stage k ≠ some .assembling ∧ v.stage k ≠ some .duplicating) :
    (if v.openPack n ∈ ks then 0 else v.openPack n) = v.openPack n ∧
      ∀ j, ((v.pack j).filter fun i => decide (i ∉ ks)) = v.pack j := by
  have hout : ∀ i, (v.stage i = some .assembling ∨ v.stage i = some .duplicating) → i ∉ ks := fun i hi hmem => by
    have hpresent : v.present i = true := hi.elim h.present_of_stage h.present_of_stage
    have hpack : (v.shape i).kind = .pack := by
      have hfits := hi.imp (h.staged i _) (h.staged i _)
      cases hkind : (v.shape i).kind <;> simp_all [stateFitsKind]
    by_cases hkind : (v.shape k).kind = .braillePart
    · have hpart := ((hl.set hkind i).mp hmem).2.1
      rw [hpack] at hpart
      cases hpart
    · rw [hl.alone hkind, List.mem_singleton] at hmem
      subst hmem
      exact hi.elim hst.1 hst.2
  constructor
  · split_ifs with hmem
    · by_contra hne
      exact hout _ (.inl (h.openPacks n (Ne.symm hne)).1) hmem
    · rfl
  · intro j
    cases hi : v.pack j with
    | none => rfl
    | some i => simp [Option.filter, hout i (.inr (h.packing j i hi).2.1)]

/-- What is shown once a loan has ended, but for the copy accounts. -/
theorem LoanEnds.view {t : State} (h : Lawful (view {} s)) (he : LoanEnds ks hs k c s t) (hc : Table.get s.assembly.cons k = some c)
    (hleaves : Leaves ks k c.patron (view {} s)) (hstage : (view {} s).stage k ≠ some .assembling ∧ (view {} s).stage k ≠ some .duplicating) :
    view { cons := hs } t = { (view {} s).leave ks k c.patron with
      copies := reads t.records.titles 0 Title.copies, shelf := reads t.records.titles 0 Title.shelf
      repair := reads t.records.titles 0 Title.repair } := by
  choose copies shelf repair htitles using he.titles
  have hshape := reads_map (d := none) (f := fun x => some (titleShape x)) htitles fun _ _ => rfl
  have hwaiting := reads_map (d := []) (f := Title.waiting) htitles fun _ _ => rfl
  have hout := reads_map_to (d := 0) (f := Title.out) (fun m o => o - (c.lines.map Line.title).count m) htitles (fun _ _ => rfl)
    fun _ => Nat.zero_sub _
  have hpatron {β : Type} (d : β) (f : Patron → β) (hf : ∀ p : Patron, f (p.settled c) = f p) :
      reads t.records.patrons d f = reads s.records.patrons d f :=
    reads_map he.patrons fun j p => by split_ifs <;> simp [hf]
  have hcharge : reads t.records.patrons 0 Patron.charge = update (reads s.records.patrons 0 Patron.charge) c.patron
      (reads s.records.patrons 0 Patron.charge c.patron - c.lines.length) := by
    rw [reads_map_to (fun j o => if j = c.patron then o - c.lines.length else o) he.patrons
      (fun j p => by split_ifs <;> rfl) fun j => by simp]
    funext j
    by_cases hj : j = c.patron <;> simp [hj]
  have hoverdue : reads t.records.patrons 0 Patron.overdue = update (reads s.records.patrons 0 Patron.overdue) c.patron
      (reads s.records.patrons 0 Patron.overdue c.patron - c.overdue.toNat) := by
    rw [reads_map_to (fun j o => if j = c.patron then o - c.overdue.toNat else o) he.patrons
      (fun j p => by split_ifs <;> rfl) fun j => by simp]
    funext j
    by_cases hj : j = c.patron <;> simp [hj]
  have hmember := hpatron false (fun _ => true) fun _ => rfl
  have hcls := hpatron 0 Patron.cartridgeClass fun _ => rfl
  have hwish := hpatron [] Patron.wish fun _ => rfl
  have hchain := hpatron [] Patron.chain fun _ => rfl
  have hopenPack := hpatron 0 Patron.openPack fun _ => rfl
  have hlinesc := view_lines (M := {}) hc List.not_mem_nil
  have hmarkc := view_marked (M := {}) hc List.not_mem_nil
  have hframe := he.frame
  have hlines := readsBut_hidden_one he.removed (f := fun c : Consignment => c.lines.map Line.title) (d := []) he.others hleaves.mem fun i hi hik => by
    by_contra hne
    exact hik (hleaves.eq_of_lines h hi (by simpa [Machine.view, readsBut] using hne))
  have hmarked := readsBut_hidden_one he.removed (f := Consignment.overdue) (d := false) he.others hleaves.mem fun i hi hik => by
    by_contra hne
    exact hik (hleaves.eq_of_lines h hi (h.lines_of_marked (by simpa [Machine.view, readsBut] using hne)))
  have hpresent := readsBut_hidden he.removed (f := fun _ : Consignment => true) (d := false) he.others
  have hst := readsBut_hidden he.removed (f := fun c : Consignment => some c.state) (d := none) he.others
  have hshapes := readsBut_hidden he.removed (f := fun c : Consignment => (⟨c.kind, c.patron, c.cartridgeClass, c.head, c.parts⟩ : ConsShape)) (d := .free) he.others
  have hback := readsBut_hidden he.removed (f := Consignment.returned) (d := 0) he.others
  have hheadBack := readsBut_hidden he.removed (f := Consignment.headReturned) (d := false) he.others
  have hjob := readsBut_hidden he.removed (f := Consignment.job) (d := 0) he.others
  have hopened : readsBut hs t.assembly.cons true (fun c => c.lines.all fun l => decide (l.state = .isOpen)) =
      readsBut [] s.assembly.cons true (fun c => c.lines.all fun l => decide (l.state = .isOpen)) := by
    rw [readsBut_hidden he.removed he.others]
    funext i
    have := h.opened i
    simp only [Machine.view] at this
    split_ifs
    · exact this.symm
    · rfl
  have hmanagement : t.management = s.management := by rw [hframe]
  have hrequests : t.requests = s.requests := by rw [hframe]
  have hscheduler : t.scheduler = s.scheduler := by rw [hframe]
  have hdispatch : t.dispatch = s.dispatch := by rw [hframe]
  have hsealed : t.assembly.sealedList = s.assembly.sealedList := by rw [hframe]
  simp only [Machine.view, hmanagement, hrequests, hscheduler, hdispatch, hsealed, hshape, hwaiting, hout, hmember, hcls, hwish,
    hchain, hopenPack, hcharge, hoverdue, hlines, hmarked, hpresent, hst, hshapes, hback, hheadBack, hjob, hopened, he.carrier, Circ.leave] at hlinesc hmarkc ⊢
  simp only [hlinesc, hmarkc, List.length_map, Circ.mk.injEq, true_and, and_true]
  obtain ⟨hopen, hpack⟩ := hleaves.loan_kept h hstage
  simp only [Machine.view] at hopen hpack
  refine ⟨?_, ?_⟩
  · rw [hopen, Function.update_eq_self]
  · exact (funext hpack).symm

theorem markLifted_eq (c : Consignment) (u : State) : markLifted c u = { u with records.patrons := (markLifted c u).records.patrons } := by
  unfold markLifted
  split_ifs <;> rfl

theorem markLifted_patron (c : Consignment) (u : State) (j : Nat) : Table.get (markLifted c u).records.patrons j =
    (Table.get u.records.patrons j).map fun p => if j = c.patron then { p with overdue := p.overdue - c.overdue.toNat } else p := by
  unfold markLifted
  by_cases hm : c.overdue = true
  · rw [if_pos hm, modPatron_patrons, Table.get_modify]
    by_cases hj : j = c.patron <;> simp [hj, hm]
  · rw [if_neg hm]
    simp [hm]

/-- The close of a loan under a verdict (R139). -/
theorem LoanClosed.ends (hclosing : Closing ks hs s s') (hmem : k ∈ ks) (hu : LoanClosed k c v s' u) (hopen : openLines c = c.lines) :
    LoanEnds ks hs k c s (markLifted c u) := by
  obtain ⟨hframe, hcons, hpatrons, htitles, -, -, -, -⟩ := hu
  have hs := hclosing.frame
  have hrecords : s'.records = s.records := by rw [hs]
  have hlift := markLifted_eq c u
  have hconsu : (markLifted c u).assembly.cons = u.assembly.cons := by rw [hlift]
  refine ⟨?_, fun j => ?_, fun m => ?_, fun i hi => ?_, ?_, ?_⟩
  · rw [hlift, hframe, hs]
  · rw [markLifted_patron, hpatrons, Option.map_map, hrecords, hopen]
    refine Option.map_congr fun p _ => ?_
    by_cases hj : j = c.patron <;> simp [hj, Patron.settled]
  · have htitle : Table.get (markLifted c u).records.titles m = _ := (by rw [hlift] : _ = Table.get u.records.titles m).trans (htitles m)
    rw [hrecords, hopen] at htitle
    cases hx : Table.get s.records.titles m with
    | none => exact ⟨0, 0, 0, by rw [htitle, hx]; rfl⟩
    | some x =>
      rw [htitle, hx]
      simp only [countP_title, Option.map_some, Option.some.injEq]
      split_ifs <;> exact ⟨_, _, _, rfl⟩
  · have hik : i ≠ k := fun e => hi (e ▸ hmem)
    rw [hconsu, hcons, if_neg hik, hclosing.others i hi]
  · rw [hconsu, ← hclosing.carrier]
    funext i
    simp only [reads, hcons]
    split_ifs
    · cases Table.get s'.assembly.cons i <;> simp [carrierOf]
    · rfl
  · rw [hconsu]
    exact hclosing.removed.congr fun i => by
      rw [hcons]
      split_ifs
      · exact Option.isSome_map
      · rfl

/-! ## The accounts -/

/-- A title's copy accounts after its copy has come back under a verdict. -/
theorem LoanClosed.copied (hclosing : Closing ks hs s s') (hu : LoanClosed k c v s' u) (hkind : c.kind ≠ .pack) {x : Title}
    (hx : Table.get s.records.titles (lineTitle c) = some x) :
    reads u.records.titles 0 Title.copies = update (reads s.records.titles 0 Title.copies) (lineTitle c) (copyBack v x).copies ∧
      reads u.records.titles 0 Title.shelf = update (reads s.records.titles 0 Title.shelf) (lineTitle c) (copyBack v x).shelf ∧
      reads u.records.titles 0 Title.repair = update (reads s.records.titles 0 Title.repair) (lineTitle c) (copyBack v x).repair := by
  obtain ⟨-, -, -, htitles, -, -, -, -⟩ := hu
  have hrecords : s'.records = s.records := by rw [hclosing.frame]
  have hfield (f : Title → Nat) (hout : ∀ (y : Title) (o : Nat), f { y with out := o } = f y)
      (hback : ∀ (y : Title) (o : Nat), f (copyBack v { y with out := o }) = f (copyBack v y)) :
      reads u.records.titles 0 f = update (reads s.records.titles 0 f) (lineTitle c) (f (copyBack v x)) := by
    funext m
    simp only [reads, htitles, hrecords, hkind, false_or]
    by_cases hm : m = lineTitle c
    · subst hm
      simp only [hx, Function.update_self, ne_eq, not_true, if_false, Option.map_some, Option.getD_some]
      exact hback x (x.out - (openLines c).countP fun l => decide (l.title = lineTitle c))
    · simp only [ne_eq, hm, not_false_eq_true, if_true, Function.update_of_ne, Option.map_map]
      exact congrArg (Option.getD · 0) (Option.map_congr fun y _ => hout y _)
  refine ⟨hfield _ (fun _ _ => rfl) ?_, hfield _ (fun _ _ => rfl) ?_, hfield _ (fun _ _ => rfl) ?_⟩ <;>
    · intro y o
      unfold copyBack
      split_ifs <;> rfl

/-- A pack's titles keep their copy accounts. -/
theorem LoanClosed.copies_pack (hclosing : Closing ks hs s s') (hu : LoanClosed k c v s' u) (hkind : c.kind = .pack)
    {f : Title → Nat} (hout : ∀ (y : Title) (o : Nat), f { y with out := o } = f y) :
    reads u.records.titles 0 f = reads s.records.titles 0 f := by
  obtain ⟨-, -, -, htitles, -, -, -, -⟩ := hu
  have hrecords : s'.records = s.records := by rw [hclosing.frame]
  exact reads_map (fun m => by rw [htitles, hrecords]) fun m y => by rw [if_pos (.inl hkind)]; exact hout y _

/-- The cartridge of a loan on its way is one of those consigned. -/
theorem consigned_pos {w : Circ} {cls : Nat} (hk : w.Consigned cls k) (hpool : k ≤ w.geo.c) : 1 ≤ w.consignedOf cls := by
  have := le_tally (f := fun k => if consigns (w.shape k).kind (w.stage k) = true ∧ (w.shape k).cls = cls then 1 else 0) hpool
  simpa only [Circ.consignedOf, if_pos hk] using this

/-- The accounts after a loan has closed, where its class held its cartridge (R148, R152). -/
theorem LoanClosed.accounts (hclosing : Closing ks hs s s') (hu : LoanClosed k c v s' u) {d : Nat}
    (hcls : c.kind ≠ .braillePart → IsClass c.cartridgeClass ∧ 1 ≤ (accountAt s c.cartridgeClass).consigned) :
    accountAt u d = if c.kind ≠ .braillePart ∧ d = c.cartridgeClass then cartridgeBack c.kind v (accountAt s d) else accountAt s d := by
  obtain ⟨-, -, -, -, hbraille, hother, hown, -⟩ := hu
  have haccounts (d : Nat) : accountAt s' d = accountAt s d := by rw [hclosing.frame]; rfl
  by_cases hk : c.kind = .braillePart
  · simp only [hk, ne_eq, not_true, false_and, if_false]
    rw [← haccounts, accountAt, hbraille hk, accountAt]
  · obtain ⟨⟨h1, h4⟩, hpos⟩ := hcls hk
    by_cases hd : d = c.cartridgeClass
    · subst hd
      rw [if_pos ⟨hk, rfl⟩, ← haccounts]
      exact hown hk h1 h4 (haccounts _ ▸ hpos)
    · rw [if_neg fun h => hd h.2, hother d hd, haccounts]

/-- The counts of a class after a loan of it has closed. -/
theorem cartridgeBack_agrees {w w' : Circ} {a : ClassAccount} {cls : Nat} {kind : ConsKind} (ha : AccountAgrees w cls a)
    (hheld : w'.heldOf cls = w.heldOf cls) (hconsigned : w'.consignedOf cls + 1 = w.consignedOf cls)
    (hshelf : w'.shelvedOf cls = w.shelvedOf cls + if kind = .shelfAudio ∧ GoesBack v then 1 else 0)
    (hbench : w'.benchOf cls = w.benchOf cls + if kind = .shelfAudio ∧ v = .repair then 1 else 0) (hkind : kind ≠ .braillePart) :
    AccountAgrees w' cls (cartridgeBack kind v a) := by
  obtain ⟨h1, h2, h3, h4⟩ := ha
  cases kind <;> cases v <;> simp [cartridgeBack, GoesBack] at * <;> constructor <;> simp only <;> omega

/-- The invariant once a loan has ended, its records `ks` hidden. -/
theorem Good.loanEnds {t : State} {w : Circ} (h : Good C {} s) (hc : Table.get s.assembly.cons k = some c)
    (he : LoanEnds ks hs k c s t) (hleaves : Leaves ks k c.patron (view {} s))
    (hstage : (view {} s).stage k ≠ some .assembling ∧ (view {} s).stage k ≠ some .duplicating) (hform : TablesCanonical t)
    (hw : { (view {} s).leave ks k c.patron with
      copies := reads t.records.titles 0 Title.copies, shelf := reads t.records.titles 0 Title.shelf
      repair := reads t.records.titles 0 Title.repair } = w) (hlawful : Lawful w) (hcounted : C → Counted w (accountAt t)) :
    Good C { cons := hs } t := by
  have hview := (he.view h.lawful hc hleaves hstage).trans hw
  have hscheduler : t.scheduler = s.scheduler := by rw [he.frame]
  exact
    { form := hform
      lawful := hview ▸ hlawful
      counted := fun hC => hview ▸ hcounted hC
      placed := h.placed.congr (fun i => by rw [hscheduler]) (fun b => by rw [bayAt, hscheduler]; exact .refl _) fun l => by
        rw [queueAt, hscheduler, queueAt]
      hides := ⟨fun i hi => ⟨fun h0 => by
        have hi := he.removed.sub i hi
        have hpresent : (view {} s).present i = true := by
          by_cases hkind : ((view {} s).shape k).kind = .braillePart
          · exact ((hleaves.set hkind i).mp hi).1
          · rw [hleaves.alone hkind, List.mem_singleton] at hi
            exact hi ▸ hleaves.present
        have := (h.lawful.consPool i hpresent).1
        omega, he.removed.shown i hi⟩, fun j hj => absurd hj List.not_mem_nil⟩ }

/-- A consignment but a part of a set is whole by itself. -/
theorem leaves_single (hc : Table.get s.assembly.cons k = some c) (hkind : c.kind ≠ .braillePart)
    (hst : c.state ≠ .sealed ∧ c.state ≠ .ready ∧ c.state ≠ .releasing) : Leaves [k] k c.patron (view {} s) := by
  have hshape := view_shape (M := {}) hc List.not_mem_nil
  have hstage := view_stage (M := {}) hc List.not_mem_nil
  exact
    { mem := List.mem_singleton_self k
      present := view_present hc List.not_mem_nil
      patron := by rw [hshape]
      stages := fun i hi => by
        rw [List.mem_singleton.mp hi, hstage]
        simpa using hst
      alone := fun _ => rfl
      set := fun hk => by rw [hshape] at hk; exact absurd hk hkind }

theorem markLifted_accountAt (c : Consignment) (u : State) : accountAt (markLifted c u) = accountAt u := by
  rw [markLifted_eq]
  rfl

theorem markLifted_titles (c : Consignment) (u : State) : (markLifted c u).records.titles = u.records.titles := by
  rw [markLifted_eq]

theorem TablesCanonical.markLifted (h : TablesCanonical u) : TablesCanonical (markLifted c u) := by
  unfold Machine.markLifted
  split_ifs
  · exact h.modPatron
  · exact h

/-- The consignment is away, or it is a copy that is still to be picked. -/
def Claimed (c : Consignment) : Prop := c.state = .posted ∨ (c.kind ≠ .pack ∧ c.state = .picking)

theorem claimed_stage (hc : Table.get s.assembly.cons k = some c) (hst : Claimed c) :
    (view {} s).stage k ≠ some .assembling ∧ (view {} s).stage k ≠ some .duplicating := by
  rw [view_stage hc List.not_mem_nil]
  rcases hst with hst | ⟨-, hst⟩ <;> rw [hst] <;> decide

/-- A claimed consignment but a part of a set counts as consigned. -/
theorem claimed_consigns (hc : Table.get s.assembly.cons k = some c) (hst : Claimed c) (d : Nat) :
    (view {} s).Consigned d k ↔ c.kind ≠ .braillePart ∧ d = c.cartridgeClass := by
  rw [Circ.Consigned, view_shape hc List.not_mem_nil, view_stage hc List.not_mem_nil]
  rcases hst with hst | ⟨hkind, hst⟩
  · rw [hst]
    cases c.kind <;> simp [consigns, eq_comm]
  · rw [hst]
    cases hk : c.kind
    · exact absurd hk hkind
    all_goals simp [consigns, eq_comm]

/-- The cartridge of a claimed consignment is consigned. -/
theorem Good.claimed_consigned (h : Good C {} s) (hC : C) (hc : Table.get s.assembly.cons k = some c) (hst : Claimed c)
    (hkind : c.kind ≠ .braillePart) :
    (view {} s).Consigned c.cartridgeClass k ∧ IsClass c.cartridgeClass ∧ 1 ≤ (accountAt s c.cartridgeClass).consigned := by
  have hshape := view_shape (M := {}) hc List.not_mem_nil
  have hpresent := view_present (M := {}) hc List.not_mem_nil
  have hcls := (h.counted hC).classed.cons k hpresent (by rwa [hshape])
  rw [hshape] at hcls
  have hcons : (view {} s).Consigned c.cartridgeClass k := (claimed_consigns hc hst _).mpr ⟨hkind, rfl⟩
  refine ⟨hcons, hcls, ?_⟩
  rw [((h.counted hC).agrees _ hcls).consigned]
  exact consigned_pos hcons (h.lawful.consPool k hpresent).2

/-- A returned or lost pack (R140, R159). -/
theorem Good.packCloses (h : Good C {} s) (hc : Table.get s.assembly.cons k = some c) (hkind : c.kind = .pack)
    (hposted : c.state = .posted) (hu : LoanClosed k c v s u) (hform : TablesCanonical u) :
    Good C { cons := [k] } (markLifted c u) := by
  have hclosing : Closing [k] [k] s s := ⟨rfl, fun _ _ => rfl, rfl, .all fun i hi => by simp [List.mem_singleton.mp hi, hc]⟩
  have hshape := view_shape (M := {}) hc List.not_mem_nil
  have hbraille : c.kind ≠ .braillePart := by rw [hkind]; decide
  have hleaves := leaves_single hc hbraille (by rw [hposted]; decide)
  have hlawful := h.lawful.leave hleaves
  refine h.loanEnds hc (hu.ends hclosing hleaves.mem (h.openLines_eq hc List.not_mem_nil)) hleaves (claimed_stage hc (.inl hposted))
    hform.markLifted ?_ hlawful fun hC => ?_
  · rw [markLifted_titles, hu.copies_pack hclosing hkind fun _ _ => rfl, hu.copies_pack hclosing hkind fun _ _ => rfl,
      hu.copies_pack hclosing hkind fun _ _ => rfl]
    simp only [Circ.leave, hshape, hkind, if_true]
    rfl
  · obtain ⟨hcons, hcls⟩ := h.claimed_consigned hC hc (.inl hposted) hbraille
    have hcounted := h.counted hC
    refine ⟨fun d hd => ?_, hcounted.classed.leave h.lawful hleaves⟩
    have hconsigned := consignedOf_leave h.lawful hleaves d
    rw [markLifted_accountAt, hu.accounts hclosing fun _ => hcls]
    by_cases hdc : d = c.cartridgeClass
    · subst hdc
      rw [if_pos hcons] at hconsigned
      rw [if_pos ⟨hbraille, rfl⟩, hkind]
      exact cartridgeBack_agrees (hcounted.agrees _ hd) rfl hconsigned rfl rfl (by decide)
    · rw [if_neg fun h => hdc h.2]
      obtain ⟨h1, h2, h3, h4⟩ := hcounted.agrees d hd
      have hnot : ¬(view {} s).Consigned d k := fun hx => hdc (by rw [← hx.2, hshape])
      rw [if_neg hnot] at hconsigned
      exact ⟨h1, h2.trans hconsigned.symm, h3, h4⟩

/-- A copy or a set carries one line, of a SHELF title. -/
theorem Good.copy_line {M : Amid} (h : Good C M s) (hc : Table.get s.assembly.cons k = some c) (hk : k ∉ M.cons) (hkind : c.kind ≠ .pack)
    (hlines : c.lines ≠ []) : ∃ l x, c.lines = [l] ∧ lineTitle c = l.title ∧ Table.get s.records.titles l.title = some x ∧
      (titleShape x).fits c.kind ∧ x.policy = .shelf ∧ x.shelf + x.out + x.repair = x.copies ∧ 1 ≤ x.out ∧
      (x.format = .braille → x.policy = .shelf ∧ 1 ≤ x.volumes) := by
  have hshape := view_shape (M := M) hc hk
  have hshown := view_lines (M := M) hc hk
  have hsingle := h.lawful.single k (view_present hc hk) (by rwa [hshape])
  rw [hshown, List.length_map] at hsingle
  obtain ⟨l, hl⟩ : ∃ l, c.lines = [l] := by
    match hcl : c.lines with
    | [] => exact absurd hcl hlines
    | [l] => exact ⟨l, rfl⟩
    | a :: b :: rest => rw [hcl] at hsingle; simp at hsingle
  obtain ⟨y, hy, hfits⟩ := h.lawful.fitting k l.title (by simp [hshown, hl])
  obtain ⟨x, hx, rfl⟩ := title_of_view hy
  rw [hshape] at hfits
  have hpol : x.policy = .shelf := by
    cases hkk : c.kind with
    | pack => exact absurd hkk hkind
    | shelfAudio => rw [hkk] at hfits; exact hfits.1
    | braillePart => rw [hkk] at hfits; exact hfits.1
  obtain ⟨hsum, -, hbraille⟩ := h.lawful.copied l.title _ hy
  rw [view_shelf hx, view_out hx, view_repair hx, view_copies hx] at hsum
  have hout := h.lawful.lent l.title
  have hnaming := le_tally (f := fun i => ((view M s).lines i).count l.title) (h.lawful.consPool k (view_present hc hk)).2
  rw [hshown, hl] at hnaming
  simp only [List.map_cons, List.map_nil, List.count_singleton_self] at hnaming
  rw [view_out hx] at hout
  exact ⟨l, x, hl, by simp [lineTitle, hl], hx, hfits, hpol, hsum hpol, hout ▸ hnaming, hbraille⟩

/-- The class that counts the copy of a loan. -/
theorem Good.copy_class {M : Amid} (h : Good C M s) (hC : C) (hc : Table.get s.assembly.cons k = some c) (hk : k ∉ M.cons)
    (hkind : c.kind ≠ .pack) {x : Title} (hlt : lineTitle c ∈ c.lines.map Line.title) (hx : Table.get s.records.titles (lineTitle c) = some x)
    (hfits : (titleShape x).fits c.kind) (d : Nat) :
    shelfAudioOf (some (titleShape x)) d = decide (c.kind = .shelfAudio ∧ d = c.cartridgeClass) := by
  have hshape := view_shape (M := M) hc hk
  cases hkd : c.kind with
  | pack => exact absurd hkd hkind
  | braillePart =>
    rw [hkd] at hfits
    simp [shelfAudioOf, hfits.2]
  | shelfAudio =>
    rw [hkd] at hfits
    have hcls := (h.counted hC).classed.copy k (by rw [hshape]; exact hkd) (lineTitle c) (by rwa [view_lines hc hk]) _
      (view_title (M := M) hx)
    rw [hshape] at hcls
    obtain ⟨hpol, hfmt⟩ := hfits
    rw [Bool.eq_iff_iff, shelfAudioOf_some, hcls]
    simp [hpol, hfmt, eq_comm]

theorem copyBack_shelf (x : Title) : (copyBack v x).shelf = x.shelf + if GoesBack v then 1 else 0 := by
  unfold copyBack
  split_ifs <;> rfl

theorem copyBack_repair (x : Title) : (copyBack v x).repair = x.repair + if v = .repair then 1 else 0 := by
  cases v <;> rfl

/-- A returned, lost or missing copy or set (R70, R141, R143, R159). -/
theorem Good.copyCloses (h : Good C {} s) (hc : Table.get s.assembly.cons k = some c) (hkind : c.kind ≠ .pack)
    (hlines : c.lines ≠ []) (hst : Claimed c) (hleaves : Leaves ks k c.patron (view {} s)) (hclosing : Closing ks hs s s')
    (hu : LoanClosed k c v s' u) (hform : TablesCanonical u) : Good C { cons := hs } (markLifted c u) := by
  have hshape := view_shape (M := {}) hc List.not_mem_nil
  have hshown := view_lines (M := {}) hc List.not_mem_nil
  obtain ⟨l, x, hl, hlt, hx, hfits, hpol, hsum, hpos, hbraille⟩ := h.copy_line hc List.not_mem_nil hkind hlines
  rw [← hlt] at hx
  have htitle := view_title (M := {}) hx
  have hlawful := h.lawful.leave hleaves
  have hcount : c.lines.map Line.title = [lineTitle c] := by rw [hl, hlt]; rfl
  obtain ⟨hcopies, hshelf, hrepair⟩ := hu.copied hclosing hkind hx
  refine h.loanEnds (w := ((view {} s).leave ks k c.patron).restock (lineTitle c) (copyBack v x).copies (copyBack v x).shelf
    (copyBack v x).repair) hc (hu.ends hclosing hleaves.mem (h.openLines_eq hc List.not_mem_nil)) hleaves (claimed_stage hc hst)
    hform.markLifted ?_ (hlawful.restock fun y hy => ?_) fun hC => ?_
  · rw [markLifted_titles, hcopies, hshelf, hrepair]
    simp only [Circ.leave, Circ.restock, hshape, hkind, if_false, hshown, hcount]
    congr 1
    funext i
    by_cases hi : i = lineTitle c <;> simp [hi, view, List.count_singleton, Ne.symm]
  · obtain rfl := Option.some.inj (hy.symm.trans htitle)
    refine ⟨fun _ => ?_, fun hd => ?_, hbraille⟩
    · simp only [Circ.leave, hshown, hcount, view_out hx, List.count_singleton_self]
      unfold copyBack
      split_ifs <;> dsimp only <;> omega
    · cases hpol.symm.trans hd
  · have hcounted := h.counted hC
    have hclass := h.copy_class hC hc List.not_mem_nil hkind (by simp [hcount]) hx hfits
    have hbench : (view {} s).setup = true → (copyBack v x).repair = 0 := fun hs => by
      have hnone := (h.lawful.emptySetup hs).2.1 k
      rw [view_present hc List.not_mem_nil] at hnone
      cases hnone
    refine ⟨fun d hd => ?_, (hcounted.classed.leave h.lawful hleaves).restock hbench⟩
    obtain ⟨h1, h2, h3, h4⟩ := hcounted.agrees d hd
    have hconsigned := consignedOf_leave h.lawful hleaves d
    have hshelved : Circ.shelvedOf _ d + (if shelfAudioOf (some (titleShape x)) d then (view {} s).shelf (lineTitle c) else 0) =
        (view {} s).shelvedOf d + _ := shelvedOf_restock (copies := (copyBack v x).copies) (shelf := (copyBack v x).shelf)
      (repair := (copyBack v x).repair) hlawful htitle d
    have hbenched : Circ.benchOf _ d + (if shelfAudioOf (some (titleShape x)) d then (view {} s).repair (lineTitle c) else 0) =
        (view {} s).benchOf d + _ := benchOf_restock (copies := (copyBack v x).copies) (shelf := (copyBack v x).shelf)
      (repair := (copyBack v x).repair) hlawful htitle d
    rw [hclass, view_shelf hx] at hshelved
    rw [hclass, view_repair hx] at hbenched
    rw [if_congr (claimed_consigns hc hst d) rfl rfl] at hconsigned
    rw [markLifted_accountAt, hu.accounts hclosing fun hb => (h.claimed_consigned hC hc hst hb).2]
    by_cases hk : c.kind = .shelfAudio ∧ d = c.cartridgeClass
    · obtain ⟨hkd, rfl⟩ := hk
      have hback : c.kind ≠ .braillePart := by rw [hkd]; decide
      rw [if_pos ⟨hback, rfl⟩] at hconsigned ⊢
      simp only [hkd, decide_true, if_true, and_self] at hshelved hbenched
      rw [hkd]
      refine cartridgeBack_agrees ⟨h1, h2, h3, h4⟩ rfl hconsigned ?_ ?_ (by decide)
      · have hgain := copyBack_shelf (v := v) x
        simp only [true_and]
        omega
      · have hgain := copyBack_repair (v := v) x
        simp only [true_and]
        omega
    · have hnot : ¬(c.kind ≠ .braillePart ∧ d = c.cartridgeClass) := fun hb => hk ⟨by
        cases hkd : c.kind <;> simp_all, hb.2⟩
      rw [if_neg hnot] at hconsigned ⊢
      simp only [hk, decide_false, Bool.false_eq_true, if_false, add_zero] at hshelved hbenched
      exact ⟨h1, h2.trans hconsigned.symm, h3.trans hshelved.symm, h4.trans hbenched.symm⟩

/-! ## Hidden records are freed (R53) -/

theorem view_freeHidden {M : Amid} (hc : Table.get s.assembly.cons k = some c)
    (hopen : (view M s).openPack c.patron ≠ k) :
    view M (freeConsignment k s) =
      { view { M with cons := k :: M.cons } s with
        chain := update (view M s).chain c.patron (((view M s).chain c.patron).erase k)
        carrier := update (view M s).carrier k none } := by
  rw [freeConsignment_eq hc]
  simp [view, reads_delete, readsBut_delete, readsBut_cons] at hopen ⊢
  refine ⟨reads_modify (fun l : List Nat => l.erase k) (fun _ => rfl) (.inl rfl), ?_⟩
  rw [reads_modify (fun o => if o = k then 0 else o) (fun _ => rfl) (.inl (by simp)), if_neg hopen, Function.update_eq_self]

/-- A hidden record that is freed leaves the chain it stands on (R53). -/
theorem view_freed {M : Amid} (hc : Table.get s.assembly.cons k = some c) (hopen : (view M s).openPack c.patron ≠ k)
    (hchained : Lists (view M s).chain (view M s).carrier) : view M (freeConsignment k s) =
      if c.lines = [] then view { M with cons := k :: M.cons } s
      else (view { M with cons := k :: M.cons } s).unchain k c.patron := by
  have hcarrier : (view M s).carrier k = carrierOf c := reads_some hc
  rw [view_freeHidden hc hopen]
  split_ifs with hlines
  · have hnone : (view M s).carrier k = none := hcarrier.trans (if_pos hlines)
    have hnot : k ∉ (view M s).chain c.patron := fun hmem => by
      rw [((hchained c.patron).2 k).mp hmem] at hnone
      cases hnone
    rw [List.erase_of_not_mem hnot, Function.update_eq_self, Function.update_eq_self_iff.mpr hnone.symm]
    rfl
  · rfl

theorem freeConsignment_scheduler (k : Nat) (s : State) : (freeConsignment k s).scheduler = s.scheduler := by
  rw [freeConsignment_frame]

theorem freeConsignment_accountAt (k : Nat) (s : State) : accountAt (freeConsignment k s) = accountAt s := by
  rw [freeConsignment_frame]
  rfl

theorem Placed.freeConsignment {loose : List Nat} (h : Placed loose s) (k : Nat) : Placed loose (freeConsignment k s) := by
  have hsched := freeConsignment_scheduler k s
  exact h.congr (fun i => by rw [hsched]) (fun b => by rw [bayAt, hsched]; exact .refl _) fun l => by rw [queueAt, hsched, queueAt]

theorem Hides.freeConsignment {M : Amid} (h : Hides { M with cons := k :: M.cons } s) (hk : k ∉ M.cons) :
    Hides M (freeConsignment k s) :=
  ⟨fun i hi => by
    obtain ⟨h0, hs⟩ := h.cons i (List.mem_cons_of_mem k hi)
    rw [freeConsignment_cons, if_neg fun e : i = k => hk (e ▸ hi)]
    exact ⟨h0, hs⟩, fun j hj => by rw [freeConsignment_scheduler]; exact h.ended j hj⟩

/-- A hidden record is the open pack of no patron. -/
theorem not_open_of_hidden {M : Amid} {w : Circ} (hw : Lawful w) (hides : Hides { M with cons := k :: M.cons } s) {n : Nat}
    (hopen : w.openPack = (view M s).openPack) (hstage : w.stage = (view { M with cons := k :: M.cons } s).stage) :
    (view M s).openPack n ≠ k := fun e => by
  obtain ⟨hne, -⟩ := hides.cons k List.mem_cons_self
  obtain ⟨hst, -⟩ := hw.openPacks n (by rw [hopen, e]; exact hne)
  rw [hopen, e, hstage] at hst
  exact (view_stage_iff.mp hst).1 List.mem_cons_self

/-- A hidden record is freed: it leaves the chain of its patron (R53). -/
theorem Good.freeHidden {M : Amid} (h : Good C { M with cons := k :: M.cons } s) (hk : k ∉ M.cons) : Good C M (freeConsignment k s) := by
  obtain ⟨-, hsome⟩ := h.hides.cons k List.mem_cons_self
  obtain ⟨c, hc⟩ := Option.isSome_iff_exists.mp hsome
  have hview := view_freed hc (not_open_of_hidden h.lawful h.hides rfl rfl) h.lawful.chained
  have hgood : Lawful (view M (Machine.freeConsignment k s)) ∧ (C → Counted (view M (Machine.freeConsignment k s)) (accountAt s)) := by
    rw [hview]
    split_ifs with hlines
    · exact ⟨h.lawful, h.counted⟩
    · exact ⟨h.lawful.unchain ((reads_some hc).trans (if_neg hlines)), fun hC => (h.counted hC).unchain k c.patron⟩
  exact
    { form := (freeConsignment_change k s).work.tables h.form
      lawful := hgood.1
      counted := fun hC => by
        rw [freeConsignment_accountAt]
        exact hgood.2 hC
      placed := h.placed.freeConsignment k
      hides := h.hides.freeConsignment hk }

theorem Good.freeAll {M : Amid} (h : Good C { M with cons := ks } s) (hnd : ks.Nodup) : Good C { M with cons := [] } (freeAll ks s) := by
  induction ks generalizing s with
  | nil => exact h
  | cons k ks ih =>
    obtain ⟨hk, hnd⟩ := List.nodup_cons.mp hnd
    exact ih (Good.freeHidden (M := { M with cons := ks }) h hk) hnd

/-- What follows the close of a loan, its records still standing (R44, R45, R139, R172). -/
theorem Good.afterClose {M : Amid} (h : Good C M (markLifted c u)) : Good C M (closeMark c u) := by
  rw [closeMark_eq]
  split_ifs
  · exact h.evaluateHeld c.patron
  · exact h

theorem Good.closeLoan {M : Amid} (h : Good C M (markLifted c (loanReturned k c v s))) (freed : Option Nat) :
    Good C M (closeLoan k c (returnMove c v) freed s) := by
  rw [closeLoan_eq]
  refine Good.headroom ?_ _
  cases freed with
  | none => exact h.afterClose
  | some m => exact h.afterClose.copyFreed m

end Loans

end Sys2Proof.Machine
end

