-- ==== Sys2Proof/Proofs/CirculatingReturns.lean ====
section
/-! PROOFS. Returned and lost consignments, and the parts of sets, keep the laws of circulation (R140 to R143, R159, R160). -/

namespace Sys2Proof.Machine

open Function (update)

/-! ## The parts of a set (R142) -/

section Parts

variable {v : Circ} {a : Nat} {ks : List Nat}

/-- Distinct parts of a set are at most those that stand. -/
theorem length_le_partsOf (h : Lawful v) (hnd : ks.Nodup) (hall : ∀ i ∈ ks, v.IsPart a i) : ks.length ≤ v.partsOf a := by
  have hpool : ∀ i ∈ ks, i ≤ v.geo.c := fun i hi => (h.consPool i (hall i hi).1).2
  rw [← tally_mem hnd hpool]
  refine Finset.sum_le_sum fun i _ => ?_
  by_cases hi : i ∈ ks
  · rw [if_pos hi, if_pos (hall i hi)]
  · simp [hi]

/-- As many parts as stand are all of them. -/
theorem parts_exact (h : Lawful v) (hnd : ks.Nodup) (hall : ∀ i ∈ ks, v.IsPart a i) (hlen : v.partsOf a ≤ ks.length) (i : Nat) :
    i ∈ ks ↔ v.IsPart a i := by
  refine ⟨hall i, fun hi => ?_⟩
  by_contra hnot
  have := length_le_partsOf (ks := i :: ks) h (List.nodup_cons.mpr ⟨hnot, hnd⟩) fun j hj => by
    rcases List.mem_cons.mp hj with rfl | hj
    · exact hi
    · exact hall j hj
  rw [List.length_cons] at this
  omega

end Parts

section Sets

variable {C : Prop} {M : Amid} {s : State} {k : Nat} {c head : Consignment} {v : Verdict}

theorem view_isPart {a : Nat} (hc : Table.get s.assembly.cons k = some c) (hk : k ∉ M.cons) :
    (view M s).IsPart a k ↔ c.kind = .braillePart ∧ c.head = a := by
  rw [Circ.IsPart, view_present hc hk, view_shape hc hk]
  simp

/-- The record of the head of a part's set (R66, R142). -/
structure HeadsSet (s : State) (a : Nat) (c head : Consignment) : Prop where
  record : Table.get s.assembly.cons a = some head
  kind : head.kind = .braillePart
  self : head.head = a
  patron : head.patron = c.patron
  lined : head.lines ≠ []
  whole : (view {} s).partsOf a + head.returned = head.parts + head.headReturned.toNat
  open_ : head.returned < head.parts
  posted : head.headReturned = true → head.state = .posted

theorem Good.set_head (h : Good C {} s) (hc : Table.get s.assembly.cons k = some c) (hkind : c.kind = .braillePart) :
    ∃ head, HeadsSet s c.head c head := by
  have hshape := view_shape (M := {}) hc List.not_mem_nil
  obtain ⟨hpart, hpatron⟩ := h.lawful.heads k (view_present hc List.not_mem_nil) (by rw [hshape]; exact hkind)
  rw [hshape] at hpart hpatron
  obtain ⟨head, hhead⟩ := Option.isSome_iff_exists.mp (view_present_iff.mp hpart.1).2
  have hheadShape := view_shape (M := {}) hhead List.not_mem_nil
  obtain ⟨hkindh, hself⟩ := (view_isPart hhead List.not_mem_nil).mp hpart
  obtain ⟨hwhole, hopen⟩ := h.lawful.whole c.head hpart
  have hlines := h.lawful.carrying c.head hpart.1
  rw [hheadShape, view_lines hhead List.not_mem_nil] at hlines
  rw [hheadShape, view_back hhead List.not_mem_nil] at hwhole hopen
  rw [view_headBack hhead List.not_mem_nil] at hwhole
  rw [hheadShape] at hpatron
  refine ⟨head, ⟨hhead, hkindh, hself, hpatron, fun hnil => ?_, hwhole, hopen, fun hb => ?_⟩⟩
  · exact (hlines.mp (by rw [hnil]; rfl)).2 hself
  · have hposted := h.lawful.headPosted c.head hpart (by rwa [view_headBack hhead List.not_mem_nil])
    rw [view_stage hhead List.not_mem_nil] at hposted
    exact Option.some.inj hposted

/-- A part but the head carries no line. -/
theorem Good.part_unlined (h : Good C {} s) (hc : Table.get s.assembly.cons k = some c) (hkind : c.kind = .braillePart)
    (hne : c.head ≠ k) : c.lines = [] := by
  have hlines := (h.lawful.carrying k (view_present (M := {}) hc List.not_mem_nil)).mpr (by
    rw [view_shape hc List.not_mem_nil]
    exact ⟨hkind, hne⟩)
  rwa [view_lines hc List.not_mem_nil, List.map_eq_nil_iff] at hlines

/-- A consignment without a line stands on no chain. -/
theorem Good.patrons_unlined (h : Good C {} s) (hc : Table.get s.assembly.cons k = some c) (hlines : c.lines = [])
    (hst : c.state ≠ .assembling) (n : Nat) : Table.modify s.records.patrons n
      (fun p => { p with chain := p.chain.erase k, openPack := if p.openPack = k then 0 else p.openPack }) = s.records.patrons := by
  refine (List.map_congr_left fun e he => ?_).trans (List.map_id _)
  split_ifs with hn
  · obtain ⟨n, p⟩ := e
    have hp := Table.get_of_mem_wf h.form.1 he
    have hnot : k ∉ p.chain := fun hmem => by
      have hcarrier := ((h.lawful.chained n).2 k).mp (view_chain (M := {}) hp ▸ hmem)
      rw [show (view {} s).carrier k = none from (reads_some hc).trans (if_pos hlines)] at hcarrier
      cases hcarrier
    have hopen : p.openPack ≠ k := fun ho => by
      subst ho
      exact hst (h.open_pack hp hc).2.1
    simp [List.erase_of_not_mem hnot, hopen]
  · rfl

/-- A part leaves a set whose head has counted it. -/
theorem Good.partFreed (h : Good C {} s) (hc : Table.get s.assembly.cons k = some c) (hlines : c.lines = [])
    (hst : c.state ≠ .assembling) (hne : k ≠ c.head) (v : Verdict) : freeConsignment k (countPart c.head v s) =
      { s with assembly.cons := Table.delete (countPart c.head v s).assembly.cons k } := by
  have hk : Table.get (countPart c.head v s).assembly.cons k = some c := by
    rw [countPart, modCons_cons, Table.get_modify_other _ _ hne, hc]
  have hsame := h.patrons_unlined hc hlines hst c.patron
  rw [freeConsignment_eq hk]
  exact congrArg (fun ps => { s with
    assembly.cons := Table.delete (countPart c.head v s).assembly.cons k, records.patrons := ps }) hsame

/-- The head of a set has come back while parts of it are away (R142). -/
theorem Good.headReturns (h : Good C {} s) (hc : Table.get s.assembly.cons k = some c) (hposted : c.state = .posted)
    (hfirst : c.headReturned = false) (hmore : c.returned + 1 < c.parts) (v : Verdict) :
    Good C {} (modCons k (fun x => { x with headReturned := true }) (countPart k v s)) := by
  have hview : view {} (modCons k (fun x => { x with headReturned := true }) (countPart k v s)) = (view {} s).headReturns k := by
    simp [view, countPart, Circ.headReturns, Table.modify_modify]
    simp [readsBut_modify_some hc, readsBut_some List.not_mem_nil hc]
  have hpresent := view_present (M := {}) hc List.not_mem_nil
  refine h.record (((countPart_change k v s).trans (.modCons _ _ _)).work.tables) hview (h.lawful.headReturns ?_ ?_ ?_)
    (fun hC => (h.counted hC).headReturns k) rfl fun i hi => absurd hi List.not_mem_nil
  · rw [view_stage hc List.not_mem_nil, hposted]
  · rw [view_headBack hc List.not_mem_nil, hfirst]
  · rw [view_back hc List.not_mem_nil, view_shape hc List.not_mem_nil]
    exact hmore

/-- A part has come back, or is lost, while others of its set are away (R142, R160). -/
theorem Good.partBack (h : Good C {} s) (hc : Table.get s.assembly.cons k = some c) (hkind : c.kind = .braillePart)
    (hposted : c.state = .posted) (hne : k ≠ c.head) (hhead : Table.get s.assembly.cons c.head = some head)
    (hmore : head.returned + 1 < head.parts) (v : Verdict) : Good C {} (freeConsignment k (countPart c.head v s)) := by
  have hlines := h.part_unlined hc hkind (Ne.symm hne)
  have hpart : (view {} s).IsPart c.head k := (view_isPart hc List.not_mem_nil).mpr ⟨hkind, rfl⟩
  have hview : view {} (freeConsignment k (countPart c.head v s)) = (view {} s).partBack k c.head := by
    rw [h.partFreed hc hlines (by rw [hposted]; decide) hne]
    simp [view, countPart, Circ.partBack, reads_delete, readsBut_delete]
    simp [readsBut_modify_some hhead, readsBut_some List.not_mem_nil hhead]
    have hmark : c.overdue = false := by
      by_contra hm
      have := (h.lawful.markedPosted k (by rw [view_marked hc List.not_mem_nil]; simpa using hm)).2
      exact this (by rw [view_lines hc List.not_mem_nil, hlines]; rfl)
    simp [readsBut_some List.not_mem_nil hc, reads_some hc, hlines, carrierOf, hmark]
  have hcount := countPart_change c.head v s
  have hshown : (view {} s).lines k = [] := by rw [view_lines hc List.not_mem_nil, hlines]; rfl
  refine h.record ((hcount.trans (freeConsignment_change k _)).work.tables) hview (h.lawful.partBack ?_ hpart hne ?_)
    (fun hC => ?_) ?_ fun i hi => absurd hi List.not_mem_nil
  · rw [view_stage hc List.not_mem_nil, hposted]
  · rw [view_back hhead List.not_mem_nil, view_shape hhead List.not_mem_nil]
    exact hmore
  · rw [show accountAt (freeConsignment k (countPart c.head v s)) = accountAt s by rw [freeConsignment_frame]; rfl]
    exact (h.counted hC).partBack h.lawful hpart hshown
  · rw [freeConsignment_frame]
    rfl

/-! ## A set closes (R143) -/

/-- The records that still stand when the last part of a set comes back. -/
abbrev lastParts (k a : Nat) : List Nat := if k = a then [k] else [a, k]

theorem lastParts_nodup (k a : Nat) : (lastParts k a).Nodup := by
  unfold lastParts
  split_ifs with h
  · simp
  · simp [Ne.symm h]

theorem mem_lastParts {k a i : Nat} : i ∈ lastParts k a ↔ i = a ∨ i = k := by
  unfold lastParts
  split_ifs with h <;> simp [h]

/-- The last part, with the head, is all that stands of its set, and the head was POSTED. -/
theorem Good.set_last (h : Good C {} s) (hc : Table.get s.assembly.cons k = some c) (hkind : c.kind = .braillePart)
    (hposted : c.state = .posted) (hd : HeadsSet s c.head c head) (hlast : head.parts ≤ head.returned + 1)
    (hfirst : k = c.head → c.headReturned = false) :
    head.state = .posted ∧ Leaves (lastParts k c.head) c.head head.patron (view {} s) := by
  have hpart : (view {} s).IsPart c.head k := (view_isPart hc List.not_mem_nil).mpr ⟨hkind, rfl⟩
  have hself : (view {} s).IsPart c.head c.head := (view_isPart hd.record List.not_mem_nil).mpr ⟨hd.kind, hd.self⟩
  have hall : ∀ i ∈ lastParts k c.head, (view {} s).IsPart c.head i := fun i hi => by
    rcases mem_lastParts.mp hi with rfl | rfl
    · exact hself
    · exact hpart
  have hle := length_le_partsOf h.lawful (lastParts_nodup k c.head) hall
  have hwhole := hd.whole
  have hopen := hd.open_
  have hstate : head.state = .posted ∧ (view {} s).partsOf c.head ≤ (lastParts k c.head).length := by
    by_cases hk : k = c.head
    · obtain rfl : c = head := Option.some.inj (hc.symm.trans (hk ▸ hd.record))
      rw [hfirst hk, Bool.toNat_false] at hwhole
      exact ⟨hposted, by simp only [lastParts, if_pos hk, List.length_singleton]; omega⟩
    · simp only [lastParts, if_neg hk, List.length_cons, List.length_nil] at hle ⊢
      have hback : head.headReturned = true := by
        by_contra hb
        rw [Bool.eq_false_iff.mpr hb, Bool.toNat_false] at hwhole
        omega
      rw [hback, Bool.toNat_true] at hwhole
      exact ⟨hd.posted hback, by omega⟩
  have hshape := view_shape (M := {}) hd.record List.not_mem_nil
  refine ⟨hstate.1, ⟨mem_lastParts.mpr (.inl rfl), hself.1, by rw [hshape], fun i hi => ?_, fun hb => ?_, fun _ =>
    parts_exact h.lawful (lastParts_nodup k c.head) hall hstate.2⟩⟩
  · rcases mem_lastParts.mp hi with rfl | rfl
    · rw [view_stage hd.record List.not_mem_nil, hstate.1]
      decide
    · rw [view_stage hc List.not_mem_nil, hposted]
      decide
  · rw [hshape] at hb
    exact absurd hd.kind hb

theorem countPart_other {a i : Nat} (h : i ≠ a) (v : Verdict) :
    Table.get (countPart a v s).assembly.cons i = Table.get s.assembly.cons i := by
  rw [countPart, modCons_cons]
  exact Table.get_modify_other _ _ h

theorem countPart_carrier (a : Nat) (v : Verdict) :
    reads (countPart a v s).assembly.cons none carrierOf = reads s.assembly.cons none carrierOf := by
  rw [countPart, modCons_cons]
  exact reads_carrier_same (fun _ => rfl) fun _ => rfl

theorem countPart_closing {a : Nat} {ks : List Nat} (ha : a ∈ ks) (hall : ∀ i ∈ ks, (Table.get s.assembly.cons i).isSome = true)
    (v : Verdict) : Closing ks ks s (countPart a v s) where
  frame := rfl
  others i hi := countPart_other (ne_of_mem_of_not_mem ha hi).symm v
  carrier := countPart_carrier a v
  removed := .all fun i hi => by
    rw [countPart, modCons_cons, Table.get_modify]
    split_ifs
    · rw [Option.isSome_map]
      exact hall i hi
    · exact hall i hi

/-! ## Returned items (R139 to R143) -/

theorem returnMove_change (c : Consignment) (v : Verdict) (s : State) : OrderChange s (returnMove c v s) := by
  unfold returnMove
  split
  · exact movePack_change _ v s
  · exact (moveCopy_change _ v s).trans (moveShelfCartridge_change _ v _)
  · exact moveCopy_change _ v s

theorem TablesCanonical.loanReturned (h : TablesCanonical s) (k : Nat) (c : Consignment) (v : Verdict) :
    TablesCanonical (loanReturned k c v s) :=
  (((closeLines_change k c s).trans (linesClosed_change c.patron (openLines c).length _)).trans
    (returnMove_change c v _)).work.tables h

theorem loanLost_returned (k : Nat) (c : Consignment) (s : State) : loanLost k c s = loanReturned k c .retire s := by
  unfold loanLost loanReturned returnMove loseItem
  cases c.kind <;> rfl

/-- A returned or lost pack or copy leaves circulation (R140, R141, R159). -/
theorem Good.returned (h : Good C {} s) (hc : Table.get s.assembly.cons k = some c) (hkind : c.kind ≠ .braillePart)
    (hposted : c.state = .posted) (v : Verdict) : Good C { cons := [k] } (markLifted c (loanReturned k c v s)) := by
  have hform := h.form.loanReturned k c v
  have hclosed := loanReturned_closed k c v s
  by_cases hpack : c.kind = .pack
  · exact h.packCloses hc hpack hposted hclosed hform
  · have hlines : c.lines ≠ [] := fun hnil => by
      have := ((h.lawful.carrying k (view_present hc List.not_mem_nil)).mp
        (by rw [view_lines hc List.not_mem_nil, hnil]; rfl)).1
      rw [view_shape hc List.not_mem_nil] at this
      exact hkind this
    exact h.copyCloses hc hpack hlines (.inl hposted) (leaves_single hc hkind (by rw [hposted]; decide))
      ⟨rfl, fun _ _ => rfl, rfl, .all fun i hi => by simp [List.mem_singleton.mp hi, hc]⟩ hclosed hform

/-- The set of a part closes when no part of it is away any more (R143). -/
theorem Good.setCloses {ks hs : List Nat} {s' : State} (h : Good C {} s) (hd : HeadsSet s c.head c head)
    (hposted : head.state = .posted) (hleaves : Leaves ks c.head head.patron (view {} s)) (hclosing : Closing ks hs s s')
    (hform : TablesCanonical s') (hnd : hs.Nodup) (freed : Option Nat) (v : Verdict) :
    Good C {} (Machine.freeAll hs (Machine.closeLoan c.head head (returnMove head v) freed s')) := by
  have hgood := h.copyCloses hd.record (by rw [hd.kind]; decide) hd.lined (.inl hposted) hleaves hclosing
    (loanReturned_closed c.head head v s') (hform.loanReturned c.head head v)
  exact (hgood.closeLoan freed).freeAll (M := {}) hnd

/-- A returned item is disposed of by its kind (R139 to R143). -/
theorem Good.dispose (h : Good C {} s) (hc : Table.get s.assembly.cons k = some c) (hposted : c.state = .posted)
    (hfirst : c.kind = .braillePart → k = c.head → c.headReturned = false) (v : Verdict) : Good C {} (dispose k c v s).1 := by
  cases hkind : c.kind with
  | pack =>
    rw [dispose_pack hkind]
    exact (((h.returned hc (by rw [hkind]; decide) hposted v).afterClose).headroom c.patron).freeHidden (M := {}) List.not_mem_nil
  | shelfAudio =>
    rw [dispose_shelf hkind]
    exact ((h.returned hc (by rw [hkind]; decide) hposted v).closeLoan _).freeHidden (M := {}) List.not_mem_nil
  | braillePart =>
    obtain ⟨head, hd⟩ := h.set_head hc hkind
    by_cases hm : head.returned + 1 < head.parts
    · rw [dispose_held hkind hd.record hm]
      split_ifs with hk
      · obtain rfl : c = head := Option.some.inj (hc.symm.trans (hk ▸ hd.record))
        rw [← hk]
        exact h.headReturns hc hposted (hfirst hkind hk) hm v
      · exact h.partBack hc hkind hposted hk hd.record hm v
    · obtain ⟨hhead, hleaves⟩ := h.set_last hc hkind hposted hd (by omega) (hfirst hkind)
      rw [dispose_last hkind hd.record (by omega) hd.kind]
      have hshown : ∀ i ∈ lastParts k c.head, (Table.get s.assembly.cons i).isSome = true := fun i hi => by
        rcases mem_lastParts.mp hi with rfl | rfl
        · rw [hd.record]; rfl
        · rw [hc]; rfl
      exact h.setCloses hd hhead hleaves (countPart_closing hleaves.mem hshown v)
        ((countPart_change c.head v s).work.tables h.form) (lastParts_nodup k c.head) _ _

/-! ## Lost items (R159, R160) -/

theorem mem_partsIn (hw : Table.wf s.assembly.cons) {a i : Nat} {st : ConsState} : i ∈ partsIn s a st ↔
    i ≠ a ∧ ∃ x, Table.get s.assembly.cons i = some x ∧ x.kind = .braillePart ∧ x.head = a ∧ x.state = st := by
  simp only [partsIn, List.mem_map, List.mem_filter, decide_eq_true_eq]
  constructor
  · rintro ⟨⟨j, x⟩, ⟨hmem, hkind, hhead, hne, hst⟩, rfl⟩
    exact ⟨hne, x, Table.get_of_mem_wf hw hmem, hkind, hhead, hst⟩
  · rintro ⟨hne, x, hx, hkind, hhead, hst⟩
    exact ⟨(i, x), ⟨Table.mem_of_get hx, hkind, hhead, hne, hst⟩, rfl⟩

theorem lostRecords_nodup (hw : Table.wf s.assembly.cons) (k : Nat) (c : Consignment) : (lostRecords s k c).Nodup := by
  unfold lostRecords
  split_ifs
  · refine List.nodup_cons.mpr ⟨fun hmem => ((mem_partsIn hw).mp hmem).1 rfl, ?_⟩
    exact (List.Pairwise.sublist (List.filter_sublist.map _) hw).imp Nat.ne_of_lt
  · exact List.nodup_singleton k

/-- The parts of a set whose head is POSTED are away or wait for their dispatch. -/
theorem Good.part_state (h : Good C {} s) (hc : Table.get s.assembly.cons k = some c) (hkind : c.kind = .braillePart)
    (hd : HeadsSet s c.head c head) (hposted : head.state = .posted) :
    c.state = .ready ∨ c.state = .releasing ∨ c.state = .posted := by
  have hstage := view_stage (M := {}) hc List.not_mem_nil
  have hshape := view_shape (M := {}) hc List.not_mem_nil
  have hfits := h.lawful.staged k _ hstage
  have htogether := h.lawful.together k (view_present hc List.not_mem_nil) (by rw [hshape]; exact hkind)
    (by rw [hshape]; exact (h.ne_zero hd.record).symm)
  rw [hshape, view_stage hd.record List.not_mem_nil, hstage, hposted] at htogether
  rw [hshape, hkind] at hfits
  simp only [stateFitsKind, decide_eq_true_eq] at hfits
  rcases hfits with hp | hrest
  · rw [hp] at htogether
    simp at htogether
  · exact hrest

/-- The records of a declared loan are those of its consignment. -/
theorem Good.lostRecords_leaves (h : Good C {} s) (hc : Table.get s.assembly.cons k = some c) (hposted : c.state = .posted)
    (hhead : c.kind = .braillePart → c.head = k)
    (hsent : c.kind = .braillePart → partsIn s k .ready = [] ∧ partsIn s k .releasing = []) :
    Leaves (lostRecords s k c) k c.patron (view {} s) := by
  by_cases hkind : c.kind = .braillePart
  · have hmem (i : Nat) : i ∈ lostRecords s k c ↔ (view {} s).IsPart k i := by
      rw [lostRecords, if_pos hkind, List.mem_cons, mem_partsIn h.consWf]
      constructor
      · rintro (rfl | ⟨-, x, hx, hxk, hxh, -⟩)
        · exact (view_isPart hc List.not_mem_nil).mpr ⟨hkind, hhead hkind⟩
        · exact (view_isPart hx List.not_mem_nil).mpr ⟨hxk, hxh⟩
      · intro hpart
        obtain ⟨x, hx⟩ := Option.isSome_iff_exists.mp (view_present_iff.mp hpart.1).2
        obtain ⟨hxk, hxh⟩ := (view_isPart hx List.not_mem_nil).mp hpart
        refine or_iff_not_imp_left.mpr fun hne => ⟨hne, x, hx, hxk, hxh, ?_⟩
        obtain ⟨head, hd⟩ := h.set_head hx hxk
        obtain rfl : head = c := Option.some.inj ((hxh ▸ hd.record).symm.trans hc)
        obtain ⟨hready, hreleasing⟩ := hsent hkind
        rcases h.part_state hx hxk hd hposted with hst | hst | hst
        · exact absurd ((mem_partsIn h.consWf).mpr ⟨hne, x, hx, hxk, hxh, hst⟩) (by rw [hready]; exact List.not_mem_nil)
        · exact absurd ((mem_partsIn h.consWf).mpr ⟨hne, x, hx, hxk, hxh, hst⟩) (by rw [hreleasing]; exact List.not_mem_nil)
        · exact hst
    have hshape := view_shape (M := {}) hc List.not_mem_nil
    refine ⟨(hmem k).mpr ?_, view_present hc List.not_mem_nil, by rw [hshape], fun i hi => ?_, fun hb => ?_, fun _ => hmem⟩
    · exact (view_isPart hc List.not_mem_nil).mpr ⟨hkind, hhead hkind⟩
    · have hi' : ∃ x, Table.get s.assembly.cons i = some x ∧ x.state = .posted := by
        rw [lostRecords, if_pos hkind, List.mem_cons, mem_partsIn h.consWf] at hi
        rcases hi with rfl | ⟨-, x, hx, -, -, hst⟩
        · exact ⟨c, hc, hposted⟩
        · exact ⟨x, hx, hst⟩
      obtain ⟨x, hx, hst⟩ := hi'
      rw [view_stage hx List.not_mem_nil, hst]
      decide
    · rw [hshape] at hb
      exact absurd hkind hb
  · rw [lostRecords, if_neg hkind]
    exact leaves_single hc hkind (by rw [hposted]; decide)

/-- DECLARE_LOST of a loan: its records leave circulation together (R159). -/
theorem Good.loseLoan (h : Good C {} s) (hc : Table.get s.assembly.cons k = some c) (hposted : c.state = .posted)
    (hhead : c.kind = .braillePart → c.head = k)
    (hsent : c.kind = .braillePart → partsIn s k .ready = [] ∧ partsIn s k .releasing = []) : Good C {} (loseLoan k c s) := by
  have hleaves := h.lostRecords_leaves hc hposted hhead hsent
  have hnd := lostRecords_nodup h.consWf k c
  rw [loseLoan_eq]
  refine Good.headroom (Good.freeAll (M := {}) (Good.afterClose ?_) hnd) _
  rw [loanLost_returned]
  by_cases hkind : c.kind = .braillePart
  · have hlines : c.lines ≠ [] := fun hnil => by
      have := ((h.lawful.carrying k (view_present hc List.not_mem_nil)).mp
        (by rw [view_lines hc List.not_mem_nil, hnil]; rfl)).2
      rw [view_shape hc List.not_mem_nil] at this
      exact this (hhead hkind)
    refine h.copyCloses hc (by rw [hkind]; decide) hlines (.inl hposted) hleaves ⟨rfl, fun _ _ => rfl, rfl, .all fun i hi => ?_⟩
      (loanReturned_closed k c .retire s) (h.form.loanReturned k c .retire)
    exact (view_present_iff.mp ((hleaves.set (by rw [view_shape hc List.not_mem_nil]; exact hkind) i).mp hi).1).2
  · rw [lostRecords, if_neg hkind]
    exact h.returned hc hkind hposted .retire

/-- DECLARE_LOST of a part that is not the head of its set (R160). -/
theorem Good.losePart (h : Good C {} s) (hc : Table.get s.assembly.cons k = some c) (hkind : c.kind = .braillePart)
    (hposted : c.state = .posted) (hne : c.head ≠ k) : Good C {} (losePart k c s) := by
  obtain ⟨head, hd⟩ := h.set_head hc hkind
  unfold Machine.losePart
  rw [hd.record]
  dsimp only
  by_cases hm : head.returned + 1 < head.parts
  · rw [if_pos hm]
    exact h.partBack hc hkind hposted hne.symm hd.record hm .retire
  · rw [if_neg hm, completeSet_eq hd.kind]
    obtain ⟨hhead, hleaves⟩ := h.set_last hc hkind hposted hd (by omega) fun e => absurd e.symm hne
    have hlines := h.part_unlined hc hkind hne
    have hcount := countPart_change c.head .retire s
    refine h.setCloses (hs := [c.head]) hd hhead hleaves ?_ ((hcount.trans (freeConsignment_change k _)).work.tables h.form)
      (List.nodup_singleton _) _ _
    rw [h.partFreed hc hlines (by rw [hposted]; decide) hne.symm]
    have hget (i : Nat) : Table.get (Table.delete (countPart c.head .retire s).assembly.cons k) i =
        if i = k then none else Table.get (countPart c.head .retire s).assembly.cons i := Table.get_delete _ _ _
    refine ⟨rfl, fun i hi => ?_, ?_, ?_⟩
    · have hi' := fun e => hi (mem_lastParts.mpr e)
      exact (hget i).trans ((if_neg fun e => hi' (.inr e)).trans
        (countPart_other (fun e => hi' (.inl e)) .retire))
    · refine reads_delete.trans ?_
      rw [countPart_carrier]
      exact Function.update_eq_self_iff.mpr (by rw [reads_some hc, carrierOf, if_pos hlines])
    · refine ⟨fun i hi => mem_lastParts.mpr (.inl (List.mem_singleton.mp hi)), fun i hi => ?_, fun i hi hno => ?_⟩
      · obtain rfl := List.mem_singleton.mp hi
        refine (congrArg Option.isSome ((hget _).trans (if_neg hne))).trans ?_
        rw [countPart_cons hd.record, if_pos rfl]
        rfl
      · rcases mem_lastParts.mp hi with rfl | rfl
        · exact absurd (List.mem_singleton_self _) hno
        · exact (hget i).trans (if_pos rfl)

/-- DECLARE_LOST (R158 to R160). -/
theorem Good.declareLoss (h : Good C {} s) (k : Nat) : Good C {} (declareLoss k s).state := by
  unfold Machine.declareLoss
  split_ifs with hr
  · exact h
  · split
    next => exact h
    next c hc =>
      split_ifs with hst hpart hback hsent
      · exact h
      · exact h.losePart hc hpart.1 (not_ne_iff.mp hst) hpart.2
      · exact h
      · exact h
      · exact h.loseLoan hc (not_ne_iff.mp hst) (fun hk => by_contra fun hne => hpart ⟨hk, hne⟩) fun hk =>
          ⟨by_contra fun hne => hsent ⟨hk, .inl hne⟩, by_contra fun hne => hsent ⟨hk, .inr hne⟩⟩

/-! ## The item in inspection (R127) -/

theorem matchItem_posted {i : ReturnItem} (h : matchItem s i = .ok c) : c.state = .posted ∧
    (c.kind = .braillePart → i.consignment = c.head → c.headReturned = false) := by
  unfold matchItem at h
  split_ifs at h
  split at h
  next => cases h
  next hc =>
    split_ifs at h with hst hdup hser
    cases h
    refine ⟨not_ne_iff.mp fun e => hst (.inl e), fun hk hh => Bool.eq_false_iff.mpr fun hb => hdup ⟨hk, hh.symm, hb⟩⟩

theorem Calm.sendVerdict (i : ReturnItem) (v : ItemVerdict) (d : Divert) (e : ExceptionCause) (s : State) :
    Calm s (sendVerdict i v d e s) := (Calm.returns _ s).trans (.toFloor _ _)

theorem Calm.startInspection (s : State) : Calm s (startInspection s) := by
  unfold Machine.startInspection
  split
  · exact .refl s
  · split_ifs
    · exact .returns _ s
    · exact .refl s

theorem Calm.finishInspection (s : State) : Calm s (finishInspection s) := by
  unfold Machine.finishInspection
  split_ifs
  · exact .returns _ s
  · exact (Calm.returns _ s).trans (.startInspection _)

/-- A matched item is recorded, judged and disposed of (R127 steps 2 to 6). -/
theorem Good.judgeItem {i : ReturnItem} (h : Good C {} s) (hi : matchItem s i = .ok c) : Good C {} (judgeItem i c s) := by
  obtain ⟨hposted, hfirst⟩ := matchItem_posted hi
  unfold Machine.judgeItem
  generalize recordChannels i c.weight s.returns = r
  generalize verdictOf s.returns i c.weight = v
  have hrecorded : Good C {} { s with returns := r } := (Calm.returns r s).good h
  have hdone := hrecorded.dispose (matchItem_present hi) hposted hfirst v
  refine (Calm.sendVerdict _ _ _ _ _).good ?_
  split_ifs
  · exact hdone.latch _ _
  · exact hdone

theorem Good.completeItem (h : Good C {} s) (i : ReturnItem) : Good C {} (completeItem i s) := by
  unfold Machine.completeItem
  refine (Calm.finishInspection _).good ?_
  split
  next c hc => exact h.judgeItem hc
  next e hc => exact (Calm.sendVerdict _ _ _ _ _).good (h.latch _ _)

/-! ## The sweep (R166 to R169) -/

theorem view_marked_of {p : Patron} (hc : Table.get s.assembly.cons k = some c) (hp : Table.get s.records.patrons c.patron = some p) :
    view {} (modPatron c.patron (fun p => { p with overdue := p.overdue + 1 }) (modCons k (fun x => { x with overdue := true }) s)) =
      (view {} s).mark k c.patron := by
  simp [view, Circ.mark]
  simp [readsBut_modify_some hc, reads_modify_some hp, reads_some hp]

/-- A loan is marked overdue (R167). -/
theorem Good.markOverdue (h : Good C {} s) (hc : Table.get s.assembly.cons k = some c) (hmarks : marks s k c = true) :
    Good C {} (markOverdue k c s) := by
  simp only [marks, carriesLoan, Bool.and_eq_true, decide_eq_true_eq, Bool.not_eq_true'] at hmarks
  obtain ⟨⟨⟨hposted, hcarries⟩, hmark⟩, -⟩ := hmarks
  obtain ⟨p, hp⟩ := h.patron_present hc List.not_mem_nil
  have hshape := view_shape (M := {}) hc List.not_mem_nil
  unfold Machine.markOverdue
  refine Good.evaluateHeld ?_ _
  have hdays := (Calm.days { s.days with marked := s.days.marked + 1 } s).good h
  refine hdays.record (w := (view {} s).mark k c.patron)
    (fun hform => ((OrderChange.modCons k _ _).work.tables hform).modPatron) (view_marked_of hc hp)
    (h.lawful.mark ?_ (by rw [hshape]) (fun hnil => ?_) ?_) (fun hC => (h.counted hC).mark k c.patron) rfl
    fun i hi => absurd hi List.not_mem_nil
  · rw [view_stage hc List.not_mem_nil, hposted]
  · obtain ⟨hkind, hne⟩ := (h.lawful.carrying k (view_present hc List.not_mem_nil)).mp hnil
    rw [hshape] at hkind hne
    exact hcarries.elim (fun g => g hkind) hne
  · rw [view_marked hc List.not_mem_nil, hmark]

theorem Good.examineRecord (h : Good C {} s) (k : Nat) : Good C {} (examineRecord k s) := by
  unfold Machine.examineRecord
  split
  next => exact h
  next c hc =>
    split_ifs with hm
    · exact h.markOverdue hc hm
    · exact Good.sealPack ((Calm.days _ s).good h) List.not_mem_nil
    · exact h

theorem Calm.advanceSweep (s : State) : Calm s (advanceSweep s) := by
  unfold Machine.advanceSweep
  split_ifs
  · exact (Calm.latch _ _ s).trans (.days _ _)
  · exact .days _ s

end Sets

end Sys2Proof.Machine
end

