-- ==== Sys2Proof/Proofs/CirculatingPicks.lean ====
section
/-! PROOFS. Orders, cancelled lines and missing copies keep the laws of circulation (R26 to R34, R64, R70, R71). -/

namespace Sys2Proof.Machine

open Function (update)

/-! ## Lines that leave with their consignment -/

section Leaving

variable {v : Circ} {ks : List Nat} {k n m : Nat}

theorem Lawful.lines_nodup (h : Lawful v) (k : Nat) : (v.lines k).Nodup := by
  refine List.nodup_iff_count_le_one.mpr fun m => ?_
  by_cases hlines : v.lines k = []
  · simp [hlines]
  · have hle := le_tally (f := fun i => if (v.shape i).patron = (v.shape k).patron then (v.lines i).count m else 0)
      (h.consPool k (h.present_of_lines hlines)).2
    rw [if_pos rfl] at hle
    exact hle.trans ((Nat.le_add_left _ _).trans (h.once (v.shape k).patron m))

/-- A patron does not claim a title whose line has left. -/
theorem claimless_leave (h : Lawful v) (hl : Leaves ks k n v) (hm : m ∈ v.lines k) : (v.leave ks k n).Claimless n m := by
  have hpool := (h.consPool k (h.present_of_lines (List.ne_nil_of_mem hm))).2
  have hopen := Circ.openOf_change (leave_sameLines h hl) rfl hpool (p := n) (fun hnil => absurd rfl hnil) leave_lines n m
  have honce := h.once n m
  have hcount : 1 ≤ (v.lines k).count m := List.count_pos_iff.mpr hm
  have hlive : (v.leave ks k n).live n m = v.live n m := rfl
  rw [hl.patron, if_pos rfl, List.count_nil, ite_self] at hopen
  unfold Circ.Claimless
  omega

end Leaving

section Owing

variable {C : Prop} {M : Amid} {s : State} {k n : Nat} {l : List Line} {c : Consignment}

theorem Circ.forgive_unchain (n : Nat) (titles : List Nat) (k a : Nat) (v : Circ) :
    (v.unchain k a).forgive n titles = (v.forgive n titles).unchain k a := rfl

/-- The copy of a SHELF title was given up with its record. -/
theorem Circ.forgive_shelf {v : Circ} {m : Nat} {x : TitleShape} (hx : v.title m = some x) (hpol : x.policy = .shelf) :
    v.forgive n [m] = { v with charge := update v.charge n (v.charge n - 1) } := by
  have hout : (fun i => v.out i - if (v.title i).any (fun x => decide (x.policy = .onDemand)) then [m].count i else 0) = v.out := by
    funext i
    by_cases hi : i = m
    · subst hi
      simp [hx, hpol]
    · simp [Ne.symm hi]
  simp only [Circ.forgive, hout, List.length_singleton]

/-- A hidden record is freed while its lines are owed. -/
theorem Owing.freeHidden (h : Owing C { M with cons := k :: M.cons } n l s) (hk : k ∉ M.cons) :
    Owing C M n l (freeConsignment k s) := by
  obtain ⟨-, hsome⟩ := h.hides.cons k List.mem_cons_self
  obtain ⟨c, hc⟩ := Option.isSome_iff_exists.mp hsome
  have hview := view_freed hc (not_open_of_hidden h.lawful h.hides rfl rfl) h.lawful.chained
  let w := (view M (freeConsignment k s)).forgive n (l.map Line.title)
  have hgood : Lawful w ∧ (C → Counted w (accountAt s)) ∧ ∀ i ∈ l, w.Claimless n i.title := by
    simp only [w]
    rw [hview]
    split_ifs with hlines
    · exact ⟨h.lawful, h.counted, h.claimless⟩
    · rw [Circ.forgive_unchain]
      exact ⟨h.lawful.unchain ((reads_some hc).trans (if_neg hlines)), fun hC => (h.counted hC).unchain k c.patron, h.claimless⟩
  obtain ⟨hlawful, hcounted, hclaimless⟩ := hgood
  exact
    { form := (freeConsignment_change k s).work.tables h.form
      lawful := hlawful
      counted := fun hC => by
        rw [freeConsignment_accountAt]
        exact hcounted hC
      placed := h.placed.freeConsignment k
      hides := h.hides.freeConsignment hk
      patron := by
        rw [freeConsignment_eq hc, Table.get_modify]
        split_ifs
        · rw [Option.isSome_map]
          exact h.patron
        · exact h.patron
      titles := fun i hi => by
        rw [freeConsignment_eq hc]
        exact h.titles i hi
      once := h.once
      claimless := hclaimless }

theorem Owing.freeAll {ks : List Nat} (h : Owing C { M with cons := ks } n l s) (hnd : ks.Nodup) :
    Owing C { M with cons := [] } n l (freeAll ks s) := by
  induction ks generalizing s with
  | nil => exact h
  | cons k ks ih =>
    obtain ⟨hk, hnd⟩ := List.nodup_cons.mp hnd
    exact ih (Owing.freeHidden (M := { M with cons := ks }) h hk) hnd

/-- One owed line is given up. -/
theorem Owing.ungranted {i : Line} {rest : List Line} (h : Owing C M n (i :: rest) s) : Owing C M n rest (ungrant n i.title s) := by
  obtain ⟨p, hp⟩ := Option.isSome_iff_exists.mp h.patron
  have hview : (view M (ungrant n i.title s)).forgive n (rest.map Line.title) =
      (view M s).forgive n ((i :: rest).map Line.title) := by
    rw [view_ungrant hp, Circ.forgive_cons]
    rfl
  exact
    { form := (ungrant_change _ _ _).work.tables h.form
      lawful := hview ▸ h.lawful
      counted := fun hC => hview ▸ h.counted hC
      placed := h.placed.congr (fun _ => rfl) (fun _ => .refl _) fun _ => rfl
      hides := ⟨h.hides.cons, h.hides.ended⟩
      patron := by rw [ungrant_patron, if_pos rfl, hp]; rfl
      titles := fun j hj => by
        rw [ungrant_title, Option.isSome_map]
        exact h.titles j (List.mem_cons_of_mem i hj)
      once := (List.nodup_cons.mp h.once).2
      claimless := fun j hj => hview ▸ h.claimless j (List.mem_cons_of_mem i hj) }

end Owing

/-! ## A missing copy (R70, R71) -/

section Missing

variable {C : Prop} {s : State} {k : Nat} {c : Consignment} {l : Line}

theorem mem_setParts (hw : Table.wf s.assembly.cons) {a i : Nat} : i ∈ setParts s a ↔
    ∃ x, Table.get s.assembly.cons i = some x ∧ x.kind = .braillePart ∧ x.head = a := by
  simp only [setParts, List.mem_map, List.mem_filter, decide_eq_true_eq]
  constructor
  · rintro ⟨⟨j, x⟩, ⟨hmem, hkind, hhead⟩, rfl⟩
    exact ⟨x, Table.get_of_mem_wf hw hmem, hkind, hhead⟩
  · rintro ⟨x, hx, hkind, hhead⟩
    exact ⟨(i, x), ⟨Table.mem_of_get hx, hkind, hhead⟩, rfl⟩

theorem Good.mem_setParts {M : Amid} (h : Good C M s) (hM : M.cons = []) {a i : Nat} : i ∈ setParts s a ↔ (view M s).IsPart a i := by
  have hno (i : Nat) : i ∉ M.cons := by rw [hM]; exact List.not_mem_nil
  rw [Machine.mem_setParts h.consWf]
  constructor
  · rintro ⟨x, hx, hkind, hhead⟩
    exact ⟨view_present hx (hno i), by rw [view_shape hx (hno i)]; exact hkind, by rw [view_shape hx (hno i)]; exact hhead⟩
  · rintro ⟨hp, hkind, hhead⟩
    obtain ⟨x, hx⟩ := Option.isSome_iff_exists.mp (view_present_iff.mp hp).2
    rw [view_shape hx (hno i)] at hkind hhead
    exact ⟨x, hx, hkind, hhead⟩

theorem pickingOf_some {p : Consignment × Line} (h : pickingOf s k = some p) :
    Table.get s.assembly.cons k = some p.1 ∧ p.1.state = .picking ∧ ∃ rest, p.1.lines = p.2 :: rest := by
  unfold pickingOf at h
  split at h
  next => cases h
  next c hc =>
    split at h
    next => cases h
    next l rest hl =>
      split_ifs at h with hst
      cases h
      exact ⟨hc, hst, rest, hl⟩

/-- The head of a PICKING consignment stands for itself, and its whole set is PICKING. -/
theorem Good.picking_leaves (h : Good C {} s) (hc : Table.get s.assembly.cons k = some c) (hpicking : c.state = .picking)
    (hlines : c.lines ≠ []) : c.kind ≠ .pack ∧ Leaves (wholeConsignment s k c) k c.patron (view {} s) := by
  have hshape := view_shape (M := {}) hc List.not_mem_nil
  have hstage := view_stage (M := {}) hc List.not_mem_nil
  have hpresent := view_present (M := {}) hc List.not_mem_nil
  have hpack : c.kind ≠ .pack := fun hk => by
    have := h.lawful.staged k _ hstage
    rw [hshape, hk, hpicking] at this
    simp [stateFitsKind] at this
  refine ⟨hpack, ?_⟩
  by_cases hkind : c.kind = .braillePart
  · have hhead : c.head = k := by
      by_contra hne
      exact hlines (h.part_unlined hc hkind hne)
    have hmem (i : Nat) : i ∈ wholeConsignment s k c ↔ (view {} s).IsPart k i := by
      rw [wholeConsignment, if_pos hkind]
      exact h.mem_setParts rfl
    refine ⟨(hmem k).mpr ((view_isPart hc List.not_mem_nil).mpr ⟨hkind, hhead⟩), hpresent, by rw [hshape], fun i hi => ?_,
      fun hb => absurd hkind (by rwa [hshape] at hb), fun _ => hmem⟩
    obtain ⟨hp, hk, hh⟩ := (hmem i).mp hi
    have htogether := h.lawful.together i hp hk (by rw [hh]; exact (h.ne_zero hc).symm)
    rw [hh, hstage, hpicking] at htogether
    rw [htogether.mp rfl]
    decide
  · rw [wholeConsignment, if_neg hkind]
    exact leaves_single hc hkind (by rw [hpicking]; decide)

/-- A consignment stands in SERVICE only. -/
theorem Good.service {M : Amid} (h : Good C M s) (hc : Table.get s.assembly.cons k = some c) (hk : k ∉ M.cons) :
    s.management.mode = .service := by
  have := h.lawful.not_setup (view_present hc hk)
  simp only [view] at this
  cases hm : s.management.mode with
  | setup => rw [hm] at this; cases this
  | service => rfl

theorem Good.unmarked {M : Amid} (h : Good C M s) (hc : Table.get s.assembly.cons k = some c) (hk : k ∉ M.cons)
    (hst : c.state ≠ .posted) : c.overdue = false := by
  by_contra hm
  have := (h.lawful.markedPosted k (by rw [view_marked hc hk]; simpa using hm)).1
  rw [view_stage hc hk] at this
  exact hst (Option.some.inj this)

/-- A loan that closes as lost settles its account as a missing copy does, and its charge and line too. -/
theorem loanLost_missing (hopen : openLines c = [l]) (hlt : lineTitle c = l.title) (hkind : c.kind ≠ .pack) :
    loanLost k c s =
      { writeOffCopy c l.title s with
        records.patrons := Table.modify s.records.patrons c.patron fun p => { p with charge := p.charge - 1 }
        assembly.cons := Table.modify s.assembly.cons k fun x =>
          { x with lines := x.lines.map fun l => { l with state := .closed } } } := by
  have htitles (u : State) : moveCopy l.title .retire (modTitle l.title (fun t => { t with out := t.out - 1 }) u) =
      modTitle l.title (fun t => { t with copies := t.copies - 1, out := t.out - 1 }) u := by
    simp only [moveCopy, modTitle, Table.modify_modify]
  cases hk : c.kind with
  | pack => exact absurd hk hkind
  | shelfAudio =>
    simp only [loanLost, loseItem, closeLines, hopen, List.foldl, hk, hlt, writeOffCopy]
    rw [← htitles]
    rfl
  | braillePart =>
    simp only [loanLost, loseItem, closeLines, hopen, List.foldl, hk, hlt, writeOffCopy]
    rw [← htitles]
    rfl

theorem view_writeOffCopy {ks : List Nat} {p : Patron} {x : Title} (hk : k ∈ ks) (hp : Table.get s.records.patrons c.patron = some p)
    (hopen : openLines c = [l]) (hlt : lineTitle c = l.title) (hx : Table.get s.records.titles l.title = some x)
    (hpol : x.policy = .shelf) (hkind : c.kind ≠ .pack) :
    (view { cons := ks } (writeOffCopy c l.title s)).forgive c.patron [l.title] = view { cons := ks } (loanLost k c s) := by
  have hpolicy : (view { cons := ks } (writeOffCopy c l.title s)).title l.title = some (titleShape x) := by
    rw [writeOffCopy_frame]
    simp [view, reads, hx, titleShape]
  have hpatrons : (writeOffCopy c l.title s).records.patrons = s.records.patrons := by rw [writeOffCopy_frame]
  have hcons : (writeOffCopy c l.title s).assembly.cons = s.assembly.cons := by rw [writeOffCopy_frame]
  rw [Circ.forgive_shelf hpolicy hpol, loanLost_missing hopen hlt hkind]
  generalize writeOffCopy c l.title s = u at *
  simp [view, readsBut_modify_hidden hk, hpatrons, hcons, reads_modify_some hp, reads_some hp]
  exact (reads_modify_same fun a => by simp [carrierOf]).symm

/-- The copy is missing: its title and its class give it up, and its line is owed (R70). -/
theorem Good.copyMissing (h : Good C {} s) (hc : Table.get s.assembly.cons k = some c) (hpicking : c.state = .picking)
    (hlines : c.lines = [l]) : Owing C { cons := wholeConsignment s k c } c.patron [l] (writeOffCopy c l.title s) := by
  have hne : c.lines ≠ [] := by rw [hlines]; exact List.cons_ne_nil _ _
  obtain ⟨hpack, hleaves⟩ := h.picking_leaves hc hpicking hne
  obtain ⟨l', x, hl', hlt, hx, -, hpol, -⟩ := h.copy_line hc List.not_mem_nil hpack hne
  obtain rfl : l' = l := by simpa [hlines] using hl'.symm
  obtain ⟨p, hp⟩ := h.patron_present hc List.not_mem_nil
  have hopen : openLines c = [l'] := (h.openLines_eq hc List.not_mem_nil).trans hlines
  have hshown : ∀ i ∈ wholeConsignment s k c, (Table.get s.assembly.cons i).isSome = true := fun i hi => by
    obtain ⟨y, hy⟩ := wholeConsignment_mem hc hi
    rw [hy]
    rfl
  have hclosing : Closing (wholeConsignment s k c) (wholeConsignment s k c) s s := ⟨rfl, fun _ _ => rfl, rfl, .all hshown⟩
  have hclosed := loanLost_closed k c s
  have hlost : markLifted c (loanLost k c s) = loanLost k c s := by
    rw [markLifted, h.unmarked hc List.not_mem_nil (by rw [hpicking]; decide)]
    rfl
  have hgood := h.copyCloses hc hpack hne (.inr ⟨hpack, hpicking⟩) hleaves hclosing hclosed
    (by rw [loanLost_returned]; exact h.form.loanReturned k c .retire)
  have hends := hclosed.ends hclosing hleaves.mem (h.openLines_eq hc List.not_mem_nil)
  rw [hlost] at hgood hends
  have hview := view_writeOffCopy hleaves.mem hp hopen hlt hx hpol hpack
  have hscheduler : (writeOffCopy c l'.title s).scheduler = s.scheduler := by rw [writeOffCopy_frame]
  have haccount : accountAt (loanLost k c s) = accountAt (writeOffCopy c l'.title s) := by
    rw [loanLost_missing hopen hlt hpack]
    rfl
  exact
    { form := (writeOffCopy_change c l'.title s).work.tables h.form
      lawful := hview ▸ hgood.lawful
      counted := fun hC => haccount ▸ hview ▸ hgood.counted hC
      placed := h.placed.congr (fun i => by rw [hscheduler]) (fun b => by rw [bayAt, hscheduler]; exact .refl _) fun l => by
        rw [queueAt, hscheduler, queueAt]
      hides := ⟨fun i hi => ⟨(hgood.hides.cons i hi).1, by rw [writeOffCopy_frame]; exact hshown i hi⟩,
        fun j hj => absurd hj List.not_mem_nil⟩
      patron := by rw [writeOffCopy_frame, hp]; rfl
      titles := fun i hi => by
        obtain rfl := List.mem_singleton.mp hi
        rw [writeOffCopy_frame, Table.get_modify, if_pos rfl, hx]
        rfl
      once := List.nodup_singleton _
      claimless := fun i hi => by
        obtain rfl := List.mem_singleton.mp hi
        rw [List.map_singleton, hview, hends.view h.lawful hc hleaves (claimed_stage hc (.inr ⟨hpack, hpicking⟩))]
        exact claimless_leave h.lawful hleaves (by rw [view_lines hc List.not_mem_nil, hlines]; exact List.mem_singleton_self _) }

/-- NOT_FOUND (R70, R71). -/
theorem Good.takeNotFound (h : Good C {} s) (k : Nat) : Good C {} (takeNotFound k s) := by
  unfold Machine.takeNotFound
  split
  next => exact h
  next c l hpick =>
    obtain ⟨hc, hpicking, rest, hlines⟩ := pickingOf_some hpick
    have hpack := (h.picking_leaves hc hpicking (by rw [hlines]; exact List.cons_ne_nil _ _)).1
    obtain ⟨l', x, hl', -⟩ := h.copy_line hc List.not_mem_nil hpack (by rw [hlines]; exact List.cons_ne_nil _ _)
    obtain rfl : rest = [] := by
      rw [hl'] at hlines
      exact (List.cons.inj hlines).2.symm
    have hended := (Calm.endPick k s).good h
    have hcons := (Calm.endPick k s).cons
    have howing := hended.copyMissing (hcons ▸ hc) hpicking hlines
    have hwhole : wholeConsignment (endPick k s) k c = wholeConsignment s k c := by
      rw [wholeConsignment, setParts, hcons]
      rfl
    rw [hwhole] at howing
    have hfreed := howing.freeAll (M := {}) (wholeConsignment_nodup h.consWf)
    refine Good.latch ?_ _ _
    rw [h.openLines_eq hc List.not_mem_nil, hlines]
    refine Owing.handOver hfreed ?_
    rw [freeAll_frame, writeOffCopy_frame, (Calm.endPick k s).mode]
    exact h.service hc List.not_mem_nil

end Missing

/-! ## A pack is given up (R33, R47, R64) -/

section GivenUp

variable {C : Prop} {L : List Nat} {s : State} {k : Nat} {c : Consignment}

/-- A pack that is still assembled, or that a job makes. -/
def Unmade (c : Consignment) : Prop := c.kind = .pack ∧ (c.state = .assembling ∨ c.state = .duplicating)

/-- The job that ends with its pack. -/
def endedJob (c : Consignment) : List Nat := if c.state = .duplicating then [c.job] else []

theorem Unmade.leaves {M : Amid} (hu : Unmade c) (hc : Table.get s.assembly.cons k = some c) (hk : k ∉ M.cons) :
    Leaves [k] k c.patron (view M s) := by
  have hshape := view_shape (M := M) hc hk
  have hstage := view_stage (M := M) hc hk
  exact
    { mem := List.mem_singleton_self k
      present := view_present hc hk
      patron := by rw [hshape]
      stages := fun i hi => by
        rw [List.mem_singleton.mp hi, hstage]
        rcases hu.2 with hst | hst <;> rw [hst] <;> decide
      alone := fun _ => rfl
      set := fun hb => by
        rw [hshape, hu.1] at hb
        cases hb }

theorem Unmade.not_consigned {M : Amid} (hu : Unmade c) (hc : Table.get s.assembly.cons k = some c) (hk : k ∉ M.cons) (d : Nat) :
    ¬(view M s).Consigned d k := by
  rw [Circ.Consigned, view_shape hc hk, view_stage hc hk, hu.1]
  rcases hu.2 with hst | hst <;> rw [hst] <;> simp [consigns]

/-- Only the job of a pack makes it. -/
theorem Good.pack_iff (h : Good C { loose := L } s) (hc : Table.get s.assembly.cons k = some c) (j : Nat) :
    (view { loose := L } s).pack j = some k ↔ j ∈ endedJob c := by
  have hstage := view_stage (M := { loose := L }) hc List.not_mem_nil
  have hjob := view_jobOf (M := { loose := L }) hc List.not_mem_nil
  unfold endedJob
  constructor
  · intro hj
    obtain ⟨-, hst, hjk⟩ := h.lawful.packing j k hj
    rw [hstage] at hst
    rw [if_pos (Option.some.inj hst), ← hjob, hjk]
    exact List.mem_singleton_self j
  · intro hj
    split_ifs at hj with hst
    · rw [List.mem_singleton.mp hj, ← hjob]
      exact h.lawful.duplicating k (by rw [hstage, hst])
    · cases hj

theorem Good.lines_open {M : Amid} (h : Good C M s) (hc : Table.get s.assembly.cons k = some c) (hk : k ∉ M.cons) :
    ∀ l ∈ c.lines, l.state = .isOpen := by
  have hopened := h.lawful.opened k
  rw [view_opened hc hk] at hopened
  simpa using hopened

theorem and_eq_update (g : Nat → Bool) : (fun i => !decide (i = k) && g i) = update g k false := by
  funext i
  by_cases hi : i = k <;> simp [hi]

theorem Good.view_packFreed (h : Good C { loose := L } s) (hc : Table.get s.assembly.cons k = some c) (hu : Unmade c) :
    (view { loose := L, ended := endedJob c } (freeConsignment k s)).forgive c.patron (c.lines.map Line.title) =
      ((view { loose := L } s).leave [k] k c.patron).unchain k c.patron := by
  obtain ⟨p, hp⟩ := h.patron_present hc List.not_mem_nil
  have hshape := view_shape (M := { loose := L }) hc List.not_mem_nil
  have hlines := view_lines (M := { loose := L }) hc List.not_mem_nil
  have hmark : (view { loose := L } s).marked k = false := by
    rw [view_marked hc List.not_mem_nil]
    exact h.unmarked hc List.not_mem_nil (by rcases hu.2 with hst | hst <;> rw [hst] <;> decide)
  have hpack : readsBut (endedJob c) s.scheduler.jobs none (fun x => if x.kind = .pack then some x.consignment else none) =
      fun j => ((view { loose := L } s).pack j).filter fun i => decide (i ∉ [k]) := by
    funext j
    have hiff := h.pack_iff hc j
    by_cases hj : j ∈ endedJob c
    · rw [hiff.mpr hj, readsBut, if_pos hj]
      exact (Option.filter_some_neg (by simp)).symm
    · rw [readsBut_shown hj]
      have hne : (view { loose := L } s).pack j ≠ some k := fun e => hj (hiff.mp e)
      change (view { loose := L } s).pack j = _
      rcases hp : (view { loose := L } s).pack j with _ | i
      · rfl
      · rw [hp] at hne
        have hik : i ≠ k := fun e => hne (congrArg some e)
        simp [Option.filter_some, hik]
  have hout : (fun m => (view { loose := L } s).out m -
      if ((view { loose := L } s).title m).any (fun x => decide (x.policy = .onDemand)) then (c.lines.map Line.title).count m else 0) =
      fun m => (view { loose := L } s).out m - ((view { loose := L } s).lines k).count m := by
    funext m
    rw [hlines]
    by_cases hm : m ∈ c.lines.map Line.title
    · obtain ⟨x, hx, hfits⟩ := h.lawful.fitting k m (by rwa [hlines])
      rw [hshape, hu.1] at hfits
      have hpol : x.policy = .onDemand := hfits
      rw [hx]
      simp [hpol]
    · simp [List.count_eq_zero.mpr hm]
  rw [Circ.leave, hmark, hshape, ← hpack, ← hout]
  rw [freeConsignment_eq hc]
  simp [view, Circ.forgive, Circ.unchain, reads_delete, readsBut_delete, reads_modify_some hp, reads_some hp, hu.1, readsBut_some List.not_mem_nil hc]
  simp only [and_eq_update, ite_eq_update, true_and, and_true]
  exact ⟨rfl, h.lines_open hc List.not_mem_nil⟩

/-- A pack that is given up owes its lines (R47, R64). -/
theorem Good.packFreed (h : Good C { loose := L } s) (hc : Table.get s.assembly.cons k = some c) (hu : Unmade c) :
    Owing C { loose := L, ended := endedJob c } c.patron c.lines (freeConsignment k s) := by
  have hview := h.view_packFreed hc hu
  have hleaves := hu.leaves (M := { loose := L }) hc List.not_mem_nil
  have hlines := view_lines (M := { loose := L }) hc List.not_mem_nil
  have hne : c.lines ≠ [] := fun hnil => by
    have hcarry := h.lawful.carrying k (view_present hc List.not_mem_nil)
    rw [hlines, hnil, view_shape hc List.not_mem_nil, hu.1] at hcarry
    cases (hcarry.mp rfl).1
  have hcarrier : ((view { loose := L } s).leave [k] k c.patron).carrier k = some c.patron := (reads_some hc).trans (if_neg hne)
  have hleave := h.lawful.leave hleaves
  obtain ⟨p, hp⟩ := h.patron_present hc List.not_mem_nil
  exact
    { form := (freeConsignment_change k s).work.tables h.form
      lawful := hview ▸ hleave.unchain hcarrier
      counted := fun hC => by
        rw [freeConsignment_accountAt, hview]
        have hcounted := h.counted hC
        refine Counted.unchain ⟨fun d hd => ?_, hcounted.classed.leave h.lawful hleaves⟩ _ _
        have hconsigned := consignedOf_leave h.lawful hleaves d
        rw [if_neg (hu.not_consigned hc List.not_mem_nil d)] at hconsigned
        obtain ⟨h1, h2, h3, h4⟩ := hcounted.agrees d hd
        exact ⟨h1, h2.trans hconsigned.symm, h3, h4⟩
      placed := h.placed.freeConsignment k
      hides := ⟨fun i hi => absurd hi List.not_mem_nil, fun j hj => by
        rw [freeConsignment_scheduler]
        have hpack := (h.pack_iff hc j).mpr hj
        by_contra hnone
        rw [view_pack_none (M := { loose := L }) (Option.not_isSome_iff_eq_none.mp hnone)] at hpack
        cases hpack⟩
      patron := by
        rw [freeConsignment_eq hc, Table.get_modify, if_pos rfl, hp]
        rfl
      titles := fun i hi => by
        obtain ⟨x, hx, -⟩ := h.lawful.fitting k i.title (by rw [hlines]; exact List.mem_map_of_mem hi)
        obtain ⟨y, hy, -⟩ := title_of_view hx
        rw [freeConsignment_eq hc, hy]
        rfl
      once := hlines ▸ h.lawful.lines_nodup k
      claimless := fun i hi => by
        rw [hview]
        exact claimless_leave h.lawful hleaves (by rw [hlines]; exact List.mem_map_of_mem hi) }

end GivenUp

/-! ## A line taken back (R33, R64) -/

section TakenBack

variable {C : Prop} {s : State} {k n m : Nat} {c : Consignment}

theorem dropLine_titles {l : List Line} (hopen : ∀ i ∈ l, i.state = .isOpen) (m : Nat) :
    (dropLine m l).map Line.title = (l.map Line.title).erase m := by
  induction l with
  | nil => rfl
  | cons i rest ih =>
    have hi := hopen i List.mem_cons_self
    by_cases him : i.title = m
    · simp [dropLine, hi, him]
    · have hrest := ih fun j hj => hopen j (List.mem_cons_of_mem i hj)
      have hcons : dropLine m (i :: rest) = i :: dropLine m rest := List.eraseP_cons_of_neg (by simp [him])
      rw [hcons, List.map_cons, hrest, List.map_cons, List.erase_cons_tail (by simp [him])]

theorem dropLine_subset (m : Nat) (l : List Line) : dropLine m l ⊆ l := List.eraseP_subset

theorem Table.delete_modify {α : Type} (t : Table α) (k : Nat) (f : α → α) : Table.delete (Table.modify t k f) k = Table.delete t k := by
  induction t with
  | nil => rfl
  | cons e t ih =>
    simp only [Table.delete, Table.modify, List.map_cons] at ih ⊢
    by_cases he : e.1 = k <;> simp [he, ih]

/-- A pack whose last line is taken back is freed before the charge falls, as well as after. -/
theorem freeConsignment_lineTaken (hc : Table.get s.assembly.cons k = some c) (m : Nat) :
    freeConsignment k (lineTaken k c.patron m c s) = ungrant c.patron m (freeConsignment k s) := by
  have hk : Table.get (lineTaken k c.patron m c s).assembly.cons k =
      some { c with lines := dropLine m c.lines, used := c.used - (blocksAt s m + 16) } := by
    rw [lineTaken_cons, if_pos rfl, hc]
    rfl
  rw [freeConsignment_eq hk, freeConsignment_eq hc]
  simp only [lineTaken, ungrant, modPatron, modTitle, modCons, Table.modify_modify, Table.delete_modify]

/-- A line stands in a pack that keeps others. -/
theorem Good.lineTaken (h : Good C {} s) (hc : Table.get s.assembly.cons k = some c) (hst : c.state = .assembling)
    (hm : m ∈ c.lines.map Line.title) (hrest : dropLine m c.lines ≠ []) : Good C {} (lineTaken k c.patron m c s) := by
  obtain ⟨p, hp⟩ := h.patron_present hc List.not_mem_nil
  have hstage := view_stage (M := {}) hc List.not_mem_nil
  have hshape := view_shape (M := {}) hc List.not_mem_nil
  have hlines := view_lines (M := {}) hc List.not_mem_nil
  have hpack := h.lawful.pack_of_assembling (hstage.trans (congrArg some hst))
  have hopen := h.lines_open hc List.not_mem_nil
  have htitles := dropLine_titles hopen m
  have hfit : ∀ i ∈ c.lines.map Line.title, ∃ x, (view {} s).title i = some x ∧ x.policy = .onDemand := fun i hi => by
    obtain ⟨x, hx, hfits⟩ := h.lawful.fitting k i (by rwa [hlines])
    rw [hpack] at hfits
    exact ⟨x, hx, hfits⟩
  obtain ⟨x, hx, hpol⟩ := hfit m hm
  obtain ⟨y, hy, rfl⟩ := title_of_view hx
  have hpool := (h.lawful.consPool k (view_present hc List.not_mem_nil)).2
  have hcharge : (c.lines.map Line.title).length ≤ p.charge := by
    have hle := le_tally (f := fun i => if ((view {} s).shape i).patron = c.patron then ((view {} s).lines i).length else 0) hpool
    rw [hshape, if_pos rfl, hlines] at hle
    rw [← view_charge (M := {}) hp, h.lawful.charged]
    exact hle
  have hout (i : Nat) : (c.lines.map Line.title).count i ≤ (view {} s).out i := by
    have hle := le_tally (f := fun i' => ((view {} s).lines i').count i) hpool
    rw [hlines] at hle
    rw [h.lawful.lent]
    exact hle
  have hmem : 1 ≤ (c.lines.map Line.title).count m := List.count_pos_iff.mpr hm
  have hlen : ((c.lines.map Line.title).erase m).length + 1 = (c.lines.map Line.title).length := by
    rw [List.length_erase_of_mem hm]
    have := List.length_pos_of_mem hm
    omega
  have hview : view {} (Machine.lineTaken k c.patron m c s) =
      (view {} s).reline k c.patron ((c.lines.map Line.title).erase m) (p.charge - 1)
        (update (view {} s).out m ((view {} s).out m - 1)) := by
    have hp' : Table.get (modCons k (fun x => { x with lines := dropLine m c.lines, used := x.used - (blocksAt s m + 16) })
      s).records.patrons c.patron = some p := hp
    have hne : c.lines ≠ [] := fun hnil => by rw [hnil] at hm; cases hm
    rw [Machine.lineTaken, view_ungrant hp', ← htitles]
    simp [view, Circ.forgive, Circ.reline, reads_some hp, readsBut_modify_some hc, readsBut_some List.not_mem_nil hc]
    refine ⟨funext fun i => ?_, ?_, reads_modify_at hc (by simp [carrierOf, hne, hrest])⟩
    · by_cases hi : i = m
      · subst hi
        have hpolicy : (reads s.records.titles none (fun x => some (titleShape x)) i).any
            (fun x => decide (x.policy = .onDemand)) = true := by
          rw [reads_some hy]
          simpa using hpol
        simp [hpolicy]
      · simp [hi, Ne.symm hi]
    · rw [List.all_eq_true.mpr fun i hi => decide_eq_true (hopen i hi),
        List.all_eq_true.mpr fun i hi => decide_eq_true (hopen i (dropLine_subset m _ hi))]
  refine h.record (((OrderChange.modCons k _ s).trans (ungrant_change _ _ _)).work.tables) hview (h.lawful.reline ?_ (by rw [hshape])
    ?_ ?_ ?_ ?_ ?_) (fun hC => (h.counted hC).reline hpack _ _ _ _) rfl fun i hi => absurd hi List.not_mem_nil
  · rw [hstage, hst]
  · rw [← htitles]
    simpa using hrest
  · exact fun i hi => hfit i (List.mem_of_mem_erase hi)
  · rw [hlines, view_charge hp]
    omega
  · intro i
    rw [hlines]
    by_cases hi : i = m
    · subst hi
      rw [Function.update_self, List.count_erase_self]
      have := hout i
      omega
    · rw [Function.update_of_ne hi, List.count_erase_of_ne hi]
  · intro i
    have honce := h.lawful.once c.patron i
    have := (List.erase_sublist (a := m) (l := c.lines.map Line.title)).count_le i
    rw [hlines]
    omega

/-- CANCEL of a line on the open pack (R33, R64). -/
theorem Good.takeBackLine (h : Good C {} s) (hc : Table.get s.assembly.cons k = some c) (hst : c.state = .assembling)
    (hm : m ∈ c.lines.map Line.title) : Good C {} (takeBackLine k c.patron m c s) := by
  by_cases hrest : dropLine m c.lines = []
  · rw [takeBackLine_frees hrest, freeConsignment_lineTaken hc]
    have hpack := h.lawful.pack_of_assembling ((view_stage (M := {}) hc List.not_mem_nil).trans (congrArg some hst))
    rw [view_shape hc List.not_mem_nil] at hpack
    have hfreed := h.packFreed (L := []) hc ⟨hpack, .inl hst⟩
    have htitles := dropLine_titles (h.lines_open hc List.not_mem_nil) m
    rw [hrest] at htitles
    obtain ⟨l, hl, hlm⟩ : ∃ l, c.lines = [l] ∧ l.title = m := by
      match hcl : c.lines with
      | [] => rw [hcl] at hm; cases hm
      | [l] =>
        rw [hcl] at hm
        exact ⟨l, rfl, (List.mem_singleton.mp hm).symm⟩
      | a :: b :: rest =>
        have hlen := congrArg List.length htitles
        rw [List.length_erase_of_mem hm, hcl] at hlen
        simp at hlen
    rw [hl, endedJob, if_neg (by rw [hst]; decide)] at hfreed
    subst hlm
    exact hfreed.ungranted.good.headroom _
  · rw [takeBackLine_keeps hrest]
    exact ((h.lineTaken hc hst hm hrest).examineClose _).headroom _

theorem carriesOpen_iff {t k : Nat} (hc : Table.get s.assembly.cons k = some c) :
    carriesOpen s t k = true ↔ ∃ l ∈ openLines c, l.title = t := by
  simp [carriesOpen, hc]

theorem Good.cancelLine {p : Patron} (h : Good C {} s) (hp : Table.get s.records.patrons n = some p) (m : Nat) :
    Good C {} (cancelLine n m p s).state := by
  unfold Machine.cancelLine
  split
  next c hc =>
    split_ifs with hopen hloan
    · obtain ⟨-, -, rfl⟩ := h.open_pack hp hc
      obtain ⟨hst, hcarries⟩ := hopen
      obtain ⟨l, hl, rfl⟩ := (carriesOpen_iff hc).mp hcarries
      rw [h.openLines_eq hc List.not_mem_nil] at hl
      exact h.takeBackLine hc hst (List.mem_map_of_mem hl)
    · exact h
    · exact h
  next => split_ifs <;> exact h

/-- CANCEL (R32 to R34). -/
theorem Good.cancelOrder (h : Good C {} s) (n m : Nat) : Good C {} (cancelOrder n m s).state := by
  unfold Machine.cancelOrder
  split
  next => exact h
  next =>
    split_ifs
    · exact h
    split
    next => exact h
    next p hp =>
      split
      next r hr =>
        split
        next => exact h
        next q hq => exact h.freeRequest hq
      next => exact h.cancelLine hp m

end TakenBack

/-! ## ORDER (R26 to R30) -/

section Placed

variable {C : Prop} {s : State} {n m r : Nat} {p : Patron}

/-- A patron without a live request or an open line for a title does not claim it (R24, R28). -/
theorem Good.claimless (h : Good C {} s) (hp : Table.get s.records.patrons n = some p) (hlive : liveRequest s p m = none)
    (hloan : onLoan s p m = false) : (view {} s).Claimless n m := by
  unfold Circ.Claimless
  have hnolive : (view {} s).live n m = 0 := by
    by_contra hne
    obtain ⟨r, -, hr⟩ := exists_of_tally_ne_zero hne
    have hclaim : (view {} s).claim r = some (n, m) := by_contra fun hno => hr (if_neg hno)
    have hwish := ((h.lawful.wished n).2 r).mpr (congrArg (Option.map Prod.fst) hclaim)
    rw [view_wish hp] at hwish
    have hfound := List.find?_eq_none.mp hlive r hwish
    rcases hq : Table.get s.requests r with _ | q
    · rw [view_claim_none hq] at hclaim
      cases hclaim
    · rw [view_claim hq] at hclaim
      simp only [hq] at hfound
      exact hfound (decide_eq_true (Prod.mk.inj (Option.some.inj hclaim)).2)
  have hnoopen : (view {} s).openOf n m = 0 := by
    by_contra hne
    obtain ⟨k, -, hk⟩ := exists_of_tally_ne_zero hne
    have hpatron : ((view {} s).shape k).patron = n := by_contra fun hno => hk (if_neg hno)
    rw [if_pos hpatron] at hk
    have hmem : m ∈ (view {} s).lines k := List.count_pos_iff.mp (Nat.pos_of_ne_zero hk)
    have hpresent := h.lawful.present_of_lines (List.ne_nil_of_mem hmem)
    obtain ⟨c, hc⟩ := Option.isSome_iff_exists.mp (view_present_iff.mp hpresent).2
    rw [view_shape hc List.not_mem_nil] at hpatron
    rw [view_lines hc List.not_mem_nil] at hmem
    have hcarrier : (view {} s).carrier k = some n :=
      (reads_some hc).trans ((if_neg fun hnil => by rw [hnil] at hmem; cases hmem).trans (congrArg some hpatron))
    have hchain := ((h.lawful.chained n).2 k).mpr hcarrier
    rw [view_chain hp] at hchain
    have hno := List.any_eq_false.mp hloan k hchain
    obtain ⟨l, hl, hlm⟩ := List.mem_map.mp hmem
    exact hno ((carriesOpen_iff hc).mpr ⟨l, by rwa [h.openLines_eq hc List.not_mem_nil], hlm⟩)
  rw [hnolive, hnoopen]

theorem titleChecks_present (h : titleChecks s p m = none) : ∃ x, Table.get s.records.titles m = some x := by
  by_contra hno
  have hnone : Table.get s.records.titles m = none := Option.eq_none_iff_forall_ne_some.mpr fun x hx => hno ⟨x, hx⟩
  simp only [titleChecks, hnone] at h
  split_ifs at h

theorem titleChecks_unclaimed {x : Title} (hx : Table.get s.records.titles m = some x) (h : titleChecks s p m = none) :
    liveRequest s p m = none ∧ onLoan s p m = false := by
  have hrange : ¬(m = 0 ∨ s.management.geometry.t < m) := fun hr => by
    rw [titleChecks_outside hr] at h
    cases h
  rw [titleChecks_eq hrange hx] at h
  split_ifs at h with _ _ _ _ _ hlive hloan
  exact ⟨Option.not_isSome_iff_eq_none.mp hlive, Bool.eq_false_iff.mpr hloan⟩

theorem orderChecks_unclaimed (h : orderChecks s n m = none) : ∃ p x, Table.get s.records.patrons n = some p ∧
    Table.get s.records.titles m = some x ∧ liveRequest s p m = none ∧ onLoan s p m = false := by
  unfold orderChecks at h
  split at h
  next => cases h
  split at h
  next => cases h
  next p hp =>
    split_ifs at h
    obtain ⟨x, hx⟩ := titleChecks_present h
    obtain ⟨hlive, hloan⟩ := titleChecks_unclaimed hx h
    exact ⟨p, x, hp, hx, hlive, hloan⟩

/-- ORDER in SERVICE (R26, R30). -/
theorem Good.placeOrder (h : Good C {} s) (hservice : s.management.mode = .service) (n m : Nat) :
    Good C {} (placeOrder n m s).state := by
  unfold Machine.placeOrder
  split
  next => exact (Calm.freeIx _ s).good h
  next hchecks =>
    split
    next => exact (Calm.freeIx _ s).good h
    next =>
      split
      next => exact (Calm.freeIx _ s).good h
      next r hr =>
        obtain ⟨p, x, hp, hx, hlive, hloan⟩ := orderChecks_unclaimed hchecks
        have hadded := h.addRequest (q := { patron := n, title := m, day := s.days.today }) hp hx hr
          (h.claimless hp hlive hloan) hservice
        have htried := hadded.attempt r
        unfold acceptOrder
        split
        all_goals
          next hmade =>
            rw [hmade] at htried
            exact htried

end Placed

end Sys2Proof.Machine
end

