-- ==== Sys2Proof/Proofs/CirculatingDispatch.lean ====
section
/-! PROOFS. Dispatch keeps the laws of circulation: consignments that become READY, releases and postings (R69, R105 to R113). -/

namespace Sys2Proof.Machine

open Function (update)

section Dispatch

variable {C : Prop} {L E ks : List Nat} {a : Nat} {M : Amid} {s t : State} {k : Nat} {c : Consignment}

/-! ## Consignment records changed beside the circulation -/

/-- The view does not show the change of a consignment record. -/
def ConsKept (f : Consignment → Consignment) : Prop := ∀ c : Consignment,
  (f c).state = c.state ∧ (f c).kind = c.kind ∧ (f c).patron = c.patron ∧ (f c).cartridgeClass = c.cartridgeClass ∧
    (f c).head = c.head ∧ (f c).parts = c.parts ∧ (f c).lines = c.lines ∧ (f c).overdue = c.overdue ∧
    (f c).returned = c.returned ∧ (f c).headReturned = c.headReturned ∧ (f c).job = c.job

theorem view_modCons_kept {f : Consignment → Consignment} (hf : ConsKept f) : view M (modCons k f s) = view M s := by
  have hcarrier (c : Consignment) : carrierOf (f c) = carrierOf c := by
    obtain ⟨-, -, hpatron, -, -, -, hlines, -⟩ := hf c
    rw [carrierOf, carrierOf, hpatron, hlines]
  unfold ConsKept at hf
  simp [view, hf, reads_modify_same hcarrier]

theorem Good.modCons (h : Good C M s) {f : Consignment → Consignment} (hf : ConsKept f) (k : Nat) : Good C M (modCons k f s) :=
  h.record ((OrderChange.modCons k f s).work.tables) (view_modCons_kept hf) h.lawful h.counted rfl fun i hi => by
    rw [modCons_cons, Table.get_modify]
    split_ifs
    · rw [Option.isSome_map]
      exact h.shown hi
    · exact h.shown hi

theorem Good.writeSerials (h : Good C M s) (ks : List Nat) (serial : U32) : Good C M (writeSerials ks serial s) :=
  Good.foldl (fun _ k h => h.modCons (f := fun c => { c with serial := some serial }) (fun _ => ⟨rfl, rfl, rfl, rfl, rfl, rfl, rfl, rfl, rfl, rfl, rfl⟩) k) ks h

/-! ## Releases (R108) -/

/-- A READY or RELEASING consignment moves on; the ready queue and the releases follow. -/
theorem Good.restage {st : ConsState} {ready released : List Nat} (h : Good C M s) (hM : M.cons = [])
    (hc : Table.get s.assembly.cons k = some c) (hready : c.state = .ready ∨ c.state = .releasing) (hst : Dispatched (some st))
    (hform : TablesCanonical s → TablesCanonical t)
    (hview : view M t = (view M s).restage (update (view M s).stage k (some st)) ready released)
    (hqueue : ready.Nodup ∧ ∀ i, i ∈ ready ↔ if i = k then st = .ready ∨ st = .releasing else i ∈ s.dispatch.ready)
    (hreleases : released.Nodup ∧ ∀ i, i ∈ released ↔
      if i = k then st = .releasing else i ∈ s.dispatch.outstanding.map Release.consignment)
    (haccount : accountAt t = accountAt s) (hsched : t.scheduler = s.scheduler) : Good C M t := by
  have hshown (i : Nat) : i ∉ M.cons := hM ▸ List.not_mem_nil
  have hstage := view_stage hc (hshown k)
  have hmoves : ∀ i, update (view M s).stage k (some st) i = (view M s).stage i ∨
      (((view M s).stage i = some .ready ∨ (view M s).stage i = some .releasing) ∧
        Dispatched (update (view M s).stage k (some st) i)) := fun i => by
    by_cases hi : i = k
    · subst hi
      rw [Function.update_self, hstage]
      exact .inr ⟨hready.imp (congrArg some) (congrArg some), hst⟩
    · exact .inl (Function.update_of_ne hi _ _)
  refine h.record hform hview (h.lawful.restage hmoves ⟨hqueue.1, fun i => ?_⟩ ⟨hreleases.1, fun i => ?_⟩)
    (fun hC => haccount ▸ (h.counted hC).restage hmoves) hsched fun i hi => absurd hi (hshown i)
  · rw [hqueue.2 i]
    by_cases hi : i = k
    · subst hi
      simp
    · rw [if_neg hi, Function.update_of_ne hi]
      exact h.lawful.readyQueue.2 i
  · rw [hreleases.2 i]
    by_cases hi : i = k
    · subst hi
      simp
    · rw [if_neg hi, Function.update_of_ne hi]
      exact h.lawful.releases.2 i

theorem Good.ready_mem (h : Good C M s) (hc : Table.get s.assembly.cons k = some c) (hk : k ∉ M.cons) :
    k ∈ s.dispatch.ready ↔ c.state = .ready ∨ c.state = .releasing := by
  have hmem : k ∈ s.dispatch.ready ↔ _ := h.lawful.readyQueue.2 k
  rw [hmem, view_stage hc hk]
  simp

theorem Good.released_mem (h : Good C M s) (hc : Table.get s.assembly.cons k = some c) (hk : k ∉ M.cons) :
    k ∈ s.dispatch.outstanding.map Release.consignment ↔ c.state = .releasing := by
  have hmem : k ∈ s.dispatch.outstanding.map Release.consignment ↔ _ := h.lawful.releases.2 k
  rw [hmem, view_stage hc hk]
  simp

/-- One release (R108). -/
theorem Good.releaseOne (h : Good C M s) (hM : M.cons = []) (hc : Table.get s.assembly.cons k = some c) (hready : c.state = .ready) :
    Good C M (releaseOne k c s) := by
  have hk : k ∉ M.cons := hM ▸ List.not_mem_nil
  have hqueue := h.lawful.readyQueue.1
  have hreleases := h.lawful.releases.1
  have hnot : k ∉ s.dispatch.outstanding.map Release.consignment := fun hmem => by
    rw [(h.released_mem hc hk).mp hmem] at hready
    cases hready
  refine h.restage (st := .releasing) (ready := s.dispatch.ready) (released := s.dispatch.outstanding.map Release.consignment ++ [k])
    hM hc (.inl hready) (.inr (.inl rfl)) (fun hf => (OrderChange.modCons k (fun x => { x with state := .releasing }) s).work.tables hf) ?_ ⟨hqueue, fun i => ?_⟩ ⟨?_, fun i => ?_⟩ rfl rfl
  · simp [view, Machine.releaseOne, toFloor, Circ.restage]
    exact readsBut_modify_some hc hk
  · split_ifs with hi
    · subst hi
      simp [(h.ready_mem hc hk).mpr (.inl hready)]
    · rfl
  · exact List.nodup_append.mpr ⟨hreleases, List.nodup_singleton k, fun x hx y hy e =>
      hnot (List.mem_singleton.mp hy ▸ e ▸ hx)⟩
  · split_ifs with hi
    · simp [hi]
    · simp [hi]

theorem Good.releaseUpTo (h : Good C M s) (hM : M.cons = []) (n ahead : Nat) : Good C M (releaseUpTo n ahead s) := by
  induction n generalizing s with
  | zero => exact h
  | succ n ih =>
    unfold Machine.releaseUpTo
    split_ifs
    · split
      next => exact h
      next k hk =>
        split
        next => exact h
        next c hc => exact ih (h.releaseOne hM hc (releasable_ready (List.find?_some hk) hc))
    · exact h

theorem Good.passReleases (h : Good C M s) (hM : M.cons = []) : Good C M (passReleases s) := h.releaseUpTo hM _ _

/-! ## The sorter's answers (R109 to R113) -/

theorem Calm.setHalf (half : Bool) (rs : List ManifestRecord) (s : State) : Calm s (setHalf half rs s) := by
  unfold Machine.setHalf
  split_ifs <;> exact ⟨rfl, rfl, rfl, rfl, rfl, rfl, rfl, rfl, fun _ => .refl _, rfl, rfl, rfl, rfl, rfl⟩

theorem Calm.switchHalf (s : State) : Calm s (switchHalf s) := by
  rw [switchHalf_frame]
  exact ⟨rfl, rfl, rfl, rfl, rfl, rfl, rfl, rfl, fun _ => .refl _, rfl, rfl, rfl, rfl, rfl⟩

theorem dropped_releases (k : Nat) (l : List Release) : (l.filter fun r => decide (r.consignment ≠ k)).map Release.consignment =
    (l.map Release.consignment).filter fun i => decide (i ≠ k) := by
  rw [List.filter_map]
  rfl

/-- Consignment `k`, its release over, takes its place as `f` and `ready` say. -/
def releaseOver (k : Nat) (f : Consignment → Consignment) (ready : List Nat) (s : State) : State :=
  { s with
    assembly.cons := Table.modify s.assembly.cons k f
    dispatch.outstanding := s.dispatch.outstanding.filter fun r => decide (r.consignment ≠ k)
    dispatch.ready := ready }

theorem TablesCanonical.modCons (h : TablesCanonical s) (k : Nat) (f : Consignment → Consignment) :
    TablesCanonical (modCons k f s) := (OrderChange.modCons k f s).work.tables h

theorem TablesCanonical.releaseOver (h : TablesCanonical s) (k : Nat) (f : Consignment → Consignment) (ready : List Nat) :
    TablesCanonical (releaseOver k f ready s) := h.modCons k f

theorem view_releaseOver {f : Consignment → Consignment} {st : ConsState} (hc : Table.get s.assembly.cons k = some c)
    (hk : k ∉ M.cons) (hstate : (f c).state = st) (hkept : ConsKept fun x => { f x with state := x.state, overdue := x.overdue })
    (hmark : (f c).overdue = c.overdue) (ready : List Nat) :
    view M (releaseOver k f ready s) = (view M s).restage (update (view M s).stage k (some st)) ready
      ((s.dispatch.outstanding.map Release.consignment).filter fun i => decide (i ≠ k)) := by
  obtain ⟨-, h2, h3, h4, h5, h6, h7, -, h9, h10, h11⟩ := hkept c
  have hcarrier : reads (Table.modify s.assembly.cons k f) none carrierOf = reads s.assembly.cons none carrierOf :=
    reads_modify_at hc (by rw [carrierOf, carrierOf, h3, h7])
  have hsame {β : Type} {d : β} {g : Consignment → β} (hg : g (f c) = g c) :
      readsBut M.cons (Table.modify s.assembly.cons k f) d g = readsBut M.cons s.assembly.cons d g := by
    rw [readsBut_modify_some hc hk, hg]
    exact Function.update_eq_self_iff.mpr (readsBut_some hk hc).symm
  simp only [view, releaseOver, Circ.restage, hcarrier, dropped_releases, readsBut_modify_some (f := fun c => some c.state) hc hk, hstate]
  rw [hsame rfl, hsame (by rw [h2, h3, h4, h5, h6]), hsame (by rw [h7]), hsame (by rw [h7]), hsame hmark, hsame h9, hsame h10, hsame h11]

/-- A release is over: its consignment is POSTED, or waits again at the head of the ready queue (R109, R111). -/
theorem Good.releaseOver {st : ConsState} {f : Consignment → Consignment} {ready : List Nat} (h : Good C M s) (hM : M.cons = [])
    (hc : Table.get s.assembly.cons k = some c) (hreleasing : c.state = .releasing) (hst : st = .ready ∨ st = .posted)
    (hstate : (f c).state = st) (hkept : ConsKept fun x => { f x with state := x.state, overdue := x.overdue })
    (hmark : (f c).overdue = false)
    (hqueue : ready.Nodup ∧ ∀ i, i ∈ ready ↔ if i = k then st = .ready else i ∈ s.dispatch.ready) :
    Good C M (releaseOver k f ready s) := by
  have hk : k ∉ M.cons := hM ▸ List.not_mem_nil
  have hmarked := h.unmarked hc hk (by rw [hreleasing]; decide)
  refine h.restage hM hc (.inr hreleasing) (hst.elim (fun e => .inl (congrArg some e)) fun e => .inr (.inr (congrArg some e)))
    (fun hf => hf.releaseOver k f ready) (view_releaseOver hc hk hstate hkept (hmark.trans hmarked.symm) ready)
    ⟨hqueue.1, fun i => ?_⟩ ⟨h.lawful.releases.1.filter _, fun i => ?_⟩ rfl rfl
  · rw [hqueue.2 i]
    rcases hst with rfl | rfl <;> simp
  · by_cases hi : i = k
    · rcases hst with rfl | rfl <;> simp [hi]
    · simp [hi]

/-- CHUTED posts a consignment (R109). -/
theorem Good.postConsignment (h : Good C M s) (hM : M.cons = []) (hc : Table.get s.assembly.cons k = some c)
    (hst : c.state = .releasing) (r : Release) : Good C M (postConsignment k c r s) := by
  have hset := Calm.setHalf s.dispatch.filling (halfAt s s.dispatch.filling ++ [manifestRecordOf s k c r]) s
  unfold Machine.postConsignment
  refine (Calm.switchHalf _).good ?_
  dsimp only
  generalize setHalf s.dispatch.filling (halfAt s s.dispatch.filling ++ [manifestRecordOf s k c r]) s = u at hset ⊢
  have hu := hset.good h
  have hqueue : u.dispatch.ready.Nodup := hu.lawful.readyQueue.1
  refine hu.releaseOver hM (hset.cons ▸ hc) hst (.inr rfl) rfl
    (fun _ => ⟨rfl, rfl, rfl, rfl, rfl, rfl, rfl, rfl, rfl, rfl, rfl⟩) rfl ⟨hqueue.erase k, fun i => ?_⟩
  have hiff := hqueue.mem_erase_iff (a := i) (b := k)
  by_cases hi : i = k
  · rw [if_pos hi]
    exact iff_of_false (fun hmem => (hiff.mp hmem).1 hi) (by decide)
  · rw [if_neg hi]
    exact hiff.trans (and_iff_right hi)

theorem Calm.blocked (b : U32) (s : State) : Calm s { s with dispatch.blocked := b } :=
  ⟨rfl, rfl, rfl, rfl, rfl, rfl, rfl, rfl, fun _ => .refl _, rfl, rfl, rfl, rfl, rfl⟩

theorem releaseOf_releasing {r : Release} (h : releaseOf s k = some (c, r)) :
    Table.get s.assembly.cons k = some c ∧ c.state = .releasing := by
  unfold releaseOf at h
  split at h
  next x y hx hy =>
    split_ifs at h with hst
    cases h
    exact ⟨hx, hst⟩
  next => cases h

/-- CHUTED (R109, R113). -/
theorem Good.takeChuted (h : Good C M s) (hM : M.cons = []) (k : Nat) : Good C M (takeChuted k s) := by
  unfold Machine.takeChuted
  split
  next => exact h
  next c r hr =>
    obtain ⟨hc, hst⟩ := releaseOf_releasing hr
    exact (h.postConsignment hM hc hst r).passReleases hM

/-- CHUTE_FULL (R111, R113). -/
theorem Good.takeChuteFull (h : Good C M s) (hM : M.cons = []) (k chute : Nat) : Good C M (takeChuteFull k chute s) := by
  unfold Machine.takeChuteFull
  split
  next => exact h
  next c r hr =>
    obtain ⟨hc, hst⟩ := releaseOf_releasing hr
    have hqueue : s.dispatch.ready.Nodup := h.lawful.readyQueue.1
    have hmark := h.unmarked hc (hM ▸ List.not_mem_nil) (by rw [hst]; decide)
    refine Good.passReleases ((Calm.blocked _ _).good ?_) hM
    refine h.releaseOver (f := fun x => { x with state := .ready }) hM hc hst (.inl rfl) rfl
      (fun _ => ⟨rfl, rfl, rfl, rfl, rfl, rfl, rfl, rfl, rfl, rfl, rfl⟩)
      hmark
      ⟨List.nodup_cons.mpr ⟨hqueue.not_mem_erase, hqueue.erase k⟩, fun i => ?_⟩
    by_cases hi : i = k
    · simp [hi]
    · rw [if_neg hi, List.mem_cons, List.mem_erase_of_ne hi]
      exact or_iff_right hi

/-- CHUTE_CLEAR (R112, R113). -/
theorem Good.takeChuteClear (h : Good C M s) (hM : M.cons = []) (chute : Nat) : Good C M (takeChuteClear chute s) := by
  unfold Machine.takeChuteClear
  split_ifs
  · exact Good.passReleases ((Calm.blocked _ s).good h) hM
  · exact h

/-- A consignment whose release is cancelled. -/
def Consignment.recalled (c : Consignment) : Consignment := if c.state = .releasing then { c with state := .ready } else c

theorem cancelReleases_cons (s : State) (k : Nat) :
    Table.get (cancelReleases s).assembly.cons k = (Table.get s.assembly.cons k).map Consignment.recalled := by
  refine (Table.get_map (fun e => ?_) k).trans (congrArg (fun g => Option.map g (Table.get s.assembly.cons k)) (funext fun c => ?_))
  · split_ifs <;> rfl
  · unfold Consignment.recalled
    dsimp only
    split_ifs <;> rfl

theorem view_cancelReleases (M : Amid) (s : State) : view M (cancelReleases s) = (view M s).restage
    (fun k => ((view M s).stage k).map fun st => if st = .releasing then .ready else st) (view M s).ready [] := by
  have hget := cancelReleases_cons s
  have hkept {β : Type} (d : β) (f : Consignment → β) (hf : ∀ c st, f { c with state := st } = f c) :
      readsBut M.cons (cancelReleases s).assembly.cons d f = readsBut M.cons s.assembly.cons d f :=
    readsBut_congr fun i _ => congrFun (reads_map hget fun _ c => by
      unfold Consignment.recalled
      split_ifs
      · exact hf c _
      · rfl) i
  have hcarrier : reads (cancelReleases s).assembly.cons none carrierOf = reads s.assembly.cons none carrierOf :=
    reads_map hget fun _ c => by
      unfold Consignment.recalled
      split_ifs <;> rfl
  have hstage : readsBut M.cons (cancelReleases s).assembly.cons none (fun c => some c.state) = fun k =>
      ((view M s).stage k).map fun st => if st = .releasing then .ready else st := by
    funext k
    by_cases hk : k ∈ M.cons
    · simp [view, readsBut, hk]
    · simp only [view, readsBut, hk, if_false, reads, hget]
      rcases Table.get s.assembly.cons k with _ | c
      · rfl
      · simp only [Option.map_some, Option.getD_some, Consignment.recalled]
        split_ifs <;> rfl
  simp only [view, hcarrier, hstage, Circ.restage, hkept false (fun _ => true) fun _ _ => rfl,
    hkept ConsShape.free (fun c => (⟨c.kind, c.patron, c.cartridgeClass, c.head, c.parts⟩ : ConsShape)) fun _ _ => rfl,
    hkept [] (fun c => c.lines.map Line.title) fun _ _ => rfl,
    hkept true (fun c => c.lines.all fun l => decide (l.state = .isOpen)) fun _ _ => rfl,
    hkept false Consignment.overdue fun _ _ => rfl, hkept 0 Consignment.returned fun _ _ => rfl,
    hkept false Consignment.headReturned fun _ _ => rfl, hkept 0 Consignment.job fun _ _ => rfl]
  rfl

/-- Every release is cancelled (R119, R120). -/
theorem Good.cancelReleases (h : Good C M s) : Good C M (cancelReleases s) := by
  have hmoves : ∀ k, (((view M s).stage k).map fun st => if st = .releasing then ConsState.ready else st) = (view M s).stage k ∨
      (((view M s).stage k = some .ready ∨ (view M s).stage k = some .releasing) ∧
        Dispatched (((view M s).stage k).map fun st => if st = .releasing then ConsState.ready else st)) := fun k => by
    by_cases hk : (view M s).stage k = some .releasing
    · rw [hk]
      exact .inr ⟨.inr rfl, .inl rfl⟩
    · refine .inl ?_
      rcases hs : (view M s).stage k with _ | st
      · rfl
      · rw [hs] at hk
        rw [Option.map_some, if_neg fun e => hk (congrArg some e)]
  refine h.record ((cancelReleases_work s).tables) (view_cancelReleases M s)
    (h.lawful.restage hmoves ⟨h.lawful.readyQueue.1, fun k => ?_⟩ ⟨List.nodup_nil, fun k => ?_⟩)
    (fun hC => (h.counted hC).restage hmoves) rfl fun k hk => ?_
  · rw [h.lawful.readyQueue.2 k]
    rcases (view M s).stage k with _ | st
    · simp
    · cases st <;> simp
  · rcases (view M s).stage k with _ | st
    · simp
    · cases st <;> simp
  · rw [cancelReleases_cons, Option.isSome_map]
    exact h.shown hk

/-! ## Consignments that become READY (R62, R69, R105) -/

/-- The job that a consignment names matters to a pack that a job makes only. -/
theorem Lawful.rejob {v : Circ} (h : Lawful v) (hk : v.stage k ≠ some .duplicating) (j : Nat) :
    Lawful { v with jobOf := update v.jobOf k j } :=
  { h with
    duplicating := fun i hi => by
      have hne : i ≠ k := fun e => hk (e ▸ hi)
      simpa [Function.update_of_ne hne] using h.duplicating i hi
    packing := fun i m hm => by
      obtain ⟨h1, h2, h3⟩ := h.packing i m hm
      have hne : m ≠ k := fun e => hk (e ▸ h2)
      exact ⟨h1, h2, by simpa [Function.update_of_ne hne] using h3⟩ }

theorem view_readyQueued (hc : Table.get s.assembly.cons k = some c) (hk : k ∉ M.cons) : view M (readyQueued k s) =
    { view M s with stage := update (view M s).stage k (some .ready), ready := s.dispatch.ready ++ [k] } := by
  simp [view, readyQueued]
  exact readsBut_modify_some hc hk

/-- A copy that has been picked is READY (R69). -/
theorem Good.readyQueued (h : Good C M s) (hM : M.cons = []) (hc : Table.get s.assembly.cons k = some c)
    (hpicking : c.state = .picking) (hturn : c.kind = .braillePart → M.turning = c.head) : Good C M (readyQueued k s) := by
  have hk : k ∉ M.cons := hM ▸ List.not_mem_nil
  have hstage := view_stage hc hk
  rw [hpicking] at hstage
  have hshape := view_shape hc hk
  have hpack : (fun j => ((view M s).pack j).filter fun i => decide (i ≠ k)) = (view M s).pack := by
    funext j
    rcases hp : (view M s).pack j with _ | i
    · rfl
    · have hik : i ≠ k := fun e => by
        have hdup := (h.lawful.packing j i hp).2.1
        rw [e, hstage] at hdup
        cases hdup
      simp [Option.filter_some, hik]
  have harrive := h.lawful.arrive (k := k) (.inr ⟨hstage, by rw [hshape]; exact hturn⟩)
  have hview : view M (Machine.readyQueued k s) =
      { (view M s).arrive k with jobOf := update ((view M s).arrive k).jobOf k ((view M s).jobOf k) } := by
    rw [view_readyQueued hc hk]
    simp only [Circ.arrive, hpack, Function.update_idem, Function.update_eq_self]
    rfl
  refine h.record ((OrderChange.modCons k (fun c => { c with state := .ready }) _).work.tables) hview
    (harrive.rejob (by simp [Circ.arrive]) _) (fun hC => ?_) rfl fun i hi => absurd hi (by rw [hM]; exact List.not_mem_nil)
  have hcounted := h.counted hC
  refine ⟨fun d hd => ?_, { hcounted.classed.arrive k with }⟩
  have hconsigned := consignedOf_arrive h.lawful (k := k) (.inr hstage) d
  rw [if_neg (by rw [hstage]; simp)] at hconsigned
  obtain ⟨h1, h2, h3, h4⟩ := hcounted.agrees d hd
  exact ⟨h1, h2.trans hconsigned.symm, h3, h4⟩

theorem Good.consignmentReady (h : Good C M s) (hM : M.cons = []) (hc : Table.get s.assembly.cons k = some c)
    (hpicking : c.state = .picking) (hturn : c.kind = .braillePart → M.turning = c.head) : Good C M (consignmentReady k s) :=
  (h.readyQueued hM hc hpicking hturn).passReleases hM

/-- The parts of a set that has been picked become READY one after another. -/
theorem Good.allReady (h : Good C M s) (hM : M.cons = []) (hnd : ks.Nodup)
    (hall : ∀ i ∈ ks, ∃ x, Table.get s.assembly.cons i = some x ∧ x.state = .picking ∧ (x.kind = .braillePart → M.turning = x.head)) :
    Good C M (allReady ks s) := by
  induction ks generalizing s with
  | nil => exact h
  | cons k ks ih =>
    obtain ⟨hk, hnd⟩ := List.nodup_cons.mp hnd
    obtain ⟨x, hx, hpicking, hturn⟩ := hall k List.mem_cons_self
    refine ih (h.consignmentReady hM hx hpicking hturn) hnd fun i hi => ?_
    obtain ⟨y, hy, hyst, hyturn⟩ := hall i (List.mem_cons_of_mem k hi)
    rcases (consignmentReady_readied k s).others i (by rw [List.mem_singleton]; exact fun e => hk (e ▸ hi)) with hkept | ⟨z, hz, hready, -⟩
    · exact ⟨y, hkept.trans hy, hyst, hyturn⟩
    · rw [hy, Option.some.injEq] at hz
      rw [← hz, hyst] at hready
      cases hready

/-- A set turns from PICKING to READY. -/
theorem Good.turn (h : Good C {} s) (a : Nat) : Good C { turning := a } s where
  form := h.form
  lawful := h.lawful.turn rfl a
  counted hC := (h.counted hC).turn a
  placed := h.placed
  hides := ⟨fun _ hi => absurd hi List.not_mem_nil, fun _ hi => absurd hi List.not_mem_nil⟩

theorem Good.turned (h : Good C { turning := a } s)
    (hall : ∀ i x, Table.get s.assembly.cons i = some x → x.kind = .braillePart → x.head = a → x.state ≠ .picking) : Good C {} s where
  form := h.form
  lawful := h.lawful.turned fun i hi hst => by
    obtain ⟨-, x, hx, hpicking⟩ := view_stage_iff.mp hst
    obtain ⟨-, hkind, hhead⟩ := hi
    rw [view_shape hx List.not_mem_nil] at hkind hhead
    exact hall i x hx hkind hhead hpicking
  counted hC := (h.counted hC).turn 0
  placed := h.placed
  hides := ⟨fun _ hi => absurd hi List.not_mem_nil, fun _ hi => absurd hi List.not_mem_nil⟩

/-- The records of a PICKING consignment are PICKING together. -/
theorem Good.picking_whole (h : Good C {} s) (hc : Table.get s.assembly.cons k = some c) (hpicking : c.state = .picking)
    (hlines : c.lines ≠ []) {i : Nat} (hi : i ∈ wholeConsignment s k c) :
    ∃ x, Table.get s.assembly.cons i = some x ∧ x.state = .picking ∧ x.kind = c.kind ∧ (x.kind = .braillePart → x.head = k) := by
  by_cases hkind : c.kind = .braillePart
  · obtain ⟨-, hleaves⟩ := h.picking_leaves hc hpicking hlines
    have hpart := (hleaves.set (by rw [view_shape hc List.not_mem_nil]; exact hkind) i).mp hi
    obtain ⟨x, hx⟩ := Option.isSome_iff_exists.mp (view_present_iff.mp hpart.1).2
    obtain ⟨hxkind, hxhead⟩ := (view_isPart hx List.not_mem_nil).mp hpart
    have htogether := h.lawful.together i hpart.1 hpart.2.1 (by rw [hpart.2.2]; exact (h.ne_zero hc).symm)
    rw [hpart.2.2, view_stage hc List.not_mem_nil, view_stage hx List.not_mem_nil, hpicking] at htogether
    exact ⟨x, hx, Option.some.inj (htogether.mp rfl), hxkind.trans hkind.symm, fun _ => hxhead⟩
  · rw [wholeConsignment, if_neg hkind] at hi
    obtain rfl := List.mem_singleton.mp hi
    exact ⟨c, hc, hpicking, rfl, fun hb => absurd hb hkind⟩

/-- PICKED (R69). -/
theorem Good.takePicked (h : Good C {} s) (k : Nat) (serial : U32) : Good C {} (takePicked k serial s) := by
  unfold Machine.takePicked
  split
  next => exact h
  next c l hpick =>
    obtain ⟨hc, hpicking, rest, hlines⟩ := pickingOf_some hpick
    have hwhole {i : Nat} := h.picking_whole hc hpicking (by rw [hlines]; exact List.cons_ne_nil _ _) (i := i)
    have hnd := wholeConsignment_nodup (k := k) (c := c) h.consWf
    have hwritten := ((Calm.endPick k s).good h).writeSerials (wholeConsignment s k c) serial
    have hcons (i : Nat) := writeSerials_cons (wholeConsignment s k c) serial (endPick k s) i
    rw [(Calm.endPick k s).cons] at hcons
    generalize Machine.writeSerials (wholeConsignment s k c) serial (endPick k s) = u at hwritten hcons ⊢
    have hall : ∀ i ∈ wholeConsignment s k c, ∃ x, Table.get u.assembly.cons i = some x ∧ x.state = .picking ∧ x.kind = c.kind ∧
        (x.kind = .braillePart → x.head = k) := fun i hi => by
      obtain ⟨x, hx, hst, hkind, hhead⟩ := hwhole hi
      exact ⟨{ x with serial := some serial }, by rw [hcons, if_pos hi, hx]; rfl, hst, hkind, hhead⟩
    by_cases hkind : c.kind = .braillePart
    · refine ((hwritten.turn k).allReady rfl hnd fun i hi => ?_).turned fun i x hx hxkind hxhead hxst => ?_
      · obtain ⟨x, hx, hst, -, hhead⟩ := hall i hi
        exact ⟨x, hx, hst, fun hb => (hhead hb).symm⟩
      · have hreadied := allReady_readied (wholeConsignment s k c) u
        by_cases hi : i ∈ wholeConsignment s k c
        · obtain ⟨y, hy, -⟩ := hall i hi
          obtain ⟨st, hst, ht⟩ := hreadied.readied i y hi hy
          rw [ht, Option.some.injEq] at hx
          rw [← hx] at hxst
          rcases hst with rfl | rfl <;> cases hxst
        · rcases hreadied.others i hi with hkept | ⟨y, -, -, ht⟩
          · rw [hkept, hcons, if_neg hi] at hx
            exact hi (by rw [wholeConsignment, if_pos hkind]; exact (Machine.mem_setParts h.consWf).mpr ⟨x, hx, hxkind, hxhead⟩)
          · rw [ht, Option.some.injEq] at hx
            rw [← hx] at hxst
            cases hxst
    · refine hwritten.allReady rfl hnd fun i hi => ?_
      obtain ⟨x, hx, hst, hxkind, -⟩ := hall i hi
      exact ⟨x, hx, hst, fun hb => absurd (hxkind.symm.trans hb) hkind⟩

end Dispatch

end Sys2Proof.Machine
end

