-- ==== Sys2Proof/Proofs/CirculatingJobs.lean ====
section
/-! PROOFS. Jobs that move between their queues and the bays keep the laws of circulation and the counts of R148 (R73 to R75,
R80 to R82, R87, R92, R93, R99, R150). -/

namespace Sys2Proof.Machine

open Function (update)

/-! ## Jobs and accounts in the view -/

section Held

variable {C : Prop} {M : Amid} {L : List Nat} {s t : State} {j b : Nat} {x : Job} {f : Job → Job}

/-- A change of a job that keeps what it makes. -/
def JobKept (f : Job → Job) : Prop := ∀ x : Job,
  (f x).kind = x.kind ∧ (f x).consignment = x.consignment ∧ (f x).cartridgeClass = x.cartridgeClass

theorem view_modJob (hf : JobKept f) (hx : Table.get s.scheduler.jobs j = some x) (hj : j ∉ M.loose) :
    view M (modJob j f s) = (view M s).setHolds j (f x).holds := by
  unfold JobKept at hf
  simp [view, Circ.setHolds, hf, modJob_jobs]
  exact readsBut_modify_some hx hj

theorem view_modJob_loose (hf : JobKept f) (hj : j ∈ M.loose) : view M (modJob j f s) = view M s := by
  unfold JobKept at hf
  simp [view, hf, modJob_jobs]
  exact readsBut_modify_hidden hj

theorem view_modJob_absent (hx : Table.get s.scheduler.jobs j = none) : view M (modJob j f s) = view M s := by
  rw [modJob, Table.modify_absent hx]

theorem view_loose : view { M with loose := j :: L } s = (view { M with loose := L } s).setHolds j false := by
  simp [view, Circ.setHolds, readsBut_cons]

/-- The scheduler works beside the circulation. -/
theorem Good.scheduled {w : Circ} (h : Good C M s) (hform : TablesCanonical s → TablesCanonical t) (hview : view M t = w)
    (hlawful : Lawful w) (hcounted : C → Counted w (accountAt t)) (hplaced : Placed M.loose t)
    (hcons : t.assembly.cons = s.assembly.cons)
    (hjobs : ∀ i ∈ M.ended, (Table.get t.scheduler.jobs i).isSome = true) : Good C M t where
  form := hform h.form
  lawful := hview ▸ hlawful
  counted hC := hview ▸ hcounted hC
  placed := hplaced
  hides := ⟨fun k hk => by rw [hcons]; exact h.hides.cons k hk, hjobs⟩

/-- A blank is reserved for a job that starts (R81, R150). -/
theorem Counted.take {v : Circ} {a a' : Nat → ClassAccount} {cls : Nat} (h : Counted v a) (hl : Lawful v)
    (hj : v.jobCls j = some cls) (hholds : v.holds j = false) (hblank : 1 ≤ (a cls).blank)
    (ha : ∀ c, IsClass c → a' c = if c = cls then ClassAccount.move .blank .reserved 1 (a c) else a c) :
    Counted (v.setHolds j true) a' := by
  refine ⟨fun c hc => ?_, h.classed.setHolds j true⟩
  obtain ⟨h1, h2, h3, h4⟩ := h.agrees c hc
  have hheld := heldOf_take hl hj hholds c
  rw [ha c hc]
  by_cases hcls : c = cls
  · subst hcls
    rw [if_pos rfl] at hheld ⊢
    rw [show ClassAccount.move .blank .reserved 1 (a c) = { a c with blank := (a c).blank - 1, reserved := (a c).reserved + 1 } from
      if_pos hblank]
    exact ⟨by rw [hheld, ← h1], h2, h3, h4⟩
  · rw [if_neg hcls] at hheld ⊢
    exact ⟨h1.trans hheld.symm, h2, h3, h4⟩

/-- The reserved cartridge of a job is given up (R150). -/
theorem Counted.give {v : Circ} {a a' : Nat → ClassAccount} {cls : Nat} {dst : Place} (h : Counted v a) (hl : Lawful v)
    (hj : v.jobCls j = some cls) (hholds : v.holds j = true) (hdst : dst = .blank ∨ dst = .repair)
    (ha : ∀ c, IsClass c → a' c = if c = cls then ClassAccount.move .reserved dst 1 (a c) else a c) :
    Counted (v.setHolds j false) a' := by
  refine ⟨fun c hc => ?_, h.classed.setHolds j false⟩
  obtain ⟨h1, h2, h3, h4⟩ := h.agrees c hc
  have hheld := heldOf_give hl hj hholds c
  rw [ha c hc]
  by_cases hcls : c = cls
  · subst hcls
    rw [if_pos rfl] at hheld ⊢
    have hpos : 1 ≤ (a c).reserved := by omega
    rw [ClassAccount.move, if_pos (show 1 ≤ (a c).count .reserved from hpos)]
    rcases hdst with rfl | rfl
    · exact ⟨by change (a c).reserved - 1 = _; omega, h2, h3, h4⟩
    · exact ⟨by change (a c).reserved - 1 = _; omega, h2, h3, h4⟩
  · rw [if_neg hcls] at hheld ⊢
    exact ⟨h1.trans (by omega), h2, h3, h4⟩

end Held

/-! ## The records of the jobs -/

/-- Every job but those of `js` keeps its record; a job that comes waits in its queue. -/
def JobsKept (js : List Nat) (s t : State) : Prop := Table.wf s.scheduler.jobs → Table.wf t.scheduler.jobs ∧
  ∀ i, i ∉ js → Table.get t.scheduler.jobs i = Table.get s.scheduler.jobs i ∨
    (Table.get s.scheduler.jobs i = none ∧ ∃ x, Table.get t.scheduler.jobs i = some x ∧ x.state = .queued)

theorem queueHead_jobs (j : Nat) (s : State) : (queueHead j s).scheduler.jobs =
    Table.modify s.scheduler.jobs j fun x => { x with state := .queued, bay := 0 } := by
  cases hx : Table.get s.scheduler.jobs j with
  | none => rw [Table.modify_absent hx, queueHead, hx]
  | some x => rw [queueHead_eq hx]; rfl

theorem queueTail_jobs (j : Nat) (s : State) : (queueTail j s).scheduler.jobs =
    Table.modify s.scheduler.jobs j fun x => { x with state := .queued, bay := 0 } := by
  cases hx : Table.get s.scheduler.jobs j with
  | none => rw [Table.modify_absent hx, queueTail, hx]
  | some x => rw [queueTail_eq hx]; rfl

namespace JobsKept

variable {js ks : List Nat} {s t u : State} {j : Nat}

theorem of_jobs (h : t.scheduler.jobs = s.scheduler.jobs) : JobsKept js s t := fun hw => ⟨h ▸ hw, fun i _ => .inl (by rw [h])⟩

theorem of_scheduler (h : t.scheduler = s.scheduler) : JobsKept js s t := of_jobs (by rw [h])

theorem refl (s : State) : JobsKept js s s := of_scheduler rfl

theorem trans (h : JobsKept js s t) (g : JobsKept ks t u) : JobsKept (js ++ ks) s u := fun hw => by
  obtain ⟨ht, hjobs⟩ := h hw
  obtain ⟨hu, hjobs'⟩ := g ht
  refine ⟨hu, fun i hi => ?_⟩
  rw [List.mem_append, not_or] at hi
  rcases hjobs' i hi.2 with hkept' | ⟨hnone, hcame⟩
  · rcases hjobs i hi.1 with hkept | ⟨hnone, y, hy, hst⟩
    · exact .inl (hkept'.trans hkept)
    · exact .inr ⟨hnone, y, hkept'.trans hy, hst⟩
  · rcases hjobs i hi.1 with hkept | ⟨-, y, hy, -⟩
    · exact .inr ⟨hkept ▸ hnone, hcame⟩
    · rw [hnone] at hy
      cases hy

theorem mono (h : JobsKept js s t) (hsub : ∀ i ∈ js, i ∈ ks) : JobsKept ks s t := fun hw =>
  ⟨(h hw).1, fun i hi => (h hw).2 i fun hmem => hi (hsub i hmem)⟩

/-- A change outside the scheduler, then one within. -/
theorem after (h : t.scheduler = s.scheduler) (g : JobsKept js t u) : JobsKept js s u := (of_scheduler (js := []) h).trans g

theorem foldl {β : Type} (f : State → β → State) (hf : ∀ s b, JobsKept [] s (f s b)) (l : List β) (s : State) :
    JobsKept [] s (l.foldl f s) := by
  induction l generalizing s with
  | nil => exact refl s
  | cons b l ih => exact (hf s b).trans (ih (f s b))

theorem createPackJob (j k : Nat) (s : State) : JobsKept [j] s (createPackJob j k s) := fun hw => by
  refine ⟨(createPackJob_change j k s).work.jobs hw, fun i hi => .inl ?_⟩
  have hi : i ≠ j := fun e => hi (List.mem_singleton.mpr e)
  cases hc : Table.get s.assembly.cons k with
  | none => simp only [Machine.createPackJob, hc]
  | some c => rw [createPackJob_job hc, if_neg hi]

/-- A pack takes a FREE job record, or none. -/
theorem packSealed (k : Nat) (s : State) : JobsKept [] s (packSealed k s) := by
  unfold Machine.packSealed
  split
  next j hsealed hj =>
    intro hw
    obtain ⟨hnone, -⟩ := lowestFree_spec hw hj
    obtain ⟨hwf, hkept⟩ := createPackJob j k s hw
    refine ⟨hwf, fun i _ => ?_⟩
    by_cases hi : i = j
    · subst hi
      cases hc : Table.get s.assembly.cons k with
      | none => exact .inl (by simp only [Machine.createPackJob, hc])
      | some c => exact .inr ⟨hnone, packJob k c, by rw [createPackJob_job hc, if_pos rfl], rfl⟩
    · exact hkept i fun hmem => hi (List.mem_singleton.mp hmem)
  next => exact of_scheduler rfl

/-- A job record that is freed goes to a pack that waits, or stands FREE. -/
theorem freeJob (j : Nat) (s : State) : JobsKept [j] s (freeJob j s) := fun hw => by
  refine ⟨(freeJob_change j s).work.jobs hw, fun i hi => .inl ?_⟩
  have hi : i ≠ j := fun e => hi (List.mem_singleton.mpr e)
  cases hl : s.assembly.sealedList with
  | nil => rw [freeJob_unwaited hl]; exact Table.get_delete_other _ hi
  | cons k rest =>
    rw [freeJob_waited hl]
    cases hc : Table.get s.assembly.cons k with
    | none => simp only [Machine.createPackJob, hc]; exact Table.get_delete_other _ hi
    | some c =>
      exact (createPackJob_job (s := jobDropped j rest s) hc i).trans ((if_neg hi).trans (Table.get_delete_other _ hi))

theorem sealPack (k : Nat) (s : State) : JobsKept [] s (sealPack k s) := by
  cases hc : Table.get s.assembly.cons k with
  | none => simpa only [Machine.sealPack, hc] using refl s
  | some c =>
    by_cases ha : c.state = .assembling
    · cases hp : Table.get s.records.patrons c.patron with
      | none => simpa only [Machine.sealPack, hc, ha, if_true, hp] using refl s
      | some p =>
        rw [sealPack_eq hc ha hp]
        exact .after (t := markSealed k c.patron (sealPriorityOf p.patronClass) s) rfl (packSealed k _)
    · simpa only [Machine.sealPack, hc, if_neg ha] using refl s

theorem examineClose (n : Nat) (s : State) : JobsKept [] s (examineClose n s) := by
  cases hp : Table.get s.records.patrons n with
  | none => simpa only [Machine.examineClose, hp] using refl s
  | some p =>
    cases hc : Table.get s.assembly.cons p.openPack with
    | none => simpa only [Machine.examineClose, hp, hc] using refl s
    | some c =>
      rw [examineClose_eq hp hc]
      split_ifs
      · exact sealPack _ s
      · exact refl s

/-- The close of a patron's pack after a change outside the scheduler. -/
theorem thenClose {n : Nat} (h : t.scheduler = s.scheduler) : JobsKept [] s (Machine.examineClose n t) :=
  .after h (examineClose n t)

theorem createParts_scheduler (n i head : Nat) (plan : BraillePlan) (v w : Nat) (c : Consignment) (s : State) :
    (createParts n i head plan v w c s).scheduler = s.scheduler := by
  induction n generalizing i s with
  | zero => rfl
  | succ m ih =>
    unfold createParts
    split
    · rfl
    · exact ih _ _

theorem allocateKind (r : Nat) (q : Request) (p : Patron) (x : Title) (s : State) : JobsKept [] s (allocateKind r q p x s).2 := by
  unfold Machine.allocateKind
  split
  · unfold allocateOnDemand
    split
    · split_ifs
      · exact thenClose rfl
      · split
        · exact refl s
        · exact (sealPack _ s).trans (thenClose rfl)
    · split
      · exact refl s
      · exact thenClose rfl
  · split_ifs
    · exact refl s
    · split
      · unfold allocateShelf
        split
        · exact refl s
        · exact thenClose rfl
      · unfold allocateBraille
        simp only
        split
        · exact refl s
        · split_ifs
          · exact refl s
          · exact thenClose (createParts_scheduler _ _ _ _ _ _ _ _)

theorem attempt (r : Nat) (s : State) : JobsKept [] s (attempt r s).2 := by
  unfold Machine.attempt
  split
  · exact refl s
  · split
    · split_ifs
      · unfold noteExhausted
        split
        · exact (allocateKind _ _ _ _ s).trans (of_scheduler rfl)
        · exact allocateKind _ _ _ _ s
        · exact allocateKind _ _ _ _ s
      · exact refl s
    · exact refl s

theorem copyFreed (m : Nat) (s : State) : JobsKept [] s (copyFreed m s) := by
  unfold Machine.copyFreed
  split
  · exact refl s
  · split_ifs
    · split
      · exact refl s
      · exact attempt _ s
    · exact refl s

theorem headroom (n : Nat) (s : State) : JobsKept [] s (headroom n s) := by
  unfold Machine.headroom
  split
  · exact refl s
  · exact foldl _ (fun s r => attempt r s) _ s

theorem restoreLines_scheduler (n prev : Nat) (l : List Line) (s : State) : (restoreLines n prev l s).scheduler = s.scheduler := by
  induction l generalizing prev s with
  | nil => rfl
  | cons i rest ih =>
    unfold restoreLines
    split
    · exact ih _ _
    · exact ih _ _

/-- A failed consignment's lines are handed over. -/
theorem jobFailed (k : Nat) (s : State) : JobsKept [] s (jobFailed k s) := by
  unfold Machine.jobFailed
  split
  · exact refl s
  · exact .after ((restoreLines_scheduler _ _ _ _).trans (freeConsignment_scheduler k s)) (headroom _ _)

theorem failJob (j : Nat) (s : State) : JobsKept [j] s (failJob j s) := by
  unfold Machine.failJob
  split
  · exact refl s
  · split_ifs
    · exact .after (t := Machine.latch .jobFailed j s) rfl ((jobFailed _ _).trans (freeJob j _))
    · exact .after (t := Machine.latch .jobFailed j s) rfl (freeJob j _)

theorem modified {f : Job → Job} (h : t.scheduler.jobs = Table.modify s.scheduler.jobs j f) : JobsKept [j] s t := fun hw =>
  ⟨h ▸ Table.wf_modify _ j f hw, fun _ hi => .inl (h ▸ Table.get_modify_other _ _ fun e => hi (List.mem_singleton.mpr e))⟩

theorem queueHead (j : Nat) (s : State) : JobsKept [j] s (queueHead j s) := modified (queueHead_jobs j s)

theorem retryJob (j : Nat) (s : State) : JobsKept [j] s (retryJob j (forgetCartridge j s)) := by
  have hforget : JobsKept [j] s (forgetCartridge j s) := modified (modJob_jobs j _ s)
  refine (hforget.trans (ks := [j]) ?_).mono (by simp)
  unfold Machine.retryJob
  split
  · exact refl _
  · split_ifs
    · exact failJob j _
    · exact ((modified (modJob_jobs j _ _)).trans (queueHead j _)).mono (by simp)

end JobsKept

end Sys2Proof.Machine
end

