-- ==== Sys2Proof/Proofs/CirculatingPlacement.lean ====
section
/-! PROOFS. Placement, pre-emption and next work keep the laws of circulation and the counts of R148 (R80 to R82, R87, R92,
R93). -/

namespace Sys2Proof.Machine

open Function (update)

/-! ## Where a job stands -/

section Places

variable {L : List Nat} {s t : State} {j b : Nat} {x : Job}

/-- A job that is not QUEUED stands in no queue. -/
theorem Placed.not_queued (h : Placed L s) (hst : ∀ x, Table.get s.scheduler.jobs j = some x → x.state ≠ .queued) (l : Nat) :
    j ∉ queueAt s l := fun hmem => by
  obtain ⟨x, hx, hq, -⟩ := (h.queues l).2 j hmem
  exact hst x hx hq

/-- A place of a bay holds a job of that bay, unless it is loose. -/
theorem Placed.has (h : Placed L s) (hhas : HasJob (bayAt s b) j) (hj : j ∉ L) :
    ∃ x, Table.get s.scheduler.jobs j = some x ∧ x.state ≠ .queued ∧ x.bay = b := by
  have hat : ∀ {st}, st ≠ .queued → JobAt s j st b →
      ∃ x, Table.get s.scheduler.jobs j = some x ∧ x.state ≠ .queued ∧ x.bay = b :=
    fun hne ⟨x, hx, hst, hb⟩ => ⟨x, hx, hst ▸ hne, hb⟩
  rcases hhas with ⟨h0, rfl⟩ | hmem | ⟨h0, rfl⟩
  · exact hat (by simp) (((h.bays b).active h0).resolve_left hj)
  · exact hat (by simp) (((h.bays b).stack j hmem).resolve_left hj)
  · exact hat (by simp) (((h.bays b).preemptor h0).resolve_left hj)

/-- Another active job of the bay. -/
theorem BayPlaced.withActive {bay : Bay} (h : BayPlaced L s b bay) (hj : j ≠ 0 → j ∈ L ∨ JobAt s j .active b) (st : BayState) :
    BayPlaced L s b { bay with active := j, state := st } := ⟨hj, h.nodup, h.stack, h.preemptor⟩

/-- Another pending pre-emptor of the bay. -/
theorem BayPlaced.withPreemptor {bay : Bay} (h : BayPlaced L s b bay) (hj : j ≠ 0 → j ∈ L ∨ JobAt s j .pending b) (st : BayState) :
    BayPlaced L s b { bay with preemptor := j, state := st } := ⟨h.active, h.nodup, h.stack, hj⟩

theorem HasJob.range (h : HasJob (bayAt s b) j) : 1 ≤ b ∧ b ≤ 24 := by
  by_contra hb
  have hdefault : bayAt s b = {} := bankGet_outside _ _ _ (by omega)
  rw [hdefault] at h
  rcases h with ⟨h0, hj⟩ | hmem | ⟨h0, hj⟩
  · exact h0 hj.symm
  · cases hmem
  · exact h0 hj.symm

/-- A job that is not QUEUED and that its own bay does not hold floats. -/
theorem Placed.floats (h : Placed L s) (hx : Table.get s.scheduler.jobs j = some x) (hst : x.state ≠ .queued)
    (hno : ¬HasJob (bayAt s x.bay) j) : Floats L s j where
  queues := h.not_queued fun y hy => Option.some.inj (hx.symm.trans hy) ▸ hst
  bays b hhas := by
    by_contra hj
    obtain ⟨y, hy, -, rfl⟩ := h.has hhas hj
    obtain rfl := Option.some.inj (hx.symm.trans hy)
    exact hno hhas

/-- The bay that holds a job gives up the place; the job then floats. -/
theorem Placed.floats_modBay {g : Bay → Bay} (h : Placed L (Machine.modBay b g s)) (hx : Table.get s.scheduler.jobs j = some x)
    (hst : x.state ≠ .queued) (hb : x.bay = b) (hrange : 1 ≤ b ∧ b ≤ 24) (hno : ¬HasJob (g (bayAt s b)) j) :
    Floats L (Machine.modBay b g s) j := by
  refine h.floats (x := x) hx hst ?_
  rwa [hb, bayAt_modBay, if_pos ⟨rfl, hrange⟩]

theorem Calm.floats (hc : Calm s t) (h : Floats L s j) : Floats L t j where
  queues l := by
    rw [queueAt, hc.queues]
    exact h.queues l
  bays b hhas := by
    obtain ⟨hactive, hstack, hpre⟩ := hc.places b
    rw [HasJob, hactive, hstack, hpre] at hhas
    exact h.bays b hhas

theorem Floats.dequeue (h : Floats L s j) (i : Nat) : Floats L (dequeue i s) j := by
  cases hx : Table.get s.scheduler.jobs i with
  | none => simpa only [Machine.dequeue, hx] using h
  | some x =>
    refine ⟨fun l hmem => ?_, fun b hhas => h.bays b ?_⟩
    · rw [queueAt_dequeue hx] at hmem
      split_ifs at hmem
      · exact h.queues l (List.mem_of_mem_erase hmem)
      · exact h.queues l hmem
    · rw [dequeue_eq hx] at hhas
      exact hhas

end Places

/-! ## One operation at a time -/

/-- A job as it waits in a queue (R74). -/
def Job.inQueue (x : Job) : Job := { x with state := .queued, bay := 0 }

/-- A job as it is loaded on a bay (R81). -/
def Job.onBay (b : Nat) (x : Job) : Job := { x with state := .active, bay := b, offset := 0, serial := none }

section Moves

variable {C : Prop} {M : Amid} {s t : State} {j b : Nat} {x : Job} {f : Job → Job}

theorem view_modJob_same (hf : JobKept f)
    (hsame : ∀ x, Table.get s.scheduler.jobs j = some x → j ∈ M.loose ∨ (f x).holds = x.holds) :
    view M (modJob j f s) = view M s := by
  cases hx : Table.get s.scheduler.jobs j with
  | none => exact view_modJob_absent hx
  | some x =>
    by_cases hj : j ∈ M.loose
    · exact view_modJob_loose hf hj
    · have hheld : (view M s).holds j = x.holds := readsBut_some hj hx
      rw [view_modJob hf hx hj, (hsame x hx).resolve_left hj, ← hheld, Circ.setHolds, Function.update_eq_self]

theorem TablesCanonical.modJob (h : TablesCanonical s) (j : Nat) (f : Job → Job) : TablesCanonical (modJob j f s) :=
  (OrderChange.modJob j f s).work.tables h

theorem Hides.modJob (h : Hides M s) (j : Nat) (f : Job → Job) (i : Nat) (hi : i ∈ M.ended) :
    (Table.get (Machine.modJob j f s).scheduler.jobs i).isSome = true := by
  rw [modJob_jobs, Table.get_modify]
  split_ifs
  · rw [Option.isSome_map]
    exact h.ended i hi
  · exact h.ended i hi

theorem Good.modJob (h : Good C M s) (hf : JobKept f)
    (hsame : ∀ x, Table.get s.scheduler.jobs j = some x → j ∈ M.loose ∨ (f x).holds = x.holds)
    (hplaced : Placed M.loose (modJob j f s)) : Good C M (modJob j f s) :=
  h.scheduled (fun ht => ht.modJob j f) (view_modJob_same hf hsame) h.lawful h.counted hplaced rfl (h.hides.modJob j f)

theorem Good.modBay (h : Good C M s) {g : Bay → Bay} (hb : BayPlaced M.loose s b (g (bayAt s b))) :
    Good C M (modBay b g s) :=
  h.scheduled (fun ht => ht) rfl h.lawful h.counted (h.placed.modBay hb) rfl h.hides.ended

/-- A bay takes a job into its places and is sent a command. -/
theorem Good.commandBay (h : Good C M s) {g : Bay → Bay} (hb : BayPlaced M.loose s b (g (bayAt s b))) (fr : Frame) :
    Good C M (commandBay b fr g s) :=
  (Calm.makeCommand b fr _).good ((Calm.loadTimer b _).good (h.modBay hb))

theorem Good.dequeue (h : Good C M s) (j : Nat) : Good C M (dequeue j s) := by
  cases hx : Table.get s.scheduler.jobs j with
  | none => simpa only [Machine.dequeue, hx] using h
  | some x =>
    have hplaced := h.placed.dequeue j
    rw [dequeue_eq hx] at hplaced ⊢
    exact h.scheduled (fun ht => ht) rfl h.lawful h.counted hplaced rfl h.hides.ended

theorem Good.owePass (h : Good C M s) : Good C M (owePass s) := (Calm.owePass s).good h

/-- A job that floats and holds no cartridge becomes QUEUED (R74). -/
theorem Good.queued {g : List Nat → List Nat} (h : Good C M s) (hfloat : Floats M.loose s j)
    (hx : Table.get s.scheduler.jobs j = some x) (hholds : j ∈ M.loose ∨ x.holds = false) (hg : ∀ q, (g q).Perm (j :: q)) :
    Good C M (Machine.owePass (modQueue x.priority g (Machine.modJob j (fun x => { x with state := .queued, bay := 0 }) s))) := by
  refine Good.owePass (h.scheduled (t := modQueue x.priority g (Machine.modJob j Job.inQueue s))
    (fun ht => ht.modJob j Job.inQueue) (view_modJob_same (M := M) (s := s) (fun y => ⟨rfl, rfl, rfl⟩) fun y hy => hholds.imp_right fun hheld => ?_)
    h.lawful h.counted (h.placed.enqueue hfloat hx hg) rfl (h.hides.modJob j Job.inQueue))
  obtain rfl := Option.some.inj (hx.symm.trans hy)
  rw [hheld]
  rfl

theorem Good.queueHead (h : Good C M s) (hfloat : Floats M.loose s j)
    (hholds : ∀ x, Table.get s.scheduler.jobs j = some x → j ∈ M.loose ∨ x.holds = false) : Good C M (queueHead j s) := by
  cases hx : Table.get s.scheduler.jobs j with
  | none => simpa only [Machine.queueHead, hx] using h
  | some x =>
    rw [queueHead_eq hx]
    exact h.queued hfloat hx (hholds x hx) fun q => .refl _

theorem Good.queueTail (h : Good C M s) (hfloat : Floats M.loose s j)
    (hholds : ∀ x, Table.get s.scheduler.jobs j = some x → j ∈ M.loose ∨ x.holds = false) : Good C M (queueTail j s) := by
  cases hx : Table.get s.scheduler.jobs j with
  | none => simpa only [Machine.queueTail, hx] using h
  | some x =>
    rw [queueTail_eq hx]
    exact h.queued hfloat hx (hholds x hx) fun q => List.perm_append_singleton j q

end Moves

/-! ## Placement (R80 to R82) -/

section Placement

variable {C : Prop} {M : Amid} {s t : State} {j b : Nat} {x : Job}

/-- A job that stands in no other place is loaded on a bay, with a blank reserved for it (R81). -/
theorem Good.placeOn (h : Good C M s) (hx : Table.get s.scheduler.jobs j = some x) (hloose : j ∉ M.loose)  (hfloat : Floats M.loose (Machine.dequeue j s) j) (hholds : x.holds = false)
    (hblank : (accountAt s x.cartridgeClass).blank ≠ 0) : Good C M (placeOn b j s) := by
  rw [placeOn_eq hx]
  have hd := h.dequeue j
  have hxd : Table.get (Machine.dequeue j s).scheduler.jobs j = some x := by rw [dequeue_eq hx]; exact hx
  have hat : ∀ c, accountAt (Machine.dequeue j s) c = accountAt s c := fun c => by rw [dequeue_eq hx]; rfl
  have hview : view M (Machine.placed b j x s) = (view M (Machine.dequeue j s)).setHolds j true :=
    view_modJob (M := M) (f := Job.onBay b)
      (fun y => ⟨rfl, rfl, rfl⟩) hxd hloose
  have hplaced := hd.placed.modJob hfloat (Job.onBay b)
  have hgood : Good C M (Machine.placed b j x s) := by
    refine hd.scheduled (t := Machine.placed b j x s) (fun ht => ht.modJob j (Job.onBay b)) hview
      (hd.lawful.setHolds fun _ => by simp [view_jobCls hxd]) (fun hC => ?_)
      (hplaced.congr (fun _ => rfl) (fun _ => .refl _) fun _ => rfl) rfl (hd.hides.modJob j (Job.onBay b))
    · refine (hd.counted hC).take hd.lawful (view_jobCls hxd) ((readsBut_some hloose hxd).trans hholds) ?_ fun c hc => ?_
      · rw [hat]; omega
      · rw [Machine.placed, accountAt_modAccount_class hc]
        rfl
  have hactive : Table.get (Machine.placed b j x s).scheduler.jobs j = some (x.onBay b) := by
    show Table.get (Table.modify (Machine.dequeue j s).scheduler.jobs j (Job.onBay b)) j = _
    rw [Table.get_modify_same, hxd]
    rfl
  exact hgood.commandBay ((hgood.placed.bays b).withActive (fun _ => .inr ⟨_, hactive, rfl, rfl⟩) .loading) _

/-- A QUEUED job becomes the pending pre-emptor of a bay (R82). -/
theorem Good.preemptOn (h : Good C M s) (hx : Table.get s.scheduler.jobs j = some x) (hst : x.state = .queued) (b : Nat) :
    Good C M (preemptOn b j s) := by
  rw [preemptOn_eq]
  have hd := h.dequeue j
  have hxd : Table.get (Machine.dequeue j s).scheduler.jobs j = some x := by rw [dequeue_eq hx]; exact hx
  have hfloat := floats_dequeue h.placed hx hst
  have hgood := hd.modJob (f := fun x => { x with state := .pending, bay := b }) (fun y => ⟨rfl, rfl, rfl⟩)
    (fun y hy => .inr (by
      obtain rfl := Option.some.inj (hxd.symm.trans hy)
      simp [Job.holds, hst])) (hd.placed.modJob hfloat _)
  refine hgood.commandBay ((hgood.placed.bays b).withPreemptor (fun _ => .inr ⟨{ x with state := .pending, bay := b }, ?_, rfl, rfl⟩) .parking) _
  rw [modJob_jobs, Table.get_modify_same, hxd]
  rfl

/-- A QUEUED job's try in a placement pass (R80). -/
theorem Good.tryPlace (h : Good C {} s) (hx : Table.get s.scheduler.jobs j = some x) (hst : x.state = .queued) :
    Good C {} (tryPlace s j) := by
  unfold Machine.tryPlace
  simp only [hx]
  split_ifs with hblank
  · exact h.latch _ _
  · split
    next b _ => exact h.placeOn hx List.not_mem_nil (floats_dequeue h.placed hx hst) (by simp [Job.holds, hst]) hblank
    next =>
      split
      next b _ => exact h.preemptOn hx hst b
      next => exact h

theorem tryPlace_others {i : Nat} (hi : i ≠ j) :
    Table.get (tryPlace s j).scheduler.jobs i = Table.get s.scheduler.jobs i := by
  cases hx : Table.get s.scheduler.jobs j with
  | none => simp only [tryPlace, hx]
  | some x =>
    unfold tryPlace
    simp only [hx]
    split_ifs
    · rfl
    · split
      · rw [placeOn_jobs hx, Table.get_modify_other _ _ hi]
      · split
        · rw [preemptOn_jobs hx, Table.get_modify_other _ _ hi]
        · rfl

/-- Jobs that wait are tried one after another. -/
theorem Good.tryAll (l : List Nat) (h : Good C {} s) (hnd : l.Nodup)
    (hq : ∀ i ∈ l, ∃ x, Table.get s.scheduler.jobs i = some x ∧ x.state = .queued) : Good C {} (l.foldl Machine.tryPlace s) := by
  induction l generalizing s with
  | nil => exact h
  | cons i l ih =>
    obtain ⟨hi, hnd⟩ := List.nodup_cons.mp hnd
    obtain ⟨x, hx, hst⟩ := hq i List.mem_cons_self
    refine ih (h.tryPlace hx hst) hnd fun o ho => ?_
    rw [tryPlace_others fun e : o = i => hi (e ▸ ho)]
    exact hq o (List.mem_cons_of_mem i ho)

theorem mem_placementOrder {L : List Nat} (h : Placed L s) (hj : j ∈ placementOrder s) :
    ∃ x, Table.get s.scheduler.jobs j = some x ∧ x.state = .queued := by
  have hat : ∃ l, j ∈ queueAt s l := by
    simp only [placementOrder, List.mem_append] at hj
    rcases hj with ((hj | hj) | hj) | hj <;> exact ⟨_, hj⟩
  obtain ⟨l, hl⟩ := hat
  obtain ⟨x, hx, hst, -⟩ := (h.queues l).2 j hl
  exact ⟨x, hx, hst⟩

/-- A job waits on one level only (R74). -/
theorem Placed.level_unique {L : List Nat} (h : Placed L s) {l m : Nat} (hl : j ∈ queueAt s l) (hm : j ∈ queueAt s m) : l = m := by
  obtain ⟨x, hx, -, rfl⟩ := (h.queues l).2 j hl
  obtain ⟨y, hy, -, rfl⟩ := (h.queues m).2 j hm
  rw [Option.some.inj (hx.symm.trans hy)]

theorem placementOrder_nodup {L : List Nat} (h : Placed L s) : (placementOrder s).Nodup := by
  have hne : ∀ {l m}, l ≠ m → List.Disjoint (queueAt s l) (queueAt s m) := fun hlm i hl hm => hlm (h.level_unique hl hm)
  refine ((((h.queues 3).1.append (h.queues 2).1 (hne (by decide))).append (h.queues 1).1 ?_).append (h.queues 0).1 ?_)
  · rw [List.disjoint_append_left]
    exact ⟨hne (by decide), hne (by decide)⟩
  · rw [List.disjoint_append_left, List.disjoint_append_left]
    exact ⟨⟨hne (by decide), hne (by decide)⟩, hne (by decide)⟩

/-- A placement pass (R80). -/
theorem Good.settle (h : Good C {} s) : Good C {} (settle s) := by
  unfold Machine.settle
  split_ifs
  · exact (Calm.passDue false _).good
      (h.tryAll (placementOrder s) (placementOrder_nodup h.placed) fun i hi => mem_placementOrder h.placed hi)
  · exact h

end Placement

/-! ## Next work (R87, R92, R93) -/

section Work

variable {C : Prop} {M : Amid} {s t : State} {j b n : Nat} {x : Job}

/-- The choice latches notices and chooses a job that waits and has a blank. -/
theorem chooseWork_spec (l : List Nat) (s : State) : Calm s (chooseWork b n l s).2 ∧
    ∀ j, (chooseWork b n l s).1 = some j → j ∈ l ∧ ∃ x, Table.get s.scheduler.jobs j = some x ∧
      (accountAt s x.cartridgeClass).blank ≠ 0 := by
  induction l generalizing s with
  | nil => exact ⟨.refl s, fun j hj => by simp [chooseWork] at hj⟩
  | cons i l ih =>
    unfold chooseWork
    cases hx : Table.get s.scheduler.jobs i with
    | none => exact ⟨(ih s).1, fun j hj => ((ih s).2 j hj).imp_left (List.mem_cons_of_mem i)⟩
    | some x =>
      simp only
      split_ifs with hfit hblank
      · obtain ⟨hcalm, hchosen⟩ := ih (latch .blankShort x.cartridgeClass s)
        exact ⟨(Calm.latch _ _ s).trans hcalm, fun j hj => (hchosen j hj).imp_left (List.mem_cons_of_mem i)⟩
      · refine ⟨.refl s, fun j hj => ?_⟩
        obtain rfl := Option.some.inj hj
        exact ⟨List.mem_cons_self, x, hx, hblank⟩
      · exact ⟨(ih s).1, fun j hj => ((ih s).2 j hj).imp_left (List.mem_cons_of_mem i)⟩

/-- The place that a bay has for a job tells its state. -/
theorem BayPlaced.state_of {bay : Bay} (h : BayPlaced [] s b bay) (hx : Table.get s.scheduler.jobs j = some x) :
    (j ≠ 0 ∧ bay.active = j → x.state = .active) ∧ (j ∈ bay.stack → x.state = .parked) ∧
      (j ≠ 0 ∧ bay.preemptor = j → x.state = .pending) := by
  have hstate : ∀ {st}, (j ∈ [] ∨ JobAt s j st b) → x.state = st := by
    rintro st (hmem | ⟨y, hy, hst, -⟩)
    · cases hmem
    · rwa [Option.some.inj (hx.symm.trans hy)]
  refine ⟨?_, fun hmem => hstate (h.stack j hmem), ?_⟩
  · rintro ⟨h0, rfl⟩
    exact hstate (h.active h0)
  · rintro ⟨h0, rfl⟩
    exact hstate (h.preemptor h0)

/-- A parked job at the top of the stack becomes the active job again (R93). -/
theorem Good.resumeOn (h : Good C {} s) {rest : List Nat} (hstack : (bayAt s b).stack = j :: rest) : Good C {} (resumeOn b j s) := by
  have hmem : j ∈ (bayAt s b).stack := hstack ▸ List.mem_cons_self
  have hbay := h.placed.bays b
  have hrange : 1 ≤ b ∧ b ≤ 24 := HasJob.range (.inr (.inl hmem))
  obtain ⟨x, hx, hst, hb⟩ := (hbay.stack j hmem).resolve_left List.not_mem_nil
  have hpopped : Good C {} (Machine.modBay b (fun y => { y with stack := y.stack.drop 1 }) s) :=
    h.modBay ⟨hbay.active, hbay.nodup.sublist (List.drop_sublist 1 _), fun i hi => hbay.stack i (List.mem_of_mem_drop hi),
      hbay.preemptor⟩
  obtain ⟨hna, -, hnp⟩ := hbay.state_of hx
  have hfloat := hpopped.placed.floats_modBay hx (by simp [hst]) hb hrange (by
    rintro (hj | hj | hj)
    · simpa [hst] using hna hj
    · exact (List.nodup_cons.mp (hstack ▸ hbay.nodup)).1 (by simpa [hstack] using hj)
    · simpa [hst] using hnp hj)
  have hagain := hpopped.modJob (j := j) (f := fun y => { y with state := .active }) (fun y => ⟨rfl, rfl, rfl⟩)
    (fun y hy => .inr (by
      obtain rfl := Option.some.inj (hx.symm.trans hy)
      simp [Job.holds, hst])) (hpopped.placed.modJob hfloat _)
  have hactive : JobAt (Machine.modJob j (fun y => { y with state := .active })
      (Machine.modBay b (fun y => { y with stack := y.stack.drop 1 }) s)) j .active b := by
    refine ⟨{ x with state := .active }, ?_, rfl, hb⟩
    rw [modJob_jobs, Table.get_modify_same]
    exact congrArg _ hx
  have heq : Machine.resumeOn b j s = Machine.commandBay b (resumeFrame (bayAt s b).address j x.offset)
      (fun bay => { bay with active := j, state := .loading }) (Machine.modJob j (fun y => { y with state := .active })
        (Machine.modBay b (fun y => { y with stack := y.stack.drop 1 }) s)) := by
    rw [resumeOn_eq hx, Machine.commandBay, Machine.commandBay]
    exact congrArg (fun w => makeCommand b _ (loadTimer b w)) (modBay_modBay b (fun y => { y with stack := y.stack.drop 1 })
      (fun bay => { bay with active := j, state := .loading }) (Machine.modJob j (fun y => { y with state := .active }) s)).symm
  rw [heq]
  exact hagain.commandBay ((hagain.placed.bays b).withActive (fun _ => .inr hactive) .loading) _

/-- A bay takes next work (R92). -/
theorem Good.nextWork (h : Good C {} s) (b : Nat) : Good C {} (nextWork b s) := by
  have hplace : ∀ {n j t}, chooseWork b n (placementOrder s) s = (some j, t) → Good C {} (Machine.placeOn b j t) := by
    intro n j t hchoose
    obtain ⟨hcalm, hchosen⟩ := chooseWork_spec (b := b) (n := n) (placementOrder s) s
    rw [hchoose] at hcalm hchosen
    obtain ⟨hmem, x, hx, hblank⟩ := hchosen j rfl
    obtain ⟨y, hy, hst⟩ := mem_placementOrder h.placed hmem
    obtain rfl := Option.some.inj (hx.symm.trans hy)
    have ht := hcalm.good h
    have hxt : Table.get t.scheduler.jobs j = some x := by rw [hcalm.jobs]; exact hx
    exact ht.placeOn hxt List.not_mem_nil (floats_dequeue ht.placed hxt hst) (by simp [Job.holds, hst])
      (by rwa [hcalm.accountAt])
  have hcalm : ∀ {n t}, chooseWork b n (placementOrder s) s = (none, t) → Calm s t := fun {n t} hchoose => by
    have := (chooseWork_spec (b := b) (n := n) (placementOrder s) s).1
    rwa [hchoose] at this
  unfold Machine.nextWork
  split
  next top rest hstack =>
    split
    next j t hchoose => exact hplace hchoose
    next t hchoose =>
      have hc := hcalm hchoose
      exact (hc.good h).resumeOn (rest := rest) (by rw [(hc.places b).2.1, hstack])
  next =>
    split
    next j t hchoose => exact hplace hchoose
    next t hchoose =>
      exact (Calm.owePass _).good ((Calm.modBay (by intro; exact ⟨rfl, rfl, rfl⟩) b t).good ((hcalm hchoose).good h))

/-- Job records are numbered from 1 (R73). -/
theorem Good.job_ne_zero (h : Good C M s) (hx : Table.get s.scheduler.jobs j = some x) : j ≠ 0 := fun h0 =>
  absurd (h.lawful.jobPool j _ (view_jobCls hx)).1 (by omega)

/-- The pending pre-emptor is loaded, or waits for a blank (R87). -/
theorem Good.loadPreemptor (h : Good C {} s) (b : Nat) : Good C {} (loadPreemptor b s) := by
  have hbay := h.placed.bays b
  have hleft : Good C {} (Machine.modBay b (fun bay => { bay with preemptor := 0 }) s) :=
    h.modBay (hbay.withPreemptor (fun h0 => absurd rfl h0) _)
  unfold Machine.loadPreemptor
  simp only
  cases hx : Table.get s.scheduler.jobs (bayAt s b).preemptor with
  | none => exact hleft.nextWork b
  | some x =>
    have h0 := h.job_ne_zero hx
    have hrange : 1 ≤ b ∧ b ≤ 24 := HasJob.range (j := (bayAt s b).preemptor) (.inr (.inr ⟨h0, rfl⟩))
    obtain ⟨y, hy, hst, hb⟩ := (hbay.preemptor h0).resolve_left List.not_mem_nil
    obtain rfl := Option.some.inj (hx.symm.trans hy)
    obtain ⟨hna, hns, -⟩ := hbay.state_of hx
    have hfloat := hleft.placed.floats_modBay hx (by simp [hst]) hb hrange (by
      rintro (hj | hj | hj)
      · simpa [hst] using hna hj
      · simpa [hst] using hns hj
      · exact h0 hj.2.symm)
    have hholds : x.holds = false := by simp [Job.holds, hst]
    simp only
    split_ifs with hblank
    · refine (Good.queueHead (hleft.latch _ _) ((Calm.latch _ _ _).floats hfloat) fun z hz => .inr ?_).nextWork b
      obtain rfl := Option.some.inj (hx.symm.trans hz)
      exact hholds
    · exact hleft.placeOn hx List.not_mem_nil (hfloat.dequeue _) hholds hblank

end Work

end Sys2Proof.Machine
end

