-- ==== Sys2Proof/Proofs/CirculatingBays.lean ====
section
/-! PROOFS. The frames of a bay and the copies it makes keep the laws of circulation and the counts of R148 (R83 to R86, R88
to R91, R98, R150). -/

namespace Sys2Proof.Machine

open Function (update)

/-! ## STARTED, PROGRESS, PARKED (R83 to R85) -/

section Frames

variable {C : Prop} {M : Amid} {s t : State} {j b : Nat} {x : Job} {f : Job → Job}

/-- A change of a job's serial, offset or marks. -/
theorem Good.modJob_kept (h : Good C M s) (hf : JobKept f) (hplace : ∀ x, (f x).place = x.place) (j : Nat) :
    Good C M (Machine.modJob j f s) :=
  h.modJob hf (fun x _ => .inr (by
    have hst : (f x).state = x.state := congrArg Prod.fst (hplace x)
    simp [Job.holds, hst])) (h.placed.modJob_kept hplace j)

theorem Good.takeStarted (h : Good C {} s) (j : Nat) (serial : U32) (b : Nat) : Good C {} (takeStarted j serial b s) := by
  have hwritten : Good C {} (Machine.modJob j (fun x => { x with serial := some serial }) s) :=
    h.modJob_kept (by intro; exact ⟨rfl, rfl, rfl⟩) (by intro; rfl) j
  unfold Machine.takeStarted
  simp only
  split_ifs
  · split
    · exact (Calm.modBay (by intro; exact ⟨rfl, rfl, rfl⟩) b _).good ((Calm.dropOwed b _).good hwritten)
    · exact hwritten
    all_goals exact h
  · exact h

theorem Good.takeProgress (h : Good C {} s) (j blocks b : Nat) : Good C {} (takeProgress j blocks b s) := by
  unfold Machine.takeProgress
  split_ifs
  · exact h.modJob_kept (by intro; exact ⟨rfl, rfl, rfl⟩) (by intro; rfl) j
  · exact h

/-- The active job of a bay, between jobs of other states in its other places. -/
theorem Good.active (h : Good C {} s) (hj : isActive s b j = true) : ∃ x, Table.get s.scheduler.jobs j = some x ∧
    x.state = .active ∧ x.bay = b ∧ j ∉ (bayAt s b).stack ∧ (j ≠ 0 → (bayAt s b).preemptor ≠ j) := by
  obtain ⟨h0, hactive⟩ := isActive_iff.mp hj
  obtain ⟨x, hx, hst, hb⟩ := hactive ▸ ((h.placed.bays b).active (hactive ▸ h0)).resolve_left List.not_mem_nil
  obtain ⟨-, hns, hnp⟩ := (h.placed.bays b).state_of hx
  exact ⟨x, hx, hst, hb, fun hmem => by simpa [hst] using hns hmem, fun h0 hp => by simpa [hst] using hnp ⟨h0, hp⟩⟩

/-- A parked job goes to the top of the stack (R85). -/
theorem Good.parkDone (h : Good C {} s) (hj : isActive s b j = true) (offset : Nat) : Good C {} (parkDone j offset b s) := by
  obtain ⟨x, hx, hst, hb, hstack, hpre⟩ := h.active hj
  obtain ⟨h0, hactive⟩ := isActive_iff.mp hj
  have hrange : 1 ≤ b ∧ b ≤ 24 := HasJob.range (j := j) (.inl ⟨h0, hactive⟩)
  have hleft : Good C {} (Machine.modBay b (fun bay => { bay with active := 0 }) s) :=
    h.modBay ((h.placed.bays b).withActive (fun h0 => absurd rfl h0) _)
  have hfloat := hleft.placed.floats_modBay hx (by simp [hst]) hb hrange (by
    rintro (⟨h0, hj⟩ | hj | ⟨h0, hj⟩)
    · exact h0 hj.symm
    · exact hstack hj
    · exact hpre h0 hj)
  have hparked := hleft.modJob (j := j) (f := fun x => { x with state := .parked, offset := offset })
    (fun y => ⟨rfl, rfl, rfl⟩) (fun y hy => .inr (by
      obtain rfl := Option.some.inj (hx.symm.trans hy)
      simp [Job.holds, hst])) (hleft.placed.modJob hfloat _)
  have hat : JobAt (Machine.modJob j (fun x => { x with state := .parked, offset := offset })
      (Machine.modBay b (fun bay => { bay with active := 0 }) s)) j .parked b := by
    refine ⟨{ x with state := .parked, offset := offset }, ?_, rfl, hb⟩
    rw [modJob_jobs, Table.get_modify_same]
    exact congrArg _ hx
  have heq : Machine.parkDone j offset b s =
      Machine.modBay b (fun bay => { bay with stack := j :: bay.stack, owed := bay.owed.filter fun f => !waitsForAnswer f })
        (Machine.modJob j (fun x => { x with state := .parked, offset := offset })
          (Machine.modBay b (fun bay => { bay with active := 0 }) s)) :=
    (modBay_modBay b (fun bay => { bay with active := 0 })
      (fun bay => { bay with stack := j :: bay.stack, owed := bay.owed.filter fun f => !waitsForAnswer f })
      (Machine.modJob j (fun x => { x with state := .parked, offset := offset }) s)).symm
  have hbay := hparked.placed.bays b
  have hkept : (bayAt (Machine.modJob j (fun x => { x with state := .parked, offset := offset })
      (Machine.modBay b (fun bay => { bay with active := 0 }) s)) b).stack = (bayAt s b).stack := by
    rw [bayAt_modJob, bayAt_modBay, if_pos ⟨rfl, hrange⟩]
  rw [heq]
  refine hparked.modBay ⟨hbay.active, List.nodup_cons.mpr ⟨hkept ▸ hstack, hbay.nodup⟩, fun i hi => ?_, hbay.preemptor⟩
  rcases List.mem_cons.mp hi with rfl | hi
  · exact .inr hat
  · exact hbay.stack i hi

theorem Good.takeParked (h : Good C {} s) (j offset b : Nat) : Good C {} (takeParked j offset b s) := by
  by_cases hpark : (j ≠ 0 ∧ (bayAt s b).active = j) ∧ (bayAt s b).state = .parking
  · rw [takeParked_parking hpark.1 hpark.2]
    exact (h.parkDone (isActive_iff.mpr hpark.1) offset).loadPreemptor b
  · rwa [takeParked_discarded hpark]

end Frames

/-! ## Giving a cartridge up (R150) -/

section Given

variable {C : Prop} {M : Amid} {L : List Nat} {s t : State} {j b k : Nat} {x : Job} {c : Consignment}

theorem Job.holds_iff : x.holds = true ↔ x.state = .active ∨ x.state = .parked := by simp [Job.holds]

theorem Placed.loosen_one (h : Placed L s) (j : Nat) : Placed (j :: L) s := h.loosen fun _ hi => List.mem_cons_of_mem j hi

/-- The cartridge of a job goes to the blanks or the repair bench; the job still stands in its place. -/
theorem Good.giveUp (h : Good C { M with loose := L } s) (hx : Table.get s.scheduler.jobs j = some x) (hj : j ∉ L)
    (hholds : x.holds = true) {dst : Place} (hdst : dst = .blank ∨ dst = .repair) :
    Good C { M with loose := j :: L } (moveReserved j dst s) := by
  have hview : view { M with loose := j :: L } (moveReserved j dst s) = (view { M with loose := L } s).setHolds j false := by
    rw [← view_loose]
    simp only [moveReserved, hx]
    rfl
  have hheld : (view { M with loose := L } s).holds j = true := (readsBut_some hj hx).trans hholds
  have hmoved : moveReserved j dst s = modAccount x.cartridgeClass (ClassAccount.move .reserved dst 1) s := by
    simp only [moveReserved, hx]
  rw [hmoved] at hview ⊢
  exact
    { form := h.form
      lawful := hview ▸ h.lawful.setHolds (by simp)
      counted := fun hC => hview ▸ (h.counted hC).give h.lawful (view_jobCls hx) hheld hdst fun d hd => accountAt_modAccount_class hd
      placed := (h.placed.loosen_one j).congr (fun _ => rfl) (fun _ => .refl _) fun _ => rfl
      hides := ⟨h.hides.cons, h.hides.ended⟩ }

/-- A job that holds nothing may be loose. -/
theorem Good.loosen (h : Good C { M with loose := L } s)
    (hholds : ∀ x, Table.get s.scheduler.jobs j = some x → x.holds = false) : Good C { M with loose := j :: L } s := by
  have hheld : (view { M with loose := L } s).holds j = false := by
    cases hx : Table.get s.scheduler.jobs j with
    | none => exact view_holds_none hx
    | some x =>
      by_cases hj : j ∈ L
      · simp [view, readsBut, hj]
      · exact (readsBut_some hj hx).trans (hholds x hx)
  have hview : view { M with loose := j :: L } s = view { M with loose := L } s := by
    rw [view_loose, ← hheld, Circ.setHolds, Function.update_eq_self]
  exact
    { form := h.form, lawful := hview ▸ h.lawful, counted := fun hC => hview ▸ h.counted hC, placed := h.placed.loosen_one j
      hides := ⟨h.hides.cons, h.hides.ended⟩ }

/-- Jobs that no bay has and that hold nothing are loose no more. -/
theorem Good.tighten (h : Good C { M with loose := L } s) (hplaces : ∀ b, ∀ j ∈ L, ¬HasJob (bayAt s b) j)
    (hheld : ∀ j ∈ L, ∀ x, Table.get s.scheduler.jobs j = some x → x.holds = false) : Good C { M with loose := [] } s := by
  have hview : view { M with loose := [] } s = view { M with loose := L } s := by
    have hholds : readsBut [] s.scheduler.jobs false Job.holds = readsBut L s.scheduler.jobs false Job.holds := by
      funext j
      by_cases hj : j ∈ L
      · rw [show readsBut L s.scheduler.jobs false Job.holds j = false by simp [readsBut, hj], readsBut_shown List.not_mem_nil]
        cases hx : Table.get s.scheduler.jobs j with
        | none => exact reads_none hx
        | some x => exact (reads_some hx).trans (hheld j hj x hx)
      · rw [readsBut_shown hj, readsBut_shown List.not_mem_nil]
    simp only [view, hholds]
  exact
    { form := h.form, lawful := hview ▸ h.lawful, counted := fun hC => hview ▸ h.counted hC
      placed := h.placed.tighten fun b j hhas hj => absurd hhas (hplaces b j hj)
      hides := ⟨h.hides.cons, h.hides.ended⟩ }

/-- A job without a pack may end. -/
theorem Good.ending (h : Good C { loose := L } s) (hx : Table.get s.scheduler.jobs j = some x) (hk : x.kind ≠ .pack) :
    Good C { loose := L, ended := [j] } s := by
  have hpack : (view { loose := L } s).pack j = none := (readsBut_some List.not_mem_nil hx).trans (if_neg hk)
  have hview : view { loose := L, ended := [j] } s = view { loose := L } s := by
    have hpacks : readsBut [j] s.scheduler.jobs none (fun x : Job => if x.kind = .pack then some x.consignment else none) =
        readsBut [] s.scheduler.jobs none fun x => if x.kind = .pack then some x.consignment else none := by
      rw [readsBut_cons]
      exact Function.update_eq_self_iff.mpr hpack.symm
    simp only [view, hpacks]
  refine ⟨h.form, hview ▸ h.lawful, fun hC => hview ▸ h.counted hC, h.placed, h.hides.cons, fun i hi => ?_⟩
  rw [List.mem_singleton.mp hi, hx]
  rfl

end Given

/-! ## Jobs that end or fail (R90, R91) -/

section Ends

variable {C : Prop} {M : Amid} {L : List Nat} {s t : State} {j b k : Nat} {x : Job} {c : Consignment}

/-- Job `j`, if it stands, waits in its queue. -/
def WaitsOrGone (s : State) (j : Nat) : Prop := ∀ x, Table.get s.scheduler.jobs j = some x → x.state = .queued

/-- Job `j`, if it stands, does not wait in its queue. -/
def NotWaiting (s : State) (j : Nat) : Prop := ∀ x, Table.get s.scheduler.jobs j = some x → x.state ≠ .queued

theorem freeJob_waits (j : Nat) (s : State) : WaitsOrGone (freeJob j s) j := fun x hx => by
  have hgone : Table.get (Table.delete s.scheduler.jobs j) j = none := Table.get_delete_same _ _
  cases hl : s.assembly.sealedList with
  | nil =>
    rw [freeJob_unwaited hl] at hx
    exact absurd (hgone.symm.trans hx) (by simp)
  | cons k rest =>
    rw [freeJob_waited hl] at hx
    cases hc : Table.get s.assembly.cons k with
    | none =>
      simp only [createPackJob, hc] at hx
      exact absurd (hgone.symm.trans hx) (by simp)
    | some c =>
      have := (createPackJob_job (s := jobDropped j rest s) hc j).symm.trans hx
      rw [if_pos rfl] at this
      exact Option.some.inj this ▸ rfl

theorem waits_of_jobs {f : Job → Job} (h : t.scheduler.jobs = Table.modify s.scheduler.jobs j f) (hf : ∀ x, (f x).state = .queued) :
    WaitsOrGone t j := fun x hx => by
  rw [h, Table.get_modify_same, Option.map_eq_some_iff] at hx
  obtain ⟨y, -, rfl⟩ := hx
  exact hf y

theorem queueHead_waits (j : Nat) (s : State) : WaitsOrGone (queueHead j s) j := waits_of_jobs (queueHead_jobs j s) fun _ => rfl

theorem queueTail_waits (j : Nat) (s : State) : WaitsOrGone (queueTail j s) j := waits_of_jobs (queueTail_jobs j s) fun _ => rfl

/-- A job that stands keeps its record. -/
theorem JobsKept.get (h : JobsKept [] s t) (hw : Table.wf s.scheduler.jobs) (hx : Table.get s.scheduler.jobs j = some x) :
    Table.get t.scheduler.jobs j = some x := by
  rcases (h hw).2 j List.not_mem_nil with heq | ⟨hnone, -⟩
  · rw [heq, hx]
  · rw [hx] at hnone
    cases hnone

/-- A loose job fails, and its pack with it (R63, R91). -/
theorem Good.failJob (h : Good C { loose := L } s) (hj : j ∈ L) (hwait : NotWaiting s j) : Good C { loose := L } (failJob j s) := by
  cases hx : Table.get s.scheduler.jobs j with
  | none => simpa only [Machine.failJob, hx] using h
  | some x =>
    have hl := h.latch .jobFailed j
    have hxl : Table.get (Machine.latch .jobFailed j s).scheduler.jobs j = some x := hx
    simp only [Machine.failJob, hx]
    split_ifs with hkind
    · obtain ⟨-, hdup, hjob⟩ := h.lawful.packing j x.consignment
        ((readsBut_some List.not_mem_nil hx).trans (if_pos hkind))
      obtain ⟨hk, c, hc, hst⟩ := view_stage_iff.mp hdup
      rw [view_jobOf hc hk] at hjob
      have hcl : Table.get (Machine.latch .jobFailed j s).assembly.cons x.consignment = some c := hc
      have hstaged := h.lawful.staged _ _ hdup
      rw [view_shape hc hk] at hstaged
      have hpack : c.kind = .pack := by
        cases hkind' : c.kind <;> simp [stateFitsKind, hkind'] at hstaged ⊢
      have hunmade : Unmade c := ⟨hpack, .inr hst⟩
      have hended : endedJob c = [j] := by rw [endedJob, if_pos hst, hjob]
      have howing := hl.packFreed hcl hunmade
      rw [hended, ← hl.openLines_eq hcl List.not_mem_nil] at howing
      have hfailed : Good C { loose := L, ended := [j] } (jobFailed x.consignment (Machine.latch .jobFailed j s)) := by
        rw [jobFailed_present hcl]
        refine howing.handOver ?_
        rw [(freeConsignment_change _ _).mode]
        exact hl.service hcl List.not_mem_nil
      refine hfailed.freeJob (M := { loose := L }) hj fun y hy => ?_
      obtain rfl := Option.some.inj (((JobsKept.jobFailed x.consignment _).get hl.jobsWf hxl).symm.trans hy)
      exact hwait _ hx
    · exact (hl.ending hxl hkind).freeJob (M := { loose := L }) hj hwait

theorem failJob_waits (j : Nat) (s : State) : WaitsOrGone (failJob j s) j := by
  unfold Machine.failJob
  split
  next hnone => exact fun x hx => absurd (hnone.symm.trans hx) (by simp)
  next => exact freeJob_waits j _

/-- A failed attempt of a loose job (R90, R95). -/
theorem Good.faultAttempt (h : Good C { loose := L } s) (hj : j ∈ L) (hwait : NotWaiting s j) :
    Good C { loose := L } (faultAttempt s j) := by
  cases hx : Table.get s.scheduler.jobs j with
  | none => rwa [faultAttempt_absent hx]
  | some x =>
    have hnot := hwait x hx
    cases hr : x.retry with
    | false =>
      have hmarked : Good C { loose := L } (markedRetry j s) :=
        h.modJob_kept (f := fun x => { x with offset := 0, serial := none, retry := true }) (by intro; exact ⟨rfl, rfl, rfl⟩) (by intro; rfl) j
      rw [faultAttempt_first hx hr]
      refine hmarked.queueHead (floats_loose hmarked.placed hj fun y hy => ?_) fun _ _ => .inl hj
      rw [markedRetry, modJob_jobs, Table.get_modify_same, hx] at hy
      exact Option.some.inj hy ▸ hnot
    | true =>
      have hforgot : Good C { loose := L } (forgetCartridge j s) :=
        h.modJob_kept (f := fun x => { x with offset := 0, serial := none }) (by intro; exact ⟨rfl, rfl, rfl⟩) (by intro; rfl) j
      rw [faultAttempt_second hx hr]
      refine hforgot.failJob hj fun y hy => ?_
      rw [forgetCartridge_job hx] at hy
      exact Option.some.inj hy ▸ hnot

theorem faultAttempt_waits (s : State) (j : Nat) : WaitsOrGone (faultAttempt s j) j := by
  cases hx : Table.get s.scheduler.jobs j with
  | none => exact fun x hx' => absurd (hx.symm.trans (faultAttempt_absent hx ▸ hx')) (by simp)
  | some x =>
    cases hr : x.retry with
    | false => rw [faultAttempt_first hx hr]; exact queueHead_waits j _
    | true => rw [faultAttempt_second hx hr]; exact failJob_waits j _

end Ends

/-! ## COPY_DONE (R86, R88 to R90, R98) -/

section Copies

variable {C : Prop} {M : Amid} {L : List Nat} {s t : State} {j b k : Nat} {x : Job} {c : Consignment}

/-- A cartridge that was reserved goes to a count that rises by one (R150). -/
theorem move_reserved {a : ClassAccount} {dst : Place} (h : 1 ≤ a.reserved) :
    ClassAccount.move .reserved dst 1 a =
      (a.setCount .reserved (a.reserved - 1)).setCount dst ((a.setCount .reserved (a.reserved - 1)).count dst + 1) := if_pos h

/-- A copy arrives at its pack: the cartridge of the job is consigned (R62, R88). -/
theorem Counted.arriveJob {v : Circ} {a a' : Nat → ClassAccount} {cls : Nat} (h : Counted v a) (hl : Lawful v)
    (hj : v.jobCls j = some cls) (hholds : v.holds j = true) (hpack : v.pack j = some k)
    (ha : ∀ d, IsClass d → a' d = if d = cls then ClassAccount.move .reserved .consigned 1 (a d) else a d) :
    Counted ((v.setHolds j false).arrive k) a' := by
  obtain ⟨-, hdup, -⟩ := hl.packing j k hpack
  have hcls : (v.shape k).cls = cls := Option.some.inj ((h.classed.pack j k hpack).symm.trans hj)
  refine ⟨fun d hd => ?_, (h.classed.setHolds j false).arrive k⟩
  obtain ⟨h1, h2, h3, h4⟩ := h.agrees d hd
  have hheld := heldOf_give hl hj hholds d
  have hconsigned : ((v.setHolds j false).arrive k).consignedOf d = v.consignedOf d + if d = cls then 1 else 0 := by
    have := consignedOf_arrive (v := v.setHolds j false) (hl.setHolds (by simp)) (k := k) (.inl hdup) d
    rw [this]
    exact congrArg _ (if_congr ⟨fun ⟨_, e⟩ => e.symm.trans hcls, fun e => ⟨hdup, hcls.trans e.symm⟩⟩ rfl rfl)
  rw [ha d hd]
  by_cases hd' : d = cls
  · subst hd'
    rw [if_pos rfl] at hheld hconsigned ⊢
    rw [move_reserved (by omega)]
    exact ⟨by change (a d).reserved - 1 = (v.setHolds j false).heldOf d; omega, by
      change (a d).consigned + 1 = _; omega, h3, h4⟩
  · rw [if_neg hd'] at hheld hconsigned ⊢
    exact ⟨by change (a d).reserved = (v.setHolds j false).heldOf d; omega, by omega, h3, h4⟩

/-- The circulation when a pack's copy is made. -/
theorem view_packCopied (hl : Lawful (view {} s)) (hx : Table.get s.scheduler.jobs j = some x)
    (hc : Table.get s.assembly.cons x.consignment = some c) (hpack : (view {} s).pack j = some x.consignment) (serial : U32) :
    view { ended := [j], loose := [j] } (packCopied j x serial s) = ((view {} s).setHolds j false).arrive x.consignment := by
  have hjob := (hl.packing j x.consignment hpack).2.2
  have hpacks : readsBut [j] s.scheduler.jobs none (fun x : Job => if x.kind = .pack then some x.consignment else none) =
      fun i => ((view {} s).pack i).filter fun k => decide (k ≠ x.consignment) := by
    rw [readsBut_cons]
    funext i
    by_cases hi : i = j
    · subst hi
      rw [Function.update_self, hpack, Option.filter_some, if_neg (by simp)]
    · rw [Function.update_of_ne hi]
      rcases hp : (view {} s).pack i with _ | k
      · exact hp
      · have hk : k ≠ x.consignment := fun e => hi ((hl.packing i k hp).2.2.symm.trans (e ▸ hjob))
        rw [Option.filter_some, decide_eq_true hk, if_pos rfl]
        exact hp
  rw [packCopied, moveReserved_eq hx]
  simp [view, readyQueued, Circ.arrive, Circ.setHolds, Table.modify_modify]
  refine ⟨readsBut_modify_some hc List.not_mem_nil, readsBut_modify_some hc List.not_mem_nil, ?_, readsBut_cons⟩
  exact hpacks.trans (by simp [view])

theorem packCopied_scheduler (hx : Table.get s.scheduler.jobs j = some x) (serial : U32) :
    (packCopied j x serial s).scheduler = s.scheduler := by
  rw [packCopied, moveReserved_eq hx]
  rfl

/-- PASS for a PACK job (R88): the pack is READY and the record is freed. -/
theorem Good.packPassed (h : Good C {} s) (hx : Table.get s.scheduler.jobs j = some x) (hholds : x.holds = true)
    (hkind : x.kind = .pack) (serial : U32) : Good C { loose := [j] } (copyPassed j x serial s) := by
  have hpack : (view {} s).pack j = some x.consignment := (readsBut_some List.not_mem_nil hx).trans (if_pos hkind)
  obtain ⟨-, hdup, -⟩ := h.lawful.packing j x.consignment hpack
  obtain ⟨hk, c, hc, hst⟩ := view_stage_iff.mp hdup
  have hheld : (view {} s).holds j = true := (readsBut_some List.not_mem_nil hx).trans hholds
  have hview := view_packCopied h.lawful hx hc hpack serial
  have hsched := packCopied_scheduler hx serial
  have hcopied : Good C { ended := [j], loose := [j] } (Machine.packCopied j x serial s) :=
    { form := by
        have := ((OrderChange.modCons x.consignment (fun c => { c with serial := some serial, job := 0 }) s).work.trans
          (OrderChange.modCons x.consignment (fun c => { c with state := .ready }) _).work).tables h.form
        rw [Machine.packCopied, moveReserved_eq hx]
        exact this
      lawful := hview ▸ (h.lawful.setHolds (by simp)).arrive (.inl hdup)
      counted := fun hC => hview ▸ (h.counted hC).arriveJob h.lawful (view_jobCls hx) hheld hpack fun d hd => by
        rw [packCopied_accountAt, moveReserved_eq hx, accountAt_modAccount_class hd]
      placed := (h.placed.loosen_one j).congr (fun i => by rw [hsched]) (fun b => by rw [bayAt, hsched]; exact .refl _)
        fun l => by rw [queueAt, hsched]; rfl
      hides := ⟨fun k hk => absurd hk List.not_mem_nil, fun i hi => by rw [hsched, List.mem_singleton.mp hi, hx]; rfl⟩ }
  have hreleased := hcopied.passReleases rfl
  have hkept : (Machine.passReleases (Machine.packCopied j x serial s)).scheduler = s.scheduler :=
    (congrArg State.scheduler (passReleases_released _).frame).trans hsched
  rw [copyPassed_pack hkind]
  refine hreleased.freeJob (M := { loose := [j] }) List.mem_cons_self fun y hy => ?_
  rw [hkept, hx] at hy
  obtain rfl := Option.some.inj hy
  rintro hq
  simp [Job.holds, hq] at hholds

/-- A cartridge that a STOCK run made is on the shelf (R89). -/
theorem Counted.shelveJob {v : Circ} {a a' : Nat → ClassAccount} {m copies : Nat} {y : TitleShape} (h : Counted v a) (hl : Lawful v)
    (hj : v.jobCls j = some y.shelfClass) (hholds : v.holds j = true) (hy : v.title m = some y) (hfmt : y.format = .audio)
    (hpol : y.policy = .shelf)
    (ha : ∀ d, IsClass d → a' d = if d = y.shelfClass then ClassAccount.move .reserved .shelf 1 (a d) else a d) :
    Counted ((v.setHolds j false).restock m copies (v.shelf m + 1) (v.repair m)) a' := by
  refine ⟨fun d hd => ?_, (h.classed.setHolds j false).restock fun hs => h.classed.bench hs m⟩
  obtain ⟨h1, h2, h3, h4⟩ := h.agrees d hd
  have hl' : Lawful (v.setHolds j false) := hl.setHolds (by simp)
  have hheld := heldOf_give hl hj hholds d
  have hshelf := shelvedOf_restock hl' (copies := copies) (shelf := v.shelf m + 1) (repair := v.repair m) hy d
  have hbench := benchOf_restock hl' (copies := copies) (shelf := v.shelf m + 1) (repair := v.repair m) hy d
  have hsame : (v.setHolds j false).shelvedOf d = v.shelvedOf d ∧ (v.setHolds j false).benchOf d = v.benchOf d ∧
      (v.setHolds j false).shelf m = v.shelf m ∧ (v.setHolds j false).repair m = v.repair m := ⟨rfl, rfl, rfl, rfl⟩
  have hof : shelfAudioOf (some y) d = decide (d = y.shelfClass) := by
    rw [Bool.eq_iff_iff, shelfAudioOf_some, decide_eq_true_eq]
    exact ⟨fun e => e.2.2.symm, fun e => ⟨hfmt, hpol, e.symm⟩⟩
  rw [hof, hsame.1, hsame.2.2.1] at hshelf
  rw [hof, hsame.2.1, hsame.2.2.2] at hbench
  have hheld' : ((v.setHolds j false).restock m copies (v.shelf m + 1) (v.repair m)).heldOf d = (v.setHolds j false).heldOf d := rfl
  have hconsigned : ((v.setHolds j false).restock m copies (v.shelf m + 1) (v.repair m)).consignedOf d = v.consignedOf d := rfl
  rw [ha d hd]
  by_cases hd' : d = y.shelfClass
  · subst hd'
    simp only [if_true, decide_true] at hheld hshelf hbench ⊢
    rw [move_reserved (by omega)]
    exact ⟨by change (a y.shelfClass).reserved - 1 = _; omega, by change (a y.shelfClass).consigned = _; omega,
      by change (a y.shelfClass).shelf + 1 = _; omega, by change (a y.shelfClass).bound = _; omega⟩
  · simp only [if_neg hd', decide_eq_false hd', Bool.false_eq_true, if_false] at hheld hshelf hbench ⊢
    exact ⟨by omega, by omega, by omega, by omega⟩

theorem Good.copyAdded (h : Good C {} s) (hx : Table.get s.scheduler.jobs j = some x) (hholds : x.holds = true)
    (hq : stockQualifies s x = true) : Good C { loose := [j] } (copyAdded j x s) := by
  obtain ⟨y, hy, hfmt, hpol, hcls⟩ := stockQualifies_iff.mp hq
  have hheld : (view {} s).holds j = true := (readsBut_some List.not_mem_nil hx).trans hholds
  have hview : view { loose := [j] } (Machine.copyAdded j x s) =
      ((view {} s).setHolds j false).restock x.title (y.copies + 1) ((view {} s).shelf x.title + 1) ((view {} s).repair x.title) := by
    rw [Machine.copyAdded, moveReserved_eq hx, view_shelf hy, view_repair hy]
    simp [view, Circ.setHolds, Circ.restock, titleShape]
    exact ⟨reads_modify_some hy, reads_modify_some hy, reads_some hy, readsBut_cons⟩
  have hcopied := h.lawful.copied x.title (titleShape y) (view_title hy)
  have hsched : (Machine.copyAdded j x s).scheduler = s.scheduler := by rw [Machine.copyAdded, moveReserved_eq hx]; rfl
  exact
    { form := by
        rw [Machine.copyAdded, moveReserved_eq hx]
        exact (OrderChange.modTitle x.title _ s).work.tables h.form
      lawful := by
        rw [hview]
        refine (h.lawful.setHolds (by simp)).restock fun z hz => ?_
        obtain rfl : titleShape y = z := Option.some.inj ((view_title (M := {}) hy).symm.trans hz)
        obtain ⟨hshelf, -, hbraille⟩ := hcopied
        rw [view_copies hy] at hshelf
        refine ⟨fun hp => ?_, fun hp => by simp [titleShape, hpol] at hp, hbraille⟩
        have := hshelf hp
        change (view {} s).shelf x.title + 1 + (view {} s).out x.title + (view {} s).repair x.title = y.copies + 1
        omega
      counted := fun hC => hview ▸ (h.counted hC).shelveJob h.lawful
        (by rw [view_jobCls hx, ← hcls]; rfl) hheld (view_title hy) hfmt hpol fun d hd => by
          rw [Machine.copyAdded, moveReserved_eq hx, ← hcls]
          exact accountAt_modAccount_class hd
      placed := (h.placed.loosen_one j).congr (fun i => by rw [hsched]) (fun b => by rw [bayAt, hsched]; exact .refl _)
        fun l => by rw [queueAt, hsched]; rfl
      hides := ⟨fun k hk => absurd hk List.not_mem_nil, fun i hi => absurd hi List.not_mem_nil⟩ }

/-- PASS for a STOCK job (R89, R98). -/
theorem Good.stockCopied (h : Good C {} s) (hx : Table.get s.scheduler.jobs j = some x) (hholds : x.holds = true)
    (hkind : x.kind = .stock) (serial : U32) : Good C { loose := [j] } (copyPassed j x serial s) := by
  have hnot : x.state ≠ .queued := fun hq => by simp [Job.holds, hq] at hholds
  have hpack : x.kind ≠ .pack := by simp [hkind]
  by_cases hq : stockQualifies s x = true
  · have hadded := h.copyAdded hx hholds hq
    have hxa : Table.get (Machine.copyAdded j x s).scheduler.jobs j = some x := by
      rw [Machine.copyAdded, moveReserved_eq hx]
      exact hx
    have hfreed := hadded.copyFreed x.title
    have hxf := (JobsKept.copyFreed x.title (Machine.copyAdded j x s)).get hadded.jobsWf hxa
    have hwait : NotWaiting (Machine.copyFreed x.title (Machine.copyAdded j x s)) j := fun y hy =>
      Option.some.inj (hxf.symm.trans hy) ▸ hnot
    by_cases hr : x.remaining ≤ 1
    · rw [copyPassed_last hkind hq hr]
      exact (hfreed.ending hxf hpack).freeJob (M := { loose := [j] }) List.mem_cons_self hwait
    · rw [copyPassed_more hkind hq (by omega)]
      have hfloat := floats_loose hfreed.placed (j := j) List.mem_cons_self hwait
      have hmore := hfreed.modJob (j := j)
        (f := fun y => { y with remaining := x.remaining - 1, retry := false, priority := 0, offset := 0, serial := none })
        (fun y => ⟨rfl, rfl, rfl⟩) (fun _ _ => .inl List.mem_cons_self) (hfreed.placed.modJob hfloat _)
      refine hmore.queueTail (floats_loose hmore.placed List.mem_cons_self fun y hy => ?_) fun _ _ => .inl List.mem_cons_self
      rw [modJob_jobs, Table.get_modify_same, hxf] at hy
      exact Option.some.inj hy ▸ hnot
  · rw [copyPassed_ended hkind hq]
    have hgiven := h.giveUp (M := {}) (L := []) hx List.not_mem_nil hholds (.inl rfl)
    have hjobs : (moveReserved j .blank s).scheduler.jobs = s.scheduler.jobs := by rw [moveReserved_eq hx]; rfl
    have hxg : Table.get (moveReserved j .blank s).scheduler.jobs j = some x := by rw [hjobs]; exact hx
    exact (Good.ending hgiven hxg hpack).freeJob (M := { loose := [j] }) List.mem_cons_self fun y hy =>
      Option.some.inj (hxg.symm.trans hy) ▸ hnot

theorem copyPassed_waits (j : Nat) (x : Job) (serial : U32) (s : State) :
    WaitsOrGone (copyPassed j x serial s) j := by
  cases hkind : x.kind with
  | pack => rw [copyPassed_pack hkind]; exact freeJob_waits j _
  | stock =>
    by_cases hq : stockQualifies s x = true
    · by_cases hr : x.remaining ≤ 1
      · rw [copyPassed_last hkind hq hr]
        exact freeJob_waits j _
      · rw [copyPassed_more hkind hq (by omega)]
        exact queueTail_waits j _
    · rw [copyPassed_ended hkind hq]
      exact freeJob_waits j _

/-- FAIL (R90). -/
theorem Good.copyFailed (h : Good C {} s) (hx : Table.get s.scheduler.jobs j = some x) (hholds : x.holds = true) :
    Good C { loose := [j] } (copyFailed j s) := by
  have hgiven := h.giveUp (M := {}) (L := []) hx List.not_mem_nil hholds (.inr rfl)
  refine Good.faultAttempt hgiven List.mem_cons_self fun y hy hq => ?_
  have hjobs : (moveReserved j .repair s).scheduler.jobs = s.scheduler.jobs := by rw [moveReserved_eq hx]; rfl
  rw [hjobs, hx] at hy
  obtain rfl := Option.some.inj hy
  simp [Job.holds, hq] at hholds

/-- The bay whose active job has ended takes next work (R86, R88 step 4). -/
theorem Good.afterJob {u : State} (hs : Good C {} s) (hj : isActive s b j = true) (h : Good C { loose := [j] } u)
    (hbays : u.scheduler.bays = s.scheduler.bays) (hwaits : WaitsOrGone u j) : Good C {} (afterJob b u) := by
  have hu : ∀ o, bayAt u o = bayAt s o := fun o => by rw [bayAt, hbays]; rfl
  obtain ⟨x, hx, hst, hb, hstack, hpre⟩ := hs.active hj
  obtain ⟨h0, hactive⟩ := isActive_iff.mp hj
  have hrange : 1 ≤ b ∧ b ≤ 24 := HasJob.range (s := s) (j := j) (.inl ⟨h0, hactive⟩)
  have hleft : Good C { loose := [j] } (Machine.modBay b (fun bay => { bay with active := 0 }) u) :=
    h.modBay ((h.placed.bays b).withActive (fun h0 => absurd rfl h0) _)
  have hfree : Good C {} (Machine.modBay b (fun bay => { bay with active := 0 }) u) := by
    refine hleft.tighten (M := {}) (fun o i hi hhas => ?_) fun i hi y hy => ?_
    · obtain rfl := List.mem_singleton.mp hi
      rw [bayAt_modBay] at hhas
      by_cases ho : o = b
      · subst ho
        rw [if_pos ⟨rfl, hrange⟩, hu] at hhas
        rcases hhas with ⟨h0, he⟩ | hmem | ⟨h0, he⟩
        · exact h0 he.symm
        · exact hstack hmem
        · exact hpre h0 he
      · rw [if_neg fun e => ho e.1, hu] at hhas
        obtain ⟨y, hy, -, hby⟩ := hs.placed.has hhas List.not_mem_nil
        obtain rfl := Option.some.inj (hx.symm.trans hy)
        exact ho (hby.symm.trans hb)
    · obtain rfl := List.mem_singleton.mp hi
      simp [Job.holds, hwaits y hy]
  have hdropped := (Calm.dropOwed b _).good hfree
  unfold Machine.afterJob
  refine Good.owePass ?_
  split_ifs
  · exact hdropped.loadPreemptor b
  · exact hdropped.nextWork b

theorem copyPassed_bays (hx : Table.get s.scheduler.jobs j = some x) (serial : U32) :
    (copyPassed j x serial s).scheduler.bays = s.scheduler.bays := by
  cases hkind : x.kind with
  | pack =>
    rw [copyPassed_pack hkind, (freeJob_change j _).bays, (passReleases_released _).frame]
    exact congrArg SchedulerUnit.bays (packCopied_scheduler hx serial)
  | stock =>
    simp only [copyPassed, hkind]
    split_ifs
    · unfold stockPassed
      simp only
      split_ifs
      · exact ((((moveReserved_change j .shelf s).trans (.modTitle _ _ _)).trans (copyFreed_change _ _)).trans
          (freeJob_change j _)).bays
      · exact (((((moveReserved_change j .shelf s).trans (.modTitle _ _ _)).trans (copyFreed_change _ _)).trans
          (.modJob j _ _)).trans (queueTail_change j _)).bays
    · exact ((moveReserved_change j _ s).trans (freeJob_change j _)).bays

/-- A COPY_DONE (R88). -/
theorem Good.takeCopyDone (h : Good C {} s) (j : Nat) (serial : U32) (result b : Nat) :
    Good C {} (takeCopyDone j serial result b s) := by
  cases hx : Table.get s.scheduler.jobs j with
  | none => simpa only [Machine.takeCopyDone, hx] using h
  | some x =>
    simp only [Machine.takeCopyDone, hx]
    by_cases hact : (isActive s b j && bayWorking (bayAt s b) && decide (result ≤ 1)) = true
    · rw [if_pos hact]
      simp only [Bool.and_eq_true] at hact
      obtain ⟨⟨hj, -⟩, -⟩ := hact
      obtain ⟨y, hy, hst, -⟩ := h.active hj
      obtain rfl := Option.some.inj (hx.symm.trans hy)
      have hholds : x.holds = true := Job.holds_iff.mpr (.inl hst)
      split_ifs
      · have hpassed : Good C { loose := [j] } (copyPassed j x serial s) := by
          cases hkind : x.kind with
          | pack => exact h.packPassed hx hholds hkind serial
          | stock => exact h.stockCopied hx hholds hkind serial
        exact h.afterJob hj hpassed (copyPassed_bays hx serial) (copyPassed_waits j x serial s)
      · exact h.afterJob hj (h.copyFailed hx hholds) (copyFailed_change j s).bays (faultAttempt_waits _ j)
    · rwa [if_neg hact]

end Copies

end Sys2Proof.Machine
end

