-- ==== Sys2Proof/Proofs/CirculatingFaults.lean ====
section
/-! PROOFS. Bays that give up their jobs keep the laws of circulation and the counts of R148 (R94 to R96, R100, R150), and so do
the other commands of the Duplication Scheduler (R76, R77, R79, R97, R99). -/

namespace Sys2Proof.Machine

/-! ## Jobs sent back to their queues -/

section Back

variable {C : Prop} {L : List Nat} {s t : State} {j b : Nat} {x : Job}

/-- A loose job goes back to its queue, or its record is freed. -/
structure Returning (C : Prop) (f : State → Nat → State) : Prop where
  good : ∀ {L s j}, Good C { loose := L } s → j ∈ L → NotWaiting s j → Good C { loose := L } (f s j)
  kept : ∀ s j, JobsKept [j] s (f s j)
  waits : ∀ s j, WaitsOrGone (f s j) j
  bays : ∀ s j, (f s j).scheduler.bays = s.scheduler.bays

theorem Returning.faultAttempt : Returning C faultAttempt where
  good h hj hwait := h.faultAttempt hj hwait
  kept s j := JobsKept.retryJob j s
  waits := faultAttempt_waits
  bays s j := (faultAttempt_change s j).bays

theorem Returning.queueHead : Returning C fun s j => queueHead j s where
  good h hj hwait := h.queueHead (floats_loose h.placed hj hwait) fun _ _ => .inl hj
  kept s j := JobsKept.queueHead j s
  waits s j := queueHead_waits j s
  bays s j := (queueHead_change j s).bays

theorem forgetCartridge_notWaiting (h : NotWaiting s j) : NotWaiting (forgetCartridge j s) j := fun x hx => by
  rw [forgetCartridge, modJob_jobs, Table.get_modify_same, Option.map_eq_some_iff] at hx
  obtain ⟨y, hy, rfl⟩ := hx
  exact h y hy

theorem Returning.requeue : Returning C fun s j => requeue j s where
  good h hj hwait :=
    Returning.queueHead.good (h.modJob_kept (f := fun x => { x with offset := 0, serial := none })
      (by intro; exact ⟨rfl, rfl, rfl⟩) (by intro; rfl) _) hj (forgetCartridge_notWaiting hwait)
  kept s j := ((JobsKept.modified (modJob_jobs j _ s)).trans (JobsKept.queueHead j (forgetCartridge j s))).mono (by simp)
  waits s j := queueHead_waits j _
  bays s j := (queueHead_change j _).bays

theorem JobsKept.waits {ks : List Nat} (h : JobsKept ks s t) (hw : Table.wf s.scheduler.jobs) (hj : j ∉ ks) (hs : WaitsOrGone s j) :
    WaitsOrGone t j := fun x hx => by
  rcases (h hw).2 j hj with heq | ⟨-, y, hy, hst⟩
  · exact hs x (heq ▸ hx)
  · exact Option.some.inj (hy.symm.trans hx) ▸ hst

theorem JobsKept.kept_get {ks : List Nat} (h : JobsKept ks s t) (hw : Table.wf s.scheduler.jobs) (hj : j ∉ ks)
    (hx : Table.get s.scheduler.jobs j = some x) : Table.get t.scheduler.jobs j = some x := by
  rcases (h hw).2 j hj with heq | ⟨hnone, -⟩
  · rw [heq, hx]
  · exact absurd (hnone.symm.trans hx) (by simp)

/-- Loose jobs go back one after another. -/
theorem Good.sendBack {f : State → Nat → State} (hf : Returning C f) (l : List Nat) (h : Good C { loose := L } s) (hnd : l.Nodup)
    (hl : ∀ i ∈ l, i ∈ L ∧ NotWaiting s i ∧ (Table.get s.scheduler.jobs i).isSome = true) :
    Good C { loose := L } (l.foldl f s) ∧ JobsKept l s (l.foldl f s) ∧ (∀ i ∈ l, WaitsOrGone (l.foldl f s) i) ∧
      (l.foldl f s).scheduler.bays = s.scheduler.bays := by
  induction l generalizing s with
  | nil => exact ⟨h, .refl s, fun i hi => absurd hi List.not_mem_nil, rfl⟩
  | cons i l ih =>
    obtain ⟨hi, hnd⟩ := List.nodup_cons.mp hnd
    obtain ⟨hmem, hwait, -⟩ := hl i List.mem_cons_self
    have hone := hf.good h hmem hwait
    obtain ⟨hgood, hkept, hwaits, hbays⟩ := ih hone hnd fun o ho => by
      obtain ⟨hmem, hwait, hsome⟩ := hl o (List.mem_cons_of_mem i ho)
      obtain ⟨x, hx⟩ := Option.isSome_iff_exists.mp hsome
      have hget := (hf.kept s i).kept_get h.jobsWf (fun e => hi (List.mem_singleton.mp e ▸ ho)) hx
      exact ⟨hmem, fun y hy => Option.some.inj (hget.symm.trans hy) ▸ hwait x hx, by rw [hget]; rfl⟩
    refine ⟨hgood, (hf.kept s i).trans hkept, fun o ho => ?_, hbays.trans (hf.bays s i)⟩
    rcases List.mem_cons.mp ho with rfl | ho
    · exact hkept.waits hone.jobsWf hi (hf.waits s o)
    · exact hwaits o ho

end Back

/-! ## A bay gives up its jobs -/

section Leave

variable {C : Prop} {L : List Nat} {s t : State} {j b : Nat} {x : Job}

theorem moveReserved_scheduler (j : Nat) (dst : Place) (s : State) : (moveReserved j dst s).scheduler = s.scheduler := by
  unfold moveReserved
  split <;> rfl

/-- The cartridges of several jobs go to the repair bench. -/
theorem Good.giveAll (l : List Nat) (h : Good C { loose := L } s) (hnd : l.Nodup)
    (hl : ∀ i ∈ l, i ∉ L ∧ ∃ x, Table.get s.scheduler.jobs i = some x ∧ x.holds = true) :
    Good C { loose := l.reverse ++ L } (l.foldl (fun s j => moveReserved j .repair s) s) ∧
      (l.foldl (fun s j => moveReserved j .repair s) s).scheduler = s.scheduler := by
  induction l generalizing s L with
  | nil => exact ⟨h, rfl⟩
  | cons i l ih =>
    obtain ⟨hi, hnd⟩ := List.nodup_cons.mp hnd
    obtain ⟨hmem, x, hx, hholds⟩ := hl i List.mem_cons_self
    have hone := h.giveUp (M := {}) hx hmem hholds (.inr rfl)
    obtain ⟨hgood, hsched⟩ := ih (L := i :: L) hone hnd fun o ho => by
      obtain ⟨hmem, y, hy, hholds⟩ := hl o (List.mem_cons_of_mem i ho)
      rw [moveReserved_scheduler]
      exact ⟨fun e => (List.mem_cons.mp e).elim (fun e => hi (e ▸ ho)) hmem, y, hy, hholds⟩
    rw [List.reverse_cons, List.append_assoc]
    exact ⟨hgood, hsched.trans (moveReserved_scheduler i _ s)⟩

theorem held_iff {bay : Bay} : j ∈ heldJobs bay ↔ (j ≠ 0 ∧ bay.active = j) ∨ j ∈ bay.stack := by
  rw [mem_heldJobs, or_comm]
  exact or_congr ⟨fun ⟨h0, e⟩ => ⟨e ▸ h0, e.symm⟩, fun ⟨h0, e⟩ => ⟨e ▸ h0, e.symm⟩⟩ Iff.rfl

/-- The jobs that hold the cartridges of a bay. -/
theorem Good.held (h : Good C {} s) (b : Nat) : (heldJobs (bayAt s b)).Nodup ∧
    ∀ i ∈ heldJobs (bayAt s b), ∃ x, Table.get s.scheduler.jobs i = some x ∧ x.holds = true := by
  have hbay := h.placed.bays b
  have hall : ∀ i ∈ heldJobs (bayAt s b), ∃ x, Table.get s.scheduler.jobs i = some x ∧ x.holds = true := fun i hi => by
    obtain ⟨x, hx, -⟩ := h.placed.has (b := b) ((held_iff.mp hi).imp_right .inl) List.not_mem_nil
    obtain ⟨hactive, hstack, -⟩ := hbay.state_of hx
    exact ⟨x, hx, Job.holds_iff.mpr ((held_iff.mp hi).imp hactive hstack)⟩
  refine ⟨?_, hall⟩
  unfold heldJobs
  split_ifs with h0
  · exact hbay.nodup
  · refine List.nodup_cons.mpr ⟨fun hmem => ?_, hbay.nodup⟩
    obtain ⟨x, hx, -⟩ := hall (bayAt s b).active (held_iff.mpr (.inl ⟨h0, rfl⟩))
    obtain ⟨hactive, hstack, -⟩ := hbay.state_of hx
    exact absurd ((hactive ⟨h0, rfl⟩).symm.trans (hstack hmem)) (by simp)

/-- The bay after its jobs have gone back. -/
theorem Good.emptied {u : State} {e : Bay → Bay} (hs : Good C {} s) (h : Good C { loose := L } u)
    (he : ∀ x, (e x).active = 0 ∧ (e x).stack = [] ∧ (e x).preemptor = 0) (hL : ∀ i ∈ L, HasJob (bayAt s b) i)
    (hwaits : ∀ i ∈ L, WaitsOrGone u i) (hbays : u.scheduler.bays = s.scheduler.bays) : Good C {} (Machine.modBay b e u) := by
  have hu : ∀ o, bayAt u o = bayAt s o := fun o => by rw [bayAt, hbays]; rfl
  obtain ⟨ha, hst, hp⟩ := he (bayAt u b)
  have hempty : Good C { loose := L } (Machine.modBay b e u) :=
    h.modBay ⟨fun h0 => absurd ha h0, by rw [hst]; exact List.nodup_nil, fun i hi => absurd hi (by simp [hst]), fun h0 => absurd hp h0⟩
  refine hempty.tighten (M := {}) (fun o i hi hhas => ?_) fun i hi x hx => by simp [Job.holds, hwaits i hi x hx]
  rw [bayAt_modBay] at hhas
  by_cases ho : o = b
  · rw [if_pos ⟨ho, (hL i hi).range⟩, ho] at hhas
    rcases hhas with ⟨h0, hj⟩ | hmem | ⟨h0, hj⟩
    · exact h0 (hj.symm.trans ha)
    · rw [hst] at hmem
      cases hmem
    · exact h0 (hj.symm.trans hp)
  · rw [if_neg fun h => ho h.1, hu] at hhas
    obtain ⟨x, hx, -, hxb⟩ := hs.placed.has hhas List.not_mem_nil
    obtain ⟨y, hy, -, hyb⟩ := hs.placed.has (hL i hi) List.not_mem_nil
    obtain rfl := Option.some.inj (hx.symm.trans hy)
    exact ho (hxb.symm.trans hyb)

/-- The jobs of a bay after their cartridges have gone to the repair bench. -/
def bayGiven (b : Nat) (s : State) : State := (heldJobs (bayAt s b)).foldl (fun s j => moveReserved j .repair s) s

/-- A bay gives up its held jobs by `f` and its pending pre-emptor by `g` (R95, R96, R100). -/
theorem Good.leaveBay {f g : State → Nat → State} {e : Bay → Bay} (h : Good C {} s) (hf : Returning C f) (hg : Returning C g)
    (he : ∀ x, (e x).active = 0 ∧ (e x).stack = [] ∧ (e x).preemptor = 0) (b : Nat) :
    Good C {} (Machine.modBay b e (if (bayAt s b).preemptor = 0 then (heldJobs (bayAt s b)).foldl f (bayGiven b s)
      else g ((heldJobs (bayAt s b)).foldl f (bayGiven b s)) (bayAt s b).preemptor)) := by
  obtain ⟨hnd, hheld⟩ := h.held b
  obtain ⟨hgiven, hsched⟩ := Good.giveAll (L := []) (heldJobs (bayAt s b)) h hnd fun i hi => ⟨List.not_mem_nil, hheld i hi⟩
  rw [List.append_nil] at hgiven
  have hhas : ∀ i ∈ heldJobs (bayAt s b), HasJob (bayAt s b) i := fun i hi => (held_iff.mp hi).imp_right .inl
  have hstands : ∀ {L' : List Nat}, (∀ i ∈ heldJobs (bayAt s b), i ∈ L') → ∀ i ∈ heldJobs (bayAt s b),
      i ∈ L' ∧ NotWaiting (bayGiven b s) i ∧ (Table.get (bayGiven b s).scheduler.jobs i).isSome = true := fun hsub i hi => by
    obtain ⟨x, hx, hholds⟩ := hheld i hi
    rw [NotWaiting, show (bayGiven b s).scheduler = s.scheduler from hsched, hx]
    refine ⟨hsub i hi, fun y hy hq => ?_, rfl⟩
    obtain rfl := Option.some.inj hy
    simp [Job.holds, hq] at hholds
  split_ifs with hpre
  · obtain ⟨hgood, -, hwaits, hbays⟩ := hgiven.sendBack hf (heldJobs (bayAt s b)) hnd
      (hstands fun i hi => List.mem_reverse.mpr hi)
    exact h.emptied hgood he (fun i hi => hhas i (List.mem_reverse.mp hi)) (fun i hi => hwaits i (List.mem_reverse.mp hi))
      (hbays.trans (congrArg SchedulerUnit.bays hsched))
  · have hp : HasJob (bayAt s b) (bayAt s b).preemptor := .inr (.inr ⟨hpre, rfl⟩)
    obtain ⟨x, hx, hst, hxb⟩ := ((h.placed.bays b).preemptor hpre).resolve_left List.not_mem_nil
    have hout : (bayAt s b).preemptor ∉ heldJobs (bayAt s b) := fun hmem => by
      obtain ⟨y, hy, hholds⟩ := hheld _ hmem
      obtain rfl := Option.some.inj (hx.symm.trans hy)
      simp [Job.holds, hst] at hholds
    have hxg : Table.get (bayGiven b s).scheduler.jobs (bayAt s b).preemptor = some x := by
      rw [show (bayGiven b s).scheduler = s.scheduler from hsched, hx]
    have hloose := hgiven.loosen (M := {}) (j := (bayAt s b).preemptor) fun y hy => by
      obtain rfl := Option.some.inj (hxg.symm.trans hy)
      simp [Job.holds, hst]
    obtain ⟨hgood, hkept, hwaits, hbays⟩ := Good.sendBack hf (heldJobs (bayAt s b)) hloose hnd
      (hstands fun i hi => List.mem_cons_of_mem _ (List.mem_reverse.mpr hi))
    have hxk := hkept.kept_get hgiven.jobsWf hout hxg
    have hback := hg.good hgood List.mem_cons_self fun y hy => by
      obtain rfl := Option.some.inj (hxk.symm.trans hy)
      simp [hst]
    refine h.emptied hback he (fun i hi => ?_) (fun i hi => ?_) ?_
    · rcases List.mem_cons.mp hi with rfl | hi
      · exact hp
      · exact hhas i (List.mem_reverse.mp hi)
    · rcases List.mem_cons.mp hi with rfl | hi
      · exact hg.waits _ _
      · refine (hg.kept _ _).waits hgood.jobsWf (fun e => hout ?_) (hwaits i (List.mem_reverse.mp hi))
        exact List.mem_singleton.mp e ▸ List.mem_reverse.mp hi
    · exact (hg.bays _ _).trans (hbays.trans (congrArg SchedulerUnit.bays hsched))

/-- A bay faults (R94, R95). -/
theorem Good.faultBay (h : Good C {} s) (b : Nat) (cause : BayCause) : Good C {} (faultBay b cause s) := by
  rw [faultBay_eq]
  refine Good.owePass (Good.latch ((Calm.leavePoll _ _).good ?_) _ _)
  exact h.leaveBay Returning.faultAttempt Returning.queueHead (e := faultedBay cause) (fun _ => ⟨rfl, rfl, rfl⟩) b

/-- A bay puts its jobs back (R96, R100). -/
theorem Good.putBackJobs (h : Good C {} s) (b : Nat) : Good C {} (putBackJobs b s) :=
  h.leaveBay Returning.requeue Returning.requeue (e := fun bay => { bay with active := 0, stack := [], preemptor := 0 })
    (fun _ => ⟨rfl, rfl, rfl⟩) b

end Leave

/-! ## The modes of a bay (R76, R77, R96, R100) -/

section Modes

variable {C : Prop} {s t : State} {j b : Nat} {x : Job}

theorem BayPlaced.none {L : List Nat} {bay : Bay} (ha : bay.active = 0) (hs : bay.stack = []) (hp : bay.preemptor = 0) :
    BayPlaced L s b bay :=
  ⟨fun h0 => absurd ha h0, hs ▸ List.nodup_nil, fun i hi => absurd hi (by simp [hs]), fun h0 => absurd hp h0⟩

theorem Good.bringOnline (h : Good C {} s) (b : Nat) : Good C {} (bringOnline b s) :=
  Good.owePass ((Calm.joinPoll _ _).good (h.modBay (.none rfl rfl rfl)))

theorem Good.takeOffline (h : Good C {} s) (b : Nat) : Good C {} (takeOffline b s) := by
  have hsent := (Calm.foldl (fun u j => makeCommand b (abandonFrame (bayAt s b).address j) u) (fun u j => .makeCommand b _ u)
    (heldJobs (bayAt s b)) (dropOwed b s)).good ((Calm.dropOwed b s).good h)
  exact Good.owePass ((Calm.leavePoll _ _).good ((Calm.modBay (by intro; exact ⟨rfl, rfl, rfl⟩) b _).good (hsent.putBackJobs b)))

theorem Good.restartBay (h : Good C {} s) (b : Nat) : Good C {} (restartBay s b) :=
  (Calm.modBay (by intro; exact ⟨rfl, rfl, rfl⟩) b _).good (h.putBackJobs b)

theorem Calm.configureBay (b address : Nat) (classes preempt : Byte) (s : State) :
    Calm s (configureBay b address classes preempt s).state := by
  unfold Machine.configureBay
  split
  · exact .refl s
  · split_ifs
    · exact .refl s
    · exact .refl s
    · exact .refl s
    · exact .modBay (by intro; exact ⟨rfl, rfl, rfl⟩) b s
    · exact .modBay (by intro; exact ⟨rfl, rfl, rfl⟩) b s

theorem Calm.passSeconds (n : Nat) (s : State) : Calm s (passSeconds n s) where
  patrons := rfl
  agencies := rfl
  titles := rfl
  requests := rfl
  cons := rfl
  sealedList := rfl
  jobs := rfl
  queues := rfl
  places b := by
    rw [passSeconds_bayAt]
    exact ⟨rfl, rfl, rfl⟩
  ready := rfl
  outstanding := rfl
  accounts := rfl
  geometry := rfl
  mode := rfl

/-- A stall timer expires (R79, R94). -/
theorem Good.expire (h : Good C {} s) (b : Nat) : Good C {} (expire s b) := (h.faultBay b .stall).settle

theorem Good.tick (h : Good C {} s) : Good C {} (tick s) :=
  Good.foldl (f := Machine.expire) (fun _ b hs => hs.expire b) _ ((Calm.passSeconds 1 s).good h)

end Modes

/-! ## Stock copy runs and RAISE_JOB (R97, R99) -/

section Runs

variable {C : Prop} {s t : State} {j b n m : Nat} {x : Job}

/-- A STOCK run takes a FREE job record (R97). -/
theorem Good.newRun (h : Good C {} s) (hservice : s.management.mode = .service)
    (hj : Table.lowestFree s.scheduler.jobs s.management.geometry.j = some j) (hkind : x.kind = .stock) (hst : x.state = .queued)
    (hcls : C → IsClass x.cartridgeClass) :
    Good C {} (Machine.queueTail j { s with scheduler.jobs := Table.put s.scheduler.jobs j x }) := by
  obtain ⟨hnone, hpool⟩ := lowestFree_spec h.jobsWf hj
  have hfloat := floats_absent h.placed hnone
  have hholds : x.holds = false := by simp [Job.holds, hst]
  have hview : view {} { s with scheduler.jobs := Table.put s.scheduler.jobs j x } = (view {} s).newRun j x.cartridgeClass := by
    have hpack : readsBut [] (Table.put s.scheduler.jobs j x) none (fun x : Job => if x.kind = .pack then some x.consignment else none) =
        readsBut [] s.scheduler.jobs none fun x => if x.kind = .pack then some x.consignment else none := by
      rw [readsBut_put List.not_mem_nil, Function.update_eq_self_iff, readsBut_none hnone, hkind]
      rfl
    have hheld : readsBut [] (Table.put s.scheduler.jobs j x) false Job.holds = readsBut [] s.scheduler.jobs false Job.holds := by
      rw [readsBut_put List.not_mem_nil, Function.update_eq_self_iff, readsBut_none hnone, hholds]
    simp [view, Circ.newRun, hpack, hheld, reads_put]
  have hnew : Good C {} { s with scheduler.jobs := Table.put s.scheduler.jobs j x } :=
    h.scheduled (OrderChange.putJob j x s).work.tables hview
      (h.lawful.newRun hpool (by simp [view, Mode.isSetup, hservice]))
      (fun hC => (h.counted hC).newRun (view_holds_none hnone) (view_pack_none hnone) (hcls hC))
      (h.placed.change hfloat (fun i hi => by rw [Table.get_put_other _ _ hi]) (fun _ => .refl _) fun _ => .inl rfl) rfl
      fun i hi => absurd hi List.not_mem_nil
  refine hnew.queueTail ⟨hfloat.queues, hfloat.bays⟩ fun y hy => .inr ?_
  rw [Table.get_put_same] at hy
  exact Option.some.inj hy ▸ hholds

theorem Good.buildRun (h : Good C {} s) (hservice : s.management.mode = .service) (m n : Nat) :
    Good C {} (buildRun m n s).state := by
  unfold Machine.buildRun
  split_ifs
  · exact h
  · split
    · exact h
    next x hx =>
      split_ifs with hfmt
      · exact h
      · exact h
      · split
        · exact h
        next j hj =>
          simp only [not_or, not_not] at hfmt
          have hcls : C → IsClass x.shelfClass := fun hC => (h.counted hC).classed.title m _ (view_title hx) hfmt.1 hfmt.2
          exact h.newRun hservice hj rfl rfl hcls

/-- A job that stands on a bay changes in what does not tell its place there. -/
theorem Placed.modJob_standing {L : List Nat} (h : Placed L s) {f : Job → Job}
    (hst : NotWaiting s j) (hf : ∀ x, (f x).state = x.state ∧ (f x).bay = x.bay) : Placed L (Machine.modJob j f s) := by
  have hat : ∀ {i st b}, JobAt s i st b → JobAt (Machine.modJob j f s) i st b := by
    rintro i st b ⟨x, hx, hstate, hb⟩
    by_cases hi : i = j
    · subst hi
      exact ⟨f x, by rw [modJob_jobs, Table.get_modify_same, hx]; rfl, (hf x).1.trans hstate, (hf x).2.trans hb⟩
    · exact ⟨x, by rw [modJob_jobs, Table.get_modify_other _ _ hi, hx], hstate, hb⟩
  refine ⟨fun l => ⟨(h.queues l).1, fun i hi => ((h.queues l).2 i hi).congr ?_⟩, fun b => ?_⟩
  · rw [modJob_jobs, Table.get_modify_other _ _ fun e : i = j => h.not_queued hst l (e ▸ hi)]
  · have hb := h.bays b
    exact ⟨fun h0 => (hb.active h0).imp_right hat, hb.nodup, fun i hi => (hb.stack i hi).imp_right hat,
      fun h0 => (hb.preemptor h0).imp_right hat⟩

theorem Good.raiseTo3 (h : Good C {} s) (hx : Table.get s.scheduler.jobs j = some x) : Good C {} (raiseTo3 j x s) := by
  have hkept : JobKept fun x => { x with priority := 3 } := by intro; exact ⟨rfl, rfl, rfl⟩
  unfold Machine.raiseTo3
  cases hst : x.state with
  | queued =>
    have hfloat := floats_dequeue h.placed hx hst
    have hd := h.dequeue j
    have hxd : Table.get (Machine.dequeue j s).scheduler.jobs j = some x := by rw [dequeue_eq hx]; exact hx
    have hraised := hd.modJob hkept (fun _ _ => .inr rfl) (hd.placed.modJob hfloat _)
    refine hraised.queueTail ⟨hfloat.queues, hfloat.bays⟩ fun y hy => .inr ?_
    rw [modJob_jobs, Table.get_modify_same, hxd] at hy
    exact Option.some.inj hy ▸ by simp [Job.holds, hst]
  | active | parked | pending =>
    have hwait : NotWaiting s j := fun y hy => by
      obtain rfl := Option.some.inj (hx.symm.trans hy)
      simp [hst]
    exact Good.owePass (h.modJob hkept (fun _ _ => .inr rfl) (h.placed.modJob_standing hwait fun y => ⟨rfl, rfl⟩))

theorem Good.raiseJobTo3 (h : Good C {} s) (j : Nat) : Good C {} (raiseJobTo3 j s).state := by
  unfold Machine.raiseJobTo3
  split_ifs
  · exact h
  · split
    · exact h
    next x hx =>
      split_ifs
      · exact h
      · exact h
      · exact h.raiseTo3 hx

end Runs

/-! ## RESTART (R189) -/

section Restart

variable {C : Prop} {s t : State}

theorem Calm.picks (p : List Nat) (n : Nat) (s : State) : Calm s { s with assembly.picks := p, assembly.picksSent := n } :=
  ⟨rfl, rfl, rfl, rfl, rfl, rfl, rfl, rfl, fun _ => .refl _, rfl, rfl, rfl, rfl, rfl⟩

theorem Calm.rebuildPicks (s : State) : Calm s (rebuildPicks s) := .picks _ _ s

theorem Calm.handPick (ahead : Nat) (s : State) : Calm s (handPick ahead s) := by
  unfold Machine.handPick
  split
  · exact .refl s
  · split_ifs
    · exact (Calm.picks _ _ s).trans (.toFloor _ _)
    · exact .refl s

theorem Calm.handPicks (n : Nat) (s : State) : Calm s (handPicks n s) := by
  induction n generalizing s with
  | zero => exact .refl s
  | succ n ih => exact (Calm.handPick _ s).trans (ih _)

theorem Calm.pollRoles (s : State) : Calm s (pollRoles s) :=
  (((Calm.pollSet 0 s).trans (.joinPoll _ _)).trans (.joinPoll _ _)).trans (.joinPoll _ _)

theorem Calm.restartLine (s : State) : Calm s (restartLine s) := (Calm.line _ s).trans (.pollRoles _)

theorem Calm.abandonReturns (s : State) : Calm s (abandonReturns s) := .returns _ s

theorem Good.restartBlocks (h : Good C {} s) : Good C {} (restartBlocks s) := by
  have hbays : Good C {} (bayNumbers.foldl Machine.restartBay (Machine.rebuildPicks s)) :=
    Good.foldl (f := Machine.restartBay) (fun _ b hs => hs.restartBay b) _ ((Calm.rebuildPicks s).good h)
  exact (Calm.passDue false _).good ((Calm.restartLine _).good ((Calm.abandonReturns _).good hbays.cancelReleases))

theorem Good.resumeAfterRestart (h : Good C {} s) : Good C {} (resumeAfterRestart s) :=
  Good.passReleases ((Calm.handPicks _ _).good ((Calm.toFloor restartedFrame s).good h)) rfl

end Restart

end Sys2Proof.Machine
end

