-- ==== Sys2Proof/Proofs/CirculatingRecords.lean ====
section
/-! PROOFS. The loads and deletes of the Record Store keep the laws of circulation and the counts of R148 (R10 to R19). -/

namespace Sys2Proof.Machine

open Function (update)

section Tables

variable {α β : Type} {t : Table α} {d : β} {f : α → β} {k : Nat} {a : α}

/-- A record written with the value that stands. -/
theorem reads_put_same (h : f a = reads t d f k) : reads (Table.put t k a) d f = reads t d f := by
  rw [reads_put, h, Function.update_eq_self]

/-- A record deleted that reads as an absent one. -/
theorem reads_delete_same (h : reads t d f k = d) : reads (Table.delete t k) d f = reads t d f := by
  rw [reads_delete]
  exact Function.update_eq_self_iff.mpr h.symm

end Tables

/-! ## LOAD_PATRON (R10 to R14) -/

section Patrons

variable {C : Prop} {M : Amid} {s t : State} {n a b : Nat} {p new : Patron} {ps : Table Patron}

/-- The patron table alone is written, but for member counts. -/
theorem view_patronMoved : view M (patronMoved a b ps s) = view M { s with records.patrons := ps } := by
  unfold patronMoved changeMembers
  split_ifs <;> rfl

theorem patronMoved_kept : (patronMoved a b ps s).scheduler = s.scheduler ∧ accountAt (patronMoved a b ps s) = accountAt s ∧
    (patronMoved a b ps s).assembly = s.assembly := by
  unfold patronMoved changeMembers
  split_ifs <;> exact ⟨rfl, rfl, rfl⟩

/-- The patron table is written. -/
theorem Good.patronMoved {w : Circ} (h : Good C {} s) (hform : Table.wf s.records.patrons → Table.wf ps)
    (hview : view {} { s with records.patrons := ps } = w) (hlawful : Lawful w) (hcounted : C → Counted w (accountAt s)) :
    Good C {} (patronMoved a b ps s) := by
  obtain ⟨hsched, haccounts, -⟩ := patronMoved_kept (a := a) (b := b) (ps := ps) (s := s)
  refine h.record (fun ht => ?_) (view_patronMoved.trans hview) hlawful (fun hC => haccounts ▸ hcounted hC) hsched
    fun k hk => absurd hk List.not_mem_nil
  exact ((changeMembers_form a b s).trans (.patrons ps _ (by rw [changeMembers_patrons]; exact hform))).tables ht

/-- A patron whose charge is 0 has no consignment. -/
theorem Good.patron_idle (h : Good C {} s) (hp : Table.get s.records.patrons n = some p) (hcharge : p.charge = 0) :
    p.chain = [] ∧ p.openPack = 0 ∧ p.overdue = 0 ∧ ∀ k, (view {} s).present k = true → ((view {} s).shape k).patron ≠ n := by
  have hnone : ∀ k, (view {} s).present k = true → ((view {} s).shape k).patron ≠ n := fun k hk =>
    h.lawful.no_consignment (by rw [view_charge hp, hcharge]) hk
  refine ⟨?_, ?_, ?_, hnone⟩
  · refine List.eq_nil_iff_forall_not_mem.mpr fun k hk => ?_
    have hcarrier := ((h.lawful.chained n).2 k).mp (by rwa [view_chain hp])
    cases hc : Table.get s.assembly.cons k with
    | none => rw [view_carrier_absent hc] at hcarrier; cases hcarrier
    | some c =>
      have hcar : (view {} s).carrier k = carrierOf c := reads_some hc
      rw [hcarrier, carrierOf] at hcar
      split_ifs at hcar
      exact hnone k (view_present hc List.not_mem_nil) (by rw [view_shape hc List.not_mem_nil]; exact (Option.some.inj hcar).symm)
  · by_contra hopen
    obtain ⟨hst, hpatron⟩ := h.lawful.openPacks n (by rwa [view_openPack hp])
    exact hnone _ (h.lawful.present_of_stage hst) hpatron
  · have hmarks := h.lawful.marks n
    rw [view_overdue hp] at hmarks
    rw [hmarks]
    refine tally_zero fun k => if_neg ?_
    rintro ⟨hpatron, hmarked⟩
    exact hnone k (h.lawful.present_of_stage (h.lawful.markedPosted k hmarked).1) hpatron

theorem Good.deletePatron (h : Good C {} s) (n : Nat) : Good C {} (deletePatron n s).state := by
  cases hp : Table.get s.records.patrons n with
  | none => rw [deletePatron_absent hp]; exact h
  | some p =>
    cases hb : patronBusy p with
    | true => rw [deletePatron_busy hp hb]; exact h
    | false =>
      rw [deletePatron_idle hp hb]
      have hidle : ¬(0 < p.charge ∨ p.wish ≠ []) := fun e => by simp [(patronBusy_iff p).mpr e] at hb
      simp only [not_or, not_lt, Nat.le_zero, not_not] at hidle
      obtain ⟨hcharge, hwish⟩ := hidle
      obtain ⟨hchain, hopen, hoverdue, hnone⟩ := h.patron_idle hp hcharge
      have hview : view {} { s with records.patrons := Table.delete s.records.patrons n } = (view {} s).dropPatron n := by
        simp only [view, Circ.dropPatron, reads_delete_same ((reads_some hp).trans hcharge), reads_delete_same ((reads_some hp).trans hwish),
          reads_delete_same ((reads_some hp).trans hchain), reads_delete_same ((reads_some hp).trans hopen),
          reads_delete_same ((reads_some hp).trans hoverdue), reads_delete]
      exact h.patronMoved (Table.wf_delete _ n) hview (h.lawful.dropPatron hnone) fun hC => (h.counted hC).dropPatron n

/-- The patron is loaded over the record that stands, its dynamic fields kept (R11, R12). -/
theorem Good.patronLoaded (h : Good C {} s) (hpool : 1 ≤ n ∧ n ≤ s.management.geometry.p) (hcls : IsClass new.cartridgeClass)
    (hwish : new.wish = (view {} s).wish n) (hchain : new.chain = (view {} s).chain n) (hopen : new.openPack = (view {} s).openPack n)
    (hcharge : new.charge = (view {} s).charge n) (hoverdue : new.overdue = (view {} s).overdue n) :
    Good C {} (Machine.patronMoved a b (Table.put s.records.patrons n new) s) := by
  have hview : view {} { s with records.patrons := Table.put s.records.patrons n new } =
      (view {} s).setPatron n new.cartridgeClass := by
    simp only [view, Circ.setPatron, reads_put_same hwish, reads_put_same hchain, reads_put_same hopen, reads_put_same hcharge,
      reads_put_same hoverdue, reads_put]
  exact h.patronMoved (Table.wf_put _ n new) hview (h.lawful.setPatron hpool) fun hC => (h.counted hC).setPatron hcls

/-- What a LOAD_PATRON names. -/
structure FreshPatron (new : Patron) : Prop where
  cls : IsClass new.cartridgeClass
  wish : new.wish = []
  chain : new.chain = []
  openPack : new.openPack = 0
  charge : new.charge = 0
  overdue : new.overdue = 0

theorem patronFields_fresh {status cls level formats cartridge quota agency : Byte} {code : U24}
    (h : patronFields status cls level formats cartridge quota agency code = some new) : FreshPatron new := by
  unfold patronFields at h
  split at h
  · split_ifs at h with hbad
    obtain rfl := Option.some.inj h
    exact ⟨by simp only [IsClass]; omega, rfl, rfl, rfl, rfl, rfl⟩
  · cases h

theorem Good.writePatron (h : Good C {} s) (hpool : 1 ≤ n ∧ n ≤ s.management.geometry.p) (hnew : FreshPatron new) :
    Good C {} (writePatron n new s).state := by
  by_cases ha : new.agency = 0 ∨ (Table.get s.records.agencies new.agency).isSome
  · cases hp : Table.get s.records.patrons n with
    | none =>
      rw [writePatron_absent ha hp]
      exact h.patronLoaded hpool hnew.cls (hnew.wish.trans (reads_none hp).symm) (hnew.chain.trans (reads_none hp).symm)
        (hnew.openPack.trans (reads_none hp).symm) (hnew.charge.trans (reads_none hp).symm) (hnew.overdue.trans (reads_none hp).symm)
    | some old =>
      by_cases hc : old.cartridgeClass ≠ new.cartridgeClass ∧ patronBusy old = true
      · rw [writePatron_busy ha hp hc.1 hc.2]
        exact h
      · rw [writePatron_reload ha hp hc]
        have hloaded : Good C {} (Machine.patronMoved old.agency new.agency (Table.put s.records.patrons n (Patron.reloaded old new)) s) :=
          h.patronLoaded hpool hnew.cls (view_wish hp).symm (view_chain hp).symm (view_openPack hp).symm (view_charge hp).symm
            (view_overdue hp).symm
        simp only
        split_ifs
        · exact hloaded.headroom n
        · exact hloaded
  · simp only [not_or, Option.not_isSome_iff_eq_none] at ha
    rw [writePatron_agencyAbsent ha.1 ha.2]
    exact h

theorem Good.patronAnswer (h : Good C {} s) {new : Option Patron} (hnew : ∀ p, new = some p → FreshPatron p) (n : Nat) (present : Byte) :
    Good C {} (patronAnswer n present new s).state := by
  unfold Machine.patronAnswer
  split_ifs
  · exact h
  · exact h
  · split
    · exact h.deletePatron n
    · exact h.writePatron (by omega) (hnew _ rfl)
    · exact h

end Patrons

/-! ## LOAD_AGENCY (R15) -/

section Agencies

variable {C : Prop} {M : Amid} {s : State} {k : Nat}

theorem Good.agencies (h : Good C {} s) (as : Table Agency) (hform : Table.wf s.records.agencies → Table.wf as) :
    Good C {} { s with records.agencies := as } :=
  h.record (FormKept.agencies as s hform).tables rfl h.lawful h.counted rfl fun _ hk => absurd hk List.not_mem_nil

theorem Good.writeAgency (h : Good C {} s) (k code : Nat) : Good C {} (writeAgency k code s) := by
  unfold Machine.writeAgency
  split
  · exact h.agencies _ (Table.wf_put _ k _)
  · exact h.agencies _ (Table.wf_put _ k _)

theorem Good.deleteAgency (h : Good C {} s) (k : Nat) : Good C {} (deleteAgency k s).state := by
  unfold Machine.deleteAgency
  split
  · exact h
  · split_ifs
    · exact h
    · exact h.agencies _ (Table.wf_delete _ k)

end Agencies

/-! ## LOAD_TITLE (R16 to R19) -/

section Titles

variable {C : Prop} {M : Amid} {s t : State} {n m : Nat} {x old new : Title} {ts : Table Title}

/-- The title table is written. -/
theorem Good.withTitles {w : Circ} (h : Good C {} s) (hform : Table.wf s.records.titles → Table.wf ts)
    (hview : view {} (s.withTitles ts) = w) (hlawful : Lawful w) (hcounted : C → Counted w (accountAt s)) :
    Good C {} (s.withTitles ts) :=
  h.record (FormKept.titles ts s hform).tables hview hlawful hcounted rfl fun _ hk => absurd hk List.not_mem_nil

/-- What a LOAD_TITLE names. -/
structure FreshTitle (new : Title) : Prop where
  cls : new.format = .audio → new.policy = .shelf → IsClass new.shelfClass
  volumes : new.format = .braille → new.policy = .shelf ∧ 1 ≤ new.volumes
  waiting : new.waiting = []
  copies : new.copies = 0
  shelf : new.shelf = 0
  out : new.out = 0
  repair : new.repair = 0

theorem titleFields_fresh {format policy level availability : Byte} {extent : U16} {granularity shelfClass volumes : Byte}
    {weight : U16} (h : titleFields format policy level availability extent granularity shelfClass volumes weight = some new) :
    FreshTitle new := by
  unfold titleFields at h
  split at h
  · split at h
    · cases h
    next hbad =>
      obtain rfl := Option.some.inj h
      refine ⟨fun _ hpol => ?_, fun hf => by simp at hf, rfl, rfl, rfl, rfl, rfl⟩
      simp only at hpol
      simp only [hpol, if_true, true_and, IsClass] at hbad ⊢
      omega
  · split at h
    · cases h
    next hbad =>
      obtain rfl := Option.some.inj h
      exact ⟨fun hf => by simp at hf, fun _ => ⟨rfl, by simp only; omega⟩, rfl, rfl, rfl, rfl, rfl⟩
  · cases h

/-- The title is loaded over the record that stands, its list and accounts kept (R16). -/
theorem Good.titleLoaded (h : Good C {} s) (hpool : 1 ≤ m ∧ m ≤ s.management.geometry.t)
    (hwaiting : x.waiting = (view {} s).waiting m) (hcopies : x.copies = (view {} s).copies m)
    (hshelf : x.shelf = (view {} s).shelf m) (hout : x.out = (view {} s).out m) (hrepair : x.repair = (view {} s).repair m)
    (hkept : CopiesKept (titleShape x) x.copies x.shelf x.out x.repair)
    (hfits : ∀ k, m ∈ (view {} s).lines k → (titleShape x).fits ((view {} s).shape k).kind)
    (hcounted : C → Counted ((view {} s).setTitle m (titleShape x)) (accountAt s)) :
    Good C {} (s.withTitles (Table.put s.records.titles m x)) := by
  have hview : view {} (s.withTitles (Table.put s.records.titles m x)) = (view {} s).setTitle m (titleShape x) := by
    simp only [view, Circ.setTitle, State.withTitles, reads_put_same hwaiting, reads_put_same hcopies, reads_put_same hshelf,
      reads_put_same hout, reads_put_same hrepair, reads_put]
  exact h.withTitles (Table.wf_put _ m x) hview
    (h.lawful.setTitle hpool (by rwa [← hcopies, ← hshelf, ← hout, ← hrepair]) hfits) hcounted

theorem Good.newTitle (h : Good C {} s) (hpool : 1 ≤ m ∧ m ≤ s.management.geometry.t) (hx : Table.get s.records.titles m = none)
    (hnew : FreshTitle new) : Good C {} (s.withTitles (Table.put s.records.titles m new)) := by
  have hline : ∀ k, m ∉ (view {} s).lines k := fun k hm => by
    obtain ⟨y, hy, -⟩ := h.lawful.fitting k m hm
    exact absurd ((reads_none hx).symm.trans hy) (by simp)
  refine h.titleLoaded hpool (hnew.waiting.trans (reads_none hx).symm) (hnew.copies.trans (reads_none hx).symm)
    (hnew.shelf.trans (reads_none hx).symm) (hnew.out.trans (reads_none hx).symm) (hnew.repair.trans (reads_none hx).symm) ?_
    (fun k hm => absurd hm (hline k)) fun hC => ?_
  · rw [hnew.copies, hnew.shelf, hnew.out, hnew.repair]
    exact ⟨fun _ => rfl, fun _ => ⟨rfl, rfl, rfl⟩, hnew.volumes⟩
  · exact (h.counted hC).setTitle hpool.2 hnew.cls (.inr ⟨reads_none hx, reads_none hx⟩) fun k hm => absurd hm (hline k)

/-- What R17 lets a reload change. -/
theorem reload_allowed (hr : reloadRefused old new = false) :
    ((old.format = new.format ∧ old.policy = new.policy) ∨ old.out = 0 ∧ old.copies = 0) ∧
      (old.shelfClass = new.shelfClass ∨ old.copies = 0) := by
  unfold reloadRefused at hr
  simp only [decide_eq_false_iff_not, not_or, not_and, not_not, not_lt, Nat.le_zero] at hr
  obtain ⟨hshape, hcls, -⟩ := hr
  refine ⟨?_, ?_⟩
  · by_cases hf : old.format = new.format
    · by_cases hp : old.policy = new.policy
      · exact .inl ⟨hf, hp⟩
      · exact .inr (hshape (.inr hp)).2
    · exact .inr (hshape (.inl hf)).2
  · by_cases hc : old.shelfClass = new.shelfClass
    · exact .inl hc
    · exact .inr (hcls hc).2

theorem Good.reloadTitle (h : Good C {} s) (hx : Table.get s.records.titles m = some old) (hnew : FreshTitle new)
    (hr : reloadRefused old new = false) : Good C {} (s.withTitles (Table.put s.records.titles m (Title.reloaded old new))) := by
  obtain ⟨hshape, hcls⟩ := reload_allowed hr
  have hpool := h.lawful.titlePool m _ (view_title hx)
  obtain ⟨hshelf, hdemand, -⟩ := h.lawful.copied m _ (view_title hx)
  rw [view_shelf hx, view_out hx, view_repair hx, view_copies hx] at hshelf
  rw [view_copies hx, view_shelf hx, view_repair hx] at hdemand
  have hzero : old.copies = 0 → old.shelf = 0 ∧ old.repair = 0 := fun hc => by
    cases hp : old.policy with
    | shelf =>
      have := hshelf hp
      omega
    | onDemand => exact (hdemand hp).2
  have hnamed : ∀ k, m ∈ (view {} s).lines k → old.out ≠ 0 := fun k hm h0 =>
    h.lawful.not_named (by rw [view_out hx, h0]) k hm
  have hfit : ∀ k, m ∈ (view {} s).lines k → (titleShape old).fits ((view {} s).shape k).kind := fun k hm => by
    obtain ⟨y, hy, hfits⟩ := h.lawful.fitting k m hm
    rwa [Option.some.inj ((view_title hx).symm.trans hy)]
  have hsame : ∀ k, m ∈ (view {} s).lines k → old.format = new.format ∧ old.policy = new.policy := fun k hm =>
    hshape.resolve_right fun e => hnamed k hm e.1
  refine h.titleLoaded hpool (view_waiting hx).symm (view_copies hx).symm (view_shelf hx).symm (view_out hx).symm
    (view_repair hx).symm ⟨fun hp => ?_, fun hp => ?_, hnew.volumes⟩ (fun k hm => ?_) fun hC => ?_
  · rcases hshape with ⟨-, hpol⟩ | ⟨hout, hcopies⟩
    · exact hshelf (hpol.trans hp)
    · obtain ⟨h1, h2⟩ := hzero hcopies
      show old.shelf + old.out + old.repair = old.copies
      omega
  · rcases hshape with ⟨-, hpol⟩ | ⟨-, hcopies⟩
    · exact hdemand (hpol.trans hp)
    · exact ⟨hcopies, hzero hcopies⟩
  · obtain ⟨hf, hp⟩ := hsame k hm
    have := hfit k hm
    unfold TitleShape.fits titleShape at this ⊢
    simpa only [Title.reloaded, ← hf, ← hp] using this
  · have hcounted := h.counted hC
    refine hcounted.setTitle hpool.2 hnew.cls ?_ fun k hm hkind => ?_
    · rw [view_shelf hx, view_repair hx, view_title hx]
      by_cases hcopies : old.copies = 0
      · exact .inr (hzero hcopies)
      · obtain ⟨hf, hp⟩ := hshape.resolve_right fun e => hcopies e.2
        have hc := hcls.resolve_right hcopies
        exact .inl fun c => by simp [shelfAudioOf, titleShape, Title.reloaded, hf, hp, hc]
    · obtain ⟨hf, hp⟩ := hsame k hm
      have hpol : old.policy = .shelf := by
        have := hfit k hm
        rw [hkind] at this
        exact this.1
      have := hshelf hpol
      have hout := hnamed k hm
      have hc : old.shelfClass = new.shelfClass := hcls.resolve_right (by omega)
      exact hc.symm.trans (hcounted.classed.copy k hkind m hm _ (view_title hx))

theorem Good.writeTitle (h : Good C {} s) (hpool : 1 ≤ m ∧ m ≤ s.management.geometry.t) (hnew : FreshTitle new) :
    Good C {} (writeTitle m new s).state := by
  cases hx : Table.get s.records.titles m with
  | none => rw [writeTitle_absent hx]; exact h.newTitle hpool hx hnew
  | some old =>
    cases hr : reloadRefused old new with
    | true => rw [writeTitle_refused hx hr]; exact h
    | false => rw [writeTitle_reload hx hr]; exact (h.reloadTitle hx hnew hr).copiesFreed _ m

/-- The shelf cartridges of a deleted title return to blank (R19). -/
theorem Counted.dropTitle {v : Circ} {a a' : Nat → ClassAccount} {y : TitleShape} (h : Counted v a) (hl : Lawful v)
    (hy : v.title m = some y) (hrepair : v.repair m = 0)
    (ha : ∀ c, IsClass c → a' c = if shelfAudioOf (some y) c then ClassAccount.move .shelf .blank (v.shelf m) (a c) else a c) :
    Counted (v.dropTitle m) a' := by
  have hpool := (hl.titlePool m y hy).2
  refine ⟨fun c hc => ?_, h.classed.dropTitle m⟩
  obtain ⟨h1, h2, h3, h4⟩ := h.agrees c hc
  have hshelf := shelvedOf_dropTitle (v := v) hpool c
  have hbench := benchOf_dropTitle (v := v) hpool hrepair c
  have hheld : (v.dropTitle m).heldOf c = v.heldOf c := rfl
  have hconsigned : (v.dropTitle m).consignedOf c = v.consignedOf c := rfl
  rw [hy] at hshelf
  rw [ha c hc]
  by_cases hof : shelfAudioOf (some y) c = true
  · have hle := shelf_le_shelvedOf hl hy hof
    rw [if_pos hof] at hshelf ⊢
    rw [ClassAccount.move, if_pos (show v.shelf m ≤ (a c).count .shelf by rw [show (a c).count .shelf = (a c).shelf from rfl]; omega)]
    exact ⟨h1.trans hheld.symm, h2.trans hconsigned.symm, by
      change (a c).shelf - v.shelf m = _; omega, h4.trans hbench.symm⟩
  · rw [if_neg hof] at hshelf ⊢
    exact ⟨h1.trans hheld.symm, h2.trans hconsigned.symm, by omega, h4.trans hbench.symm⟩

theorem view_shelfToBlank (x : Title) (s : State) : view M (shelfToBlank x s) = view M s := by
  unfold shelfToBlank
  split_ifs <;> rfl

theorem shelfToBlank_scheduler (x : Title) (s : State) : (shelfToBlank x s).scheduler = s.scheduler := by
  unfold shelfToBlank
  split_ifs <;> rfl

theorem accountAt_shelfToBlank {c : Nat} (hc : IsClass c) (x : Title) (s : State) : accountAt (shelfToBlank x s) c =
    if shelfAudioOf (some (titleShape x)) c then ClassAccount.move .shelf .blank x.shelf (accountAt s c) else accountAt s c := by
  have hof : shelfAudioOf (some (titleShape x)) c = true ↔ x.format = .audio ∧ x.policy = .shelf ∧ x.shelfClass = c :=
    shelfAudioOf_some
  have hzero : ∀ a : ClassAccount, ClassAccount.move .shelf .blank 0 a = a := fun a => rfl
  unfold shelfToBlank
  by_cases hshelf : x.format = .audio ∧ x.policy = .shelf ∧ 0 < x.shelf
  · rw [if_pos hshelf]
    refine (accountAt_modAccount_class hc).trans (if_congr ?_ rfl rfl)
    rw [hof]
    exact ⟨fun e => ⟨hshelf.1, hshelf.2.1, e.symm⟩, fun e => e.2.2.symm⟩
  · rw [if_neg hshelf]
    split_ifs with h
    · obtain ⟨hf, hp, -⟩ := hof.mp h
      rw [show x.shelf = 0 by by_contra hne; exact hshelf ⟨hf, hp, Nat.pos_of_ne_zero hne⟩, hzero]
    · rfl

theorem Good.deleteTitle (h : Good C {} s) (m : Nat) : Good C {} (deleteTitle m s).state := by
  cases hx : Table.get s.records.titles m with
  | none => rw [deleteTitle_absent hx]; exact h
  | some x =>
    by_cases hb : x.waiting ≠ [] ∨ 0 < x.out ∨ 0 < x.repair
    · rw [deleteTitle_busy hx hb]; exact h
    · have hform := (deleteTitle_form m s).tables h.form
      rw [deleteTitle_idle hx hb] at hform ⊢
      simp only [not_or, not_not, not_lt, Nat.le_zero] at hb
      obtain ⟨hwaiting, hout, hrepair⟩ := hb
      have hview : view {} (shelfToBlank x (s.withTitles (Table.delete s.records.titles m))) = (view {} s).dropTitle m := by
        rw [view_shelfToBlank]
        simp only [view, Circ.dropTitle, State.withTitles, reads_delete_same ((reads_some hx).trans hwaiting),
          reads_delete_same ((reads_some hx).trans hout), reads_delete_same ((reads_some hx).trans hrepair), reads_delete]
      refine h.record (fun _ => hform) hview (h.lawful.dropTitle (by rw [view_out hx, hout])) (fun hC => ?_)
        (shelfToBlank_scheduler x _) fun _ hk => absurd hk List.not_mem_nil
      refine (h.counted hC).dropTitle h.lawful (view_title hx) (by rw [view_repair hx, hrepair]) fun c hc => ?_
      rw [view_shelf hx]
      exact accountAt_shelfToBlank hc x _

theorem Good.titleAnswer (h : Good C {} s) {new : Option Title} (hnew : ∀ x, new = some x → FreshTitle x) (m : Nat) (present : Byte) :
    Good C {} (titleAnswer m present new s).state := by
  unfold Machine.titleAnswer
  split_ifs
  · exact h
  · split
    · exact h.deleteTitle m
    · exact h.writeTitle (by omega) (hnew _ rfl)
    · exact h

end Titles

end Sys2Proof.Machine
end

