-- ==== Sys2Proof/Proofs/CirculatingStock.lean ====
section
/-! PROOFS. The adjustments of Stock Accounts keep the laws of circulation and the counts of R148 (R153 to R157). -/

namespace Sys2Proof.Machine

section Stock

variable {C : Prop} {M : Amid} {s t : State} {n m cls : Nat} {x : Title}

/-! ## Accounts alone -/

/-- What R148's agreement reads of an account. -/
def ClassAccount.told (a : ClassAccount) : Nat × Nat × Nat × Nat := (a.reserved, a.consigned, a.shelf, a.bound)

theorem AccountAgrees.told {v : Circ} {c : Nat} {a a' : ClassAccount} (h : AccountAgrees v c a) (ha : a'.told = a.told) :
    AccountAgrees v c a' := by
  simp only [ClassAccount.told, Prod.mk.injEq] at ha
  obtain ⟨h1, h2, h3, h4⟩ := ha
  exact ⟨h1.trans h.reserved, h2.trans h.consigned, h3.trans h.shelf, h4.trans h.bench⟩

/-- Cartridges enter or leave the blanks and the repair bench. -/
theorem Good.modAccount (h : Good C M s) {f : ClassAccount → ClassAccount} (hf : ∀ a, (f a).told = a.told) (cls : Nat) :
    Good C M (modAccount cls f s) where
  form := h.form
  lawful := h.lawful
  counted hC := by
    refine ⟨fun c hc => ((h.counted hC).agrees c hc).told ?_, (h.counted hC).classed⟩
    rw [accountAt_modAccount_class hc]
    split_ifs
    · exact hf _
    · rfl
  placed := h.placed.congr (fun _ => rfl) (fun _ => .refl _) fun _ => rfl
  hides := ⟨h.hides.cons, h.hides.ended⟩

/-- STOCK_ADD (R154). -/
theorem Good.addStock (h : Good C {} s) (cls n : Nat) : Good C {} (addStock cls n s).state := by
  unfold Machine.addStock
  split_ifs
  · exact h
  · exact (Good.owePass (h.modAccount (f := ClassAccount.add .blank n) (fun _ => rfl) cls)).settle

/-! ## The copies of a title -/

theorem repair_le_benchOf {v : Circ} {y : TitleShape} {c : Nat} (hl : Lawful v) (hy : v.title m = some y)
    (hc : shelfAudioOf (some y) c = true) : v.repair m ≤ v.benchOf c := by
  have := le_tally (f := fun m => if shelfAudioOf (v.title m) c then v.repair m else 0) (hl.titlePool m y hy).2
  simpa only [Circ.benchOf, hy, hc, if_true] using this

/-- The copies of a title move between its counts, and its cartridges with them. -/
theorem Counted.restockTo {v : Circ} {a a' : Nat → ClassAccount} {copies shelf repair : Nat} {y : TitleShape} (h : Counted v a)
    (hl : Lawful v) (hy : v.title m = some y) (hbench : v.setup = true → repair = 0)
    (hother : ∀ c, IsClass c → shelfAudioOf (some y) c = false → (a' c).told = (a c).told)
    (hown : ∀ c, IsClass c → shelfAudioOf (some y) c = true → (a' c).reserved = (a c).reserved ∧
      (a' c).consigned = (a c).consigned ∧ (a' c).shelf + v.shelf m = (a c).shelf + shelf ∧
      (a' c).bound + v.repair m = (a c).bound + repair) : Counted (v.restock m copies shelf repair) a' := by
  refine ⟨fun c hc => ?_, h.classed.restock hbench⟩
  have hagrees := h.agrees c hc
  have hshelf := shelvedOf_restock hl (copies := copies) (shelf := shelf) (repair := repair) hy c
  have hrepair := benchOf_restock hl (copies := copies) (shelf := shelf) (repair := repair) hy c
  cases hof : shelfAudioOf (some y) c with
  | false =>
    rw [hof] at hshelf hrepair
    obtain ⟨h1, h2, h3, h4⟩ := hagrees.told (hother c hc hof)
    exact ⟨h1, h2, h3.trans hshelf.symm, h4.trans hrepair.symm⟩
  | true =>
    obtain ⟨h1, h2, h3, h4⟩ := hagrees
    obtain ⟨e1, e2, e3, e4⟩ := hown c hc hof
    rw [hof, if_pos rfl, if_pos rfl] at hshelf hrepair
    exact ⟨e1.trans h1, e2.trans h2, by omega, by omega⟩

/-- The copies of a title change, and its cartridges with them. -/
theorem Good.titleAndClass (h : Good C {} s) (hx : Table.get s.records.titles m = some x) (hpol : x.policy = .shelf)
    {f : Title → Title} {g : ClassAccount → ClassAccount}
    (hf : ∀ y, titleShape (f y) = titleShape y ∧ (f y).waiting = y.waiting ∧ (f y).out = y.out)
    (hkept : (f x).shelf + x.out + (f x).repair = (f x).copies) (hbench : x.repair = 0 → (f x).repair = 0)
    (hg : C → x.format = .audio → (g (accountAt s x.shelfClass)).reserved = (accountAt s x.shelfClass).reserved ∧
      (g (accountAt s x.shelfClass)).consigned = (accountAt s x.shelfClass).consigned ∧
      (g (accountAt s x.shelfClass)).shelf + x.shelf = (accountAt s x.shelfClass).shelf + (f x).shelf ∧
      (g (accountAt s x.shelfClass)).bound + x.repair = (accountAt s x.shelfClass).bound + (f x).repair) :
    Good C {} (Machine.titleAndClass m x f g s) := by
  have hview : view {} (Machine.titleAndClass m x f g s) = (view {} s).restock m (f x).copies (f x).shelf (f x).repair := by
    have hmod : view {} (modTitle m f s) = (view {} s).restock m (f x).copies (f x).shelf (f x).repair := by
      simp [view, Circ.restock, hf]
      exact ⟨reads_modify_some hx, reads_modify_some hx, reads_modify_some hx⟩
    unfold Machine.titleAndClass
    split_ifs
    · exact hmod
    · exact hmod
  have hof : ∀ c, shelfAudioOf (some (titleShape x)) c = true ↔ x.format = .audio ∧ c = x.shelfClass := fun c => by
    rw [shelfAudioOf_some]
    exact ⟨fun e => ⟨e.1, e.2.2.symm⟩, fun e => ⟨e.1, hpol, e.2.symm⟩⟩
  have hat : ∀ c, IsClass c → accountAt (Machine.titleAndClass m x f g s) c =
      if shelfAudioOf (some (titleShape x)) c then g (accountAt s c) else accountAt s c := fun c hc => by
    unfold Machine.titleAndClass
    by_cases hfmt : x.format = .audio
    · rw [if_pos hfmt, accountAt_modAccount_class hc]
      exact if_congr ⟨fun e => (hof c).mpr ⟨hfmt, e⟩, fun e => ((hof c).mp e).2⟩ rfl rfl
    · rw [if_neg hfmt, if_neg fun e => hfmt ((hof c).mp e).1]
      rfl
  refine h.record (fun ht => ?_) hview (h.lawful.restock fun y hy => ?_) (fun hC => ?_) ?_ fun _ hk => absurd hk List.not_mem_nil
  · have := (OrderChange.modTitle m f s).work.tables ht
    unfold Machine.titleAndClass
    split_ifs
    · exact this
    · exact this
  · obtain rfl := Option.some.inj ((view_title (M := {}) hx).symm.trans hy)
    rw [view_out hx]
    exact ⟨fun _ => hkept, fun hp => absurd (hpol.symm.trans hp) (by simp), (h.lawful.copied m _ (view_title hx)).2.2⟩
  · have hcounted := h.counted hC
    refine hcounted.restockTo h.lawful (view_title hx)
      (fun hs => hbench ((view_repair (M := {}) hx).symm.trans (hcounted.classed.bench hs m))) (fun c hc hno => ?_) fun c hc hyes => ?_
    · rw [hat c hc, if_neg (by simp [hno])]
    · obtain ⟨hfmt, rfl⟩ := (hof c).mp hyes
      rw [hat _ hc, if_pos hyes, view_shelf hx, view_repair hx]
      exact hg hC hfmt
  · unfold Machine.titleAndClass
    split_ifs <;> rfl

theorem shelfTitle_ok (h : shelfTitle s m = .ok x) : Table.get s.records.titles m = some x ∧ x.policy = .shelf := by
  unfold shelfTitle at h
  split_ifs at h
  split at h
  · cases h
  next y hy =>
    split_ifs at h with hpol
    cases h
    refine ⟨hy, ?_⟩
    cases hp : x.policy with
    | shelf => rfl
    | onDemand => exact absurd hp hpol

theorem benchChecks_ok (h : benchChecks s cls n m = .ok (.title x)) :
    Table.get s.records.titles m = some x ∧ x.policy = .shelf ∧ n ≤ x.repair := by
  unfold benchChecks at h
  split_ifs at h
  · cases h
  split at h
  · cases h
  next y hy =>
    split_ifs at h with _ hrepair
    cases h
    obtain ⟨hx, hpol⟩ := shelfTitle_ok hy
    exact ⟨hx, hpol, Nat.le_of_not_lt hrepair⟩

/-- STOCK_ADD_TITLE (R155). -/
theorem Good.addTitleStock (h : Good C {} s) (m n : Nat) : Good C {} (addTitleStock m n s).state := by
  by_cases hn : n = 0
  · rw [Machine.addTitleStock, if_pos hn]
    exact h
  · cases hx : shelfTitle s m with
    | error c => rw [addTitleStock_refused hn hx]; exact h
    | ok x =>
      rw [addTitleStock_shelf hn hx]
      split_ifs
      · exact h
      · obtain ⟨hx, hpol⟩ := shelfTitle_ok hx
        have hkept := (h.lawful.copied m _ (view_title hx)).1 hpol
        rw [view_shelf hx, view_out hx, view_repair hx, view_copies hx] at hkept
        rw [addCopies_eq]
        refine Good.copiesFreed (h.titleAndClass hx hpol ?_ ?_ id fun _ _ => ⟨rfl, rfl, ?_, rfl⟩) n m
        · exact fun y => ⟨rfl, rfl, rfl⟩
        · change x.shelf + n + x.out + x.repair = x.copies + n
          omega
        · change (accountAt s x.shelfClass).shelf + n + x.shelf = (accountAt s x.shelfClass).shelf + (x.shelf + n)
          omega

/-- The title-bound cartridges on the bench are at least those of one title, and part of repair (R148). -/
theorem Good.bound_le (h : Good C {} s) (hbal : C → AccountsBalanced s) (hC : C) (hx : Table.get s.records.titles m = some x)
    (hpol : x.policy = .shelf) (hfmt : x.format = .audio) (hn : n ≤ x.repair) :
    n ≤ (accountAt s x.shelfClass).bound ∧ (accountAt s x.shelfClass).bound ≤ (accountAt s x.shelfClass).repair := by
  have hcounted := h.counted hC
  have hcls : IsClass x.shelfClass := hcounted.classed.title m _ (view_title hx) hfmt hpol
  have hbench := repair_le_benchOf (c := x.shelfClass) h.lawful (view_title hx) (shelfAudioOf_some.mpr ⟨hfmt, hpol, rfl⟩)
  rw [view_repair hx] at hbench
  have hagrees := (hcounted.agrees _ hcls).bench
  obtain ⟨h1, h4⟩ := hcls
  have hbalanced := (hbal hC (x.shelfClass - 1) (by omega)).2
  rw [show x.shelfClass - 1 + 1 = x.shelfClass by omega] at hbalanced
  exact ⟨by omega, hbalanced⟩

theorem ClassAccount.told_writeOff_repair (n : Nat) (a : ClassAccount) : (ClassAccount.writeOff .repair n a).told = a.told := by
  unfold ClassAccount.writeOff
  split_ifs <;> rfl

theorem ClassAccount.told_mended (n : Nat) (a : ClassAccount) : (ClassAccount.move .repair .blank n a).told = a.told := by
  unfold ClassAccount.move
  split_ifs <;> rfl

/-- REPAIRED (R156). -/
theorem Good.repairItems (h : Good C {} s) (hbal : C → AccountsBalanced s) (cls n m : Nat) :
    Good C {} (repairItems cls n m s).state := by
  cases hb : benchChecks s cls n m with
  | error c => rw [repairItems_refused hb]; exact h
  | ok bench =>
    cases bench with
    | unbound =>
      rw [repairItems_unbound hb]
      exact Good.owePass (h.modAccount (ClassAccount.told_mended n) cls)
    | title x =>
      obtain ⟨hx, hpol, hn⟩ := benchChecks_ok hb
      have hkept := (h.lawful.copied m _ (view_title hx)).1 hpol
      rw [view_shelf hx, view_out hx, view_repair hx, view_copies hx] at hkept
      rw [repairItems_title hb, mendCopies_eq]
      refine Good.copiesFreed (h.titleAndClass hx hpol ?_ ?_ ?_ fun hC hfmt => ?_) n m
      · exact fun y => ⟨rfl, rfl, rfl⟩
      · change x.shelf + n + x.out + (x.repair - n) = x.copies
        omega
      · intro h0
        change x.repair - n = 0
        omega
      · obtain ⟨hle, hbound⟩ := h.bound_le hbal hC hx hpol hfmt hn
        rw [ClassAccount.boundToShelf_eq hle hbound]
        refine ⟨rfl, rfl, ?_, ?_⟩
        · change (accountAt s x.shelfClass).shelf + n + x.shelf = (accountAt s x.shelfClass).shelf + (x.shelf + n)
          omega
        · change (accountAt s x.shelfClass).bound - n + x.repair = (accountAt s x.shelfClass).bound + (x.repair - n)
          omega

/-- RETIRE_REPAIR (R157). -/
theorem Good.retireItems (h : Good C {} s) (hbal : C → AccountsBalanced s) (cls n m : Nat) :
    Good C {} (retireItems cls n m s).state := by
  cases hb : benchChecks s cls n m with
  | error c => rw [retireItems_refused hb]; exact h
  | ok bench =>
    cases bench with
    | unbound =>
      rw [retireItems_unbound hb]
      exact h.modAccount (ClassAccount.told_writeOff_repair n) cls
    | title x =>
      obtain ⟨hx, hpol, hn⟩ := benchChecks_ok hb
      have hkept := (h.lawful.copied m _ (view_title hx)).1 hpol
      rw [view_shelf hx, view_out hx, view_repair hx, view_copies hx] at hkept
      rw [retireItems_title hb, retireCopies_eq]
      refine h.titleAndClass hx hpol ?_ ?_ ?_ fun hC hfmt => ?_
      · exact fun y => ⟨rfl, rfl, rfl⟩
      · change x.shelf + x.out + (x.repair - n) = x.copies - n
        omega
      · intro h0
        change x.repair - n = 0
        omega
      · obtain ⟨hle, hbound⟩ := h.bound_le hbal hC hx hpol hfmt hn
        rw [ClassAccount.retireBound_eq hle hbound]
        refine ⟨rfl, rfl, rfl, ?_⟩
        change (accountAt s x.shelfClass).bound - n + x.repair = (accountAt s x.shelfClass).bound + (x.repair - n)
        omega

end Stock

end Sys2Proof.Machine
end

