-- ==== Sys2Proof/Proofs/CirculatingManagement.lean ====
section
/-! PROOFS. Resets, the geometry, the opening for service, the settings and the supervisor's requests to dispatch and assembly
keep the laws of circulation and the counts of R148 (R59, R102, R116, R119, R174, R178 to R188). -/

namespace Sys2Proof.Machine

/-! ## Where nothing circulates (R179, R188) -/

section Empty

variable {C : Prop} {s t : State} {g : Geometry}

/-- The circulation of a part in SETUP whose tables are empty. -/
def Circ.empty (g : Geometry) : Circ where
  geo := g
  setup := true
  turning := 0
  member _ := false
  patronCls _ := 0
  wish _ := []
  chain _ := []
  openPack _ := 0
  charge _ := 0
  overdue _ := 0
  title _ := none
  waiting _ := []
  copies _ := 0
  shelf _ := 0
  out _ := 0
  repair _ := 0
  claim _ := none
  present _ := false
  stage _ := none
  shape _ := .free
  lines _ := []
  opened _ := true
  marked _ := false
  back _ := 0
  headBack _ := false
  jobOf _ := 0
  carrier _ := none
  sealed := []
  ready := []
  released := []
  jobCls _ := none
  pack _ := none
  holds _ := false

theorem Circ.empty_lists {owner : Nat → Option Nat} (h : ∀ r, owner r = none) : Lists (fun _ => []) owner := fun n =>
  ⟨List.nodup_nil, fun r => by simp [h r]⟩

theorem Lawful.empty (g : Geometry) : Lawful (Circ.empty g) where
  memberPool _ h := by cases h
  titlePool _ _ h := by cases h
  claimPool _ _ h := by cases h
  consPool _ h := by cases h
  jobPool _ _ h := by cases h
  present _ := rfl
  wished := Circ.empty_lists fun _ => rfl
  waited := Circ.empty_lists fun _ => rfl
  once _ _ := by
    have hlive : ∀ n m, (Circ.empty g).live n m = 0 := fun n m => tally_zero fun _ => if_neg (by simp [Circ.empty])
    have hopen : ∀ n m, (Circ.empty g).openOf n m = 0 := fun n m => tally_zero fun _ => ite_self 0
    rw [hlive, hopen]
    omega
  charged _ := (tally_zero fun _ => ite_self 0).symm
  marks _ := (tally_zero fun _ => by simp [Circ.empty]).symm
  chained := Circ.empty_lists fun _ => rfl
  lent _ := (tally_zero fun _ => by simp [Circ.empty]).symm
  copied _ _ h := by cases h
  blank _ _ := ⟨rfl, rfl, rfl, rfl⟩
  opened _ := rfl
  owned _ h := by cases h
  staged _ _ h := by cases h
  fitting _ _ h := by cases h
  carrying _ h := by cases h
  single _ h := by cases h
  markedPosted _ h := by cases h
  openPacks _ h := absurd rfl h
  assembling _ h := by cases h
  sealedList := ⟨List.nodup_nil, fun _ => by simp [Circ.empty]⟩
  full h := absurd rfl h
  duplicating _ h := by cases h
  packing _ _ h := by cases h
  holding _ h := by cases h
  heads _ h := by cases h
  together _ h := by cases h
  whole _ h := by cases h.1
  headPosted _ _ h := by cases h
  readyQueue := ⟨List.nodup_nil, fun _ => by simp [Circ.empty]⟩
  releases := ⟨List.nodup_nil, fun _ => by simp [Circ.empty]⟩
  emptySetup _ := ⟨fun _ => rfl, fun _ => rfl, fun _ => rfl⟩

theorem Classed.empty (g : Geometry) : Classed (Circ.empty g) where
  patron _ h := by cases h
  title _ _ h := by cases h
  job _ _ h := by cases h
  pack _ _ h := by cases h
  cons _ h := by cases h
  copy _ _ _ h := by cases h
  bench _ _ := rfl

theorem Counted.empty {a : Nat → ClassAccount} (ha : ∀ c, IsClass c → (a c).told = (0, 0, 0, 0)) : Counted (Circ.empty g) a where
  agrees c hc := by
    have hzero := ha c hc
    simp only [ClassAccount.told, Prod.mk.injEq] at hzero
    obtain ⟨h1, h2, h3, h4⟩ := hzero
    exact ⟨h1.trans (tally_zero fun _ => by simp [Circ.empty]).symm, h2.trans (tally_zero fun _ => by simp [Circ.empty, consigns, ConsShape.free]).symm,
      h3.trans (tally_zero fun _ => ite_self 0).symm, h4.trans (tally_zero fun _ => ite_self 0).symm⟩
  classed := .empty g

/-- Bays without a job, and empty queues. -/
theorem Placed.empty (hqueues : ∀ l, queueAt s l = []) (hbays : ∀ b, (bayAt s b).active = 0 ∧ (bayAt s b).stack = [] ∧ (bayAt s b).preemptor = 0) :
    Placed [] s where
  queues l := by
    rw [hqueues l]
    exact ⟨List.nodup_nil, fun j hj => absurd hj List.not_mem_nil⟩
  bays b := .none (hbays b).1 (hbays b).2.1 (hbays b).2.2

/-- A full reset (R188). -/
theorem Good.fullReset (s : State) : Good C {} (fullReset s) where
  form := reset_tablesCanonical
  lawful := Lawful.empty {}
  counted _ := .empty fun c _ => by
    rw [show accountAt (Machine.fullReset s) c = {} from bankGet_replicate 4 c ({} : ClassAccount)]
    rfl
  placed := .empty (fun l => bankGet_replicate 4 (l + 1) []) fun b => by
    rw [show bayAt (Machine.fullReset s) b = {} from bankGet_replicate 24 b ({} : Bay)]
    exact ⟨rfl, rfl, rfl⟩
  hides := ⟨fun k hk => absurd hk List.not_mem_nil, fun j hj => absurd hj List.not_mem_nil⟩

/-- SET_GEOMETRY (R179). -/
theorem Good.takeGeometry (h : Good C {} s) (hsetup : s.management.mode = .setup) (g : Geometry) :
    Good C {} (takeGeometry g s) := by
  have hset : (view {} s).setup = true := by simp [view, hsetup, Mode.isSetup]
  obtain ⟨-, hcons, hjobs⟩ := h.lawful.emptySetup hset
  have hnojob : ∀ j st b, ¬JobAt s j st b := by
    rintro j st b ⟨x, hx, -⟩
    exact absurd ((view_jobCls hx).symm.trans (hjobs j)) (by simp)
  have hview : view {} (Machine.takeGeometry g s) = Circ.empty g := by
    simp only [view, Machine.takeGeometry, hsetup]
    rfl
  have hheld : ∀ c, (view {} s).heldOf c = 0 := fun c => tally_zero fun j => if_neg fun e => by
    rw [hjobs j] at e
    cases e.2
  have hconsigned : ∀ c, (view {} s).consignedOf c = 0 := fun c => tally_zero fun k => if_neg fun e => by
    rw [h.lawful.stage_of_absent (hcons k)] at e
    have := e.1
    cases hk : ((view {} s).shape k).kind <;> simp [consigns, hk] at this
  exact
    { form := (takeGeometry_form g s).tables h.form
      lawful := hview ▸ Lawful.empty g
      counted := fun hC => hview ▸ .empty fun c hc => by
        obtain ⟨h1, h2, -, h4⟩ := (h.counted hC).agrees c hc
        have hbench : (view {} s).benchOf c = 0 := tally_zero fun m => by
          rw [(h.counted hC).classed.bench hset m, ite_self]
        have hat : accountAt (Machine.takeGeometry g s) c = ClassAccount.shelfToBlank (accountAt s c) :=
          bankGet_map s.accounts ClassAccount.shelfToBlank c {} rfl
        rw [hat]
        simp only [ClassAccount.told, ClassAccount.shelfToBlank, h1, h2, h4, hheld, hconsigned, hbench]
      placed := .empty (fun l => bankGet_replicate 4 (l + 1) []) fun b => by
        obtain ⟨hactive, -, hstack, hpre⟩ := h.placed.bays b
        have hnone : ∀ {j st}, ¬(j ∈ [] ∨ JobAt s j st b) := fun e => e.elim List.not_mem_nil (hnojob _ _ _)
        exact ⟨by_contra fun h0 => hnone (hactive h0), List.eq_nil_iff_forall_not_mem.mpr fun j hj => hnone (hstack j hj),
          by_contra fun h0 => hnone (hpre h0)⟩
      hides := ⟨fun k hk => absurd hk List.not_mem_nil, fun j hj => absurd hj List.not_mem_nil⟩ }

end Empty

/-! ## Opening for service and the settings (R174, R182, R184 to R186) -/

section Settings

variable {C : Prop} {M : Amid} {s t : State}

theorem Good.openPart (h : Good C {} s) : Good C {} (openPart s).state := by
  have hserved : Good C {} { s with management.mode := .service } :=
    { form := h.form
      lawful := h.lawful.serve
      counted := fun hC => (h.counted hC).serve
      placed := h.placed.congr (fun _ => rfl) (fun _ => .refl _) fun _ => rfl
      hides := ⟨h.hides.cons, h.hides.ended⟩ }
  unfold Machine.openPart
  simp only
  split
  · exact h
  split
  · exact h
  split
  · exact h
  · exact (Calm.pollRoles _).good hserved

theorem Calm.modSettings (f : Settings → Settings) (s : State) : Calm s (modSettings f s) := .management _ s rfl rfl

theorem Good.writeHoldLimit (h : Good C {} s) (v : Nat) : Good C {} (writeHoldLimit v s) := by
  unfold Machine.writeHoldLimit
  split_ifs
  · exact h
  · exact Good.foldl (f := fun s k => Machine.evaluateHeld k s) (fun _ k hs => hs.evaluateHeld k) _
      ((Calm.modSettings _ s).good h)

/-- A station role is written (R186). -/
theorem Good.changeRole (h : Good C {} s) {act : State → State} (hact : ∀ {v}, Good C {} v → Good C {} (act v)) (old new : Nat)
    (f : Settings → Settings) : Good C {} (changeRole old new (modSettings f) act s) := by
  unfold Machine.changeRole
  split_ifs
  · exact h
  · split
    · exact (Calm.modSettings f s).good h
    · exact hact ((Calm.joinPoll _ _).good ((Calm.leavePoll _ _).good ((Calm.modSettings f s).good h)))

theorem Good.writeSetting (h : Good C {} s) (w : SettingWrite) (v : Nat) : Good C {} (writeSetting w v s).state := by
  unfold Machine.writeSetting
  simp only
  split
  · exact (Calm.modSettings _ s).good h
  · exact h.writeHoldLimit _
  · split_ifs
    · exact h
    · exact h.changeRole (fun hv => (Calm.handPicks _ _).good ((Calm.rebuildPicks _).good hv)) _ _ _
  · split_ifs
    · exact h
    · exact h.changeRole (fun hv => hv.cancelReleases.passReleases rfl) _ _ _
  · split_ifs
    · exact h
    · exact h.changeRole (fun hv => (Calm.startInspection _).good ((Calm.abandonReturns _).good hv)) _ _ _

end Settings

/-! ## The supervisor's requests to dispatch and assembly (R59, R116) -/

section Requests

variable {C : Prop} {s t : State}

theorem Calm.filling (b : Bool) (s : State) : Calm s { s with dispatch.filling := b } :=
  ⟨rfl, rfl, rfl, rfl, rfl, rfl, rfl, rfl, fun _ => .refl _, rfl, rfl, rfl, rfl, rfl⟩

theorem Good.releaseHalf (h : Good C {} s) (b : Bool) : Good C {} (releaseHalf b s).state := by
  unfold Machine.releaseHalf
  split_ifs
  · exact h
  · exact h
  · exact ((Calm.setHalf b [] s).good h).passReleases rfl
  · exact (((Calm.setHalf b [] s).trans (.filling b _)).good h |>.latch _ _).passReleases rfl

theorem Good.flushPacks (h : Good C {} s) (n : Nat) : Good C {} (flushPacks n s).state := by
  unfold Machine.flushPacks
  split_ifs
  · exact Good.foldl (f := fun s k => Machine.sealPack k s) (fun _ k hs => hs.sealPack List.not_mem_nil) _ h
  · exact h
  · split
    · exact h
    · split_ifs
      · exact h
      · exact h.sealPack List.not_mem_nil

end Requests

end Sys2Proof.Machine
end

