-- ==== Sys2Proof/Proofs/CirculatingLine.lean ====
section
/-! PROOFS. The ports, the floor's reply turns, the returns' queue and the seconds count touch neither the circulation nor the
places of the jobs. -/

namespace Sys2Proof.Machine

section Line

variable {s t : State}

/-! ## The ports -/

theorem Calm.notices (n : Vector NoticeCell 12) (s : State) : Calm s { s with management.notices := n } :=
  .management _ s rfl rfl

theorem Calm.recordFault (p : Port) (c : Byte) (s : State) : Calm s (recordFault p c s) := by
  cases p with
  | office => exact (Calm.line { s.line with officeFaults := s.line.officeFaults ||| c } s).trans (.latch _ _ _)
  | floor => exact (Calm.line { s.line with floorFaults := s.line.floorFaults ||| c } s).trans (.latch _ _ _)

theorem Calm.setMissed (k n : Nat) (s : State) : Calm s (setMissed k n s) := .line _ s

theorem Calm.countMiss (k : Nat) (s : State) : Calm s (countMiss k s) := by
  unfold Machine.countMiss
  split_ifs
  · exact (Calm.setMissed k 0 s).trans (.latch _ _ _)
  · exact .setMissed k _ s

theorem Calm.endTurn (s : State) : Calm s (endTurn s) := .line _ s

theorem Calm.endReception (s : State) : Calm s (endReception s) := .line _ s

theorem Calm.strayFrame (s : State) : Calm s (strayFrame s) := by
  unfold Machine.strayFrame
  split
  · exact ((Calm.endReception s).trans (.endTurn _)).trans (.countMiss _ _)
  · exact .endReception s
  · exact .endReception s

theorem Calm.badSourceFrame (s : State) : Calm s (badSourceFrame s) := (Calm.recordFault .floor _ s).trans (.strayFrame _)

theorem Calm.answered {k : Nat} (h : answered k s = some t) : Calm s t := by
  unfold Machine.answered at h
  split at h
  · split_ifs at h
    cases h
    exact ((Calm.endReception s).trans (.endTurn _)).trans (.setMissed _ _ _)
  · split_ifs at h
    cases h
    exact .endReception s
  · cases h

theorem Calm.faultInTurn (c : Byte) (s : State) : Calm s (faultInTurn c s) := by
  unfold Machine.faultInTurn
  split
  · split_ifs
    · exact ((Calm.endReception s).trans (.endTurn _)).trans (.setMissed _ _ _)
    · exact ((Calm.endReception s).trans (.line _ _)).trans (.setMissed _ _ _)
  · exact .endReception s
  · exact .endReception s

theorem Calm.joinOffice (f : Frame) (s : State) : Calm s (joinOffice f s) := by
  unfold Machine.joinOffice
  split_ifs
  · exact .line _ s
  · exact .line _ s
  · exact .recordFault .office _ s

theorem Calm.receiveFrames (n : Nat) (run : List Chr) (s : State) : Calm s (receiveFrames n run s) := by
  induction n generalizing run s with
  | zero =>
    unfold Machine.receiveFrames
    exact .line _ s
  | succ n ih =>
    unfold Machine.receiveFrames
    cases receiveAt .office run with
    | incomplete => exact .line _ s
    | frame f => exact (Calm.joinOffice f s).trans (ih _ _)
    | fault c => exact ((Calm.line { s.line with officeLost := false } s).trans (.recordFault .office c _)).trans (ih _ _)

theorem Calm.cutOfficeFrame (s : State) : Calm s (cutOfficeFrame s) := by
  unfold Machine.cutOfficeFrame
  split_ifs
  · exact .refl s
  · exact (Calm.line { s.line with officeIn := [], officeLost := false } s).trans (.recordFault .office _ _)

theorem Calm.discardOffice (run : List Chr) (s : State) : Calm s (discardOffice run s) := by
  unfold Machine.discardOffice
  split
  · exact .receiveFrames _ run s
  · exact .receiveFrames _ run s
  · exact .refl s

theorem Calm.floorFault (run : List Chr) (c : Byte) (s : State) : Calm s (floorFault run c s) := by
  have hfault := (Calm.recordFault .floor c s).trans (.faultInTurn c _)
  unfold Machine.floorFault
  split
  · exact .badSourceFrame s
  · exact hfault
  · exact hfault

theorem Calm.discardFloor (run : List Chr) (s : State) : Calm s (discardFloor run s) := by
  unfold Machine.discardFloor
  split
  · exact (Calm.floorFault run _ s).trans (.line _ _)
  · exact .line _ s
  · exact .refl s

theorem Calm.discardAt (p : Port) (cs : List Chr) (s : State) : Calm s (discardAt p cs s) := by
  cases p with
  | office => exact .discardOffice _ s
  | floor => exact .discardFloor _ s

/-! ## Frames that a port takes -/

theorem Calm.reloadTimer (k : Nat) (s : State) : Calm s (reloadTimer k s) := by
  unfold Machine.reloadTimer
  split
  · exact .refl s
  · split_ifs
    · exact .loadTimer _ s
    · exact .refl s

theorem Calm.takeForward (f : Frame) (s : State) : Calm s (takeForward f s) := by
  unfold Machine.takeForward
  split_ifs
  · split
    next v hv =>
      refine (Calm.answered hv).trans ?_
      unfold forwardToOffice
      split
      · exact (Calm.reloadTimer f.src.toNat v).trans (.line _ _)
      · exact .recordFault .floor _ v
    next => exact .strayFrame s
  · exact .refl s

theorem Calm.takeStray (f : Frame) (s : State) : Calm s (takeStray f s) := by
  unfold Machine.takeStray
  split_ifs
  · exact .strayFrame s
  · exact .refl s

theorem Calm.takeOffice {f : Frame} (h : takeOffice f s = some t) : Calm s t := by
  rw [(takeOffice_work h).1]
  exact .line _ s

theorem Calm.replyTo (f : Frame) (c : Code) (fs : List Byte) (s : State) : Calm s (replyTo f c fs s) := .line _ s

/-! ## Returns and days -/

theorem Calm.makeAnswer (f : Frame) (s : State) : Calm s (makeAnswer f s) := by
  unfold Machine.makeAnswer
  split_ifs
  · exact .toFloor f s
  · exact .returns _ s

theorem Calm.takeReturnItem (i : ReturnItem) (s : State) : Calm s (takeReturnItem i s) := by
  unfold Machine.takeReturnItem
  split_ifs
  · exact .refl s
  · exact ((Calm.returns _ s).trans (.makeAnswer _ _)).trans (.startInspection _)
  · exact (Calm.makeAnswer _ s).trans (.startInspection _)

theorem Calm.writeChannel (c : Nat) (cfg : Channel) (s : State) : Calm s (writeChannel c cfg s).state := by
  unfold Machine.writeChannel
  split_ifs
  · exact .refl s
  · exact .refl s
  · exact .refl s
  · exact .returns _ s

theorem Calm.suspendInspection (s : State) : Calm s (suspendInspection s) := by
  unfold Machine.suspendInspection
  split_ifs
  · exact .refl s
  · exact .returns _ s
  · exact .returns _ s

theorem Calm.resumeInspection (s : State) : Calm s (resumeInspection s) := by
  unfold Machine.resumeInspection
  split_ifs
  · exact (Calm.returns _ s).trans (.startInspection _)
  · exact .returns _ s

theorem Calm.advanceDay (d : Day) (s : State) : Calm s (advanceDay d s).state := by
  unfold Machine.advanceDay
  split_ifs
  · exact .refl s
  · exact .refl s
  · exact .days _ s
  · exact .refl s

/-! ## The Line Interface's own commands -/

/-- A command that answers with a state it reaches without touching the circulation. -/
def Calms (s : State) (r : Result) : Prop := ∀ t, r = .next t → Calm s t

theorem Calm.calms (h : Calm s t) : Calms s (.next t) := by
  rintro u hu
  cases hu
  exact h

theorem calms_self (s : State) : Calms s (.next s) := (Calm.refl s).calms

theorem execOfficeRateChange_calms (s : State) : Calms s (execOfficeRateChange s) := by
  unfold execOfficeRateChange
  split
  · exact calms_self s
  · split_ifs
    · exact ((Calm.line _ s).trans (.cutOfficeFrame _)).calms
    · exact calms_self s

theorem execFloorRateChange_calms (s : State) : Calms s (execFloorRateChange s) := by
  unfold execFloorRateChange
  split
  · exact calms_self s
  · split_ifs
    · exact (Calm.line _ s).calms
    · exact calms_self s

theorem execOwedReturnAnswer_calms (s : State) : Calms s (execOwedReturnAnswer s) := by
  unfold execOwedReturnAnswer
  split
  · exact calms_self s
  · split_ifs
    · exact ((Calm.returns _ s).trans (.toFloor _ _)).calms
    · exact calms_self s

theorem execOwedCommandHandOn_calms (s : State) : Calms s (execOwedCommandHandOn s) := by
  unfold execOwedCommandHandOn
  split
  · exact calms_self s
  next b _ =>
    split
    · exact calms_self s
    next f rest _ =>
      have hand := (Calm.modBay (f := fun bay => { bay with owed := rest }) (by intro; exact ⟨rfl, rfl, rfl⟩) b s).trans
        (.toFloor f _)
      simp only
      split_ifs
      · exact (hand.trans (.loadTimer b _)).calms
      · exact hand.calms
      · exact calms_self s

theorem execOfficeFrameReceive_calms (chars : List Chr) (s : State) : Calms s (execOfficeFrameReceive chars s) := by
  unfold execOfficeFrameReceive
  simp only
  split
  · exact (Calm.receiveFrames _ _ s).calms
  · exact (Calm.receiveFrames _ _ s).calms
  · exact calms_self s

theorem execOfficePeerFrame_calms (s : State) : Calms s (execOfficePeerFrame s) := by
  unfold execOfficePeerFrame
  split
  · exact calms_self s
  · split_ifs
    · exact (Calm.line _ s).calms
    · exact calms_self s

theorem execForwardToFloor_calms (s : State) : Calms s (execForwardToFloor s) := by
  unfold execForwardToFloor
  split
  · exact calms_self s
  · split_ifs
    · exact calms_self s
    · exact ((Calm.line _ s).trans (.toFloor _ _)).calms
    · exact calms_self s
    · exact (Calm.line _ s).calms
    · exact calms_self s

theorem execSendReply_calms (s : State) : Calms s (execSendReply s) := by
  unfold execSendReply
  split
  · exact calms_self s
  · split_ifs
    · exact (Calm.line _ s).calms
    · exact calms_self s

theorem execSendForwardedFrame_calms (s : State) : Calms s (execSendForwardedFrame s) := by
  unfold execSendForwardedFrame
  split
  · split_ifs
    · exact (Calm.line _ s).calms
    · exact calms_self s
  · exact calms_self s

theorem execNotice_calms (s : State) : Calms s (execNotice s) := by
  unfold execNotice
  split
  next n _ _ _ =>
    split_ifs
    · exact ((Calm.line { s.line with officeSending := some (noticeFrame n (bankGet s.management.notices n {})) } s).trans
        (.notices (bankModify s.management.notices n NoticeCell.sent) _)).calms
    · exact calms_self s
  · exact calms_self s

theorem execFloorSend_calms (s : State) : Calms s (execFloorSend s) := by
  unfold execFloorSend
  split
  · exact calms_self s
  · split_ifs
    · exact (Calm.line _ s).calms
    · exact calms_self s

theorem execPoll_calms (s : State) : Calms s (execPoll s) := by
  unfold execPoll
  split
  · exact calms_self s
  · split_ifs
    · exact (Calm.line _ s).calms
    · exact calms_self s

theorem execReplyTurnGrant_calms (s : State) : Calms s (execReplyTurnGrant s) := by
  unfold execReplyTurnGrant
  split
  · exact calms_self s
  · split_ifs
    · exact (Calm.line _ s).calms
    · exact (Calm.line _ s).calms
    · exact calms_self s

theorem execReplyWindowExpiry_calms (s : State) : Calms s (execReplyWindowExpiry s) := by
  unfold execReplyWindowExpiry
  split
  · exact calms_self s
  · split_ifs
    · exact calms_self s
    · exact ((Calm.endTurn s).trans (.countMiss _ _)).calms

theorem execTurnSilenceExpiry_calms (s : State) : Calms s (execTurnSilenceExpiry s) := by
  unfold execTurnSilenceExpiry
  split
  · exact calms_self s
  · split_ifs
    · exact (Calm.endTurn s).calms
    · exact calms_self s

end Line

end Sys2Proof.Machine
end

