-- ==== Sys2Proof/Proofs/CirculatingCommands.lean ====
section
/-! PROOFS. Every command keeps the circulation and the places of the jobs. -/

namespace Sys2Proof.Machine

section Commands

variable {C : Prop} {s t : State}

/-! ## How commands are taken -/

theorem Calm.balanced (h : Calm s t) (hs : AccountsBalanced s) : AccountsBalanced t := by
  unfold AccountsBalanced at hs ⊢
  rwa [h.accountAt]

/-- A request whose action keeps the circulation keeps it. -/
theorem Good.request {i : Instr} {act : State → Answer} (h : Good C {} s) (hr : request i s act = .next t)
    (hact : ∀ v, Calm s v → Good C {} v → Good C {} (act v).state) : Good C {} t := by
  obtain rfl | ⟨f, v, -, htake, rfl⟩ := request_cases hr
  · exact h
  · have hv := Calm.takeOffice htake
    exact (Calm.replyTo _ _ _ _).good (hact v hv (hv.good h)).settle

/-- A request whose action does not touch the circulation. -/
theorem Good.requestCalm {i : Instr} {act : State → Answer} (h : Good C {} s) (hr : Machine.request i s act = .next t)
    (hact : ∀ v, Calm v (act v).state) : Good C {} t :=
  h.request hr fun v _ hv => (hact v).good hv

theorem Good.inService {a : Answer} (h : Good C {} s) (ha : s.management.mode = .service → Good C {} a.state) :
    Good C {} (inService s a).state := by
  unfold Machine.inService
  split
  next hmode => exact ha hmode
  next => exact h

theorem Good.inSetup {a : Answer} (h : Good C {} s) (ha : s.management.mode = .setup → Good C {} a.state) :
    Good C {} (inSetup s a).state := by
  unfold Machine.inSetup
  split
  next hmode => exact ha hmode
  next => exact h

theorem Calm.inService {a : Answer} (ha : Calm s a.state) : Calm s (inService s a).state := by
  unfold Machine.inService
  split
  · exact ha
  · exact .refl s

theorem Calm.inSetup {a : Answer} (ha : Calm s a.state) : Calm s (inSetup s a).state := by
  unfold Machine.inSetup
  split
  · exact ha
  · exact .refl s

theorem Good.event (h : Good C {} s) (he : event s = .next t) : Good C {} t := by
  cases he
  exact h.settle

theorem Good.calms {r : Result} (h : Good C {} s) (hr : Calms s r) (ht : r = .next t) : Good C {} t := (hr t ht).good h

/-- A floor frame whose effect keeps the circulation keeps it. -/
theorem Good.floorEvent {i : Instr} {act : Frame → State → State} (h : Good C {} s) (he : floorEvent i act s = .next t)
    (hact : ∀ f, Good C {} (act f s)) : Good C {} t := by
  unfold Machine.floorEvent at he
  split at he
  · cases he
    exact h
  · split_ifs at he
    · exact (hact _).event he
    · cases he
      exact h

theorem Good.receiveFloor {act : State → State} (h : Good C {} s) (hact : ∀ v, Good C {} v → Good C {} (act v)) (k : Nat) :
    Good C {} (receiveFloor k act s) := by
  unfold Machine.receiveFloor
  split_ifs
  · exact (Calm.badSourceFrame s).good h
  · split
    next v hv => exact hact _ ((Calm.reloadTimer k v).good ((Calm.answered hv).good h))
    next => exact (Calm.strayFrame s).good h

theorem Good.bayFrame {i : Instr} {act : Nat → State → State} (h : Good C {} s) (he : bayFrame i act s = .next t)
    (hact : ∀ b v, Good C {} v → Good C {} (act b v)) : Good C {} t :=
  h.floorEvent he fun f => h.receiveFloor (fun v hv => by
    unfold takenByBay
    split
    · exact hact _ v hv
    · exact hv) _

theorem Good.unitFrame {i : Instr} {owner : Owner} {act : State → State} (h : Good C {} s)
    (he : unitFrame i owner act s = .next t) (hact : ∀ v, Good C {} v → Good C {} (act v)) : Good C {} t :=
  h.floorEvent he fun f => h.receiveFloor (fun v hv => by
    unfold takenBy
    split_ifs
    · exact hact v hv
    · exact hv) _

theorem Good.takeDropped (h : Good C {} s) (f : Frame) : Good C {} (takeDropped f s) := by
  unfold Machine.takeDropped
  split_ifs
  · exact h.receiveFloor (fun _ hv => hv) _
  · exact h

/-! ## Events of the part's own -/

theorem Good.stallExpiry {bay : Byte} (h : Good C {} s) (he : execStallExpiry bay s = .next t) : Good C {} t := by
  unfold execStallExpiry at he
  split_ifs at he <;> cases he
  · exact ((Calm.passSeconds _ s).good h).expire _
  · exact h

theorem Good.inspectionCompletion (h : Good C {} s) (he : execInspectionCompletion s = .next t) : Good C {} t := by
  unfold execInspectionCompletion at he
  split at he
  · cases he
    exact h
  · split_ifs at he
    · exact (h.completeItem _).event he
    · cases he
      exact h

theorem Good.sweepStep (h : Good C {} s) (he : execSweepStep s = .next t) : Good C {} t := by
  unfold execSweepStep at he
  split_ifs at he
  · exact ((Calm.advanceSweep _).good (h.examineRecord _)).event he
  · cases he
    exact h

theorem Good.resetAfterReply (h : Good C {} s) (he : execResetAfterReply s = .next t) : Good C {} t := by
  unfold execResetAfterReply at he
  split_ifs at he <;> cases he
  · exact .fullReset s
  · exact h

theorem Good.unlistedManagementKind {src kind : Byte} {payload : List Byte} (h : Good C {} s)
    (he : execUnlistedManagementKind src kind payload s = .next t) : Good C {} t := by
  unfold execUnlistedManagementKind at he
  split at he
  · cases he
    exact h
  · exact h.requestCalm he .refl

theorem Good.takeBayFault (h : Good C {} s) (code : Byte) (b : Nat) : Good C {} (takeBayFault code b s) := by
  unfold Machine.takeBayFault
  split_ifs
  · exact h.faultBay b _
  · exact h

/-! ## Requests on the records, the accounts and the bays -/

theorem Good.setGeometry {p m q c j : U16} (h : Good C {} s) (he : execSetGeometry p m q c j s = .next t) : Good C {} t :=
  h.request he fun v _ hv => hv.inSetup fun hmode => by
    simp only
    split_ifs
    · exact hv.takeGeometry hmode _
    · exact hv

theorem Good.setSetting {setting value : Byte} (h : Good C {} s) (he : execSetSetting setting value s = .next t) : Good C {} t :=
  h.request he fun v _ hv => by
    split
    · exact hv
    · exact hv.writeSetting _ _

theorem Good.loadPatron {patron : U16} {present status patronClass level formats cartridgeClass quota agency : Byte} {code : U24}
    (h : Good C {} s)
    (he : execLoadPatron patron present status patronClass level formats cartridgeClass quota agency code s = .next t) :
    Good C {} t :=
  h.request he fun _ _ hv =>
    hv.patronAnswer (new := patronFields status patronClass level formats cartridgeClass quota agency code)
      (fun _ hp => patronFields_fresh hp) patron.toNat present

theorem Good.loadAgency {agency : U16} {present : Byte} {code : U24} (h : Good C {} s)
    (he : execLoadAgency agency present code s = .next t) : Good C {} t :=
  h.request he fun v _ hv => by
    split_ifs
    · exact hv
    · split
      · exact hv
      · exact hv.writeAgency _ _
      · exact hv.deleteAgency _

theorem Good.loadTitle {title : U16} {present format policy level availability : Byte} {extent : U16}
    {granularity shelfClass volumes : Byte} {weight : U16} (h : Good C {} s)
    (he : execLoadTitle title present format policy level availability extent granularity shelfClass volumes weight s = .next t) :
    Good C {} t :=
  h.request he fun _ _ hv =>
    hv.titleAnswer (new := titleFields format policy level availability extent granularity shelfClass volumes weight)
      (fun _ hx => titleFields_fresh hx) title.toNat present

theorem Good.setWindow {window enabled : Byte} {low high : U24} {chute mailClass transit : Byte} {limit : U16} {hold : Byte}
    (h : Good C {} s) (he : execSetWindow window enabled low high chute mailClass transit limit hold s = .next t) :
    Good C {} t :=
  h.request he fun v _ hv => by
    split
    · exact hv
    · exact Good.passReleases ((Calm.windows _ v).good hv) rfl

theorem Good.releaseManifest {half : Byte} (h : Good C {} s) (he : execReleaseManifest half s = .next t) : Good C {} t :=
  h.request he fun v _ hv => by
    split
    · exact hv
    · exact hv.releaseHalf _

theorem Good.bayToOnline {bay : Byte} (h : Good C {} s) (he : execBayOnline bay s = .next t) : Good C {} t :=
  h.request he fun v _ hv => hv.inService fun _ => by
    split_ifs
    · exact hv
    · exact hv
    · exact hv.bringOnline _

theorem Good.bayToOffline {bay : Byte} (h : Good C {} s) (he : execBayOffline bay s = .next t) : Good C {} t :=
  h.request he fun v _ hv => hv.inService fun _ => by
    split_ifs
    · exact hv
    split
    · exact hv
    · exact (Calm.modBay (f := fun x => { x with state := .offline }) (by intro; exact ⟨rfl, rfl, rfl⟩) _ v).good hv
    all_goals exact hv.takeOffline _

theorem Good.restartAnswer (h : Good C {} s) :
    Good C {} (Machine.inService s ⟨Machine.resumeAfterRestart (Machine.restartBlocks s), .ok, []⟩).state := by
  have hr := h.restartBlocks.resumeAfterRestart
  generalize Machine.resumeAfterRestart (Machine.restartBlocks s) = u at hr ⊢
  exact h.inService fun _ => hr

/-! ## Every command -/

/-- Every command keeps the circulation and the places of the jobs. -/
theorem Good.exec (h : Good C {} s) (hbal : C → AccountsBalanced s) (i : Instr) (he : exec i s = .next t) : Good C {} t := by
  unfold Machine.exec at he
  cases i with
  | resetPin | powerOn =>
    cases he
    exact .fullReset s
  | resetAfterReply => exact h.resetAfterReply he
  | restart => exact h.request he fun v _ hv => hv.restartAnswer
  | setGeometry => exact h.setGeometry he
  | setSetting => exact h.setSetting he
  | loadPatron => exact h.loadPatron he
  | loadAgency => exact h.loadAgency he
  | loadTitle => exact h.loadTitle he
  | setWindow => exact h.setWindow he
  | releaseManifest => exact h.releaseManifest he
  | repaired => exact h.request he fun v hc hv => hv.repairItems (fun c => hc.balanced (hbal c)) _ _ _
  | retireRepair => exact h.request he fun v hc hv => hv.retireItems (fun c => hc.balanced (hbal c)) _ _ _
  | openService => exact h.request he fun v _ hv => hv.inSetup fun _ => hv.openPart
  | bayOnline => exact h.bayToOnline he
  | bayOffline => exact h.bayToOffline he
  | buildStock => exact h.request he fun v _ hv => hv.inService fun hmode => hv.buildRun hmode _ _
  | raiseJob => exact h.request he fun v _ hv => hv.inService fun _ => hv.raiseJobTo3 _
  | flushPack => exact h.request he fun v _ hv => hv.inService fun _ => hv.flushPacks _
  | stockAdd => exact h.request he fun v _ hv => hv.addStock _ _
  | stockAddTitle => exact h.request he fun v _ hv => hv.addTitleStock _ _
  | declareLost => exact h.request he fun v _ hv => hv.inService fun _ => hv.declareLoss _
  | order => exact h.request he fun v _ hv => hv.inService fun hmode => hv.placeOrder hmode _ _
  | cancel => exact h.request he fun v _ hv => hv.inService fun _ => hv.cancelOrder _ _
  | setClass =>
    refine h.requestCalm he fun v => .inSetup ?_
    split_ifs
    · exact .refl v
    · exact .management _ v rfl rfl
  | setLines =>
    refine h.requestCalm he fun v => .inSetup ?_
    split
    · exact .line _ v
    · exact .refl v
  | setDay => exact h.requestCalm he fun v => .inSetup (.days _ v)
  | setBay => exact h.requestCalm he fun v => .configureBay _ _ _ _ v
  | day => exact h.requestCalm he fun v => .inService (.advanceDay _ v)
  | setChannel =>
    refine h.requestCalm he fun v => ?_
    split
    · split_ifs
      · exact .refl v
      · exact .writeChannel _ _ v
    · exact .refl v
  | setThreshold =>
    refine h.requestCalm he fun v => ?_
    split_ifs
    · exact .refl v
    · exact .refl v
    · exact .returns _ v
  | inspectSuspend => exact h.requestCalm he fun v => .suspendInspection v
  | inspectResume => exact h.requestCalm he fun v => .resumeInspection v
  | clearHits => exact h.requestCalm he fun v => .returns _ v
  | probe =>
    refine h.requestCalm he fun v => .inService ?_
    rw [probeOrder_state]
    exact .refl v
  | clearLineFaults => exact h.requestCalm he fun v => .line _ v
  | setMask =>
    refine h.requestCalm he fun v => ?_
    split_ifs
    · exact .refl v
    · exact .management _ v rfl rfl
  | readRecord | readStock =>
    refine h.requestCalm he fun v => ?_
    split <;> exact .refl v
  | readChannel =>
    refine h.requestCalm he fun v => ?_
    split_ifs <;> exact .refl v
  | readManifest =>
    refine h.requestCalm he fun v => ?_
    split
    · exact .refl v
    · split_ifs
      · exact .refl v
      · rw [manifestAnswer_state]
        exact .refl v
  | reset | readDispatch | readInspection | readDay | readSetup | readLines | readNotices => exact h.requestCalm he .refl
  | unlistedManagementKind => exact h.unlistedManagementKind he
  | officeRateChange => exact h.calms (execOfficeRateChange_calms s) he
  | floorRateChange => exact h.calms (execFloorRateChange_calms s) he
  | stallExpiry => exact h.stallExpiry he
  | started => exact h.bayFrame he fun b v hv => hv.takeStarted _ _ b
  | progress => exact h.bayFrame he fun b v hv => hv.takeProgress _ _ b
  | parked => exact h.bayFrame he fun b v hv => hv.takeParked _ _ b
  | copyDone => exact h.bayFrame he fun b v hv => hv.takeCopyDone _ _ _ b
  | bayFault => exact h.bayFrame he fun b v hv => hv.takeBayFault _ b
  | pick => exact ((Calm.handPick _ s).good h).event he
  | picked => exact h.unitFrame he fun v hv => hv.takePicked _ _
  | notFound => exact h.unitFrame he fun v hv => hv.takeNotFound _
  | releasePass => exact (h.passReleases rfl).event he
  | chuted => exact h.unitFrame he fun v hv => hv.takeChuted rfl _
  | chuteFull => exact h.unitFrame he fun v hv => hv.takeChuteFull rfl _ _
  | chuteClear => exact h.unitFrame he fun v hv => hv.takeChuteClear rfl _
  | returnItem =>
    refine h.unitFrame he fun v hv => ?_
    split_ifs
    · exact (Calm.takeReturnItem _ v).good hv
    · exact hv
  | owedReturnAnswer => exact h.calms (execOwedReturnAnswer_calms s) he
  | inspectionCompletion => exact h.inspectionCompletion he
  | sweepStep => exact h.sweepStep he
  | owedCommandHandOn => exact h.calms (execOwedCommandHandOn_calms s) he
  | officeFrameReceive => exact h.calms (execOfficeFrameReceive_calms _ s) he
  | officePeerFrame => exact h.calms (execOfficePeerFrame_calms s) he
  | forwardToFloor => exact h.calms (execForwardToFloor_calms s) he
  | floorForward => exact h.floorEvent he fun f => (Calm.takeForward f s).good h
  | frameDiscard port chars => exact h.calms (Calm.discardAt port chars s).calms he
  | strayFloorFrame => exact h.floorEvent he fun f => (Calm.takeStray f s).good h
  | quiet => exact h.floorEvent he fun f => h.receiveFloor (fun _ hv => hv) _
  | sendReply => exact h.calms (execSendReply_calms s) he
  | sendForwardedFrame => exact h.calms (execSendForwardedFrame_calms s) he
  | notice => exact h.calms (execNotice_calms s) he
  | floorSend => exact h.calms (execFloorSend_calms s) he
  | poll => exact h.calms (execPoll_calms s) he
  | replyTurnGrant => exact h.calms (execReplyTurnGrant_calms s) he
  | replyWindowExpiry => exact h.calms (execReplyWindowExpiry_calms s) he
  | turnSilenceExpiry => exact h.calms (execTurnSilenceExpiry_calms s) he
  | floorFrameNotTaken => exact h.floorEvent he fun f => h.takeDropped f

/-- One step keeps the circulation and the places of the jobs. -/
theorem Good.step (h : Good C {} s) (hbal : C → AccountsBalanced s) (hs : step s = .next t) : Good C {} t := by
  unfold Machine.step at hs
  split at hs
  · cases hs
    exact h.tick
  next c rest _ =>
    have hc : Calm s (s.withPending rest) := .pending rest s
    exact (hc.good h).exec (fun hC => hc.balanced (hbal hC)) c hs

end Commands

end Sys2Proof.Machine
end

