-- ==== Sys2Proof/Proofs/CirculationSums.lean ====
section
/-! PROOFS. A sum over the record numbers of a pool is a sum over the table of its records, when the table is canonical (log 6). -/

namespace Sys2Proof.Machine

/-! ## Tables -/

section Tables

variable {α β : Type} {t : Table α} {u : Table β}

theorem Table.mem_iff_get (hw : Table.wf t) {k : Nat} {a : α} : (k, a) ∈ t ↔ Table.get t k = some a :=
  ⟨fun h => Table.get_of_mem_wf hw h, Table.mem_of_get⟩

theorem Table.forall_mem_iff (hw : Table.wf t) {P : Nat × α → Prop} :
    (∀ e ∈ t, P e) ↔ ∀ k a, Table.get t k = some a → P (k, a) := by
  simp only [Prod.forall, Table.mem_iff_get hw]

/-- The sum of `F` over the record numbers is the sum over the records. -/
theorem tally_eq_sum {N : Nat} {F : Nat → Nat} {f : Nat × α → Nat} (hw : Table.wf t) (hpool : ∀ e ∈ t, e.1 ≤ N)
    (hsome : ∀ k a, Table.get t k = some a → F k = f (k, a)) (hnone : ∀ k, Table.get t k = none → F k = 0) :
    tally N F = (t.map f).sum := by
  induction t generalizing F with
  | nil => exact tally_zero fun k => hnone k rfl
  | cons e t ih =>
    obtain ⟨habove, hrest⟩ := List.pairwise_cons.mp (show Table.wf (e :: t) from hw)
    have hfree : Table.get t e.1 = none := Table.get_eq_none_of_lt habove
    have hget : Table.get (e :: t) e.1 = some e.2 := by rw [Table.get_cons, if_pos rfl]
    have hother : ∀ k, k ≠ e.1 → Table.get (e :: t) k = Table.get t k := fun k hk => by
      rw [Table.get_cons, if_neg (Ne.symm hk)]
    have hchange := tally_change_at (f := Function.update F e.1 0) (g := F) (Function.update_self _ _ _) (hsome _ _ hget)
      (hpool e List.mem_cons_self) (fun k hk => (Function.update_of_ne hk _ _).symm)
    have hsum := ih (F := Function.update F e.1 0) hrest (fun a ha => hpool a (List.mem_cons_of_mem e ha))
      (fun k a ha => by
        have hk : k ≠ e.1 := fun h => by simp [h, hfree] at ha
        rw [Function.update_of_ne hk]
        exact hsome k a ((hother k hk).trans ha))
      (fun k ha => by
        by_cases hk : k = e.1
        · rw [hk, Function.update_self]
        · rw [Function.update_of_ne hk]
          exact hnone k ((hother k hk).trans ha))
    rw [List.map_cons, List.sum_cons, Nat.add_comm (f e), ← hsum]
    exact hchange

/-- The records counted. -/
theorem tally_eq_countP {N : Nat} {F : Nat → Nat} {p : Nat × α → Bool} (hw : Table.wf t) (hpool : ∀ e ∈ t, e.1 ≤ N)
    (hsome : ∀ k a, Table.get t k = some a → F k = if p (k, a) = true then 1 else 0)
    (hnone : ∀ k, Table.get t k = none → F k = 0) : tally N F = t.countP p := by
  rw [tally_eq_sum (f := fun e => if p e = true then 1 else 0) hw hpool hsome hnone]
  clear hw hpool hsome hnone
  induction t with
  | nil => rfl
  | cons e t ih => rw [List.map_cons, List.sum_cons, ih, List.countP_cons, Nat.add_comm]

/-- A count over the lists that records of a table carry. -/
theorem countP_filter_flatMap {γ : Type} (p : α → Bool) (q : γ → Bool) (g : α → List γ) (l : List α) :
    ((l.filter p).flatMap g).countP q = (l.map fun a => if p a = true then (g a).countP q else 0).sum := by
  induction l with
  | nil => rfl
  | cons a l ih =>
    by_cases ha : p a = true
    · simp [ha, ih]
    · simp [ha, ih]

theorem sum_filter (p : α → Bool) (f : α → Nat) (l : List α) :
    ((l.filter p).map f).sum = (l.map fun a => if p a = true then f a else 0).sum := by
  induction l with
  | nil => rfl
  | cons a l ih =>
    by_cases ha : p a = true
    · simp [ha, ih]
    · simp [ha, ih]

/-- Lists that the records of one table keep of the records of another, which name their owner. -/
theorem lists_iff {l : α → List Nat} {owner : β → Option Nat} :
    Lists (reads t [] l) (reads u none owner) ↔
      (∀ r b n, Table.get u r = some b → owner b = some n → ∃ a, Table.get t n = some a ∧ r ∈ l a) ∧
        ∀ n a, Table.get t n = some a → (l a).Nodup ∧ ∀ r ∈ l a, ∃ b, Table.get u r = some b ∧ owner b = some n := by
  have howns : ∀ r n, reads u none owner r = some n ↔ ∃ b, Table.get u r = some b ∧ owner b = some n := fun r n => by
    cases hr : Table.get u r <;> simp [reads, hr]
  constructor
  · intro h
    refine ⟨fun r b n hb hn => ?_, fun n a ha => ?_⟩
    · have hr := ((h n).2 r).mpr ((howns r n).mpr ⟨b, hb, hn⟩)
      cases ha : Table.get t n with
      | none => simp [reads, ha] at hr
      | some a => exact ⟨a, rfl, by simpa [reads, ha] using hr⟩
    · obtain ⟨hnodup, hmem⟩ := h n
      rw [reads_some ha] at hnodup hmem
      exact ⟨hnodup, fun r hr => (howns r n).mp ((hmem r).mp hr)⟩
  · rintro ⟨hin, hout⟩ n
    cases ha : Table.get t n with
    | none =>
      rw [reads_none ha]
      refine ⟨List.nodup_nil, fun r => ⟨fun hr => absurd hr List.not_mem_nil, fun hr => ?_⟩⟩
      obtain ⟨b, hb, hn⟩ := (howns r n).mp hr
      obtain ⟨a, ha', -⟩ := hin r b n hb hn
      rw [ha] at ha'
      cases ha'
    | some a =>
      rw [reads_some ha]
      obtain ⟨hnodup, hmem⟩ := hout n a ha
      refine ⟨hnodup, fun r => ⟨fun hr => (howns r n).mpr (hmem r hr), fun hr => ?_⟩⟩
      obtain ⟨b, hb, hn⟩ := (howns r n).mp hr
      obtain ⟨a', ha', hr'⟩ := hin r b n hb hn
      obtain rfl := Option.some.inj (ha.symm.trans ha')
      exact hr'

end Tables

/-! ## The sums of the laws -/

section Sums

variable {s : State}

theorem live_eq_countP (hform : TablesCanonical s) (hpools : ∀ e ∈ s.requests, e.1 ≤ s.management.geometry.q) (n m : Nat) :
    (view {} s).live n m = s.requests.countP fun o => decide (o.2.patron = n ∧ o.2.title = m) :=
  tally_eq_countP hform.2.2.2.1 hpools (fun r q hq => by simp [view_claim hq]) fun r hq => by simp [view_claim_none hq]

/-- Every line of every consignment is OPEN. -/
def AllOpen (s : State) : Prop := ∀ e ∈ s.assembly.cons, ∀ l ∈ e.2.lines, l.state = .isOpen

theorem AllOpen.openLines {k : Nat} {c : Consignment} (h : AllOpen s) (hc : Table.get s.assembly.cons k = some c) :
    openLines c = c.lines :=
  List.filter_eq_self.mpr fun l hl => decide_eq_true (h _ (Table.mem_of_get hc) l hl)

theorem view_lines_absent {k : Nat} (hc : Table.get s.assembly.cons k = none) : (view {} s).lines k = [] := by
  simp [view, readsBut, reads, hc]

/-- The consignments' numbers are those of the pool. -/
abbrev ConsPooled (s : State) : Prop := ∀ e ∈ s.assembly.cons, e.1 ≤ s.management.geometry.c

variable (hform : TablesCanonical s) (hpools : ConsPooled s)

include hform hpools

theorem linesOf_eq_length (hopen : AllOpen s) (n : Nat) : (view {} s).linesOf n = (openLinesOf s n).length := by
  rw [← congrFun List.countP_true (openLinesOf s n), openLinesOf, countP_filter_flatMap]
  exact tally_eq_sum hform.2.2.2.2.1 hpools
    (fun k c hc => by simp [view_shape hc, view_lines hc, hopen.openLines hc])
    fun k hc => by simp [view_lines_absent hc]

theorem openOf_eq_count (hopen : AllOpen s) (n m : Nat) :
    (view {} s).openOf n m = ((openLinesOf s n).map Line.title).count m := by
  rw [List.count, List.countP_map, openLinesOf, countP_filter_flatMap]
  exact tally_eq_sum hform.2.2.2.2.1 hpools
    (fun k c hc => by simp [view_shape hc, view_lines hc, hopen.openLines hc, List.count, List.countP_map])
    fun k hc => by simp [view_lines_absent hc]

theorem naming_eq_length (hopen : AllOpen s) (m : Nat) : (view {} s).naming m = (openNaming s m).length := by
  have hall : s.assembly.cons = s.assembly.cons.filter fun _ => true := by simp
  rw [openNaming, ← List.countP_eq_length_filter, hall, countP_filter_flatMap]
  exact tally_eq_sum hform.2.2.2.2.1 hpools
    (fun k c hc => by
      rw [view_lines (M := {}) hc List.not_mem_nil, hopen.openLines hc, List.count, List.countP_map, if_pos rfl]
      rfl)
    fun k hc => by simp [view_lines_absent hc]

theorem marksOf_eq_countP (n : Nat) : (view {} s).marksOf n =
    s.assembly.cons.countP fun o => decide (o.2.patron = n ∧ o.2.overdue = true) :=
  tally_eq_countP hform.2.2.2.2.1 hpools (fun k c hc => by simp [view_shape hc, view_marked hc])
    fun k hc => by simp [view, readsBut, reads, hc]

theorem partsOf_eq_length (h : Nat) : (view {} s).partsOf h = (setParts s h).length := by
  rw [setParts, List.length_map, ← List.countP_eq_length_filter]
  exact tally_eq_countP hform.2.2.2.2.1 hpools
    (fun k c hc => by rw [if_congr (view_isPart hc List.not_mem_nil) rfl rfl]; simp)
    fun k hc => if_neg fun hpart => absurd hpart.1 (by simp [view_absent (M := {}) hc])

end Sums

end Sys2Proof.Machine
end

