-- ==== Sys2Proof/Proofs/CirculationRead.lean ====
section
/-! PROOFS. The laws of circulation, said of the tables, are the laws said of the record numbers. -/

namespace Sys2Proof.Machine

section Read

variable {s : State} {k n m r j : Nat}

/-! ## What the view shows -/

theorem member_iff : (view {} s).member n = true ↔ ∃ p, Table.get s.records.patrons n = some p :=
  ⟨member_of_view, fun ⟨_, hp⟩ => view_member hp⟩

theorem title_iff {x : TitleShape} : (view {} s).title m = some x ↔
    ∃ y, Table.get s.records.titles m = some y ∧ titleShape y = x :=
  ⟨title_of_view, fun ⟨_, hy, hx⟩ => hx ▸ view_title hy⟩

theorem claim_iff {a : Nat × Nat} : (view {} s).claim r = some a ↔
    ∃ q, Table.get s.requests r = some q ∧ (q.patron, q.title) = a := by
  cases hq : Table.get s.requests r <;> simp [view, reads, hq]

theorem present_iff : (view {} s).present k = true ↔ ∃ c, Table.get s.assembly.cons k = some c := by
  rw [view_present_iff, Option.isSome_iff_exists]
  exact and_iff_right List.not_mem_nil

theorem stage_iff {st : ConsState} : (view {} s).stage k = some st ↔ ∃ c, Table.get s.assembly.cons k = some c ∧ c.state = st :=
  view_stage_iff.trans (and_iff_right List.not_mem_nil)

theorem jobCls_iff {c : Nat} : (view {} s).jobCls j = some c ↔
    ∃ x, Table.get s.scheduler.jobs j = some x ∧ x.cartridgeClass = c := by
  cases hx : Table.get s.scheduler.jobs j <;> simp [view, reads, hx]

theorem pack_iff : (view {} s).pack j = some k ↔
    ∃ x, Table.get s.scheduler.jobs j = some x ∧ x.kind = .pack ∧ x.consignment = k := by
  cases hx : Table.get s.scheduler.jobs j <;> simp [view, readsBut, reads, hx]

theorem carrierOf_iff {c : Consignment} : carrierOf c = some n ↔ c.patron = n ∧ c.lines ≠ [] := by
  unfold carrierOf
  split_ifs with hl <;> simp [hl]

theorem titleFits_iff {kind : ConsKind} {x : Title} : titleFitsKind kind x = true ↔ (titleShape x).fits kind := by
  cases kind <;> simp [titleFitsKind, TitleShape.fits, titleShape]

theorem view_claim_patron : (fun r => ((view {} s).claim r).map Prod.fst) = reads s.requests none fun q => some q.patron := by
  funext r
  cases hq : Table.get s.requests r <;> simp [view, reads, hq]

theorem view_claim_title : (fun r => ((view {} s).claim r).map Prod.snd) = reads s.requests none fun q => some q.title := by
  funext r
  cases hq : Table.get s.requests r <;> simp [view, reads, hq]

/-! ## The laws, one by one -/

variable (hform : TablesCanonical s)

include hform

theorem inPools_iff : InPools s ↔
    (∀ n, (view {} s).member n = true → 1 ≤ n ∧ n ≤ s.management.geometry.p) ∧
    (∀ m x, (view {} s).title m = some x → 1 ≤ m ∧ m ≤ s.management.geometry.t) ∧
    (∀ r q, (view {} s).claim r = some q → 1 ≤ r ∧ r ≤ s.management.geometry.q) ∧
    (∀ k, (view {} s).present k = true → 1 ≤ k ∧ k ≤ s.management.geometry.c) ∧
    ∀ j c, (view {} s).jobCls j = some c → 1 ≤ j ∧ j ≤ s.management.geometry.j := by
  obtain ⟨hpatrons, -, htitles, hrequests, hcons, hjobs⟩ := hform
  rw [InPools, Table.forall_mem_iff hpatrons, Table.forall_mem_iff htitles, Table.forall_mem_iff hrequests,
    Table.forall_mem_iff hcons, Table.forall_mem_iff hjobs]
  simp only [member_iff, title_iff, claim_iff, present_iff, jobCls_iff, forall_exists_index, and_imp,
    forall_apply_eq_imp_iff₂]

theorem wished_iff : Lists (view {} s).wish (fun r => ((view {} s).claim r).map Prod.fst) ↔
    (∀ e ∈ s.requests, ((Table.get s.records.patrons e.2.patron).any fun p => decide (e.1 ∈ p.wish)) = true) ∧
      ∀ e ∈ s.records.patrons, e.2.wish.Nodup ∧ ∀ r ∈ e.2.wish,
        ((Table.get s.requests r).any fun q => decide (q.patron = e.1)) = true := by
  obtain ⟨hpatrons, -, -, hrequests, -, -⟩ := hform
  rw [view_claim_patron, Table.forall_mem_iff hpatrons, Table.forall_mem_iff hrequests]
  refine lists_iff.trans ?_
  simp only [Option.any_eq_true, decide_eq_true_eq]
  grind

theorem waited_iff : Lists (view {} s).waiting (fun r => ((view {} s).claim r).map Prod.snd) ↔
    (∀ e ∈ s.requests, ((Table.get s.records.titles e.2.title).any fun x => decide (e.1 ∈ x.waiting)) = true) ∧
      ∀ e ∈ s.records.titles, e.2.waiting.Nodup ∧ ∀ r ∈ e.2.waiting,
        ((Table.get s.requests r).any fun q => decide (q.title = e.1)) = true := by
  obtain ⟨-, -, htitles, hrequests, -, -⟩ := hform
  rw [view_claim_title, Table.forall_mem_iff htitles, Table.forall_mem_iff hrequests]
  refine lists_iff.trans ?_
  simp only [Option.any_eq_true, decide_eq_true_eq]
  grind

/-- The patrons' chains hold the consignments that carry a line (R36). -/
theorem chained_iff : Lists (view {} s).chain (view {} s).carrier ↔
    (∀ k c, Table.get s.assembly.cons k = some c → c.lines ≠ [] →
      ∃ p, Table.get s.records.patrons c.patron = some p ∧ k ∈ p.chain) ∧
    ∀ e ∈ s.records.patrons, e.2.chain.Nodup ∧ ∀ k ∈ e.2.chain,
      ((Table.get s.assembly.cons k).any fun c => decide (c.patron = e.1 ∧ c.lines ≠ [])) = true := by
  rw [Table.forall_mem_iff hform.1]
  refine lists_iff.trans ?_
  simp only [Option.any_eq_true, decide_eq_true_eq, carrierOf_iff]
  exact and_congr_left' ⟨fun h k c hc hl => h k c _ hc ⟨rfl, hl⟩, fun h k c n hc hn => hn.1 ▸ h k c hc hn.2⟩

theorem copied_iff : (∀ m x, (view {} s).title m = some x →
      CopiesKept x ((view {} s).copies m) ((view {} s).shelf m) ((view {} s).out m) ((view {} s).repair m)) ↔
    ∀ e ∈ s.records.titles, CopiesKept (titleShape e.2) e.2.copies e.2.shelf e.2.out e.2.repair := by
  rw [Table.forall_mem_iff hform.2.2.1]
  constructor
  · intro h m y hy
    have := h m _ (view_title hy)
    rwa [view_copies hy, view_shelf hy, view_out hy, view_repair hy] at this
  · intro h m x hx
    obtain ⟨y, hy, rfl⟩ := title_iff.mp hx
    rw [view_copies hy, view_shelf hy, view_out hy, view_repair hy]
    exact h m y hy

theorem consignmentsFormed_iff : ConsignmentsFormed s ↔
    (∀ k, (view {} s).present k = true → (view {} s).member ((view {} s).shape k).patron = true) ∧
    (∀ k st, (view {} s).stage k = some st → stateFitsKind ((view {} s).shape k).kind st = true) ∧
    (∀ k, (view {} s).opened k = true) ∧
    (∀ k, ∀ m ∈ (view {} s).lines k, ∃ x, (view {} s).title m = some x ∧ x.fits ((view {} s).shape k).kind) ∧
    (∀ k, (view {} s).present k = true →
      ((view {} s).lines k = [] ↔ ((view {} s).shape k).kind = .braillePart ∧ ((view {} s).shape k).head ≠ k)) ∧
    (∀ k, (view {} s).present k = true → ((view {} s).shape k).kind ≠ .pack → ((view {} s).lines k).length ≤ 1) ∧
    ∀ k, (view {} s).marked k = true → (view {} s).stage k = some .posted ∧ (view {} s).lines k ≠ [] := by
  have hshown : ∀ k c, Table.get s.assembly.cons k = some c → k ∉ ({} : Amid).cons := fun _ _ _ => List.not_mem_nil
  rw [ConsignmentsFormed, Table.forall_mem_iff hform.2.2.2.2.1]
  constructor
  · intro h
    refine ⟨fun k hk => ?_, fun k st hst => ?_, fun k => ?_, fun k m hm => ?_, fun k hk => ?_, fun k hk hkind => ?_, fun k hk => ?_⟩
    · obtain ⟨c, hc⟩ := present_iff.mp hk
      rw [view_shape hc (hshown k c hc), member_iff]
      exact Option.isSome_iff_exists.mp (h k c hc).1
    · obtain ⟨c, hc, rfl⟩ := stage_iff.mp hst
      rw [view_shape hc (hshown k c hc)]
      exact (h k c hc).2.1
    · cases hc : Table.get s.assembly.cons k with
      | none => simp [view, readsBut, reads, hc]
      | some c =>
        rw [view_opened hc (hshown k c hc), List.all_eq_true]
        exact fun l hl => decide_eq_true ((h k c hc).2.2.1 l hl).1
    · cases hc : Table.get s.assembly.cons k with
      | none => simp [view_lines_absent hc] at hm
      | some c =>
        rw [view_lines hc (hshown k c hc)] at hm
        obtain ⟨l, hl, rfl⟩ := List.mem_map.mp hm
        obtain ⟨x, hx, hfits⟩ := (Option.any_eq_true _ _).mp ((h k c hc).2.2.1 l hl).2
        rw [view_shape hc (hshown k c hc)]
        exact ⟨_, view_title hx, titleFits_iff.mp hfits⟩
    · obtain ⟨c, hc⟩ := present_iff.mp hk
      rw [view_shape hc (hshown k c hc), view_lines hc (hshown k c hc), List.map_eq_nil_iff]
      exact (h k c hc).2.2.2.1
    · obtain ⟨c, hc⟩ := present_iff.mp hk
      rw [view_shape hc (hshown k c hc)] at hkind
      rw [view_lines hc (hshown k c hc), List.length_map]
      exact (h k c hc).2.2.2.2.1 hkind
    · cases hc : Table.get s.assembly.cons k with
      | none => simp [view, readsBut, reads, hc] at hk
      | some c =>
        rw [view_marked hc (hshown k c hc)] at hk
        obtain ⟨hst, hlines⟩ := (h k c hc).2.2.2.2.2 hk
        rw [view_stage hc (hshown k c hc), view_lines hc (hshown k c hc), hst]
        exact ⟨rfl, by simpa using hlines⟩
  · rintro ⟨howned, hstaged, hopened, hfitting, hcarrying, hsingle, hmarked⟩ k c hc
    have hk := hshown k c hc
    have hpresent := present_iff.mpr ⟨c, hc⟩
    have hopen := hopened k
    have hfit := hfitting k
    have hcarry := hcarrying k hpresent
    have hone := hsingle k hpresent
    have hmark := hmarked k
    rw [view_opened hc hk, List.all_eq_true] at hopen
    rw [view_lines hc hk, view_shape hc hk] at hfit hcarry hone
    rw [List.map_eq_nil_iff] at hcarry
    rw [List.length_map] at hone
    rw [view_marked hc hk, view_stage hc hk, view_lines hc hk] at hmark
    refine ⟨?_, ?_, fun l hl => ⟨of_decide_eq_true (hopen l hl), ?_⟩, hcarry, hone, fun ho => ?_⟩
    · have := howned k hpresent
      rw [view_shape hc hk] at this
      exact Option.isSome_iff_exists.mpr (member_iff.mp this)
    · have := hstaged k _ (view_stage hc hk)
      rwa [view_shape hc hk] at this
    · obtain ⟨x, hx, hfits⟩ := hfit _ (List.mem_map_of_mem hl)
      obtain ⟨y, hy, rfl⟩ := title_iff.mp hx
      rw [hy, Option.any_some]
      exact titleFits_iff.mpr hfits
    · obtain ⟨hst, hlines⟩ := hmark ho
      exact ⟨Option.some.inj hst, by simpa using hlines⟩

end Read

/-- No record of a pool is FREE. -/
theorem lowestFree_none_iff {α : Type} {t : Table α} (hw : Table.wf t) {N : Nat} :
    Table.lowestFree t N = none ↔ ∀ i, 1 ≤ i → i ≤ N → Table.get t i ≠ none := by
  rw [lowestFree_eq_head? hw, List.head?_eq_none_iff, List.eq_nil_iff_forall_not_mem]
  simp only [mem_freeNumbers, not_and, and_imp, ne_eq]

theorem Table.eq_nil_iff {α : Type} {t : Table α} : t = [] ↔ ∀ k, Table.get t k = none := by
  constructor
  · rintro rfl k
    rfl
  · intro h
    cases t with
    | nil => rfl
    | cons e t => simpa [Table.get_cons] using h e.1

section Packs

variable {s : State}

/-- A list holds just the consignments whose state is `P`. -/
theorem listed_iff {l : List Nat} {P : ConsState → Prop} : (∀ k, k ∈ l ↔ ∃ c, Table.get s.assembly.cons k = some c ∧ P c.state) ↔
    (∀ k ∈ l, ∃ c, Table.get s.assembly.cons k = some c ∧ P c.state) ∧
      ∀ k c, Table.get s.assembly.cons k = some c → P c.state → k ∈ l :=
  ⟨fun h => ⟨fun k hk => (h k).mp hk, fun k c hc hst => (h k).mpr ⟨c, hc, hst⟩⟩,
    fun h k => ⟨h.1 k, fun ⟨c, hc, hst⟩ => h.2 k c hc hst⟩⟩

variable (hform : TablesCanonical s)

include hform

theorem openPacks_iff : (∀ n, (view {} s).openPack n ≠ 0 → (view {} s).stage ((view {} s).openPack n) = some .assembling ∧
      ((view {} s).shape ((view {} s).openPack n)).patron = n) ↔
    ∀ e ∈ s.records.patrons, e.2.openPack ≠ 0 →
      ((Table.get s.assembly.cons e.2.openPack).any fun c => decide (c.state = .assembling ∧ c.patron = e.1)) = true := by
  rw [Table.forall_mem_iff hform.1]
  simp only [Option.any_eq_true, decide_eq_true_eq]
  constructor
  · intro h n p hp h0
    obtain ⟨hst, hpat⟩ := h n (by rwa [view_openPack hp])
    rw [view_openPack hp] at hst hpat
    obtain ⟨c, hc, hst⟩ := stage_iff.mp hst
    rw [view_shape hc List.not_mem_nil] at hpat
    exact ⟨c, hc, hst, hpat⟩
  · intro h n h0
    cases hp : Table.get s.records.patrons n with
    | none => simp [view, reads, hp] at h0
    | some p =>
      rw [view_openPack hp] at h0 ⊢
      obtain ⟨c, hc, hst, hpat⟩ := h n p hp h0
      rw [view_shape hc List.not_mem_nil]
      exact ⟨stage_iff.mpr ⟨c, hc, hst⟩, hpat⟩

theorem assembling_iff (howned : ∀ k c, Table.get s.assembly.cons k = some c → ∃ p, Table.get s.records.patrons c.patron = some p) :
    (∀ k, (view {} s).stage k = some .assembling → (view {} s).openPack ((view {} s).shape k).patron = k) ↔
    ∀ e ∈ s.assembly.cons, e.2.state = .assembling →
      ((Table.get s.records.patrons e.2.patron).any fun p => decide (p.openPack = e.1)) = true := by
  rw [Table.forall_mem_iff hform.2.2.2.2.1]
  constructor
  · intro h k c hc hst
    obtain ⟨p, hp⟩ := howned k c hc
    have hopen := h k (stage_iff.mpr ⟨c, hc, hst⟩)
    rw [view_shape hc List.not_mem_nil, view_openPack hp] at hopen
    rw [hp, Option.any_some]
    exact decide_eq_true hopen
  · intro h k hst
    obtain ⟨c, hc, hst⟩ := stage_iff.mp hst
    obtain ⟨p, hp⟩ := howned k c hc
    have hopen := h k c hc hst
    rw [hp, Option.any_some] at hopen
    rw [view_shape hc List.not_mem_nil, view_openPack hp]
    exact of_decide_eq_true hopen

theorem sealed_iff : (∀ k, k ∈ s.assembly.sealedList ↔ (view {} s).stage k = some .sealed) ↔
    (∀ k ∈ s.assembly.sealedList, ((Table.get s.assembly.cons k).any fun c => decide (c.state = .sealed)) = true) ∧
      ∀ e ∈ s.assembly.cons, e.2.state = .sealed → e.1 ∈ s.assembly.sealedList := by
  rw [Table.forall_mem_iff hform.2.2.2.2.1]
  simp only [stage_iff, Option.any_eq_true, decide_eq_true_eq]
  exact listed_iff (P := fun st => st = .sealed)

theorem packs_iff :
    ((∀ k, (view {} s).stage k = some .duplicating → (view {} s).pack ((view {} s).jobOf k) = some k) ∧
      ∀ j k, (view {} s).pack j = some k →
        (view {} s).jobCls j ≠ none ∧ (view {} s).stage k = some .duplicating ∧ (view {} s).jobOf k = j) ↔
    (∀ e ∈ s.assembly.cons, e.2.state = .duplicating →
      ((Table.get s.scheduler.jobs e.2.job).any fun x => decide (x.kind = .pack ∧ x.consignment = e.1)) = true) ∧
    ∀ e ∈ s.scheduler.jobs, e.2.kind = .pack →
      ((Table.get s.assembly.cons e.2.consignment).any fun c => decide (c.state = .duplicating ∧ c.job = e.1)) = true := by
  rw [Table.forall_mem_iff hform.2.2.2.2.1, Table.forall_mem_iff hform.2.2.2.2.2]
  simp only [Option.any_eq_true, decide_eq_true_eq]
  constructor
  · rintro ⟨hdup, hpack⟩
    refine ⟨fun k c hc hst => ?_, fun j x hx hkind => ?_⟩
    · have := hdup k (stage_iff.mpr ⟨c, hc, hst⟩)
      rwa [view_jobOf hc List.not_mem_nil, pack_iff] at this
    · obtain ⟨-, hst, hjob⟩ := hpack j x.consignment (pack_iff.mpr ⟨x, hx, hkind, rfl⟩)
      obtain ⟨c, hc, hst⟩ := stage_iff.mp hst
      rw [view_jobOf hc List.not_mem_nil] at hjob
      exact ⟨c, hc, hst, hjob⟩
  · rintro ⟨hdup, hpack⟩
    refine ⟨fun k hst => ?_, fun j k hj => ?_⟩
    · obtain ⟨c, hc, hst⟩ := stage_iff.mp hst
      rw [view_jobOf hc List.not_mem_nil, pack_iff]
      exact hdup k c hc hst
    · obtain ⟨x, hx, hkind, rfl⟩ := pack_iff.mp hj
      obtain ⟨c, hc, hst, hjob⟩ := hpack j x hx hkind
      rw [view_jobCls hx, view_jobOf hc List.not_mem_nil]
      exact ⟨by simp, stage_iff.mpr ⟨c, hc, hst⟩, hjob⟩

theorem full_iff : (s.assembly.sealedList ≠ [] → ∀ j, 1 ≤ j → j ≤ s.management.geometry.j → (view {} s).jobCls j ≠ none) ↔
    (s.assembly.sealedList ≠ [] → Table.lowestFree s.scheduler.jobs s.management.geometry.j = none) := by
  have hfree : ∀ j, (view {} s).jobCls j ≠ none ↔ Table.get s.scheduler.jobs j ≠ none := fun j => by
    cases hx : Table.get s.scheduler.jobs j <;> simp [view, reads, hx]
  simp only [hfree, lowestFree_none_iff hform.2.2.2.2.2]

/-- Braille sets (R66, R142): the laws of a part, and those of a head. -/
theorem setsWhole_iff (hpools : ∀ e ∈ s.assembly.cons, 1 ≤ e.1 ∧ e.1 ≤ s.management.geometry.c) : SetsWhole s ↔
    (∀ k, (view {} s).present k = true → ((view {} s).shape k).kind = .braillePart →
      (view {} s).IsPart ((view {} s).shape k).head ((view {} s).shape k).head ∧
        ((view {} s).shape ((view {} s).shape k).head).patron = ((view {} s).shape k).patron) ∧
    (∀ k, (view {} s).present k = true → ((view {} s).shape k).kind = .braillePart → 0 ≠ ((view {} s).shape k).head →
      ((view {} s).stage ((view {} s).shape k).head = some .picking ↔ (view {} s).stage k = some .picking)) ∧
    (∀ k, (view {} s).IsPart k k → (view {} s).partsOf k + (view {} s).back k =
      ((view {} s).shape k).parts + ((view {} s).headBack k).toNat ∧ (view {} s).back k < ((view {} s).shape k).parts) ∧
    ∀ k, (view {} s).IsPart k k → (view {} s).headBack k = true → (view {} s).stage k = some .posted := by
  have hshown : ∀ k, k ∉ ({} : Amid).cons := fun _ => List.not_mem_nil
  have hparts := partsOf_eq_length hform fun e he => (hpools e he).2
  rw [SetsWhole, Table.forall_mem_iff hform.2.2.2.2.1]
  simp only [Option.any_eq_true, decide_eq_true_eq]
  constructor
  · intro h
    refine ⟨fun k hk hkind => ?_, fun k hk hkind _ => ?_, fun k hpart => ?_, fun k hpart hback => ?_⟩
    · obtain ⟨c, hc⟩ := present_iff.mp hk
      rw [view_shape hc (hshown k)] at hkind ⊢
      obtain ⟨⟨d, hd, hdkind, hdhead, hdpatron, -⟩, -⟩ := h k c hc hkind
      rw [view_isPart hd (hshown _), view_shape hd (hshown _)]
      exact ⟨⟨hdkind, hdhead⟩, hdpatron⟩
    · obtain ⟨c, hc⟩ := present_iff.mp hk
      rw [view_shape hc (hshown k)] at hkind ⊢
      obtain ⟨⟨d, hd, -, -, -, hpicking⟩, -⟩ := h k c hc hkind
      rw [view_stage hd (hshown _), view_stage hc (hshown k)]
      simpa using hpicking
    · obtain ⟨c, hc⟩ := present_iff.mp hpart.1
      obtain ⟨hkind, hhead⟩ := (view_isPart hc (hshown k)).mp hpart
      obtain ⟨hsum, hlt, -⟩ := (h k c hc hkind).2 hhead
      rw [hparts, view_back hc (hshown k), view_headBack hc (hshown k), view_shape hc (hshown k)]
      exact ⟨hsum, hlt⟩
    · obtain ⟨c, hc⟩ := present_iff.mp hpart.1
      obtain ⟨hkind, hhead⟩ := (view_isPart hc (hshown k)).mp hpart
      rw [view_headBack hc (hshown k)] at hback
      rw [view_stage hc (hshown k), ((h k c hc hkind).2 hhead).2.2 hback]
  · rintro ⟨hheads, htogether, hwhole, hposted⟩ k c hc hkind
    have hpresent := present_iff.mpr ⟨c, hc⟩
    have hof := hheads k hpresent
    have hpicking := htogether k hpresent
    rw [view_shape hc (hshown k)] at hof hpicking
    obtain ⟨hpart, hpatron⟩ := hof hkind
    obtain ⟨d, hd⟩ := present_iff.mp hpart.1
    obtain ⟨hdkind, hdhead⟩ := (view_isPart hd (hshown _)).mp hpart
    rw [view_shape hd (hshown _)] at hpatron
    have hne : 0 ≠ c.head := (Nat.pos_iff_ne_zero.mp (hpools _ (Table.mem_of_get hd)).1).symm
    have hsame := hpicking hkind hne
    rw [view_stage hd (hshown _), view_stage hc (hshown k)] at hsame
    refine ⟨⟨d, hd, hdkind, hdhead, hpatron, by simpa using hsame⟩, fun hhead => ?_⟩
    have hself := (view_isPart hc (hshown k)).mpr ⟨hkind, hhead⟩
    have hsum := hwhole k hself
    have hback := hposted k hself
    rw [hparts, view_back hc (hshown k), view_headBack hc (hshown k), view_shape hc (hshown k)] at hsum
    rw [view_headBack hc (hshown k), view_stage hc (hshown k)] at hback
    exact ⟨hsum.1, hsum.2, fun hb => Option.some.inj (hback hb)⟩

theorem readyQueued_iff : ReadyQueued s ↔
    (s.dispatch.ready.Nodup ∧
      ∀ k, k ∈ s.dispatch.ready ↔ (view {} s).stage k = some .ready ∨ (view {} s).stage k = some .releasing) ∧
    (s.dispatch.outstanding.map Release.consignment).Nodup ∧
      ∀ k, k ∈ s.dispatch.outstanding.map Release.consignment ↔ (view {} s).stage k = some .releasing := by
  have hready : ∀ k, ((view {} s).stage k = some .ready ∨ (view {} s).stage k = some .releasing) ↔
      ∃ c, Table.get s.assembly.cons k = some c ∧ (c.state = .ready ∨ c.state = .releasing) := fun k => by
    simp only [stage_iff, ← exists_or, ← and_or_left]
  rw [ReadyQueued, Table.forall_mem_iff hform.2.2.2.2.1, Table.forall_mem_iff hform.2.2.2.2.1]
  simp only [hready]
  simp only [stage_iff, listed_iff (s := s) (P := fun st => st = .ready ∨ st = .releasing),
    listed_iff (s := s) (P := fun st => st = .releasing), Option.any_eq_true, decide_eq_true_eq, List.forall_mem_map, and_assoc]

omit hform in
theorem setupIsEmpty_iff : SetupIsEmpty s ↔ ((view {} s).setup = true →
    (∀ r, (view {} s).claim r = none) ∧ (∀ k, (view {} s).present k = false) ∧ ∀ j, (view {} s).jobCls j = none) := by
  have hmode : (view {} s).setup = true ↔ s.management.mode = .setup := by
    simp only [view]
    cases s.management.mode <;> simp [Mode.isSetup]
  have hclaim : ∀ r, (view {} s).claim r = none ↔ Table.get s.requests r = none := fun r => by
    cases hq : Table.get s.requests r <;> simp [view, reads, hq]
  have hpresent : ∀ k, (view {} s).present k = false ↔ Table.get s.assembly.cons k = none := fun k => by
    cases hc : Table.get s.assembly.cons k <;> simp [view, readsBut, reads, hc]
  have hjob : ∀ j, (view {} s).jobCls j = none ↔ Table.get s.scheduler.jobs j = none := fun j => by
    cases hx : Table.get s.scheduler.jobs j <;> simp [view, reads, hx]
  simp only [SetupIsEmpty, hmode, hclaim, hpresent, hjob, Table.eq_nil_iff]

end Packs

end Sys2Proof.Machine
end

