-- ==== Sys2Proof/Proofs/CirculationLawful.lean ====
section
/-! PROOFS. The laws of circulation of a state are the laws of what it shows. -/

namespace Sys2Proof.Machine

section Lawful

variable {s : State} {n m : Nat}

/-- Every consignment has a present patron (R50). -/
def Owned (s : State) : Prop :=
  ∀ k c, Table.get s.assembly.cons k = some c → ∃ p, Table.get s.records.patrons c.patron = some p

theorem Owned.openLinesOf (h : Owned s) (hp : Table.get s.records.patrons n = none) (hform : TablesCanonical s) :
    openLinesOf s n = [] := by
  have hnone : s.assembly.cons.filter (fun e => decide (e.2.patron = n)) = [] := by
    refine List.filter_eq_nil_iff.mpr fun e he hn => ?_
    obtain ⟨p, hp'⟩ := h e.1 e.2 (Table.get_of_mem_wf hform.2.2.2.2.1 he)
    rw [of_decide_eq_true hn, hp] at hp'
    cases hp'
  rw [Machine.openLinesOf, hnone, List.flatMap_nil]

theorem Owned.marks (h : Owned s) (hp : Table.get s.records.patrons n = none) (hform : TablesCanonical s) :
    (s.assembly.cons.countP fun o => decide (o.2.patron = n ∧ o.2.overdue = true)) = 0 := by
  refine List.countP_eq_zero.mpr fun e he hn => ?_
  obtain ⟨p, hp'⟩ := h e.1 e.2 (Table.get_of_mem_wf hform.2.2.2.2.1 he)
  rw [(of_decide_eq_true hn).1, hp] at hp'
  cases hp'

variable (hform : TablesCanonical s) (hpools : InPools s) (hopen : AllOpen s)

include hform hpools hopen

/-- A patron claims each title once (R24): among its requests and open lines. -/
theorem once_iff : (∀ n m, (view {} s).live n m + (view {} s).openOf n m ≤ 1) ↔
    (∀ e ∈ s.requests, (s.requests.countP fun o => decide (o.2.patron = e.2.patron ∧ o.2.title = e.2.title)) = 1 ∧
      ∀ l ∈ openLinesOf s e.2.patron, l.title ≠ e.2.title) ∧
    ∀ n, ((openLinesOf s n).map Line.title).Nodup := by
  obtain ⟨-, -, hrequests, hcons, -⟩ := hpools
  simp only [live_eq_countP hform fun e he => (hrequests e he).2, openOf_eq_count hform (fun e he => (hcons e he).2) hopen]
  constructor
  · intro h
    refine ⟨fun e he => ?_, fun n => List.nodup_iff_count_le_one.mpr fun m => le_of_add_le_right (h n m)⟩
    have hpos : 0 < s.requests.countP fun o => decide (o.2.patron = e.2.patron ∧ o.2.title = e.2.title) :=
      List.countP_pos_iff.mpr ⟨e, he, by simp⟩
    have honce := h e.2.patron e.2.title
    have hzero : ((openLinesOf s e.2.patron).map Line.title).count e.2.title = 0 := by omega
    exact ⟨by omega, fun l hl hname => List.count_eq_zero.mp hzero (hname ▸ List.mem_map_of_mem hl)⟩
  · rintro ⟨hrequest, hnodup⟩ n m
    by_cases hlive : ∃ e ∈ s.requests, e.2.patron = n ∧ e.2.title = m
    · obtain ⟨e, he, rfl, rfl⟩ := hlive
      obtain ⟨hone, hlines⟩ := hrequest e he
      have hzero : ((openLinesOf s e.2.patron).map Line.title).count e.2.title = 0 :=
        List.count_eq_zero.mpr fun hmem => by
          obtain ⟨l, hl, hname⟩ := List.mem_map.mp hmem
          exact hlines l hl hname
      rw [hone, hzero]
    · have hnone : (s.requests.countP fun o => decide (o.2.patron = n ∧ o.2.title = m)) = 0 :=
        List.countP_eq_zero.mpr fun e he hclaim => hlive ⟨e, he, of_decide_eq_true hclaim⟩
      have hcount := List.nodup_iff_count_le_one.mp (hnodup n) m
      omega

/-- A patron's counts and its chain (R4, R36, R171). -/
theorem patronsCounted_iff (howned : Owned s) : PatronsCounted s ↔
    (∀ n, (view {} s).charge n = (view {} s).linesOf n) ∧ (∀ n, ((openLinesOf s n).map Line.title).Nodup) ∧
      (∀ n, (view {} s).overdue n = (view {} s).marksOf n) ∧ Lists (view {} s).chain (view {} s).carrier := by
  have hcons : ConsPooled s := fun e he => (hpools.2.2.2.1 e he).2
  simp only [linesOf_eq_length hform hcons hopen, marksOf_eq_countP hform hcons, chained_iff hform]
  constructor
  · intro h
    refine ⟨fun n => ?_, fun n => ?_, fun n => ?_, fun k c hc hlines => ?_, fun e he => ?_⟩
    · cases hp : Table.get s.records.patrons n with
      | none => simp [howned.openLinesOf hp hform, view, reads, hp]
      | some p => rw [view_charge hp, (h _ (Table.mem_of_get hp)).1]
    · cases hp : Table.get s.records.patrons n with
      | none => simp [howned.openLinesOf hp hform]
      | some p => exact (h _ (Table.mem_of_get hp)).2.1
    · cases hp : Table.get s.records.patrons n with
      | none => rw [howned.marks hp hform]; simp [view, reads, hp]
      | some p => rw [view_overdue hp, (h _ (Table.mem_of_get hp)).2.2.1]
    · obtain ⟨p, hp⟩ := howned k c hc
      exact ⟨p, hp, (h _ (Table.mem_of_get hp)).2.2.2.2.2 _ (Table.mem_of_get hc) rfl hlines⟩
    · obtain ⟨-, -, -, hnodup, hmem, -⟩ := h e he
      exact ⟨hnodup, hmem⟩
  · rintro ⟨hcharge, hnodup, hoverdue, hlines, hchain⟩ e he
    have hp := Table.get_of_mem_wf hform.1 he
    obtain ⟨hchained, hmem⟩ := hchain e he
    refine ⟨by rw [← hcharge, view_charge hp], hnodup e.1, by rw [← hoverdue, view_overdue hp], hchained, hmem, fun o ho hn hl => ?_⟩
    obtain ⟨p, hp', hk⟩ := hlines o.1 o.2 (Table.get_of_mem_wf hform.2.2.2.2.1 ho) hl
    rw [hn, hp] at hp'
    obtain rfl := Option.some.inj hp'
    exact hk

/-- A title's copies (R8). -/
theorem copiesBalanced_iff (hnamed : ∀ k, ∀ m ∈ (view {} s).lines k, ∃ x, (view {} s).title m = some x) : CopiesBalanced s ↔
    (∀ m, (view {} s).out m = (view {} s).naming m) ∧
      ∀ m x, (view {} s).title m = some x →
        CopiesKept x ((view {} s).copies m) ((view {} s).shelf m) ((view {} s).out m) ((view {} s).repair m) := by
  have hnaming := naming_eq_length hform (fun e he => (hpools.2.2.2.1 e he).2) hopen
  rw [copied_iff hform]
  constructor
  · intro h
    refine ⟨fun m => ?_, fun e he => (h e he).2⟩
    cases hx : Table.get s.records.titles m with
    | none =>
      have hnone : (view {} s).naming m = 0 := tally_zero fun k => List.count_eq_zero.mpr fun hm => by
        obtain ⟨x, hx'⟩ := hnamed k m hm
        obtain ⟨y, hy, -⟩ := title_of_view hx'
        rw [hx] at hy
        cases hy
      rw [hnone]
      simp [view, reads, hx]
    | some x => rw [view_out hx, hnaming, (h _ (Table.mem_of_get hx)).1]
  · rintro ⟨hout, hkept⟩ e he
    refine ⟨?_, hkept e he⟩
    rw [← hnaming, ← hout, view_out (Table.get_of_mem_wf hform.2.2.1 he)]

end Lawful

section Both

variable {s : State}

theorem view_blank {k : Nat} (hk : (view {} s).present k = false) : (view {} s).lines k = [] ∧ (view {} s).marked k = false ∧
    (view {} s).back k = 0 ∧ (view {} s).headBack k = false := by
  cases hc : Table.get s.assembly.cons k with
  | none => simp [view, readsBut, reads, hc]
  | some c => exact absurd (hk.symm.trans (view_present hc List.not_mem_nil)) (by simp)

theorem view_present_stage (k : Nat) : (view {} s).present k = ((view {} s).stage k).isSome := by
  cases hc : Table.get s.assembly.cons k <;> simp [view, readsBut, reads, hc]

theorem view_holding {j : Nat} (hj : (view {} s).holds j = true) : (view {} s).jobCls j ≠ none := by
  cases hx : Table.get s.scheduler.jobs j <;> simp_all [view, readsBut, reads]

theorem allOpen_iff (hform : TablesCanonical s) : AllOpen s ↔ ∀ k, (view {} s).opened k = true := by
  rw [AllOpen, Table.forall_mem_iff hform.2.2.2.2.1]
  constructor
  · intro h k
    cases hc : Table.get s.assembly.cons k with
    | none => simp [view, readsBut, reads, hc]
    | some c =>
      rw [view_opened hc List.not_mem_nil, List.all_eq_true]
      exact fun l hl => decide_eq_true (h k c hc l hl)
  · intro h k c hc l hl
    have hall := h k
    rw [view_opened hc List.not_mem_nil, List.all_eq_true] at hall
    exact of_decide_eq_true (hall l hl)

/-- The laws of circulation hold of a state when they hold of what it shows. -/
theorem circulationLaws_iff (hform : TablesCanonical s) : CirculationLaws s ↔ Lawful (view {} s) := by
  constructor
  · rintro ⟨hpools, ⟨hlisted, hwish, hwaiting⟩, hpatrons, hcopies, hformed,
      ⟨hopenPacks, hassembling, hsealedNodup, hsealed, hallSealed, hfull, hdup, hpacks⟩, hsets, hready, hsetup⟩
    obtain ⟨howned, hstaged, hopened, hfitting, hcarrying, hsingle, hmarked⟩ := (consignmentsFormed_iff hform).mp hformed
    have hopen := (allOpen_iff hform).mpr hopened
    have hown : Owned s := fun k c hc => Option.isSome_iff_exists.mp (hformed _ (Table.mem_of_get hc)).1
    obtain ⟨hcharged, hnodup, hmarks, hchained⟩ := (patronsCounted_iff hform hpools hopen hown).mp hpatrons
    obtain ⟨hlent, hcopied⟩ := (copiesBalanced_iff hform hpools hopen fun k m hm => (hfitting k m hm).imp fun _ => And.left).mp hcopies
    obtain ⟨hduplicating, hpacking⟩ := (packs_iff hform).mpr ⟨hdup, hpacks⟩
    obtain ⟨hheads, htogether, hwhole, hheadPosted⟩ := (setsWhole_iff hform hpools.2.2.2.1).mp hsets
    obtain ⟨hreadyQueue, hreleases⟩ := (readyQueued_iff hform).mp hready
    have honce := (once_iff hform hpools hopen).mpr ⟨fun e he => (hlisted e he).2.2, hnodup⟩
    obtain ⟨hmember, htitle, hclaim, hcons, hjob⟩ := (inPools_iff hform).mp hpools
    exact
      { memberPool := hmember
        titlePool := htitle
        claimPool := hclaim
        consPool := hcons
        jobPool := hjob
        present := view_present_stage
        wished := (wished_iff hform).mpr ⟨fun e he => (hlisted e he).1, hwish⟩
        waited := (waited_iff hform).mpr ⟨fun e he => (hlisted e he).2.1, hwaiting⟩
        once := honce
        charged := hcharged
        marks := hmarks
        chained := hchained
        lent := hlent
        copied := hcopied
        blank := fun _ => view_blank
        opened := hopened
        owned := howned
        staged := hstaged
        fitting := hfitting
        carrying := hcarrying
        single := hsingle
        markedPosted := hmarked
        openPacks := (openPacks_iff hform).mpr hopenPacks
        assembling := (assembling_iff hform hown).mpr hassembling
        sealedList := ⟨hsealedNodup, (sealed_iff hform).mpr ⟨hsealed, hallSealed⟩⟩
        full := (full_iff hform).mpr hfull
        duplicating := hduplicating
        packing := hpacking
        holding := fun _ => view_holding
        heads := hheads
        together := htogether
        whole := hwhole
        headPosted := hheadPosted
        readyQueue := hreadyQueue
        releases := hreleases
        emptySetup := setupIsEmpty_iff.mp hsetup }
  · intro h
    have hpools := (inPools_iff hform).mpr ⟨h.memberPool, h.titlePool, h.claimPool, h.consPool, h.jobPool⟩
    have hopen := (allOpen_iff hform).mpr h.opened
    have hformed := (consignmentsFormed_iff hform).mpr
      ⟨h.owned, h.staged, h.opened, h.fitting, h.carrying, h.single, h.markedPosted⟩
    have hown : Owned s := fun k c hc => Option.isSome_iff_exists.mp (hformed _ (Table.mem_of_get hc)).1
    obtain ⟨honce, hnodup⟩ := (once_iff hform hpools hopen).mp h.once
    obtain ⟨hwished, hwish⟩ := (wished_iff hform).mp h.wished
    obtain ⟨hwaited, hwaiting⟩ := (waited_iff hform).mp h.waited
    obtain ⟨hsealed, hallSealed⟩ := (sealed_iff hform).mp h.sealedList.2
    obtain ⟨hdup, hpacks⟩ := (packs_iff hform).mp ⟨h.duplicating, h.packing⟩
    exact ⟨hpools, ⟨fun e he => ⟨hwished e he, hwaited e he, honce e he⟩, hwish, hwaiting⟩,
      (patronsCounted_iff hform hpools hopen hown).mpr ⟨h.charged, hnodup, h.marks, h.chained⟩,
      (copiesBalanced_iff hform hpools hopen fun k m hm => (h.fitting k m hm).imp fun _ => And.left).mpr ⟨h.lent, h.copied⟩,
      hformed,
      ⟨(openPacks_iff hform).mp h.openPacks, (assembling_iff hform hown).mp h.assembling, h.sealedList.1, hsealed, hallSealed,
        (full_iff hform).mp h.full, hdup, hpacks⟩,
      (setsWhole_iff hform hpools.2.2.2.1).mpr ⟨h.heads, h.together, h.whole, h.headPosted⟩,
      (readyQueued_iff hform).mpr ⟨h.readyQueue, h.releases⟩, setupIsEmpty_iff.mpr h.emptySetup⟩

end Both

end Sys2Proof.Machine
end

