-- ==== Sys2Proof/Proofs/CirculationLaws.lean ====
section
/-! PROOFS. O11: every step keeps the laws of circulation and, with the accounts balanced, the agreement of the class counts
(R148). -/

namespace Sys2Proof.Machine

section Counts

variable {s : State}

theorem consigns_eq (c : Consignment) : consigns c.kind (some c.state) = countsConsigned c := by
  cases hkind : c.kind <;> cases hst : c.state <;> simp [consigns, countsConsigned, hkind, hst]

theorem heldOf_eq_countP (hform : TablesCanonical s) (hpools : InPools s) (c : Nat) : (view {} s).heldOf c =
    s.scheduler.jobs.countP fun e => decide ((e.2.state = .active ∨ e.2.state = .parked) ∧ e.2.cartridgeClass = c) :=
  tally_eq_countP hform.2.2.2.2.2 (fun e he => (hpools.2.2.2.2 e he).2)
    (fun j x hx => by simp [view, readsBut, reads, hx, Job.holds]) fun j hx => by simp [view_holds_none hx]

theorem consignedOf_eq_countP (hform : TablesCanonical s) (hpools : InPools s) (c : Nat) : (view {} s).consignedOf c =
    s.assembly.cons.countP fun e => countsConsigned e.2 && decide (e.2.cartridgeClass = c) :=
  tally_eq_countP hform.2.2.2.2.1 (fun e he => (hpools.2.2.2.1 e he).2)
    (fun k x hx => by simp [view_shape hx, view_stage hx, consigns_eq])
    fun k hx => by simp [view, readsBut, reads, hx, ConsShape.free, consigns]

/-- A sum over the SHELF audio titles of a class. -/
theorem shelfTitles_sum (hform : TablesCanonical s) (hpools : InPools s) (c : Nat) {F : Nat → Nat} {f : Title → Nat}
    (hF : ∀ m x, Table.get s.records.titles m = some x → F m = f x) :
    tally s.management.geometry.t (fun m => if shelfAudioOf ((view {} s).title m) c then F m else 0) =
      ((shelfTitlesOf s c).map fun e => f e.2).sum := by
  rw [shelfTitlesOf, sum_filter]
  exact tally_eq_sum hform.2.2.1 (fun e he => (hpools.2.1 e he).2)
    (fun m x hx => by simp [view_title hx, hF m x hx, shelfAudioOf, titleShape])
    fun m hx => by simp [view, reads, hx, shelfAudioOf]

theorem countsAgree_iff (hform : TablesCanonical s) (hpools : InPools s) :
    CountsAgree s ↔ ∀ c, IsClass c → AccountAgrees (view {} s) c (accountAt s c) := by
  have hshelf : ∀ c, (view {} s).shelvedOf c = ((shelfTitlesOf s c).map fun e => e.2.shelf).sum := fun c =>
    shelfTitles_sum hform hpools c fun _ _ hx => view_shelf hx
  have hbench : ∀ c, (view {} s).benchOf c = ((shelfTitlesOf s c).map fun e => e.2.repair).sum := fun c =>
    shelfTitles_sum hform hpools c fun _ _ hx => view_repair hx
  simp only [CountsAgree, ← heldOf_eq_countP hform hpools, ← consignedOf_eq_countP hform hpools, ← hshelf, ← hbench]
  exact ⟨fun h c hc => ⟨(h c hc.1 hc.2).1, (h c hc.1 hc.2).2.1, (h c hc.1 hc.2).2.2.1, (h c hc.1 hc.2).2.2.2⟩,
    fun h c h1 h4 => ⟨(h c ⟨h1, h4⟩).reserved, (h c ⟨h1, h4⟩).consigned, (h c ⟨h1, h4⟩).shelf, (h c ⟨h1, h4⟩).bench⟩⟩

theorem ClassesAgree.classed (h : ClassesAgree s) : Classed (view {} s) := by
  obtain ⟨hpatron, htitle, hjob, hcons, hsetup⟩ := h
  refine ⟨fun n hn => ?_, fun m x hx => ?_, fun j c hj => ?_, fun j k hj => ?_, fun k hk hkind => ?_, fun k hkind m hm x hx => ?_,
    fun hs m => ?_⟩
  · obtain ⟨p, hp⟩ := member_iff.mp hn
    rw [view_patronCls hp]
    exact hpatron _ (Table.mem_of_get hp)
  · obtain ⟨y, hy, rfl⟩ := title_iff.mp hx
    exact htitle _ (Table.mem_of_get hy)
  · obtain ⟨x, hx, rfl⟩ := jobCls_iff.mp hj
    obtain ⟨h1, h4, -⟩ := hjob _ (Table.mem_of_get hx)
    exact ⟨h1, h4⟩
  · obtain ⟨x, hx, hkind, rfl⟩ := pack_iff.mp hj
    obtain ⟨c, hc, hcls⟩ := (Option.any_eq_true _ _).mp ((hjob _ (Table.mem_of_get hx)).2.2 hkind)
    rw [view_jobCls hx, view_shape hc List.not_mem_nil, of_decide_eq_true hcls]
  · obtain ⟨c, hc⟩ := present_iff.mp hk
    rw [view_shape hc List.not_mem_nil] at hkind ⊢
    exact (hcons _ (Table.mem_of_get hc)).1 hkind
  · cases hc : Table.get s.assembly.cons k with
    | none => simp [view_lines_absent hc] at hm
    | some c =>
      rw [view_shape hc List.not_mem_nil] at hkind ⊢
      rw [view_lines hc List.not_mem_nil] at hm
      obtain ⟨l, hl, rfl⟩ := List.mem_map.mp hm
      obtain ⟨y, hy, rfl⟩ := title_iff.mp hx
      have hcls := (hcons _ (Table.mem_of_get hc)).2 hkind l hl
      rw [hy, Option.any_some] at hcls
      exact of_decide_eq_true hcls
  · have hmode : s.management.mode = .setup := by
      cases hm : s.management.mode with
      | setup => rfl
      | service => simp [view, hm, Mode.isSetup] at hs
    cases hx : Table.get s.records.titles m with
    | none => simp [view, reads, hx]
    | some x => rw [view_repair hx, hsetup hmode _ (Table.mem_of_get hx)]

theorem Classed.classesAgree (h : Classed (view {} s)) (hl : Lawful (view {} s)) (hform : TablesCanonical s) : ClassesAgree s := by
  obtain ⟨hpatrons, -, htitles, -, hcons, hjobs⟩ := hform
  rw [ClassesAgree, Table.forall_mem_iff hpatrons, Table.forall_mem_iff htitles, Table.forall_mem_iff hjobs,
    Table.forall_mem_iff hcons, Table.forall_mem_iff htitles]
  refine ⟨fun n p hp => ?_, fun m x hx => h.title m _ (view_title hx), fun j x hx => ?_, fun k c hc => ⟨fun hkind => ?_, fun hkind l hl' => ?_⟩,
    fun hs m x hx => ?_⟩
  · have := h.patron n (view_member hp)
    rwa [view_patronCls hp] at this
  · obtain ⟨h1, h4⟩ := h.job j _ (view_jobCls hx)
    refine ⟨h1, h4, fun hkind => ?_⟩
    have hpack := pack_iff.mpr ⟨x, hx, hkind, rfl⟩
    obtain ⟨-, hst, -⟩ := hl.packing j x.consignment hpack
    obtain ⟨c, hc, -⟩ := stage_iff.mp hst
    have hcls := h.pack j x.consignment hpack
    rw [view_jobCls hx, view_shape hc List.not_mem_nil] at hcls
    rw [hc, Option.any_some]
    exact decide_eq_true (Option.some.inj hcls).symm
  · have := h.cons k (view_present hc List.not_mem_nil)
    rw [view_shape hc List.not_mem_nil] at this
    exact this hkind
  · have hm : l.title ∈ (view {} s).lines k := by
      rw [view_lines hc List.not_mem_nil]
      exact List.mem_map_of_mem hl'
    obtain ⟨y, hy, -⟩ := hl.fitting k _ hm
    obtain ⟨x, hx, -⟩ := title_iff.mp hy
    have := h.copy k (by rw [view_shape hc List.not_mem_nil]; exact hkind) _ hm _ (view_title hx)
    rw [view_shape hc List.not_mem_nil] at this
    rw [hx, Option.any_some]
    exact decide_eq_true this
  · have := h.bench (by simp [view, hs, Mode.isSetup]) m
    rwa [view_repair hx] at this

/-- The counts of R148 agree with what the state shows. -/
theorem counted_iff (hform : TablesCanonical s) (hlaws : CirculationLaws s) :
    Counted (view {} s) (accountAt s) ↔ CountsAgree s ∧ ClassesAgree s := by
  rw [countsAgree_iff hform hlaws.1]
  exact ⟨fun h => ⟨h.agrees, h.classed.classesAgree ((circulationLaws_iff hform).mp hlaws) hform⟩,
    fun h => ⟨h.1, h.2.classed⟩⟩

/-- R148's conditions on the accounts of a state. -/
def AccountsAgree (s : State) : Prop := AccountsBalanced s ∧ CountsAgree s ∧ ClassesAgree s

/-- What O11 asks of a state makes the invariant of the steps. -/
theorem CirculationLaws.good (h : CirculationLaws s) (hform : TablesCanonical s) (hplaced : JobsPlaced s) :
    Good (AccountsAgree s) {} s where
  form := hform
  lawful := (circulationLaws_iff hform).mp h
  counted hC := (counted_iff hform h).mpr hC.2
  placed := hplaced.placed
  hides := ⟨fun _ hk => absurd hk List.not_mem_nil, fun _ hj => absurd hj List.not_mem_nil⟩

end Counts

end Sys2Proof.Machine

open Sys2Proof Sys2Proof.Machine in
/-- Settles O11: the laws of circulation, read as laws about record numbers (`Lawful`), are kept by every command (`Good.step`),
and so is the agreement of the class counts (`Counted`). -/
theorem everyStepKeepsCirculationLaws : Obligations.EveryStepKeepsCirculationLaws := by
  unfold Obligations.EveryStepKeepsCirculationLaws
  intro s t hform hplaced hlaws hstep
  have hgood : Good (AccountsAgree s) {} t := (hlaws.good hform hplaced).step And.left hstep
  have hlawsAfter : CirculationLaws t := (circulationLaws_iff hgood.form).mpr hgood.lawful
  exact ⟨hlawsAfter, fun hbalanced hcounts hclasses =>
    (counted_iff hgood.form hlawsAfter).mp (hgood.counted ⟨hbalanced, hcounts, hclasses⟩)⟩
end
